-- ==== Sys2Proof/Word.lean ====
section
/-!
DEFINITION. The words of the machine: the 64-bit register word, the byte, and the plainest arithmetic on them.
-/
namespace Sys2Proof

/-- A 64-bit word: a lane of a `v` register, an `s` register, an address, an instruction word (01 R15, 09 R109). -/
abbrev Word := BitVec 64

/-- One byte of memory. -/
abbrev Byte := BitVec 8

/-- `zx(x)` of R138 for a value already cut to its width. -/
abbrev zx {n : Nat} (x : BitVec n) : Nat := x.toNat

/-- `sx(x)` of R138 for a value already cut to its width. -/
abbrev sx {n : Nat} (x : BitVec n) : Int := x.toInt

/-- `wrap(r, w)` of R138: r modulo 2^w, as w bits. -/
abbrev wrap (w : Nat) (r : Int) : BitVec w := BitVec.ofInt w r

end Sys2Proof
end

