-- ==== Sys2Proof/Syntax.lean ====
section
/-!
DEFINITION. The instructions of Relham version 1 and the events of the package: one constructor per row of the table
of operations. Operand forms follow 09 R110 to R135; a constructor's arguments are the fields of its word, or the
object that an event names.
-/
namespace Sys2Proof

/-! ## Operands -/

/-- A 9-bit operand field of R112 that names a register or the zero register. -/
inductive Opd where
  | v (n : Fin 320)   -- a vector register
  | s (n : Fin 64)    -- a scalar register
  | zero              -- 511: reads 0, writes discarded
  deriving DecidableEq, Repr

/-- A source operand with its last-use bit L and keep bit K (R114). L = K = 1 is reserved (see WellFormed). -/
structure Src where
  r : Opd
  last : Bool := false
  keep : Bool := false
  deriving DecidableEq, Repr

/-- The guard of R111: predicate number and negation. `p7` negated is reserved (see WellFormed). -/
structure Guard where
  neg : Bool
  p : Fin 8
  deriving DecidableEq, Repr

/-- No guard: 0b0111 (R111). -/
def Guard.always : Guard := { neg := false, p := 7 }

/-! ## Modifiers -/

/-- Element width of the integer layout (R116) and of the cross-lane instructions (R171). -/
inductive IWidth where
  | w64 | w32 | w16 | w8
  deriving DecidableEq, Repr

/-- The integer modifier layout of R116. -/
structure IntMod where
  w : IWidth
  u : Bool
  sat : Bool
  deriving DecidableEq, Repr

/-- Element type of the float layout (R116). -/
inductive FType where
  | f32x2 | f16x4 | bf16x4
  deriving DecidableEq, Repr

/-- Rounding mode (R42). -/
inductive RMode where
  | rn | rz | rd | ru
  deriving DecidableEq, Repr

/-- The float modifier layout of R116. -/
structure FloatMod where
  t : FType
  rm : RMode
  sat : Bool
  deriving DecidableEq, Repr

/-- Combining type of a compare (R117). -/
inductive Combine where
  | set | conj | disj | fill | flip
  deriving DecidableEq, Repr

/-- The d field of a compare (R117): combining type and the two target predicates. -/
structure PredDst where
  ty : Combine
  pd1 : Fin 8
  pd2 : Fin 8
  deriving DecidableEq, Repr

/-- Integer conditions (R154). -/
inductive ICond where
  | eq | ne | lt | le | gt | ge
  deriving DecidableEq, Repr

/-- Float conditions (R155). -/
inductive FCond where
  | eq | ne | lt | le | gt | ge | nan | num
  deriving DecidableEq, Repr

/-- The number formats with a code: format codes 0 to 10 of R34, and the further `CVT` types of R164. -/
inductive Fmt where
  | e2m1 | int4 | e2m3 | e3m2 | tf6 | e4m3 | e5m2 | tf8 | int8 | f16 | bf16 | f32 | int32 | e8m0
  deriving DecidableEq, Repr

/-- `PACK` kinds (R167). -/
inductive PackKind where
  | x6 | x4 | w32
  deriving DecidableEq, Repr

/-- `UNPACK` kinds (R168). -/
inductive UnpackKind where
  | x6 | x4lo | x4hi
  deriving DecidableEq, Repr

/-- `SHFL` modes (R172). -/
inductive ShflMode where
  | gather | rot | edge | bfly
  deriving DecidableEq, Repr

/-- `VOTE` modes (R174). -/
inductive VoteMode where
  | every | some | none | split
  deriving DecidableEq, Repr

/-- `BALLOT` modes (R175). -/
inductive BallotMode where
  | mask | rank | count | first
  deriving DecidableEq, Repr

/-- Operations of `LREDUCE` and `LSCAN` (R176). -/
inductive RedOp where
  | add | min | max | and | or | xor
  deriving DecidableEq, Repr

/-- Types of `LREDUCE` and `LSCAN` (R176). -/
inductive RedType where
  | int64 | uint64 | int32 | uint32 | f32 | f16 | bf16
  deriving DecidableEq, Repr

/-- Modes of `MOVI` (R124). -/
inductive MoviMode where
  | sx | lo | hi | dup
  deriving DecidableEq, Repr

/-- Index form of `LEA` (R153). -/
inductive LeaForm where
  | x64 | x32 | x32u
  deriving DecidableEq, Repr

/-- Direction of `PMOV` (R157): predicates to a register, or from one. -/
inductive PmovDir where
  | tov (d : Opd)
  | top (a : Src)
  deriving DecidableEq, Repr

/-- The element formats whose block scale `MXSCALE.calc` computes (R169). -/
inductive MxFmt where
  | e2m1 | e2m3 | e3m2 | e4m3 | e5m2
  deriving DecidableEq, Repr

/-- The two forms of `MXSCALE` (R169): `.calc` has no b operand. -/
inductive MxOp where
  | calc (f : MxFmt)
  | apply (b : Src)
  deriving DecidableEq, Repr

/-- Operation of a half (R128), with its modifiers. -/
inductive HalfOp where
  | iadd (w : IWidth) (sat : Bool) | isub (w : IWidth) (sat : Bool) | imul (w : IWidth)
  | imin (w : IWidth) (u : Bool) | imax (w : IWidth) (u : Bool)
  | shl (w : IWidth) | shr (w : IWidth) | shra (w : IWidth)
  | and | or | xor | andn | mov
  | fadd (t : FType) (rm : RMode) | fsub (t : FType) (rm : RMode) | fmul (t : FType) (rm : RMode)
  | fmin (t : FType) | fmax (t : FType)
  deriving DecidableEq, Repr

/-- A register operation half (R125): both registers lie in one bank (R126). -/
structure HalfBody where
  op : HalfOp
  bank : Fin 6
  d : Fin 64
  a : Fin 64
  lastD : Bool
  keepD : Bool
  lastA : Bool
  keepA : Bool
  deriving DecidableEq, Repr

/-- A half of a paired word: the NOP half, or an operation (R128). -/
inductive Half where
  | nop
  | op (b : HalfBody)
  deriving DecidableEq, Repr

/-! ## Memory and synchronisation fields -/

/-- The five spaces that `LD` and `ST` name (R131). -/
inductive Space where
  | pv | sp | cl | ch | g
  deriving DecidableEq, Repr

/-- The four spaces of atomics and engine jobs (R131, R257). -/
inductive Space4 where
  | sp | cl | ch | g
  deriving DecidableEq, Repr

/-- Access sizes of `LD` and `ST` (R131). -/
inductive Size where
  | b8 | b16 | b32 | b64
  deriving DecidableEq, Repr

/-- Access sizes of atomics (R131). -/
inductive ASize where
  | b32 | b64
  deriving DecidableEq, Repr

/-- Ordering kinds of atomics (R91, R131). -/
inductive OrdKind where
  | plain | acq | rel | ar
  deriving DecidableEq, Repr

/-- Class M scopes (R90). -/
inductive Scope where
  | core | clu | dev | sys
  deriving DecidableEq, Repr

/-- `ATOM` operations (R131). -/
inductive AtomOp where
  | add | min | max | umin | umax | and | or | xor | exch | fadd
  deriving DecidableEq, Repr

/-- `MMA` modes (R121). -/
inductive MmaMode where
  | z | a | s
  deriving DecidableEq, Repr

/-- `EVMASK` operations (R208). -/
inductive EvOp where
  | wr | set | clr
  deriving DecidableEq, Repr

/-- How `RINGWAIT` names its slot and phase (R212): an immediate, or `.it` with an iteration number. -/
inductive RingSel where
  | imm (slot : Fin 16) (phase : Bool)
  | it (a : Opd)
  deriving DecidableEq, Repr

/-- How `RINGREL` names its slot (R212). -/
inductive RingRelSel where
  | imm (slot : Fin 16)
  | it (a : Opd)
  deriving DecidableEq, Repr

/-- The two forms of `VALID` (R218). -/
inductive ValidForm where
  | bit (n : BitVec 6)
  | reg (a : Opd)
  deriving DecidableEq, Repr

/-- Destination types of `DEC` (R246). -/
inductive DecDst where
  | f32 | f16 | bf16
  deriving DecidableEq, Repr

/-- The special registers of R216, by their listed numbers. -/
inductive SysReg where
  | flags | flagen | amax | nancnt | satcnt | evpendLo | evpendHi | evmaskLo | evmaskHi | gang
  | ident | teamno | gridno | depth | deadline | regalloc | spbase | pvbase | validw | sidebase
  deriving DecidableEq, Repr

/-! ## Instructions -/

/-- Every instruction word's meaning, and every event of the package: one constructor per row of the table of
operations. In an instruction word's constructor `g` is the guard, `d` the destination and `a`, `b`, `c` the sources. -/
inductive Instr where
  -- class A and B, integer (11 R146 to R157)
  | iadd (g : Guard) (m : IntMod) (d : Opd) (a b : Src)
  | iaddImm (g : Guard) (m : IntMod) (d : Opd) (a : Src) (imm : BitVec 22)
  | isub (g : Guard) (m : IntMod) (d : Opd) (a b : Src)
  | isubImm (g : Guard) (m : IntMod) (d : Opd) (a : Src) (imm : BitVec 22)
  | iaddc (g : Guard) (w : IWidth) (co : Bool) (d : Opd) (a b c : Src)
  | imul (g : Guard) (m : IntMod) (d : Opd) (a b : Src)
  | imulImm (g : Guard) (m : IntMod) (d : Opd) (a : Src) (imm : BitVec 22)
  | imulhi (g : Guard) (w : IWidth) (u : Bool) (d : Opd) (a b : Src)
  | imad (g : Guard) (m : IntMod) (d : Opd) (a b c : Src)
  | imin (g : Guard) (w : IWidth) (u : Bool) (d : Opd) (a b : Src)
  | iminImm (g : Guard) (w : IWidth) (u : Bool) (d : Opd) (a : Src) (imm : BitVec 22)
  | imax (g : Guard) (w : IWidth) (u : Bool) (d : Opd) (a b : Src)
  | imaxImm (g : Guard) (w : IWidth) (u : Bool) (d : Opd) (a : Src) (imm : BitVec 22)
  | iabs (g : Guard) (w : IWidth) (sat : Bool) (d : Opd) (a : Src)
  | shl (g : Guard) (w : IWidth) (d : Opd) (a b : Src)
  | shlImm (g : Guard) (w : IWidth) (d : Opd) (a : Src) (n : BitVec 6)
  | shr (g : Guard) (w : IWidth) (d : Opd) (a b : Src)
  | shrImm (g : Guard) (w : IWidth) (d : Opd) (a : Src) (n : BitVec 6)
  | shra (g : Guard) (w : IWidth) (d : Opd) (a b : Src)
  | shraImm (g : Guard) (w : IWidth) (d : Opd) (a : Src) (n : BitVec 6)
  | rotl (g : Guard) (w : IWidth) (d : Opd) (a b : Src)
  | rotlImm (g : Guard) (w : IWidth) (d : Opd) (a : Src) (n : BitVec 6)
  | and (g : Guard) (d : Opd) (a b : Src)
  | andImm (g : Guard) (d : Opd) (a : Src) (imm : BitVec 22)
  | or (g : Guard) (d : Opd) (a b : Src)
  | orImm (g : Guard) (d : Opd) (a : Src) (imm : BitVec 22)
  | xor (g : Guard) (d : Opd) (a b : Src)
  | xorImm (g : Guard) (d : Opd) (a : Src) (imm : BitVec 22)
  | andn (g : Guard) (d : Opd) (a b : Src)
  | andnImm (g : Guard) (d : Opd) (a : Src) (imm : BitVec 22)
  | bfx (g : Guard) (w : IWidth) (u : Bool) (d : Opd) (a b : Src)
  | bfxImm (g : Guard) (w : IWidth) (u : Bool) (d : Opd) (a : Src) (pos : BitVec 6) (len : Fin 65)
  | bfi (g : Guard) (w : IWidth) (d : Opd) (a b c : Src)
  | popc (g : Guard) (w : IWidth) (d : Opd) (a : Src)
  | clz (g : Guard) (w : IWidth) (d : Opd) (a : Src)
  | brev (g : Guard) (w : IWidth) (d : Opd) (a : Src)
  | sel (g : Guard) (neg : Bool) (q : Fin 8) (d : Opd) (a b : Src)
  | mov (g : Guard) (d : Opd) (a : Src)
  | lea (g : Guard) (f : LeaForm) (sh : Fin 8) (d : Opd) (a b : Src)
  | leaImm (g : Guard) (f : LeaForm) (sh : Fin 8) (d : Opd) (a : Src) (imm : BitVec 22)
  | icmp (g : Guard) (w : IWidth) (u : Bool) (cond : ICond) (pd : PredDst) (a b : Src)
  | icmpImm (g : Guard) (w : IWidth) (u : Bool) (cond : ICond) (pd : PredDst) (a : Src) (imm : BitVec 22)
  | pset (g : Guard) (pd pa pb : Fin 8) (lut : BitVec 4)
  | pmov (g : Guard) (dir : PmovDir)
  -- class A and B, float (11 R158 to R162)
  | fadd (g : Guard) (m : FloatMod) (d : Opd) (a b : Src)
  | faddImm (g : Guard) (m : FloatMod) (d : Opd) (a : Src) (imm : BitVec 22)
  | fsub (g : Guard) (m : FloatMod) (d : Opd) (a b : Src)
  | fmul (g : Guard) (m : FloatMod) (d : Opd) (a b : Src)
  | fmulImm (g : Guard) (m : FloatMod) (d : Opd) (a : Src) (imm : BitVec 22)
  | ffma (g : Guard) (m : FloatMod) (d : Opd) (a b c : Src)
  | fmin (g : Guard) (t : FType) (d : Opd) (a b : Src)
  | fminImm (g : Guard) (t : FType) (d : Opd) (a : Src) (imm : BitVec 22)
  | fmax (g : Guard) (t : FType) (d : Opd) (a b : Src)
  | fmaxImm (g : Guard) (t : FType) (d : Opd) (a : Src) (imm : BitVec 22)
  | fminm (g : Guard) (t : FType) (d : Opd) (a b : Src)
  | fmaxm (g : Guard) (t : FType) (d : Opd) (a b : Src)
  | fclamp (g : Guard) (t : FType) (d : Opd) (a b c : Src)
  | frnd (g : Guard) (t : FType) (rm : RMode) (d : Opd) (a : Src)
  | fscale (g : Guard) (m : FloatMod) (d : Opd) (a b : Src)
  | fcmp (g : Guard) (t : FType) (cond : FCond) (pd : PredDst) (a b : Src)
  | fcmpImm (g : Guard) (t : FType) (cond : FCond) (pd : PredDst) (a : Src) (imm : BitVec 22)
  | rcp (g : Guard) (d : Opd) (a : Src)
  | rsq (g : Guard) (d : Opd) (a : Src)
  | sqrt (g : Guard) (d : Opd) (a : Src)
  | ex2 (g : Guard) (d : Opd) (a : Src)
  | lg2 (g : Guard) (d : Opd) (a : Src)
  | sinpi (g : Guard) (d : Opd) (a : Src)
  | cospi (g : Guard) (d : Opd) (a : Src)
  | tanh (g : Guard) (d : Opd) (a : Src)
  -- conversion (11 R163 to R170)
  | cvt (g : Guard) (src dst : Fmt) (part : Fin 8) (rm : RMode) (sat amax : Bool) (d : Opd) (a : Src)
  | pack (g : Guard) (k : PackKind) (d : Opd) (a b : Src)
  | unpack (g : Guard) (k : UnpackKind) (d : Opd) (a : Src)
  | mxscale (g : Guard) (op : MxOp) (d : Opd) (a : Src)
  | amaxr (g : Guard) (nr : Bool) (d : Opd)
  -- cross-lane (11 R171 to R178)
  | shfl (g : Guard) (w : IWidth) (mode : ShflMode) (d : Opd) (a b c : Src)
  | shflImm (g : Guard) (w : IWidth) (mode : ShflMode) (d : Opd) (a : Src) (n : BitVec 9)
  | bcast (g : Guard) (w : IWidth) (d : Opd) (a b : Src)
  | bcastImm (g : Guard) (w : IWidth) (d : Opd) (a : Src) (k : BitVec 8)
  | vote (g : Guard) (mode : VoteMode) (v : Fin 8) (neg : Bool) (q : Fin 8) (d : Opd)
  | ballot (g : Guard) (mode : BallotMode) (neg : Bool) (q : Fin 8) (d : Opd)
  | lreduce (g : Guard) (op : RedOp) (t : RedType) (d : Opd) (a : Src)
  | lscan (g : Guard) (op : RedOp) (t : RedType) (d : Opd) (a : Src)
  -- paired words and class I (09 R124 to R128)
  | pairedWord (h0 h1 : Half)
  | movi (g : Guard) (mode : MoviMode) (d : Opd) (imm : BitVec 32)
  -- class M (13 R187 to R201)
  | ld (g : Guard) (spc : Space) (sz : Size) (acq : Bool) (sc : Scope) (la : Fin 16) (d : Opd) (base x : Src)
      (off : BitVec 11)
  | st (g : Guard) (spc : Space) (sz : Size) (rel : Bool) (sc : Scope) (base data : Src) (off : BitVec 11)
  | atom (g : Guard) (op : AtomOp) (k : OrdKind) (spc : Space4) (sz : ASize) (sc : Scope) (la : Fin 16) (d : Opd)
      (base x : Src) (off : BitVec 7)
  | cas (g : Guard) (k : OrdKind) (spc : Space4) (sz : ASize) (sc : Scope) (la : Fin 16) (d : Opd) (base x : Src)
      (off : BitVec 7)
  | ldt (g : Guard) (hi : Bool) (q0 cnt : Fin 16) (sc : Scope) (la : Fin 16) (d : Opd) (base x : Src)
  | stt (g : Guard) (hi : Bool) (q0 cnt : Fin 16) (sc : Scope) (d : Opd) (base x : Src)
  | sttSeal (g : Guard) (hi : Bool) (q0 cnt : Fin 16) (sc : Scope) (d : Opd) (base x : Src)
  | prefG (g : Guard) (sc : Scope) (base x : Src) (off : BitVec 11)
  | prefT (g : Guard) (sc : Scope) (base x : Src) (k : BitVec 11)
  | fenceAcq (g : Guard) (sc : Scope)
  | fenceRel (g : Guard) (sc : Scope)
  | fenceAr (g : Guard) (sc : Scope)
  | afence (g : Guard) (a b : Src)
  | ofence (g : Guard)
  | tfence (g : Guard)
  -- class X, matrix and coded data (15 R221 to R247)
  | gangset (g : Guard) (pair : Bool) (a : Opd)
  | mma (g : Guard) (mode : MmaMode) (bt reuse : Bool) (la : Fin 16) (d a b c : Opd)
  | mmaw (g : Guard)
  | accz (g : Guard) (a : Opd)
  | accld (g : Guard) (out : Bool) (d a : Opd)
  | accst (g : Guard) (dst : Fmt) (srcInt sat : Bool) (rm : RMode) (d a : Opd)
  | accscl (g : Guard) (a b : Opd)
  | accmerge (g : Guard) (la : Fin 16) (a b c : Opd)
  | ctld (g : Guard) (sp : Bool) (slot : Fin 16) (a : Opd)
  | ctst (g : Guard) (sp : Bool) (slot : Fin 16) (d a : Opd)
  | dec (g : Guard) (dst : DecDst) (sat bt : Bool) (la : Fin 16) (d b c : Opd)
  | enc (g : Guard) (fmt : Fmt) (slot : Fin 16) (la : Fin 16) (d a b c : Opd)
  -- class X, engines (17 R257)
  | cpy (g : Guard) (dst src : Space4) (d a b c : Opd)
  | cpy2d (g : Guard) (dst src : Space4) (d a b c : Opd)
  | gather (g : Guard) (dst src : Space4) (csr : Bool) (k : Fin 8) (d a b c : Opd)
  | scatter (g : Guard) (dst src : Space4) (k : Fin 8) (d a b c : Opd)
  | xform (g : Guard) (keep : Bool) (d a b c : Opd)
  | kvsend (g : Guard) (d a b c : Opd)
  | wbcast (g : Guard) (src : Space4) (d a b c : Opd)
  | ringpush (g : Guard) (d a b c : Opd)
  -- class C (13 R182 to R186)
  | bra (g : Guard) (off : BitVec 36)
  | brx (g : Guard) (r : Opd)
  | call (g : Guard) (link : Opd) (off : BitVec 36)
  | ret (g : Guard) (r : Opd)
  | setmeet (g : Guard) (off : BitVec 36)
  | setmeetToken (g : Guard) (tok : Opd)
  | savemeet (g : Guard) (tok : Opd)
  | yield (g : Guard)
  | exit (g : Guard)
  | nop (g : Guard)
  -- class S (13 R202 to R220)
  | bar (g : Guard) (arr : Bool) (count : BitVec 9) (id : Fin 16)
  | cbar (g : Guard) (arr : Bool) (count : BitVec 9) (id : Fin 8)
  | waitany (g : Guard) (d a : Opd) (count : Fin 9)
  | evmask (g : Guard) (op : EvOp) (hi : Bool) (a : Opd)
  | evread (g : Guard) (mask clr hi : Bool) (d : Opd)
  | mbsend (g : Guard) (q : Fin 8) (a b : Opd)
  | mbrecv (g : Guard) (q : Fin 8) (d a : Opd)
  | ringwait (g : Guard) (ring : Fin 8) (sel : RingSel)
  | ringrel (g : Guard) (ring : Fin 8) (sel : RingRelSel)
  | reggrow (g : Guard) (k : Fin 32)
  | accgrow (g : Guard) (k : Fin 4)
  | regshrink (g : Guard) (k : Fin 32)
  | trap (g : Guard) (d a b : Opd) (code : BitVec 17)
  | clock (g : Guard) (cyc : Bool) (d : Opd)
  | sysrd (g : Guard) (d : Opd) (r : SysReg)
  | syswr (g : Guard) (r : SysReg) (a : Opd)
  | valid (g : Guard) (f : ValidForm)
  | launch (g : Guard) (d a : Opd)
  | done (g : Guard) (grid : Bool)
  -- words and fetches that take an exception (09 R136, 13 R183)
  | reservedInstructionWord (w : Word)
  | instructionFetchFault
  -- asynchronous completions (09 R120, 15 R232 to R242)
  | loadCompletion (group : Nat) (dst : Opd) (lanes : BitVec 32)
  | jointMma (group : Nat)
  | mmaCommit (team : Nat) (n : Nat)
  | accmergeFold (team : Nat) (n : Nat)
  -- copy engines (17 R248 to R256, 25 R349)
  | jobStart (core : Nat)
  | chunkCompletion (job : Nat)
  | jobFault (job : Nat)
  | jobRetirement (job : Nat)
  | inboundRemoteWrite (part : Nat) (fid : BitVec 16) (rpart : BitVec 6) (addr : Word) (bytes : List Byte)
  -- groups, teams, records and submissions (01, 13, 19, 21)
  | growGrant (core : Nat) (acc : Bool)
  | teamRetirement (team : Nat)
  | completionNotice (part : Nat)
  | ringRecordWrite (part : Nat) (host : Bool)
  | submissionEntry (part : Nat) (priv : Bool)
  | graphStart
  | nodeDispatch
  | nodeCompletion (node : Nat)
  -- command links (19 R288): the link's number and the command's fields
  | place (link : Nat) (grid first count : Word)
  | cancelUnstartedTeams (link : Nat) (grid : Word)
  | deadlineEventCommand (link : Nat) (grid time : Word)
  | teamsRetired (link : Nat) (grid count cancelled : Word)
  | faultReport (link : Nat) (grid index core : Word)
  | freezeReport (link : Nat) (grid pcore status : Word)
  | reservedLinkCommand (link : Nat) (kind : Byte)
  -- leaf controllers, deadlines, pre-emption and migration (19, 21)
  | teamPlacement (cluster : Nat)
  | deadlineExpiry (graph : Nat)
  | deadlineEvent (group : Nat)
  | gridDeadline (grid : Nat)
  | teamEviction (team : Nat)
  | teamRestore (team : Nat)
  | coreFreeze (core : Nat) (unit : Byte) (lost : List Nat)
  | migration (core : Nat)
  -- memory tiers and translation (23)
  | sectorLookup (addr : BitVec 52) (write : Bool)
  | translationWalk (core part : Nat) (va : Word)
  -- the card's register window (25 R340)
  | mqbaseWrite (v : Word)
  | managementDoorbell (v : Word)
  | normalSubmissionDoorbell (v : Word)
  | privilegedSubmissionDoorbell (v : Word)
  | reservedQueueDoorbell (v : Word)
  | irqstWrite (v : Word)
  | registerWrite (off : BitVec 16) (v : Word)
  -- management commands (25 R342, R356): the partition field and the argument words
  | pcfg (part : BitVec 6) (block : Word)
  | pdrop (part : BitVec 6)
  | gactResume (part : BitVec 6) (grid who reply : Word)
  | gactSkip (part : BitVec 6) (grid who : Word)
  | gactTerminateGroup (part : BitVec 6) (grid who : Word)
  | gactTerminateGrid (part : BitVec 6) (grid : Word)
  | jactResume (part : BitVec 6) (index : Word)
  | jactCancel (part : BitVec 6) (index : Word)
  | evict (part : BitVec 6) (grid team : Word)
  | tinv (part : BitVec 6) (scope start length : Word)
  | sprobe (index : Word)
  | sreset (index : Word)
  | cntrd (code inst clear : Word)
  | hset (part : BitVec 6) (handle entry : Word)
  | attest (part : BitVec 6) (nonce report : Word)
  | pwrcap (watts : Word)
  | toff (part : BitVec 6) (v : Word)
  | tsrc (src v : Word)
  | fid (v : Word)
  | fwload (image length target : Word)
  | bootcfg (c k : Word)
  | go
  | reservedManagementCommand (opcode : Byte)
  -- time, links, power (19 R266, 25 R337, R347, R350, R354 to R356)
  | timeMessage (ns : Nat)
  | ppsPulse
  | ppsUnlock
  | linkDown
  | linkTraining (comesUp : Bool)
  | fabricPathDown (port : Fin 16)
  | powerWindow (throttled : Bool)
  | junctionLimit
  | junctionBelowLimit
  | thermalTrip
  | powerGood
  deriving DecidableEq, Repr

end Sys2Proof
end

