-- ==== Sys2Proof/WellFormed.lean ====
section
/-!
DEFINITION. Which terms of `Instr` stand for a word that no row 1 to 6 of R136 refuses (the rows that need only the word
itself). A term outside `Instr.wellFormed` has no encoding.
-/
namespace Sys2Proof

/-! ## Register classes (R112, R136 order 6) -/

def Opd.isV : Opd → Bool
  | .v _ => true
  | _ => false

def Opd.isS : Opd → Bool
  | .s _ => true
  | _ => false

def Opd.isZero : Opd → Bool
  | .zero => true
  | _ => false

/-- `s`(n) such that `s`(n) to `s`(n + k) exist. -/
def Opd.isSRun (k : Nat) : Opd → Bool
  | .s n => n.val + k ≤ 63
  | _ => false

/-- An `s` register or 511. -/
def Opd.isSZ (o : Opd) : Bool := o.isS || o.isZero

/-- A `v` register or 511. -/
def Opd.isVZ (o : Opd) : Bool := o.isV || o.isZero

/-- A `v` or an `s` register. -/
def Opd.isVS (o : Opd) : Bool := o.isV || o.isS

/-- `s`(n) with its run, or 511. -/
def Opd.isSRunZ (k : Nat) (o : Opd) : Bool := o.isSRun k || o.isZero

/-! ## Fields (R136 order 5) -/

/-- The guard 0b1111 is reserved (R111). -/
def Guard.wf (g : Guard) : Bool := !(g.neg && g.p == 7)

/-- L = K = 1 is reserved (R114). -/
def Src.wf (s : Src) : Bool := !(s.last && s.keep)

/-- A source field that the instruction does not use: 511, hints 0 (R136). -/
def Src.unused : Src := { r := .zero }

/-- pd1 = pd2 ≠ 7 is reserved (R117). -/
def PredDst.wf (p : PredDst) : Bool := !(p.pd1 == p.pd2 && p.pd1 != 7)

/-- A half with L = K = 1 is reserved (R114, R125). -/
def HalfBody.wf (h : HalfBody) : Bool := !(h.lastD && h.keepD) && !(h.lastA && h.keepA)

def Half.wf : Half → Bool
  | .nop => true
  | .op b => b.wf

def PmovDir.wf : PmovDir → Bool
  | .tov _ => true
  | .top a => a.wf

def MxOp.wf : MxOp → Bool
  | .calc _ => true
  | .apply b => b.wf

/-- Sub-elements per lane of a `CVT` type (R164). -/
def Fmt.perLane : Fmt → Nat
  | .f32 | .int32 => 2
  | .f16 | .bf16 => 4
  | .e2m3 | .e3m2 | .tf6 | .e4m3 | .e5m2 | .tf8 | .int8 | .e8m0 => 8
  | .e2m1 | .int4 => 16

def Fmt.isTapered : Fmt → Bool
  | .tf6 | .tf8 => true
  | _ => false

/-- `ratio` of R165. -/
def cvtRatio (src dst : Fmt) : Nat :=
  max src.perLane dst.perLane / min src.perLane dst.perLane

/-- A tapered destination accepts only `.rn` (R42). -/
def roundOk (dst : Fmt) (rm : RMode) : Bool := !(dst.isTapered && rm != .rn)

def FType.is16 : FType → Bool
  | .f32x2 => false
  | _ => true

/-- A float immediate of a 16-bit type has bits [21:16] = 0 (R118). -/
def fimmOk (t : FType) (imm : BitVec 22) : Bool := !t.is16 || imm.extractLsb' 16 6 == 0#6

def RedOp.isLogic : RedOp → Bool
  | .and | .or | .xor => true
  | _ => false

def RedType.isFloat : RedType → Bool
  | .f32 | .f16 | .bf16 => true
  | _ => false

/-- The logical reductions of a float type are reserved (R176). -/
def redOk (op : RedOp) (t : RedType) : Bool := !(op.isLogic && t.isFloat)

/-- Format codes 0 to 10 (R34). -/
def Fmt.hasCode : Fmt → Bool
  | .f32 | .int32 | .e8m0 => false
  | _ => true

def RingSel.wf : RingSel → Bool
  | _ => true

/-- The operands of `LDT` and `STT` (R119, R192, R193); `cnt` is count − 1. -/
def tensorOk (d : Opd) (base x : Src) (q0 cnt : Fin 16) : Bool :=
  d.isVZ && base.r.isS && x.r.isSRun 2 && base.wf && x.wf && q0.val + cnt.val ≤ 15

/-! ## Instructions -/

/-- The word-level checks of R136 that a term could break. Events have no word and pass; the meaning of a reserved word
is made by the decoder alone, so no term of that form is well formed. -/
def Instr.wellFormed : Instr → Bool
  | .iadd g _ _ a b | .isub g _ _ a b | .imul g _ _ a b => g.wf && a.wf && b.wf
  | .iaddImm g _ _ a _ | .isubImm g _ _ a _ | .imulImm g _ _ a _ => g.wf && a.wf
  | .iaddc g _ _ _ a b c => g.wf && a.wf && b.wf && c.wf
  | .imulhi g _ _ _ a b | .imin g _ _ _ a b | .imax g _ _ _ a b => g.wf && a.wf && b.wf
  | .iminImm g _ _ _ a _ | .imaxImm g _ _ _ a _ => g.wf && a.wf
  | .imad g _ _ a b c => g.wf && a.wf && b.wf && c.wf
  | .iabs g _ _ _ a => g.wf && a.wf
  | .shl g _ _ a b | .shr g _ _ a b | .shra g _ _ a b | .rotl g _ _ a b => g.wf && a.wf && b.wf
  | .shlImm g _ _ a _ | .shrImm g _ _ a _ | .shraImm g _ _ a _ | .rotlImm g _ _ a _ => g.wf && a.wf
  | .and g _ a b | .or g _ a b | .xor g _ a b | .andn g _ a b => g.wf && a.wf && b.wf
  | .andImm g _ a _ | .orImm g _ a _ | .xorImm g _ a _ | .andnImm g _ a _ => g.wf && a.wf
  | .bfx g _ _ _ a b => g.wf && a.wf && b.wf
  | .bfxImm g _ _ _ a _ _ => g.wf && a.wf
  | .bfi g _ _ a b c => g.wf && a.wf && b.wf && c.wf
  | .popc g _ _ a | .clz g _ _ a | .brev g _ _ a => g.wf && a.wf
  | .sel g _ _ _ a b => g.wf && a.wf && b.wf
  | .mov g _ a => g.wf && a.wf
  | .lea g _ _ _ a b => g.wf && a.wf && b.wf
  | .leaImm g _ _ _ a _ => g.wf && a.wf
  | .icmp g _ _ _ pd a b => g.wf && pd.wf && a.wf && b.wf
  | .icmpImm g _ _ _ pd a _ => g.wf && pd.wf && a.wf
  | .pset g _ _ _ _ => g.wf
  | .pmov g dir => g.wf && dir.wf
  | .fadd g _ _ a b | .fsub g _ _ a b | .fmul g _ _ a b | .fscale g _ _ a b => g.wf && a.wf && b.wf
  | .faddImm g m _ a imm | .fmulImm g m _ a imm => g.wf && a.wf && fimmOk m.t imm
  | .ffma g _ _ a b c => g.wf && a.wf && b.wf && c.wf
  | .fmin g _ _ a b | .fmax g _ _ a b | .fminm g _ _ a b | .fmaxm g _ _ a b => g.wf && a.wf && b.wf
  | .fminImm g t _ a imm | .fmaxImm g t _ a imm => g.wf && a.wf && fimmOk t imm
  | .fclamp g _ _ a b c => g.wf && a.wf && b.wf && c.wf
  | .frnd g _ _ _ a => g.wf && a.wf
  | .fcmp g _ _ pd a b => g.wf && pd.wf && a.wf && b.wf
  | .fcmpImm g t _ pd a imm => g.wf && pd.wf && a.wf && fimmOk t imm
  | .rcp g _ a | .rsq g _ a | .sqrt g _ a | .ex2 g _ a | .lg2 g _ a | .sinpi g _ a | .cospi g _ a
  | .tanh g _ a => g.wf && a.wf
  | .cvt g src dst part rm _ _ _ a => g.wf && a.wf && part.val < cvtRatio src dst && roundOk dst rm
  | .pack g k _ a b => g.wf && a.wf && b.wf && (k != .x6 || b == .unused)
  | .unpack g _ _ a => g.wf && a.wf
  | .mxscale g op _ a => g.wf && a.wf && op.wf
  | .amaxr g _ _ => g.wf
  | .shfl g _ mode _ a b c =>
    g.wf && a.wf && b.wf && c.wf && (mode == .gather || b.r.isSZ) && (mode == .edge || c == .unused)
  | .shflImm g _ mode _ a _ => g.wf && a.wf && mode != .gather
  | .bcast g _ _ a b => g.wf && a.wf && b.wf
  | .bcastImm g _ _ a _ => g.wf && a.wf
  | .vote g _ _ _ _ _ => g.wf
  | .ballot g mode _ _ d => g.wf && (mode != .rank || d.isVZ)
  | .lreduce g op t _ a | .lscan g op t _ a => g.wf && a.wf && redOk op t
  | .pairedWord h0 h1 => h0.wf && h1.wf
  | .movi g _ _ _ => g.wf
  | .atom g op _ _ sz _ _ _ base x _ => g.wf && base.wf && x.wf && !(op == .fadd && sz == .b64)
  | .ld g _ _ _ _ _ _ base x _ | .cas g _ _ _ _ _ _ base x _
  | .st g _ _ _ _ base x _ => g.wf && base.wf && x.wf
  | .ldt g _ q0 cnt _ _ d base x | .stt g _ q0 cnt _ d base x => g.wf && tensorOk d base x q0 cnt
  | .sttSeal g _ q0 cnt _ d base x => g.wf && tensorOk d base x q0 cnt && q0.val + cnt.val == 15
  | .prefG g _ base x _ => g.wf && base.wf && x.wf
  | .prefT g _ base x _ => g.wf && base.wf && x.wf && base.r.isS && x.r.isSRun 1
  | .fenceAcq g _ | .fenceRel g _ | .fenceAr g _ | .ofence g | .tfence g => g.wf
  | .afence g a b => g.wf && a.wf && b.wf && a.r.isS && b.r.isS
  | .gangset g _ a => g.wf && a.isSZ
  | .mma g mode bt _ _ d a b c =>
    g.wf && (if mode == .s then d.isSZ else d.isZero) && a.isV && (if bt then b.isSRun 2 else b.isS) && c.isVS
  | .mmaw g => g.wf
  | .accz g a => g.wf && a.isS
  | .accld g _ d a => g.wf && d.isV && a.isS
  | .accst g dst _ _ rm d a => g.wf && d.isV && a.isS && dst != .e8m0 && roundOk dst rm
  | .accscl g a b => g.wf && a.isS && b.isVS
  | .accmerge g _ a b c => g.wf && a.isS && b.isS && c.isS
  | .ctld g _ _ a => g.wf && a.isS
  | .ctst g _ _ _ a => g.wf && a.isS
  | .dec g _ _ bt _ d b c =>
    g.wf && d.isV && (if bt then b.isSRun 2 && c.isZero else b.isS && c.isS)
  | .enc g fmt _ _ _ a b c => g.wf && fmt.hasCode && a.isV && b.isS && c.isS
  | .cpy g _ _ d a b c => g.wf && d.isSRunZ 1 && a.isS && b.isS && c.isS
  | .cpy2d g _ _ d a b c | .scatter g _ _ _ d a b c | .xform g _ d a b c =>
    g.wf && d.isSRunZ 1 && a.isS && b.isS && c.isSRun 1
  | .gather g _ _ _ _ d a b c => g.wf && d.isSRunZ 1 && a.isS && b.isS && c.isSRun 2
  | .kvsend g d a b c | .wbcast g _ d a b c => g.wf && d.isSRunZ 1 && a.isSRun 1 && b.isS && c.isS
  | .ringpush g d a b c => g.wf && d.isSRun 1 && a.isS && b.isSRun 1 && c.isS
  | .bra g _ | .brx g _ | .call g _ _ | .ret g _ | .setmeet g _ | .setmeetToken g _ | .yield g | .exit g
  | .nop g => g.wf
  | .savemeet g tok => g.wf && tok.isVS
  | .bar g _ _ _ => g.wf
  | .cbar g _ count _ => g.wf && count != 0
  | .waitany g _ a count => g.wf && 1 ≤ count.val && a.isSRun ((count.val - 1) / 2)
  | .evmask g _ _ a => g.wf && a.isSZ
  | .evread g mask clr _ _ => g.wf && !(mask && clr)
  | .mbsend g _ _ _ | .mbrecv g _ _ _ | .ringwait g _ _ | .ringrel g _ _ | .trap g _ _ _ _ | .clock g _ _
  | .sysrd g _ _ | .syswr g _ _ | .valid g _ | .launch g _ _ | .done g _ => g.wf
  | .reggrow g k | .regshrink g k => g.wf && k.val != 0
  | .accgrow g k => g.wf && k.val != 0 && k.val != 3
  | .reservedInstructionWord _ => false
  | _ => true

end Sys2Proof
end

