-- ==== Sys2Proof/Decode.lean ====
section
/-!
DEFINITION. The decoder of instruction words, total on any 64 bits, and after it the encoder, both written from the
layouts of 09 R109 to R135. A word that a check of R136 refuses is rejected with the number of the first failing row.
-/
namespace Sys2Proof

/-! ## Named codes -/

def IWidth.ofBits : BitVec 2 → IWidth
  | 0 => .w64 | 1 => .w32 | 2 => .w16 | 3 => .w8

def IWidth.toBits : IWidth → BitVec 2
  | .w64 => 0 | .w32 => 1 | .w16 => 2 | .w8 => 3

def FType.ofBits : BitVec 2 → Option FType
  | 0 => some .f32x2 | 1 => some .f16x4 | 2 => some .bf16x4 | 3 => none

def FType.toBits : FType → BitVec 2
  | .f32x2 => 0 | .f16x4 => 1 | .bf16x4 => 2

def RMode.ofBits : BitVec 2 → RMode
  | 0 => .rn | 1 => .rz | 2 => .rd | 3 => .ru

def RMode.toBits : RMode → BitVec 2
  | .rn => 0 | .rz => 1 | .rd => 2 | .ru => 3

def Combine.ofBits (x : BitVec 3) : Option Combine :=
  match x with
  | 0 => some .set
  | 1 => some .conj
  | 2 => some .disj
  | 3 => some .fill
  | 4 => some .flip
  | _ => none

def Combine.toBits : Combine → BitVec 3
  | .set => 0
  | .conj => 1
  | .disj => 2
  | .fill => 3
  | .flip => 4

def ICond.ofBits (x : BitVec 3) : Option ICond :=
  match x with
  | 0 => some .eq
  | 1 => some .ne
  | 2 => some .lt
  | 3 => some .le
  | 4 => some .gt
  | 5 => some .ge
  | _ => none

def ICond.toBits : ICond → BitVec 3
  | .eq => 0
  | .ne => 1
  | .lt => 2
  | .le => 3
  | .gt => 4
  | .ge => 5

def FCond.ofBits (x : BitVec 3) : FCond :=
  match x with
  | 0 => .eq
  | 1 => .ne
  | 2 => .lt
  | 3 => .le
  | 4 => .gt
  | 5 => .ge
  | 6 => .nan
  | 7 => .num

def FCond.toBits : FCond → BitVec 3
  | .eq => 0
  | .ne => 1
  | .lt => 2
  | .le => 3
  | .gt => 4
  | .ge => 5
  | .nan => 6
  | .num => 7

/-- The `CVT` type codes of R164. -/
def Fmt.ofBits (x : BitVec 5) : Option Fmt :=
  match x with
  | 0 => some .e2m1
  | 1 => some .int4
  | 2 => some .e2m3
  | 3 => some .e3m2
  | 4 => some .tf6
  | 5 => some .e4m3
  | 6 => some .e5m2
  | 7 => some .tf8
  | 8 => some .int8
  | 9 => some .f16
  | 10 => some .bf16
  | 11 => some .f32
  | 12 => some .int32
  | 13 => some .e8m0
  | _ => none

def Fmt.toBits : Fmt → BitVec 5
  | .e2m1 => 0
  | .int4 => 1
  | .e2m3 => 2
  | .e3m2 => 3
  | .tf6 => 4
  | .e4m3 => 5
  | .e5m2 => 6
  | .tf8 => 7
  | .int8 => 8
  | .f16 => 9
  | .bf16 => 10
  | .f32 => 11
  | .int32 => 12
  | .e8m0 => 13

/-- A 4-bit format code of R34 (0 to 10). -/
def Fmt.ofCode (x : BitVec 4) : Option Fmt :=
  if x.toNat ≤ 10 then Fmt.ofBits (x.setWidth 5) else none

/-- The 4-bit code of a format or `ACCST` type. -/
def Fmt.code4 (f : Fmt) : BitVec 4 := f.toBits.setWidth 4

/-- `ACCST` destination types: codes 0 to 12 (R239). -/
def Fmt.ofAccst (x : BitVec 4) : Option Fmt :=
  if x.toNat ≤ 12 then Fmt.ofBits (x.setWidth 5) else none

def PackKind.ofBits (x : BitVec 3) : Option PackKind :=
  match x with
  | 0 => some .x6
  | 1 => some .x4
  | 2 => some .w32
  | _ => none

def PackKind.toBits : PackKind → BitVec 3
  | .x6 => 0
  | .x4 => 1
  | .w32 => 2

def UnpackKind.ofBits (x : BitVec 3) : Option UnpackKind :=
  match x with
  | 0 => some .x6
  | 1 => some .x4lo
  | 2 => some .x4hi
  | _ => none

def UnpackKind.toBits : UnpackKind → BitVec 3
  | .x6 => 0
  | .x4lo => 1
  | .x4hi => 2

def ShflMode.ofBits (x : BitVec 2) : ShflMode :=
  match x with
  | 0 => .gather
  | 1 => .rot
  | 2 => .edge
  | 3 => .bfly

def ShflMode.toBits : ShflMode → BitVec 2
  | .gather => 0
  | .rot => 1
  | .edge => 2
  | .bfly => 3

def VoteMode.ofBits (x : BitVec 2) : VoteMode :=
  match x with
  | 0 => .every
  | 1 => .some
  | 2 => .none
  | 3 => .split

def VoteMode.toBits : VoteMode → BitVec 2
  | .every => 0
  | .some => 1
  | .none => 2
  | .split => 3

def BallotMode.ofBits (x : BitVec 2) : BallotMode :=
  match x with
  | 0 => .mask
  | 1 => .rank
  | 2 => .count
  | 3 => .first

def BallotMode.toBits : BallotMode → BitVec 2
  | .mask => 0
  | .rank => 1
  | .count => 2
  | .first => 3

def RedOp.ofBits (x : BitVec 3) : Option RedOp :=
  match x with
  | 0 => some .add
  | 1 => some .min
  | 2 => some .max
  | 3 => some .and
  | 4 => some .or
  | 5 => some .xor
  | _ => none

def RedOp.toBits : RedOp → BitVec 3
  | .add => 0
  | .min => 1
  | .max => 2
  | .and => 3
  | .or => 4
  | .xor => 5

def RedType.ofBits (x : BitVec 3) : Option RedType :=
  match x with
  | 0 => some .int64
  | 1 => some .uint64
  | 2 => some .int32
  | 3 => some .uint32
  | 4 => some .f32
  | 5 => some .f16
  | 6 => some .bf16
  | _ => none

def RedType.toBits : RedType → BitVec 3
  | .int64 => 0
  | .uint64 => 1
  | .int32 => 2
  | .uint32 => 3
  | .f32 => 4
  | .f16 => 5
  | .bf16 => 6

def MoviMode.ofBits (x : BitVec 3) : Option MoviMode :=
  match x with
  | 0 => some .sx
  | 1 => some .lo
  | 2 => some .hi
  | 3 => some .dup
  | _ => none

def MoviMode.toBits : MoviMode → BitVec 3
  | .sx => 0
  | .lo => 1
  | .hi => 2
  | .dup => 3

def MxFmt.ofBits (x : BitVec 4) : Option MxFmt :=
  match x with
  | 0 => some .e2m1
  | 2 => some .e2m3
  | 3 => some .e3m2
  | 5 => some .e4m3
  | 6 => some .e5m2
  | _ => none

def MxFmt.toBits : MxFmt → BitVec 4
  | .e2m1 => 0
  | .e2m3 => 2
  | .e3m2 => 3
  | .e4m3 => 5
  | .e5m2 => 6

def Space.ofBits (x : BitVec 3) : Option Space :=
  match x with
  | 0 => some .pv
  | 1 => some .sp
  | 2 => some .cl
  | 3 => some .ch
  | 4 => some .g
  | _ => none

def Space.toBits : Space → BitVec 3
  | .pv => 0
  | .sp => 1
  | .cl => 2
  | .ch => 3
  | .g => 4

def Space4.ofBits (x : BitVec 2) : Space4 :=
  match x with
  | 0 => .sp
  | 1 => .cl
  | 2 => .ch
  | 3 => .g

def Space4.toBits : Space4 → BitVec 2
  | .sp => 0
  | .cl => 1
  | .ch => 2
  | .g => 3

def Size.ofBits (x : BitVec 2) : Size :=
  match x with
  | 0 => .b8
  | 1 => .b16
  | 2 => .b32
  | 3 => .b64

def Size.toBits : Size → BitVec 2
  | .b8 => 0
  | .b16 => 1
  | .b32 => 2
  | .b64 => 3

def OrdKind.ofBits (x : BitVec 2) : OrdKind :=
  match x with
  | 0 => .plain
  | 1 => .acq
  | 2 => .rel
  | 3 => .ar

def OrdKind.toBits : OrdKind → BitVec 2
  | .plain => 0
  | .acq => 1
  | .rel => 2
  | .ar => 3

def Scope.ofBits (x : BitVec 2) : Scope :=
  match x with
  | 0 => .core
  | 1 => .clu
  | 2 => .dev
  | 3 => .sys

def Scope.toBits : Scope → BitVec 2
  | .core => 0
  | .clu => 1
  | .dev => 2
  | .sys => 3

def AtomOp.ofBits (x : BitVec 4) : Option AtomOp :=
  match x with
  | 0 => some .add
  | 1 => some .min
  | 2 => some .max
  | 3 => some .umin
  | 4 => some .umax
  | 5 => some .and
  | 6 => some .or
  | 7 => some .xor
  | 8 => some .exch
  | 9 => some .fadd
  | _ => none

def AtomOp.toBits : AtomOp → BitVec 4
  | .add => 0
  | .min => 1
  | .max => 2
  | .umin => 3
  | .umax => 4
  | .and => 5
  | .or => 6
  | .xor => 7
  | .exch => 8
  | .fadd => 9

def MmaMode.ofBits (x : BitVec 2) : Option MmaMode :=
  match x with
  | 0 => some .z
  | 1 => some .a
  | 2 => some .s
  | _ => none

def MmaMode.toBits : MmaMode → BitVec 2
  | .z => 0
  | .a => 1
  | .s => 2

def EvOp.ofBits (x : BitVec 2) : Option EvOp :=
  match x with
  | 0 => some .wr
  | 1 => some .set
  | 2 => some .clr
  | _ => none

def EvOp.toBits : EvOp → BitVec 2
  | .wr => 0
  | .set => 1
  | .clr => 2

def DecDst.ofBits (x : BitVec 2) : Option DecDst :=
  match x with
  | 0 => some .f32
  | 1 => some .f16
  | 2 => some .bf16
  | _ => none

def DecDst.toBits : DecDst → BitVec 2
  | .f32 => 0
  | .f16 => 1
  | .bf16 => 2

/-- The listed register numbers of R216. -/
def SysReg.ofBits (x : BitVec 10) : Option SysReg :=
  match x with
  | 0 => some .flags
  | 1 => some .flagen
  | 2 => some .amax
  | 3 => some .nancnt
  | 4 => some .satcnt
  | 8 => some .evpendLo
  | 9 => some .evpendHi
  | 10 => some .evmaskLo
  | 11 => some .evmaskHi
  | 16 => some .gang
  | 24 => some .ident
  | 25 => some .teamno
  | 26 => some .gridno
  | 27 => some .depth
  | 28 => some .deadline
  | 29 => some .regalloc
  | 30 => some .spbase
  | 31 => some .pvbase
  | 32 => some .validw
  | 48 => some .sidebase
  | _ => none

def SysReg.toBits : SysReg → BitVec 10
  | .flags => 0
  | .flagen => 1
  | .amax => 2
  | .nancnt => 3
  | .satcnt => 4
  | .evpendLo => 8
  | .evpendHi => 9
  | .evmaskLo => 10
  | .evmaskHi => 11
  | .gang => 16
  | .ident => 24
  | .teamno => 25
  | .gridno => 26
  | .depth => 27
  | .deadline => 28
  | .regalloc => 29
  | .spbase => 30
  | .pvbase => 31
  | .validw => 32
  | .sidebase => 48

/-! ## Class layouts -/

/-- Class A (R115); `ha`, `hb`, `hc` are the hint pairs (L, K). -/
structure FieldsA where
  d : BitVec 9
  a : BitVec 9
  b : BitVec 9
  c : BitVec 9
  ha : BitVec 2
  hb : BitVec 2
  hc : BitVec 2
  m : BitVec 6
  deriving DecidableEq, Repr

def FieldsA.pack (f : FieldsA) : BitVec 48 := f.d ++ f.a ++ f.b ++ f.c ++ f.ha ++ f.hb ++ f.hc ++ f.m

def FieldsA.split (x : BitVec 48) : FieldsA where
  d := x.extractLsb' 39 9
  a := x.extractLsb' 30 9
  b := x.extractLsb' 21 9
  c := x.extractLsb' 12 9
  ha := x.extractLsb' 10 2
  hb := x.extractLsb' 8 2
  hc := x.extractLsb' 6 2
  m := x.extractLsb' 0 6

/-- Class B (R118). -/
structure FieldsB where
  d : BitVec 9
  a : BitVec 9
  ha : BitVec 2
  imm : BitVec 22
  m : BitVec 6
  deriving DecidableEq, Repr

def FieldsB.pack (f : FieldsB) : BitVec 48 := f.d ++ f.a ++ f.ha ++ f.imm ++ f.m

def FieldsB.split (x : BitVec 48) : FieldsB where
  d := x.extractLsb' 39 9
  a := x.extractLsb' 30 9
  ha := x.extractLsb' 28 2
  imm := x.extractLsb' 6 22
  m := x.extractLsb' 0 6

/-- Class M (R119). -/
structure FieldsM where
  d : BitVec 9
  base : BitVec 9
  x : BitVec 9
  hb : BitVec 2
  hx : BitVec 2
  la : BitVec 4
  sc : BitVec 2
  off : BitVec 11
  deriving DecidableEq, Repr

def FieldsM.pack (f : FieldsM) : BitVec 48 := f.d ++ f.base ++ f.x ++ f.hb ++ f.hx ++ f.la ++ f.sc ++ f.off

def FieldsM.split (x : BitVec 48) : FieldsM where
  d := x.extractLsb' 39 9
  base := x.extractLsb' 30 9
  x := x.extractLsb' 21 9
  hb := x.extractLsb' 19 2
  hx := x.extractLsb' 17 2
  la := x.extractLsb' 13 4
  sc := x.extractLsb' 11 2
  off := x.extractLsb' 0 11

/-- Class X (R121). -/
structure FieldsX where
  d : BitVec 9
  a : BitVec 9
  b : BitVec 9
  c : BitVec 9
  la : BitVec 4
  m : BitVec 8
  deriving DecidableEq, Repr

def FieldsX.pack (f : FieldsX) : BitVec 48 := f.d ++ f.a ++ f.b ++ f.c ++ f.la ++ f.m

def FieldsX.split (x : BitVec 48) : FieldsX where
  d := x.extractLsb' 39 9
  a := x.extractLsb' 30 9
  b := x.extractLsb' 21 9
  c := x.extractLsb' 12 9
  la := x.extractLsb' 8 4
  m := x.extractLsb' 0 8

/-- Class C (R122). -/
structure FieldsC where
  reg : BitVec 9
  cm : BitVec 3
  off : BitVec 36
  deriving DecidableEq, Repr

def FieldsC.pack (f : FieldsC) : BitVec 48 := f.reg ++ f.cm ++ f.off

def FieldsC.split (x : BitVec 48) : FieldsC where
  reg := x.extractLsb' 39 9
  cm := x.extractLsb' 36 3
  off := x.extractLsb' 0 36

/-- Class S (R123). -/
structure FieldsS where
  d : BitVec 9
  a : BitVec 9
  b : BitVec 9
  la : BitVec 4
  imm : BitVec 17
  deriving DecidableEq, Repr

def FieldsS.pack (f : FieldsS) : BitVec 48 := f.d ++ f.a ++ f.b ++ f.la ++ f.imm

def FieldsS.split (x : BitVec 48) : FieldsS where
  d := x.extractLsb' 39 9
  a := x.extractLsb' 30 9
  b := x.extractLsb' 21 9
  la := x.extractLsb' 17 4
  imm := x.extractLsb' 0 17

/-- Class I (R124). -/
structure FieldsI where
  d : BitVec 9
  mode : BitVec 3
  z : BitVec 4
  imm : BitVec 32
  deriving DecidableEq, Repr

def FieldsI.pack (f : FieldsI) : BitVec 48 := f.d ++ f.mode ++ f.z ++ f.imm

def FieldsI.split (x : BitVec 48) : FieldsI where
  d := x.extractLsb' 39 9
  mode := x.extractLsb' 36 3
  z := x.extractLsb' 32 4
  imm := x.extractLsb' 0 32

/-- A half of a paired word (R125). -/
structure FieldsH where
  op : BitVec 8
  bank : BitVec 3
  d : BitVec 6
  a : BitVec 6
  hd : BitVec 2
  ha : BitVec 2
  m : BitVec 4
  deriving DecidableEq, Repr

def FieldsH.pack (f : FieldsH) : BitVec 31 := f.op ++ f.bank ++ f.d ++ f.a ++ f.hd ++ f.ha ++ f.m

def FieldsH.split (x : BitVec 31) : FieldsH where
  op := x.extractLsb' 23 8
  bank := x.extractLsb' 20 3
  d := x.extractLsb' 14 6
  a := x.extractLsb' 8 6
  hd := x.extractLsb' 6 2
  ha := x.extractLsb' 4 2
  m := x.extractLsb' 0 4

/-- The header of a full instruction (R110) over its class layout. -/
def packFull (cls : BitVec 3) (op : BitVec 8) (g : BitVec 4) (body : BitVec 48) : Word :=
  0#1 ++ cls ++ op ++ g ++ body

/-- A paired word (R109, R125). -/
def packPair (h0 h1 : BitVec 31) : Word := 1#1 ++ h0 ++ 0#1 ++ h1

/-! ## Checks of R136, in order -/

/-- A reading of a word: the value, or the number of the first row of R136 that refuses it. -/
abbrev Parse (α : Type) := Except Nat α

/-- Row `row` of R136 refuses the word unless `b`. -/
def need (row : Nat) (b : Bool) : Parse Unit :=
  if b then .ok () else .error row

/-- A field whose code may be reserved (row 5). -/
def field {α : Type} (o : Option α) : Parse α :=
  match o with
  | some x => .ok x
  | none => .error 5

/-- L = K = 1 is reserved (R114, row 5). -/
def hintOk (h : BitVec 2) : Parse Unit := need 5 (h != 3)

/-- An operand field that is not used holds 511 and its hints are 0 (row 5). -/
def unusedOk (f : BitVec 9) (h : BitVec 2) : Parse Unit := need 5 (f == 511 && h == 0)

/-- The register that a 9-bit field names (R112). -/
def Opd.ofField (f : BitVec 9) : Option Opd :=
  if hv : f.toNat < 320 then some (.v ⟨f.toNat, hv⟩)
  else if hs : f.toNat - 320 < 64 then some (.s ⟨f.toNat - 320, hs⟩)
  else if f.toNat = 511 then some .zero
  else none

def Opd.toField : Opd → BitVec 9
  | .v n => BitVec.ofNat 9 n.val
  | .s n => BitVec.ofNat 9 (320 + n.val)
  | .zero => 511

/-- An operand of any class (row 6). -/
def opd (f : BitVec 9) : Parse Opd :=
  match Opd.ofField f with
  | some o => .ok o
  | none => .error 6

/-- An operand of a class that `p` accepts (row 6). -/
def opdIn (p : Opd → Bool) (f : BitVec 9) : Parse Opd :=
  match Opd.ofField f with
  | some o => if p o then .ok o else .error 6
  | none => .error 6

def Src.hints (s : Src) : BitVec 2 := BitVec.ofBool s.last ++ BitVec.ofBool s.keep

def mkSrc (r : Opd) (h : BitVec 2) : Src := { r := r, last := h.getLsbD 1, keep := h.getLsbD 0 }

def Guard.ofBits (x : BitVec 4) : Guard :=
  { neg := x.getLsbD 3, p := (x.extractLsb' 0 3).toFin }

def Guard.toBits (g : Guard) : BitVec 4 := BitVec.ofBool g.neg ++ BitVec.ofFin (w := 3) g.p

def predOf (x : BitVec 3) : Fin 8 := x.toFin

def ofPred (p : Fin 8) : BitVec 3 := BitVec.ofFin (w := 3) p

def la4 (x : BitVec 4) : Fin 16 := x.toFin

def ofFin16 (n : Fin 16) : BitVec 4 := BitVec.ofFin (w := 4) n

/-- The d field of a compare (R117). -/
def PredDst.parse (f : BitVec 9) : Parse PredDst := do
  let ty ← field (Combine.ofBits (f.extractLsb' 6 3))
  let p : PredDst := { ty := ty, pd1 := predOf (f.extractLsb' 3 3), pd2 := predOf (f.extractLsb' 0 3) }
  need 5 p.wf
  .ok p

def PredDst.bits (p : PredDst) : BitVec 9 := p.ty.toBits ++ ofPred p.pd1 ++ ofPred p.pd2

/-! ## Modifier layouts of classes A and B -/

/-- Integer layout (R116). -/
def IntMod.parse (m : BitVec 6) : Parse IntMod := do
  need 5 (m.extractLsb' 0 2 == 0)
  .ok { w := IWidth.ofBits (m.extractLsb' 4 2), u := m.getLsbD 3, sat := m.getLsbD 2 }

def IntMod.bits (x : IntMod) : BitVec 6 := x.w.toBits ++ BitVec.ofBool x.u ++ BitVec.ofBool x.sat ++ 0#2

/-- Width and `.u`, no `.sat`. -/
def parseWU (m : BitVec 6) : Parse (IWidth × Bool) := do
  need 5 (m.extractLsb' 0 3 == 0)
  .ok (IWidth.ofBits (m.extractLsb' 4 2), m.getLsbD 3)

def bitsWU (x : IWidth × Bool) : BitVec 6 := x.1.toBits ++ BitVec.ofBool x.2 ++ 0#3

/-- Width and `.sat`, no `.u` (`IABS`). -/
def parseWSat (m : BitVec 6) : Parse (IWidth × Bool) := do
  need 5 (m.extractLsb' 0 2 == 0 && m.getLsbD 3 == false)
  .ok (IWidth.ofBits (m.extractLsb' 4 2), m.getLsbD 2)

def bitsWSat (x : IWidth × Bool) : BitVec 6 := x.1.toBits ++ 0#1 ++ BitVec.ofBool x.2 ++ 0#2

/-- Width alone. -/
def parseW (m : BitVec 6) : Parse IWidth := do
  need 5 (m.extractLsb' 0 4 == 0)
  .ok (IWidth.ofBits (m.extractLsb' 4 2))

def bitsW (x : IWidth) : BitVec 6 := x.toBits ++ 0#4

/-- `IADDC` (R147). -/
def parseCo (m : BitVec 6) : Parse (IWidth × Bool) := do
  need 5 (m.extractLsb' 2 2 == 0 && m.getLsbD 0 == false)
  .ok (IWidth.ofBits (m.extractLsb' 4 2), m.getLsbD 1)

def bitsCo (x : IWidth × Bool) : BitVec 6 := x.1.toBits ++ 0#2 ++ BitVec.ofBool x.2 ++ 0#1

/-- No modifier. -/
def parseNone (m : BitVec 6) : Parse Unit := need 5 (m == 0)

/-- `SEL` (R152). -/
def parseSel (m : BitVec 6) : Parse (Bool × Fin 8) := do
  need 5 (m.extractLsb' 4 2 == 0)
  .ok (m.getLsbD 3, predOf (m.extractLsb' 0 3))

def bitsSel (x : Bool × Fin 8) : BitVec 6 := 0#2 ++ BitVec.ofBool x.1 ++ ofPred x.2

/-- `LEA` (R153): `.u` with `.x64` and index forms 10, 11 are reserved. -/
def LeaForm.ofBits (x : BitVec 3) : Option LeaForm :=
  match x with
  | 0 => some .x64
  | 2 => some .x32
  | 3 => some .x32u
  | _ => none

def LeaForm.toBits : LeaForm → BitVec 3
  | .x64 => 0 | .x32 => 2 | .x32u => 3

def parseLea (m : BitVec 6) : Parse (LeaForm × Fin 8) := do
  let f ← field (LeaForm.ofBits (m.extractLsb' 3 3))
  .ok (f, predOf (m.extractLsb' 0 3))

def bitsLea (x : LeaForm × Fin 8) : BitVec 6 := x.1.toBits ++ ofPred x.2

/-- `ICMP` (R154). -/
def parseIcmp (m : BitVec 6) : Parse (IWidth × Bool × ICond) := do
  let c ← field (ICond.ofBits (m.extractLsb' 0 3))
  .ok (IWidth.ofBits (m.extractLsb' 4 2), m.getLsbD 3, c)

def bitsIcmp (x : IWidth × Bool × ICond) : BitVec 6 := x.1.toBits ++ BitVec.ofBool x.2.1 ++ x.2.2.toBits

/-- `FCMP` (R155). -/
def parseFcmp (m : BitVec 6) : Parse (FType × FCond) := do
  need 5 (m.getLsbD 3 == false)
  let t ← field (FType.ofBits (m.extractLsb' 4 2))
  .ok (t, FCond.ofBits (m.extractLsb' 0 3))

def bitsFcmp (x : FType × FCond) : BitVec 6 := x.1.toBits ++ 0#1 ++ x.2.toBits

/-- Float layout (R116). -/
def FloatMod.parse (m : BitVec 6) : Parse FloatMod := do
  need 5 (m.getLsbD 0 == false)
  let t ← field (FType.ofBits (m.extractLsb' 4 2))
  .ok { t := t, rm := RMode.ofBits (m.extractLsb' 2 2), sat := m.getLsbD 1 }

def FloatMod.bits (x : FloatMod) : BitVec 6 := x.t.toBits ++ x.rm.toBits ++ BitVec.ofBool x.sat ++ 0#1

/-- Float type alone (R160). -/
def parseT (m : BitVec 6) : Parse FType := do
  need 5 (m.extractLsb' 0 4 == 0)
  field (FType.ofBits (m.extractLsb' 4 2))

def bitsT (t : FType) : BitVec 6 := t.toBits ++ 0#4

/-- `FRND` (R161). -/
def parseFrnd (m : BitVec 6) : Parse (FType × RMode) := do
  need 5 (m.extractLsb' 0 2 == 0)
  let t ← field (FType.ofBits (m.extractLsb' 4 2))
  .ok (t, RMode.ofBits (m.extractLsb' 2 2))

def bitsFrnd (x : FType × RMode) : BitVec 6 := x.1.toBits ++ x.2.toBits ++ 0#2

/-- A kind in [2:0] with [5:3] = 0 (R167, R168). -/
def parseKind {α : Type} (f : BitVec 3 → Option α) (m : BitVec 6) : Parse α := do
  need 5 (m.extractLsb' 3 3 == 0)
  field (f (m.extractLsb' 0 3))

def bitsKind (x : BitVec 3) : BitVec 6 := 0#3 ++ x

/-- `AMAXR` (R170) and `PMOV` (R157): one bit in [0]. -/
def parseBit0 (m : BitVec 6) : Parse Bool := do
  need 5 (m.extractLsb' 1 5 == 0)
  .ok (m.getLsbD 0)

def bitsBit0 (b : Bool) : BitVec 6 := 0#5 ++ BitVec.ofBool b

/-- `SHFL` (R172). -/
def parseShfl (m : BitVec 6) : Parse (IWidth × ShflMode) := do
  need 5 (m.extractLsb' 0 2 == 0)
  .ok (IWidth.ofBits (m.extractLsb' 4 2), ShflMode.ofBits (m.extractLsb' 2 2))

def bitsShfl (x : IWidth × ShflMode) : BitVec 6 := x.1.toBits ++ x.2.toBits ++ 0#2

/-- `VOTE` and `BALLOT` (R174, R175): a mode in [1:0]. -/
def parseMode2 {α : Type} (f : BitVec 2 → α) (m : BitVec 6) : Parse α := do
  need 5 (m.extractLsb' 2 4 == 0)
  .ok (f (m.extractLsb' 0 2))

def bitsMode2 (x : BitVec 2) : BitVec 6 := 0#4 ++ x

/-- `LREDUCE` and `LSCAN` (R176). -/
def parseRed (m : BitVec 6) : Parse (RedOp × RedType) := do
  let op ← field (RedOp.ofBits (m.extractLsb' 3 3))
  let t ← field (RedType.ofBits (m.extractLsb' 0 3))
  need 5 (redOk op t)
  .ok (op, t)

def bitsRed (x : RedOp × RedType) : BitVec 6 := x.1.toBits ++ x.2.toBits

/-! ## Operand shapes of classes A and B -/

def shapeDA {μ : Type} (pm : BitVec 6 → Parse μ) (mk : μ → Opd → Src → Instr) (f : FieldsA) : Parse Instr := do
  let m ← pm f.m
  hintOk f.ha
  unusedOk f.b f.hb
  unusedOk f.c f.hc
  let d ← opd f.d
  let a ← opd f.a
  .ok (mk m d (mkSrc a f.ha))

def shapeDAB {μ : Type} (pm : BitVec 6 → Parse μ) (mk : μ → Opd → Src → Src → Instr) (f : FieldsA) :
    Parse Instr := do
  let m ← pm f.m
  hintOk f.ha
  hintOk f.hb
  unusedOk f.c f.hc
  let d ← opd f.d
  let a ← opd f.a
  let b ← opd f.b
  .ok (mk m d (mkSrc a f.ha) (mkSrc b f.hb))

def shapeDABC {μ : Type} (pm : BitVec 6 → Parse μ) (mk : μ → Opd → Src → Src → Src → Instr) (f : FieldsA) :
    Parse Instr := do
  let m ← pm f.m
  hintOk f.ha
  hintOk f.hb
  hintOk f.hc
  let d ← opd f.d
  let a ← opd f.a
  let b ← opd f.b
  let c ← opd f.c
  .ok (mk m d (mkSrc a f.ha) (mkSrc b f.hb) (mkSrc c f.hc))

def shapeCmp {μ : Type} (pm : BitVec 6 → Parse μ) (mk : μ → PredDst → Src → Src → Instr) (f : FieldsA) :
    Parse Instr := do
  let m ← pm f.m
  let p ← PredDst.parse f.d
  hintOk f.ha
  hintOk f.hb
  unusedOk f.c f.hc
  let a ← opd f.a
  let b ← opd f.b
  .ok (mk m p (mkSrc a f.ha) (mkSrc b f.hb))

/-- Class B with an immediate that `pi` reads under the modifiers. -/
def shapeImm {μ ι : Type} (pm : BitVec 6 → Parse μ) (pi : μ → BitVec 22 → Parse ι)
    (mk : μ → Opd → Src → ι → Instr) (f : FieldsB) : Parse Instr := do
  let m ← pm f.m
  hintOk f.ha
  let i ← pi m f.imm
  let d ← opd f.d
  let a ← opd f.a
  .ok (mk m d (mkSrc a f.ha) i)

def shapeCmpImm {μ : Type} (pm : BitVec 6 → Parse μ) (pi : μ → BitVec 22 → Parse (BitVec 22))
    (mk : μ → PredDst → Src → BitVec 22 → Instr) (f : FieldsB) : Parse Instr := do
  let m ← pm f.m
  let p ← PredDst.parse f.d
  hintOk f.ha
  let i ← pi m f.imm
  let a ← opd f.a
  .ok (mk m p (mkSrc a f.ha) i)

/-- Any 22-bit immediate. -/
def immAny {μ : Type} (_ : μ) (x : BitVec 22) : Parse (BitVec 22) := .ok x

/-- A float immediate (R118). -/
def immFloat (t : FType) (x : BitVec 22) : Parse (BitVec 22) := do
  need 5 (fimmOk t x)
  .ok x

/-- An immediate of `n` bits whose higher bits are 0. -/
def immLow {μ : Type} (n : Nat) (_ : μ) (x : BitVec 22) : Parse (BitVec n) := do
  need 5 (x.extractLsb' n (22 - n) == 0)
  .ok (x.extractLsb' 0 n)

/-- Position and length of `BFX` (R118). -/
def immBfx {μ : Type} (_ : μ) (x : BitVec 22) : Parse (BitVec 6 × Fin 65) := do
  need 5 (x.extractLsb' 13 9 == 0)
  if h : (x.extractLsb' 6 7).toNat < 65 then .ok (x.extractLsb' 0 6, ⟨(x.extractLsb' 6 7).toNat, h⟩)
  else .error 5

/-- `PACK` (R167): `.x6` uses no b. -/
def shapePack (g : Guard) (f : FieldsA) : Parse Instr := do
  let k ← parseKind PackKind.ofBits f.m
  hintOk f.ha
  hintOk f.hb
  need 5 (k != .x6 || (f.b == 511 && f.hb == 0))
  unusedOk f.c f.hc
  let d ← opd f.d
  let a ← opd f.a
  let b ← opd f.b
  .ok (.pack g k d (mkSrc a f.ha) (mkSrc b f.hb))

/-- `MXSCALE` (R169): `.calc` uses no b. -/
def shapeMx (g : Guard) (f : FieldsA) : Parse Instr := do
  need 5 (f.m.getLsbD 4 == false)
  hintOk f.ha
  unusedOk f.c f.hc
  if f.m.getLsbD 5 then
    need 5 (f.m.extractLsb' 0 4 == 0)
    hintOk f.hb
    let d ← opd f.d
    let a ← opd f.a
    let b ← opd f.b
    .ok (.mxscale g (.apply (mkSrc b f.hb)) d (mkSrc a f.ha))
  else
    let t ← field (MxFmt.ofBits (f.m.extractLsb' 0 4))
    unusedOk f.b f.hb
    let d ← opd f.d
    let a ← opd f.a
    .ok (.mxscale g (.calc t) d (mkSrc a f.ha))

/-- `PMOV` (R157). -/
def shapePmov (g : Guard) (f : FieldsA) : Parse Instr := do
  let top ← parseBit0 f.m
  unusedOk f.b f.hb
  unusedOk f.c f.hc
  if top then
    hintOk f.ha
    need 5 (f.d == 511)
    let a ← opd f.a
    .ok (.pmov g (.top (mkSrc a f.ha)))
  else
    unusedOk f.a f.ha
    let d ← opd f.d
    .ok (.pmov g (.tov d))

/-- `PSET` (R156). -/
def shapePset (g : Guard) (f : FieldsA) : Parse Instr := do
  need 5 (f.d.extractLsb' 3 6 == 0 && f.a.extractLsb' 3 6 == 0 && f.b.extractLsb' 3 6 == 0 && f.c == 511
    && f.ha == 0 && f.hb == 0 && f.hc == 0 && f.m.extractLsb' 4 2 == 0)
  .ok (.pset g (predOf (f.d.extractLsb' 0 3)) (predOf (f.a.extractLsb' 0 3)) (predOf (f.b.extractLsb' 0 3))
    (f.m.extractLsb' 0 4))

/-- `CVT` (R163, R164): its type fields lie where class A has b and c. -/
def shapeCvt (g : Guard) (f : FieldsA) : Parse Instr := do
  let bc : BitVec 18 := f.b ++ f.c
  let src ← field (Fmt.ofBits (bc.extractLsb' 13 5))
  let dst ← field (Fmt.ofBits (bc.extractLsb' 8 5))
  need 5 (bc.extractLsb' 3 5 == 0 && f.hb == 0 && f.hc == 0 && f.m.extractLsb' 4 2 == 0)
  let part := predOf (bc.extractLsb' 0 3)
  let rm := RMode.ofBits (f.m.extractLsb' 2 2)
  need 5 (part.val < cvtRatio src dst)
  need 5 (roundOk dst rm)
  hintOk f.ha
  let d ← opd f.d
  let a ← opd f.a
  .ok (.cvt g src dst part rm (f.m.getLsbD 1) (f.m.getLsbD 0) d (mkSrc a f.ha))

/-- `AMAXR` (R170). -/
def shapeAmaxr (g : Guard) (f : FieldsA) : Parse Instr := do
  let nr ← parseBit0 f.m
  unusedOk f.a f.ha
  unusedOk f.b f.hb
  unusedOk f.c f.hc
  let d ← opd f.d
  .ok (.amaxr g nr d)

/-- `SHFL` (R172). -/
def shapeShfl (g : Guard) (f : FieldsA) : Parse Instr := do
  let m ← parseShfl f.m
  hintOk f.ha
  hintOk f.hb
  hintOk f.hc
  need 5 (m.2 == .edge || (f.c == 511 && f.hc == 0))
  let d ← opd f.d
  let a ← opd f.a
  let b ← opdIn (fun o => m.2 == .gather || o.isSZ) f.b
  let c ← opd f.c
  .ok (.shfl g m.1 m.2 d (mkSrc a f.ha) (mkSrc b f.hb) (mkSrc c f.hc))

def shapeShflImm (g : Guard) (f : FieldsB) : Parse Instr := do
  let m ← parseShfl f.m
  need 5 (m.2 != .gather)
  hintOk f.ha
  let n ← immLow 9 () f.imm
  let d ← opd f.d
  let a ← opd f.a
  .ok (.shflImm g m.1 m.2 d (mkSrc a f.ha) n)

/-- `VOTE` (R174) and `BALLOT` (R175) place predicates in the a field. -/
def shapeVote (g : Guard) (f : FieldsA) : Parse Instr := do
  let mode ← parseMode2 VoteMode.ofBits f.m
  need 5 (f.a.extractLsb' 7 2 == 0 && f.ha == 0)
  unusedOk f.b f.hb
  unusedOk f.c f.hc
  let d ← opd f.d
  .ok (.vote g mode (predOf (f.a.extractLsb' 4 3)) (f.a.getLsbD 3) (predOf (f.a.extractLsb' 0 3)) d)

def shapeBallot (g : Guard) (f : FieldsA) : Parse Instr := do
  let mode ← parseMode2 BallotMode.ofBits f.m
  need 5 (f.a.extractLsb' 4 5 == 0 && f.ha == 0)
  unusedOk f.b f.hb
  unusedOk f.c f.hc
  let d ← opdIn (fun o => mode != .rank || o.isVZ) f.d
  .ok (.ballot g mode (f.a.getLsbD 3) (predOf (f.a.extractLsb' 0 3)) d)

/-! ## Opcode maps -/

/-- Class A (R129). -/
def rowA (op : BitVec 8) : Option (Guard → FieldsA → Parse Instr) :=
  match op with
  | 0x00 => some fun g => shapeDAB IntMod.parse (Instr.iadd g)
  | 0x01 => some fun g => shapeDAB IntMod.parse (Instr.isub g)
  | 0x02 => some fun g => shapeDABC parseCo fun m => Instr.iaddc g m.1 m.2
  | 0x03 => some fun g => shapeDAB IntMod.parse (Instr.imul g)
  | 0x04 => some fun g => shapeDAB parseWU fun m => Instr.imulhi g m.1 m.2
  | 0x05 => some fun g => shapeDABC IntMod.parse (Instr.imad g)
  | 0x06 => some fun g => shapeDAB parseWU fun m => Instr.imin g m.1 m.2
  | 0x07 => some fun g => shapeDAB parseWU fun m => Instr.imax g m.1 m.2
  | 0x08 => some fun g => shapeDA parseWSat fun m => Instr.iabs g m.1 m.2
  | 0x09 => some fun g => shapeDAB parseW (Instr.shl g)
  | 0x0A => some fun g => shapeDAB parseW (Instr.shr g)
  | 0x0B => some fun g => shapeDAB parseW (Instr.shra g)
  | 0x0C => some fun g => shapeDAB parseW (Instr.rotl g)
  | 0x0D => some fun g => shapeDAB parseNone fun _ => Instr.and g
  | 0x0E => some fun g => shapeDAB parseNone fun _ => Instr.or g
  | 0x0F => some fun g => shapeDAB parseNone fun _ => Instr.xor g
  | 0x10 => some fun g => shapeDAB parseNone fun _ => Instr.andn g
  | 0x11 => some fun g => shapeDAB parseWU fun m => Instr.bfx g m.1 m.2
  | 0x12 => some fun g => shapeDABC parseW (Instr.bfi g)
  | 0x13 => some fun g => shapeDA parseW (Instr.popc g)
  | 0x14 => some fun g => shapeDA parseW (Instr.clz g)
  | 0x15 => some fun g => shapeDA parseW (Instr.brev g)
  | 0x16 => some fun g => shapeDAB parseSel fun m => Instr.sel g m.1 m.2
  | 0x17 => some fun g => shapeDA parseNone fun _ => Instr.mov g
  | 0x18 => some fun g => shapeDAB parseLea fun m => Instr.lea g m.1 m.2
  | 0x19 => some fun g => shapeCmp parseIcmp fun m => Instr.icmp g m.1 m.2.1 m.2.2
  | 0x1A => some shapePset
  | 0x1B => some shapePmov
  | 0x20 => some fun g => shapeDAB FloatMod.parse (Instr.fadd g)
  | 0x21 => some fun g => shapeDAB FloatMod.parse (Instr.fsub g)
  | 0x22 => some fun g => shapeDAB FloatMod.parse (Instr.fmul g)
  | 0x23 => some fun g => shapeDABC FloatMod.parse (Instr.ffma g)
  | 0x24 => some fun g => shapeDAB parseT (Instr.fmin g)
  | 0x25 => some fun g => shapeDAB parseT (Instr.fmax g)
  | 0x26 => some fun g => shapeDAB parseT (Instr.fminm g)
  | 0x27 => some fun g => shapeDAB parseT (Instr.fmaxm g)
  | 0x28 => some fun g => shapeDABC parseT (Instr.fclamp g)
  | 0x29 => some fun g => shapeDA parseFrnd fun m => Instr.frnd g m.1 m.2
  | 0x2A => some fun g => shapeDAB FloatMod.parse (Instr.fscale g)
  | 0x2B => some fun g => shapeCmp parseFcmp fun m => Instr.fcmp g m.1 m.2
  | 0x30 => some fun g => shapeDA parseNone fun _ => Instr.rcp g
  | 0x31 => some fun g => shapeDA parseNone fun _ => Instr.rsq g
  | 0x32 => some fun g => shapeDA parseNone fun _ => Instr.sqrt g
  | 0x33 => some fun g => shapeDA parseNone fun _ => Instr.ex2 g
  | 0x34 => some fun g => shapeDA parseNone fun _ => Instr.lg2 g
  | 0x35 => some fun g => shapeDA parseNone fun _ => Instr.sinpi g
  | 0x36 => some fun g => shapeDA parseNone fun _ => Instr.cospi g
  | 0x37 => some fun g => shapeDA parseNone fun _ => Instr.tanh g
  | 0x38 => some shapeCvt
  | 0x39 => some shapePack
  | 0x3A => some fun g => shapeDA (parseKind UnpackKind.ofBits) (Instr.unpack g)
  | 0x3B => some shapeMx
  | 0x3C => some shapeAmaxr
  | 0x40 => some shapeShfl
  | 0x41 => some fun g => shapeDAB parseW (Instr.bcast g)
  | 0x42 => some shapeVote
  | 0x43 => some shapeBallot
  | 0x44 => some fun g => shapeDA parseRed fun m => Instr.lreduce g m.1 m.2
  | 0x45 => some fun g => shapeDA parseRed fun m => Instr.lscan g m.1 m.2
  | _ => none

/-- Class B (R130). -/
def rowB (op : BitVec 8) : Option (Guard → FieldsB → Parse Instr) :=
  match op with
  | 0x00 => some fun g => shapeImm IntMod.parse immAny (Instr.iaddImm g)
  | 0x01 => some fun g => shapeImm IntMod.parse immAny (Instr.isubImm g)
  | 0x03 => some fun g => shapeImm IntMod.parse immAny (Instr.imulImm g)
  | 0x06 => some fun g => shapeImm parseWU immAny fun m => Instr.iminImm g m.1 m.2
  | 0x07 => some fun g => shapeImm parseWU immAny fun m => Instr.imaxImm g m.1 m.2
  | 0x09 => some fun g => shapeImm parseW (immLow 6) (Instr.shlImm g)
  | 0x0A => some fun g => shapeImm parseW (immLow 6) (Instr.shrImm g)
  | 0x0B => some fun g => shapeImm parseW (immLow 6) (Instr.shraImm g)
  | 0x0C => some fun g => shapeImm parseW (immLow 6) (Instr.rotlImm g)
  | 0x0D => some fun g => shapeImm parseNone immAny fun _ => Instr.andImm g
  | 0x0E => some fun g => shapeImm parseNone immAny fun _ => Instr.orImm g
  | 0x0F => some fun g => shapeImm parseNone immAny fun _ => Instr.xorImm g
  | 0x10 => some fun g => shapeImm parseNone immAny fun _ => Instr.andnImm g
  | 0x11 => some fun g => shapeImm parseWU immBfx fun m d a i => Instr.bfxImm g m.1 m.2 d a i.1 i.2
  | 0x18 => some fun g => shapeImm parseLea immAny fun m => Instr.leaImm g m.1 m.2
  | 0x19 => some fun g => shapeCmpImm parseIcmp immAny fun m => Instr.icmpImm g m.1 m.2.1 m.2.2
  | 0x20 => some fun g => shapeImm FloatMod.parse (fun m => immFloat m.t) (Instr.faddImm g)
  | 0x22 => some fun g => shapeImm FloatMod.parse (fun m => immFloat m.t) (Instr.fmulImm g)
  | 0x24 => some fun g => shapeImm parseT immFloat (Instr.fminImm g)
  | 0x25 => some fun g => shapeImm parseT immFloat (Instr.fmaxImm g)
  | 0x2B => some fun g => shapeCmpImm parseFcmp (fun m => immFloat m.1) fun m => Instr.fcmpImm g m.1 m.2
  | 0x40 => some shapeShflImm
  | 0x41 => some fun g => shapeImm parseW (immLow 8) (Instr.bcastImm g)
  | _ => none

/-! ## Class M (R119, R131, R192) -/

/-- No lookahead is accepted (R119, R181). -/
def noLa (x : BitVec 4) : Parse Unit := need 5 (x == 0)

def shapeLd (spc : Space) (sz : Size) (acq : Bool) (g : Guard) (f : FieldsM) : Parse Instr := do
  hintOk f.hb
  hintOk f.hx
  let d ← opd f.d
  let base ← opd f.base
  let x ← opd f.x
  .ok (.ld g spc sz acq (Scope.ofBits f.sc) (la4 f.la) d (mkSrc base f.hb) (mkSrc x f.hx) f.off)

def shapeSt (spc : Space) (sz : Size) (rel : Bool) (g : Guard) (f : FieldsM) : Parse Instr := do
  need 5 (f.d == 511)
  hintOk f.hb
  hintOk f.hx
  noLa f.la
  let base ← opd f.base
  let x ← opd f.x
  .ok (.st g spc sz rel (Scope.ofBits f.sc) (mkSrc base f.hb) (mkSrc x f.hx) f.off)

def shapeAtom (k : OrdKind) (spc : Space4) (sz : ASize) (g : Guard) (f : FieldsM) : Parse Instr := do
  hintOk f.hb
  hintOk f.hx
  let op ← field (AtomOp.ofBits (f.off.extractLsb' 7 4))
  need 5 (!(op == .fadd && sz == .b64))
  let d ← opd f.d
  let base ← opd f.base
  let x ← opd f.x
  .ok (.atom g op k spc sz (Scope.ofBits f.sc) (la4 f.la) d (mkSrc base f.hb) (mkSrc x f.hx)
    (f.off.extractLsb' 0 7))

def shapeCas (k : OrdKind) (spc : Space4) (sz : ASize) (g : Guard) (f : FieldsM) : Parse Instr := do
  hintOk f.hb
  hintOk f.hx
  need 5 (f.off.extractLsb' 7 4 == 0)
  let d ← opd f.d
  let base ← opd f.base
  let x ← opd f.x
  .ok (.cas g k spc sz (Scope.ofBits f.sc) (la4 f.la) d (mkSrc base f.hb) (mkSrc x f.hx) (f.off.extractLsb' 0 7))

/-- `LDT`, `STT` and `STT.seal` (R192, R193): [10:7] q0, [6:3] count − 1, [2] `.hi`, [1:0] 0. -/
def shapeTensor (la sealing : Bool) (mk : Guard → Bool → Fin 16 → Fin 16 → Scope → Fin 16 → Opd → Src → Src → Instr)
    (g : Guard) (f : FieldsM) : Parse Instr := do
  hintOk f.hb
  hintOk f.hx
  need 5 (la || f.la == 0)
  need 5 (f.off.extractLsb' 0 2 == 0)
  let q0 := la4 (f.off.extractLsb' 7 4)
  let cnt := la4 (f.off.extractLsb' 3 4)
  need 5 (q0.val + cnt.val ≤ 15 && (!sealing || q0.val + cnt.val == 15))
  let d ← opdIn Opd.isVZ f.d
  let base ← opdIn Opd.isS f.base
  let x ← opdIn (Opd.isSRun 2) f.x
  .ok (mk g (f.off.getLsbD 2) q0 cnt (Scope.ofBits f.sc) (la4 f.la) d (mkSrc base f.hb) (mkSrc x f.hx))

def shapePrefG (g : Guard) (f : FieldsM) : Parse Instr := do
  need 5 (f.d == 511)
  hintOk f.hb
  hintOk f.hx
  noLa f.la
  let base ← opd f.base
  let x ← opd f.x
  .ok (.prefG g (Scope.ofBits f.sc) (mkSrc base f.hb) (mkSrc x f.hx) f.off)

def shapePrefT (g : Guard) (f : FieldsM) : Parse Instr := do
  need 5 (f.d == 511)
  hintOk f.hb
  hintOk f.hx
  noLa f.la
  let base ← opdIn Opd.isS f.base
  let x ← opdIn (Opd.isSRun 1) f.x
  .ok (.prefT g (Scope.ofBits f.sc) (mkSrc base f.hb) (mkSrc x f.hx) f.off)

/-- `FENCE`, `OFENCE` and `TFENCE`: every operand field 511. -/
def shapeFence (hasScope : Bool) (mk : Guard → Scope → Instr) (g : Guard) (f : FieldsM) : Parse Instr := do
  need 5 (f.d == 511)
  unusedOk f.base f.hb
  unusedOk f.x f.hx
  noLa f.la
  need 5 (f.off == 0)
  need 5 (hasScope || f.sc == 0)
  .ok (mk g (Scope.ofBits f.sc))

def shapeAfence (g : Guard) (f : FieldsM) : Parse Instr := do
  need 5 (f.d == 511)
  hintOk f.hb
  hintOk f.hx
  noLa f.la
  need 5 (f.off == 0)
  need 5 (f.sc == 0)
  let a ← opdIn Opd.isS f.base
  let b ← opdIn Opd.isS f.x
  .ok (.afence g (mkSrc a f.hb) (mkSrc b f.hx))

def ASize.ofBool : Bool → ASize
  | false => .b32 | true => .b64

def ASize.toBool : ASize → Bool
  | .b32 => false | .b64 => true

/-- The single opcodes of R131 from 0xC0 upward. -/
def rowMHigh (op : BitVec 8) : Option (Guard → FieldsM → Parse Instr) :=
  match op with
  | 0xC0 => some (shapeTensor true false fun g hi q0 cnt sc la => Instr.ldt g hi q0 cnt sc la)
  | 0xC1 => some (shapeTensor false false fun g hi q0 cnt sc _ => Instr.stt g hi q0 cnt sc)
  | 0xC2 => some (shapeTensor false true fun g hi q0 cnt sc _ => Instr.sttSeal g hi q0 cnt sc)
  | 0xC4 => some shapePrefG
  | 0xC5 => some shapePrefT
  | 0xC8 => some (shapeFence true Instr.fenceAcq)
  | 0xC9 => some (shapeFence true Instr.fenceRel)
  | 0xCA => some (shapeFence true Instr.fenceAr)
  | 0xCC => some shapeAfence
  | 0xCD => some (shapeFence false fun g _ => Instr.ofence g)
  | 0xCE => some (shapeFence false fun g _ => Instr.tfence g)
  | _ => none

/-- Class M (R131). The space codes 101 to 111 of `LD` and `ST` are refused at row 5. -/
def rowM (op : BitVec 8) : Option (Guard → FieldsM → Parse Instr) :=
  match op.extractLsb' 6 2 with
  | 0 => some fun g f => do
    let spc ← field (Space.ofBits (op.extractLsb' 3 3))
    shapeLd spc (Size.ofBits (op.extractLsb' 1 2)) (op.getLsbD 0) g f
  | 1 => some fun g f => do
    let spc ← field (Space.ofBits (op.extractLsb' 3 3))
    shapeSt spc (Size.ofBits (op.extractLsb' 1 2)) (op.getLsbD 0) g f
  | 2 =>
    let k := OrdKind.ofBits (op.extractLsb' 3 2)
    let spc := Space4.ofBits (op.extractLsb' 1 2)
    let sz := ASize.ofBool (op.getLsbD 0)
    if op.getLsbD 5 then some (shapeCas k spc sz) else some (shapeAtom k spc sz)
  | _ => rowMHigh op

/-! ## Class X (R121, R132, and the entries of 15 and 17) -/

/-- An operand field of class X or S that the entry does not use (row 5). -/
def unused9 (f : BitVec 9) : Parse Unit := need 5 (f == 511)

def shapeGangset (g : Guard) (f : FieldsX) : Parse Instr := do
  need 5 (f.m.extractLsb' 1 7 == 0)
  noLa f.la
  unused9 f.d
  unused9 f.b
  unused9 f.c
  let a ← opdIn Opd.isSZ f.a
  .ok (.gangset g (f.m.getLsbD 0) a)

def shapeMma (g : Guard) (f : FieldsX) : Parse Instr := do
  need 5 (f.m.extractLsb' 4 4 == 0)
  let mode ← field (MmaMode.ofBits (f.m.extractLsb' 0 2))
  need 5 (mode == .s || f.d == 511)
  let d ← opdIn (fun o => if mode == .s then o.isSZ else o.isZero) f.d
  let a ← opdIn Opd.isV f.a
  let b ← opdIn (fun o => if f.m.getLsbD 2 then o.isSRun 2 else o.isS) f.b
  let c ← opdIn Opd.isVS f.c
  .ok (.mma g mode (f.m.getLsbD 2) (f.m.getLsbD 3) (la4 f.la) d a b c)

def shapeMmaw (g : Guard) (f : FieldsX) : Parse Instr := do
  need 5 (f.m == 0)
  noLa f.la
  unused9 f.d
  unused9 f.a
  unused9 f.b
  unused9 f.c
  .ok (.mmaw g)

def shapeAccz (g : Guard) (f : FieldsX) : Parse Instr := do
  need 5 (f.m == 0)
  noLa f.la
  unused9 f.d
  unused9 f.b
  unused9 f.c
  let a ← opdIn Opd.isS f.a
  .ok (.accz g a)

def shapeAccld (g : Guard) (f : FieldsX) : Parse Instr := do
  need 5 (f.m.extractLsb' 1 7 == 0)
  noLa f.la
  unused9 f.b
  unused9 f.c
  let d ← opdIn Opd.isV f.d
  let a ← opdIn Opd.isS f.a
  .ok (.accld g (f.m.getLsbD 0) d a)

def shapeAccst (g : Guard) (f : FieldsX) : Parse Instr := do
  let dst ← field (Fmt.ofAccst (f.m.extractLsb' 4 4))
  let rm := RMode.ofBits (f.m.extractLsb' 0 2)
  need 5 (roundOk dst rm)
  noLa f.la
  unused9 f.b
  unused9 f.c
  let d ← opdIn Opd.isV f.d
  let a ← opdIn Opd.isS f.a
  .ok (.accst g dst (f.m.getLsbD 3) (f.m.getLsbD 2) rm d a)

def shapeAccscl (g : Guard) (f : FieldsX) : Parse Instr := do
  need 5 (f.m == 0)
  noLa f.la
  unused9 f.d
  unused9 f.c
  let a ← opdIn Opd.isS f.a
  let b ← opdIn Opd.isVS f.b
  .ok (.accscl g a b)

def shapeAccmerge (g : Guard) (f : FieldsX) : Parse Instr := do
  need 5 (f.m == 0)
  unused9 f.d
  let a ← opdIn Opd.isS f.a
  let b ← opdIn Opd.isS f.b
  let c ← opdIn Opd.isS f.c
  .ok (.accmerge g (la4 f.la) a b c)

def shapeCtld (g : Guard) (f : FieldsX) : Parse Instr := do
  need 5 (f.m.extractLsb' 5 3 == 0)
  noLa f.la
  unused9 f.d
  unused9 f.b
  unused9 f.c
  let a ← opdIn Opd.isS f.a
  .ok (.ctld g (f.m.getLsbD 4) (la4 (f.m.extractLsb' 0 4)) a)

def shapeCtst (g : Guard) (f : FieldsX) : Parse Instr := do
  need 5 (f.m.extractLsb' 5 3 == 0)
  noLa f.la
  unused9 f.b
  unused9 f.c
  let d ← opd f.d
  let a ← opdIn Opd.isS f.a
  .ok (.ctst g (f.m.getLsbD 4) (la4 (f.m.extractLsb' 0 4)) d a)

def shapeDec (g : Guard) (f : FieldsX) : Parse Instr := do
  need 5 (f.m.extractLsb' 4 2 == 0 && f.m.extractLsb' 0 2 == 0)
  let dst ← field (DecDst.ofBits (f.m.extractLsb' 6 2))
  unused9 f.a
  let bt := f.m.getLsbD 2
  need 5 (!bt || f.c == 511)
  let d ← opdIn Opd.isV f.d
  let b ← opdIn (fun o => if bt then o.isSRun 2 else o.isS) f.b
  let c ← opdIn (fun o => if bt then o.isZero else o.isS) f.c
  .ok (.dec g dst (f.m.getLsbD 3) bt (la4 f.la) d b c)

def shapeEnc (g : Guard) (f : FieldsX) : Parse Instr := do
  let t ← field (Fmt.ofCode (f.m.extractLsb' 4 4))
  let d ← opd f.d
  let a ← opdIn Opd.isV f.a
  let b ← opdIn Opd.isS f.b
  let c ← opdIn Opd.isS f.c
  .ok (.enc g t (la4 (f.m.extractLsb' 0 4)) (la4 f.la) d a b c)

/-- An engine instruction (R249, R257): operand classes by runs of `s` registers. -/
def shapeJob (pd pa pb pc : Opd → Bool) (mods : Bool) (mk : Opd → Opd → Opd → Opd → Instr) (f : FieldsX) :
    Parse Instr := do
  need 5 mods
  noLa f.la
  let d ← opdIn pd f.d
  let a ← opdIn pa f.a
  let b ← opdIn pb f.b
  let c ← opdIn pc f.c
  .ok (mk d a b c)

/-- Class X (R132). -/
def rowX (op : BitVec 8) : Option (Guard → FieldsX → Parse Instr) :=
  match op with
  | 0x00 => some shapeGangset
  | 0x01 => some shapeMma
  | 0x02 => some shapeMmaw
  | 0x03 => some shapeAccz
  | 0x04 => some shapeAccld
  | 0x05 => some shapeAccst
  | 0x06 => some shapeAccscl
  | 0x07 => some shapeAccmerge
  | 0x08 => some shapeCtld
  | 0x09 => some shapeCtst
  | 0x0A => some shapeDec
  | 0x0B => some shapeEnc
  | 0x10 => some fun g f => shapeJob (Opd.isSRunZ 1) Opd.isS Opd.isS Opd.isS (f.m.extractLsb' 0 4 == 0)
      (Instr.cpy g (Space4.ofBits (f.m.extractLsb' 6 2)) (Space4.ofBits (f.m.extractLsb' 4 2))) f
  | 0x11 => some fun g f => shapeJob (Opd.isSRunZ 1) Opd.isS Opd.isS (Opd.isSRun 1) (f.m.extractLsb' 0 4 == 0)
      (Instr.cpy2d g (Space4.ofBits (f.m.extractLsb' 6 2)) (Space4.ofBits (f.m.extractLsb' 4 2))) f
  | 0x12 => some fun g f => shapeJob (Opd.isSRunZ 1) Opd.isS Opd.isS (Opd.isSRun 2) true
      (Instr.gather g (Space4.ofBits (f.m.extractLsb' 6 2)) (Space4.ofBits (f.m.extractLsb' 4 2)) (f.m.getLsbD 3)
        (predOf (f.m.extractLsb' 0 3))) f
  | 0x13 => some fun g f => shapeJob (Opd.isSRunZ 1) Opd.isS Opd.isS (Opd.isSRun 1) (f.m.getLsbD 3 == false)
      (Instr.scatter g (Space4.ofBits (f.m.extractLsb' 6 2)) (Space4.ofBits (f.m.extractLsb' 4 2))
        (predOf (f.m.extractLsb' 0 3))) f
  | 0x14 => some fun g f => shapeJob (Opd.isSRunZ 1) Opd.isS Opd.isS (Opd.isSRun 1) (f.m.extractLsb' 1 7 == 0)
      (Instr.xform g (f.m.getLsbD 0)) f
  | 0x15 => some fun g f => shapeJob (Opd.isSRunZ 1) (Opd.isSRun 1) Opd.isS Opd.isS (f.m == 0) (Instr.kvsend g) f
  | 0x16 => some fun g f => shapeJob (Opd.isSRunZ 1) (Opd.isSRun 1) Opd.isS Opd.isS
      (f.m.extractLsb' 0 4 == 0 && f.m.extractLsb' 6 2 == 0)
      (Instr.wbcast g (Space4.ofBits (f.m.extractLsb' 4 2))) f
  | 0x17 => some fun g f => shapeJob (Opd.isSRun 1) Opd.isS (Opd.isSRun 1) Opd.isS (f.m == 0) (Instr.ringpush g) f
  | _ => none

/-! ## Class C (R133, R182 to R186) -/

/-- reg 511 and a relative target. -/
def shapeTarget (mk : BitVec 36 → Instr) (f : FieldsC) : Parse Instr := do
  need 5 (f.reg == 511 && f.cm == 0)
  .ok (mk f.off)

/-- A register and off 0. -/
def shapeReg (p : Opd → Bool) (mk : Opd → Instr) (f : FieldsC) : Parse Instr := do
  need 5 (f.cm == 0 && f.off == 0)
  let r ← opdIn p f.reg
  .ok (mk r)

def shapeCall (g : Guard) (f : FieldsC) : Parse Instr := do
  need 5 (f.cm == 0)
  let r ← opd f.reg
  .ok (.call g r f.off)

/-- reg 511 and off 0. -/
def shapeBare (i : Instr) (f : FieldsC) : Parse Instr := do
  need 5 (f.reg == 511 && f.cm == 0 && f.off == 0)
  .ok i

def rowC (op : BitVec 8) : Option (Guard → FieldsC → Parse Instr) :=
  match op with
  | 0x00 => some fun g => shapeTarget (Instr.bra g)
  | 0x01 => some fun g => shapeReg (fun _ => true) (Instr.brx g)
  | 0x02 => some shapeCall
  | 0x03 => some fun g => shapeReg (fun _ => true) (Instr.ret g)
  | 0x04 => some fun g => shapeTarget (Instr.setmeet g)
  | 0x05 => some fun g => shapeReg (fun _ => true) (Instr.setmeetToken g)
  | 0x06 => some fun g => shapeReg Opd.isVS (Instr.savemeet g)
  | 0x08 => some fun g => shapeBare (Instr.yield g)
  | 0x09 => some fun g => shapeBare (Instr.exit g)
  | 0x0A => some fun g => shapeBare (Instr.nop g)
  | _ => none

/-! ## Class S (R134 and the entries of 13) -/

/-- The operand fields of a class S instruction: `none` for a field it does not use. -/
def shapeS {ι : Type} (pd pa pb : Option (Opd → Bool)) (pi : BitVec 17 → Parse ι)
    (mk : ι → Opd → Opd → Opd → Instr) (f : FieldsS) : Parse Instr := do
  noLa f.la
  let i ← pi f.imm
  need 5 ((pd.isSome || f.d == 511) && (pa.isSome || f.a == 511) && (pb.isSome || f.b == 511))
  let d ← opdIn (pd.getD Opd.isZero) f.d
  let a ← opdIn (pa.getD Opd.isZero) f.a
  let b ← opdIn (pb.getD Opd.isZero) f.b
  .ok (mk i d a b)

def anyOpd : Option (Opd → Bool) := some fun _ => true

def immBar (x : BitVec 17) : Parse (Bool × BitVec 9 × Fin 16) := do
  need 5 (x.extractLsb' 13 3 == 0)
  .ok (x.getLsbD 16, x.extractLsb' 4 9, la4 (x.extractLsb' 0 4))

def immCbar (x : BitVec 17) : Parse (Bool × BitVec 9 × Fin 8) := do
  need 5 (x.extractLsb' 13 3 == 0 && x.getLsbD 3 == false && x.extractLsb' 4 9 != 0)
  .ok (x.getLsbD 16, x.extractLsb' 4 9, predOf (x.extractLsb' 0 3))

/-- `WAITANY` (R206): the class of a depends on the count. -/
def shapeWaitany (g : Guard) (f : FieldsS) : Parse Instr := do
  noLa f.la
  need 5 (f.imm.extractLsb' 4 13 == 0 && f.b == 511)
  if h : (f.imm.extractLsb' 0 4).toNat < 9 then
    need 5 ((f.imm.extractLsb' 0 4).toNat != 0)
    let d ← opd f.d
    let a ← opdIn (Opd.isSRun (((f.imm.extractLsb' 0 4).toNat - 1) / 2)) f.a
    .ok (.waitany g d a ⟨(f.imm.extractLsb' 0 4).toNat, h⟩)
  else .error 5

def immEvmask (x : BitVec 17) : Parse (EvOp × Bool) := do
  need 5 (x.extractLsb' 3 14 == 0)
  let op ← field (EvOp.ofBits (x.extractLsb' 1 2))
  .ok (op, x.getLsbD 0)

/-- `EVREAD` (R209): mask, clr, half. -/
def immEvread (x : BitVec 17) : Parse (Bool × Bool × Bool) := do
  need 5 (x.extractLsb' 3 14 == 0 && !(x.getLsbD 2 && x.getLsbD 1))
  .ok (x.getLsbD 2, x.getLsbD 1, x.getLsbD 0)

def immPred (x : BitVec 17) : Parse (Fin 8) := do
  need 5 (x.extractLsb' 3 14 == 0)
  .ok (predOf (x.extractLsb' 0 3))

/-- `RINGWAIT` (R212): with `.it` the slot and phase bits are 0 and a is used. -/
def shapeRingwait (g : Guard) (f : FieldsS) : Parse Instr := do
  noLa f.la
  need 5 (f.imm.extractLsb' 9 8 == 0 && f.d == 511 && f.b == 511)
  let ring := predOf (f.imm.extractLsb' 0 3)
  if f.imm.getLsbD 8 then
    need 5 (f.imm.extractLsb' 3 5 == 0)
    let a ← opd f.a
    .ok (.ringwait g ring (.it a))
  else
    unused9 f.a
    .ok (.ringwait g ring (.imm (la4 (f.imm.extractLsb' 3 4)) (f.imm.getLsbD 7)))

def shapeRingrel (g : Guard) (f : FieldsS) : Parse Instr := do
  noLa f.la
  need 5 (f.imm.extractLsb' 9 8 == 0 && f.d == 511 && f.b == 511 && f.imm.getLsbD 7 == false)
  let ring := predOf (f.imm.extractLsb' 0 3)
  if f.imm.getLsbD 8 then
    need 5 (f.imm.extractLsb' 3 5 == 0)
    let a ← opd f.a
    .ok (.ringrel g ring (.it a))
  else
    unused9 f.a
    .ok (.ringrel g ring (.imm (la4 (f.imm.extractLsb' 3 4))))

/-- The granule count of `REGGROW` and `REGSHRINK`: k = 0 is refused, and k above 19 is not in the range of R213. -/
def immGran (x : BitVec 17) : Parse (Fin 32) := do
  need 5 (x.extractLsb' 5 12 == 0 && x.extractLsb' 0 5 != 0)
  .ok (x.extractLsb' 0 5).toFin

def immHalves (x : BitVec 17) : Parse (Fin 4) := do
  need 5 (x.extractLsb' 2 15 == 0 && x.extractLsb' 0 2 != 0 && x.extractLsb' 0 2 != 3)
  .ok (x.extractLsb' 0 2).toFin

def immFlag (x : BitVec 17) : Parse Bool := do
  need 5 (x.extractLsb' 1 16 == 0)
  .ok (x.getLsbD 0)

def immSysReg (x : BitVec 17) : Parse SysReg := do
  need 5 (x.extractLsb' 10 7 == 0)
  field (SysReg.ofBits (x.extractLsb' 0 10))

def immZero17 (x : BitVec 17) : Parse Unit := need 5 (x == 0)

/-- `VALID` (R218). -/
def shapeValid (g : Guard) (f : FieldsS) : Parse Instr := do
  noLa f.la
  need 5 (f.imm.extractLsb' 7 10 == 0 && f.d == 511 && f.b == 511)
  if f.imm.getLsbD 6 then
    unused9 f.a
    .ok (.valid g (.bit (f.imm.extractLsb' 0 6)))
  else
    need 5 (f.imm.extractLsb' 0 6 == 0)
    let a ← opd f.a
    .ok (.valid g (.reg a))

def rowS (op : BitVec 8) : Option (Guard → FieldsS → Parse Instr) :=
  match op with
  | 0x00 => some fun g => shapeS none none none immBar fun i _ _ _ => Instr.bar g i.1 i.2.1 i.2.2
  | 0x01 => some fun g => shapeS none none none immCbar fun i _ _ _ => Instr.cbar g i.1 i.2.1 i.2.2
  | 0x02 => some shapeWaitany
  | 0x03 => some fun g => shapeS none (some Opd.isSZ) none immEvmask fun i _ a _ => Instr.evmask g i.1 i.2 a
  | 0x04 => some fun g => shapeS anyOpd none none immEvread fun i d _ _ => Instr.evread g i.1 i.2.1 i.2.2 d
  | 0x05 => some fun g => shapeS none anyOpd anyOpd immPred fun q _ a b => Instr.mbsend g q a b
  | 0x06 => some fun g => shapeS anyOpd anyOpd none immPred fun q d a _ => Instr.mbrecv g q d a
  | 0x07 => some shapeRingwait
  | 0x08 => some shapeRingrel
  | 0x10 => some fun g => shapeS none none none immGran fun k _ _ _ => Instr.reggrow g k
  | 0x11 => some fun g => shapeS none none none immHalves fun k _ _ _ => Instr.accgrow g k
  | 0x12 => some fun g => shapeS none none none immGran fun k _ _ _ => Instr.regshrink g k
  | 0x18 => some fun g => shapeS anyOpd anyOpd anyOpd (fun x => .ok x) fun i d a b => Instr.trap g d a b i
  | 0x19 => some fun g => shapeS anyOpd none none immFlag fun c d _ _ => Instr.clock g c d
  | 0x1A => some fun g => shapeS anyOpd none none immSysReg fun r d _ _ => Instr.sysrd g d r
  | 0x1B => some fun g => shapeS none anyOpd none immSysReg fun r _ a _ => Instr.syswr g r a
  | 0x1C => some shapeValid
  | 0x1D => some fun g => shapeS anyOpd anyOpd none immZero17 fun _ d a _ => Instr.launch g d a
  | 0x1E => some fun g => shapeS none none none immFlag fun c _ _ _ => Instr.done g c
  | _ => none

/-! ## Class I (R124, R135) -/

def shapeMovi (g : Guard) (f : FieldsI) : Parse Instr := do
  let mode ← field (MoviMode.ofBits f.mode)
  need 5 (f.z == 0)
  let d ← opd f.d
  .ok (.movi g mode d f.imm)

def rowI (op : BitVec 8) : Option (Guard → FieldsI → Parse Instr) :=
  match op with
  | 0x00 => some shapeMovi
  | _ => none

/-! ## Paired words (R125 to R128) -/

/-- The modifiers of each half operation (R128). -/
def rowH (op : BitVec 8) : Option (BitVec 4 → Parse HalfOp) :=
  match op with
  | 0x00 => some fun m => do need 5 (m.getLsbD 1 == false); .ok (.iadd (IWidth.ofBits (m.extractLsb' 2 2)) (m.getLsbD 0))
  | 0x01 => some fun m => do need 5 (m.getLsbD 1 == false); .ok (.isub (IWidth.ofBits (m.extractLsb' 2 2)) (m.getLsbD 0))
  | 0x03 => some fun m => do need 5 (m.extractLsb' 0 2 == 0); .ok (.imul (IWidth.ofBits (m.extractLsb' 2 2)))
  | 0x06 => some fun m => do need 5 (m.getLsbD 0 == false); .ok (.imin (IWidth.ofBits (m.extractLsb' 2 2)) (m.getLsbD 1))
  | 0x07 => some fun m => do need 5 (m.getLsbD 0 == false); .ok (.imax (IWidth.ofBits (m.extractLsb' 2 2)) (m.getLsbD 1))
  | 0x09 => some fun m => do need 5 (m.extractLsb' 0 2 == 0); .ok (.shl (IWidth.ofBits (m.extractLsb' 2 2)))
  | 0x0A => some fun m => do need 5 (m.extractLsb' 0 2 == 0); .ok (.shr (IWidth.ofBits (m.extractLsb' 2 2)))
  | 0x0B => some fun m => do need 5 (m.extractLsb' 0 2 == 0); .ok (.shra (IWidth.ofBits (m.extractLsb' 2 2)))
  | 0x0D => some fun m => do need 5 (m == 0); .ok .and
  | 0x0E => some fun m => do need 5 (m == 0); .ok .or
  | 0x0F => some fun m => do need 5 (m == 0); .ok .xor
  | 0x10 => some fun m => do need 5 (m == 0); .ok .andn
  | 0x17 => some fun m => do need 5 (m == 0); .ok .mov
  | 0x20 => some fun m => do let t ← field (FType.ofBits (m.extractLsb' 2 2)); .ok (.fadd t (RMode.ofBits (m.extractLsb' 0 2)))
  | 0x21 => some fun m => do let t ← field (FType.ofBits (m.extractLsb' 2 2)); .ok (.fsub t (RMode.ofBits (m.extractLsb' 0 2)))
  | 0x22 => some fun m => do let t ← field (FType.ofBits (m.extractLsb' 2 2)); .ok (.fmul t (RMode.ofBits (m.extractLsb' 0 2)))
  | 0x24 => some fun m => do need 5 (m.extractLsb' 0 2 == 0); let t ← field (FType.ofBits (m.extractLsb' 2 2)); .ok (.fmin t)
  | 0x25 => some fun m => do need 5 (m.extractLsb' 0 2 == 0); let t ← field (FType.ofBits (m.extractLsb' 2 2)); .ok (.fmax t)
  | _ => none

def bankOf (x : BitVec 3) : Option (Fin 6) :=
  if h : x.toNat < 6 then some ⟨x.toNat, h⟩ else none

/-- The fields of a half whose opcode names an operation. -/
def parseHalfBody (row : BitVec 4 → Parse HalfOp) (f : FieldsH) : Parse Half := do
  let op ← row f.m
  let bank ← field (bankOf f.bank)
  hintOk f.hd
  hintOk f.ha
  .ok (.op { op := op, bank := bank, d := f.d.toFin, a := f.a.toFin,
             lastD := f.hd.getLsbD 1, keepD := f.hd.getLsbD 0, lastA := f.ha.getLsbD 1, keepA := f.ha.getLsbD 0 })

/-- Row 5 for one half: the NOP half has every other field 0 (R128). -/
def parseHalf (f : FieldsH) : Parse Half :=
  if f.op == 0xFF then do
    need 5 (f.bank == 0 && f.d == 0 && f.a == 0 && f.hd == 0 && f.ha == 0 && f.m == 0)
    .ok .nop
  else
    match rowH f.op with
    | some row => parseHalfBody row f
    | none => .error 3

/-- Row 3 for one half. -/
def halfListed (f : FieldsH) : Bool := f.op == 0xFF || (rowH f.op).isSome

/-- A paired word: rows 3 of both halves come before rows 5, half 0 before half 1 (R136). -/
def decodePair (w : Word) : Parse Instr := do
  need 1 (w.getLsbD 31 == false)
  let f0 := FieldsH.split (w.extractLsb' 32 31)
  let f1 := FieldsH.split (w.extractLsb' 0 31)
  need 3 (halfListed f0)
  need 3 (halfListed f1)
  let h0 ← parseHalf f0
  let h1 ← parseHalf f1
  .ok (.pairedWord h0 h1)

/-! ## The decoder -/

/-- Rows 3 to 6 of R136 for a full instruction: the opcode, then the guard, then the row's own checks. -/
def decodeRow {φ : Type} (row : Option (Guard → φ → Parse Instr)) (g : BitVec 4) (f : φ) : Parse Instr :=
  match row with
  | none => .error 3
  | some p => if g == 0b1111 then .error 4 else p (Guard.ofBits g) f

/-- The instruction of a word, or the first row of R136 that refuses it. -/
def decodeWord (w : Word) : Parse Instr :=
  if w.getLsbD 63 then decodePair w
  else
    let op := w.extractLsb' 52 8
    let g := w.extractLsb' 48 4
    let body := w.extractLsb' 0 48
    match w.extractLsb' 60 3 with
    | 0 => decodeRow (rowA op) g (FieldsA.split body)
    | 1 => decodeRow (rowB op) g (FieldsB.split body)
    | 2 => decodeRow (rowM op) g (FieldsM.split body)
    | 3 => decodeRow (rowX op) g (FieldsX.split body)
    | 4 => decodeRow (rowC op) g (FieldsC.split body)
    | 5 => decodeRow (rowS op) g (FieldsS.split body)
    | 6 => decodeRow (rowI op) g (FieldsI.split body)
    | _ => .error 2

/-- The half of a paired word that the failing row names: half 0 is checked before half 1 at each order (R136); 0 for
every other word. -/
def rejectHalf (w : Word) : Nat :=
  if w.getLsbD 63 && !w.getLsbD 31 then
    let f0 := FieldsH.split (w.extractLsb' 32 31)
    let f1 := FieldsH.split (w.extractLsb' 0 31)
    if !halfListed f0 then 0
    else if !halfListed f1 then 1
    else match parseHalf f0 with
      | .error _ => 0
      | .ok _ => 1
  else 0

/-- What a word does when it issues: its instruction, or the exception of a refused word. -/
def fetchInstr (w : Word) : Instr :=
  match decodeWord w with
  | .ok i => i
  | .error _ => .reservedInstructionWord w

/-! ## The encoder -/

def packA (op : BitVec 8) (g : Guard) (f : FieldsA) : Word := packFull 0 op g.toBits f.pack
def packB (op : BitVec 8) (g : Guard) (f : FieldsB) : Word := packFull 1 op g.toBits f.pack
def packM (op : BitVec 8) (g : Guard) (f : FieldsM) : Word := packFull 2 op g.toBits f.pack
def packX (op : BitVec 8) (g : Guard) (f : FieldsX) : Word := packFull 3 op g.toBits f.pack
def packC (op : BitVec 8) (g : Guard) (f : FieldsC) : Word := packFull 4 op g.toBits f.pack
def packS (op : BitVec 8) (g : Guard) (f : FieldsS) : Word := packFull 5 op g.toBits f.pack
def packI (op : BitVec 8) (g : Guard) (f : FieldsI) : Word := packFull 6 op g.toBits f.pack

def encDA (op : BitVec 8) (g : Guard) (m : BitVec 6) (d : Opd) (a : Src) : Word :=
  packA op g { d := d.toField, a := a.r.toField, b := 511, c := 511, ha := a.hints, hb := 0, hc := 0, m := m }

def encDAB (op : BitVec 8) (g : Guard) (m : BitVec 6) (d : Opd) (a b : Src) : Word :=
  packA op g { d := d.toField, a := a.r.toField, b := b.r.toField, c := 511, ha := a.hints, hb := b.hints, hc := 0,
               m := m }

def encDABC (op : BitVec 8) (g : Guard) (m : BitVec 6) (d : Opd) (a b c : Src) : Word :=
  packA op g { d := d.toField, a := a.r.toField, b := b.r.toField, c := c.r.toField, ha := a.hints, hb := b.hints,
               hc := c.hints, m := m }

def encCmp (op : BitVec 8) (g : Guard) (m : BitVec 6) (pd : PredDst) (a b : Src) : Word :=
  packA op g { d := pd.bits, a := a.r.toField, b := b.r.toField, c := 511, ha := a.hints, hb := b.hints, hc := 0,
               m := m }

def encImm (op : BitVec 8) (g : Guard) (m : BitVec 6) (d : Opd) (a : Src) (imm : BitVec 22) : Word :=
  packB op g { d := d.toField, a := a.r.toField, ha := a.hints, imm := imm, m := m }

def encCmpImm (op : BitVec 8) (g : Guard) (m : BitVec 6) (pd : PredDst) (a : Src) (imm : BitVec 22) : Word :=
  packB op g { d := pd.bits, a := a.r.toField, ha := a.hints, imm := imm, m := m }

def encM (op : BitVec 8) (g : Guard) (d : BitVec 9) (base x : Src) (la : Fin 16) (sc : Scope) (off : BitVec 11) : Word :=
  packM op g { d := d, base := base.r.toField, x := x.r.toField, hb := base.hints, hx := x.hints, la := ofFin16 la,
               sc := sc.toBits, off := off }

def encX (op : BitVec 8) (g : Guard) (m : BitVec 8) (la : Fin 16) (d a b c : Opd) : Word :=
  packX op g { d := d.toField, a := a.toField, b := b.toField, c := c.toField, la := ofFin16 la, m := m }

def encS (op : BitVec 8) (g : Guard) (d a b : Opd) (imm : BitVec 17) : Word :=
  packS op g { d := d.toField, a := a.toField, b := b.toField, la := 0, imm := imm }

def encC (op : BitVec 8) (g : Guard) (reg : Opd) (off : BitVec 36) : Word :=
  packC op g { reg := reg.toField, cm := 0, off := off }

/-- The opcode of `LD` and `ST` under `hi` (R131). -/
def ldstOp (hi : BitVec 2) (spc : Space) (sz : Size) (b : Bool) : BitVec 8 :=
  hi ++ spc.toBits ++ sz.toBits ++ BitVec.ofBool b

/-- The opcode of `ATOM` and `CAS` under `hi` (R131). -/
def atomOpc (hi : BitVec 3) (k : OrdKind) (spc : Space4) (sz : ASize) : BitVec 8 :=
  hi ++ k.toBits ++ spc.toBits ++ BitVec.ofBool sz.toBool

/-- The [10:0] field of `LDT` and `STT` (R192). -/
def tensorOff (hi : Bool) (q0 cnt : Fin 16) : BitVec 11 := ofFin16 q0 ++ ofFin16 cnt ++ BitVec.ofBool hi ++ 0#2

def HalfOp.opcode : HalfOp → BitVec 8
  | .iadd _ _ => 0x00 | .isub _ _ => 0x01 | .imul _ => 0x03 | .imin _ _ => 0x06 | .imax _ _ => 0x07
  | .shl _ => 0x09 | .shr _ => 0x0A | .shra _ => 0x0B
  | .and => 0x0D | .or => 0x0E | .xor => 0x0F | .andn => 0x10 | .mov => 0x17
  | .fadd _ _ => 0x20 | .fsub _ _ => 0x21 | .fmul _ _ => 0x22 | .fmin _ => 0x24 | .fmax _ => 0x25

def HalfOp.bits : HalfOp → BitVec 4
  | .iadd w s | .isub w s => w.toBits ++ 0#1 ++ BitVec.ofBool s
  | .imul w | .shl w | .shr w | .shra w => w.toBits ++ 0#2
  | .imin w u | .imax w u => w.toBits ++ BitVec.ofBool u ++ 0#1
  | .and | .or | .xor | .andn | .mov => 0
  | .fadd t rm | .fsub t rm | .fmul t rm => t.toBits ++ rm.toBits
  | .fmin t | .fmax t => t.toBits ++ 0#2

def Half.fields : Half → FieldsH
  | .nop => { op := 0xFF, bank := 0, d := 0, a := 0, hd := 0, ha := 0, m := 0 }
  | .op b => { op := b.op.opcode, bank := BitVec.ofNat 3 b.bank.val, d := BitVec.ofFin (w := 6) b.d,
               a := BitVec.ofFin (w := 6) b.a, hd := BitVec.ofBool b.lastD ++ BitVec.ofBool b.keepD,
               ha := BitVec.ofBool b.lastA ++ BitVec.ofBool b.keepA, m := b.op.bits }

def imm22Low {n : Nat} (x : BitVec n) : BitVec 22 := x.setWidth 22

/-- The word of an instruction; `none` for an event, which has no word. -/
def encode : Instr → Option Word
  | .iadd g m d a b => some (encDAB 0x00 g m.bits d a b)
  | .iaddImm g m d a i => some (encImm 0x00 g m.bits d a i)
  | .isub g m d a b => some (encDAB 0x01 g m.bits d a b)
  | .isubImm g m d a i => some (encImm 0x01 g m.bits d a i)
  | .iaddc g w co d a b c => some (encDABC 0x02 g (bitsCo (w, co)) d a b c)
  | .imul g m d a b => some (encDAB 0x03 g m.bits d a b)
  | .imulImm g m d a i => some (encImm 0x03 g m.bits d a i)
  | .imulhi g w u d a b => some (encDAB 0x04 g (bitsWU (w, u)) d a b)
  | .imad g m d a b c => some (encDABC 0x05 g m.bits d a b c)
  | .imin g w u d a b => some (encDAB 0x06 g (bitsWU (w, u)) d a b)
  | .iminImm g w u d a i => some (encImm 0x06 g (bitsWU (w, u)) d a i)
  | .imax g w u d a b => some (encDAB 0x07 g (bitsWU (w, u)) d a b)
  | .imaxImm g w u d a i => some (encImm 0x07 g (bitsWU (w, u)) d a i)
  | .iabs g w s d a => some (encDA 0x08 g (bitsWSat (w, s)) d a)
  | .shl g w d a b => some (encDAB 0x09 g (bitsW w) d a b)
  | .shlImm g w d a n => some (encImm 0x09 g (bitsW w) d a (imm22Low n))
  | .shr g w d a b => some (encDAB 0x0A g (bitsW w) d a b)
  | .shrImm g w d a n => some (encImm 0x0A g (bitsW w) d a (imm22Low n))
  | .shra g w d a b => some (encDAB 0x0B g (bitsW w) d a b)
  | .shraImm g w d a n => some (encImm 0x0B g (bitsW w) d a (imm22Low n))
  | .rotl g w d a b => some (encDAB 0x0C g (bitsW w) d a b)
  | .rotlImm g w d a n => some (encImm 0x0C g (bitsW w) d a (imm22Low n))
  | .and g d a b => some (encDAB 0x0D g 0 d a b)
  | .andImm g d a i => some (encImm 0x0D g 0 d a i)
  | .or g d a b => some (encDAB 0x0E g 0 d a b)
  | .orImm g d a i => some (encImm 0x0E g 0 d a i)
  | .xor g d a b => some (encDAB 0x0F g 0 d a b)
  | .xorImm g d a i => some (encImm 0x0F g 0 d a i)
  | .andn g d a b => some (encDAB 0x10 g 0 d a b)
  | .andnImm g d a i => some (encImm 0x10 g 0 d a i)
  | .bfx g w u d a b => some (encDAB 0x11 g (bitsWU (w, u)) d a b)
  | .bfxImm g w u d a pos len => some (encImm 0x11 g (bitsWU (w, u)) d a (0#9 ++ BitVec.ofNat 7 len.val ++ pos))
  | .bfi g w d a b c => some (encDABC 0x12 g (bitsW w) d a b c)
  | .popc g w d a => some (encDA 0x13 g (bitsW w) d a)
  | .clz g w d a => some (encDA 0x14 g (bitsW w) d a)
  | .brev g w d a => some (encDA 0x15 g (bitsW w) d a)
  | .sel g neg q d a b => some (encDAB 0x16 g (bitsSel (neg, q)) d a b)
  | .mov g d a => some (encDA 0x17 g 0 d a)
  | .lea g f sh d a b => some (encDAB 0x18 g (bitsLea (f, sh)) d a b)
  | .leaImm g f sh d a i => some (encImm 0x18 g (bitsLea (f, sh)) d a i)
  | .icmp g w u c pd a b => some (encCmp 0x19 g (bitsIcmp (w, u, c)) pd a b)
  | .icmpImm g w u c pd a i => some (encCmpImm 0x19 g (bitsIcmp (w, u, c)) pd a i)
  | .pset g pd pa pb lut => some (packA 0x1A g ⟨0#6 ++ ofPred pd, 0#6 ++ ofPred pa, 0#6 ++ ofPred pb, 511, 0, 0, 0,
      0#2 ++ lut⟩)
  | .pmov g (.tov d) => some (packA 0x1B g ⟨d.toField, 511, 511, 511, 0, 0, 0, bitsBit0 false⟩)
  | .pmov g (.top a) => some (packA 0x1B g ⟨511, a.r.toField, 511, 511, a.hints, 0, 0, bitsBit0 true⟩)
  | .fadd g m d a b => some (encDAB 0x20 g m.bits d a b)
  | .faddImm g m d a i => some (encImm 0x20 g m.bits d a i)
  | .fsub g m d a b => some (encDAB 0x21 g m.bits d a b)
  | .fmul g m d a b => some (encDAB 0x22 g m.bits d a b)
  | .fmulImm g m d a i => some (encImm 0x22 g m.bits d a i)
  | .ffma g m d a b c => some (encDABC 0x23 g m.bits d a b c)
  | .fmin g t d a b => some (encDAB 0x24 g (bitsT t) d a b)
  | .fminImm g t d a i => some (encImm 0x24 g (bitsT t) d a i)
  | .fmax g t d a b => some (encDAB 0x25 g (bitsT t) d a b)
  | .fmaxImm g t d a i => some (encImm 0x25 g (bitsT t) d a i)
  | .fminm g t d a b => some (encDAB 0x26 g (bitsT t) d a b)
  | .fmaxm g t d a b => some (encDAB 0x27 g (bitsT t) d a b)
  | .fclamp g t d a b c => some (encDABC 0x28 g (bitsT t) d a b c)
  | .frnd g t rm d a => some (encDA 0x29 g (bitsFrnd (t, rm)) d a)
  | .fscale g m d a b => some (encDAB 0x2A g m.bits d a b)
  | .fcmp g t c pd a b => some (encCmp 0x2B g (bitsFcmp (t, c)) pd a b)
  | .fcmpImm g t c pd a i => some (encCmpImm 0x2B g (bitsFcmp (t, c)) pd a i)
  | .rcp g d a => some (encDA 0x30 g 0 d a)
  | .rsq g d a => some (encDA 0x31 g 0 d a)
  | .sqrt g d a => some (encDA 0x32 g 0 d a)
  | .ex2 g d a => some (encDA 0x33 g 0 d a)
  | .lg2 g d a => some (encDA 0x34 g 0 d a)
  | .sinpi g d a => some (encDA 0x35 g 0 d a)
  | .cospi g d a => some (encDA 0x36 g 0 d a)
  | .tanh g d a => some (encDA 0x37 g 0 d a)
  | .cvt g src dst part rm sat amax d a =>
    let bc : BitVec 18 := src.toBits ++ dst.toBits ++ 0#5 ++ ofPred part
    some (packA 0x38 g ⟨d.toField, a.r.toField, bc.extractLsb' 9 9, bc.extractLsb' 0 9, a.hints, 0, 0,
      0#2 ++ rm.toBits ++ BitVec.ofBool sat ++ BitVec.ofBool amax⟩)
  | .pack g k d a b => some (encDAB 0x39 g (bitsKind k.toBits) d a b)
  | .unpack g k d a => some (encDA 0x3A g (bitsKind k.toBits) d a)
  | .mxscale g (.calc f) d a => some (encDA 0x3B g (0#2 ++ f.toBits) d a)
  | .mxscale g (.apply b) d a => some (encDAB 0x3B g 0x20 d a b)
  | .amaxr g nr d => some (packA 0x3C g ⟨d.toField, 511, 511, 511, 0, 0, 0, bitsBit0 nr⟩)
  | .shfl g w mode d a b c => some (encDABC 0x40 g (bitsShfl (w, mode)) d a b c)
  | .shflImm g w mode d a n => some (encImm 0x40 g (bitsShfl (w, mode)) d a (imm22Low n))
  | .bcast g w d a b => some (encDAB 0x41 g (bitsW w) d a b)
  | .bcastImm g w d a k => some (encImm 0x41 g (bitsW w) d a (imm22Low k))
  | .vote g mode v neg q d => some (packA 0x42 g ⟨d.toField, 0#2 ++ ofPred v ++ BitVec.ofBool neg ++ ofPred q, 511,
      511, 0, 0, 0, bitsMode2 mode.toBits⟩)
  | .ballot g mode neg q d => some (packA 0x43 g ⟨d.toField, 0#5 ++ BitVec.ofBool neg ++ ofPred q, 511, 511, 0, 0,
      0, bitsMode2 mode.toBits⟩)
  | .lreduce g op t d a => some (encDA 0x44 g (bitsRed (op, t)) d a)
  | .lscan g op t d a => some (encDA 0x45 g (bitsRed (op, t)) d a)
  | .pairedWord h0 h1 => some (packPair h0.fields.pack h1.fields.pack)
  | .movi g mode d imm => some (packI 0x00 g ⟨d.toField, mode.toBits, 0, imm⟩)
  | .ld g spc sz acq sc la d base x off => some (encM (ldstOp 0 spc sz acq) g d.toField base x la sc off)
  | .st g spc sz rel sc base x off => some (encM (ldstOp 1 spc sz rel) g 511 base x 0 sc off)
  | .atom g op k spc sz sc la d base x off =>
    some (encM (atomOpc 4 k spc sz) g d.toField base x la sc (op.toBits ++ off))
  | .cas g k spc sz sc la d base x off => some (encM (atomOpc 5 k spc sz) g d.toField base x la sc (0#4 ++ off))
  | .ldt g hi q0 cnt sc la d base x => some (encM 0xC0 g d.toField base x la sc (tensorOff hi q0 cnt))
  | .stt g hi q0 cnt sc d base x => some (encM 0xC1 g d.toField base x 0 sc (tensorOff hi q0 cnt))
  | .sttSeal g hi q0 cnt sc d base x => some (encM 0xC2 g d.toField base x 0 sc (tensorOff hi q0 cnt))
  | .prefG g sc base x off => some (encM 0xC4 g 511 base x 0 sc off)
  | .prefT g sc base x k => some (encM 0xC5 g 511 base x 0 sc k)
  | .fenceAcq g sc => some (encM 0xC8 g 511 .unused .unused 0 sc 0)
  | .fenceRel g sc => some (encM 0xC9 g 511 .unused .unused 0 sc 0)
  | .fenceAr g sc => some (encM 0xCA g 511 .unused .unused 0 sc 0)
  | .afence g a b => some (encM 0xCC g 511 a b 0 .core 0)
  | .ofence g => some (encM 0xCD g 511 .unused .unused 0 .core 0)
  | .tfence g => some (encM 0xCE g 511 .unused .unused 0 .core 0)
  | .gangset g pair a => some (encX 0x00 g (0#7 ++ BitVec.ofBool pair) 0 .zero a .zero .zero)
  | .mma g mode bt reuse la d a b c =>
    some (encX 0x01 g (0#4 ++ BitVec.ofBool reuse ++ BitVec.ofBool bt ++ mode.toBits) la d a b c)
  | .mmaw g => some (encX 0x02 g 0 0 .zero .zero .zero .zero)
  | .accz g a => some (encX 0x03 g 0 0 .zero a .zero .zero)
  | .accld g out d a => some (encX 0x04 g (0#7 ++ BitVec.ofBool out) 0 d a .zero .zero)
  | .accst g dst si sat rm d a =>
    some (encX 0x05 g (dst.code4 ++ BitVec.ofBool si ++ BitVec.ofBool sat ++ rm.toBits) 0 d a .zero .zero)
  | .accscl g a b => some (encX 0x06 g 0 0 .zero a b .zero)
  | .accmerge g la a b c => some (encX 0x07 g 0 la .zero a b c)
  | .ctld g sp slot a => some (encX 0x08 g (0#3 ++ BitVec.ofBool sp ++ ofFin16 slot) 0 .zero a .zero .zero)
  | .ctst g sp slot d a => some (encX 0x09 g (0#3 ++ BitVec.ofBool sp ++ ofFin16 slot) 0 d a .zero .zero)
  | .dec g dst sat bt la d b c =>
    some (encX 0x0A g (dst.toBits ++ 0#2 ++ BitVec.ofBool sat ++ BitVec.ofBool bt ++ 0#2) la d .zero b c)
  | .enc g fmt slot la d a b c => some (encX 0x0B g (fmt.code4 ++ ofFin16 slot) la d a b c)
  | .cpy g dst src d a b c => some (encX 0x10 g (dst.toBits ++ src.toBits ++ 0#4) 0 d a b c)
  | .cpy2d g dst src d a b c => some (encX 0x11 g (dst.toBits ++ src.toBits ++ 0#4) 0 d a b c)
  | .gather g dst src csr k d a b c =>
    some (encX 0x12 g (dst.toBits ++ src.toBits ++ BitVec.ofBool csr ++ ofPred k) 0 d a b c)
  | .scatter g dst src k d a b c => some (encX 0x13 g (dst.toBits ++ src.toBits ++ 0#1 ++ ofPred k) 0 d a b c)
  | .xform g keep d a b c => some (encX 0x14 g (0#7 ++ BitVec.ofBool keep) 0 d a b c)
  | .kvsend g d a b c => some (encX 0x15 g 0 0 d a b c)
  | .wbcast g src d a b c => some (encX 0x16 g (0#2 ++ src.toBits ++ 0#4) 0 d a b c)
  | .ringpush g d a b c => some (encX 0x17 g 0 0 d a b c)
  | .bra g off => some (encC 0x00 g .zero off)
  | .brx g r => some (encC 0x01 g r 0)
  | .call g r off => some (encC 0x02 g r off)
  | .ret g r => some (encC 0x03 g r 0)
  | .setmeet g off => some (encC 0x04 g .zero off)
  | .setmeetToken g r => some (encC 0x05 g r 0)
  | .savemeet g r => some (encC 0x06 g r 0)
  | .yield g => some (encC 0x08 g .zero 0)
  | .exit g => some (encC 0x09 g .zero 0)
  | .nop g => some (encC 0x0A g .zero 0)
  | .bar g arr count id => some (encS 0x00 g .zero .zero .zero (BitVec.ofBool arr ++ 0#3 ++ count ++ ofFin16 id))
  | .cbar g arr count id =>
    some (encS 0x01 g .zero .zero .zero (BitVec.ofBool arr ++ 0#3 ++ count ++ 0#1 ++ ofPred id))
  | .waitany g d a count => some (encS 0x02 g d a .zero (0#13 ++ BitVec.ofNat 4 count.val))
  | .evmask g op hi a => some (encS 0x03 g .zero a .zero (0#14 ++ op.toBits ++ BitVec.ofBool hi))
  | .evread g mask clr hi d =>
    some (encS 0x04 g d .zero .zero (0#14 ++ BitVec.ofBool mask ++ BitVec.ofBool clr ++ BitVec.ofBool hi))
  | .mbsend g q a b => some (encS 0x05 g .zero a b (0#14 ++ ofPred q))
  | .mbrecv g q d a => some (encS 0x06 g d a .zero (0#14 ++ ofPred q))
  | .ringwait g r (.imm slot ph) => some (encS 0x07 g .zero .zero .zero (0#9 ++ BitVec.ofBool ph ++ ofFin16 slot ++ ofPred r))
  | .ringwait g r (.it a) => some (encS 0x07 g .zero a .zero (0#8 ++ 1#1 ++ 0#5 ++ ofPred r))
  | .ringrel g r (.imm slot) => some (encS 0x08 g .zero .zero .zero (0#10 ++ ofFin16 slot ++ ofPred r))
  | .ringrel g r (.it a) => some (encS 0x08 g .zero a .zero (0#8 ++ 1#1 ++ 0#5 ++ ofPred r))
  | .reggrow g k => some (encS 0x10 g .zero .zero .zero (0#12 ++ BitVec.ofFin (w := 5) k))
  | .accgrow g k => some (encS 0x11 g .zero .zero .zero (0#15 ++ BitVec.ofFin (w := 2) k))
  | .regshrink g k => some (encS 0x12 g .zero .zero .zero (0#12 ++ BitVec.ofFin (w := 5) k))
  | .trap g d a b code => some (encS 0x18 g d a b code)
  | .clock g cyc d => some (encS 0x19 g d .zero .zero (0#16 ++ BitVec.ofBool cyc))
  | .sysrd g d r => some (encS 0x1A g d .zero .zero (0#7 ++ r.toBits))
  | .syswr g r a => some (encS 0x1B g .zero a .zero (0#7 ++ r.toBits))
  | .valid g (.bit n) => some (encS 0x1C g .zero .zero .zero (0#10 ++ 1#1 ++ n))
  | .valid g (.reg a) => some (encS 0x1C g .zero a .zero 0)
  | .launch g d a => some (encS 0x1D g d a .zero 0)
  | .done g grid => some (encS 0x1E g .zero .zero .zero (0#16 ++ BitVec.ofBool grid))
  | .reservedInstructionWord w => some w
  | _ => none

/-! ## Link commands (19 R288) and management commands (25 R341, R342) -/

/-- Bits [lo + n - 1 : lo] of a word of any length. -/
def bitsAt (w lo n : Nat) : Nat := w / 2 ^ lo % 2 ^ n

/-- The command of a link from its kind and words. -/
def linkInstr (link : Nat) (kind : Byte) (grid arg0 arg1 : Word) : Instr :=
  match kind.toNat with
  | 1 => .place link grid arg0 arg1
  | 2 => .cancelUnstartedTeams link grid
  | 3 => .deadlineEventCommand link grid arg0
  | 4 => .teamsRetired link grid arg0 arg1
  | 5 => .faultReport link grid arg0 arg1
  | 6 => .freezeReport link grid arg0 arg1
  | _ => .reservedLinkCommand link kind

/-- The command in a 32-byte word, its lowest byte first. -/
def decodeLink (link w : Nat) : Instr :=
  linkInstr link (BitVec.ofNat 8 w) (BitVec.ofNat 64 (bitsAt w 64 64)) (BitVec.ofNat 64 (bitsAt w 128 64))
    (BitVec.ofNat 64 (bitsAt w 192 64))

/-- `GACT` by its action code. -/
def gactInstr (part : BitVec 6) (grid who reply : Word) (action : Nat) : Instr :=
  match action with
  | 0 => .gactResume part grid who reply
  | 1 => .gactSkip part grid who
  | 2 => .gactTerminateGroup part grid who
  | _ => .gactTerminateGrid part grid

/-- The command in the eight words of a queue entry. -/
def mgmtInstr (ws : List Word) : Instr :=
  let w := fun i => ws.getD i 0
  let part := (w 0).extractLsb' 16 6
  match ((w 0).setWidth 8).toNat with
  | 0x01 => .pcfg part (w 1)
  | 0x02 => .pdrop part
  | 0x03 => gactInstr part (w 1) (w 2) (w 4) ((w 3).toNat % 4)
  | 0x04 => if (w 2).getLsbD 0 then .jactCancel part (w 1) else .jactResume part (w 1)
  | 0x05 => .evict part (w 1) (w 2)
  | 0x06 => .tinv part (w 1 &&& 3) (w 2) (w 3)
  | 0x07 => .sprobe (w 1)
  | 0x08 => .sreset (w 1)
  | 0x09 => .cntrd (w 1) (w 2) (w 3)
  | 0x0A => .hset part (w 1) (w 2)
  | 0x0B => .attest part (w 1) (w 2)
  | 0x0C => .pwrcap (w 1)
  | 0x0D => .toff part (w 1)
  | 0x0E => .tsrc (w 1 &&& 3) (w 2)
  | 0x10 => .fid (w 1)
  | 0x11 => .fwload (w 1) (w 2) (w 3)
  | 0x12 => .bootcfg (w 1) (w 2)
  | 0x13 => .go
  | op => .reservedManagementCommand (BitVec.ofNat 8 op)

/-- The eight words of a 64-byte entry, its lowest byte first. -/
def decodeMgmt (w : Nat) : Instr := mgmtInstr ((List.range 8).map fun i => BitVec.ofNat 64 (bitsAt w (64 * i) 64))

/-- The eight words of a management command, with software tag 0 and status 0. -/
def encodeMgmt (i : Instr) : Option (List Word) :=
  let go (op : Nat) (part : BitVec 6) (args : List Word) : Option (List Word) :=
    some (BitVec.ofNat 64 (op + part.toNat * 2 ^ 16) :: args ++ List.replicate (7 - args.length) 0)
  match i with
  | .pcfg p b => go 0x01 p [b]
  | .pdrop p => go 0x02 p []
  | .gactResume p g who r => go 0x03 p [g, who, 0, r]
  | .gactSkip p g who => go 0x03 p [g, who, 1]
  | .gactTerminateGroup p g who => go 0x03 p [g, who, 2]
  | .gactTerminateGrid p g => go 0x03 p [g, 0, 3]
  | .jactResume p n => go 0x04 p [n, 0]
  | .jactCancel p n => go 0x04 p [n, 1]
  | .evict p g t => go 0x05 p [g, t]
  | .tinv p sc a n => go 0x06 p [sc, a, n]
  | .sprobe n => go 0x07 0 [n]
  | .sreset n => go 0x08 0 [n]
  | .cntrd c n k => go 0x09 0 [c, n, k]
  | .hset p h e => go 0x0A p [h, e]
  | .attest p a b => go 0x0B p [a, b]
  | .pwrcap w => go 0x0C 0 [w]
  | .toff p v => go 0x0D p [v]
  | .tsrc c v => go 0x0E 0 [c, v]
  | .fid v => go 0x10 0 [v]
  | .fwload a n t => go 0x11 0 [a, n, t]
  | .bootcfg c k => go 0x12 0 [c, k]
  | .go => go 0x13 0 []
  | .reservedManagementCommand op => go op.toNat 0 []
  | _ => none

/-- The instruction or command whose bits are `w`, as the opcode table numbers bits: an instruction word has 64 bits, a link
command 256, and a management command 512. -/
def decodeTableWord (nbits w : Nat) : Option Instr :=
  if nbits ≤ 64 then some (fetchInstr (BitVec.ofNat 64 w))
  else if nbits ≤ 256 then some (decodeLink 0 w)
  else some (decodeMgmt w)

end Sys2Proof
end

