-- ==== Sys2Proof/Config.lean ====
section
/-!
DEFINITION. What the manual leaves open, as constants without a body: no proof can see their values. A constant that
takes a counter gives a fresh value for each choice; `State.choices` is that counter.
-/
namespace Sys2Proof.Config

/-- Which of the four LPDDR6 interfaces serves an address: not architectural (23 R318). DESIGN CHOICE (log 21). -/
opaque lpInterface : Nat → Nat

/-- A choice the manual leaves open (which member of an outcome set, which cluster): the n-th one. -/
opaque choice : Nat → Nat

/-- The result of a special function (by its number) for an F32 pattern whose enclosure would not decide the rounding.
DESIGN CHOICE (log 22). -/
opaque special : Nat → Nat → Nat

/-- The CRC-32C that an eviction leaves in a team's image header: the body's bytes are not architectural (21 R309). -/
opaque imageCrc : Nat → Nat

/-- The implementation-defined part of the raw size of an image, the same for every team of one shape (21 R309).
DESIGN CHOICE (log 27). -/
opaque imageExtra : List Nat → Nat

/-- The size of the body of an image saved at a tick, within its bound: not predictable (21 R309). DESIGN CHOICE (log 27). -/
opaque imageBody : Nat → Nat → Nat

/-- The scale bytes of an opened tile whose blocks are not yet complete: indeterminate (05 R79). -/
opaque openScale : Nat → Nat

/-- Bytes that the manual calls indeterminate after an engine job that retires with an error status (17 R252). -/
opaque junk : Nat → Nat

/-- The member of an outcome set that a choice takes: the list names the choice (the tick of the step, then its place in the
step). DESIGN CHOICE (log 61). -/
opaque member : List Nat → Nat

/-- Which of the twelve HBM4E interfaces serves an address: not architectural (23 R336). DESIGN CHOICE (log 21). -/
opaque hbmInterface : Nat → Nat

/-- The vendor's public key inside an image, its signature's verdict and its security version: the image's layout is not given
(25 R351). DESIGN CHOICE (log 25). -/
opaque imageKey : List Nat → List Nat
/-- DESIGN CHOICE (log 25). -/
opaque imageSigned : List Nat → Bool
/-- DESIGN CHOICE (log 25). -/
opaque imageVersion : List Nat → Nat

/-- The SHA3-512 hash of the vendor's public key that the package's ROM holds (25 R351). DESIGN CHOICE (log 25). -/
opaque romKeyHash : List Nat

/-- Byte `i` of the ML-DSA-87 signature over some bytes (25 R352). DESIGN CHOICE (log 25). -/
opaque sign : List Nat → Nat → Nat

end Sys2Proof.Config
end

