-- ==== Sys2Proof/Machine/State.lean ====
section
/-!
DEFINITION. The whole architectural state of one SWZ-7720 package as plain data, the reasons a step can stop, and the
state after reset. A `KMap` is a sparse table in canonical form: keys strictly rising, no entry equal to the default.
-/
namespace Sys2Proof.Machine

/-- A sparse table by number; an unlisted key holds the table's default. -/
abbrev KMap (α : Type) := List (Nat × α)

/-! ## Threads and groups (01 R15 to R25, 03 R54 to R57, 13 R204, 15 R225, R230) -/

/-- One thread: `PC`, `MEET`, the held bit and `p0`–`p6` (R15, R17, R20). -/
structure Thread where
  pc : Word
  meet : Word
  held : Bool
  exited : Bool
  preds : BitVec 7
  deriving DecidableEq, Repr

/-- Group roles (R24). -/
inductive Role where
  | vector | general | matrix | feeder
  deriving DecidableEq, Repr

/-- The A latch of R230: the words of the operand registers of each lane, the scale register last when `ascl`. -/
structure Latch where
  fmt : Fmt
  ascl : Bool
  words : List (List Word)
  deriving DecidableEq, Repr

/-- A register write of a long-latency instruction that is still outstanding in one lane (R120): the bits of `mask`
are to be written, and `left` more instructions of the thread belong to the window. -/
structure Pending where
  dst : Opd
  lane : Nat
  val : Word
  mask : Word
  left : Nat
  deriving DecidableEq, Repr

/-- An `MMA` waiting at the rendezvous latch (R232): the instruction's fields and the active lanes. -/
structure Arrival where
  pc : Word
  word : Word
  mode : MmaMode
  bt : Bool
  reuse : Bool
  a : Opd
  b : Opd
  c : Opd
  d : Opd
  act : List Nat
  deriving DecidableEq, Repr

/-- One listed event of a `WAITANY` (R206): its bit of `EVPEND` and the handler's address. -/
structure WaitEntry where
  bit : Nat
  handler : Word
  deriving DecidableEq, Repr

/-- What a blocked group waits for (R180). `act` lists the guard-true threads. -/
inductive Wait where
  | bar (id : Nat) (phase : Bool)
  | cbar (id : Nat) (phase : Bool)
  | any (d : Opd) (act : List Nat) (entries : List WaitEntry)
  | ring (ring slot : Nat) (phase : Bool)
  | regGrow (k : Nat)
  | accGrow (k : Nat)
  deriving DecidableEq, Repr

/-- Why a group is parked (R299, R305): a trap with no trap entry, a fault, or a system call. A fault shared by a gang
lists the groups it parked together (R232). -/
inductive Park where
  | trap
  | fault (gang : List Nat)
  | call (d : Opd) (act : List Nat)
  deriving DecidableEq, Repr

/-- What a group is doing. -/
inductive GStatus where
  | running
  | blocked (w : Wait)
  | parked (p : Park)
  | ended
  deriving DecidableEq, Repr

/-- What the present instruction of a running group waits for, which is a pre-emption point (R180): an access held for the
migration of a core, or one whose sector of LPDDR6 address `a` is being filled (23 R321). -/
inductive Hold where
  | core (c : Nat)
  | fill (a : Nat)
  deriving DecidableEq, Repr

/-- The registers of a group and the length of the write history when its last `OFENCE` executed (07 R101); `fenced` is false while the
group has executed none. -/
structure Placed where
  fenced : Bool
  v : KMap Word
  dead : KMap Bool
  s : KMap Word
  past : Nat
  deriving DecidableEq, Repr

def Placed.start : Placed := { fenced := false, v := [], dead := [], s := [], past := 0 }

/-- A register that an `MMA` in flight read as A: its number, the width of the elements it holds and the lanes (07 R102). -/
structure ARead where
  reg : Nat
  width : Nat
  lanes : List Nat
  deriving DecidableEq, Repr

/-- One group of 32 threads (R16, R17, R269, R308). `v` and the dead marks are keyed by 32 × register + lane,
`s` by number. `act` fields and `replay` are lists of lanes. `granules` numbers the group's register granules, lowest register
first. `fenceDev` and `fenceSys` are the lengths of the write history at the last release fence of device scope or wider and of
system scope (07 R104); `placed` is the placement of the last `OFENCE` (R101), `areads` lists the A registers of the `MMA`s
not yet waited for, and `reads` numbers the instructions issued, for the free choices of R102. -/
structure Group where
  team : Nat
  index : Nat
  role : Role
  gran : Nat
  granules : List Nat
  core : Nat
  slot : Nat
  pvbase : Nat
  threads : List Thread
  cur : Word
  v : KMap Word
  dead : KMap Bool
  s : KMap Word
  flags : BitVec 32
  flagen : BitVec 32
  amax : BitVec 32
  nancnt : BitVec 32
  satcnt : BitVec 32
  evpend : BitVec 128
  evmask : BitVec 128
  gang : Word
  latch : Option Latch
  pending : List Pending
  arrival : Option Arrival
  replay : Option (List Nat)
  raised : Bool
  divert : Bool
  waits : Option Hold
  fenceDev : Nat
  fenceSys : Nat
  placed : Placed
  areads : List ARead
  reads : Nat
  status : GStatus
  deriving DecidableEq, Repr

/-- A thread that has exited: what a group that does not exist holds. -/
def Thread.none : Thread := { pc := 0, meet := BitVec.allOnes 64, held := false, exited := true, preds := 0 }

/-- No group: the default of the group table. -/
def Group.absent : Group :=
  { team := 0, index := 0, role := .vector, gran := 0, granules := [], core := 0, slot := 0, pvbase := 0, threads := [], cur := 0,
    v := [], dead := [], s := [], flags := 0, flagen := 0, amax := 0, nancnt := 0, satcnt := 0, evpend := 0,
    evmask := 0, gang := 0, latch := .none, pending := [], arrival := .none, replay := .none, raised := false,
    divert := false, waits := .none, fenceDev := 0, fenceSys := 0, placed := Placed.start, areads := [], reads := 0,
    status := .ended }

/-! ## Teams (01 R16, R26, R27, 05 R63 to R66, 13 R202, 15 R222) -/

/-- A stage ring: slot size in bytes, offset in the allocation, and the pip, full bit and claim of each slot. -/
structure Ring where
  size : Nat
  base : Nat
  pips : List Bool
  full : List Bool
  claim : List Bool
  deriving DecidableEq, Repr

/-- A barrier (R202, R203): `armed` says that a group has arrived in the present phase, so `count` is its count. -/
structure Barrier where
  arrivals : Nat
  count : Nat
  armed : Bool
  phase : Bool
  deriving DecidableEq, Repr

def Barrier.start : Barrier := { arrivals := 0, count := 0, armed := false, phase := false }

/-- The contents of a code-table slot (R63): tag, the twelve counts and the symbols. An empty slot is `none`. -/
structure CodeTable where
  tag : BitVec 16
  counts : List Nat
  syms : List Nat
  deriving DecidableEq, Repr

/-- One row of an accepted `MMA` (R230, R233): its group and lane, its core, the accumulator key of its first element, the first
register it was read from unless the latch supplied it, and the words of its operand registers as they were read, the scale
register last when `ascl`. -/
structure MmaRow where
  group : Nat
  lane : Nat
  core : Nat
  base : Nat
  src : Option Opd
  a : List Word
  deriving DecidableEq, Repr

/-- One element of a B column: its position k, its pattern and the scale byte that applies (R231). -/
structure BElem where
  k : Nat
  pat : Nat
  scale : Nat
  deriving DecidableEq, Repr

/-- An accepted `MMA` (R234): the gang groups, where B was read and how long the write history was then, the format word,
the mode and scalar, its rows, the columns as each core read them, the elements that a later instruction of its groups
touched, with what they held (07 R102), and, once it has committed, the values on which its flags and counts were computed. -/
structure MmaOp where
  groups : List Nat
  bt : Bool
  b : Word
  seen : Nat
  fw : BitVec 32
  mode : MmaMode
  scalar : BitVec 32
  rows : List MmaRow
  cols : List (Nat × List (List BElem))
  touched : List (Nat × BitVec 32)
  used : List (Nat × BitVec 32)
  deriving DecidableEq, Repr

/-- An accepted `ACCMERGE` (R241): its group, the area, its physical pieces and partition, the chunk index, and the target
elements with their partials in (lane, j) order, as the read-modify-writes before its fold leave them (R236). `hits` lists the elements
on which an `MMA` of the group is in flight, with the value that the `MMA` gives them (07 R102), and `folded` is the step of its fold. -/
structure MergeOp where
  group : Nat
  area : Word
  pieces : List (Nat × Nat)
  part : Nat
  chunk : Nat
  elems : List (Nat × BitVec 32)
  hits : List (Nat × BitVec 32)
  folded : Nat
  deriving DecidableEq, Repr

/-- What a team's accumulator store still owes: an accepted `MMA` or `ACCMERGE`; a committed `MMA` that none of its groups has
waited for, so that its writes are not yet placed (R235, R236); one whose writes are placed, which the listed groups have not
waited for, with the values its elements had before and those that it gives them (07 R102); and a completed `ACCMERGE` with the values
it writes at its group's next `MMAW`, where a later operation has not placed them. -/
inductive AccOp where
  | mma (o : MmaOp)
  | merge (o : MergeOp)
  | settled (o : MmaOp)
  | applied (groups : List Nat) (old new : List (Nat × BitVec 32))
  | folded (o : MergeOp) (vals : List (Nat × BitVec 32))
  deriving DecidableEq, Repr

/-- Where a team is in its life. -/
inductive TeamPhase where
  | absent | resident | saved
  deriving DecidableEq, Repr

structure Team where
  phase : TeamPhase
  grid : Nat
  number : Nat
  launchNo : Nat
  size : Nat
  paired : Bool
  core : Nat
  spbase : List Nat
  spsize : Nat
  spkib : Nat
  rings : List Ring
  bars : KMap Barrier
  ct : KMap (Option CodeTable)
  halves : Nat
  acc : KMap (BitVec 32)
  ops : List AccOp
  ending : Bool
  mcheck : Bool
  image : Nat
  imageSize : Nat
  spsave : List Host.Cell
  deriving DecidableEq, Repr

def Team.absent : Team :=
  { phase := .absent, grid := 0, number := 0, launchNo := 0, size := 0, paired := false, core := 0, spbase := [],
    spsize := 0, spkib := 0, rings := [], bars := [], ct := [], halves := 0, acc := [], ops := [], ending := false,
    mcheck := false, image := 0, imageSize := 0, spsave := [] }

/-! ## Grids, graphs and launch nodes (01 R18, R19, 19 R267 to R294) -/

/-- The fields of a launch packet (R267), as the packet holds them: `teams` is T − 1, `groups` is G − 1, a ring is its present
bit, slots − 1 and slot size in 256-byte units. `rsv` says that a reserved bit is set. -/
structure Packet where
  root : Nat
  graph : Bool
  notify : Bool
  teams : Nat
  groups : Nat
  paired : Bool
  sys : Bool
  rsv : Bool
  cls : Nat
  nbind : Nat
  ver : Nat
  entry : Word
  wrap : Word
  trap : Word
  deadline : Nat
  work : Nat
  budget : Nat
  acc : Nat
  priv : Nat
  spkib : Nat
  gran : Nat
  roles : List Nat
  rings : List (Bool × Nat × Nat)
  args : Word
  recAddr : Word
  vword : Word
  bind : Word
  tag : Word
  deriving DecidableEq, Repr

def Packet.empty : Packet :=
  { root := 0, graph := false, notify := false, teams := 0, groups := 0, paired := false, sys := false, rsv := false,
    cls := 0, nbind := 0, ver := 0, entry := 0, wrap := 0, trap := 0, deadline := 0, work := 0, budget := 0, acc := 0,
    priv := 0, spkib := 0, gran := 0, roles := [], rings := [], args := 0, recAddr := 0, vword := 0, bind := 0, tag := 0 }

/-- A kernel grid: its packet, its place in the hierarchy, and what has become of its teams. `born` is the length of the write
history at its start (07 R108). -/
structure Grid where
  live : Bool
  born : Nat
  part : Nat
  graph : Nat
  node : Option Nat
  pkt : Packet
  depth : Nat
  sys : Bool
  parent : Option Nat
  deadline : Nat
  expiry : Nat
  cls : Nat
  bindings : List (Nat × Word)
  started : Nat
  retired : Nat
  cancelled : Nat
  start : Nat
  expired : Bool
  doneGrid : Bool
  terminated : Bool
  mcheck : Bool
  stopping : Bool
  vheld : Word
  hasRec : Bool
  cbars : KMap Barrier
  deriving DecidableEq, Repr

def Grid.absent : Grid :=
  { live := false, born := 0, part := 0, graph := 0, node := none, pkt := Packet.empty, depth := 0, sys := false, parent := none,
    deadline := 0, expiry := 0, cls := 0, bindings := [], started := 0, retired := 0, cancelled := 0,
    start := 0, expired := false, doneGrid := false, terminated := false, mcheck := false, stopping := false,
    vheld := 0, hasRec := false, cbars := [] }

/-- The state of one node of a running graph (R278 to R283). -/
inductive NodePhase where
  | waiting | ready | running | complete | cancelled
  deriving DecidableEq, Repr

/-- An entry of the launch-node table: the fields software writes (R278) and, while a graph runs it, the captured copy,
counter and bits. `graph` is the running graph's identifier, or 0. -/
structure Node where
  w0 : Word
  job : Word
  succ0 : Word
  succ1 : Word
  graph : Nat
  phase : NodePhase
  kind : Nat
  skip : Bool
  cjob : Word
  csucc : List Nat
  count : Nat
  err : Bool
  done : Bool
  deriving DecidableEq, Repr

def Node.blank : Node :=
  { w0 := 0, job := 0, succ0 := 0, succ1 := 0, graph := 0, phase := .waiting, kind := 0, skip := false, cjob := 0,
    csucc := [], count := 0, err := false, done := false }

/-- An admitted packet: one entry of the dispatch heap (R276 to R283). `parent` is the team that launched it. -/
structure Graph where
  live : Bool
  started : Bool
  part : Nat
  pkt : Packet
  order : Nat
  deadline : Nat
  expiry : Nat
  admitted : Nat
  start : Nat
  depth : Nat
  sys : Bool
  parent : Option Nat
  bindings : List (Nat × Word)
  nodes : List Nat
  expired : Bool
  ran : Nat
  cancelled : Nat
  nerr : Bool
  valid : Word
  mcheck : Bool
  terminated : Bool
  deriving DecidableEq, Repr

def Graph.absent : Graph :=
  { live := false, started := false, part := 0, pkt := Packet.empty, order := 0, deadline := 0, expiry := 0, admitted := 0,
    start := 0, depth := 0, sys := false, parent := none, bindings := [], nodes := [], expired := false, ran := 0,
    cancelled := 0, nerr := false, valid := 0, mcheck := false, terminated := false }

/-! ## Engine jobs (17 R248 to R264) -/

inductive JobKind where
  | cpy | cpy2d | gather | scatter | xform | kvsend | wbcast | ringpush
  deriving DecidableEq, Repr

inductive JobPhase where
  | queued | running | parked | failed (status : Nat) | finished
  deriving DecidableEq, Repr

/-- A 64-byte tensor descriptor as read (R69, R70). -/
structure Desc where
  fmt : Fmt
  coded : Bool
  sparsity : Nat
  ndim : Nat
  ctdef : Nat
  dims : List Nat
  strides : List Nat
  base : Nat
  fill : Nat
  fscale : Nat
  addr : Word
  deriving DecidableEq, Repr

/-- A destination range on the range scoreboard (R103): physical scratchpad bytes of a core, chip-window offsets or
virtual addresses, from `lo` below `hi`. -/
inductive RangeSpace where
  | sp (core : Nat) | ch | g
  deriving DecidableEq, Repr

structure SbRange where
  space : RangeSpace
  lo : Nat
  hi : Nat
  deriving DecidableEq, Repr

/-- A copy-engine job. `seen` is the length of the write history at the fence that its source reads may rely on (07 R104),
`ptrs` the row pointers of a CSR gather once read (17 R259), `range` its scoreboard entry: one range of each core that its
destination reaches, or one virtual or chip range. `num` is its number in issue order. -/
structure Job where
  live : Bool
  kind : JobKind
  mods : BitVec 8
  ctl : Word
  status : Word
  a : List Word
  b : List Word
  c : List Word
  core : Nat
  part : Nat
  grid : Nat
  team : Nat
  group : Nat
  pc : Word
  ident : Word
  node : Option Nat
  handle : Word
  src : Option Desc
  dst : Option Desc
  tables : KMap (Option CodeTable)
  bindings : List (Nat × Word)
  phase : JobPhase
  chunk : Nat
  count : Nat
  bad : Bool
  record : Option Nat
  range : List SbRange
  seen : Nat
  ptrs : Option (List Nat)
  num : Nat
  deriving DecidableEq, Repr

def Job.absent : Job :=
  { live := false, kind := .cpy, mods := 0, ctl := 0, status := 0, a := [], b := [], c := [], core := 0, part := 0,
    grid := 0, team := 0, group := 0, pc := 0, ident := 0, node := none, handle := 0, src := none, dst := none,
    tables := [], bindings := [], phase := .finished, chunk := 0, count := 0, bad := false, record := none,
    range := [], seen := 0, ptrs := none, num := 0 }

/-! ## Cores, clusters and their links (01 R12, R28, 13 R210, 19 R286 to R289, 21 R312) -/

/-- A bind record (R289). -/
structure Bind where
  valid : Bool
  grid : Nat
  team : Nat
  group : Nat
  role : Role
  paired : Bool
  gbase : Nat
  gran : Nat
  deadline : Nat
  pvbase : Nat
  spbase : Nat
  halves : Nat
  cls : Nat
  entry : Word
  wrap : Word
  trap : Word
  args : Word
  key : Nat
  deriving DecidableEq, Repr

def Bind.free : Bind :=
  { valid := false, grid := 0, team := 0, group := 0, role := .vector, paired := false, gbase := 0, gran := 0,
    deadline := 0, pvbase := 0, spbase := 0, halves := 0, cls := 0, entry := 0, wrap := 0, trap := 0, args := 0,
    key := 0 }

/-- A mailbox (R210): the bound grid, and the messages with the oldest first. -/
structure Mailbox where
  grid : Nat
  msgs : List Word
  deriving DecidableEq, Repr

def Mailbox.free : Mailbox := { grid := 0, msgs := [] }

/-- A grow request outstanding on a core (R31): the group, and accumulator halves or register granules. -/
structure GrowReq where
  group : Nat
  acc : Bool
  k : Nat
  deriving DecidableEq, Repr

/-- What a remote job hands to the fabric (17 R262, R263): the captured handle, the remote address, the bytes, and for a page
its sidecar line. -/
structure Sent where
  handle : Word
  addr : Nat
  bytes : List Byte
  line : List Byte
  deriving DecidableEq, Repr

/-- One logical core. `lost` and `unit` describe the error that froze it (R312, R313). -/
structure Core where
  frozen : Bool
  withdrawn : Bool
  unit : Byte
  lost : List Nat
  slots : KMap Bind
  mbox : KMap Mailbox
  grow : List GrowReq
  cycles : Nat
  deriving DecidableEq, Repr

def Core.fresh : Core :=
  { frozen := false, withdrawn := false, unit := 0, lost := [], slots := [], mbox := [], grow := [], cycles := 0 }

/-- A team waiting at a leaf controller: its grid and number (R28, R286). -/
structure WaitingTeam where
  grid : Nat
  number : Nat
  deriving DecidableEq, Repr

/-- A sidecar line in a metadata cache (05 R77): the partition that fetched it, its physical address, and whether the cached copy has an
uncorrectable error (21 R306). -/
structure CacheLine where
  part : Nat
  pa : Nat
  bad : Bool
  deriving DecidableEq, Repr

/-- A cluster: which physical core stands for each logical one, the leaf controller's waiting teams and launch count, and the
sidecar lines in its metadata cache, the newest first (05 R77). -/
structure Cluster where
  phys : List Nat
  spareUsed : Bool
  waiting : List WaitingTeam
  launches : Nat
  lines : List CacheLine
  deriving DecidableEq, Repr

def Cluster.fresh : Cluster :=
  { phys := [0, 1, 2, 3, 4, 5, 6, 7], spareUsed := false, waiting := [], launches := 0, lines := [] }

/-- A 32-byte command of a command link (R288). -/
structure LinkCmd where
  kind : Byte
  seq : BitVec 16
  grid : Word
  arg0 : Word
  arg1 : Word
  deriving DecidableEq, Repr

/-- A command link (R287): commands in flight each way, oldest first (8 permits less their number are free), commands that
wait for a permit, and the next sequence numbers. -/
structure Link where
  down : List LinkCmd
  up : List LinkCmd
  downWait : List LinkCmd
  upWait : List LinkCmd
  downSeq : BitVec 16
  upSeq : BitVec 16
  deriving DecidableEq, Repr

def Link.fresh : Link := { down := [], up := [], downWait := [], upWait := [], downSeq := 0, upSeq := 0 }

/-! ## Partitions and the memory tiers (25 R343 to R349, 23 R320 to R336) -/

/-- A 64-byte record on its way to a ring (R304): its eight words, which of them receives the device time when it is
written, the job whose index it gives, and the grid and core of the fault report that goes up when it is written. -/
structure Record where
  words : List Word
  timeAt : Option Nat
  job : Option Nat
  report : Option (Nat × Nat) := none
  deriving DecidableEq, Repr

structure Partition where
  live : Bool
  dropping : Bool
  ptroot : Word
  hsroot : Word
  sidebase : Word
  toff : Nat
  quota : Nat
  floor : Nat
  share : Nat
  nn : Nat
  nb : Nat
  cwsize : Nat
  cwbase : Nat
  fring : Nat
  hring : Nat
  sqn : Nat
  sqp : Nat
  logs : List Nat
  save : Nat
  savesz : Nat
  block : List Word
  seq : Nat
  fprod : BitVec 32
  hprod : BitVec 32
  fwait : List Record
  hwait : List Record
  notices : List Record
  nlimit : BitVec 32
  ncons : BitVec 32
  plimit : BitVec 32
  pcons : BitVec 32
  handles : KMap Word
  deriving DecidableEq, Repr

def Partition.absent : Partition :=
  { live := false, dropping := false, ptroot := 0, hsroot := 0, sidebase := 0, toff := 0, quota := 0, floor := 0,
    share := 0, nn := 0, nb := 0, cwsize := 0, cwbase := 0, fring := 0, hring := 0, sqn := 0, sqp := 0, logs := [],
    save := 0, savesz := 0, block := [], seq := 0, fprod := 0, hprod := 0, fwait := [], hwait := [], notices := [], nlimit := 0,
    ncons := 0, plimit := 0, pcons := 0, handles := [] }

/-- A sector's state word (R321, R322). -/
structure Sector where
  saddr : Nat
  valid : Bool
  dirty : Bool
  unknown : Bool
  deriving DecidableEq, Repr

def Sector.reset : Sector := { saddr := 0, valid := false, dirty := false, unknown := false }

/-- A translation held by a core's translation cache (R333): partition, page, and the effective leaf. -/
structure Held where
  core : Nat
  part : Nat
  va : Nat
  size : Nat
  ipa : Nat
  pa : Nat
  pr : Bool
  pw : Bool
  px : Bool
  pkind : Nat
  hr : Bool
  hw : Bool
  hx : Bool
  hkind : Nat
  deriving DecidableEq, Repr

/-! ## The card, time and power (25 R337 to R342, R350 to R356, 19 R265, R266) -/

/-- The source that disciplines the master count (R266). -/
inductive TimeSource where
  | oscillator | ieee1588 | pps
  deriving DecidableEq, Repr

structure TimeState where
  master : Nat
  source : TimeSource
  everLocked : Bool
  locked : Bool
  target : Option Nat
  ppsFirst : Bool
  ppsNext : Nat
  ppsLast : Nat
  deriving DecidableEq, Repr

structure PowerState where
  cap : Nat
  hot : Bool
  lowered : Bool
  throttling : Bool
  deriving DecidableEq, Repr

/-- DESIGN CHOICE (log 3). -/
structure BootState where
  step : Nat
  fid : BitVec 16
  gscLoaded : Bool
  leafLoaded : Bool
  c : Nat
  k : Nat
  slot0 : List Byte
  slot1 : List Byte
  slot2 : List Byte
  secver : Nat
  deriving DecidableEq, Repr

/-- DESIGN CHOICE (log 3). -/
structure CardState where
  mqbase : Word
  irqst : BitVec 4
  irqen : BitVec 4
  msix : List Nat
  link : Bool
  mqlimit : BitVec 32
  mqcons : BitVec 32
  deriving DecidableEq, Repr

/-! ## What happens next -/

/-- One turn of the package's schedule: which agent takes the next step. -/
inductive Turn where
  | issue (core slot : Nat)                         -- the scheduler of a core issues from a slot (R29)
  | mgmt                                            -- the device takes the next management command (R341)
  | link (n : Nat) (up : Bool)                      -- a receiver takes the next command of a link (R287)
  | card (off : BitVec 16) (size : Nat) (v : Word)  -- the host writes `size` bytes of the card's register window (R340)
  | miss (core slot : Nat) (a : BitVec 52)          -- the next access of a slot's group waits for a sector fill (R180)
  | event (e : Instr)                               -- an event of the package
  | hostWrite (addr : Nat) (bytes : List Byte)      -- the host writes its own memory (R339)
  | elapse (ns : Nat)                               -- time passes on the local oscillator (R266)
  | cycles (core n : Nat)                           -- arithmetic clock cycles pass on a core (R215)
  | nodeWrite (n : Nat) (w0 job succ0 succ1 : Word) -- system software writes a launch-node entry (R278)
  | dropHeld (core : Nat)                           -- a translation cache replaces its entries (R333)
  | badData (addrs : List Nat)                      -- uncorrectable errors appear in memory bytes (R319)
  | badSector (s : Nat)                             -- a sector's state becomes unknown (R323)
  | badLine (cluster pa : Nat)                      -- a line in a metadata cache becomes uncorrectable (21 R306)
  | corrected (core : Nat)                          -- a corrected soft error is counted (R312)
  | count (code inst n : Nat)                       -- a timing counter of R336 or R297 advances
  deriving DecidableEq, Repr, Inhabited

/-! ## The history of writes (07 R100 to R108) -/

/-- Who wrote: a group, the job of a number on a core's engine, or another agent. -/
inductive Writer where
  | group (k : Nat)
  | job (core num : Nat)
  | other
  deriving DecidableEq, Repr

/-- One write to memory: the virtual address of its first byte where it went through translation, and the bytes it replaced, each at
its physical address or its place in the store. `whole` marks a part of a store that becomes visible in one piece (05 R83), by the
length of the history when that store began. -/
structure Past where
  writer : Writer
  whole : Option Nat
  va : Option Nat
  old : List Host.Cell
  deriving DecidableEq, Repr

/-- An `AFENCE` executed: its group, the two pages, and the length of the write history then (07 R100, 13 R200). -/
structure AliasFence where
  group : Nat
  a : Nat
  b : Nat
  past : Nat
  deriving DecidableEq, Repr

/-- A merge area in use (15 R240): the physical address of its header, its physical pieces, and the length of the write history when it
was last as the folds left it. -/
structure MergeArea where
  pa : Nat
  pieces : List (Nat × Nat)
  past : Nat
  deriving DecidableEq, Repr

/-! ## The state -/

/-- The whole package. `past` is the history of memory writes, the newest first, `afences` that of the `AFENCE`s, `areas` the
merge areas in use. -/

structure State where
  mem : List Host.Cell
  bad : List Nat
  groups : KMap Group
  teams : KMap Team
  grids : KMap Grid
  graphs : KMap Graph
  nodes : KMap Node
  jobs : KMap Job
  parts : KMap Partition
  cores : KMap Core
  clusters : KMap Cluster
  links : KMap Link
  sectors : KMap Sector
  counters : KMap Word
  held : List Held
  past : List Past
  afences : List AliasFence
  areas : List MergeArea
  portsDown : BitVec 16
  sent : List Sent
  time : TimeState
  power : PowerState
  boot : BootState
  card : CardState
  nextTeam : Nat
  nextJob : Nat
  nextOrder : Nat
  focus : Nat
  word : Word
  schedule : List Turn
  tick : Nat
  choices : Nat
  deriving DecidableEq, Repr

/-- Why the machine would stop with a fault. The manual gives every exception an entry, a record or a status, and each
of them is a next state (21 R298), so no meaning of this model stops with one. -/
inductive Fault where
  /-- Raised by nothing; it keeps the type inhabited. Safe: it never occurs. -/
  | never
  deriving DecidableEq, Repr

/-- Why a meaning would be refused. -/
inductive Refusal where
  /-- Raised by an arm of `exec` whose instruction has no meaning yet. Safe: no claim is made of it. -/
  | notModelled (mnemonic : String)
  deriving DecidableEq, Repr

/-- Measurement slots before anything is measured: no value is given, 64 zero bytes here. DESIGN CHOICE (log 3). -/
def slotBytes : List Byte := List.replicate 64 0

/-- The package right after power good (25 R356 step 1): every core, sector, counter and partition at reset.
DESIGN CHOICE (log 3, 61). -/
def State.reset : State where
  mem := []
  bad := []
  groups := []
  teams := []
  grids := []
  graphs := []
  nodes := []
  jobs := []
  parts := []
  cores := []
  clusters := []
  links := []
  sectors := []
  counters := []
  held := []
  past := []
  afences := []
  areas := []
  portsDown := 0
  sent := []
  time := { master := 0, source := .oscillator, everLocked := false, locked := false, target := none, ppsFirst := false,
            ppsNext := 0, ppsLast := 0 }
  power := { cap := 2800, hot := false, lowered := false, throttling := false }
  boot := { step := 1, fid := 0, gscLoaded := false, leafLoaded := false, c := 0, k := 0, slot0 := slotBytes,
            slot1 := slotBytes, slot2 := slotBytes, secver := 0 }
  card := { mqbase := 0, irqst := 0, irqen := 0, msix := [], link := false, mqlimit := 0, mqcons := 0 }
  nextTeam := 1
  nextJob := 1
  nextOrder := 1
  focus := 0
  word := 0
  schedule := []
  tick := 0
  choices := 0

end Sys2Proof.Machine
end

