-- ==== Sys2Proof/Machine/Table.lean ====
section
/-!
DEFINITION. Sparse tables in canonical form: keys strictly rising, no entry equal to the default.
-/
namespace Sys2Proof.Machine

/-- The value at a key; an unlisted key holds the default. -/
def kget {α : Type} (dflt : α) : KMap α → Nat → α
  | [], _ => dflt
  | (k', x) :: r, k => if k = k' then x else kget dflt r k

/-- The table without the entries of key `k`. -/
def kdel {α : Type} : KMap α → Nat → KMap α
  | [], _ => []
  | (k', y) :: r, k => if k = k' then kdel r k else (k', y) :: kdel r k

/-- The table with an entry for key `k` in its place. -/
def kput {α : Type} : KMap α → Nat → α → KMap α
  | [], k, x => [(k, x)]
  | (k', y) :: r, k, x =>
    if k < k' then (k, x) :: (k', y) :: r
    else if k = k' then (k, x) :: r
    else (k', y) :: kput r k x

/-- The table with key `k` holding `x`; writing the default removes the entry. -/
def kset {α : Type} [DecidableEq α] (dflt : α) (m : KMap α) (k : Nat) (x : α) : KMap α :=
  if x = dflt then kdel m k else kput m k x

/-- The canonical form: every key above `lo`, strictly rising, no default listed. -/
def kwfFrom {α : Type} [DecidableEq α] (dflt : α) : Nat → KMap α → Bool
  | _, [] => true
  | lo, (k, x) :: r => lo ≤ k && x != dflt && kwfFrom dflt (k + 1) r

/-- `Memory.wf`'s general form. -/
def kwf {α : Type} [DecidableEq α] (dflt : α) (m : KMap α) : Bool := kwfFrom dflt 0 m

/-- The table without the keys from `lo` below `hi`. -/
def kcut {α : Type} (m : KMap α) (lo hi : Nat) : KMap α := m.filter fun e => !(lo ≤ e.1 && e.1 < hi)

/-- The part of the table with keys from `lo` below `hi`. -/
def kslice {α : Type} (m : KMap α) (lo hi : Nat) : KMap α := m.filter fun e => lo ≤ e.1 && e.1 < hi

/-- The table with keys [dst, dst + n) replaced by what [src, src + n) held. -/
def kcopy {α : Type} (m : KMap α) (src dst n : Nat) : KMap α :=
  let moved := (kslice m src (src + n)).map fun e => (e.1 - src + dst, e.2)
  (m.filter fun e => e.1 < dst) ++ moved ++ (m.filter fun e => dst + n ≤ e.1)

/-- The keys of the table at which `p` holds. -/
def kfind {α : Type} (m : KMap α) (p : Nat → α → Bool) : List Nat :=
  (m.filter fun e => p e.1 e.2).map fun e => e.1

/-- The table with every listed entry replaced by `f` of it. -/
def kmap {α : Type} [DecidableEq α] (dflt : α) (m : KMap α) (f : Nat → α → α) : KMap α :=
  (m.map fun e => (e.1, f e.1 e.2)).filter fun e => e.2 != dflt

end Sys2Proof.Machine
end

