-- ==== Sys2Proof/Machine/Phys.lean ====
section
/-!
DEFINITION. Memory below the address spaces: the byte store, the three backings, the LPDDR6 sector cache (23 R318 to R323),
and the two-stage translation (23 R327 to R333).
-/
namespace Sys2Proof.Machine

/-! ## The byte store

One list of cells holds every byte of the package, in canonical form: physical bytes at their 52-bit address (LPDDR6
device bytes at their tier address), scratchpads and the chip scratchpad above them. An unlisted byte reads 0. -/

/-- The canonical form of memory. -/
def Memory.wf (m : List Host.Cell) : Bool := kwf (0 : Byte) m

/-- Where byte `a` of package core `c`'s scratchpad lies in the store (R14, R86). -/
def spKey (c a : Nat) : Nat := 2 ^ 52 + c * 2 ^ 19 + a

/-- Where byte `o` of the chip scratchpad lies in the store (R326). -/
def chKey (o : Nat) : Nat := 2 ^ 53 + o

/-- DESIGN CHOICE (log 2). -/
def State.byte (s : State) (k : Nat) : Byte := kget 0 s.mem k

def State.setByte (s : State) (k : Nat) (b : Byte) : State :=
  { s with mem := kset 0 s.mem k b, bad := s.bad.filter (· != k) }

def State.bytes (s : State) (k n : Nat) : List Byte := (List.range n).map fun i => s.byte (k + i)

def State.setBytes (s : State) (k : Nat) : List Byte → State
  | [] => s
  | b :: r => (s.setByte k b).setBytes (k + 1) r

/-- An uncorrectable error lies in [k, k + n) (R319). -/
def State.isBad (s : State) (k n : Nat) : Bool := s.bad.any fun x => k ≤ x && x < k + n

/-- Bytes [dst, dst + n) take what [src, src + n) hold, error marks included (R319). -/
def State.moveBytes (s : State) (src dst n : Nat) : State :=
  { s with
    mem := kcopy s.mem src dst n
    bad := (s.bad.filter fun x => !(dst ≤ x && x < dst + n)) ++
      (s.bad.filter fun x => src ≤ x && x < src + n).map fun x => x - src + dst }

/-- Little-endian bytes as a number (R5). -/
def leNat : List Byte → Nat
  | [] => 0
  | b :: r => b.toNat + 256 * leNat r

/-- The low `n` bytes of a number, lowest first. -/
def leBytes : Nat → Nat → List Byte
  | 0, _ => []
  | n + 1, x => BitVec.ofNat 8 x :: leBytes n (x / 256)

def wordOf (bs : List Byte) : Word := BitVec.ofNat 64 (leNat bs)

def wordBytes (w : Word) : List Byte := leBytes 8 w.toNat

/-- The 8-byte words of a list of bytes. -/
def wordsOf (n : Nat) (bs : List Byte) : List Word :=
  (List.range n).map fun i => wordOf ((bs.drop (8 * i)).take 8)

/-! ## Counters (23 R335, R336) -/

def counterKey (code inst : Nat) : Nat := code * 1024 + inst

def State.counter (s : State) (code inst : Nat) : Word := kget 0 s.counters (counterKey code inst)

def State.addCounter (s : State) (code inst n : Nat) : State :=
  { s with counters := kset 0 s.counters (counterKey code inst) (s.counter code inst + BitVec.ofNat 64 n) }

/-! ## Backings (23 R318) -/

inductive Backing where
  | hbm | lpddr | host | none
  deriving DecidableEq, Repr

/-- The end of HBM4E. -/
def hbmTop : Nat := 0xC000000000

/-- The sector-cache carve-out C in bytes: codes 0 to 3 for 0, 64, 128 and 256 GiB (R320, R356). -/
def carveBytes (code : Nat) : Nat := if code = 0 then 0 else 2 ^ (35 + code)

def State.carve (s : State) : Nat := carveBytes s.boot.c

/-- Sectors of the sector cache (R320). -/
def State.sectorCount (s : State) : Nat := s.carve / 2048

def State.backing (s : State) (p : Nat) : Backing :=
  if p < hbmTop - s.carve then .hbm
  else if 0x10000000000 ≤ p && p < 0x30000000000 then .lpddr
  else if 0x8000000000000 ≤ p && p < 0xFFFFFFFFFFFFF then .host
  else .none

/-- Every byte of [p, p + n) has a backing. Regions are apart, so both ends lie in one region. -/
def State.backed (s : State) (p n : Nat) : Bool :=
  s.backing p != .none && (n == 0 || s.backing (p + n - 1) == s.backing p)

/-! ## The sector cache (23 R321) -/

/-- The LPDDR6 interface that serves an address: not architectural (R318), a free choice of one of the four. -/
def lpInterface (a : Nat) : Nat := Config.lpInterface a % 4

/-- The HBM4E interface that serves an address: not architectural (R336), a free choice of one of the twelve. -/
def hbmInterface (a : Nat) : Nat := Config.hbmInterface a % 12

/-- `n` bytes of HBM4E are read or written at an address (R336). -/
def State.countHbm (s : State) (a n : Nat) (write : Bool) : State :=
  s.addCounter (if write then 5 else 4) (hbmInterface a) n

/-- `n` bytes of LPDDR6 are read or written at a device address (R336). -/
def State.countLp (s : State) (a n : Nat) (write : Bool) : State :=
  s.addCounter (if write then 9 else 8) (lpInterface a) n

/-- Where sector `i` lies in HBM4E (R320). -/
def State.sectorBase (s : State) (i : Nat) : Nat := hbmTop - s.carve + 2048 * i

/-- Where the LPDDR6 device byte `a` lies in the store. -/
def lpKey (a : Nat) : Nat := 0x10000000000 + a

def State.sector (s : State) (i : Nat) : Sector := kget Sector.reset s.sectors i

def State.setSector (s : State) (i : Nat) (x : Sector) : State :=
  { s with sectors := kset Sector.reset s.sectors i x }

/-- The write-back of a dirty victim, and its count; a clean or invalid victim is only counted. -/
def State.evictSector (s : State) (i : Nat) (x : Sector) : State :=
  if x.valid && x.dirty then
    (((s.moveBytes (s.sectorBase i) (lpKey (x.saddr * 2048)) 2048).addCounter 3 0 1).countHbm (s.sectorBase i) 2048
      false).countLp (x.saddr * 2048) 2048 true
  else s.addCounter 2 0 1

/-- One lookup of the LPDDR6 address `a`; `false` when the index's state is unknown (R321, R323): such a lookup counts in one of
the three sector counters, and nothing says in which (R336). DESIGN CHOICE (log 20). -/
def State.lookup (s : State) (a : Nat) (write : Bool) : State × Bool :=
  let i := a / 2048 % s.sectorCount
  let x := s.sector i
  if x.unknown then (s.addCounter (1 + Config.member [s.tick, a] % 3) 0 1, false)
  else if x.valid && x.saddr == a / 2048 then
    ((s.addCounter 1 0 1).setSector i { x with dirty := x.dirty || write }, true)
  else
    let s1 := s.evictSector i x
    let s2 := ((s1.moveBytes (lpKey (a / 2048 * 2048)) (s1.sectorBase i) 2048).countLp a 2048 false).countHbm
      (s1.sectorBase i) 2048 true
    (s2.setSector i { saddr := a / 2048, valid := true, dirty := write, unknown := false }, true)

/-! ## Physical accesses -/

/-- One request within a 256-byte line: where its bytes lie in the store, or `none` for an access that raises reason
0x06 (R319, R323, R337). Every request to the LPDDR6 tier is one lookup: the L2 is modelled as holding no line.
DESIGN CHOICE (log 20). -/
def State.request (s : State) (p n : Nat) (write : Bool) : State × Option Nat :=
  match s.backing p with
  | .lpddr =>
    let a := p - 0x10000000000
    if s.sectorCount = 0 then (s.countLp a n write, some p)
    else
      let r := s.lookup a write
      let k := s.sectorBase (a / 2048 % s.sectorCount) + a % 2048
      if r.2 then (r.1.countHbm k n write, some k) else (r.1, none)
  | .host => if s.card.link && decide (p + n ≤ 0xFFFFFFFFFFFFF) then (s, some p) else (s, none)
  | .hbm => (s.countHbm p n write, some p)
  | .none => (s, none)

/-- The pieces of [p, p + n) that do not cross a multiple of `g`. -/
def pieces (g p n : Nat) : List (Nat × Nat) :=
  if n = 0 then []
  else (List.range ((p + n - 1) / g - p / g + 1)).map fun i =>
    let lo := max p ((p / g + i) * g)
    let hi := min (p + n) ((p / g + i + 1) * g)
    (lo, hi - lo)

/-- The requests for [p, p + n) are made, whether or not their bytes are then moved: each sector lookup counts (R335). -/
def State.tryRange (s : State) (p n : Nat) (write : Bool) : State :=
  (pieces 256 p n).foldl (fun s pc => (s.request pc.1 pc.2 write).1) s

/-- Read physical bytes; `none` when a byte cannot be read correctly. -/
def State.physRead (s : State) (p n : Nat) : State × Option (List Byte) :=
  (pieces 256 p n).foldl (fun acc pc =>
    let r := acc.1.request pc.1 pc.2 false
    match acc.2, r.2 with
    | some bs, some k => if r.1.isBad k pc.2 then (r.1, none) else (r.1, some (bs ++ r.1.bytes k pc.2))
    | _, _ => (r.1, none)) (s, some [])

/-- Write physical bytes; `false` when a request failed (its bytes are then not written). DESIGN CHOICE (log 62). -/
def State.physWrite (s : State) (p : Nat) (bs : List Byte) : State × Bool :=
  (pieces 256 p bs.length).foldl (fun acc pc =>
    let r := acc.1.request pc.1 pc.2 true
    match r.2 with
    | some k => (r.1.setBytes k ((bs.drop (pc.1 - p)).take pc.2), acc.2)
    | none => (r.1, false)) (s, true)

/-! ## Page tables (23 R327 to R331) -/

/-- A table level: the lowest address bit it indexes, its index width and its number (R329). -/
structure Level where
  sh : Nat
  bits : Nat
  num : Nat
  deriving DecidableEq, Repr

def levels : List Level :=
  [⟨48, 9, 0⟩, ⟨39, 9, 1⟩, ⟨30, 9, 2⟩, ⟨21, 9, 3⟩, ⟨16, 5, 4⟩]

/-- Bits [hi:lo] of a number. -/
def nbits (x lo w : Nat) : Nat := x / 2 ^ lo % 2 ^ w

/-- The malformed entries of R330 (those that need only the entry). -/
def entryBad (hostStage : Bool) (l : Level) (e : Nat) : Bool :=
  let kind := nbits e 52 4
  let leaf := nbits e 4 1 == 1
  let addr := nbits e 8 44 * 256
  nbits e 56 8 != 0 || nbits e 5 3 != 0 || 3 ≤ kind
    || (leaf && l.num ≤ 1) || (!leaf && l.num == 4)
    || (leaf && addr % 2 ^ l.sh != 0) || (!leaf && l.num ≤ 2 && addr % 4096 != 0)
    || (leaf && nbits e 1 1 == 0)
    || (!leaf && (kind != 0 || nbits e 1 3 != 0))
    || (leaf && kind == 1 && (hostStage || l.num != 4))

/-- A page that a stage's walk found. -/
structure Page where
  base : Nat
  size : Nat
  r : Bool
  w : Bool
  x : Bool
  kind : Nat
  deriving DecidableEq, Repr

/-- How a walk can fail: not valid, at the host stage, or on uncorrectable data. -/
inductive WalkFail where
  | invalid | host | bad
  deriving DecidableEq, Repr

def pageOf (l : Level) (e : Nat) : Page :=
  { base := nbits e 8 44 * 256, size := 2 ^ l.sh, r := nbits e 1 1 == 1, w := nbits e 2 1 == 1, x := nbits e 3 1 == 1,
    kind := nbits e 52 4 }

/-- The host stage from the table at `t`, level by level. -/
def hostLevels (ipa : Nat) : List Level → State → Nat → State × Except WalkFail Page
  | [], s, _ => (s, .error .invalid)
  | l :: ls, s, t =>
    if !s.backed t (8 * 2 ^ l.bits) then (s, .error .invalid)
    else
      let r := s.physRead (t + 8 * nbits ipa l.sh l.bits) 8
      match r.2 with
      | none => (r.1, .error .bad)
      | some bs =>
        let e := leNat bs
        if e % 2 == 0 || entryBad true l e then (r.1, .error .invalid)
        else if nbits e 4 1 == 1 then
          if r.1.backed (nbits e 8 44 * 256) (2 ^ l.sh) then (r.1, .ok (pageOf l e)) else (r.1, .error .invalid)
        else hostLevels ipa ls r.1 (nbits e 8 44 * 256)

/-- The host stage of one intermediate address (R328, R329). -/
def hostWalk (s : State) (root : Word) (ipa : Nat) : State × Except WalkFail Page :=
  if root.getLsbD 0 && ipa < 2 ^ 52 then hostLevels ipa levels s (nbits root.toNat 12 40 * 4096)
  else (s, .error .invalid)

/-- The partition stage from the intermediate table address `t`: every table is read through the host stage (R327). -/
def partLevels (hsroot : Word) (va : Nat) : List Level → State → Nat → State × Except WalkFail Page
  | [], s, _ => (s, .error .invalid)
  | l :: ls, s, t =>
    let ia := t + 8 * nbits va l.sh l.bits
    let h := hostWalk s hsroot ia
    match h.2 with
    | .error .bad => (h.1, .error .bad)
    | .error _ => (h.1, .error .host)
    | .ok pg =>
      let r := h.1.physRead (pg.base + ia % pg.size) 8
      match r.2 with
      | none => (r.1, .error .bad)
      | some bs =>
        let e := leNat bs
        if e % 2 == 0 || entryBad false l e then (r.1, .error .invalid)
        else if nbits e 4 1 == 1 then (r.1, .ok (pageOf l e))
        else partLevels hsroot va ls r.1 (nbits e 8 44 * 256)

def partWalk (s : State) (ptroot hsroot : Word) (va : Nat) : State × Except WalkFail Page :=
  if ptroot.getLsbD 0 then partLevels hsroot va levels s (nbits ptroot.toNat 12 40 * 4096)
  else (s, .error .invalid)

/-! ## Translation of an access (23 R331, R332) -/

/-- What an access needs of the leaves (R332): the rights, and whether it is one that an uncached page refuses. -/
structure Need where
  r : Bool := false
  w : Bool := false
  x : Bool := false
  cached : Bool := false
  deriving DecidableEq, Repr

def Need.read : Need := { r := true }
def Need.write : Need := { w := true }
def Need.rmw : Need := { r := true, w := true, cached := true }
def Need.fetch : Need := { x := true }

/-- A translated address: the physical address and the effective page kind. -/
structure Where where
  pa : Nat
  kind : Nat
  deriving DecidableEq, Repr

def rightsOk (n : Need) (r w x : Bool) : Bool := (!n.r || r) && (!n.w || w) && (!n.x || x)

/-- The check of a held or freshly walked pair of leaves: reasons 0x02 and 0x03 of R332. -/
def leafCheck (n : Need) (h : Held) (va : Nat) : Except Nat Where :=
  if !rightsOk n h.pr h.pw h.px then .error 2
  else if n.cached && h.pkind == 2 then .error 2
  else if !rightsOk n h.hr h.hw h.hx then .error 3
  else if h.pkind == 1 && h.hkind == 2 then .error 3
  else if n.cached && h.hkind == 2 then .error 3
  else .ok { pa := h.pa + va % h.size, kind := if h.hkind == 2 then 2 else h.pkind }

def State.part (s : State) (p : Nat) : Partition := kget Partition.absent s.parts p

def State.setPart (s : State) (p : Nat) (x : Partition) : State := { s with parts := kset Partition.absent s.parts p x }

/-- Both stages of one virtual address, without any held entry. The partition stage's rights are checked before the
host stage of the page is walked (R332). An address past 57 bits lies outside the global window: a window fault (07 R87), but
for a fetch, which has no window of its own and is not mapped. DEDUCED (log 59). -/
def State.walk (s : State) (core part : Nat) (n : Need) (va : Nat) : State × Except Nat Held :=
  let p := s.part part
  let w := if 2 ^ 57 ≤ va then (s, .error .invalid) else partWalk s p.ptroot p.hsroot va
  match w.2 with
  | .error .invalid => (w.1, .error (if 2 ^ 57 ≤ va ∧ n.x = false then 4 else 1))
  | .error .host => (w.1, .error 3)
  | .error .bad => (w.1, .error 6)
  | .ok pg =>
    if !rightsOk n pg.r pg.w pg.x || (n.cached && pg.kind == 2) then (w.1, .error 2)
    else
      let ipa := pg.base + va % pg.size
      let h := hostWalk w.1 p.hsroot ipa
      match h.2 with
      | .error .bad => (h.1, .error 6)
      | .error _ => (h.1, .error 3)
      | .ok hp =>
        let size := min pg.size hp.size
        (h.1, .ok { core := core, part := part, va := va / size * size, size := size, ipa := ipa / size * size,
                    pa := (hp.base + ipa % hp.size) / size * size, pr := pg.r, pw := pg.w, px := pg.x, pkind := pg.kind,
                    hr := hp.r, hw := hp.w, hx := hp.x, hkind := hp.kind })

/-- The translation that a core's cache holds for an address, if any (R333). DESIGN CHOICE (log 50). -/
def State.heldFor (s : State) (core part va : Nat) : Option Held :=
  s.held.find? fun h => h.core == core && h.part == part && h.va ≤ va && va < h.va + h.size

/-- A miss of a core's translation cache and the walk that it starts are counted (R336); a walk for another agent is not one
core's. -/
def State.countWalk (s : State) (core : Nat) : State :=
  if core < 256 then (s.addCounter 0x0F core 1).addCounter 0x10 (core / 8) 1 else s

/-- The physical place of one virtual address, or the memory-fault reason (R332). DESIGN CHOICE (log 50). -/
def State.translate (s : State) (core part : Nat) (n : Need) (va : Nat) : State × Except Nat Where :=
  match s.heldFor core part va with
  | some h => (s, leafCheck n h va)
  | none =>
    let w := (s.countWalk core).walk core part n va
    match w.2 with
    | .error e => (w.1, .error e)
    | .ok h => (w.1, leafCheck n h va)

/-- The package core number that stands for the front end and other agents without a translation cache of their own.
DEDUCED (log 53). -/
def noCore : Nat := 256

/-- The physical pieces of a virtual range, or the first failing address with its reason. -/
def State.translateRange (s : State) (core part : Nat) (n : Need) (va len : Nat) :
    State × Except (Nat × Nat) (List (Where × Nat)) :=
  (pieces 65536 va len).foldl (fun acc pc =>
    match acc.2 with
    | .error e => (acc.1, .error e)
    | .ok ws =>
      let t := acc.1.translate core part n pc.1
      match t.2 with
      | .error e => (t.1, .error (pc.1, e))
      | .ok w => (t.1, .ok (ws ++ [(w, pc.2)]))) (s, .ok [])

/-! ## The history of writes and the values that a read may return (07 R100 to R108) -/

/-- Where the current value of physical byte `p` lies: in its sector of the LPDDR6 sector cache when one holds it (R321),
otherwise at its own place. -/
def State.homeKey (s : State) (p : Nat) : Nat :=
  let a := p - 0x10000000000
  let i := a / 2048 % s.sectorCount
  if s.backing p = .lpddr ∧ s.sectorCount ≠ 0 ∧ (s.sector i).valid = true ∧ (s.sector i).saddr = a / 2048 then
    s.sectorBase i + a % 2048
  else p

/-- One byte of memory: a physical byte, or a byte of a scratchpad or of the chip scratchpad at its place in the store. -/
def State.memByte (s : State) (p : Nat) : Byte := s.byte (s.homeKey p)

/-- The bytes at `ks` are about to be written: the history notes what they hold. -/
def State.remember (s : State) (writer : Writer) (va : Option Nat) (ks : List Nat) (whole : Option Nat := none) : State :=
  { s with past := { writer := writer, whole := whole, va := va, old := ks.map fun k => (k, s.memByte k) } :: s.past }

/-- The history since it had length `n`, the newest write first. -/
def State.since (s : State) (n : Nat) : List Past := s.past.take (s.past.length - n)

/-- The state as if, of the writes `ps` (the newest first), only those that `keep` selects had happened; `done` lists bytes that a later
kept write has written. -/
def State.onlyWrites (keep : Past → Bool) : List Past → List Nat → State → State
  | [], _, s => s
  | p :: ps, done, s =>
    if keep p then State.onlyWrites keep ps (p.old.map (·.1) ++ done) s
    else
      State.onlyWrites keep ps done
        (p.old.foldl (fun s e => if done.contains e.1 then s else s.setByte (s.homeKey e.1) e.2) s)

/-- The write changed one of the bytes. -/
def Past.touches (p : Past) (ks : List Nat) : Bool := p.old.any fun e => ks.contains e.1

/-- The values of the bytes before the write, from those after it. -/
def Past.before (p : Past) (ks : List Nat) (v : List Byte) : List Byte :=
  (ks.zip v).map fun e => ((p.old.find? fun o => o.1 == e.1).map (·.2)).getD e.2

/-- How far a write's virtual addresses lie above the bytes' places: two writes through one virtual address agree here. -/
def Past.shift (p : Past) : Option Int := p.va.map fun x => (x : Int) - ((p.old.headD (0, 0)).1 : Nat)

/-- One write to some bytes: its place in the history, the write, and what it left in those of the bytes that it covered. -/
structure ByteWrite where
  i : Nat
  p : Past
  new : List Host.Cell
  deriving DecidableEq, Repr

/-- The writes that touched the bytes at `ks`, the newest first, and the bytes' values before all of them; `v` are the present ones. -/
def writesOn (ks : List Nat) : List Byte → List Past → List ByteWrite × List Byte
  | v, [] => ([], v)
  | v, p :: ps =>
    if p.touches ks then
      let r := writesOn ks (p.before ks v) ps
      ({ i := ps.length, p := p, new := (ks.zip v).filter fun e => p.old.any fun o => o.1 == e.1 } :: r.1, r.2)
    else writesOn ks v ps

/-- The bytes at `ks` after a write. -/
def ByteWrite.over (w : ByteWrite) (ks : List Nat) (v : List Byte) : List Byte :=
  (ks.zip v).map fun e => ((w.new.find? fun c => c.1 == e.1).map (·.2)).getD e.2

/-- How a write stands to a read (07 R94, R100, R104): the read follows it; it is unordered with the read; or it is part of a store that
the read sees nothing of (05 R83). -/
inductive Standing where
  | seen | free | hidden
  deriving DecidableEq, Repr

/-- What a read of the bytes at `ks` may return whose present values are `v`: what the writes that the read follows have left, or what
an unordered write has left, which `same` tells through one address with it. DESIGN CHOICE (log 61). -/
def granuleValues (cls : Nat → Past → Standing) (same : Past → Past → Bool) (ks : List Nat) (v : List Byte) (ps : List Past) :
    List (List Byte) :=
  let r := writesOn ks v ps
  let ws := (r.1.reverse.map fun w => (w, cls w.i w.p)).filter fun w => w.2 != .hidden
  let upto := fun (take : ByteWrite × Standing → Bool) => (ws.filter take).foldl (fun x w => w.1.over ks x) r.2
  upto (fun w => w.2 == .seen) ::
    (ws.filter fun w => w.2 == .free).map fun w =>
      upto fun u => u.2 == .seen && (decide (u.1.i ≤ w.1.i) || same u.1.p w.1.p) || decide (u.1.i ≤ w.1.i) && same u.1.p w.1.p

/-- One member of an outcome set; `name` names the choice. DESIGN CHOICE (log 61). -/
def memberOf {α : Type} (name : List Nat) (x : α) : List α → α
  | [] => x
  | [y] => y
  | ys => ys.getD (Config.member name % ys.length) x

/-- What a read of [k, k + n) returns whose bytes are now `bs`: each aligned granule of `w` bytes takes one of the values that the writes
to it allow. DESIGN CHOICE (log 61). -/
def State.mixRun (s : State) (cls : Nat → Past → Standing) (same : Past → Past → Bool) (ps : List Past) (w k n : Nat)
    (bs : List Byte) : List Byte :=
  if ps.any fun p => p.touches ((List.range n).map (k + ·)) then
    (pieces w k n).flatMap fun pc =>
      let ks := (List.range pc.2).map (pc.1 + ·)
      let v := (bs.drop (pc.1 - k)).take pc.2
      memberOf [s.tick, pc.1] v (granuleValues cls same ks v ps)
  else bs

/-- Who reads: the group whose `AFENCE`s count, the length of the history from which on every write is unordered with the read (R104),
the bytes of a granule (4, or 8 in a descriptor: 05 R70), and for a job the core and number whose earlier jobs' writes it follows
(17 R248). -/
structure View where
  group : Nat
  since : Nat
  width : Nat
  job : Option (Nat × Nat)
  deriving DecidableEq, Repr

/-- The fence names this pair of pages (13 R200). -/
def AliasFence.names (f : AliasFence) (a b : Nat) : Bool := (f.a == a && f.b == b) || (f.a == b && f.b == a)

/-- The writer's `AFENCE` of the pair stands behind the write and not behind the reader's (R100); the newest fence comes first.
DEDUCED (log 5). -/
def fencedIn (writer reader i a b : Nat) : Bool → List AliasFence → Bool
  | _, [] => false
  | seen, f :: fs =>
    let here := seen || (f.group == reader && f.names a b)
    if here && f.group == writer && f.names a b && decide (i < f.past) then true else fencedIn writer reader i a b here fs

/-- A read of the byte at `k` through virtual address `va` follows the i-th write of the history, as one location: the write went through
the same address, or through a page whose pair both sides have fenced (R100), and it precedes the reader's fence, or comes from an
earlier job of the same core (17 R248). DEDUCED (log 5). -/
def State.ordered (s : State) (w : View) (va k i : Nat) (p : Past) : Bool :=
  let same := match p.va with
    | some x => va + (p.old.headD (0, 0)).1 == x + k
    | none => true
  match p.writer with
  | .group g => decide (i < w.since) && (same || fencedIn g w.group i (p.va.getD 0 / 65536) (va / 65536) false s.afences)
  | .job core num => same && (decide (i < w.since) || w.job.any fun j => j.1 == core && decide (num ≤ j.2))
  | .other => same && decide (i < w.since)

/-- How the i-th write stands to such a read: of the stores that become visible in one piece and are unordered with the read, the read
sees those before a point of the history, the same for its whole step (05 R83). DESIGN CHOICE (log 61). -/
def State.standing (s : State) (w : View) (va k i : Nat) (p : Past) : Standing :=
  if s.ordered w va k i p then .seen
  else
    match p.whole with
    | none => .free
    | some n => if n < Config.member [s.tick, s.past.length] % (s.past.length + 1) then .seen else .hidden

/-- The bytes of [pa, pa + n) as one agent reads them through virtual address `va`: every aligned granule returns a value that R94
allows through that address, or that of a write unordered with the read (R100, R104). -/
def State.viewed (s : State) (w : Option View) (va pa n : Nat) (bs : List Byte) : List Byte :=
  match w with
  | none => bs
  | some w => s.mixRun (s.standing w va pa) (fun a b => a.shift == b.shift) s.past w.width pa n bs

/-- The view of a group's own reads: every write that has happened precedes them (log 4). DESIGN CHOICE (log 4). -/
def State.groupView (s : State) (group : Nat) : Option View :=
  some { group := group, since := s.past.length, width := 4, job := none }

/-- Read translated pieces of a range at `va`; the first that cannot be read raises reason 0x06 at its address. -/
def State.readPieces (s : State) (w : Option View) : Nat → List (Where × Nat) → State × Except Nat (List Byte)
  | _, [] => (s, .ok [])
  | va, (x, n) :: ws =>
    let r := s.physRead x.pa n
    match r.2 with
    | none => (r.1, .error va)
    | some bs =>
      let t := r.1.readPieces w (va + n) ws
      match t.2 with
      | .error e => (t.1, .error e)
      | .ok cs => (t.1, .ok (s.viewed w va x.pa n bs ++ cs))

/-- Read a virtual range as one agent's plain read. -/
def State.vread (s : State) (core part : Nat) (va len : Nat) (w : Option View := none) :
    State × Except (Nat × Nat) (List Byte) :=
  let t := s.translateRange core part Need.read va len
  match t.2 with
  | .error e => (t.1, .error e)
  | .ok ws =>
    let r := t.1.readPieces w va ws
    match r.2 with
    | .error a => (r.1, .error (a, 6))
    | .ok bs => (r.1, .ok bs)

/-- Write physical pieces with consecutive bytes. DESIGN CHOICE (log 62). -/
def State.writePieces (s : State) (ws : List (Where × Nat)) (bs : List Byte) : State × Bool :=
  let r := ws.foldl (fun acc w =>
    let x := acc.1.physWrite w.1.pa (acc.2.1.take w.2)
    (x.1, acc.2.1.drop w.2, acc.2.2 && x.2)) (s, bs, true)
  (r.1, r.2.2)

/-- Write a virtual range: nothing is written when any byte does not translate for write. DESIGN CHOICE (log 62). -/
def State.vwrite (s : State) (core part : Nat) (va : Nat) (bs : List Byte) : State × Except (Nat × Nat) Unit :=
  let t := s.translateRange core part Need.write va bs.length
  match t.2 with
  | .error e => (t.1, .error e)
  | .ok ws =>
    let r := t.1.writePieces ws bs
    if r.2 then (r.1, .ok ()) else (r.1, .error (va, 6))

end Sys2Proof.Machine
end

