-- ==== Sys2Proof/Machine/Ops.lean ====
section
/-!
DEFINITION. The named operations on groups, registers and records: the current subset and reconvergence (01 R20 to R22),
operand reads and writes (09 R112 to R114), lookahead windows (09 R120), taking a trap or a fault and leaving one
(21 R298 to R305), and the issue of an instruction (09 R136).
-/
namespace Sys2Proof

/-- The `k`-th register after an operand: `v`(n + k) or `s`(n + k). -/
def Opd.plus (o : Opd) (k : Nat) : Opd :=
  match o with
  | .v r => if h : r.val + k < 320 then .v ⟨r.val + k, h⟩ else .zero
  | .s n => if h : n.val + k < 64 then .s ⟨n.val + k, h⟩ else .zero
  | .zero => .zero

end Sys2Proof

namespace Sys2Proof.Machine

/-! ## Sub-elements of a lane (03 R39, 09 R138) -/

/-- `elem(x, i, w)` of R138. -/
def elem (x : Word) (i w : Nat) : Nat := x.toNat / 2 ^ (i * w) % 2 ^ w

/-- `put(x, i, w, y)` of R138. -/
def put (x : Word) (i w y : Nat) : Word :=
  (x &&& ~~~(BitVec.ofNat 64 ((2 ^ w - 1) * 2 ^ (i * w)))) ||| BitVec.ofNat 64 (y % 2 ^ w * 2 ^ (i * w))

/-- A word whose elements of `w` bits are each taken from one of two words; `name` names the choices. DESIGN CHOICE (log 12). -/
def mixWord (w : Nat) (name : List Nat) (x y : Word) : Word :=
  if x = y then x
  else (List.range (64 / w)).foldl (fun z i => put z i w (memberOf (i :: name) (elem x i w) [elem x i w, elem y i w])) 0

/-! ## Threads, guards and the current subset -/

/-- The 32 lanes of a group. -/
def lanes : List Nat := List.range 32

def Group.thr (g : Group) (l : Nat) : Thread := g.threads.getD l Thread.none

/-- Neither held nor exited (R20, R22). -/
def Thread.runs (t : Thread) : Bool := !t.held && !t.exited

/-- p[q] of a thread; `p7` reads as true (R111). -/
def Thread.pred (t : Thread) (q : Fin 8) : Bool := q == 7 || t.preds.getLsbD q.val

/-- The thread with p[q] := b; a write to `p7` is discarded (R117). -/
def Thread.setPred (t : Thread) (q : Fin 8) (b : Bool) : Thread :=
  if q = 7 then t
  else { t with preds := if b then t.preds ||| (1#7 <<< q.val) else t.preds &&& ~~~(1#7 <<< q.val) }

/-- The guard of a thread (R111). -/
def guardTrue (gd : Guard) (t : Thread) : Bool := t.pred gd.p != gd.neg

/-- `subset(l)` of R138: a running thread at the current subset's `PC`. -/
def Group.inSubset (g : Group) (l : Nat) : Bool := (g.thr l).runs && (g.thr l).pc == g.cur

def Group.subset (g : Group) : List Nat := lanes.filter g.inSubset

/-- The active lanes, ascending: `active(l)` of R138. -/
def Group.active (g : Group) (gd : Guard) : List Nat := lanes.filter fun l => g.inSubset l && guardTrue gd (g.thr l)

/-- A set of lanes as a 32-bit mask. -/
def laneMask (ls : List Nat) : BitVec 32 := ls.foldl (fun m l => m ||| (1#32 <<< l)) 0

def Group.mapThr (g : Group) (f : Nat → Thread → Thread) : Group := { g with threads := g.threads.mapIdx f }

/-- The threads of `ls` take `PC` := f l. -/
def Group.jump (g : Group) (ls : List Nat) (f : Nat → Word) : Group :=
  g.mapThr fun l t => if ls.contains l then { t with pc := f l } else t

/-- The threads of `ls` continue at the next instruction. -/
def Group.advance (g : Group) (ls : List Nat) : Group :=
  g.mapThr fun l t => if ls.contains l then { t with pc := t.pc + 8 } else t

/-- R20: an arriving thread whose `PC` equals its `MEET` becomes held. -/
def Group.arrive (g : Group) (ls : List Nat) : Group :=
  g.mapThr fun l t => if ls.contains l && !t.exited then { t with held := t.pc == t.meet } else t

/-- The lowest of some addresses. -/
def lowest : List Word → Option Word
  | [] => none
  | a :: r =>
    match lowest r with
    | none => some a
    | some b => some (if a.toNat ≤ b.toNat then a else b)

/-- `PC`s of the running threads. -/
def Group.runPcs (g : Group) : List Word := (g.threads.filter Thread.runs).map Thread.pc

/-- `PC`s of the held threads. -/
def Group.heldPcs (g : Group) : List Word := (g.threads.filter fun t => t.held && !t.exited).map Thread.pc

/-- R21: the threads held at the lowest held address are released, and their subset is current (R22). -/
def Group.release (g : Group) : Group :=
  match lowest g.heldPcs with
  | none => g
  | some a =>
    { g.mapThr (fun _ t => if t.held && !t.exited && t.pc == a then { t with held := false } else t) with cur := a }

/-- R22's second row: the lowest `PC` above `prev`, or the lowest of all. DEDUCED (log 9). -/
def Group.rotateFrom (g : Group) (prev : Word) : Word :=
  match lowest (g.runPcs.filter fun a => prev.toNat < a.toNat) with
  | some a => a
  | none => (lowest g.runPcs).getD g.cur

/-- A thread that is held completes its outstanding register writes before the group's next instruction (09 R120).
DESIGN CHOICE (log 7). -/
def Group.closeHeld (g : Group) : Group :=
  { g with pending := g.pending.map fun p => if (g.thr p.lane).held then { p with left := 0 } else p }

/-- R20 to R22 after an instruction that the threads `ls` executed. `rotate` holds after `YIELD` and a completed blocking
instruction. Issue then goes on above the `PC` at which the instruction left the current subset, or above the address it
issued from when that subset is wholly held or exited. Where the instruction split the subset (a `WAITANY`, whose guard-false
threads go to the next instruction), the `PC` of its lowest running lane counts. DEDUCED (log 9, 64). -/
def Group.finish (g : Group) (ls : List Nat) (rotate : Bool) : Group :=
  let h := (g.arrive ls).closeHeld
  if h.runPcs = [] then h.release
  else
    match ls.find? fun l => (h.thr l).runs with
    | some l => { h with cur := if rotate then h.rotateFrom (h.thr l).pc else (h.thr l).pc }
    | none => { h with cur := h.rotateFrom g.cur }

/-! ## Registers (R112 to R114) -/

/-- Poison (R4, R138). -/
def poison : Word := 0x7FF85A5A5A5A5A5A

def vKey (r l : Nat) : Nat := 32 * r + l

/-- A read of lane `l` of `v`(r): poison when the lane is dead (R114). -/
def Group.vread (g : Group) (r l : Nat) : Word :=
  if kget false g.dead (vKey r l) then poison else kget 0 g.v (vKey r l)

/-- A write of a lane clears its dead mark (R114). -/
def Group.vwrite (g : Group) (r l : Nat) (x : Word) : Group :=
  { g with v := kset 0 g.v (vKey r l) x, dead := kset false g.dead (vKey r l) false }

def Group.sread (g : Group) (n : Nat) : Word := kget 0 g.s n

def Group.swrite (g : Group) (n : Nat) (x : Word) : Group := { g with s := kset 0 g.s n x }

/-- Lane `l` of an operand as the registers hold it. -/
def Group.rdRaw (g : Group) (o : Opd) (l : Nat) : Word :=
  match o with
  | .v r => g.vread r.val l
  | .s n => g.sread n.val
  | .zero => 0

/-- An instruction's read of lane `l` of `v`(r): while an `MMA` that read it as A is in flight, each element is its value or
poison (07 R102). DESIGN CHOICE (log 12). -/
def Group.vseen (g : Group) (r l : Nat) : Word :=
  match g.areads.find? fun x => x.reg == r && x.lanes.contains l with
  | none => g.vread r l
  | some x => mixWord x.width [g.reads, r, l] (g.vread r l) poison

/-- `rd(f, l)` of R138. -/
def Group.rd (g : Group) (o : Opd) (l : Nat) : Word :=
  match o with
  | .v r => g.vseen r.val l
  | .s n => g.sread n.val
  | .zero => 0

/-- The results of the active lanes reach the destination: each lane of a `v` register, the lowest active lane's result
for an `s` register (R113), nothing for the zero register (R112). -/
def Group.wr (g : Group) (o : Opd) (act : List Nat) (f : Nat → Word) : Group :=
  match o with
  | .v r => act.foldl (fun g l => g.vwrite r.val l (f l)) g
  | .s n =>
    match act with
    | [] => g
    | l :: _ => g.swrite n.val (f l)
  | .zero => g

/-- The last-use mark of one source in the active lanes (R114); it has no effect on an `s` or the zero register. -/
def Group.mark (g : Group) (act : List Nat) (a : Src) : Group :=
  match a.r with
  | .v r => if a.last then { g with dead := act.foldl (fun m l => kset false m (vKey r.val l) true) g.dead } else g
  | _ => g

/-- The value of an operand of a group-level instruction: the lowest active thread's (R179). DEDUCED (log 10). -/
def Group.rdGroup (g : Group) (o : Opd) (act : List Nat) : Word := g.rd o (act.headD 0)

/-- The register lies below the group's allocation (R30). -/
def Group.has (g : Group) (o : Opd) : Bool :=
  match o with
  | .v r => decide (r.val < 16 * g.gran)
  | _ => true

/-- The run of `n` registers from `o` lies below the allocation; it may also not pass `v319`. -/
def Group.hasRun (g : Group) (o : Opd) (n : Nat) : Bool :=
  match o with
  | .v r => decide (r.val + n ≤ 16 * g.gran ∧ r.val + n ≤ 320)
  | _ => true

/-- Bits of `FLAGS` are only ORed in (R54, R58). -/
def Group.orFlags (g : Group) (f : BitVec 32) : Group := { g with flags := g.flags ||| f }

/-! ## Lookahead windows (R120) -/

/-- An outstanding write reaches its register. -/
def Group.land (g : Group) (p : Pending) : Group :=
  match p.dst with
  | .v r => g.vwrite r.val p.lane ((g.vread r.val p.lane &&& ~~~p.mask) ||| (p.val &&& p.mask))
  | .s n => g.swrite n.val ((g.sread n.val &&& ~~~p.mask) ||| (p.val &&& p.mask))
  | .zero => g

/-- The outstanding writes that `q` selects complete, in order. DESIGN CHOICE (log 7). -/
def Group.complete (g : Group) (q : Pending → Bool) : Group :=
  (g.pending.filter q).foldl Group.land { g with pending := g.pending.filter fun p => !q p }

/-- Before an instruction of the current subset: a write whose window has passed, or of a thread that does not execute
this instruction, completes; the other windows of the subset have one instruction less to go. A wait of the instruction's access
is over, and `reads` numbers the instruction. DESIGN CHOICE (log 7, 12). -/
def Group.age (g : Group) : Group :=
  let h := g.complete fun p => !g.inSubset p.lane || p.left == 0
  { h with pending := h.pending.map (fun p => { p with left := p.left - 1 }), waits := none, reads := g.reads + 1 }

/-- Every window of the group closes. DESIGN CHOICE (log 7). -/
def Group.closeWindows (g : Group) : Group := g.complete fun _ => true

/-- A long-latency result for one lane: written at once when the lookahead is 0, otherwise outstanding.
DESIGN CHOICE (log 7). -/
def Group.later (g : Group) (la : Nat) (dst : Opd) (lane : Nat) (val mask : Word) : Group :=
  let p : Pending := { dst := dst, lane := lane, val := val, mask := mask, left := la }
  if la = 0 then g.land p else { g with pending := g.pending ++ [p] }

/-! ## State accessors -/

def State.grp (s : State) (k : Nat) : Group := kget Group.absent s.groups k

def State.setGrp (s : State) (k : Nat) (g : Group) : State := { s with groups := kset Group.absent s.groups k g }

def State.me (s : State) : Group := s.grp s.focus

def State.setMe (s : State) (g : Group) : State := s.setGrp s.focus g

def State.team (s : State) (k : Nat) : Team := kget Team.absent s.teams k

def State.setTeam (s : State) (k : Nat) (t : Team) : State := { s with teams := kset Team.absent s.teams k t }

def State.grid (s : State) (k : Nat) : Grid := kget Grid.absent s.grids k

def State.setGrid (s : State) (k : Nat) (x : Grid) : State := { s with grids := kset Grid.absent s.grids k x }

/-- DEDUCED (log 52). -/
def State.core (s : State) (k : Nat) : Core := kget Core.fresh s.cores k

def State.setCore (s : State) (k : Nat) (x : Core) : State := { s with cores := kset Core.fresh s.cores k x }

def State.job (s : State) (k : Nat) : Job := kget Job.absent s.jobs k

def State.setJob (s : State) (k : Nat) (x : Job) : State := { s with jobs := kset Job.absent s.jobs k x }

def State.node (s : State) (k : Nat) : Node := kget Node.blank s.nodes k

def State.setNode (s : State) (k : Nat) (x : Node) : State := { s with nodes := kset Node.blank s.nodes k x }

def State.graph (s : State) (k : Nat) : Graph := kget Graph.absent s.graphs k

def State.setGraph (s : State) (k : Nat) (x : Graph) : State := { s with graphs := kset Graph.absent s.graphs k x }

def State.cluster (s : State) (k : Nat) : Cluster := kget Cluster.fresh s.clusters k

def State.setCluster (s : State) (k : Nat) (x : Cluster) : State := { s with clusters := kset Cluster.fresh s.clusters k x }

def State.link (s : State) (k : Nat) : Link := kget Link.fresh s.links k

def State.setLink (s : State) (k : Nat) (x : Link) : State := { s with links := kset Link.fresh s.links k x }

/-- The key of group `i` of a team. -/
def groupKey (team i : Nat) : Nat := 32 * team + i

def State.myTeam (s : State) : Team := s.team s.me.team

def State.myGrid (s : State) : Grid := s.grid s.myTeam.grid

/-- The partition of a grid identifier (R272). -/
def partOf (grid : Nat) : Nat := grid / 2 ^ 58

def State.myPart (s : State) : Nat := partOf s.myTeam.grid

/-- Device time of a partition (R265). -/
def State.timeOf (s : State) (part : Nat) : Nat := (s.time.master + (s.part part).toff) % 2 ^ 64

/-- A fresh free choice (a value the manual leaves open). DESIGN CHOICE (log 61). -/
def State.choose (s : State) : State × Nat := ({ s with choices := s.choices + 1 }, Config.choice s.choices)

/-- The same free choice without its counter, for a choice that one step makes once. DESIGN CHOICE (log 61). -/
def State.pick (s : State) (n : Nat) : Nat := if n = 0 then 0 else Config.choice s.choices % n

/-! ## Records (21 R301 to R304, 25 R340, R345) -/

/-- A bit of `IRQST` becomes 1; the card sends the vector when the bit was 0 and is enabled (R340). -/
def State.irq (s : State) (n : Nat) : State :=
  let c := s.card
  { s with card := { c with
      irqst := c.irqst ||| (1#4 <<< n)
      msix := if !c.irqst.getLsbD n && c.irqen.getLsbD n then c.msix ++ [n] else c.msix } }

/-- Entries of ring `i` of a partition: fault, host, normal and privileged submission (R344). -/
def Partition.entries (p : Partition) (i : Nat) : Nat := 2 ^ (p.logs.getD i 0)

def Partition.ringAt (p : Partition) (host : Bool) : Nat := if host then p.hring else p.fring

def Partition.prod (p : Partition) (host : Bool) : BitVec 32 := if host then p.hprod else p.fprod

def Partition.waitList (p : Partition) (host : Bool) : List Record := if host then p.hwait else p.fwait

def Partition.setWait (p : Partition) (host : Bool) (w : List Record) : Partition :=
  if host then { p with hwait := w } else { p with fwait := w }

def Partition.setProd (p : Partition) (host : Bool) (x : BitVec 32) : Partition :=
  if host then { p with hprod := x } else { p with fprod := x }

/-- The consumer index that software keeps in the ring's header, if it can be read (R345). -/
def State.ringCons (s : State) (p : Partition) (host : Bool) : Option (BitVec 32) :=
  (s.physRead (p.ringAt host + 4) 4).2.map fun bs => BitVec.ofNat 32 (leNat bs)

/-- The ring holds as many entries as it has places (R345), or nothing says that it does not. DEDUCED (log 65). -/
def State.ringFull (s : State) (part : Nat) (host : Bool) : Bool :=
  let p := s.part part
  match s.ringCons p host with
  | some c => (p.prod host - c).toNat == p.entries (if host then 1 else 0)
  | none => true

/-- A command goes up link `n`: into the receiver's buffer while a permit is left, otherwise it waits (19 R287). -/
def State.sendUp (s : State) (n kind grid arg0 arg1 : Nat) : State :=
  let l := s.link n
  let c : LinkCmd := ⟨BitVec.ofNat 8 kind, l.upSeq, BitVec.ofNat 64 grid, BitVec.ofNat 64 arg0, BitVec.ofNat 64 arg1⟩
  let l' := { l with upSeq := l.upSeq + 1 }
  s.setLink n (if l.up.length < 8 then { l' with up := l.up ++ [c] } else { l' with upWait := l.upWait ++ [c] })

/-- A command goes down link `n`. -/
def State.sendDown (s : State) (n kind grid arg0 arg1 : Nat) : State :=
  let l := s.link n
  let c : LinkCmd := ⟨BitVec.ofNat 8 kind, l.downSeq, BitVec.ofNat 64 grid, BitVec.ofNat 64 arg0, BitVec.ofNat 64 arg1⟩
  let l' := { l with downSeq := l.downSeq + 1 }
  s.setLink n (if l.down.length < 8 then { l' with down := l.down ++ [c] } else { l' with downWait := l.downWait ++ [c] })

/-- Write one record at the producer index and advance the index, as one release at system scope (R304); `false` when a byte
cannot be written, and then nothing is. DEDUCED (log 37, 65). -/
def State.writeRecord (s : State) (part : Nat) (host : Bool) (r : Record) : State × Bool :=
  let p := s.part part
  let ix := p.prod host
  let at_ := p.ringAt host
  let m := p.entries (if host then 1 else 0)
  let ws := match r.timeAt with
    | some i => r.words.set i (BitVec.ofNat 64 (s.timeOf part))
    | none => r.words
  let s1 := s.physWrite (at_ + 64 + 64 * (ix.toNat % m)) (ws.flatMap wordBytes)
  let s2 := s1.1.physWrite at_ (leBytes 4 (ix + 1).toNat)
  let s3 := s2.1.setPart part ((s2.1.part part).setProd host (ix + 1))
  let s4 :=
    match r.job with
    | some j => s3.setJob j { s3.job j with record := some ix.toNat }
    | none => s3
  let s5 :=
    match r.report with
    | some (grid, core) => s4.sendUp (core / 8) 5 grid ix.toNat core
    | none => s4
  if s1.2 && s2.2 then (s5.irq (if host then 2 else 1), true) else (s, false)

/-- A record for a ring: written at once when an entry is free and none waits, otherwise it waits (R304); so does one that cannot
be written. DEDUCED (log 65). -/
def State.post (s : State) (part : Nat) (host : Bool) (r : Record) : State :=
  let p := s.part part
  let w := s.writeRecord part host r
  if p.waitList host = [] && !s.ringFull part host && w.2 then w.1
  else s.setPart part (p.setWait host (p.waitList host ++ [r]))

/-- Word 0x18 of R214: team, core, group and partition. -/
def identWord (team core group part : Nat) : Word :=
  BitVec.ofNat 64 (team % 2 ^ 24 * 2 ^ 40 + core % 256 * 2 ^ 32 + group % 32 * 2 ^ 8 + part % 64)

def State.identOf (s : State) (g : Group) : Word :=
  let t := s.team g.team
  identWord t.number g.core g.index (partOf t.grid)

/-! ## Traps (21 R299 to R302) -/

/-- Trap causes (R300). -/
inductive Cause where
  | illegalInstruction | illegalOperand | illegalPair | role | divergence | arithmetic
  deriving DecidableEq, Repr

def Cause.code : Cause → Nat
  | .illegalInstruction => 1 | .illegalOperand => 2 | .illegalPair => 3 | .role => 4 | .divergence => 5
  | .arithmetic => 6

/-- The cause word of R300. Row 8 of R136 does not fit the 3-bit field and leaves 0 there. DEDUCED (log 17). -/
def causeWord (c : Cause) (order half flags : Nat) : Word :=
  BitVec.ofNat 64 (flags % 128 * 2 ^ 32 + order % 8 * 2 ^ 17 + half % 2 * 2 ^ 16 + c.code * 2 ^ 8 + 5)

/-- Delivery of a trap to group `k` at instruction address `pc` (R299): to the trap entry with `s62` and `s63` written,
or parked with the record of R301 when the packet has none. -/
def State.trapGroup (s : State) (k : Nat) (pc word cause : Word) : State :=
  let g := (s.grp k).closeWindows
  let grid := s.grid (s.team g.team).grid
  if grid.pkt.trap ≠ 0 then
    let h := (g.jump g.subset fun _ => grid.pkt.trap).swrite 62 cause |>.swrite 63 pc
    s.setGrp k { h with cur := grid.pkt.trap }
  else
    let id := (s.team g.team).grid
    let p := partOf id
    let r : Record := { words := [cause, pc, word, BitVec.ofNat 64 id, s.identOf g, 0, 0, 0], timeAt := some 5,
                        job := none, report := some (id, g.core) }
    (s.setGrp k { g with status := .parked .trap }).post p false r

/-- A trap of the issuing group's present instruction (R137). -/
def State.trap (s : State) (c : Cause) (order : Nat := 0) (half : Nat := 0) (flags : Nat := 0) : State :=
  s.trapGroup s.focus s.me.cur s.word (causeWord c order half flags)

/-! ## Faults (21 R303) -/

/-- What a memory fault's record says of the access. -/
structure MemFault where
  lanes : List Nat
  access : Nat
  lane : Nat
  space : Nat
  reason : Nat
  addr : Nat
  deriving DecidableEq, Repr

/-- Word 0 of a memory-fault record. -/
def MemFault.head (f : MemFault) : Word :=
  BitVec.ofNat 64 ((laneMask f.lanes).toNat * 2 ^ 32 + f.access % 8 * 2 ^ 24 + f.lane % 32 * 2 ^ 19
    + f.space % 8 * 2 ^ 16 + f.reason % 256 * 2 ^ 8 + 1)

/-- A memory-fault record (R303); the device time is filled in when it is written. -/
def memRecord (f : MemFault) (pc : Word) (grid : Nat) (ident : Word) (chunk : Nat) : Record :=
  { words := [f.head, BitVec.ofNat 64 f.addr, pc, BitVec.ofNat 64 grid, ident, 0, BitVec.ofNat 64 chunk, 0],
    timeAt := some 5, job := none }

/-- Group `k` parks on a fault, and one record goes to its partition's fault ring. Earlier loads have completed (R302). -/
def State.parkFault (s : State) (k : Nat) (gang : List Nat) (r : Record) : State :=
  let g := (s.grp k).closeWindows
  (s.setGrp k { g with status := .parked (.fault gang) }).post (partOf (s.team g.team).grid) false
    { r with report := some ((s.team g.team).grid, g.core) }

/-- A memory fault of the issuing group at `pc`. -/
def State.memFaultAt (s : State) (f : MemFault) (pc : Word) : State :=
  let g := s.me
  let id := (s.team g.team).grid
  s.parkFault s.focus [] (memRecord f pc id (s.identOf g) 0)

def State.memFault (s : State) (f : MemFault) : State := s.memFaultAt f s.me.cur

/-! ## The end of a group, and the returns (13 R186, 21 R305, 19 R291) -/

/-- The cores of a team: one, or the two of its pair (R16). -/
def Team.cores (t : Team) : List Nat := if t.paired then [t.core, t.core + 1] else [t.core]

/-- A group's grow requests leave the order of its team's cores. -/
def State.dropGrow (s : State) (cores : List Nat) (k : Nat) : State :=
  cores.foldl (fun s c => s.setCore c { s.core c with grow := (s.core c).grow.filter fun r => r.group != k }) s

/-- A group ends: its slot and granules return; `EVPEND`, the event mask, dead marks and `FLAGS` are discarded; a grow
request or an arrival at the rendezvous latch is withdrawn (R186, R220). -/
def State.endGroup (s : State) (k : Nat) : State :=
  let g := s.grp k
  if g.status = .ended then s
  else
    let c := s.core g.core
    let s1 := if (s.team g.team).phase = .resident then
        (s.setCore g.core { c with slots := kset Bind.free c.slots g.slot Bind.free }).dropGrow (s.team g.team).cores k
      else s
    s1.setGrp k { g with
      threads := g.threads.map fun t => { t with exited := true, held := false }
      granules := [], dead := [], flags := 0, evpend := 0, evmask := 0, pending := [], arrival := none, replay := none
      divert := false, waits := none, status := .ended }

/-- Diversion at a deadline event (R291): every non-exited thread goes to the wrap-up entry with `MEET` all ones, or the
group ends when there is none. -/
def State.divertGroup (s : State) (k : Nat) : State :=
  let g := (s.grp k).closeWindows
  let w := (s.grid (s.team g.team).grid).pkt.wrap
  if w = 0 then s.endGroup k
  else
    let h := g.mapThr fun _ t => if t.exited then t else { t with pc := w, meet := BitVec.allOnes 64, held := false }
    s.setGrp k { h with cur := w, status := .running, divert := false, waits := none, arrival := none,
                        replay := none }

/-- A group continues after a wait or a park: with a pending diversion it diverts instead, an evicted one when its team is
restored (R292). -/
def State.wakeGroup (s : State) (k : Nat) (g : Group) : State :=
  let s1 := s.setGrp k { g with status := .running }
  if g.divert && (s.team g.team).phase == .resident then s1.divertGroup k else s1

/-- A completed blocking instruction: the threads that executed it continue behind it, and issue rotates (R22). -/
def Group.afterBlock (g : Group) : Group :=
  let ls := g.subset
  (g.advance ls).finish ls true

/-- Skip (R305): the current subset continues at `pc` + 8. Its threads arrive there as after an instruction, so that an equal
`MEET` holds them. DEDUCED (log 66). -/
def Group.afterSkip (g : Group) : Group :=
  let ls := g.subset
  (g.advance ls).finish ls false

/-! ## Issue (09 R136, R137) -/

/-- The group can issue: it runs, it has a current subset, no `MMA` of it waits at the rendezvous latch, and its core is
not frozen. DESIGN CHOICE (log 15). -/
def State.canIssue (s : State) : Bool :=
  let g := s.me
  g.status == .running && g.arrival.isNone && !g.subset.isEmpty && !(s.core g.core).frozen
    && (s.team g.team).phase == .resident

/-- Rows 6 (allocation) and 8 of R136 around an instruction's own effect `k`, which sees every earlier window aged. -/
def State.issue (s : State) (role : Role → Bool) (ops : List Opd) (k : State → State) : State :=
  if s.canIssue then
    let s1 := s.setMe s.me.age
    if !ops.all s1.me.has then s1.trap .illegalOperand 6
    else if !role s1.me.role then s1.trap .role 8
    else k s1
  else s

/-- The same for an instruction with fixed runs of registers beside its operands (R30): a run past the allocation is row 6's
trap, whether or not a lane is active. -/
def State.issueRun (s : State) (role : Role → Bool) (ops : List Opd) (runs : List (Opd × Nat)) (k : State → State) : State :=
  if s.canIssue then
    let s1 := s.setMe s.me.age
    if !ops.all s1.me.has || !runs.all (fun r => s1.me.hasRun r.1 r.2) then s1.trap .illegalOperand 6
    else if !role s1.me.role then s1.trap .role 8
    else k s1
  else s

/-- Every role (R24). -/
def anyRole : Role → Bool := fun _ => true

/-- The instruction commits, and the current subset goes on to the next instruction. -/
def Group.next (g : Group) : Group :=
  let ls := g.subset
  (g.advance ls).finish ls false

def State.commit (s : State) : State := s.setMe s.me.next

/-- An instruction whose whole effect is on its own group's registers: `body` takes the active lanes. -/
def State.simple (s : State) (gd : Guard) (ops : List Opd) (body : List Nat → Group → Group) : State :=
  s.issue anyRole ops fun s1 => s1.setMe (body (s1.me.active gd) s1.me).next

/-- The outcome of every meaning of this model. -/
abbrev Out := Host.Outcome State Fault Refusal

end Sys2Proof.Machine
end

