-- ==== Sys2Proof/Machine/Events.lean ====
section
/-!
DEFINITION. Events and barriers (13 R202 to R207), and what they do to the saved state of an evicted team (21 R310).
-/
namespace Sys2Proof.Machine

/-! ## Groups of a team, a grid and a core -/

/-- The keys of a team's groups. -/
def State.teamGroups (s : State) (tk : Nat) : List Nat := (List.range (s.team tk).size).map (groupKey tk)

/-- The cluster of a package core number (R12). -/
def clusterOf (core : Nat) : Nat := core / 8

/-- The teams that live, resident or evicted, and satisfy `p`. -/
def State.teamsThat (s : State) (p : Team → Bool) : List Nat := kfind s.teams fun _ t => t.phase != .absent && p t

/-- The groups of a grid in one cluster, the evicted ones included (R205). -/
def State.gridGroupsIn (s : State) (grid cluster : Nat) : List Nat :=
  (s.teamsThat fun t => t.grid == grid && clusterOf t.core == cluster).flatMap s.teamGroups

/-- The groups of a grid on a core, the evicted ones included (R205). -/
def State.gridGroupsOn (s : State) (grid core : Nat) : List Nat :=
  ((s.teamsThat fun t => t.grid == grid).flatMap s.teamGroups).filter fun k =>
    (s.grp k).core == core && (s.grp k).status != .ended

/-! ## The wait condition of an evicted team's groups (R309, R310) -/

/-- The event-mask bit of an `EVPEND` bit is clear (R204). -/
def Group.unmasked (g : Group) (bit : Nat) : Bool := !g.evmask.getLsbD bit

/-- The lowest listed entry whose event is pending and unmasked (R207). -/
def Group.pendingEntry (g : Group) (entries : List WaitEntry) : Option Nat :=
  (List.range entries.length).find? fun i =>
    match entries[i]? with
    | some e => g.evpend.getLsbD e.bit && g.unmasked e.bit
    | none => false

/-- The wait condition of a group of an evicted team holds (R310). -/
def Group.wakes (g : Group) : Bool :=
  match g.status with
  | .ended => false
  | .running => g.waits.isNone || g.divert
  | .blocked (.any _ _ es) => (g.pendingEntry es).isSome || g.divert
  | .blocked (.regGrow _) | .blocked (.accGrow _) => true
  | .blocked _ | .parked _ => g.divert

/-- `live` and `wake` of the image header (R309). -/
def State.liveMask (s : State) (tk : Nat) : Nat :=
  (laneMask ((List.range (s.team tk).size).filter fun i => (s.grp (groupKey tk i)).status != .ended)).toNat

def State.wakeMask (s : State) (tk : Nat) : Nat :=
  (laneMask ((List.range (s.team tk).size).filter fun i => (s.grp (groupKey tk i)).wakes)).toNat

/-- The image header's mask word follows the saved state while the team is out. -/
def State.refreshWake (s : State) (tk : Nat) : State :=
  let t := s.team tk
  if t.phase = .saved then
    (s.physWrite (t.image + 0x20) (leBytes 4 (s.wakeMask tk) ++ leBytes 4 (s.liveMask tk))).1
  else s

/-! ## Raising an event (R205, R207) -/

/-- A `WAITANY` resumes with entry `sel`: the index is written and the guard-true threads go to the handler. Issue rotates as
`Group.finish` says of a subset that was split. DEDUCED (log 64). -/
def Group.resumeAny (g : Group) (d : Opd) (act : List Nat) (entries : List WaitEntry) (sel : Nat) : Group :=
  let ls := g.subset
  let h := g.wr d act fun _ => BitVec.ofNat 64 sel
  let target := (entries[sel]?.map WaitEntry.handler).getD 0
  let j := (h.advance ls).jump act fun _ => target
  { j.finish ls true with status := .running }

/-- An event reaches group `k` (R205). A resident group blocked on it resumes and consumes it; otherwise it latches. -/
def State.raiseEvent (s : State) (k bit : Nat) : State :=
  let g := s.grp k
  let latched := { g with evpend := g.evpend ||| (1#128 <<< bit) }
  match g.status with
  | .ended => s
  | .blocked (.any d act es) =>
    if (s.team g.team).phase = .resident ∧ g.unmasked bit ∧ es.any (fun e => e.bit == bit) then
      s.setGrp k (g.resumeAny d act es (es.findIdx fun e => e.bit == bit))
    else (s.setGrp k latched).refreshWake g.team
  | _ => (s.setGrp k latched).refreshWake g.team

def State.raiseAll (s : State) (ks : List Nat) (bit : Nat) : State := ks.foldl (fun s k => s.raiseEvent k bit) s

/-- Bits of `EVPEND` (R204). -/
def barBit (i : Nat) : Nat := i
def cbarBit (i : Nat) : Nat := 16 + i
def mboxBit (i : Nat) : Nat := 24 + i
def copyBit (t : Nat) : Nat := 64 + t

/-! ## Barriers (R202, R203) -/

/-- A blocked group continues behind its instruction. -/
def State.unblock (s : State) (k : Nat) : State := (s.wakeGroup k (s.grp k).afterBlock).refreshWake (s.grp k).team

/-- One arrival; a group's arrival brings its count. -/
def Barrier.arrive (b : Barrier) (count : Option Nat) : Barrier :=
  { b with arrivals := b.arrivals + 1, count := count.getD b.count, armed := b.armed || count.isSome }

/-- The arrivals have reached the count of the phase's latest group arrival. -/
def Barrier.full (b : Barrier) : Bool := b.armed && b.count ≤ b.arrivals

/-- Completion: excess arrivals belong to the next phase. -/
def Barrier.flip (b : Barrier) : Barrier := { b with arrivals := b.arrivals - b.count, armed := false, phase := !b.phase }

/-- The groups of `ks` blocked on `w` continue. -/
def State.release (s : State) (ks : List Nat) (w : Wait) : State :=
  ks.foldl (fun s k => if (s.grp k).status = .blocked w then s.unblock k else s) s

def Team.bar (t : Team) (id : Nat) : Barrier := kget Barrier.start t.bars id

def Team.setBar (t : Team) (id : Nat) (b : Barrier) : Team := { t with bars := kset Barrier.start t.bars id b }

/-- An arrival at team barrier `id`. -/
def State.teamBarrier (s : State) (tk id : Nat) (count : Option Nat) : State :=
  let t := s.team tk
  let b := (t.bar id).arrive count
  if b.full then
    let ks := s.teamGroups tk
    ((s.setTeam tk (t.setBar id b.flip)).release ks (.bar id b.phase)).raiseAll ks (barBit id)
  else s.setTeam tk (t.setBar id b)

/-- A cluster barrier of a grid: by cluster and identifier. -/
def cbarKey (cluster id : Nat) : Nat := 8 * cluster + id

def Grid.cbar (x : Grid) (cluster id : Nat) : Barrier := kget Barrier.start x.cbars (cbarKey cluster id)

def Grid.setCbar (x : Grid) (cluster id : Nat) (b : Barrier) : Grid :=
  { x with cbars := kset Barrier.start x.cbars (cbarKey cluster id) b }

/-- An arrival at cluster barrier `id` of a grid in a cluster. -/
def State.clusterBarrier (s : State) (grid cluster id : Nat) (count : Option Nat) : State :=
  let x := s.grid grid
  let b := (x.cbar cluster id).arrive count
  if b.full then
    let ks := s.gridGroupsIn grid cluster
    ((s.setGrid grid (x.setCbar cluster id b.flip)).release ks (.cbar id b.phase)).raiseAll ks (cbarBit id)
  else s.setGrid grid (x.setCbar cluster id b)

end Sys2Proof.Machine
end

