-- ==== Sys2Proof/Machine/Life.lean ====
section
/-!
DEFINITION. What a core has free and how teams hold it (01 R14, R28, R30 to R32, 07 R88), eviction and restore (21 R307 to
R311), and the grants of grow requests.
-/
namespace Sys2Proof.Machine

/-! ## What a core has free (R14, R28) -/

def coreGranules : Nat := 192
def coreSlots : Nat := 32
def coreHalves : Nat := 2
def coreScratch : Nat := 2 ^ 19

/-- The core on which group `i` of a team is placed (R16). -/
def Team.coreOf (t : Team) (i : Nat) : Nat := if t.paired then t.core + i % 2 else t.core

/-- Where the team's allocation starts on one of its cores (`SPBASE`). -/
def Team.spbaseOn (t : Team) (core : Nat) : Nat := t.spbase.getD (core - t.core) 0

def State.residentOn (s : State) (core : Nat) : List Nat :=
  s.teamsThat fun t => t.phase == .resident && t.cores.contains core

/-- The groups that run on a core. -/
def State.groupsOn (s : State) (core : Nat) : List Nat :=
  ((s.residentOn core).flatMap s.teamGroups).filter fun k => (s.grp k).core == core && (s.grp k).status != .ended

def natSum (l : List Nat) : Nat := l.foldl (· + ·) 0

def State.freeGran (s : State) (core : Nat) : Nat := coreGranules - natSum ((s.groupsOn core).map fun k => (s.grp k).gran)

/-- The granule numbers that no group of a core holds, lowest first. -/
def State.freeGranules (s : State) (core : Nat) : List Nat :=
  let taken := (s.groupsOn core).flatMap fun k => (s.grp k).granules
  (List.range coreGranules).filter fun n => !taken.contains n

def State.freeHalves (s : State) (core : Nat) : Nat :=
  coreHalves - natSum ((s.residentOn core).map fun tk => (s.team tk).halves)

/-- The scratchpad ranges taken on a core: start and size. -/
def State.spTaken (s : State) (core : Nat) : List (Nat × Nat) :=
  (s.residentOn core).map fun tk => ((s.team tk).spbaseOn core, (s.team tk).spsize)

/-- [lo, lo + n) meets no taken range and lies in the scratchpad. -/
def spClear (taken : List (Nat × Nat)) (lo n : Nat) : Bool :=
  lo + n ≤ coreScratch && taken.all fun r => r.2 == 0 || n == 0 || lo + n ≤ r.1 || r.1 + r.2 ≤ lo

/-- The lowest place where a range of `n` bytes fits: it starts at 0 or behind a taken range. DESIGN CHOICE (log 38). -/
def spFit (taken : List (Nat × Nat)) (n : Nat) : Option Nat :=
  ((0 :: taken.map fun r => r.1 + r.2).filter fun lo => spClear taken lo n).min?

/-- The largest contiguous free range, in KiB (R28). -/
def spLargest (taken : List (Nat × Nat)) : Nat :=
  ((List.range 513).reverse.find? fun k => (spFit taken (1024 * k)).isSome).getD 0

def State.freeSlots (s : State) (core : Nat) : List Nat :=
  (List.range coreSlots).filter fun n => !(kget Bind.free (s.core core).slots n).valid

/-! ## Bind records (19 R289) -/

/-- max(`class`, F_p) of R295. DESIGN CHOICE (log 56). -/
def State.effClass (s : State) (x : Grid) : Nat := max x.cls (s.part x.part).floor

/-- The bind record of group `k`; `halves` is the number of halves held. DEDUCED (log 86). -/
def State.bindOf (s : State) (k : Nat) : Bind :=
  let g := s.grp k
  let t := s.team g.team
  let x := s.grid t.grid
  { valid := true, grid := t.grid, team := t.number, group := g.index, role := g.role, paired := t.paired,
    gbase := g.granules.headD 0, gran := g.gran, deadline := x.deadline, pvbase := g.pvbase,
    spbase := t.spbaseOn g.core, halves := t.halves, cls := s.effClass x, entry := x.pkt.entry, wrap := x.pkt.wrap,
    trap := x.pkt.trap, args := x.pkt.args, key := k }

/-- Write a group's bind record into its slot. -/
def State.bind (s : State) (k : Nat) : State :=
  let g := s.grp k
  let c := s.core g.core
  s.setCore g.core { c with slots := kset Bind.free c.slots g.slot (s.bindOf k) }

/-- Free a group's slot. -/
def State.unbind (s : State) (k : Nat) : State :=
  let g := s.grp k
  let c := s.core g.core
  s.setCore g.core { c with slots := kset Bind.free c.slots g.slot Bind.free }

/-! ## Eviction (R307 to R309) -/

/-- A pre-emption point (R180): a parked trap of R299 is none. -/
def Group.preemptible (g : Group) : Bool :=
  match g.status with
  | .ended | .blocked _ | .parked (.fault _) | .parked (.call _ _) => true
  | .parked .trap => false
  | .running => g.waits.isSome

/-- The control word's ring and slot, when the destination is a ring slot (17 R250). -/
def Job.ringSlot (j : Job) : Option (Nat × Nat) :=
  let w := j.ctl.toNat
  if nbits w 48 1 = 1 then some (nbits w 45 3, nbits w 41 4) else none

def Team.ringFull (t : Team) (r sl : Nat) : Bool := ((t.rings.map Ring.full).getD r []).getD sl false
def Team.ringClaim (t : Team) (r sl : Nat) : Bool := ((t.rings.map Ring.claim).getD r []).getD sl false
def Team.ringPip (t : Team) (r sl : Nat) : Bool := ((t.rings.map Ring.pips).getD r []).getD sl false

/-- A queued ring job that waits for its slot's full bit (R27). DEDUCED (log 54). -/
def State.jobWaitsRing (s : State) (j : Job) : Bool :=
  j.phase == .queued &&
    match j.ringSlot with
    | some (r, sl) => (s.team j.team).ringFull r sl
    | none => false

/-- The destination lies in the scratchpad of one of the team's cores. -/
def Job.intoCores (j : Job) (cores : List Nat) : Bool :=
  j.range.any fun r =>
    match r.space with
    | .sp c => cores.contains c
    | _ => false

/-- The jobs that keep a team from being evicted (R256). DEDUCED (log 54). -/
def State.evictJobs (s : State) (tk : Nat) : List Nat :=
  kfind s.jobs fun n j =>
    j.live && j.node.isNone && j.team == tk && j.intoCores (s.team tk).cores &&
      !(j.phase == .queued && s.jobs.any fun e => e.1 ≤ n && e.2.live && e.2.node.isNone && e.2.core == j.core
          && s.jobWaitsRing e.2)

def AccOp.isMma : AccOp → Bool
  | .mma _ => true
  | _ => false

/-- The team may be evicted now (R307, R237, R256); the room for its image is looked at when it is written.
DEDUCED (log 54). -/
def State.evictable (s : State) (tk : Nat) : Bool :=
  let t := s.team tk
  t.phase == .resident && !t.cores.any (fun c => (s.core c).frozen) && (s.teamGroups tk).all (fun k => (s.grp k).preemptible) && !t.ops.any AccOp.isMma
    && (s.evictJobs tk).isEmpty

/-- Image bytes of a code table (05 R63). -/
def CodeTable.bytes (c : CodeTable) : Nat := 26 + 2 * c.syms.length

/-- `raw` of R309 without the implementation-defined part; an ended group holds no register. DESIGN CHOICE (log 27). -/
def State.rawBytes (s : State) (tk : Nat) : Nat :=
  let t := s.team tk
  natSum (((s.teamGroups tk).filter fun k => (s.grp k).status != .ended).map fun k => 256 * 16 * (s.grp k).gran) + t.spsize * t.cores.length
    + 65536 * t.halves * t.cores.length
    + natSum (t.ct.map fun e => (e.2.map CodeTable.bytes).getD 0)

/-- What two teams of one shape have in common (R309): their groups with their granules, their halves, space and rings.
DESIGN CHOICE (log 27). -/
def State.teamShape (s : State) (tk : Nat) : List Nat :=
  let t := s.team tk
  [t.size, t.cores.length, t.halves, t.spsize] ++ (s.teamGroups tk).map (fun k => (s.grp k).gran)
    ++ t.rings.flatMap fun r => [r.size, r.pips.length]

/-- The images that lie in a partition's save area. DESIGN CHOICE (log 60). -/
def State.images (s : State) (part : Nat) : List (Nat × Nat) :=
  (s.teamsThat fun t => t.phase == .saved && partOf t.grid == part).map fun tk =>
    ((s.team tk).image, (s.team tk).imageSize)

/-- The lowest place in the save area for `n` bytes, at a 64-byte boundary. DESIGN CHOICE (log 60). -/
def State.imageFit (s : State) (part n : Nat) : Option Nat :=
  let p := s.part part
  let taken := s.images part
  let ok := fun lo => p.save ≤ lo && lo + n ≤ p.save + p.savesz &&
    taken.all fun r => lo + n ≤ r.1 || r.1 + r.2 ≤ lo
  ((p.save :: taken.map fun r => (r.1 + r.2 + 63) / 64 * 64).filter ok).min?

/-- The 64-byte image header (R309). DESIGN CHOICE (log 26). -/
def State.imageHeader (s : State) (tk raw size : Nat) : List Word :=
  let t := s.team tk
  [BitVec.ofNat 64 (raw % 2 ^ 32 * 2 ^ 32 + size % 2 ^ 32), BitVec.ofNat 64 t.grid,
   BitVec.ofNat 64 (t.number % 2 ^ 24 * 2 ^ 40 + t.core % 256 * 2 ^ 32), BitVec.ofNat 64 (s.grid t.grid).deadline,
   BitVec.ofNat 64 (s.liveMask tk * 2 ^ 32 + s.wakeMask tk), BitVec.ofNat 64 (Config.imageCrc tk % 2 ^ 32), 0, 0]

/-- The bytes of the team's allocations, as memory cells. DESIGN CHOICE (log 26). -/
def State.spCells (s : State) (tk : Nat) : List Host.Cell :=
  let t := s.team tk
  t.cores.flatMap fun c => kslice s.mem (spKey c (t.spbaseOn c)) (spKey c (t.spbaseOn c + t.spsize))

/-- A group leaves its slot and its granules. -/
def State.unseat (s : State) (k : Nat) : State :=
  let s1 := s.unbind k
  s1.setGrp k { s1.grp k with granules := [] }

/-- Eviction: the state is saved, the slots are freed and the grow requests leave the cores' order. An eviction whose
image does not fit changes nothing. The image's size is not predictable: a free value within its bound.
DESIGN CHOICE (log 26, 27). -/
def State.evict (s : State) (tk : Nat) : State :=
  if !s.evictable tk then s
  else
    let t := s.team tk
    let raw := s.rawBytes tk + Config.imageExtra (s.teamShape tk)
    let size := 64 + Config.imageBody s.tick tk % (raw + 1)
    match s.imageFit (partOf t.grid) size with
    | none => s
    | some lo =>
      let ks := (s.teamGroups tk).filter fun k => (s.grp k).status != .ended
      let s1 := ks.foldl State.unseat s
      let s2 := ks.foldl (fun s k => s.dropGrow t.cores k) s1
      let s3 := s2.setTeam tk { t with phase := .saved, image := lo, imageSize := size, spsave := s.spCells tk }
      (s3.physWrite lo ((s3.imageHeader tk raw size).flatMap wordBytes)).1

/-! ## Growth (R31, R32, 13 R213) -/

/-- The register granules rise by `k`, at the numbers `ns`; the new registers are dead in every lane. -/
def Group.growRegs (g : Group) (k : Nat) (ns : List Nat) : Group :=
  { g with
    gran := g.gran + k
    granules := g.granules ++ ns
    dead := kcut g.dead (512 * g.gran) (512 * (g.gran + k)) ++
      (List.range (512 * k)).map fun i => (512 * g.gran + i, true) }

/-- The top `k` granules leave with their contents. -/
def Group.shrinkRegs (g : Group) (k : Nat) : Group :=
  let lo := 512 * (g.gran - k)
  { g with
    gran := g.gran - k
    granules := g.granules.take (g.gran - k)
    dead := kcut g.dead lo (512 * g.gran)
    v := kcut g.v lo (512 * g.gran) }

/-- A grow request's free resources: registers of the group's core, or halves of all the team's cores together. -/
def State.growFits (s : State) (r : GrowReq) : Bool :=
  let g := s.grp r.group
  if r.acc then (s.team g.team).cores.all fun c => r.k ≤ s.freeHalves c else r.k ≤ s.freeGran g.core

/-- The grant itself. -/
def State.growGive (s : State) (k : Nat) (acc : Bool) (n : Nat) : State :=
  let g := s.grp k
  if acc then s.setTeam g.team { s.team g.team with halves := (s.team g.team).halves + n }
  else s.setGrp k (g.growRegs n ((s.freeGranules g.core).take n))

/-- The oldest waiting request of a kind on a core. -/
def State.growHead (s : State) (core : Nat) (acc : Bool) : Option GrowReq := (s.core core).grow.find? fun r => r.acc == acc

/-- The cores on which a request takes resources and stands in the order: the group's own, or all of its team's. -/
def State.growCores (s : State) (group : Nat) (acc : Bool) : List Nat :=
  let g := s.grp group
  if acc then (s.team g.team).cores else [g.core]

/-- No earlier request of its kind is left on any of its cores, and its resources are free. -/
def State.growMay (s : State) (r : GrowReq) : Bool :=
  (s.growCores r.group r.acc).all (fun c => s.growHead c r.acc == some r) && s.growFits r

/-- A waiting request is granted and its group continues. -/
def State.growServe (s : State) (r : GrowReq) : State :=
  ((s.dropGrow (s.growCores r.group r.acc) r.group).growGive r.group r.acc r.k).unblock r.group

/-- The first request in issue order is granted if its resources are free (R31). -/
def State.growGrant (s : State) (core : Nat) (acc : Bool) : State :=
  match s.growHead core acc with
  | some r => if s.growMay r then s.growServe r else s
  | none => s

/-- The waiting requests of a kind on a core are granted in order while they fit, at most `fuel` of them. -/
def State.growGrants (s : State) (core : Nat) (acc : Bool) : Nat → State
  | 0 => s
  | fuel + 1 =>
    match s.growHead core acc with
    | some r => if s.growMay r then (s.growServe r).growGrants core acc fuel else s
    | none => s

/-- The free granules that a placement or a restore may take: none while a register request waits on the core, to which they go (13 R213).
DESIGN CHOICE (log 84). -/
def State.openGran (s : State) (core : Nat) : Nat := if (s.growHead core false).isSome then 0 else s.freeGran core

/-- The group is blocked in a grow request. -/
def Group.grows (g : Group) : Bool :=
  match g.status with
  | .blocked (.regGrow _) | .blocked (.accGrow _) => true
  | _ => false

/-- Every group that runs on the core is blocked in a grow request, and at least one does (R32). DEDUCED (log 63). -/
def State.growStuck (s : State) (core : Nat) : Bool :=
  let ks := s.groupsOn core
  !ks.isEmpty && ks.all fun k => (s.grp k).grows

/-- A group of the team runs on the core, and every group of it that does is blocked in a grow request (R32). DEDUCED (log 63). -/
def State.growBlocked (s : State) (core tk : Nat) : Bool :=
  let ks := (s.teamGroups tk).filter fun k => (s.grp k).core == core && (s.grp k).status != .ended
  !ks.isEmpty && ks.all fun k => (s.grp k).grows

/-- The blocked team with the latest launch order, the team of the oldest request apart. DEDUCED (log 63). -/
def State.growVictim (s : State) (core : Nat) : Option Nat :=
  match (s.core core).grow with
  | [] => none
  | oldest :: _ =>
    let own := (s.grp oldest.group).team
    let ts := (s.residentOn core).filter fun tk => tk != own && s.growBlocked core tk
    ts.foldl (fun b tk =>
      match b with
      | none => some tk
      | some x => if (s.team x).launchNo < (s.team tk).launchNo then some tk else some x) none

/-- The evictions of R32, at most `fuel` of them: each frees resources for the oldest request. DEDUCED (log 63). -/
def State.growEvict (s : State) : Nat → Nat → State
  | 0, _ => s
  | fuel + 1, core =>
    if s.growStuck core then
      match s.growVictim core, (s.core core).grow with
      | some tk, oldest :: _ =>
        let s1 := s.evict tk
        if (s1.team tk).phase = .resident then s
        else if s1.growMay oldest then s1.growServe oldest
        else s1.growEvict fuel core
      | _, _ => s
    else s

/-- A core on which every group is blocked: the oldest requests that fit are granted (R31), and only then does R32 evict.
DEDUCED (log 63). -/
def State.growRelief (s : State) (core : Nat) : State :=
  if s.growStuck core then ((s.growGrant core false).growGrant core true).growEvict 32 core else s

/-- R32 on every core of a team. DEDUCED (log 63). -/
def State.growCheck (s : State) (cores : List Nat) : State := cores.foldl State.growRelief s

/-! ## Machine checks (R315) -/

/-- The record of a team that ends with machine-check status, for an error of logical core `core`. DEDUCED (log 52). -/
def State.machineRecord (s : State) (tk core unit : Nat) : Record :=
  let t := s.team tk
  let pcore := (s.cluster (clusterOf core)).phys.getD (core % 8) 0
  { words := [BitVec.ofNat 64 (unit % 256 * 256 + 6), BitVec.ofNat 64 t.grid,
              identWord t.number t.core 0 (partOf t.grid),
              BitVec.ofNat 64 (clusterOf core % 256 * 256 + pcore % 16), 0, 0, 0, 0],
    timeAt := some 4, job := none }

/-- A team ends with machine-check status: every group ends, the grid's status follows, one record is written. -/
def State.machineCheck (s : State) (tk core unit : Nat) : State :=
  let t := s.team tk
  let s1 := (s.teamGroups tk).foldl State.endGroup s
  let s2 := s1.setTeam tk { s1.team tk with mcheck := true }
  let s3 := s2.setGrid t.grid { s2.grid t.grid with mcheck := true }
  s3.post (partOf t.grid) false (s3.machineRecord tk core unit)

/-! ## Restore (R310, R311) -/

/-- Granules and halves that the team's blocked groups still ask for on a core. -/
def State.growAsked (s : State) (tk core : Nat) : Nat × Nat :=
  ((s.teamGroups tk).filter fun k => ((s.grp k).core == core || (s.team tk).paired) && !(s.grp k).divert).foldl (fun acc k =>
    match (s.grp k).status with
    | .blocked (.regGrow n) => if (s.grp k).core = core then (acc.1 + n, acc.2) else acc
    | .blocked (.accGrow n) => (acc.1, acc.2 + n)
    | _ => acc) (0, 0)

/-- One core has room for what the team held and its outstanding requests. -/
def State.restoreRoom (s : State) (tk core : Nat) : Bool :=
  let t := s.team tk
  let ks := (s.teamGroups tk).filter fun k => (s.grp k).core == core && (s.grp k).status != .ended
  let ask := s.growAsked tk core
  natSum (ks.map fun k => (s.grp k).gran) + ask.1 ≤ s.openGran core && t.halves + ask.2 ≤ s.freeHalves core
    && spClear (s.spTaken core) (t.spbaseOn core) t.spsize && ks.length ≤ (s.freeSlots core).length
    && !(s.core core).frozen && !(s.core core).withdrawn

/-- The team is ready to be restored: a live group's wait condition holds (R310). DEDUCED (log 39). -/
def State.restorable (s : State) (tk : Nat) : Bool :=
  (s.team tk).phase == .saved && s.wakeMask tk != 0 && (s.team tk).cores.all (s.restoreRoom tk)

/-- The image reads correctly and its CRC matches. DESIGN CHOICE (log 26). -/
def State.imageGood (s : State) (tk : Nat) : Bool :=
  let t := s.team tk
  !s.isBad t.image t.imageSize &&
    match (s.physRead (t.image + 0x28) 4).2 with
    | some bs => leNat bs == Config.imageCrc tk % 2 ^ 32
    | none => false

/-- The saved scratchpad bytes return to their places. DESIGN CHOICE (log 26). -/
def State.spReturn (s : State) (tk : Nat) : State :=
  let t := s.team tk
  t.cores.foldl (fun s c =>
    let lo := spKey c (t.spbaseOn c)
    let hi := spKey c (t.spbaseOn c + t.spsize)
    { s with mem := (kslice t.spsave lo hi).foldl (fun m e => kset 0 m e.1 e.2) (kcut s.mem lo hi) }) s

/-- A group takes its old slot if it is free, otherwise the lowest free one, and the lowest free granules. DESIGN CHOICE (log 60). -/
def State.reslot (s : State) (k : Nat) : State :=
  let g := s.grp k
  let free := s.freeSlots g.core
  let sl := if free.contains g.slot then g.slot else free.headD 0
  (s.setGrp k { g with slot := sl, granules := (s.freeGranules g.core).take g.gran }).bind k

/-- The groups of a restored team: those whose own slot is free come first, so that none of them loses it (R311). -/
def State.reslotAll (s : State) (ks : List Nat) : State :=
  let home := fun k => (s.freeSlots (s.grp k).core).contains (s.grp k).slot
  (ks.filter home ++ ks.filter fun k => !home k).foldl State.reslot s

/-- What a restored group does first (R292, R310): a raised deadline diverts it, a grow request is granted, a pending
listed event is consumed. -/
def State.resumeSaved (s : State) (k : Nat) : State :=
  let g := s.grp k
  let parked : Bool := match g.status with
    | .parked _ => true
    | _ => false
  if g.divert && !parked then s.divertGroup k
  else
    match g.status with
    | .blocked (.regGrow n) => (s.growGive k false n).unblock k
    | .blocked (.accGrow n) => (s.growGive k true n).unblock k
    | .blocked (.any d act es) =>
      match g.pendingEntry es with
      | some i =>
        let bit := (es[i]?.map WaitEntry.bit).getD 0
        s.setGrp k ({ g with evpend := g.evpend &&& ~~~(1#128 <<< bit) }.resumeAny d act es i)
      | none => s
    | _ => s

/-- Restore of an evicted team to the cores, addresses and, where free, slots it held (R311). A bad image ends the team.
DESIGN CHOICE (log 26). -/
def State.restore (s : State) (tk : Nat) : State :=
  if !s.restorable tk then s
  else if !s.imageGood tk then s.machineCheck tk (s.team tk).core 6
  else
    let t := s.team tk
    let s1 := s.spReturn tk
    let s2 := s1.setTeam tk { t with phase := .resident, image := 0, imageSize := 0, spsave := [] }
    let ks := (s.teamGroups tk).filter fun k => (s.grp k).status != .ended
    let s3 := s2.reslotAll ks
    ks.foldl State.resumeSaved s3

end Sys2Proof.Machine
end

