-- ==== Sys2Proof/Machine/Flags.lean ====
section
/-!
DEFINITION. The bits of `FLAGS` and `FLAGEN` (03 R54, R55).
-/
namespace Sys2Proof.Machine

/-- The flag bits of R54. -/
inductive Flag where
  | invalid | divzero | overflow | underflow | inexact | saturated | empty
  deriving DecidableEq, Repr

/-- The place of a flag in `FLAGS`. -/
def Flag.bit : Flag → Nat
  | .invalid => 0 | .divzero => 1 | .overflow => 2 | .underflow => 3 | .inexact => 4 | .saturated => 5 | .empty => 6

/-- A flag as a word to OR into `FLAGS`. -/
def Flag.mask (f : Flag) : BitVec 32 := 1#32 <<< f.bit

def FLAG.invalid : BitVec 32 := 1
def FLAG.divzero : BitVec 32 := 2
def FLAG.overflow : BitVec 32 := 4
def FLAG.underflow : BitVec 32 := 8
def FLAG.inexact : BitVec 32 := 16
def FLAG.saturated : BitVec 32 := 32
def FLAG.empty : BitVec 32 := 64

/-- Bits [6:0] of a written `FLAGS` or `FLAGEN`: bits [31:7] are reserved and read 0 (R54, R55). -/
def flagBits (x : Word) : BitVec 32 := (x.setWidth 32) &&& 0x7F

end Sys2Proof.Machine
end

