-- ==== Sys2Proof/Machine/Float.lean ====
section
/-!
DEFINITION. The number formats of chapter 03: exact values, decoding of patterns (R34 to R38), rounding (R42 to R46, R166),
and the exact arithmetic that every float instruction rounds once.
-/
namespace Sys2Proof.Machine

/-- An exact value: NaN or NaR, an infinity, or ± m × 2^e. Zero is m = 0 with its sign. -/
inductive Val where
  | nan
  | inf (neg : Bool)
  | fin (neg : Bool) (m : Nat) (e : Int)
  deriving DecidableEq, Repr

end Sys2Proof.Machine

namespace Sys2Proof

/-! ## Layouts (R34) -/

/-- A format with sign, exponent and fraction: fraction width M, exponent width E, bias. -/
structure Layout where
  mb : Nat
  eb : Nat
  bias : Nat
  deriving DecidableEq, Repr

def Fmt.layout : Fmt → Layout
  | .e2m1 => ⟨1, 2, 1⟩ | .e2m3 => ⟨3, 2, 1⟩ | .e3m2 => ⟨2, 3, 3⟩ | .e4m3 => ⟨3, 4, 7⟩ | .e5m2 => ⟨2, 5, 15⟩
  | .f16 => ⟨10, 5, 15⟩ | .bf16 => ⟨7, 8, 127⟩ | _ => ⟨23, 8, 127⟩

/-- Width in bits of an element (R34, R39). -/
def Fmt.width : Fmt → Nat
  | .e2m1 | .int4 => 4
  | .e2m3 | .e3m2 | .tf6 => 6
  | .e4m3 | .e5m2 | .tf8 | .int8 | .e8m0 => 8
  | .f16 | .bf16 => 16
  | .f32 | .int32 => 32

/-- Width of the register field that holds one element (R39): a 6-bit element has a byte. -/
def Fmt.cell (f : Fmt) : Nat := if f.width = 6 then 8 else f.width

/-- Formats whose top exponent value holds infinities and NaNs in the IEEE manner. -/
def Fmt.ieee : Fmt → Bool
  | .e5m2 | .f16 | .bf16 | .f32 => true
  | _ => false

def Fmt.isInt : Fmt → Bool
  | .int4 | .int8 | .int32 => true
  | _ => false

/-- Largest finite magnitude of a sign-exponent-fraction format, as a pattern without its sign. -/
def Fmt.maxPat : Fmt → Nat
  | .e2m1 => 0x7 | .e2m3 | .e3m2 => 0x1F | .e4m3 => 0x7E | .e5m2 => 0x7B
  | .f16 => 0x7BFF | .bf16 => 0x7F7F | _ => 0x7F7FFFFF

/-- The infinity pattern of an IEEE-like format, without its sign. -/
def Fmt.infPat : Fmt → Nat
  | .e5m2 => 0x7C | .f16 => 0x7C00 | .bf16 => 0x7F80 | _ => 0x7F800000

/-- The canonical NaN of a destination (R46); formats without one use +0 (R43) or the integer 0 (R45). -/
def Fmt.canon : Fmt → Nat
  | .f32 => 0x7FC00000 | .f16 => 0x7E00 | .bf16 => 0x7FC0 | .e5m2 => 0x7E | .e4m3 => 0x7F
  | .tf6 => 0x20 | .tf8 => 0x80 | .e8m0 => 0xFF | _ => 0

end Sys2Proof

namespace Sys2Proof.Machine

/-! ## Decoding -/

/-- R35 without the special patterns. -/
def decodeLayout (y : Layout) (p : Nat) : Val :=
  let neg := p / 2 ^ (y.eb + y.mb) % 2 == 1
  let e := p / 2 ^ y.mb % 2 ^ y.eb
  let m := p % 2 ^ y.mb
  if e = 0 then .fin neg m (1 - (y.bias : Int) - y.mb)
  else .fin neg (2 ^ y.mb + m) ((e : Int) - y.bias - y.mb)

/-- Two's complement of `n` bits (R37). -/
def decodeInt (n p : Nat) : Val :=
  let x := p % 2 ^ n
  if x < 2 ^ (n - 1) then .fin false x 0 else .fin true (2 ^ n - x) 0

/-- Length of the run of bits equal to `b` from bit `i − 1` of `w` downward. -/
def runLength (w : Nat) (b : Bool) : Nat → Nat
  | 0 => 0
  | i + 1 => if w.testBit i == b then runLength w b i + 1 else 0

/-- R38. -/
def decodeTapered (n p : Nat) : Val :=
  let w := p % 2 ^ n
  if w = 0 then .fin false 0 0
  else if w = 2 ^ (n - 1) then .nan
  else
    let neg := w.testBit (n - 1)
    let w := if neg then 2 ^ n - w else w
    let b := w.testBit (n - 2)
    let m := runLength w b (n - 1)
    let k : Int := if b then m - 1 else -(m : Int)
    let tl := n - 1 - m - 1
    let t := w % 2 ^ tl
    let e := if tl = 0 then 0 else t / 2 ^ (tl - 1)
    let fl := tl - 1
    .fin neg (2 ^ fl + t % 2 ^ fl) (2 * k + e - fl)

/-- `value(f, x)` of R138 (R35 to R38). -/
def value (f : Fmt) (p : Nat) : Val :=
  match f with
  | .int4 => decodeInt 4 p
  | .int8 => decodeInt 8 p
  | .int32 => decodeInt 32 p
  | .tf6 => decodeTapered 6 p
  | .tf8 => decodeTapered 8 p
  | .e8m0 => if p % 256 = 255 then .nan else .fin false 1 ((p % 256 : Nat) - 127)
  | .e4m3 => if p % 128 = 0x7F then .nan else decodeLayout f.layout p
  | .e2m1 | .e2m3 | .e3m2 => decodeLayout f.layout p
  | .e5m2 | .f16 | .bf16 | .f32 =>
    let y := f.layout
    let mag := p % 2 ^ (y.eb + y.mb)
    if mag = f.infPat then .inf (p / 2 ^ (y.eb + y.mb) % 2 == 1)
    else if f.infPat < mag then .nan
    else decodeLayout y p

/-! ## Rounding -/

/-- The integer nearest to m × 2^e / 2^q under a mode for a value of sign `neg`, and whether it differs. -/
def roundAt (neg : Bool) (m : Nat) (e q : Int) (rm : RMode) : Nat × Bool :=
  if q ≤ e then (m * 2 ^ (e - q).toNat, false)
  else
    -- a longer shift leaves the same quotient 0 and the same comparison with one half
    let d := 2 ^ min (q - e).toNat (Nat.log2 m + 3)
    let quo := m / d
    let rem := m % d
    let up := match rm with
      | .rn => decide (d < 2 * rem) || (2 * rem == d && quo % 2 == 1)
      | .rz => false
      | .rd => neg && rem != 0
      | .ru => !neg && rem != 0
    (if up then quo + 1 else quo, rem != 0)

/-- The result of an overflow in the selected mode: `true` for an infinity (R43, IEEE 754). -/
def overflowsToInf (neg : Bool) : RMode → Bool
  | .rn => true
  | .rz => false
  | .rd => neg
  | .ru => !neg

/-- The sign bit of a pattern. -/
def signPat (y : Layout) (neg : Bool) : Nat := if neg then 2 ^ (y.eb + y.mb) else 0

/-- R43 for a finite non-zero value: the value is rounded with an unbounded exponent range first. -/
def roundFinite (f : Fmt) (neg : Bool) (m : Nat) (e : Int) (rm : RMode) (sat : Bool) : Nat × BitVec 32 :=
  let y := f.layout
  let top : Int := e + Nat.log2 m
  let qmin : Int := 1 - (y.bias : Int) - y.mb
  let q0 := top - y.mb
  let u := roundAt neg m e q0 rm
  let big := (q0 - qmin).toNat * 2 ^ y.mb + u.1
  if qmin ≤ q0 ∧ f.maxPat < big then
    if f.ieee then
      if sat then (signPat y neg + f.maxPat, FLAG.saturated ||| FLAG.inexact)
      else (signPat y neg + (if overflowsToInf neg rm then f.infPat else f.maxPat), FLAG.overflow ||| FLAG.inexact)
    else (signPat y neg + f.maxPat, FLAG.saturated ||| FLAG.inexact)
  else
    let q := max q0 qmin
    let r := roundAt neg m e q rm
    let tiny := decide (q0 < qmin - 1) || (decide (q0 = qmin - 1) && decide (u.1 < 2 ^ (y.mb + 1)))
    (signPat y neg + ((q - qmin).toNat * 2 ^ y.mb + r.1),
      (if r.2 then FLAG.inexact else 0) ||| (if r.2 && tiny then FLAG.underflow else 0))

/-- R44 for a finite non-zero value: rounding on the bit string. -/
def roundTapered (n : Nat) (neg : Bool) (m : Nat) (e : Int) : Nat × BitVec 32 :=
  let l2 := Nat.log2 m
  let top : Int := e + l2
  let k : Int := top / 2
  let eb := (top - 2 * k).toNat
  let regime : Nat × Nat := if 0 ≤ k then (2 ^ (k.toNat + 2) - 2, k.toNat + 2) else (1, (-k).toNat + 1)
  let u := (regime.1 * 2 + eb) * 2 ^ l2 + (m - 2 ^ l2)
  let len := regime.2 + 1 + l2
  let drop := len - (n - 1)
  let p := u * 2 ^ ((n - 1) - len) / 2 ^ drop
  let t := u % 2 ^ drop
  let p := if drop ≠ 0 ∧ (2 ^ drop < 2 * t ∨ (2 * t = 2 ^ drop ∧ p % 2 = 1)) then p + 1 else p
  let under := p == 0
  let p := if p = 0 then 1 else p
  let p := if 2 ^ (n - 1) ≤ p then 2 ^ (n - 1) - 1 else p
  let lim : Int := if n = 6 then 8 else 12
  let large := decide (lim < top) || (decide (top = lim) && m != 2 ^ l2)
  (if neg then (2 ^ n - p) % 2 ^ n else p,
    (if under then FLAG.underflow else 0) ||| (if t ≠ 0 then FLAG.inexact else 0)
      ||| (if large then FLAG.saturated else 0))

/-- R45 for a finite value. -/
def roundInt (n : Nat) (neg : Bool) (m : Nat) (e : Int) (rm : RMode) : Nat × BitVec 32 :=
  let r := roundAt neg m e 0 rm
  let fl : BitVec 32 := if r.2 then FLAG.inexact else 0
  if neg then
    if 2 ^ (n - 1) < r.1 then (2 ^ (n - 1), fl ||| FLAG.saturated) else ((2 ^ n - r.1) % 2 ^ n, fl)
  else if 2 ^ (n - 1) ≤ r.1 then (2 ^ (n - 1) - 1, fl ||| FLAG.saturated) else (r.1, fl)

/-- R166: rounding to E8M0. -/
def roundE8m0 (v : Val) (rm : RMode) : Nat × BitVec 32 :=
  match v with
  | .nan => (0xFF, 0)
  | .inf true => (0xFF, FLAG.invalid)
  | .inf false => (0xFE, FLAG.saturated)
  | .fin neg m e =>
    if m = 0 || neg then (0xFF, FLAG.invalid)
    else
      let l2 := Nat.log2 m
      let fl : Int := e + l2
      let exact := m == 2 ^ l2
      let k : Int := match rm with
        | .rn =>
          if 3 * 2 ^ l2 < 2 * m then fl + 1
          else if 2 * m = 3 * 2 ^ l2 then (if (fl + 127) % 2 = 0 then fl else fl + 1)
          else fl
        | .rz | .rd => fl
        | .ru => if exact then fl else fl + 1
      if k < -127 then (0, FLAG.saturated ||| FLAG.inexact)
      else if 127 < k then (0xFE, FLAG.saturated ||| FLAG.inexact)
      else ((k + 127).toNat, if exact && k == fl then 0 else FLAG.inexact)

/-- `round_to(f, x, mode, sat)` of R138 with its flags (R43 to R46, R166). -/
def roundTo (f : Fmt) (x : Val) (rm : RMode) (sat : Bool) : Nat × BitVec 32 :=
  match f with
  | .e8m0 => roundE8m0 x rm
  | .tf6 | .tf8 =>
    match x with
    | .nan => (f.canon, 0)
    | .inf _ => (f.canon, FLAG.invalid)
    | .fin neg m e => if m = 0 then (0, 0) else roundTapered f.width neg m e
  | .int4 | .int8 | .int32 =>
    match x with
    | .nan => (0, FLAG.invalid)
    | .inf neg => (if neg then 2 ^ (f.width - 1) else 2 ^ (f.width - 1) - 1, FLAG.saturated)
    | .fin neg m e => roundInt f.width neg m e rm
  | .e2m1 | .e2m3 | .e3m2 | .e4m3 =>
    match x with
    | .nan => if f = .e4m3 then (f.canon, 0) else (0, FLAG.invalid)
    | .inf neg => (signPat f.layout neg + f.maxPat, FLAG.saturated)
    | .fin neg m e => if m = 0 then (signPat f.layout neg, 0) else roundFinite f neg m e rm sat
  | .e5m2 | .f16 | .bf16 | .f32 =>
    match x with
    | .nan => (f.canon, 0)
    | .inf neg =>
      if sat then (signPat f.layout neg + f.maxPat, FLAG.saturated) else (signPat f.layout neg + f.infPat, 0)
    | .fin neg m e => if m = 0 then (signPat f.layout neg, 0) else roundFinite f neg m e rm sat

/-- `round_f32(x)` of R138. -/
def roundF32 (x : Val) : Nat × BitVec 32 := roundTo .f32 x .rn false

/-! ## Exact arithmetic -/

def Val.isNan : Val → Bool
  | .nan => true
  | _ => false

def Val.isInf : Val → Bool
  | .inf _ => true
  | _ => false

def Val.isZero : Val → Bool
  | .fin _ m _ => m == 0
  | _ => false

def Val.neg : Val → Val
  | .nan => .nan
  | .inf s => .inf (!s)
  | .fin s m e => .fin (!s) m e

def Val.abs : Val → Val
  | .nan => .nan
  | .inf _ => .inf false
  | .fin _ m e => .fin false m e

/-- ± m × 2^e as a signed integer at the exponent `q` ≤ e. -/
def signedAt (neg : Bool) (m : Nat) (e q : Int) : Int :=
  let x : Int := (m : Int) * 2 ^ (e - q).toNat
  if neg then -x else x

/-- The sum of two values that are neither NaN nor opposite infinities; `rm` gives the sign of an exact zero (R159). -/
def Val.add (a b : Val) (rm : RMode) : Val :=
  match a, b with
  | .nan, _ => .nan
  | _, .nan => .nan
  | .inf s, .inf t => if s = t then .inf s else .nan
  | .inf s, .fin .. => .inf s
  | .fin .., .inf s => .inf s
  | .fin s m e, .fin t n f =>
    let q := min e f
    let x := signedAt s m e q + signedAt t n f q
    if x = 0 then .fin (if s = t && m == 0 && n == 0 then s else rm == .rd) 0 0
    else .fin (x < 0) x.natAbs q

/-- The product of two values that are neither NaN nor 0 × ∞. -/
def Val.mul (a b : Val) : Val :=
  match a, b with
  | .nan, _ => .nan
  | _, .nan => .nan
  | .inf s, .inf t => .inf (s != t)
  | .inf s, .fin t n _ => if n = 0 then .nan else .inf (s != t)
  | .fin s m _, .inf t => if m = 0 then .nan else .inf (s != t)
  | .fin s m e, .fin t n f => .fin (s != t) (m * n) (e + f)

/-- ±0 × ±∞ (R158). -/
def Val.zeroInf (a b : Val) : Bool := (a.isZero && b.isInf) || (a.isInf && b.isZero)

/-- Infinities of opposite sign (R159). -/
def Val.opposed : Val → Val → Bool
  | .inf s, .inf t => s != t
  | _, _ => false

/-- a × 2^n. -/
def Val.scale (a : Val) (n : Int) : Val :=
  match a with
  | .fin s m e => .fin s m (e + n)
  | v => v

/-- Numbers in order, −0 equal to +0: a < b for values that are not NaN. -/
def Val.lt (a b : Val) : Bool :=
  match a, b with
  | .nan, _ => false
  | _, .nan => false
  | .inf s, .inf t => s && !t
  | .inf s, .fin .. => s
  | .fin .., .inf t => !t
  | .fin s m e, .fin t n f =>
    let q := min e f
    decide (signedAt s m e q < signedAt t n f q)

/-- IEEE equality of values that are not NaN. -/
def Val.eq (a b : Val) : Bool :=
  match a, b with
  | .nan, _ => false
  | _, .nan => false
  | .inf s, .inf t => s == t
  | .inf _, .fin .. => false
  | .fin .., .inf _ => false
  | .fin s m e, .fin t n f =>
    let q := min e f
    decide (signedAt s m e q = signedAt t n f q)

/-- The sign of a value. -/
def Val.isNeg : Val → Bool
  | .nan => false
  | .inf s => s
  | .fin s _ _ => s

/-- a + b rounded once with the rules of R158 and R159. -/
def addRound (f : Fmt) (a b : Val) (rm : RMode) (sat : Bool) : Nat × BitVec 32 :=
  if a.isNan || b.isNan then (f.canon, 0)
  else if a.opposed b then (f.canon, FLAG.invalid)
  else roundTo f (a.add b rm) rm sat

/-- a × b rounded once. -/
def mulRound (f : Fmt) (a b : Val) (rm : RMode) (sat : Bool) : Nat × BitVec 32 :=
  if a.zeroInf b then (f.canon, FLAG.invalid)
  else if a.isNan || b.isNan then (f.canon, 0)
  else roundTo f (a.mul b) rm sat

/-- a × b + c rounded once; ±0 × ±∞ is invalid whatever c is. -/
def fmaRound (f : Fmt) (a b c : Val) (rm : RMode) (sat : Bool) : Nat × BitVec 32 :=
  if a.zeroInf b then (f.canon, FLAG.invalid)
  else if a.isNan || b.isNan || c.isNan then (f.canon, 0)
  else if (a.mul b).opposed c then (f.canon, FLAG.invalid)
  else roundTo f ((a.mul b).add c rm) rm sat

/-- a × 2^n rounded once (`FSCALE`). -/
def scaleRound (f : Fmt) (a : Val) (n : Int) (rm : RMode) (sat : Bool) : Nat × BitVec 32 :=
  roundTo f (a.scale n) rm sat

/-- The smaller pattern by R160: −0 below +0, one NaN ignored, two NaNs canonical. -/
def minPat (f : Fmt) (pa pb : Nat) : Nat :=
  let a := value f pa
  let b := value f pb
  match a.isNan, b.isNan with
  | true, true => f.canon
  | true, false => pb
  | false, true => pa
  | false, false => if a.lt b || (a.eq b && a.isNeg) then pa else pb

/-- The larger pattern by R160. -/
def maxPatOf (f : Fmt) (pa pb : Nat) : Nat :=
  let a := value f pa
  let b := value f pb
  match a.isNan, b.isNan with
  | true, true => f.canon
  | true, false => pb
  | false, true => pa
  | false, false => if b.lt a || (a.eq b && !a.isNeg) then pa else pb

/-- `FMINM` (R160). -/
def minMag (f : Fmt) (pa pb : Nat) : Nat :=
  let a := value f pa
  let b := value f pb
  if a.isNan || b.isNan then minPat f pa pb
  else if a.abs.lt b.abs then pa
  else if b.abs.lt a.abs then pb
  else minPat f pa pb

/-- `FMAXM` (R160). -/
def maxMag (f : Fmt) (pa pb : Nat) : Nat :=
  let a := value f pa
  let b := value f pb
  if a.isNan || b.isNan then maxPatOf f pa pb
  else if b.abs.lt a.abs then pa
  else if a.abs.lt b.abs then pb
  else maxPatOf f pa pb

/-- `FCLAMP` (R160). -/
def clampPat (f : Fmt) (pa pb pc : Nat) : Nat :=
  if (value f pa).isNan then f.canon else minPat f (maxPatOf f pa pb) pc

/-- `FRND` (R161): the integral value selected by the mode, in the same format; no flag. -/
def integralPat (f : Fmt) (p : Nat) (rm : RMode) : Nat :=
  match value f p with
  | .nan => f.canon
  | .inf _ => p
  | .fin neg m e =>
    let r := roundAt neg m e 0 rm
    (roundTo f (.fin neg r.1 0) .rz false).1

end Sys2Proof.Machine
end

