-- ==== Sys2Proof/Machine/Operands.lean ====
section
/-!
DEFINITION. Operand forms of the register instructions: sub-elements of a lane (03 R39, 09 R138), immediates (09 R118),
the lane-by-lane frame of 11 R143, and the destinations of a compare (09 R117).
-/
namespace Sys2Proof.Machine

/-! ## Sub-elements -/

/-- `sx` of the `w` low bits of a number. -/
def signed (w x : Nat) : Int := if x % 2 ^ w < 2 ^ (w - 1) then (x % 2 ^ w : Nat) else (x % 2 ^ w : Nat) - (2 ^ w : Nat)

/-- `wrap(r, w)` of R138 as a pattern. -/
def unsigned (w : Nat) (r : Int) : Nat := (r % (2 ^ w : Nat)).toNat

/-- Every sub-element of a lane: f gives a pattern and its flags (R143). -/
def elems (w : Nat) (f : Nat → Nat × BitVec 32) : Word × BitVec 32 :=
  (List.range (64 / w)).foldl (fun acc i => (put acc.1 i w (f i).1, acc.2 ||| (f i).2)) (0, 0)

/-- The same for an operation without flags. -/
def elems0 (w : Nat) (f : Nat → Nat) : Word := (List.range (64 / w)).foldl (fun x i => put x i w (f i)) 0

end Sys2Proof.Machine

namespace Sys2Proof

/-- Width in bits (R116, R171). -/
def IWidth.bits : IWidth → Nat
  | .w64 => 64 | .w32 => 32 | .w16 => 16 | .w8 => 8

/-- The element format of the float layout (R116). -/
def FType.fmt : FType → Fmt
  | .f32x2 => .f32 | .f16x4 => .f16 | .bf16x4 => .bf16

/-- The float immediate of R118, as a pattern of the type. -/
def FType.imm (t : FType) (imm : BitVec 22) : Nat :=
  match t with
  | .f32x2 => imm.toNat * 1024
  | _ => imm.toNat % 65536

end Sys2Proof

namespace Sys2Proof.Machine

/-- imm22 sign-extended to a lane (R145). -/
def immWord (imm : BitVec 22) : Word := imm.signExtend 64

/-- An integer immediate stands for every sub-element: the low w bits of the sign-extended imm22 (R118, R145). -/
def immElems (w : IWidth) (imm : BitVec 22) : Word := elems0 w.bits fun _ => elem (immWord imm) 0 w.bits

/-- A float immediate stands for every sub-element (R145). -/
def immFloat (t : FType) (imm : BitVec 22) : Word := elems0 t.fmt.width fun _ => t.imm imm

/-- A shift immediate stands for every sub-element (R118). -/
def immShift (w : IWidth) (n : BitVec 6) : Word := elems0 w.bits fun _ => n.toNat

/-! ## The lane-by-lane frame (R143) -/

/-- The last-use marks of all sources (R114). -/
def Group.marks (g : Group) (act : List Nat) (srcs : List Src) : Group := srcs.foldl (fun h a => h.mark act a) g

/-- Flags of the active lanes, gathered (R58). -/
def gather (act : List Nat) (f : Nat → BitVec 32) : BitVec 32 := act.foldl (fun m l => m ||| f l) 0

/-- Results `f l` of the active lanes reach `d` and their flags reach `FLAGS`; sources are marked after the reads. -/
def Group.deliver (g : Group) (d : Opd) (srcs : List Src) (act : List Nat) (f : Nat → Word × BitVec 32) : Group :=
  ((g.marks act srcs).wr d act fun l => (f l).1).orFlags (gather act fun l => (f l).2)

/-- An instruction whose result in each active lane is a function of the same lane of its sources. -/
def State.lanewise (s : State) (gd : Guard) (d : Opd) (srcs : List Src) (f : List Word → Word × BitVec 32) : State :=
  s.simple gd (d :: srcs.map Src.r) fun act g =>
    g.deliver d srcs act fun l => f (srcs.map fun a => g.rd a.r l)

/-- The same for an instruction that sets no flag. -/
def State.lanewise0 (s : State) (gd : Guard) (d : Opd) (srcs : List Src) (f : List Word → Word) : State :=
  s.lanewise gd d srcs fun xs => (f xs, 0)

/-- One-source, two-source and three-source functions over the operand list. -/
def fun1 {α : Type} (f : Word → α) : List Word → α := fun xs => f (xs.getD 0 0)
def fun2 {α : Type} (f : Word → Word → α) : List Word → α := fun xs => f (xs.getD 0 0) (xs.getD 1 0)
def fun3 {α : Type} (f : Word → Word → Word → α) : List Word → α := fun xs => f (xs.getD 0 0) (xs.getD 1 0) (xs.getD 2 0)

/-! ## Compare destinations (R117) -/

/-- The n1 column of R117. -/
def Combine.value (ty : Combine) (old c : Bool) : Bool :=
  match ty with
  | .set | .fill => c
  | .conj => old && c
  | .disj => old || c
  | .flip => old != c

/-- The predicates of one thread after a compare with test result `c`. -/
def PredDst.write (pd : PredDst) (t : Thread) (c : Bool) : Thread :=
  let n1 := Combine.value pd.ty (t.pred pd.pd1) c
  (t.setPred pd.pd1 n1).setPred pd.pd2 (!n1)

/-- A compare: `test` judges each active lane and gives its flags (R117, R154, R155). -/
def State.compare (s : State) (gd : Guard) (pd : PredDst) (srcs : List Src) (test : List Word → Bool × BitVec 32) : State :=
  s.simple gd (srcs.map Src.r) fun act g =>
    let res := fun l => test (srcs.map fun a => g.rd a.r l)
    let sub := g.subset
    ((g.marks act srcs).mapThr fun l t =>
      if act.contains l then PredDst.write pd t (res l).1
      else if sub.contains l && pd.ty == .fill then PredDst.write pd t false
      else t).orFlags (gather act fun l => (res l).2)

/-- Every sub-element satisfies `f`. -/
def allElems (w : Nat) (f : Nat → Bool) : Bool := (List.range (64 / w)).all f

end Sys2Proof.Machine
end

