-- ==== Sys2Proof/Machine/Sync.lean ====
section
/-!
DEFINITION. Synchronisation instructions of class S: barriers, events, mailboxes, stage rings and resource growth
(13 R202 to R213).
-/
namespace Sys2Proof.Machine

/-- A group-level instruction: `k` acts when some active lane exists (R179). DEDUCED (log 19). -/
def State.groupLevel (s : State) (role : Role → Bool) (gd : Guard) (ops : List Opd) (k : List Nat → State → State) : State :=
  s.issue role ops fun s1 =>
    let act := s1.me.active gd
    if act.isEmpty then s1.commit else k act s1

/-- The same for an instruction with fixed runs of registers (R30). DEDUCED (log 19). -/
def State.groupRun (s : State) (role : Role → Bool) (gd : Guard) (ops : List Opd) (runs : List (Opd × Nat))
    (k : List Nat → State → State) : State :=
  s.issueRun role ops runs fun s1 =>
    let act := s1.me.active gd
    if act.isEmpty then s1.commit else k act s1

/-- A blocking instruction (R180): the windows close, and with no active lane it still counts as blocking for R22.
DEDUCED (log 19). -/
def State.blocking (s : State) (role : Role → Bool) (gd : Guard) (ops : List Opd) (k : List Nat → State → State) : State :=
  s.issue role ops fun s1 =>
    let s2 := s1.setMe s1.me.closeWindows
    let act := s2.me.active gd
    if act.isEmpty then s2.setMe s2.me.afterBlock else k act s2

/-- The issuing group waits. -/
def State.block (s : State) (w : Wait) : State := s.setMe { s.me with status := .blocked w }

/-- A blocking instruction that need not wait. -/
def State.passBlock (s : State) : State := s.setMe s.me.afterBlock

/-- The status of an instruction in p[q] of every active lane (R211). -/
def Group.setStatus (g : Group) (act : List Nat) (q : Fin 8) (b : Bool) : Group :=
  g.mapThr fun l t => if act.contains l then t.setPred q b else t

/-! ## Barriers (R202, R203) -/

/-- The count of a `BAR`: 0 means the number of groups in the team. -/
def barCount (count : BitVec 9) (size : Nat) : Nat := if count = 0 then size else count.toNat

def execBar (g : Guard) (arr : Bool) (count : BitVec 9) (id : Fin 16) (s : State) : Out :=
  .next (
    if arr then
      s.groupLevel anyRole g [] fun _ s1 =>
        s1.commit.teamBarrier s1.me.team id.val (some (barCount count s1.myTeam.size))
    else
      s.blocking anyRole g [] fun _ s1 =>
        (s1.block (.bar id.val (s1.myTeam.bar id.val).phase)).teamBarrier s1.me.team id.val
          (some (barCount count s1.myTeam.size)))

def execCbar (g : Guard) (arr : Bool) (count : BitVec 9) (id : Fin 8) (s : State) : Out :=
  .next (
    if arr then
      s.groupLevel anyRole g [] fun _ s1 =>
        s1.commit.clusterBarrier s1.myTeam.grid (clusterOf s1.me.core) id.val (some count.toNat)
    else
      s.blocking anyRole g [] fun _ s1 =>
        (s1.block (.cbar id.val (s1.myGrid.cbar (clusterOf s1.me.core) id.val).phase)).clusterBarrier s1.myTeam.grid
          (clusterOf s1.me.core) id.val (some count.toNat))

/-! ## Events (R206 to R209) -/

/-- The `EVPEND` bit that an entry's kind and id name, if the id is in range. -/
def entryBit (kind id : Nat) : Option Nat :=
  match kind with
  | 0 => if id < 16 then some (barBit id) else none
  | 1 => if id < 8 then some (cbarBit id) else none
  | 2 => some (copyBit id)
  | _ => if id < 32 then some (mboxBit id) else none

/-- Entry `k` of a `WAITANY` whose entries start at s(n) (R206). -/
def Group.waitEntry (g : Group) (a : Opd) (k : Nat) : Option WaitEntry :=
  let w := elem (g.rd (a.plus (k / 2)) 0) (k % 2) 32
  match entryBit (w / 2 ^ 30) (w / 2 ^ 24 % 64) with
  | some b => some { bit := b, handler := g.cur + BitVec.ofInt 64 (8 * signed 24 w) }
  | none => none

def Group.waitEntries (g : Group) (a : Opd) (count : Nat) : List (Option WaitEntry) :=
  (List.range count).map (g.waitEntry a)

def execWaitany (g : Guard) (d a : Opd) (count : Fin 9) (s : State) : Out :=
  .next (s.blocking anyRole g [d] fun act s1 =>
    let grp := s1.me
    let es := grp.waitEntries a count.val
    if !es.all Option.isSome then s1.trap .illegalOperand
    else
      let es := es.filterMap id
      match grp.pendingEntry es with
      | some i =>
        let bit := (es[i]?.map WaitEntry.bit).getD 0
        s1.setMe ({ grp with evpend := grp.evpend &&& ~~~(1#128 <<< bit) }.resumeAny d act es i)
      | none => s1.block (.any d act es))

/-- The bits of the event mask that are not reserved (R204). -/
def evMaskBits : BitVec 128 := ~~~(0xFF#128 <<< 56)

/-- A half of a 128-bit register. -/
def halfOf (hi : Bool) (x : BitVec 128) : Word := if hi then x.extractLsb' 64 64 else x.setWidth 64

/-- The register with one half replaced. -/
def withHalf (hi : Bool) (x : BitVec 128) (w : Word) : BitVec 128 := if hi then w ++ x.setWidth 64 else halfOf true x ++ w

def evCombine (op : EvOp) (old a : Word) : Word :=
  match op with
  | .wr => a
  | .set => old ||| a
  | .clr => old &&& ~~~a

def execEvmask (g : Guard) (op : EvOp) (hi : Bool) (a : Opd) (s : State) : Out :=
  .next (s.groupLevel anyRole g [] fun act s1 =>
    let grp := s1.me
    let w := evCombine op (halfOf hi grp.evmask) (grp.rdGroup a act)
    s1.setMe { grp with evmask := withHalf hi grp.evmask w &&& evMaskBits }.next)

def execEvread (g : Guard) (mask clr hi : Bool) (d : Opd) (s : State) : Out :=
  .next (s.groupLevel anyRole g [d] fun act s1 =>
    let grp := s1.me
    let w := halfOf hi (if mask then grp.evmask else grp.evpend)
    let h := grp.wr d act fun _ => w
    s1.setMe (if clr then { h with evpend := withHalf hi h.evpend 0 } else h).next)

/-! ## Mailboxes (R210, R211) -/

def State.mailbox (s : State) (core m : Nat) : Mailbox := kget Mailbox.free (s.core core).mbox m

def State.setMailbox (s : State) (core m : Nat) (x : Mailbox) : State :=
  let c := s.core core
  s.setCore core { c with mbox := kset Mailbox.free c.mbox m x }

/-- A mailbox takes a message of a grid: it is free or bound to the grid, and holds fewer than 4. -/
def Mailbox.takes (x : Mailbox) (grid : Nat) : Bool := x.msgs.isEmpty || (x.grid == grid && decide (x.msgs.length < 4))

/-- A message to a withdrawn core raises the window fault; its record names a write to cluster-shared space, and the value of `a`
as the address. DEDUCED (log 67). -/
def execMbsend (g : Guard) (q : Fin 8) (a b : Opd) (s : State) : Out :=
  .next (s.groupLevel anyRole g [a, b] fun act s1 =>
    let grp := s1.me
    let w := (grp.rdGroup a act).toNat
    let core := clusterOf grp.core * 8 + w % 8
    let m := w / 8 % 32
    if (s1.core core).withdrawn then
      s1.memFault { lanes := act, access := 1, lane := act.headD 0, space := 2, reason := 4, addr := w }
    else if (s1.core core).frozen then s
    else
      let grid := s1.myTeam.grid
      let x := s1.mailbox core m
      if x.takes grid then
        let s2 := s1.setMailbox core m { grid := grid, msgs := x.msgs ++ [grp.rdGroup b act] }
        let s3 := s2.setMe (s2.me.setStatus act q true).next
        s3.raiseAll (s3.gridGroupsOn grid core) (mboxBit m)
      else s1.setMe (grp.setStatus act q false).next)

def execMbrecv (g : Guard) (q : Fin 8) (d a : Opd) (s : State) : Out :=
  .next (s.groupLevel anyRole g [d, a] fun act s1 =>
    let grp := s1.me
    let m := (grp.rdGroup a act).toNat % 32
    let x := s1.mailbox grp.core m
    match x.msgs with
    | msg :: rest =>
      if x.grid = s1.myTeam.grid then
        let y := if rest.isEmpty then Mailbox.free else { x with msgs := rest }
        (s1.setMailbox grp.core m y).setMe ((grp.wr d act fun _ => msg).setStatus act q true).next
      else s1.setMe (grp.setStatus act q false).next
    | [] => s1.setMe (grp.setStatus act q false).next)

/-! ## Stage rings (R212, 01 R27) -/

/-- Slots of ring `r` of a team. -/
def Team.ringSlots (t : Team) (r : Nat) : Nat := (t.rings[r]?.map fun x => x.pips.length).getD 0

/-- Slot and phase that a `RINGWAIT` names; none when the ring or slot does not exist. -/
def ringTarget (t : Team) (r : Nat) (imm : Option (Nat × Bool)) (i : Nat) : Option (Nat × Bool) :=
  let n := t.ringSlots r
  if n = 0 then none
  else
    match imm with
    | some x => if x.1 < n then some x else none
    | none => some (i % n, (i / n + 1) % 2 == 1)

def RingSel.imm? : RingSel → Option (Nat × Bool)
  | .imm sl ph => some (sl.val, ph)
  | .it _ => none

def RingSel.reg : RingSel → Opd
  | .imm _ _ => .zero
  | .it a => a

def RingRelSel.imm? : RingRelSel → Option (Nat × Bool)
  | .imm sl => some (sl.val, false)
  | .it _ => none

def RingRelSel.reg : RingRelSel → Opd
  | .imm _ => .zero
  | .it a => a

/-- A team with the full bit of one slot set to `b`. -/
def Team.setFull (t : Team) (r sl : Nat) (b : Bool) : Team :=
  { t with rings := t.rings.modify r fun x => { x with full := x.full.set sl b } }

def execRingwait (g : Guard) (ring : Fin 8) (sel : RingSel) (s : State) : Out :=
  .next (s.blocking anyRole g [RingSel.reg sel] fun act s1 =>
    match ringTarget s1.myTeam ring.val (RingSel.imm? sel) (s1.me.rdGroup (RingSel.reg sel) act).toNat with
    | none => s1.trap .illegalOperand
    | some (sl, ph) =>
      if s1.myTeam.ringPip ring.val sl = ph then s1.passBlock else s1.block (.ring ring.val sl ph))

def execRingrel (g : Guard) (ring : Fin 8) (sel : RingRelSel) (s : State) : Out :=
  .next (s.groupLevel anyRole g [RingRelSel.reg sel] fun act s1 =>
    match ringTarget s1.myTeam ring.val (RingRelSel.imm? sel) (s1.me.rdGroup (RingRelSel.reg sel) act).toNat with
    | none => s1.trap .illegalOperand
    | some (sl, _) => (s1.setTeam s1.me.team (s1.myTeam.setFull ring.val sl false)).commit)

/-! ## Growth (R213, 01 R31, R32) -/

/-- A grow request of the issuing group: granted at once when none waits before it on any core that it asks and its resources are
free; otherwise the group blocks, and R32 is looked at. -/
def State.askGrow (s : State) (acc : Bool) (k : Nat) : State :=
  let cs := s.growCores s.focus acc
  let r : GrowReq := { group := s.focus, acc := acc, k := k }
  if cs.all (fun c => (s.growHead c acc).isNone) && s.growFits r then (s.growGive s.focus acc k).passBlock
  else
    let s1 := cs.foldl (fun s c => s.setCore c { s.core c with grow := (s.core c).grow ++ [r] }) s
    (s1.block (if acc then .accGrow k else .regGrow k)).growCheck s1.myTeam.cores

def execReggrow (g : Guard) (k : Fin 32) (s : State) : Out :=
  .next (s.blocking anyRole g [] fun _ s1 =>
    if 20 < s1.me.gran + k.val then s1.trap .illegalOperand else s1.askGrow false k.val)

/-- Only the matrix role holds `ACCGROW` (R24). -/
def matrixRole (r : Role) : Bool := r == .matrix

def execAccgrow (g : Guard) (k : Fin 4) (s : State) : Out :=
  .next (s.blocking matrixRole g [] fun _ s1 =>
    if 2 < s1.myTeam.halves + k.val then s1.trap .illegalOperand else s1.askGrow true k.val)

/-- The granules go to the waiting requests, the oldest first. DESIGN CHOICE (log 84). -/
def execRegshrink (g : Guard) (k : Fin 32) (s : State) : Out :=
  .next (s.groupLevel anyRole g [] fun _ s1 =>
    if s1.me.gran < 1 + k.val then s1.trap .illegalOperand
    else (s1.setMe (s1.me.shrinkRegs k.val).next).growGrants s1.me.core false 32)

/-- `GROW_GRANT` (R31): the oldest request of a kind is granted once its resources are free; a core on which every group
is blocked evicts by R32. DEDUCED (log 63). -/
def execGrowGrant (core : Nat) (acc : Bool) (s : State) : Out := .next ((s.growGrant core acc).growRelief core)

end Sys2Proof.Machine
end

