-- ==== Sys2Proof/Machine/MemoryInstr.lean ====
section
/-!
DEFINITION. Loads, stores, atomics, prefetches and fences (07 R86 to R91, R101, R103, 13 R187 to R191, R198 to R201).
Accesses perform at issue, one after another, on one memory, and the history of writes gives the further outcomes of 07 R100 to
R108: every outcome is one that chapter 07 allows.
-/
namespace Sys2Proof

/-- Access bytes (R131). -/
def Size.bytes : Size → Nat
  | .b8 => 1 | .b16 => 2 | .b32 => 4 | .b64 => 8

def ASize.bytes : ASize → Nat
  | .b32 => 4 | .b64 => 8

def Space4.wide : Space4 → Space
  | .sp => .sp | .cl => .cl | .ch => .ch | .g => .g

/-- The `space` code of a memory-fault record (R303). -/
def Space.code : Space → Nat
  | .pv => 0 | .sp => 1 | .cl => 2 | .ch => 3 | .g => 4

/-- Address bits of a space (R86). -/
def Space.bits : Space → Nat
  | .pv => 11 | .sp => 19 | .cl => 22 | .ch => 25 | .g => 57

end Sys2Proof

namespace Sys2Proof.Machine

/-! ## Where a lane's access lies (R86 to R89) -/

/-- What the checks of R89 find for one lane: a fault reason, an access held for the migration of a core, or the place of its
bytes: cells of the store, or a physical address; with the ranges that the scoreboard compares. -/
inductive LaneAt where
  | fault (reason : Nat)
  | held (core : Nat)
  | cells (ks : List Nat) (rs : List SbRange)
  | phys (pa : Nat) (r : SbRange)
  deriving DecidableEq, Repr

/-- The scratchpad byte of private offset `o` of lane `l` (R88). -/
def privByte (pb l o : Nat) : Nat := pb + 128 * (o / 4) + 4 * l + o % 4

/-- The declared private slice in bytes. -/
def Packet.privBytes (p : Packet) : Nat := 64 * p.priv

/-- Scratchpad bytes of a core as a place. -/
def spAt (core lo n : Nat) (bytes : List Nat) : LaneAt := .cells (bytes.map (spKey core)) [⟨.sp core, lo, lo + n⟩]

/-- The window rules for lane-private space: each 4-byte part of an access is a range of its own (R88, R103). -/
def State.privAt (s : State) (g : Group) (l o n : Nat) : LaneAt :=
  if o + n ≤ (s.grid (s.team g.team).grid).pkt.privBytes then
    let bs := (List.range n).map fun i => privByte g.pvbase l (o + i)
    .cells (bs.map (spKey g.core)) ((pieces 4 o n).map fun p =>
      let lo := privByte g.pvbase l p.1
      ⟨.sp g.core, lo, lo + p.2⟩)
  else .fault 4

/-- The window rules for the team's scratchpad allocation. -/
def State.scratchAt (s : State) (g : Group) (o n : Nat) : LaneAt :=
  let t := s.team g.team
  if o + n ≤ t.spsize then
    let lo := t.spbaseOn g.core + o
    spAt g.core lo n ((List.range n).map fun i => lo + i)
  else .fault 4

/-- A byte range of a core lies in an allocation of a resident team of the grid. -/
def State.gridHolds (s : State) (grid core lo n : Nat) : Bool :=
  (s.residentOn core).any fun tk =>
    let t := s.team tk
    t.grid == grid && t.spbaseOn core ≤ lo && lo + n ≤ t.spbaseOn core + t.spsize

/-- The window rules for cluster-shared space. An access to a frozen core is held (R87). -/
def State.sharedAt (s : State) (g : Group) (a n : Nat) : LaneAt :=
  let core := clusterOf g.core * 8 + a / 2 ^ 19
  let lo := a % 2 ^ 19
  if (s.core core).withdrawn then .fault 4
  else if !s.gridHolds (s.team g.team).grid core lo n then .fault 4
  else if (s.core core).frozen then .held core
  else spAt core lo n ((List.range n).map fun i => lo + i)

/-- The window of a partition in the chip scratchpad: base and size are in units of 64 KiB (23 R326). DEDUCED (log 42). -/
def Partition.chipBase (p : Partition) : Nat := 65536 * p.cwbase
def Partition.chipSize (p : Partition) : Nat := 65536 * p.cwsize

/-- The window rules for the chip scratchpad. -/
def State.chipAt (s : State) (part o n : Nat) : LaneAt :=
  let p := s.part part
  if o + n ≤ p.chipSize then .cells ((List.range n).map fun i => chKey (p.chipBase + o + i)) [⟨.ch, o, o + n⟩] else .fault 4

/-- The checks of one lane in their order: alignment, windows, translation (R89). -/
def State.laneAt (s : State) (g : Group) (spc : Space) (l a n : Nat) (need : Need) : State × LaneAt :=
  if a % n ≠ 0 then (s, .fault 5)
  else if 2 ^ spc.bits ≤ a then (s, .fault 4)
  else
    match spc with
    | .pv => (s, s.privAt g l a n)
    | .sp => (s, s.scratchAt g a n)
    | .cl => (s, s.sharedAt g a n)
    | .ch => (s, s.chipAt (partOf (s.team g.team).grid) a n)
    | .g =>
      let t := s.translate g.core (partOf (s.team g.team).grid) need a
      match t.2 with
      | .error e => (t.1, .fault e)
      | .ok w => (t.1, .phys w.pa ⟨.g, a, a + n⟩)

/-! ## Performing a lane's access -/

/-- A cell's byte, or none when it carries an uncorrectable error (R303, R326). -/
def State.cellsRead (s : State) (ks : List Nat) : Option (List Byte) :=
  if ks.any s.bad.contains then none else some (ks.map s.byte)

def State.cellsWrite (s : State) (ks : List Nat) (bs : List Byte) : State :=
  (ks.zip bs).foldl (fun s e => s.setByte e.1 e.2) s

/-- The issuing group reads the bytes of a place; a fault reason when they cannot be read. DESIGN CHOICE (log 4). -/
def State.placeRead (s : State) (x : LaneAt) (n : Nat) : State × Except Nat (List Byte) :=
  match x with
  | .fault e => (s, .error e)
  | .held _ => (s, .error 4)
  | .cells ks _ =>
    match s.cellsRead ks with
    | some bs => (s, .ok bs)
    | none => (s, .error 6)
  | .phys pa g =>
    let r := s.physRead pa n
    match r.2 with
    | some bs => (r.1, .ok (s.viewed (s.groupView s.focus) g.lo pa n bs))
    | none => (r.1, .error 6)

/-- The issuing group writes the bytes of a place. DESIGN CHOICE (log 4). -/
def State.placeWrite (s : State) (x : LaneAt) (bs : List Byte) : State × Except Nat Unit :=
  match x with
  | .fault e => (s, .error e)
  | .held _ => (s, .error 4)
  | .cells ks _ => ((s.remember (.group s.focus) none ks).cellsWrite ks bs, .ok ())
  | .phys pa g =>
    let r := (s.remember (.group s.focus) (some g.lo) ((List.range bs.length).map (pa + ·))).physWrite pa bs
    if r.2 then (r.1, .ok ()) else (r.1, .error 6)

/-- The requests of an access that fails are made, and count (23 R335). -/
def LaneAt.tried (x : LaneAt) (n : Nat) (write : Bool) (s : State) : State :=
  match x with
  | .phys pa _ => s.tryRange pa n write
  | _ => s

/-- The requests of the lanes that fail. -/
def State.triedLanes (s : State) (n : Nat) (write : Bool) (ps : List (Nat × LaneAt)) (bad : List (Nat × Nat)) : State :=
  (ps.filter fun p => bad.any fun b => b.1 == p.1).foldl (fun s p => p.2.tried n write s) s

/-- The places of the lanes' accesses, all found before a lane writes. -/
def State.placeLanes (s : State) (g : Group) (spc : Space) (n : Nat) (need : Need) (addr : Nat → Nat) :
    List Nat → State × List (Nat × LaneAt)
  | [] => (s, [])
  | l :: ls =>
    let r := s.laneAt g spc l (addr l) n need
    let t := r.1.placeLanes g spc n need addr ls
    (t.1, (l, r.2) :: t.2)

/-! ## The range scoreboard (R103) -/

/-- Two ranges of one space meet. -/
def SbRange.meets (a b : SbRange) : Bool := a.space == b.space && a.lo < b.hi && b.lo < a.hi

/-- The destination ranges of a core's jobs: those its feeder groups issued and that have not retired. -/
def State.scoreboard (s : State) (core : Nat) : List SbRange :=
  s.jobs.flatMap fun e => if e.2.live && e.2.node.isNone && e.2.core == core then e.2.range else []

/-- An access overlaps a recorded range, so it stalls. -/
def State.sbHit (s : State) (core : Nat) (r : SbRange) : Bool := (s.scoreboard core).any r.meets

/-- A lane's access stalls. -/
def State.laneStalls (s : State) (g : Group) (x : LaneAt) : Bool :=
  match x with
  | .cells _ rs => rs.any (s.sbHit g.core)
  | .phys _ r => s.sbHit g.core r
  | _ => false

/-! ## The frame of the per-lane accesses -/

/-- The address base + x + off × n (R119). -/
def laneAddr (g : Group) (base : Src) (x : Option Src) (off : Int) (n l : Nat) : Nat :=
  (g.rd base.r l + ((x.map fun a => g.rd a.r l).getD 0) + BitVec.ofInt 64 (off * n)).toNat

/-- The frozen core for which a lane's access is held. -/
def LaneAt.heldFor : LaneAt → Option Nat
  | .held c => some c
  | _ => none

/-- Before any lane performs: `some` is the state in which the instruction waits. One whose access is held for a migration may be
pre-empted meanwhile, but for an `ST` (`point` false; R87, R180); its windows close, since none is open at such a point (21 R308). -/
def State.accessWaits (s : State) (g : Group) (point : Bool) (ps : List (Nat × LaneAt)) : Option State :=
  match ps.findSome? fun e => e.2.heldFor with
  | some c => some (if point then s.setMe { s.me.closeWindows with waits := some (.core c) } else s)
  | none =>
  if ps.any fun e => s.laneStalls g e.2 then some s
  else none

/-! ## `LD` (R187 to R190) -/

/-- The reads of `LD`, lane by lane: each lane's word, or its fault reason. DESIGN CHOICE (log 4). -/
def State.loadLanes (s : State) (n : Nat) : List (Nat × LaneAt) → State × List (Nat × Word) × List (Nat × Nat)
  | [] => (s, [], [])
  | e :: ps =>
    let r := s.placeRead e.2 n
    let t := r.1.loadLanes n ps
    match r.2 with
    | .ok bs => (t.1, (e.1, wordOf bs) :: t.2.1, t.2.2)
    | .error x => (t.1, t.2.1, (e.1, x) :: t.2.2)

/-- The lanes that committed write `d`; a scalar `d` takes the lowest guard-true lane's value (R113). -/
def Group.loadWrite (g : Group) (la : Nat) (d : Opd) (low : Nat) (rs : List (Nat × Word)) : Group :=
  rs.foldl (fun h r =>
    match d with
    | .s _ => if r.1 = low then h.later la d r.1 r.2 (BitVec.allOnes 64) else h
    | _ => h.later la d r.1 r.2 (BitVec.allOnes 64)) g

/-- A replay after a fault (R190) runs the remaining lanes with the registers as they stand; an `s` destination that is also the
base or the index has then the value that the first attempt wrote. DEDUCED (log 68). -/
def execLd (g : Guard) (spc : Space) (sz : Size) (_acq : Bool) (_sc : Scope) (la : Fin 16) (d : Opd) (base x : Src)
    (off : BitVec 11) (s : State) : Out :=
  .next (s.issue anyRole [d, base.r, x.r] fun s1 =>
    let grp := s1.me
    let act := grp.active g
    let low := act.headD 0
    let ls := match grp.replay with
      | some m => act.filter m.contains
      | none => act
    let n := sz.bytes
    let addr := laneAddr grp base (some x) off.toInt n
    let p := s1.placeLanes grp spc n Need.read addr ls
    match s1.accessWaits grp true p.2 with
    | some w => w
    | none =>
      let r := p.1.loadLanes n p.2
      let ok := r.2.1.map (·.1)
      let h := (grp.marks ok [base, x])
      match r.2.2 with
      | [] => r.1.setMe { h.loadWrite la.val d low r.2.1 with replay := none }.next
      | (l, e) :: rest =>
        (r.1.setMe { h.loadWrite 0 d low r.2.1 with replay := some (l :: rest.map (·.1)) }).memFault
          { lanes := l :: rest.map (·.1), access := 0, lane := l, space := spc.code, reason := e, addr := addr l })

/-! ## `ST` (R187 to R190) -/

/-- The stores of `ST` at their places, in ascending lane order. DESIGN CHOICE (log 4). -/
def State.storeLanes (s : State) (n : Nat) (data : Nat → Word) (ps : List (Nat × LaneAt)) : State :=
  ps.foldl (fun s e => (s.placeWrite e.2 (leBytes n (data e.1).toNat)).1) s

/-- The lanes that cannot write their place, with reasons (R87, R89, R319, R323, R337). -/
def State.writeFaults (s : State) (n : Nat) (ps : List (Nat × LaneAt)) : List (Nat × Nat) :=
  ps.filterMap fun p =>
    match (s.placeWrite p.2 (List.replicate n 0)).2 with
    | .error e => some (p.1, e)
    | .ok _ => none

def execSt (g : Guard) (spc : Space) (sz : Size) (_rel : Bool) (_sc : Scope) (base data : Src) (off : BitVec 11) (s : State) :
    Out :=
  .next (s.issue anyRole [base.r, data.r] fun s1 =>
    let grp := s1.me
    let act := grp.active g
    let n := sz.bytes
    let addr := laneAddr grp base none off.toInt n
    let p := s1.placeLanes grp spc n Need.write addr act
    match s1.accessWaits grp false p.2 with
    | some w => w
    | none =>
      match p.1.writeFaults n p.2 with
      | (l, e) :: bad =>
        (p.1.triedLanes n true p.2 ((l, e) :: bad)).memFault { lanes := act, access := 1, lane := l, space := spc.code, reason := e, addr := addr l }
      | [] =>
        let s2 := p.1.storeLanes n (grp.rd data.r) p.2
        s2.setMe (s2.me.marks act [base, data]).next)

/-! ## `ATOM` and `CAS` (R191) -/

/-- op(o, v) of R191 on patterns of `w` bits, with the flags of `.fadd`. -/
def atomOp (op : AtomOp) (w o v : Nat) : Nat × BitVec 32 :=
  match op with
  | .add => ((o + v) % 2 ^ w, 0)
  | .min => (if signed w v < signed w o then v else o, 0)
  | .max => (if signed w o < signed w v then v else o, 0)
  | .umin => (min o v, 0)
  | .umax => (max o v, 0)
  | .and => (Nat.land o v, 0)
  | .or => (Nat.lor o v, 0)
  | .xor => (Nat.xor o v, 0)
  | .exch => (v, 0)
  | .fadd => addRound .f32 (value .f32 o) (value .f32 v) .rn false

/-- One lane's read-modify-write at its place: `f` maps the old pattern to the new one, if it writes. -/
def State.rmwLane (s : State) (n : Nat) (x : LaneAt) (f : Nat → Option Nat) : State × Nat :=
  let r := s.placeRead x n
  let o := match r.2 with
    | .ok bs => leNat bs
    | .error _ => 0
  match f o with
  | some y => ((r.1.placeWrite x (leBytes n y)).1, o)
  | none => (r.1, o)

/-- All lanes in ascending order: each lane's old pattern. -/
def State.rmwLanes (s : State) (n : Nat) (f : Nat → Nat → Option Nat) : List (Nat × LaneAt) → State × List (Nat × Nat)
  | [] => (s, [])
  | e :: ps =>
    let r := s.rmwLane n e.2 (f e.1)
    let t := r.1.rmwLanes n f ps
    (t.1, (e.1, r.2) :: t.2)

/-- The lanes whose place cannot be read and written, with reasons. -/
def State.rmwFaults (s : State) (n : Nat) (ps : List (Nat × LaneAt)) : List (Nat × Nat) :=
  ps.filterMap fun p =>
    match (s.placeRead p.2 n).2 with
    | .error e => some (p.1, e)
    | .ok _ => none

/-- An atomic: `f l o` gives lane l's new pattern, `fl l o` its flags. -/
def State.atomic (s : State) (g : Guard) (spc : Space) (n : Nat) (la : Nat) (d : Opd) (base x : Src) (off : Int)
    (f : Group → Nat → Nat → Option Nat) (fl : Group → Nat → Nat → BitVec 32) : State :=
  s.issue anyRole [d, base.r, x.r] fun s1 =>
    let grp := s1.me
    let act := grp.active g
    let addr := laneAddr grp base none off n
    let p := s1.placeLanes grp spc n Need.rmw addr act
    match s1.accessWaits grp true p.2 with
    | some w => w
    | none =>
      match p.1.rmwFaults n p.2 with
      | (l, e) :: bad =>
        (p.1.triedLanes n false p.2 ((l, e) :: bad)).memFault { lanes := act, access := 2, lane := l, space := spc.code, reason := e, addr := addr l }
      | [] =>
        let r := p.1.rmwLanes n (f grp) p.2
        let h := (r.1.me.marks act [base, x]).loadWrite la d (act.headD 0) (r.2.map fun e => (e.1, BitVec.ofNat 64 e.2))
        r.1.setMe (h.orFlags (r.2.foldl (fun m e => m ||| fl grp e.1 e.2) 0)).next

def execAtom (g : Guard) (op : AtomOp) (_k : OrdKind) (spc : Space4) (sz : ASize) (_sc : Scope) (la : Fin 16) (d : Opd)
    (base x : Src) (off : BitVec 7) (s : State) : Out :=
  let w := 8 * sz.bytes
  .next (s.atomic g spc.wide sz.bytes la.val d base x off.toInt
    (fun grp l o => some (atomOp op w o (elem (grp.rd x.r l) 0 w)).1)
    (fun grp l o => (atomOp op w o (elem (grp.rd x.r l) 0 w)).2))

def execCas (g : Guard) (_k : OrdKind) (spc : Space4) (sz : ASize) (_sc : Scope) (la : Fin 16) (d : Opd) (base x : Src)
    (off : BitVec 7) (s : State) : Out :=
  let w := 8 * sz.bytes
  .next (s.atomic g spc.wide sz.bytes la.val d base x off.toInt
    (fun grp l o => if o = elem (grp.rd d l) 0 w then some (elem (grp.rd x.r l) 0 w) else none)
    (fun _ _ _ => 0))

/-! ## Prefetches (R198) -/

/-- A prefetch changes no architectural state but its sources' last-use marks. -/
def execPrefG (g : Guard) (_sc : Scope) (base x : Src) (_off : BitVec 11) (s : State) : Out :=
  .next (s.simple g [base.r, x.r] fun act grp => grp.marks act [base, x])

/-! ## Fences (R199 to R201) -/

/-- Memory performs in group order on one memory, so an acquire has nothing to wait for. DESIGN CHOICE (log 4). -/
def execFenceAcq (g : Guard) (_sc : Scope) (s : State) : Out := .next (s.simple g [] fun _ grp => grp)

/-- A release fence: the group's later jobs see every write that has happened (07 R96, R104). -/
def Group.fenced (g : Group) (sc : Scope) (n : Nat) : Group :=
  match sc with
  | .sys => { g with fenceDev := n, fenceSys := n }
  | .dev => { g with fenceDev := n }
  | _ => g

/-- DESIGN CHOICE (log 4). -/
def execFenceRel (g : Guard) (sc : Scope) (s : State) : Out :=
  .next (s.groupLevel anyRole g [] fun _ s1 => s1.setMe (s1.me.fenced sc s1.past.length).next)
/-- DESIGN CHOICE (log 4). -/
def execFenceAr (g : Guard) (sc : Scope) (s : State) : Out :=
  .next (s.groupLevel anyRole g [] fun _ s1 => s1.setMe (s1.me.fenced sc s1.past.length).next)

/-- The 64 KiB page of an address, as `AFENCE` names it (R200). DEDUCED (log 5). -/
def pageOfAddr (a : Word) : Nat := a.toNat / 65536

/-- `AFENCE` (R200): the pair of pages is fenced for the accesses before and behind it (07 R100). DEDUCED (log 5). -/
def execAfence (g : Guard) (a b : Src) (s : State) : Out :=
  .next (s.groupLevel anyRole g [a.r, b.r] fun act s1 =>
    let grp := s1.me
    let f : AliasFence :=
      { group := s1.focus, a := pageOfAddr (grp.rdGroup a.r act), b := pageOfAddr (grp.rdGroup b.r act), past := s1.past.length }
    { s1 with afences := f :: s1.afences }.setMe (grp.marks act [a, b]).next)

/-- The registers and the history as an `OFENCE` leaves them to the group's next `MMA`s (07 R101). DESIGN CHOICE (log 12). -/
def Group.place (g : Group) (n : Nat) : Group := { g with placed := { fenced := true, v := g.v, dead := g.dead, s := g.s, past := n } }

/-- `OFENCE`: the outstanding register writes of earlier instructions complete before it (07 R101). -/
def execOfence (g : Guard) (s : State) : Out :=
  .next (s.groupLevel anyRole g [] fun _ s1 => s1.setMe (s1.me.closeWindows.place s1.past.length).next)

/-- An accepted `MMA`, or a submitted `ACCMERGE`, of group `k` has not committed (15 R234, R237). -/
def State.inFlight (s : State) (k : Nat) : Bool :=
  (s.team (s.grp k).team).ops.any fun o =>
    match o with
    | .mma x => x.groups.contains k
    | .merge x => x.group == k
    | .settled _ | .applied _ _ _ | .folded _ _ => false

/-- `TFENCE` (R201): it waits for the group's `MMA`s, commits, and raises the arithmetic trap for an enabled flag. -/
def execTfence (g : Guard) (s : State) : Out :=
  .next (s.groupLevel anyRole g [] fun _ s1 =>
    if s1.inFlight s1.focus then s
    else
      let s2 := s1.setMe s1.me.closeWindows
      let hit := s2.me.flags &&& s2.me.flagen
      if hit = 0 then s2.commit else s2.trap .arithmetic 0 0 hit.toNat)

end Sys2Proof.Machine
end

