-- ==== Sys2Proof/Machine/Coded.lean ====
section
/-!
DEFINITION. Coded tiles (chapter 05): records, code tables, descriptors, sidecar lines, decoding with its faults, the
encoder, and stores to tiles.
-/
namespace Sys2Proof.Machine

/-! ## Records as numbers (R5, R60)

A record of n bytes is the number whose bit i is stream bit i of the record; `nbits` takes a field. -/

/-- Kept elements per row, N of R59; 0 means dense. -/
def keepOf (sparsity : Nat) : Nat := if sparsity = 0 then 0 else 2 ^ (sparsity - 1)

/-- Metadata bytes M (R60). -/
def metaBytes (sparsity : Nat) : Nat := 8 * keepOf sparsity

/-- Elements E (R59). -/
def elemCount (sparsity : Nat) : Nat := if sparsity = 0 then 256 else 16 * keepOf sparsity

/-- Round up to a multiple of 16. -/
def up16 (n : Nat) : Nat := (n + 15) / 16 * 16

/-- The plain slot size S (R73). -/
def slotSize (f : Fmt) (sparsity : Nat) : Nat := up16 (12 + metaBytes sparsity + (elemCount sparsity * f.width + 7) / 8)

/-- The format of a code (R34). -/
def fmtOf (code : Nat) : Option Fmt :=
  [Fmt.e2m1, .int4, .e2m3, .e3m2, .tf6, .e4m3, .e5m2, .tf8, .int8, .f16, .bf16][code]?

def fmtCode : Fmt → Nat
  | .e2m1 => 0 | .int4 => 1 | .e2m3 => 2 | .e3m2 => 3 | .tf6 => 4 | .e4m3 => 5 | .e5m2 => 6 | .tf8 => 7 | .int8 => 8
  | .f16 => 9 | .bf16 => 10 | _ => 15

/-! ## Code tables (R63 to R65) -/

/-- first[l] and base[l] for the lengths from the present one on. -/
def canonFrom : Nat → Nat → List Nat → List (Nat × Nat × Nat)
  | _, _, [] => []
  | code, n, c :: cs => (code, n, c) :: canonFrom ((code + c) * 2) (n + c) cs

/-- For each length from 1: first code, first symbol number, count (R65). -/
def CodeTable.canon (t : CodeTable) : List (Nat × Nat × Nat) := canonFrom 0 0 t.counts

/-- One codeword of the stream from `pos`, not past `len`: the symbol and the next position (R65). -/
def readCode (stream len : Nat) (syms : List Nat) : List (Nat × Nat × Nat) → Nat → Nat → Option (Nat × Nat)
  | [], _, _ => none
  | (first, base, count) :: r, v, pos =>
    if pos = len then none
    else
      let v' := 2 * v + nbits stream pos 1
      if first ≤ v' ∧ v' - first < count then some (syms.getD (base + (v' - first)) 0, pos + 1)
      else readCode stream len syms r v' (pos + 1)

/-- `k` codewords. -/
def readCodes (stream len : Nat) (t : CodeTable) (canon : List (Nat × Nat × Nat)) : Nat → Nat → Option (List Nat × Nat)
  | 0, pos => some ([], pos)
  | k + 1, pos =>
    match readCode stream len t.syms canon 0 pos with
    | none => none
    | some (y, p) =>
      match readCodes stream len t canon k p with
      | none => none
      | some (ys, q) => some (y :: ys, q)

/-- Length and code of symbol number `n` (R65). -/
def codeOf (n : Nat) : Nat → List (Nat × Nat × Nat) → Option (Nat × Nat)
  | _, [] => none
  | l, (first, base, count) :: r =>
    if base ≤ n ∧ n - base < count then some (l, first + (n - base)) else codeOf n (l + 1) r

/-- The codeword of a pattern: its length and code. -/
def CodeTable.codeword (t : CodeTable) (p : Nat) : Option (Nat × Nat) :=
  match t.syms.findIdx? (· == p) with
  | some n => codeOf n 1 t.canon
  | none => none

/-- The bits of a code in stream order: the most significant goes first (R62). -/
def reverseBits (l c : Nat) : Nat := (List.range l).foldl (fun r j => r + nbits c (l - 1 - j) 1 * 2 ^ j) 0

/-- The codewords of some patterns as a stream with its length, if each has one. -/
def encodeStream (t : CodeTable) : List Nat → Option (Nat × Nat)
  | [] => some (0, 0)
  | p :: ps =>
    match t.codeword p, encodeStream t ps with
    | some (l, c), some (st, n) => some (reverseBits l c + st * 2 ^ l, n + l)
    | _, _ => none

/-! ## Decoding a record (R67) -/

/-- What a record holds: its elements in element order, the rows that they fill, the kept column of each under sparsity, and
its scales. -/
structure RecordData where
  els : List Nat
  rows : Nat
  idx : List Nat
  scales : List Nat
  deriving DecidableEq, Repr

/-- Reason, area and offset of a decode fault (R68). -/
structure DecCode where
  reason : Nat
  area : Nat
  offset : Nat
  deriving DecidableEq, Repr

/-- The lowest set bit of a number other than 0. -/
def lowBit (x : Nat) : Nat := Nat.log2 (Nat.xor x (Nat.land x (x - 1)))

/-- The elements of a payload by its mode, with the faults of R67. -/
def payloadElems (f : Fmt) (sparsity : Nat) (opened : Bool) (ct : Nat → Option CodeTable) (h stream : Nat) :
    Except DecCode (List Nat) :=
  let w := f.width
  let len := nbits h 11 21
  let e := elemCount sparsity
  match nbits h 0 2 with
  | 0 =>
    if opened then
      if len = 0 ∨ len % (16 * w) ≠ 0 ∨ 240 * w < len then .error ⟨9, 3, len⟩
      else .ok ((List.range (len / w)).map fun i => nbits stream (i * w) w)
    else if len ≠ e * w then .error ⟨9, 3, e * w⟩
    else .ok ((List.range e).map fun i => nbits stream (i * w) w)
  | 2 => if len ≠ w then .error ⟨9, 3, w⟩ else .ok (List.replicate e (nbits stream 0 w))
  | _ =>
    match ct (nbits h 6 4) with
    | none => .error ⟨5, 0, 6⟩
    | some t =>
      if t.tag.toNat ≠ nbits h 2 4 then .error ⟨6, 0, 6⟩
      else
        match readCodes stream len t t.canon e 0 with
        | none => .error ⟨8, 3, len⟩
        | some (els, pos) => if pos ≠ len then .error ⟨9, 3, pos⟩ else .ok els

/-- R67 for a slot of `n` bytes whose bits are `r`; the slot is open when `opened`. -/
def parseRecord (f : Fmt) (sparsity : Nat) (opened : Bool) (ct : Nat → Option CodeTable) (n r : Nat) :
    Except DecCode RecordData :=
  let h := nbits r 0 32
  let len := nbits h 11 21
  let k := keepOf sparsity
  let m := metaBytes sparsity
  let idx := (List.range (16 * k)).map fun q => nbits r (96 + 4 * q) 4
  let stream := r / 2 ^ (8 * (12 + m))
  if n = 0 then .error ⟨0x0C, 0, 0⟩
  else if nbits h 0 2 = 3 then .error ⟨1, 0, 0⟩
  else if 10 < nbits h 2 4 then .error ⟨2, 0, 2⟩
  else if nbits h 2 4 ≠ fmtCode f then .error ⟨3, 0, 2⟩
  else if (nbits h 10 1 == 1) != (sparsity != 0) then .error ⟨4, 0, 10⟩
  else if n < 12 + m + (len + 7) / 8 then .error ⟨0x0B, 0, 11⟩
  else
    match (List.range (16 * k)).find? fun q => q % k != 0 && decide (idx.getD q 0 ≤ idx.getD (q - 1) 0) with
    | some q => .error ⟨7, 2, 4 * q⟩
    | none =>
      match payloadElems f sparsity opened ct h stream with
      | .error e => .error e
      | .ok els =>
        let pad := stream % 2 ^ (8 * (n - 12 - m)) / 2 ^ len
        if pad ≠ 0 then .error ⟨0x0A, 4, len + lowBit pad⟩
        else
          let rows := if opened ∧ nbits h 0 2 = 0 then len / (16 * f.width) else 16
          .ok { els := els, rows := rows, idx := idx, scales := (List.range 8).map fun b => nbits r (32 + 8 * b) 8 }

/-! ## Tiles (R59, R78) -/

/-- A decoded tile: the patterns by flat index, which positions read as fill, which are kept, the scale of each block, the
kept columns of each row, and the fill value. -/
structure Tile where
  pats : List Nat
  oob : List Bool
  kept : List Bool
  scales : List Nat
  keep : List (List Nat)
  fill : Nat
  fscale : Nat
  deriving DecidableEq, Repr

/-- The tile of a record without bounds. Rows beyond an open tile's written rows are fill (R79). -/
def tileOf (sparsity : Nat) (d : RecordData) (fill fscale : Nat) : Tile :=
  let k := keepOf sparsity
  if k = 0 then
    let n := d.els.length
    { pats := d.els ++ List.replicate (256 - n) fill
      oob := (List.range 256).map fun i => decide (n ≤ i)
      kept := List.replicate 256 true
      scales := d.scales, keep := [], fill := fill, fscale := fscale }
  else
    let place := fun i => (List.range k).find? fun j => d.idx.getD (k * (i / 16) + j) 16 == i % 16
    { pats := (List.range 256).map fun i =>
        if d.rows ≤ i / 16 then fill
        else
          match place i with
          | some j => d.els.getD (k * (i / 16) + j) 0
          | none => 0
      oob := (List.range 256).map fun i => decide (d.rows ≤ i / 16)
      kept := (List.range 256).map fun i => (place i).isSome
      scales := d.scales
      keep := (List.range 16).map fun r => (List.range k).map fun j => d.idx.getD (k * r + j) 0
      fill := fill, fscale := fscale }

/-- A tile with no in-bounds element (R78, R194); no metadata is read, and its kept columns are 0 to N − 1 in every row, as in the
constant record of 17 R264. DEDUCED (log 81). -/
def fillTile (sparsity fill fscale : Nat) : Tile :=
  { pats := List.replicate 256 fill, oob := List.replicate 256 true, kept := List.replicate 256 true,
    scales := List.replicate 8 fscale,
    keep := if sparsity = 0 then [] else List.replicate 16 (List.range (keepOf sparsity)), fill := fill, fscale := fscale }

/-- The out-of-bounds elements read as fill, whatever the record holds. -/
def Tile.bound (t : Tile) (inb : Nat → Bool) : Tile :=
  { t with
    pats := t.pats.mapIdx fun i p => if inb i then p else t.fill
    oob := t.oob.mapIdx fun i b => b || !inb i }

/-! ## Faults of tensor accesses -/

/-- Where a decode fault happened: the fields of R68 that name the tile. -/
structure TileCtx where
  path : Nat
  desc : Nat
  xy : Nat
  z : Nat
  tile : Nat
  recAddr : Nat
  side : Nat
  deriving DecidableEq, Repr

/-- Why a tensor access does not go on: it stalls on the scoreboard, takes a memory fault, or a decode fault. -/
inductive TFault where
  | stall
  | memory (access reason addr : Nat)
  | decode (c : DecCode) (ctx : TileCtx)
  deriving DecidableEq, Repr

/-- Who makes a tensor access: as whom it writes, the core whose translations it uses, the partition, the core whose scoreboard it
compares with, if any, and how it sees earlier writes (07 R100, R104). -/
structure Agent where
  writer : Writer
  core : Nat
  part : Nat
  sb : Option Nat
  view : Option View
  deriving DecidableEq, Repr

/-- The virtual range stalls on the agent's scoreboard (07 R103). -/
def State.agentStalls (s : State) (ag : Agent) (lo n : Nat) : Bool :=
  match ag.sb with
  | some c => s.sbHit c ⟨.g, lo, lo + n⟩
  | none => false

/-- Translate a virtual range of a tensor access. `coded` gives the page kind it must have (R74). -/
def State.tensorRange (s : State) (ag : Agent) (need : Need) (va n : Nat) (coded : Option Bool) (ctx : TileCtx) :
    State × Except TFault (List (Where × Nat)) :=
  let access := if need.w then 1 else 4
  if 2 ^ 57 < va + n then (s, .error (.memory access 4 (va % 2 ^ 64)))
  else
    let t := s.translateRange ag.core ag.part { need with cached := coded == some false } va n
    match t.2 with
    | .error e => (t.1, .error (.memory access e.2 e.1))
    | .ok ws =>
      match coded with
      | some c =>
        if ws.any fun w => (w.1.kind == 1) != c then (t.1, .error (.decode ⟨0x15, 5, 4⟩ ctx)) else (t.1, .ok ws)
      | none => (t.1, .ok ws)

/-- Read a virtual range as a number. -/
def State.tensorRead (s : State) (ag : Agent) (need : Need) (va n : Nat) (coded : Option Bool) (ctx : TileCtx) :
    State × Except TFault Nat :=
  let t := s.tensorRange ag need va n coded ctx
  match t.2 with
  | .error e => (t.1, .error e)
  | .ok ws =>
    let r := t.1.readPieces ag.view va ws
    match r.2 with
    | .error a => (r.1, .error (.memory 4 6 a))
    | .ok bs => (r.1, .ok (leNat bs))

/-- The bytes of translated pieces. -/
def pieceKeys (ws : List (Where × Nat)) : List Nat := ws.flatMap fun w => (List.range w.2).map (w.1.pa + ·)

/-- The pieces of a range at `va` with the address of each. -/
def pieceVas : Nat → List (Where × Nat) → List (Nat × Where × Nat)
  | _, [] => []
  | va, w :: ws => (va, w) :: pieceVas (va + w.2) ws

/-- The history notes a write of translated pieces of a range at `va`, piece by piece. -/
def State.rememberPieces (s : State) (writer : Writer) (va : Nat) (ws : List (Where × Nat)) (whole : Option Nat := none) : State :=
  (pieceVas va ws).foldl (fun s x => s.remember writer (some x.1) (pieceKeys [x.2]) whole) s

/-- Write a number of `n` bytes; nothing is written when a byte cannot be. -/
def State.tensorWrite (s : State) (ag : Agent) (va n x : Nat) (coded : Option Bool) (ctx : TileCtx) :
    State × Except TFault Unit :=
  let t := s.tensorRange ag Need.write va n coded ctx
  match t.2 with
  | .error e => (t.1, .error e)
  | .ok ws =>
    let r := (t.1.rememberPieces ag.writer va ws).writePieces ws (leBytes n x)
    if r.2 then (r.1, .ok ()) else (t.1, .error (.memory 1 6 va))

/-! ## Descriptors (R69 to R71) -/

/-- The first offending field of a descriptor's 64 bytes, by its lowest bit (R70). -/
def descBad (d : Nat) (bound : Option Word) : Option Nat :=
  let fmt := nbits d 0 4
  let sp := nbits d 5 3
  let ndim := nbits d 12 2
  let wset := nbits d 32 32
  let base := if wset = 0 then nbits d 384 64 else (bound.map BitVec.toNat).getD 0
  let align := if nbits d 4 1 = 1 then 65536 else 16
  let w := ((fmtOf fmt).map Fmt.width).getD 16
  let checks : List (Nat × Bool) :=
    [(0, decide (10 < fmt)), (5, decide (4 < sp)), (14, nbits d 14 18 != 0),
     (32, wset != 0 && (bound.isNone || base % align != 0))]
    ++ ((List.range 4).map fun k =>
      (64 + 32 * k, if k ≤ ndim then nbits d (64 + 32 * k) 32 == 0 else nbits d (64 + 32 * k) 32 != 1))
    ++ [(384, wset == 0 && base % align != 0), (448, nbits d 448 16 / 2 ^ w != 0), (472, nbits d 472 40 != 0)]
  (checks.find? fun c => c.2).map (·.1)

/-- The fields of a valid descriptor. -/
def descOf (d : Nat) (addr : Word) (bound : Option Word) : Desc :=
  let wset := nbits d 32 32
  { fmt := (fmtOf (nbits d 0 4)).getD .e2m1, coded := nbits d 4 1 == 1, sparsity := nbits d 5 3, ndim := nbits d 12 2,
    ctdef := nbits d 8 4, dims := (List.range 4).map fun k => nbits d (64 + 32 * k) 32,
    strides := (List.range 3).map fun k => nbits d (192 + 64 * k) 64,
    base := if wset = 0 then nbits d 384 64 else (bound.map BitVec.toNat).getD 0,
    fill := nbits d 448 16, fscale := nbits d 464 8, addr := addr }

/-- The base that a graph's captured bindings give a weight-set handle (R71). -/
def boundBase (binds : List (Nat × Word)) (wset : Nat) : Option Word := (binds.find? fun b => b.1 == wset).map (·.2)

/-- An empty fault context that names the descriptor. -/
def descCtx (path addr : Nat) : TileCtx := { path := path, desc := addr, xy := 0, z := 0, tile := 0, recAddr := 0, side := 0 }

/-- The agent that reads a descriptor: a write unordered with the read gives each 8-byte field whole (R70). -/
def Agent.wide (ag : Agent) : Agent := { ag with view := ag.view.map fun v => { v with width := 8 } }

/-- The descriptor read of a tensor-space access (R70). -/
def State.readDesc (s : State) (ag : Agent) (binds : List (Nat × Word)) (addr : Word) (path : Nat) :
    State × Except TFault Desc :=
  let a := addr.toNat
  let ctx := descCtx path a
  if a % 64 ≠ 0 then (s, .error (.decode ⟨0x0D, 5, 0xFFFFFFFF⟩ ctx))
  else
    let r := s.tensorRead ag.wide Need.read a 64 none ctx
    match r.2 with
    | .error e => (r.1, .error e)
    | .ok d =>
      let b := boundBase binds (nbits d 32 32)
      match descBad d b with
      | some o => (r.1, .error (.decode ⟨0x0D, 5, o⟩ ctx))
      | none => (r.1, .ok (descOf d addr b))

/-! ## Where a tile lives (R72, R73) -/

/-- Four signed coordinates. -/
structure Coord where
  x : Int
  y : Int
  z1 : Int
  z2 : Int
  deriving DecidableEq, Repr

/-- (x, y) in one word and (z1, z2) in the next, each signed. -/
def coordOf (xy z : Word) : Coord :=
  { x := signed 32 xy.toNat, y := signed 32 (xy.toNat / 2 ^ 32), z1 := signed 32 z.toNat,
    z2 := signed 32 (z.toNat / 2 ^ 32) }

def Desc.dim (d : Desc) (k : Nat) : Int := (d.dims.getD k 0 : Nat)
/-- str1 to str3 are unsigned. DEDUCED (log 69). -/
def Desc.stride (d : Desc) (k : Nat) : Nat := d.strides.getD (k - 1) 0

/-- Element `i` of the tile at `c` is in bounds. -/
def Desc.inBounds (d : Desc) (c : Coord) (i : Nat) : Bool :=
  let col := 16 * c.x + (i % 16 : Nat)
  let row := 16 * c.y + (i / 16 : Nat)
  decide (0 ≤ col ∧ col < d.dim 0 ∧ 0 ≤ row ∧ row < d.dim 1 ∧ 0 ≤ c.z1 ∧ c.z1 < d.dim 2 ∧ 0 ≤ c.z2 ∧ c.z2 < d.dim 3)

/-- Some element is in bounds. -/
def Desc.touches (d : Desc) (c : Coord) : Bool := (List.range 256).any (d.inBounds c)

/-- The tile number of a tile with an in-bounds element; its coordinates are not negative. -/
def Desc.tileNo (d : Desc) (c : Coord) : Nat :=
  c.x.toNat + c.y.toNat * d.stride 1 + c.z1.toNat * d.stride 2 + c.z2.toNat * d.stride 3

/-- The two halves of a coordinate word. -/
def pairWord (lo hi : Int) : Nat := unsigned 32 lo + unsigned 32 hi * 2 ^ 32

/-- The fault context of a tile access. -/
def tileCtx (d : Desc) (c : Coord) (path t : Nat) : TileCtx :=
  { path := path, desc := d.addr.toNat, xy := pairWord c.x c.y, z := pairWord c.z1 c.z2, tile := t % 2 ^ 64, recAddr := 0,
    side := 0 }

/-- The page of a coded tile. -/
def Desc.page (d : Desc) (t : Nat) : Nat := d.base + t / 128 * 65536

/-- The slot of a plain tile. -/
def Desc.plainAt (d : Desc) (t : Nat) : Nat := d.base + t * slotSize d.fmt d.sparsity

/-! ## Sidecar lines (R75 to R77) -/

/-- The sidecar line of the coded page at `p`. -/
def State.lineAt (s : State) (part p : Nat) : Nat := ((s.part part).sidebase.toNat + p / 65536 * 256) % 2 ^ 57

def entryEnd (e : Nat) : Nat := e % 8192
def entryOpen (e : Nat) : Bool := nbits e 15 1 == 1

/-- The 128 entries of a line read as a number. -/
def lineEntries (x : Nat) : List Nat := (List.range 128).map fun i => nbits x (16 * i) 16

/-- The first offending bit of a line, entry by entry: `prev` is the last end, `opn` the end of an open entry before. A bad end
offends at bit 0 of its entry, before the reserved bits and `open`. DEDUCED (log 70). -/
def lineBadFrom : Nat → Nat → Option Nat → List Nat → Option Nat
  | _, _, _, [] => none
  | i, prev, opn, e :: es =>
    let endBad := decide (entryEnd e < prev) || decide (4096 < entryEnd e) || (opn.isSome && opn != some (entryEnd e))
    if endBad then some (16 * i)
    else if nbits e 13 1 = 1 then some (16 * i + 13)
    else if nbits e 14 1 = 1 then some (16 * i + 14)
    else if opn.isSome && entryOpen e then some (16 * i + 15)
    else lineBadFrom (i + 1) (entryEnd e) (if entryOpen e then some (entryEnd e) else opn) es

/-- The start of slot `i` of a line, in bytes from the page. -/
def slotStart (es : List Nat) (i : Nat) : Nat := if i = 0 then 0 else 16 * entryEnd (es.getD (i - 1) 0)

/-- The partition's line at physical address `pa` is in the metadata cache of a core's cluster, and its copy is good (R77, 21 R306). -/
def State.lineHeld (s : State) (core part pa : Nat) : Bool :=
  decide (core < 256) && (s.cluster (clusterOf core)).lines.any fun l => l.part == part && l.pa == pa && !l.bad

/-- The lines of a partition leave every metadata cache (13 R217, 25 R346). -/
def State.dropLines (s : State) (part : Nat) : State :=
  (List.range 32).foldl (fun s g =>
    s.setCluster g { s.cluster g with lines := (s.cluster g).lines.filter fun l => l.part != part }) s

/-- A metadata-cache lookup is counted: a hit, or a fetch (23 R336). -/
def State.countLine (s : State) (core : Nat) (hit : Bool) : State :=
  if core < 256 then s.addCounter (if hit then 0x12 else 0x13) (clusterOf core) 1 else s

/-- A fetched line enters the cache of 512 in place of a copy of it; when the cache is full, the oldest leaves. DESIGN CHOICE (log 71). -/
def State.holdLine (s : State) (core part pa : Nat) : State :=
  if core < 256 then
    let c := s.cluster (clusterOf core)
    s.setCluster (clusterOf core) { c with lines := ({ part := part, pa := pa, bad := false } :: c.lines.filter fun l => l.part != part || l.pa != pa).take 512 }
  else s

/-- The 256 bytes of a translated line: from the cache, which is coherent with every write, or fetched whole, where the cache holds no good
copy (21 R306); none when the fetch meets an uncorrectable error (R77). DESIGN CHOICE (log 71). -/
def State.fetchLine (s : State) (ag : Agent) (la : Nat) (ws : List (Where × Nat)) : State × Option (List Byte) :=
  let pa := (ws.map fun w => w.1.pa).headD 0
  let s1 := s.countLine ag.core (s.lineHeld ag.core ag.part pa)
  if s.lineHeld ag.core ag.part pa then
    (s1, some (ws.flatMap fun w => s.viewed ag.view la w.1.pa w.2 ((List.range w.2).map fun i => s.memByte (w.1.pa + i))))
  else
    let r := s1.readPieces ag.view la ws
    match r.2 with
    | .error _ => (r.1, none)
    | .ok bs => (r.1.holdLine ag.core ag.part pa, some bs)

/-- Read and check the whole line of page `p` for a tile of it (R76, R77). A line that cannot be fetched raises reason 0x0F, with
area 6, offset 0 and `side` 0: no entry was read. DEDUCED (log 72). -/
def State.readLine (s : State) (ag : Agent) (p : Nat) (tile : Option Nat) (ctx : TileCtx) :
    State × Except TFault (List Nat) :=
  let la := s.lineAt ag.part p
  if s.agentStalls ag la 256 then (s, .error .stall)
  else
    let t := s.tensorRange ag Need.read la 256 none ctx
    match t.2 with
    | .error e => (t.1, .error e)
    | .ok ws =>
      let r := t.1.fetchLine ag la ws
      match r.2 with
      | none => (r.1, .error (.decode ⟨0x0F, 6, 0⟩ { ctx with recAddr := p % 2 ^ 64, side := 0 }))
      | some bs =>
        let es := lineEntries (leNat bs)
        match lineBadFrom 0 0 none es with
        | some o =>
          let side := (tile.map fun t => es.getD (t % 128) 0).getD 0
          (r.1, .error (.decode ⟨0x0E, 6, o⟩ { ctx with recAddr := p % 2 ^ 64, side := side }))
        | none => (r.1, .ok es)

/-! ## `decode_tile` (R67, R72, R73, R78) -/

/-- A slot of a tensor: its virtual address, its size, whether it is open, and its context. -/
structure SlotAt where
  va : Nat
  n : Nat
  opened : Bool
  ctx : TileCtx
  deriving DecidableEq, Repr

/-- Find the slot of tile `t`: through the sidecar line for a coded tensor. The page's kind is looked at before the line is read,
so that a record of reason 0x15 names the page and has `side` 0. DEDUCED (log 73). -/
def State.findSlot (s : State) (ag : Agent) (d : Desc) (t : Nat) (ctx : TileCtx) : State × Except TFault SlotAt :=
  if d.coded then
    let p := d.page t
    let ctx := { ctx with recAddr := p % 2 ^ 64 }
    let k := s.tensorRange ag Need.read p 1 (some true) ctx
    match k.2 with
    | .error e => (k.1, .error e)
    | .ok _ =>
      let l := k.1.readLine ag p (some t) ctx
      match l.2 with
      | .error e => (l.1, .error e)
      | .ok es =>
        let i := t % 128
        let e := es.getD i 0
        let st := slotStart es i
        (l.1, .ok { va := p + st, n := 16 * entryEnd e - st, opened := entryOpen e,
                    ctx := { ctx with recAddr := (p + st) % 2 ^ 64, side := e } })
  else
    let a := d.plainAt t
    (s, .ok { va := a, n := slotSize d.fmt d.sparsity, opened := false, ctx := { ctx with recAddr := a % 2 ^ 64 } })

/-- `decode_tile` of R138. -/
def State.decodeTile (s : State) (ag : Agent) (ct : Nat → Option CodeTable) (d : Desc) (c : Coord) (path : Nat) :
    State × Except TFault Tile :=
  if !d.touches c then (s, .ok (fillTile d.sparsity d.fill d.fscale))
  else
    let t := d.tileNo c
    let f := s.findSlot ag d t (tileCtx d c path t)
    match f.2 with
    | .error e => (f.1, .error e)
    | .ok sl =>
      if f.1.agentStalls ag sl.va sl.n then (s, .error .stall)
      else
        let r := f.1.tensorRead ag Need.read sl.va sl.n (some d.coded) sl.ctx
        match r.2 with
        | .error e => (r.1, .error e)
        | .ok x =>
          match parseRecord d.fmt d.sparsity sl.opened ct sl.n x with
          | .error e => (r.1, .error (.decode e sl.ctx))
          | .ok rd => (r.1, .ok ((tileOf d.sparsity rd d.fill d.fscale).bound (d.inBounds c)))

/-! ## The encoder (R81) -/

/-- A record: header, scales, metadata, payload. `idx` lists the kept indices of a sparse record, none for a dense one. -/
def recordBitsOf (mode : Nat) (f : Fmt) (idx : List Nat) (slot len : Nat) (scales : List Nat) (stream : Nat) : Nat :=
  len * 2 ^ 11 + (if idx.isEmpty then 0 else 1) * 2 ^ 10 + slot * 2 ^ 6 + fmtCode f * 4 + mode
    + (scales.zipIdx.foldl (fun x e => x + e.1 % 256 * 2 ^ (8 * e.2)) 0) * 2 ^ 32
    + (idx.zipIdx.foldl (fun x e => x + e.1 % 16 * 2 ^ (4 * e.2)) 0) * 2 ^ 96 + stream * 2 ^ (96 + 4 * idx.length)

/-- A dense record. -/
def recordBits (mode : Nat) (f : Fmt) (slot len : Nat) (scales : List Nat) (stream : Nat) : Nat :=
  recordBitsOf mode f [] slot len scales stream

/-- Elements as a raw stream. DEDUCED (log 23). -/
def rawStream (w : Nat) (els : List Nat) : Nat := els.foldr (fun p x => p % 2 ^ w + x * 2 ^ w) 0

/-- The record by the first condition of R81 that holds: its size and bits. -/
def encodeTile (f : Fmt) (sparsity : Nat) (idx : List Nat) (table : Option CodeTable) (slot : Nat) (scales els : List Nat) :
    Nat × Nat :=
  let w := f.width
  let m := metaBytes sparsity
  let raw := (slotSize f sparsity, recordBitsOf 0 f idx 0 (els.length * w) scales (rawStream w els))
  if els.all (· == els.headD 0) then (up16 (12 + m + (w + 7) / 8), recordBitsOf 2 f idx 0 w scales (els.headD 0 % 2 ^ w))
  else
    match table with
    | none => raw
    | some t =>
      if t.tag.toNat ≠ fmtCode f then raw
      else
        match encodeStream t els with
        | none => raw
        | some (st, n) =>
          let size := up16 (12 + m + (n + 7) / 8)
          if size < slotSize f sparsity then (size, recordBitsOf 1 f idx slot n scales st) else raw

/-- The record that a seal writes: dense. -/
def encodeRecord (f : Fmt) (table : Option CodeTable) (slot : Nat) (scales els : List Nat) : Nat × Nat :=
  encodeTile f 0 [] table slot scales els

/-! ## Stores to tiles (R80 to R83, R195) -/

/-- A store to a tile: the rows from `q0`, each as 16 patterns, the eight scale bytes, and whether it seals. -/
structure TileStore where
  q0 : Nat
  rows : List (List Nat)
  scales : List Nat
  seal_ : Bool
  deriving DecidableEq, Repr

/-- The rows with the out-of-bounds positions filled (R195). -/
def TileStore.bounded (st : TileStore) (d : Desc) (c : Coord) : TileStore :=
  { st with rows := st.rows.mapIdx fun r row =>
      row.mapIdx fun k p => if d.inBounds c (16 * (st.q0 + r) + k) then p % 2 ^ d.fmt.width else d.fill }

/-- Row r of a raw record replaced. -/
def putRow (w : Nat) (x r : Nat) (row : List Nat) : Nat :=
  let at_ := 96 + 16 * w * r
  x - nbits x at_ (16 * w) * 2 ^ at_ + rawStream w row * 2 ^ at_

/-- Scale byte b of a record replaced. -/
def putScale (x b v : Nat) : Nat := x - nbits x (32 + 8 * b) 8 * 2 ^ (32 + 8 * b) + v % 256 * 2 ^ (32 + 8 * b)

/-- All rows, and scale byte b wherever row 2b + 1 is among them. -/
def TileStore.apply (st : TileStore) (w x : Nat) : Nat :=
  let y := st.rows.zipIdx.foldl (fun x e => putRow w x (st.q0 + e.2) e.1) x
  (List.range 8).foldl (fun x b =>
    if st.q0 ≤ 2 * b + 1 ∧ 2 * b + 1 < st.q0 + st.rows.length then putScale x b (st.scales.getD b 0) else x) y

/-- The elements and scales of a raw record. -/
def rawElems (w x : Nat) : List Nat := (List.range 256).map fun i => nbits x (96 + i * w) w
def rawScales (x : Nat) : List Nat := (List.range 8).map fun b => nbits x (32 + 8 * b) 8

/-- One write that a store to a tile performs: its address, the translated pieces, the bytes, and the fault when they cannot be
written. -/
structure TileWrite where
  va : Nat
  ws : List (Where × Nat)
  bytes : List Byte
  fail : TFault
  deriving DecidableEq, Repr

/-- The translated write of a number of `n` bytes. -/
def State.planWrite (s : State) (ag : Agent) (va n x : Nat) (coded : Option Bool) (ctx : TileCtx) :
    State × Except TFault TileWrite :=
  let t := s.tensorRange ag Need.write va n coded ctx
  match t.2 with
  | .error e => (t.1, .error e)
  | .ok ws => (t.1, .ok { va := va, ws := ws, bytes := leBytes n x, fail := .memory 1 6 va })

/-- The line of the page at `p` cannot be fetched or written: reason 0x0F, which names the page (R77, 21 R306). -/
def lineLost (p : Nat) (ctx : TileCtx) : TFault := .decode ⟨0x0F, 6, 0⟩ { ctx with recAddr := p % 2 ^ 64, side := 0 }

/-- The translated write of the whole line of the page at `p`. -/
def State.planLine (s : State) (ag : Agent) (p line : Nat) (ctx : TileCtx) : State × Except TFault TileWrite :=
  let w := s.planWrite ag (s.lineAt ag.part p) 256 line none ctx
  match w.2 with
  | .error e => (w.1, .error e)
  | .ok x => (w.1, .ok { x with fail := lineLost p ctx })

/-- What a store to a plain slot writes (R195). DEDUCED (log 23). -/
def State.planPlain (s : State) (ag : Agent) (ct : Nat → Option CodeTable) (d : Desc) (t : Nat) (st : TileStore)
    (ctx : TileCtx) : State × Except TFault (List TileWrite) :=
  let w := d.fmt.width
  let a := d.plainAt t
  let n := slotSize d.fmt 0
  let ctx := { ctx with recAddr := a % 2 ^ 64 }
  let whole := st.rows.length == 16
  let k := s.tensorRange ag { r := !whole, w := true } a n (some false) ctx
  match k.2 with
  | .error e => (k.1, .error e)
  | .ok ws =>
    if k.1.agentStalls ag a n then (s, .error .stall)
    else
      let old := if whole then (k.1, .ok (recordBits 0 d.fmt 0 (256 * w) (List.replicate 8 0) 0))
        else k.1.tensorRead ag Need.read a n (some false) ctx
      match old.2 with
      | .error e => (old.1, .error e)
      | .ok x =>
        if nbits x 0 2 ≠ 0 then (old.1, .error (.decode ⟨0x12, 0, 0⟩ ctx))
        else if nbits x 11 21 ≠ 256 * w then (old.1, .error (.decode ⟨0x12, 0, 11⟩ ctx))
        else
          let y := st.apply w x
          let z := if st.seal_ then (encodeRecord d.fmt (ct d.ctdef) d.ctdef (rawScales y) (rawElems w y)).2 else y
          (old.1, .ok [{ va := a, ws := ws, bytes := leBytes n z, fail := .memory 1 6 a }])

/-- The state of a coded tile's slot (R80). -/
inductive SlotState where
  | sealed_
  | open_ (rows : Nat)
  | lowestEmpty
  | otherEmpty
  deriving DecidableEq, Repr

/-- Rows applied one by one by R80: the rows written afterwards and whether the tile is sealed, or the fault's reason. -/
def applyRows (seal_ : Bool) (room : Bool) : SlotState → List Nat → Except Nat (Nat × Bool)
  | .open_ k, [] => .ok (k, false)
  | _, [] => .ok (0, false)
  | .sealed_, _ :: _ => .error 0x11
  | .otherEmpty, _ :: _ => .error 0x12
  | .lowestEmpty, r :: rs => if r ≠ 0 then .error 0x10 else if !room then .error 0x13 else applyRows seal_ room (.open_ 1) rs
  | .open_ k, r :: rs =>
    if r < k then applyRows seal_ room (.open_ k) rs
    else if r = k ∧ r ≤ 14 then applyRows seal_ room (.open_ (k + 1)) rs
    else if r = k ∧ r = 15 ∧ seal_ then .ok (16, true)
    else .error 0x10

/-- The slot's state in its line. -/
def slotState (es : List Nat) (i : Nat) (rows : Nat) : SlotState :=
  let isEmpty := fun j => !entryOpen (es.getD j 0) && 16 * entryEnd (es.getD j 0) == slotStart es j
  if entryOpen (es.getD i 0) then .open_ rows
  else if !isEmpty i then .sealed_
  else if es.any entryOpen || (List.range i).any isEmpty then .otherEmpty
  else .lowestEmpty

/-- The line after slot `i` takes `end` = e: later entries take the same end (R82). -/
def lineAfter (es : List Nat) (i e : Nat) (opened : Bool) : Nat :=
  (es.mapIdx fun j x => if j < i then x else if j = i then e + (if opened then 32768 else 0) else e).foldr
    (fun h x => h + x * 65536) 0

/-- The indeterminate scale bytes of a freshly opened tile (R79). DEDUCED (log 23). -/
def State.openScales (s : State) : List Nat := (List.range 8).map fun b => Config.openScale (8 * s.choices + b) % 256

/-- What a store to a coded tile writes: every row is checked first, then the record and the line are written together
(R80, R83). The rows of an open slot are its header's `len` divided by 16w, at most 15, whatever else the header says.
DEDUCED (log 23, 74). -/
def State.planCoded (s : State) (ag : Agent) (ct : Nat → Option CodeTable) (d : Desc) (t : Nat) (st : TileStore)
    (ctx : TileCtx) : State × Except TFault (List TileWrite) :=
  let w := d.fmt.width
  let big := slotSize d.fmt 0
  let p := d.page t
  let i := t % 128
  let ctx := { ctx with recAddr := p % 2 ^ 64 }
  let k := s.tensorRange ag Need.write p 1 (some true) ctx
  match k.2 with
  | .error e => (k.1, .error e)
  | .ok _ =>
    let l := k.1.readLine ag p (some t) ctx
    match l.2 with
    | .error e => (l.1, .error e)
    | .ok es =>
      let start := slotStart es i
      let va := p + start
      let ctx := { ctx with recAddr := va % 2 ^ 64, side := es.getD i 0 }
      let room := decide (start + big ≤ 65536)
      let span := min big (65536 - start)
      if l.1.agentStalls ag va span then (s, .error .stall)
      else
        let opened := entryOpen (es.getD i 0)
        let old := if opened then l.1.tensorRead ag Need.read va span (some true) ctx else (l.1, .ok 0)
        match old.2 with
        | .error e => (old.1, .error e)
        | .ok x =>
          let rows := min (nbits x 11 21 / (16 * w)) 15
          match applyRows st.seal_ room (slotState es i rows) ((List.range st.rows.length).map (st.q0 + ·)) with
          | .error r => (old.1, .error (.decode ⟨r, 6, 16 * i⟩ ctx))
          | .ok (k', sealed) =>
            let x0 := if opened then x else recordBits 0 d.fmt 0 0 old.1.openScales 0
            let y := st.apply w x0
            let y := y - nbits y 0 32 + (k' * 16 * w * 2 ^ 11 + fmtCode d.fmt * 4)
            let rec_ := if sealed then encodeRecord d.fmt (ct d.ctdef) d.ctdef (rawScales y) (rawElems w y) else (big, y)
            let wr := old.1.planWrite ag va rec_.1 rec_.2 (some true) ctx
            match wr.2 with
            | .error e => (wr.1, .error e)
            | .ok x =>
              if opened && !sealed then (wr.1, .ok [x])
              else
                let line := lineAfter es i ((start + rec_.1) / 16) (!sealed)
                let lw := wr.1.planLine ag p line ctx
                match lw.2 with
                | .error e => (lw.1, .error e)
                | .ok y => ({ lw.1 with choices := lw.1.choices + 1 }, .ok [x, y])

/-- The context of a fault that the descriptor alone raises, for a store to tile `t`: it names the record and, for a coded tensor, the
tile's entry (R68). A slot that cannot be found leaves the page's or slot's address and `side` 0. DEDUCED (log 73). -/
def State.storeCtx (s : State) (ag : Agent) (d : Desc) (t : Nat) (ctx : TileCtx) : State × Except TFault TileCtx :=
  let f := s.findSlot ag d t ctx
  match f.2 with
  | .ok sl => (f.1, .ok sl.ctx)
  | .error .stall => (s, .error .stall)
  | .error _ => (f.1, .ok { ctx with recAddr := (if d.coded then d.page t else d.plainAt t) % 2 ^ 64 })

/-- What an `STT` or a seal writes to the tile at `c` (R195): nothing to a tile with no in-bounds element. -/
def State.planTile (s : State) (ag : Agent) (ct : Nat → Option CodeTable) (d : Desc) (c : Coord) (st : TileStore) :
    State × Except TFault (List TileWrite) :=
  if !d.touches c then (s, .ok [])
  else
    let t := d.tileNo c
    let ctx := tileCtx d c 3 t
    if d.sparsity ≠ 0 then
      let x := s.storeCtx ag d t ctx
      match x.2 with
      | .error e => (x.1, .error e)
      | .ok x1 => (x.1, .error (.decode ⟨0x14, 5, 5⟩ x1))
    else if d.coded then s.planCoded ag ct d t (st.bounded d c) ctx
    else s.planPlain ag ct d t (st.bounded d c) ctx

/-- All writes of a store by the issuing group, or none when a byte cannot be written. A record with its line becomes visible in one
piece (R83). -/
def State.writeTile (s : State) (xs : List TileWrite) : State × Except TFault Unit :=
  let whole := if xs.length = 2 then some s.past.length else none
  let r := xs.foldl (fun acc x =>
    let w := (acc.1.rememberPieces (.group s.focus) x.va x.ws whole).writePieces x.ws x.bytes
    (w.1, match acc.2 with
      | none => if w.2 then none else some x.fail
      | some e => some e)) (s, none)
  match r.2 with
  | none => (r.1, .ok ())
  | some e => (s, .error e)

/-- A store to a tile. -/
def State.storeTile (s : State) (ag : Agent) (ct : Nat → Option CodeTable) (d : Desc) (c : Coord) (st : TileStore) :
    State × Except TFault Unit :=
  let p := s.planTile ag ct d c st
  match p.2 with
  | .error e => (p.1, .error e)
  | .ok xs => p.1.writeTile xs

/-! ## Values of a tile's elements (03 R40, R78) -/

/-- An element under its block scale (R40). -/
def scaledVal (f : Fmt) (p sc : Nat) : Val := if sc % 256 = 255 then .nan else (value f p).scale ((sc % 256 : Nat) - 127)

/-- The value of element `i` of a tile: out of bounds it is the fill under its own scale. -/
def Tile.val (t : Tile) (f : Fmt) (i : Nat) : Val :=
  if t.oob.getD i false then scaledVal f t.fill t.fscale
  else scaledVal f (t.pats.getD i 0) (t.scales.getD (i / 32) 0)

end Sys2Proof.Machine
end

