-- ==== Sys2Proof/Machine/Tensor.lean ====
section
/-!
DEFINITION. Tensor loads and stores (13 R192 to R197), code-table transfers (15 R243 to R245), `DEC` and `ENC`
(15 R246, R247).
-/
namespace Sys2Proof.Machine

/-! ## Faults of coded accesses -/

/-- A decode-fault record (R68). -/
def decodeRecord (c : DecCode) (x : TileCtx) (pc : Word) : Record :=
  { words := [BitVec.ofNat 64 (c.offset % 2 ^ 32 * 2 ^ 32 + x.path * 2 ^ 19 + c.area * 2 ^ 16 + c.reason * 256 + 3),
              BitVec.ofNat 64 x.desc, BitVec.ofNat 64 x.xy, BitVec.ofNat 64 x.z, BitVec.ofNat 64 x.tile,
              BitVec.ofNat 64 x.recAddr, pc, BitVec.ofNat 64 (x.side % 65536)],
    timeAt := none, job := none }

/-- The record of a fault of an instruction at `pc` with active lanes `act`; none for a stall. -/
def State.codedRecord (s : State) (g : Group) (f : TFault) (space : Nat) (act : List Nat) (pc : Word) : Option Record :=
  match f with
  | .stall => none
  | .memory access reason addr =>
    some (memRecord { lanes := act, access := access, lane := act.headD 0, space := space, reason := reason, addr := addr }
      pc (s.team g.team).grid (s.identOf g) 0)
  | .decode c x => some (decodeRecord c x pc)

/-- The issuing group's coded access does not go on: it waits in `s0`, or parks with its record. -/
def State.codedFault (s0 s : State) (f : TFault) (space : Nat) (act : List Nat) : State :=
  match s.codedRecord s.me f space act s.me.cur with
  | none => s0
  | some r => s.parkFault s.focus [] r

/-! ## Runs of bytes of a group (R243, R247) -/

/-- The cells of [o, o + n) of the team's scratchpad, or the window fault; the scoreboard may stall it. -/
def State.scratchRun (s : State) (g : Group) (access o n : Nat) : Except TFault (List Nat) :=
  match s.scratchAt g o n with
  | .cells ks rs => if rs.any (s.sbHit g.core) then .error .stall else .ok ks
  | _ => .error (.memory access 4 o)

/-- The agent of a group's tensor accesses. -/
def State.groupAgent (s : State) (g : Group) : Agent :=
  { writer := .group (groupKey g.team g.index), core := g.core, part := partOf (s.team g.team).grid, sb := some g.core
    view := s.groupView (groupKey g.team g.index) }

/-- A plain read of `n` bytes as a number: scratchpad when `sp`, virtual memory otherwise. -/
def State.runRead (s : State) (g : Group) (sp : Bool) (access a n : Nat) : State × Except TFault Nat :=
  if sp then
    match s.scratchRun g access a n with
    | .error e => (s, .error e)
    | .ok ks =>
      match s.cellsRead ks with
      | some bs => (s, .ok (leNat bs))
      | none => (s, .error (.memory access 6 a))
  else if s.agentStalls (s.groupAgent g) a n then (s, .error .stall)
  else
    match s.tensorRead (s.groupAgent g) Need.read a n none (descCtx 0 0) with
    | (s1, .error (.memory _ e x)) => (s1, .error (.memory access e x))
    | r => r

/-- A plain write of `n` bytes of a number. -/
def State.runWrite (s : State) (g : Group) (sp : Bool) (a n x : Nat) : State × Except TFault Unit :=
  if sp then
    match s.scratchRun g 1 a n with
    | .error e => (s, .error e)
    | .ok ks => ((s.remember (.group s.focus) none ks).cellsWrite ks (leBytes n x), .ok ())
  else if s.agentStalls (s.groupAgent g) a n then (s, .error .stall)
  else
    let p := s.planWrite (s.groupAgent g) a n x none (descCtx 1 0)
    match p.2 with
    | .error e => (p.1, .error e)
    | .ok w => p.1.writeTile [w]

/-- The `space` code of an access to scratchpad or virtual memory. -/
def runSpace (sp : Bool) : Nat := if sp then 1 else 4

/-! ## Tile images (R193) -/

/-- Sub-elements of a lane for a tile image: 8, 4 or 16 (R39). -/
def perLane (f : Fmt) : Nat := 64 / f.cell

/-- The flat index of element `e` = 16 × row + col in a tile image. -/
def flatIndex (f : Fmt) (hi : Bool) (e : Nat) : Nat := if hi && f.width == 4 then 256 + e else e

/-- Register offset, lane and sub-element of a flat index. -/
def spotOf (m i : Nat) : Nat × Nat × Nat := (i / (32 * m), i % (32 * m) / m, i % m)

/-- What the elements of a run put into one lane of one register: the bits and their mask. -/
def laneImage (f : Fmt) (hi : Bool) (es : List (Nat × Nat)) (r l : Nat) : Word × Word :=
  let m := perLane f
  let c := f.cell
  es.foldl (fun acc e =>
    let i := flatIndex f hi e.1
    if spotOf m i = (r, l, i % m) then (put acc.1 (i % m) c e.2, put acc.2 (i % m) c (2 ^ c - 1)) else acc) (0, 0)

/-- Writes of a register image: each lane of `n` registers from `d` that some element reaches. -/
def Group.writeImage (g : Group) (la : Nat) (d : Opd) (f : Fmt) (hi : Bool) (n : Nat) (es : List (Nat × Nat)) : Group :=
  (List.range n).foldl (fun g r => lanes.foldl (fun g l =>
    let w := laneImage f hi es r l
    if w.2 = 0 then g else g.later la (d.plus r) l w.1 w.2) g) g

/-- Element `e` of the tile image at `d` (R193). -/
def Group.imageElem (g : Group) (d : Opd) (f : Fmt) (hi : Bool) (e : Nat) : Nat :=
  let p := spotOf (perLane f) (flatIndex f hi e)
  elem (g.rd (d.plus p.1) p.2.1) p.2.2 f.cell

/-- Registers of a tile image. -/
def imageRegs (f : Fmt) : Nat := if f.width = 16 then 2 else 1

/-- The word whose byte b is scale b. -/
def scaleWord (scales : List Nat) : Word := (List.range 8).foldl (fun w b => put w b 8 (scales.getD b 0)) 0

/-- The team's code-table slots (R63). -/
def Team.table (t : Team) (n : Nat) : Option CodeTable := kget none t.ct n

/-! ## The tile that an instruction names (R192, R231) -/

/-- The fault context with the coordinates of the tile. -/
def TFault.atTile (f : TFault) (xy z : Word) : TFault :=
  match f with
  | .decode c x => .decode c { x with xy := xy.toNat, z := z.toNat }
  | _ => f

/-- The descriptor at `addr` for a tile named by (x, y) and (z1, z2). -/
def State.tileDesc (s : State) (g : Group) (addr xy z : Word) (path : Nat) : State × Except TFault Desc :=
  let r := s.readDesc (s.groupAgent g) (s.grid (s.team g.team).grid).bindings addr path
  match r.2 with
  | .error e => (r.1, .error (e.atTile xy z))
  | .ok d => (r.1, .ok d)

/-- A `.bsp` tile: the record of tile `t` in the scratchpad slots from `o` (R231). -/
def State.slotTile (s : State) (g : Group) (o t : Nat) (f : Fmt) (sp path : Nat) : State × Except TFault Tile :=
  let n := slotSize f sp
  let a := o + t * n
  let ctx : TileCtx := { path := path, desc := 0, xy := t, z := 0, tile := t,
                         recAddr := (s.team g.team).spbaseOn g.core + a, side := 0 }
  let r := s.runRead g true 4 a n
  match r.2 with
  | .error e => (r.1, .error e)
  | .ok x =>
    match parseRecord f sp false (s.team g.team).table n x with
    | .error e => (r.1, .error (.decode e ctx))
    | .ok rd => (r.1, .ok (tileOf sp rd 0 0))

/-! ## `LDT` (R194) -/

/-- The pattern that `LDT` places for element `e`. -/
def Tile.loaded (t : Tile) (e : Nat) : Nat :=
  if t.oob.getD e false || t.kept.getD e false then t.pats.getD e 0 else 0

/-- The rows q0 to q0 + count − 1 of a tile, and its scales, in the registers. -/
def Group.putTile (g : Group) (la : Nat) (d : Opd) (x : Opd) (f : Fmt) (hi : Bool) (q0 n : Nat) (t : Tile) : Group :=
  let es := (List.range (16 * n)).map fun k => (16 * q0 + k, t.loaded (16 * q0 + k))
  (g.writeImage la d f hi (imageRegs f) es).later la (x.plus 2) 0 (scaleWord t.scales) (BitVec.allOnes 64)

def execLdt (g : Guard) (hi : Bool) (q0 cnt : Fin 16) (_sc : Scope) (la : Fin 16) (d : Opd) (base x : Src) (s : State) :
    Out :=
  .next (s.groupLevel anyRole g [d, base.r, x.r] fun act s1 =>
    let grp := s1.me
    let xy := grp.rdGroup x.r act
    let z := grp.rdGroup (x.r.plus 1) act
    let dr := s1.tileDesc grp (grp.rdGroup base.r act) xy z 2
    match dr.2 with
    | .error e => s.codedFault dr.1 e 5 act
    | .ok desc =>
      if !grp.hasRun d (imageRegs desc.fmt) then s1.trap .illegalOperand
      else
        let t := dr.1.decodeTile (s1.groupAgent grp) s1.myTeam.table desc (coordOf xy z) 2
        match t.2 with
        | .error e => s.codedFault t.1 e 5 act
        | .ok tile => t.1.setMe (grp.putTile la.val d x.r desc.fmt hi q0.val (cnt.val + 1) tile).next)

/-! ## `PREF.t` (13 R198) -/

/-- The sidecar line of the page of a coded tile, if a prefetch of it finds one: where it lies. It never faults, and does not stall on the
scoreboard. -/
def State.prefLine (s : State) (ag : Agent) (binds : List (Nat × Word)) (addr : Word) (c : Coord) : Option Nat :=
  match (s.readDesc ag binds addr 2).2 with
  | .error _ => none
  | .ok d =>
    if d.coded && d.touches c then
      let la := s.lineAt ag.part (d.page (d.tileNo c))
      match (s.tensorRange ag Need.read la 256 none (descCtx 2 addr.toNat)).2 with
      | .error _ => none
      | .ok ws => (s.fetchLine ag la ws).2.map fun _ => (ws.map fun w => w.1.pa).headD 0
    else none

/-- The line enters the metadata cache of the group's cluster, which is all that a prefetch does. DESIGN CHOICE (log 71). -/
def State.prefetch (s : State) (g : Group) (addr : Word) (c : Coord) : State :=
  let ag := { s.groupAgent g with sb := none }
  match s.prefLine ag (s.grid (s.team g.team).grid).bindings addr c with
  | none => s
  | some pa => if s.lineHeld ag.core ag.part pa then s else s.holdLine ag.core ag.part pa

/-- `PREF.t`: the count is added to the tile x. -/
def execPrefT (g : Guard) (_sc : Scope) (base x : Src) (k : BitVec 11) (s : State) : Out :=
  .next (s.groupLevel anyRole g [base.r, x.r] fun act s1 =>
    let grp := s1.me
    let c := coordOf (grp.rdGroup x.r act) (grp.rdGroup (x.r.plus 1) act)
    (s1.prefetch grp (grp.rdGroup base.r act) { c with x := signed 32 (unsigned 32 (c.x + k.toInt)) }).setMe
      (grp.marks act [base, x]).next)

/-! ## `STT` (R195) -/

/-- What an `STT` stores: its rows of the tile image, read in every lane, and its scales. -/
def Group.tileStore (g : Group) (d x : Opd) (f : Fmt) (hi : Bool) (q0 n : Nat) (sealing : Bool) : TileStore :=
  { q0 := q0
    rows := (List.range n).map fun r => (List.range 16).map fun c => g.imageElem d f hi (16 * (q0 + r) + c)
    scales := (List.range 8).map fun b => elem (g.rd (x.plus 2) 0) b 8
    seal_ := sealing }

/-- `STT`, with or without `.seal`. -/
def State.storeTensor (s : State) (g : Guard) (hi : Bool) (q0 n : Nat) (d : Opd) (base x : Src) (sealing : Bool) : State :=
  s.groupLevel anyRole g [d, base.r, x.r] fun act s1 =>
    let grp := s1.me
    let xy := grp.rdGroup x.r act
    let z := grp.rdGroup (x.r.plus 1) act
    let dr := s1.tileDesc grp (grp.rdGroup base.r act) xy z 3
    match dr.2 with
    | .error e => s.codedFault dr.1 e 5 act
    | .ok desc =>
      if !grp.hasRun d (imageRegs desc.fmt) then s1.trap .illegalOperand
      else
        let st := grp.tileStore d x.r desc.fmt hi q0 n sealing
        let w := dr.1.storeTile (s1.groupAgent grp) s1.myTeam.table desc (coordOf xy z) st
        match w.2 with
        | .error e => s.codedFault w.1 e 5 act
        | .ok _ => w.1.commit

def execStt (g : Guard) (hi : Bool) (q0 cnt : Fin 16) (_sc : Scope) (d : Opd) (base x : Src) (s : State) : Out :=
  .next (s.storeTensor g hi q0.val (cnt.val + 1) d base x false)
def execSttSeal (g : Guard) (hi : Bool) (q0 cnt : Fin 16) (_sc : Scope) (d : Opd) (base x : Src) (s : State) : Out :=
  .next (s.storeTensor g hi q0.val (cnt.val + 1) d base x true)

/-! ## `CTLD` and `CTST` (R63, R64, R243 to R245) -/

/-- The head of an image: tag halfword and counts. -/
def imageCounts (x : Nat) : List Nat := (List.range 12).map fun k => nbits x (16 + 16 * k) 16

/-- Σ count[l] × 2^(12 − l). -/
def kraftSum (counts : List Nat) : Nat := counts.zipIdx.foldl (fun n e => n + e.1 * 2 ^ (11 - e.2)) 0

/-- Checks 0x01 to 0x03: reason and `kraft` field. -/
def headBad (x : Nat) : Option (Nat × Nat) :=
  if nbits x 4 12 ≠ 0 then some (1, 0)
  else if 10 < nbits x 0 4 then some (2, 0)
  else if kraftSum (imageCounts x) ≠ 4096 then some (3, kraftSum (imageCounts x))
  else none

/-- The first symbol equal to an earlier one. -/
def repeatedAt : Nat → List Nat → List Nat → Option Nat
  | _, _, [] => none
  | n, seen, y :: ys => if seen.contains y then some n else repeatedAt (n + 1) (y :: seen) ys

/-- Checks 0x04 and 0x05: reason and `index` field. -/
def symsBad (w : Nat) (syms : List Nat) : Option (Nat × Nat) :=
  match syms.findIdx? fun y => decide (2 ^ w ≤ y) with
  | some n => some (4, n)
  | none => (repeatedAt 0 [] syms).map fun n => (5, n)

/-- A code-table fault record (R244). -/
def tableRecord (slot : Nat) (sp : Bool) (reason index kraft : Nat) (image pc : Word) : Record :=
  { words := [BitVec.ofNat 64 (index % 2 ^ 32 * 2 ^ 32 + slot * 2 ^ 20 + (if sp then 2 ^ 19 else 0) + reason * 256 + 4),
              image, BitVec.ofNat 64 kraft, pc, 0, 0, 0, 0], timeAt := none, job := none }

/-- The number of symbols. -/
def symCount (counts : List Nat) : Nat := natSum counts

def execCtld (g : Guard) (sp : Bool) (slot : Fin 16) (a : Opd) (s : State) : Out :=
  .next (s.groupLevel (fun r => r == .general || r == .matrix) g [a] fun act s1 =>
    let grp := s1.me
    let image := grp.rdGroup a act
    let at_ := image.toNat
    let bad := fun (x : State) reason index kraft =>
      x.parkFault s1.focus [] (tableRecord slot.val sp reason index kraft image grp.cur)
    if at_ % 16 ≠ 0 then s.codedFault s1 (.memory 0 5 at_) (runSpace sp) act
    else
      let h := s1.runRead grp sp 0 at_ 26
      match h.2 with
      | .error e => s.codedFault h.1 e (runSpace sp) act
      | .ok x =>
        match headBad x with
        | some (r, k) => bad h.1 r 0 k
        | none =>
          let n := symCount (imageCounts x)
          let b := h.1.runRead grp sp 0 (at_ + 26) (2 * n)
          match b.2 with
          | .error e => s.codedFault b.1 e (runSpace sp) act
          | .ok y =>
            let syms := (List.range n).map fun k => nbits y (16 * k) 16
            let tag := nbits x 0 4
            match symsBad (((fmtOf tag).map Fmt.width).getD 0) syms with
            | some (r, i) => bad b.1 r i 0
            | none =>
              let t := s1.myTeam
              let c : CodeTable := { tag := BitVec.ofNat 16 tag, counts := imageCounts x, syms := syms }
              (b.1.setTeam grp.team { t with ct := kset none t.ct slot.val (some c) }).commit)

/-- The image of a code table as a number (R63). -/
def CodeTable.image (c : CodeTable) : Nat :=
  let halves := c.tag.toNat :: c.counts ++ c.syms
  halves.foldr (fun h x => h % 65536 + x * 65536) 0

def execCtst (g : Guard) (sp : Bool) (slot : Fin 16) (d a : Opd) (s : State) : Out :=
  .next (s.groupLevel (fun r => r == .general || r == .matrix) g [d, a] fun act s1 =>
    let grp := s1.me
    let at_ := (grp.rdGroup a act).toNat
    if at_ % 16 ≠ 0 then s.codedFault s1 (.memory 1 5 at_) (runSpace sp) act
    else
      match s1.myTeam.table slot.val with
      | none => s1.setMe (grp.wr d act fun _ => 0).next
      | some c =>
        let n := 26 + 2 * c.syms.length
        let w := s1.runWrite grp sp at_ n c.image
        match w.2 with
        | .error e => s.codedFault w.1 e (runSpace sp) act
        | .ok _ => w.1.setMe (w.1.me.wr d act fun _ => BitVec.ofNat 64 n).next)

/-! ## `DEC` (R246) -/

def decFmt : DecDst → Fmt
  | .f32 => .f32 | .f16 => .f16 | .bf16 => .bf16

/-- Registers of `DEC`'s destination. -/
def decRegs : DecDst → Nat
  | .f32 => 4
  | _ => 2

/-- The value of element `i` of a decoded tile: +0 where it is not kept (R246). -/
def Tile.decoded (t : Tile) (f : Fmt) (i : Nat) : Val :=
  if t.oob.getD i false || t.kept.getD i false then t.val f i else .fin false 0 0

/-- `DEC` writes the rounded values in all 32 lanes, with the flags of every rounding. -/
def Group.putDecoded (g : Group) (la : Nat) (d : Opd) (dst : DecDst) (sat : Bool) (f : Fmt) (t : Tile) : Group :=
  let rs := (List.range 256).map fun i => roundTo (decFmt dst) (t.decoded f i) .rn sat
  let es := rs.zipIdx.map fun r => (r.2, r.1.1)
  (g.writeImage la d (decFmt dst) false (decRegs dst) es).orFlags (rs.foldl (fun m r => m ||| r.2) 0)

/-- The c register of `DEC.bsp`: format and sparsity, or none for a reserved value. -/
def decFormat (c : Word) : Option (Fmt × Nat) :=
  if c.toNat / 128 ≠ 0 ∨ 4 < nbits c.toNat 4 3 then none else (fmtOf (nbits c.toNat 0 4)).map fun f => (f, nbits c.toNat 4 3)

/-- A scratchpad offset in [18:0], a multiple of 16, every other bit 0 (R227, R247). -/
def offsetOk (o : Word) : Bool := decide (o.toNat < 2 ^ 19) && o.toNat % 16 == 0

/-- The tile that `DEC` names, with its format; the illegal operand when `none` stands before it. -/
def State.decSource (s : State) (g : Group) (bt : Bool) (b c : Opd) (act : List Nat) :
    Option (State × Except TFault (Tile × Fmt)) :=
  let bv := g.rdGroup b act
  if bt then
    let xy := g.rdGroup (b.plus 1) act
    let z := g.rdGroup (b.plus 2) act
    let dr := s.tileDesc g bv xy z 1
    match dr.2 with
    | .error e => some (dr.1, .error e)
    | .ok desc =>
      let t := dr.1.decodeTile (s.groupAgent g) (s.team g.team).table desc (coordOf xy z) 1
      match t.2 with
      | .error e => some (t.1, .error e)
      | .ok tile => some (t.1, .ok (tile, desc.fmt))
  else
    match decFormat (g.rdGroup c act) with
    | none => none
    | some (f, sp) =>
      if !offsetOk bv then none
      else
        let t := s.slotTile g bv.toNat 0 f sp 1
        match t.2 with
        | .error e => some (t.1, .error e)
        | .ok tile => some (t.1, .ok (tile, f))

def execDec (g : Guard) (dst : DecDst) (sat bt : Bool) (la : Fin 16) (d b c : Opd) (s : State) : Out :=
  .next (s.groupRun (fun r => r == .general || r == .matrix) g [d, b, c] [(d, decRegs dst)] fun act s1 =>
    let grp := s1.me
    match s1.decSource grp bt b c act with
    | none => s1.trap .illegalOperand
    | some (s2, .error e) => s.codedFault s2 e (if bt then 5 else 1) act
    | some (s2, .ok (tile, f)) => s2.setMe (grp.putDecoded la.val d dst sat f tile).next)

/-! ## `ENC` (R247) -/

/-- A saturating 32-bit counter (R56). -/
def satAdd (c : BitVec 32) (n : Nat) : BitVec 32 := BitVec.ofNat 32 (min (c.toNat + n) 0xFFFFFFFF)

/-- Element `i` of `ENC`'s source under its block scale, rounded to the format. -/
def Group.encElem (g : Group) (a : Opd) (f : Fmt) (scales : Word) (i : Nat) : Nat × BitVec 32 :=
  let x := value .f32 (elem (g.rd (a.plus (i / 64)) (i % 64 / 2)) (i % 2) 32)
  let sc := elem scales (i / 32) 8
  roundTo f (if sc = 255 then .nan else x.scale (127 - (sc : Int))) .rn false

def execEnc (g : Guard) (fmt : Fmt) (slot : Fin 16) (la : Fin 16) (d a b c : Opd) (s : State) : Out :=
  .next (s.groupRun (fun r => r == .general || r == .matrix) g [d, a, b, c] [(a, 4)] fun act s1 =>
    let grp := s1.me
    let o := grp.rdGroup b act
    if !offsetOk o then s1.trap .illegalOperand
    else
      let sc := grp.rdGroup c act
      let rs := (List.range 256).map (grp.encElem a fmt sc)
      let r := encodeRecord fmt (s1.myTeam.table slot.val) slot.val ((List.range 8).map fun k => elem sc k 8) (rs.map (·.1))
      match s1.scratchRun grp 1 o.toNat (slotSize fmt 0) with
      | .error e => s.codedFault s1 e 1 act
      | .ok ks =>
        let s2 := (s1.remember (.group s1.focus) none ks).cellsWrite ks (leBytes (slotSize fmt 0) r.2)
        let sats := (rs.filter fun e => e.2 &&& FLAG.saturated != 0).length
        let h := { grp.orFlags (rs.foldl (fun m e => m ||| e.2) 0) with satcnt := satAdd grp.satcnt sats }
        s2.setMe ((match d with
          | .v _ => act.foldl (fun (x : Group) l => x.later la.val d l (BitVec.ofNat 64 r.1) (BitVec.allOnes 64)) h
          | _ => h.later la.val d (act.headD 0) (BitVec.ofNat 64 r.1) (BitVec.allOnes 64)).next))

end Sys2Proof.Machine
end

