-- ==== Sys2Proof/Machine/Matrix.lean ====
section
/-!
DEFINITION. The matrix engine: gangs, `MMA` and its two points, accumulator transfers and split-K merges
(15 R222 to R242, 03 R47 to R52, 07 R101, R102).
-/
namespace Sys2Proof.Machine

/-! ## The accumulator store (R222, R223) -/

/-- Poison of the accumulator store (07 R102). -/
def accPoison : BitVec 32 := 0x7FF85A5A

/-- The key of element `idx` of a half on a team's core. -/
def accKey (t : Team) (core half idx : Nat) : Nat := (core - t.core) * 32768 + half * 16384 + idx

def Team.accAt (t : Team) (k : Nat) : BitVec 32 := kget accPoison t.acc k

def Team.setAcc (t : Team) (k : Nat) (x : BitVec 32) : Team := { t with acc := kset accPoison t.acc k x }

/-- An accumulator address word (R223). -/
structure AccAddr where
  cnt : Nat
  stride : Nat
  half : Nat
  idx : Nat
  deriving DecidableEq, Repr

/-- The address word of a team that holds its half; `none` where R222 or R223 raises the trap. -/
def Team.accAddr (t : Team) (w : Word) : Option AccAddr :=
  let x := w.toNat
  let a : AccAddr := { cnt := nbits x 32 4, stride := nbits x 16 14, half := nbits x 14 1, idx := nbits x 0 14 }
  if nbits x 36 28 ≠ 0 ∨ nbits x 30 2 ≠ 0 ∨ nbits x 15 1 ≠ 0 ∨ 16383 < a.idx + a.stride * 31 + a.cnt ∨ t.halves ≤ a.half
  then none else some a

/-- The key of element j of lane l. -/
def AccAddr.key (a : AccAddr) (t : Team) (core l j : Nat) : Nat := accKey t core a.half (a.idx + a.stride * l + j)

/-! ## The arithmetic of one element (03 R47 to R50) -/

/-- A pattern that holds an F32 NaN. DEDUCED (log 18). -/
def isNan32 (x : BitVec 32) : Bool := decide (0x7F800000 < (x &&& 0x7FFFFFFF).toNat)

/-- `round_f32(c × acc)` of mode `.s` and `ACCSCL` (R233, R238). -/
def scaleStep (c acc : BitVec 32) : BitVec 32 × BitVec 32 :=
  let r := mulRound .f32 (value .f32 c.toNat) (value .f32 acc.toNat) .rn false
  (BitVec.ofNat 32 r.1, r.2)

/-- One step of R47 with the special values of R50. -/
def floatStep (acc : BitVec 32) (a b : Val) : BitVec 32 × BitVec 32 :=
  let r := fmaRound .f32 a b (value .f32 acc.toNat) .rn false
  (BitVec.ofNat 32 r.1, r.2)

/-- One step of R49. -/
def intStep (acc : BitVec 32) (a b : Int) : BitVec 32 × BitVec 32 :=
  let t := acc.toInt + a * b
  (BitVec.ofInt 32 t, if t < -2 ^ 31 ∨ 2 ^ 31 - 1 < t then FLAG.overflow else 0)

/-- Fields of the format word (R228). -/
def fwAfmt (fw : BitVec 32) : Nat := nbits fw.toNat 0 4
def fwBfmt (fw : BitVec 32) : Nat := nbits fw.toNat 4 4
def fwAscl (fw : BitVec 32) : Bool := fw.getLsbD 8
def fwBscl (fw : BitVec 32) : Bool := fw.getLsbD 9
def fwSp (fw : BitVec 32) : Nat := nbits fw.toNat 10 3
def fwInt (fw : BitVec 32) : Bool := fw.getLsbD 13
def fwHalf (fw : BitVec 32) : Nat := nbits fw.toNat 14 1
def fwOrient (fw : BitVec 32) : Bool := fw.getLsbD 15
def fwTiles (fw : BitVec 32) : Nat := nbits fw.toNat 16 3 + 1
def fwBase (fw : BitVec 32) : Nat := nbits fw.toNat 20 10

/-- A format of a valid format word. -/
def fmtAt (code : Nat) : Fmt := (fmtOf code).getD .e2m1

/-- Registers that hold a row of A, its scale apart (R230). -/
def rowRegs (f : Fmt) : Nat := 16 / perLane f

/-- Pattern k of a row of A (R230). -/
def rowElem (f : Fmt) (ws : List Word) (k : Nat) : Nat := elem (ws.getD (k / perLane f) 0) (k % perLane f) f.cell

/-- The row's scale byte. -/
def rowScale (f : Fmt) (ascl : Bool) (ws : List Word) : Nat := if ascl then (ws.getD (rowRegs f) 0).toNat % 256 else 127

/-- The integer that a pattern of an integer format stands for. -/
def intPat (f : Fmt) (p : Nat) : Int := signed f.width p

/-- The value of one target element after the `MMA`, and its flags (R233). -/
def mmaElem (fw : BitVec 32) (mode : MmaMode) (scalar : BitVec 32) (a : List Word) (col : List BElem) (old : BitVec 32) :
    BitVec 32 × BitVec 32 :=
  let fa := fmtAt (fwAfmt fw)
  let fb := fmtAt (fwBfmt fw)
  let start : BitVec 32 × BitVec 32 :=
    match mode with
    | .z => (0, 0)
    | .a => (old, 0)
    | .s => scaleStep scalar old
  col.foldl (fun acc e =>
    let r :=
      if fwInt fw then intStep acc.1 (intPat fa (rowElem fa a e.k)) (intPat fb e.pat)
      else floatStep acc.1 (scaledVal fa (rowElem fa a e.k) (rowScale fa (fwAscl fw) a)) (scaledVal fb e.pat e.scale)
    (r.1, acc.2 ||| r.2)) start

/-- The columns that a row's core read. -/
def MmaOp.colsOf (o : MmaOp) (core : Nat) : List (List BElem) := ((o.cols.find? fun e => e.1 == core).map (·.2)).getD []

/-- The row that targets an element, with the column. -/
def MmaOp.target (o : MmaOp) (k : Nat) : Option (MmaRow × List BElem) :=
  o.rows.findSome? fun r =>
    if r.base ≤ k then ((o.colsOf r.core)[k - r.base]?).map fun c => (r, c) else none

/-- What the `MMA` makes of `old` in an element of a row, with its flags. -/
def MmaOp.run (o : MmaOp) (r : MmaRow) (col : List BElem) (old : BitVec 32) : BitVec 32 × BitVec 32 :=
  mmaElem o.fw o.mode o.scalar r.a col old

/-- What the `MMA` makes of `old` in element `k`, if it targets it. -/
def MmaOp.after (o : MmaOp) (k : Nat) (old : BitVec 32) : Option (BitVec 32) :=
  (o.target k).map fun e => (o.run e.1 e.2 old).1

/-- An element that an `MMA` targets: its key, its row and its column. -/
structure Target where
  elem : Nat
  row : MmaRow
  col : List BElem
  deriving DecidableEq, Repr

/-- The elements that an `MMA` targets, row by row. -/
def MmaOp.targets (o : MmaOp) : List Target :=
  o.rows.flatMap fun r => (o.colsOf r.core).mapIdx fun j c => { elem := r.base + j, row := r, col := c }

/-! ## Touches before `MMAW` (07 R102, R236) -/

/-- The value that a list gives an element, the last one where it gives several; `v` where it gives none. -/
def lastIn (vals : List (Nat × BitVec 32)) (k : Nat) (v : BitVec 32) : BitVec 32 :=
  ((vals.reverse.find? fun e => e.1 == k).map (·.2)).getD v

/-- The value from which a later instruction of one of the gang's groups took element `k`, if one has. -/
def MmaOp.touchedFrom (o : MmaOp) (k : Nat) : Option (BitVec 32) := (o.touched.find? fun e => e.1 == k).map (·.2)

/-- A later instruction of one of the gang's groups has touched element `k`. -/
def MmaOp.isTouched (o : MmaOp) (k : Nat) : Bool := o.touched.any fun e => e.1 == k

/-- The values that element `k` takes one after another, from `v` on, as the operations of group `g` that it has not waited for
act on it: one for each `MMA` that no touch replaced. DESIGN CHOICE (log 13). -/
def stages (g k : Nat) : BitVec 32 → List AccOp → List (BitVec 32)
  | _, [] => []
  | v, o :: r =>
    match o with
    | .mma m | .settled m =>
      if m.groups.contains g && !m.isTouched k then
        match m.after k v with
        | some x => x :: stages g k x r
        | none => stages g k v r
      else stages g k v r
    | .folded m vals => stages g k (if m.group = g then lastIn vals k v else v) r
    | _ => stages g k v r

/-- The element's value once every such operation has acted on `v`. DESIGN CHOICE (log 13). -/
def afterAll (ops : List AccOp) (g k : Nat) (v : BitVec 32) : BitVec 32 :=
  ops.foldl (fun v p =>
    match p with
    | .mma m | .settled m => if m.groups.contains g && !m.isTouched k then (m.after k v).getD v else v
    | .folded m vals => if m.group = g then lastIn vals k v else v
    | _ => v) v

/-- What the newest of those operations makes of the element: one that a touch has overtaken acts on the value from which it was taken, a
placed one has made its value, and any other acts on what those before it make of `v`. DESIGN CHOICE (log 13). -/
def newestValue (ops : List AccOp) (g k : Nat) (v : BitVec 32) : BitVec 32 :=
  (ops.foldl (fun (x : BitVec 32 × BitVec 32) p =>
    match p with
    | .mma m | .settled m =>
      if m.groups.contains g then
        match m.touchedFrom k with
        | some old => (x.1, (m.after k old).getD x.2)
        | none =>
          match m.after k x.1 with
          | some y => (y, y)
          | none => x
      else x
    | .applied gs _ new => if gs.contains g then (x.1, lastIn new k x.2) else x
    | .folded m vals => if m.group = g then (lastIn vals k x.1, x.2) else x
    | .merge _ => x) (v, v)).2

/-- Group `g` (its key) took part in an `MMA` on element `k` that it has not waited for. -/
def AccOp.covers (o : AccOp) (g k : Nat) : Bool :=
  match o with
  | .mma m | .settled m => m.groups.contains g && (m.target k).isSome
  | .applied gs old _ => gs.contains g && old.any fun e => e.1 == k
  | .merge _ | .folded _ _ => false

/-- Values that the element had before placed `MMA`s which the group has not waited for. DESIGN CHOICE (log 13). -/
def placedOld (ops : List AccOp) (g k : Nat) : List (BitVec 32) :=
  ops.filterMap fun o =>
    match o with
    | .applied gs old _ => if gs.contains g then (old.find? fun e => e.1 == k).map (·.2) else none
    | _ => none

/-- One member of a list of outcomes, by the free choice `c`. DESIGN CHOICE (log 13). -/
def pickFrom (c : Nat) (x : BitVec 32) (xs : List (BitVec 32)) : BitVec 32 :=
  (x :: xs).getD (Config.choice c % (xs.length + 1)) x

/-- A read of a target element by `ACCST`, `ACCLD.out` or `ACCMERGE`: its value before or after each `MMA` that the group has not
waited for, or poison; and the next choice. DESIGN CHOICE (log 13). -/
def Team.touchRead (t : Team) (g : Nat) (c : Nat) (k : Nat) : BitVec 32 × Nat :=
  let now := t.accAt k
  if t.ops.any fun o => o.covers g k then
    (pickFrom c now (stages g k now t.ops ++ accPoison :: placedOld t.ops g k), c + 1)
  else (now, c)

/-- Every `MMA` of group `g` on element `k` that is not placed has been overtaken by a touch. -/
def markTouched (g k : Nat) : BitVec 32 → List AccOp → List AccOp
  | _, [] => []
  | old, o :: r =>
    let mark := fun (m : MmaOp) (f : MmaOp → AccOp) =>
      if m.groups.contains g && !m.isTouched k then
        match m.after k old with
        | some x => f { m with touched := m.touched ++ [(k, old)] } :: markTouched g k x r
        | none => o :: markTouched g k old r
      else o :: markTouched g k old r
    match o with
    | .mma m => mark m .mma
    | .settled m => mark m .settled
    | .folded m vals => o :: markTouched g k (if m.group = g then lastIn vals k old else old) r
    | _ => o :: markTouched g k old r

/-- A write of a target element by `ACCZ`, `ACCLD.in` or `ACCSCL`: it ends as the touch's value, the `MMA`'s value or poison, at a
second touch too. DESIGN CHOICE (log 13). -/
def Team.touchWrite (t : Team) (g : Nat) (c : Nat) (k : Nat) (x : BitVec 32) : Team × Nat :=
  if t.ops.any fun o => o.covers g k then
    let now := t.accAt k
    ({ t with ops := markTouched g k now t.ops }.setAcc k (pickFrom c x [newestValue t.ops g k now, accPoison]), c + 1)
  else (t.setAcc k x, c)

/-! ## The order of read-modify-writes by different groups (R236) -/

/-- Read-modify-writes have left `vals`: an `ACCMERGE` that is not folded acts after them. DESIGN CHOICE (log 76). -/
def rebase (vals : List (Nat × BitVec 32)) (ops : List AccOp) : List AccOp :=
  ops.map fun o =>
    match o with
    | .merge m => .merge { m with elems := m.elems.map fun e => (e.1, lastIn vals e.1 e.2) }
    | o => o

/-- The `ACCMERGE`s that folded no later than step `upto` have no more to write in element `k`. -/
def forget (upto k : Nat) (ops : List AccOp) : List AccOp :=
  ops.map fun o =>
    match o with
    | .folded m vals => if m.folded ≤ upto then .folded m (vals.filter fun e => e.1 != k) else o
    | o => o

/-- The write of element `k` by a folded `ACCMERGE`: an element on which an `MMA` of the group was in flight takes one member of
07 R102's set. What folded before it on the element has acted before it. DESIGN CHOICE (log 13, 76). -/
def Team.placeFold (t : Team) (tick : Nat) (o : MergeOp) (vals : List (Nat × BitVec 32)) (k : Nat) : Team :=
  if vals.any fun e => e.1 == k then
    let x := lastIn vals k 0
    let y := match o.hits.find? fun e => e.1 == k with
      | some e => memberOf [tick, k] x [x, e.2, accPoison]
      | none => x
    { t with ops := forget o.folded k t.ops }.setAcc k y
  else t

/-- The folded `ACCMERGE` that has still to write element `k`, the last folded of several. -/
def lastFold (ops : List AccOp) (k : Nat) : Option (MergeOp × List (Nat × BitVec 32)) :=
  ops.foldl (fun b o =>
    match o with
    | .folded m vals =>
      if (vals.any fun e => e.1 == k) && (b.map fun x => decide (x.1.folded ≤ m.folded)).getD true then some (m, vals) else b
    | _ => b) none

/-- A read-modify-write of element `k` is about to act: it acts after every folded `ACCMERGE` on the element, whose write is placed now
and not only at its group's `MMAW`. DESIGN CHOICE (log 76). -/
def Team.settle (t : Team) (tick k : Nat) : Team :=
  match lastFold t.ops k with
  | some x => t.placeFold tick x.1 x.2 k
  | none => t

/-- Some elements settled. -/
def Team.settleAll (t : Team) (tick : Nat) (ks : List Nat) : Team := ks.eraseDups.foldl (fun t k => t.settle tick k) t

/-! ## `GANGSET` (R225, R226) -/

/-- The listed group indices. -/
def gangList (w : Word) : List Nat := (List.range (nbits w.toNat 32 3)).map fun k => nbits w.toNat (5 * k) 5

/-- Strictly ascending. -/
def ascending : List Nat → Bool
  | a :: b :: r => decide (a < b) && ascending (b :: r)
  | _ => true

/-- R226's cases. -/
def State.gangBad (s : State) (g : Group) (w : Word) (pair : Bool) : Bool :=
  let t := s.team g.team
  let n := nbits w.toNat 32 3
  let ls := gangList w
  let evens := (ls.filter fun i => i % 2 == 0).length
  nbits w.toNat 35 29 != 0 || nbits w.toNat 30 2 != 0 || n == 1 || n == 7
    || (n == 0 && (pair || nbits w.toNat 0 30 != 0))
    || (decide (2 ≤ n) && (nbits w.toNat (5 * n) (30 - 5 * n) != 0 || !ascending ls
        || ls.any (fun i => decide (t.size ≤ i)) || !ls.contains g.index
        || ls.any (fun i => (s.grp (groupKey g.team i)).role != .matrix)
        || (pair && !t.paired) || (pair && 2 * evens != n)
        || (!pair && t.paired && ls.any fun i => i % 2 != g.index % 2)))

def execGangset (g : Guard) (pair : Bool) (a : Opd) (s : State) : Out :=
  .next (s.groupLevel matrixRole g [a] fun act s1 =>
    let grp := s1.me
    let w := grp.rdGroup a act
    if s1.gangBad grp w pair then s1.trap .illegalOperand
    else
      s1.setMe { grp with gang := w ||| (if pair then 1#64 <<< 35 else 0), latch := none }.next)

/-! ## `MMA`: arrival (R227, R232) -/

/-- DESIGN CHOICE (log 15). DEDUCED (log 19). -/
def execMma (g : Guard) (mode : MmaMode) (bt reuse : Bool) (_la : Fin 16) (d a b c : Opd) (s : State) : Out :=
  .next (s.issue matrixRole [d, a, b, c] fun s1 =>
    let grp := s1.me
    let arr : Arrival :=
      { pc := grp.cur, word := s1.word, mode := mode, bt := bt, reuse := reuse, a := a, b := b, c := c, d := d,
        act := grp.active g }
    s1.setMe { grp with arrival := some arr })

/-- The keys of the groups that a group's `GANG` lists, in gang order; a group alone for n = 0. -/
def Group.gangKeys (g : Group) : List Nat :=
  if nbits g.gang.toNat 32 3 = 0 then [groupKey g.team g.index] else (gangList g.gang).map (groupKey g.team)

/-- A group with its arrival at the latch. -/
structure Arrived where
  key : Nat
  grp : Group
  arr : Arrival
  deriving DecidableEq, Repr

def State.arrivedOf (s : State) (ks : List Nat) : List Arrived :=
  ks.filterMap fun k => ((s.grp k).arrival).map fun a => { key := k, grp := s.grp k, arr := a }

/-- The format words of an arrival's active lanes. -/
def Arrived.formats (x : Arrived) : List (BitVec 32) := x.arr.act.map fun l => (x.grp.rd x.arr.c l).setWidth 32

/-- The same instruction as far as step 2 of R232 looks. -/
def Arrived.agrees (x y : Arrived) : Bool :=
  x.grp.gang == y.grp.gang && x.arr.mode == y.arr.mode && x.arr.bt == y.arr.bt && x.arr.reuse == y.arr.reuse

/-- Equal to the first of the list. -/
def allSame (xs : List (BitVec 32)) : Bool := xs.all fun x => x == xs.headD 0

/-! ## Steps 3 and 4 of R232 -/

/-- Gang groups on a core, in gang order. -/
def onCore (xs : List Arrived) (core : Nat) : List Arrived := xs.filter fun x => x.grp.core == core

/-- The core rank q of a gang group (R226). -/
def coreRank (xs : List Arrived) (k : Nat) : Nat :=
  match xs.find? fun x => x.key == k with
  | some x => ((onCore xs x.grp.core).findIdx? fun y => y.key == k).getD 0
  | none => 0

/-- The cores of a gang, without repeats. -/
def gangCores (xs : List Arrived) : List Nat := (xs.map fun x => x.grp.core).eraseDups

/-- The word breaks R229. -/
def formatBad (t : Team) (xs : List Arrived) (fw : BitVec 32) (mode : MmaMode) : Bool :=
  let isInt := fun f => f == 1 || f == 8
  nbits fw.toNat 30 2 != 0 || fw.getLsbD 19 || decide (10 < fwAfmt fw) || decide (10 < fwBfmt fw) || decide (4 < fwSp fw)
    || (fwSp fw != 0 && !fwOrient fw) || (fwInt fw && !(isInt (fwAfmt fw) && isInt (fwBfmt fw)))
    || (fwInt fw && mode == .s) || decide (t.halves ≤ fwHalf fw)
    || (gangCores xs).any fun c => decide (16384 < 16 * fwBase fw + 16 * fwTiles fw * 32 * (onCore xs c).length)

/-- The registers that hold an A operand: its row registers, and the scale register when `ascl` (R230), where `int` gives `ascl` no
effect too. DESIGN CHOICE (log 82). -/
def aCount (fw : BitVec 32) : Nat := rowRegs (fmtAt (fwAfmt fw)) + (if fwAscl fw then 1 else 0)

/-- Element width in the n-th of them. -/
def aWidth (fw : BitVec 32) (n : Nat) : Nat := if n < rowRegs (fmtAt (fwAfmt fw)) then (fmtAt (fwAfmt fw)).cell else 8

/-- Lane `l` of a register as the group's last `OFENCE` left it (07 R101). -/
def Group.placedRd (g : Group) (o : Opd) (l : Nat) : Word :=
  { g with v := g.placed.v, dead := g.placed.dead, s := g.placed.s }.rdRaw o l

/-- One register of A as the `MMA` reads it: an element written since the `OFENCE` is its old or its new value (07 R101).
DESIGN CHOICE (log 12). -/
def Arrived.wordA (x : Arrived) (fw : BitVec 32) (l n : Nat) : Word :=
  let r := x.arr.a.plus n
  mixWord (aWidth fw n) [x.key, x.grp.reads, l, n] (x.grp.rdRaw r l) (x.grp.placedRd r l)

/-- The A operand of a group: the latch, or its registers (R230). DESIGN CHOICE (log 12). -/
def Arrived.operandA (x : Arrived) (fw : BitVec 32) : Option (List (List Word)) :=
  match x.grp.latch with
  | some l => if l.fmt = fmtAt (fwAfmt fw) ∧ l.ascl = fwAscl fw then some l.words else none
  | none =>
    if x.grp.hasRun x.arr.a (aCount fw) then
      some (lanes.map fun l => (List.range (aCount fw)).map (x.wordA fw l))
    else none

/-- The registers that an `MMA` reads as A in a group, unless the latch supplies it (07 R102). -/
def Arrived.areads (x : Arrived) (fw : BitVec 32) : List ARead :=
  match x.grp.latch, x.arr.a with
  | none, .v r => (List.range (aCount fw)).map fun n => { reg := r.val + n, width := aWidth fw n, lanes := x.arr.act }
  | _, _ => []

/-! ## Step 5: reading B (R231) -/

/-- One B element of column c of a tile; k is its position. -/
def bElem (fw : BitVec 32) (t : Tile) (c k : Nat) : BElem :=
  let i := if fwOrient fw then 16 * c + k else 16 * k + c
  if t.oob.getD i false then { k := k, pat := t.fill, scale := t.fscale }
  else { k := k, pat := t.pats.getD i 0, scale := if fwBscl fw then t.scales.getD (i / 32) 0 else 127 }

/-- The contributing positions of column c: all, or the kept indices of row c. -/
def bColumn (fw : BitVec 32) (t : Tile) (c : Nat) : List BElem :=
  (if fwSp fw = 0 then List.range 16 else t.keep.getD c []).map (bElem fw t c)

/-- The coordinate of tile t (R231). -/
def bCoord (fw : BitVec 32) (c : Coord) (t : Nat) : Coord :=
  if fwOrient fw then { c with y := signed 32 (unsigned 32 (c.y + t)) } else { c with x := signed 32 (unsigned 32 (c.x + t)) }

/-- The tiles of a `.bt` operand. -/
def State.btTiles (s : State) (g : Group) (fw : BitVec 32) (desc : Desc) (c : Coord) :
    List Nat → State × Except TFault (List Tile)
  | [] => (s, .ok [])
  | t :: ts =>
    let r := s.decodeTile (s.groupAgent g) (s.team g.team).table desc (bCoord fw c t) 0
    match r.2 with
    | .error e => (r.1, .error e)
    | .ok tile =>
      let q := r.1.btTiles g fw desc c ts
      match q.2 with
      | .error e => (q.1, .error e)
      | .ok tiles => (q.1, .ok (tile :: tiles))

/-- The tiles of a `.bsp` operand. -/
def State.bspTiles (s : State) (g : Group) (fw : BitVec 32) (o : Nat) : List Nat → State × Except TFault (List Tile)
  | [] => (s, .ok [])
  | t :: ts =>
    let r := s.slotTile g o t (fmtAt (fwBfmt fw)) (fwSp fw) 0
    match r.2 with
    | .error e => (r.1, .error e)
    | .ok tile =>
      let q := r.1.bspTiles g fw o ts
      match q.2 with
      | .error e => (q.1, .error e)
      | .ok tiles => (q.1, .ok (tile :: tiles))

/-- The descriptor's own format and sparsity against the format word (R231). -/
def descMismatch (fw : BitVec 32) (d : Desc) : Option DecCode :=
  if fmtCode d.fmt ≠ fwBfmt fw then some ⟨3, 5, 0⟩
  else if d.sparsity ≠ fwSp fw then some ⟨4, 5, 5⟩
  else none

/-- B as one core reads it, by a gang group on that core; the values of b come from gang position 0. An `MMA` that has waited at the
latch decodes with the code tables as they are when it is accepted (05 R66, R243). DEDUCED (log 75). -/
def State.readB (s : State) (g : Group) (fw : BitVec 32) (bt : Bool) (bv xy z : Word) : State × Except TFault (List Tile) :=
  if bt then
    let dr := s.tileDesc g bv xy z 0
    match dr.2 with
    | .error e => (dr.1, .error e)
    | .ok desc =>
      match descMismatch fw desc with
      | some c => (dr.1, .error ((TFault.decode c (descCtx 0 bv.toNat)).atTile xy z))
      | none => dr.1.btTiles g fw desc (coordOf xy z) (List.range (fwTiles fw))
  else s.bspTiles g fw bv.toNat (List.range (fwTiles fw))

/-- The columns of some tiles. -/
def bColumns (fw : BitVec 32) (tiles : List Tile) : List (List BElem) :=
  tiles.flatMap fun t => (List.range 16).map (bColumn fw t)

/-- Columns whose elements are each taken from one of two readings; `name` names the choices. DESIGN CHOICE (log 12). -/
def mixColumns (name : List Nat) (xs ys : List (List BElem)) : List (List BElem) :=
  xs.mapIdx fun j col => col.mapIdx fun i x =>
    let y := (ys.getD j []).getD i x
    if x = y then x else memberOf (j :: i :: name) x [x, y]

/-- The columns that an `MMA` reads, of which `tiles` are the present ones: an element written since the `OFENCE` of the reading
group is its old or its new value, and before its first `OFENCE` one that the group itself has written (07 R101).
DESIGN CHOICE (log 12). -/
def State.placedCols (s : State) (x : Arrived) (fw : BitVec 32) (bt : Bool) (bv xy z : Word) (tiles : List Tile) :
    List (List BElem) :=
  let ps := s.since x.grp.placed.past
  if ps.isEmpty then bColumns fw tiles
  else
    match ((State.onlyWrites (fun p => !x.grp.placed.fenced && p.writer != .group x.key) ps [] s).readB x.grp fw bt bv xy z).2 with
    | .ok olds => mixColumns [x.key, s.tick] (bColumns fw tiles) (bColumns fw olds)
    | .error _ => bColumns fw tiles

/-- B on every core of the gang, with each core's columns. -/
def State.readBs (s : State) (xs : List Arrived) (fw : BitVec 32) (bt : Bool) (bv xy z : Word) :
    List Nat → State × Except TFault (List (Nat × List (List BElem)))
  | [] => (s, .ok [])
  | c :: cs =>
    match onCore xs c with
    | [] => (s, .ok [])
    | x :: _ =>
      let r := s.readB x.grp fw bt bv xy z
      match r.2 with
      | .error e => (r.1, .error e)
      | .ok tiles =>
        let q := r.1.readBs xs fw bt bv xy z cs
        match q.2 with
        | .error e => (q.1, .error e)
        | .ok rest => (q.1, .ok ((c, s.placedCols x fw bt bv xy z tiles) :: rest))

/-! ## The joint `MMA` (R232 to R234) -/

/-- A trap in each of the arrived groups. -/
def State.trapAll (s : State) (xs : List Arrived) (c : Cause) : State :=
  xs.foldl (fun s x =>
    (s.setGrp x.key { s.grp x.key with arrival := none }).trapGroup x.key x.arr.pc x.arr.word (causeWord c 0 0 0)) s

/-- Step 5: every gang group parks and one record is written, for gang position 0. -/
def State.parkAll (s : State) (xs : List Arrived) (r : Record) : State :=
  let ks := xs.map Arrived.key
  let s1 := xs.foldl (fun s x =>
    s.setGrp x.key { (s.grp x.key).closeWindows with arrival := none, status := .parked (.fault ks) }) s
  let gid := (s1.team ((xs.map fun x => x.grp.team).headD 0)).grid
  s1.post (partOf gid) false { r with report := some (gid, (xs.map fun x => x.grp.core).headD 0) }

/-- The arrival leaves the latch and the group goes on behind its `MMA`. -/
def Group.accepted (g : Group) : Group := { g with arrival := none }.next

/-- The rows of a gang group's active lanes. -/
def Arrived.rows (x : Arrived) (t : Team) (fw : BitVec 32) (q : Nat) (words : List (List Word)) : List MmaRow :=
  x.arr.act.map fun l =>
    { group := x.key, lane := l, core := x.grp.core
      base := accKey t x.grp.core (fwHalf fw) (16 * fwBase fw + 16 * fwTiles fw * (32 * q + l))
      src := if x.grp.latch.isNone then some x.arr.a else none
      a := words.getD l [] }

/-- Acceptance: the latches, the groups' progress, and the operation that will commit. DESIGN CHOICE (log 12). -/
def State.acceptMma (s : State) (xs : List Arrived) (x0 : Arrived) (fw : BitVec 32) (as : List (List (List Word)))
    (cols : List (Nat × List (List BElem))) : State :=
  let t := s.team x0.grp.team
  let zs := xs.zip as
  let scalar : BitVec 32 := (x0.grp.rd x0.arr.d 0).setWidth 32
  let op : MmaOp :=
    { groups := xs.map Arrived.key, bt := x0.arr.bt, b := x0.grp.rd x0.arr.b 0, seen := s.past.length, fw := fw, mode := x0.arr.mode, scalar := scalar
      rows := zs.flatMap fun z => z.1.rows t fw (coreRank xs z.1.key) z.2, cols := cols, touched := []
      used := [] }
  let s1 := zs.foldl (fun s z =>
    let latch := if z.1.arr.reuse then some { fmt := fmtAt (fwAfmt fw), ascl := fwAscl fw, words := z.2 } else none
    let g := (s.grp z.1.key).accepted
    s.setGrp z.1.key { g with latch := latch, areads := g.areads ++ z.1.areads fw }) s
  s1.setTeam x0.grp.team { s1.team x0.grp.team with ops := (s1.team x0.grp.team).ops ++ [.mma op] }

/-- Steps 2 to 5 of R232 with every listed group arrived; `x0` is at gang position 0. DESIGN CHOICE (log 12). -/
def State.joint (s : State) (xs : List Arrived) (x0 : Arrived) : State :=
  let fws := xs.flatMap Arrived.formats
  if !(xs.all x0.agrees && allSame fws) then s.trapAll xs .divergence
  else
    match fws with
    | [] => xs.foldl (fun s x => s.setGrp x.key (s.grp x.key).accepted) s
    | fw :: _ =>
      let bv := x0.grp.rd x0.arr.b 0
      if formatBad (s.team x0.grp.team) xs fw x0.arr.mode || (!x0.arr.bt && !offsetOk bv) then s.trapAll xs .illegalOperand
      else
        let as := xs.map fun x => x.operandA fw
        if !as.all Option.isSome then s.trapAll xs .illegalOperand
        else
          let b := s.readBs xs fw x0.arr.bt bv (x0.grp.rd (x0.arr.b.plus 1) 0) (x0.grp.rd (x0.arr.b.plus 2) 0) (gangCores xs)
          match b.2 with
          | .ok cols => b.1.acceptMma xs x0 fw (as.filterMap id) cols
          | .error e =>
            match b.1.codedRecord x0.grp e (if x0.arr.bt then 5 else 1) x0.arr.act x0.arr.pc with
            | some r => b.1.parkAll xs r
            | none => s

/-- Every group of the gang can go on: its team is on its core, and the core is not frozen. -/
def State.gangLive (s : State) (ks : List Nat) : Bool :=
  ks.all fun k => (s.team (s.grp k).team).phase == .resident && !(s.core (s.grp k).core).frozen

/-- `JOINT_MMA`: the rendezvous latch forms the operation of the gang that group `k` waits in (R232). -/
def execJointMma (group : Nat) (s : State) : Out :=
  .next (
    let ks := (s.grp group).gangKeys
    let xs := s.arrivedOf ks
    if (s.grp group).arrival.isNone || !s.gangLive ks then s
    else if ks.any fun k => (s.grp k).status == .ended then s.trapAll xs .illegalOperand
    else
      match xs with
      | [] => s
      | x0 :: _ => if xs.length = ks.length then s.joint xs x0 else s)

/-! ## `MMA_COMMIT` and `MMAW` (R234, R235) -/

/-- The word of an A register when the `MMA` commits: an element that the group has written since it was read is its old or its new
value (07 R102). DESIGN CHOICE (log 12). -/
def State.lateWord (s : State) (fw : BitVec 32) (r : MmaRow) (o : Opd) (n : Nat) (x : Word) : Word :=
  let g := s.grp r.group
  let now : Word :=
    match o.plus n with
    | .v q => if kget false g.dead (vKey q.val r.lane) && x == poison then x else kget 0 g.v (vKey q.val r.lane)
    | q => g.rdRaw q r.lane
  if g.status = .ended ∨ g.hasRun o (aCount fw) = false then x
  else mixWord (aWidth fw n) [r.group, r.lane, n, s.tick] x now

/-- The row with the words that the `MMA` uses. DESIGN CHOICE (log 12). -/
def State.lateRow (s : State) (fw : BitVec 32) (r : MmaRow) : MmaRow :=
  match r.src with
  | none => r
  | some o => { r with a := r.a.mapIdx fun n x => s.lateWord fw r o n x }

/-- A group of the gang has made the write. -/
def MmaOp.wrote (o : MmaOp) (p : Past) : Bool :=
  match p.writer with
  | .group g => o.groups.contains g
  | _ => false

/-- The columns of one core that the `MMA` uses: of scratchpad bytes that a gang group has written since B was read, the old or the
new value (07 R102); what others have written since has no part in it. DESIGN CHOICE (log 12). -/
def State.lateCols (s : State) (o : MmaOp) (core : Nat) (cols : List (List BElem)) : List (List BElem) :=
  let ps := s.since o.seen
  match o.groups.find? fun k => (s.grp k).core == core with
  | some k =>
    if o.bt || !ps.any o.wrote then cols
    else
      match ((State.onlyWrites o.wrote ps [] s).bspTiles (s.grp k) o.fw o.b.toNat (List.range (fwTiles o.fw))).2 with
      | .ok tiles => mixColumns [core, s.tick] cols (bColumns o.fw tiles)
      | .error _ => cols
  | none => cols

/-- The operation with the operands that it uses. DESIGN CHOICE (log 12). -/
def State.lateOp (s : State) (o : MmaOp) : MmaOp :=
  { o with rows := o.rows.map (s.lateRow o.fw), cols := o.cols.map fun c => (c.1, s.lateCols o c.1 c.2) }

/-- The value on which an `MMA` whose earlier operations are `ops` acts in element `k` of a row. -/
def MmaOp.oldAt (o : MmaOp) (t : Team) (ops : List AccOp) (g k : Nat) : BitVec 32 :=
  (o.touchedFrom k).getD (afterAll ops g k (t.accAt k))

/-- The value on which each element acts at the commit. -/
def MmaOp.valuesUsed (o : MmaOp) (t : Team) (ops : List AccOp) : List (Nat × BitVec 32) :=
  o.targets.map fun e => (e.elem, o.oldAt t ops e.row.group e.elem)

/-- Element value `x` counts as a new NaN over `old` (R56). DEDUCED (log 18). -/
def MmaOp.newNan (o : MmaOp) (old x : BitVec 32) : Bool := !fwInt o.fw && isNan32 x && !isNan32 old

/-- The flags and the new NaNs of one row (R56, R58). DEDUCED (log 18). -/
def MmaOp.rowEffect (o : MmaOp) (t : Team) (ops : List AccOp) (r : MmaRow) : BitVec 32 × Nat :=
  (o.colsOf r.core).zipIdx.foldl (fun acc e =>
    let old := o.oldAt t ops r.group (r.base + e.2)
    let x := o.run r e.1 old
    (acc.1 ||| x.2, acc.2 + (if o.newNan old x.1 then 1 else 0))) (0, 0)

/-- Flags and `NANCNT` of a group (R56, R58); an ended group's are discarded. DEDUCED (log 18). -/
def State.credit (s : State) (k : Nat) (flags : BitVec 32) (nans : Nat) : State :=
  let g := s.grp k
  if g.status = .ended then s else s.setGrp k { g.orFlags flags with nancnt := satAdd g.nancnt nans }

/-- An `ACCMERGE` and an `MMA` share a group and an element. -/
def MergeOp.meets (m : MergeOp) (o : MmaOp) : Bool :=
  o.groups.contains m.group && m.elems.any fun e => (o.target e.1).isSome

/-- No earlier `MMA` shares a gang group, and no earlier `ACCMERGE` of the gang on the same elements is open: operations of one gang
take effect in issue order (R236). -/
def oldestOf (ops : List AccOp) (n : Nat) (o : MmaOp) : Bool :=
  (ops.take n).all fun x =>
    match x with
    | .mma m => m.groups.all fun k => !o.groups.contains k
    | .merge m => !m.meets o
    | _ => true

/-- The commit of the n-th operation of a team (R234): its flags and counters, on the values of its elements then. Its writes are placed
at the next `MMAW` of a gang group (R235, R236). DESIGN CHOICE (log 76). -/
def State.commitMma (s : State) (tk n : Nat) (o : MmaOp) : State :=
  let t := s.team tk
  let o := s.lateOp o
  let o := { o with used := o.valuesUsed t (t.ops.take n) }
  let s1 := o.rows.foldl (fun s r =>
    let w := o.rowEffect t (t.ops.take n) r
    s.credit r.group w.1 w.2) s
  s1.setTeam tk { s1.team tk with ops := (s1.team tk).ops.set n (.settled o) }

/-- A core of the team is frozen. -/
def State.teamFrozen (s : State) (tk : Nat) : Bool := (s.team tk).cores.any fun c => (s.core c).frozen

def execMmaCommit (team n : Nat) (s : State) : Out :=
  .next (
    match (s.team team).ops[n]? with
    | some (.mma o) => if oldestOf (s.team team).ops n o && !s.teamFrozen team then s.commitMma team n o else s
    | _ => s)

/-- Every accepted `MMA` of a team commits, in order: after a migration, before a group of the team resumes (R237). -/
def State.commitAll (s : State) (tk : Nat) : State :=
  (List.range (s.team tk).ops.length).foldl (fun (s : State) (n : Nat) =>
    match (s.team tk).ops[n]? with
    | some (.mma o) => s.commitMma tk n o
    | _ => s) s

/-! ### The writes at `MMAW` (R235, R236) -/

/-- What an element that another group has changed since the commit adds to a group's flags, and to or from its count. -/
structure Credit where
  group : Nat
  flags : BitVec 32
  nans : Int
  deriving DecidableEq, Repr

/-- Flags and `NANCNT` of a group corrected; an ended group's are discarded (R56, R58). -/
def State.amend (s : State) (c : Credit) : State :=
  let g := s.grp c.group
  if g.status = .ended then s
  else s.setGrp c.group { g.orFlags c.flags with nancnt := BitVec.ofNat 32 (min (g.nancnt.toNat + c.nans).toNat 0xFFFFFFFF) }

/-- The writes of an `MMA` on the way: the team, the elements with their values before it and after it, and the credits. -/
structure Placing where
  team : Team
  old : List (Nat × BitVec 32)
  new : List (Nat × BitVec 32)
  credits : List Credit
  deriving DecidableEq, Repr

/-- What element `e` adds where it acts on `v` and, at the commit, acted on another value. DESIGN CHOICE (log 76). -/
def MmaOp.corrects (o : MmaOp) (e : Target) (v : BitVec 32) : List Credit :=
  let u := lastIn o.used e.elem v
  if u = v then []
  else
    let r := o.run e.row e.col v
    [{ group := e.row.group, flags := r.2
       nans := (if o.newNan v r.1 then 1 else 0) - (if o.newNan u (o.run e.row e.col u).1 then 1 else 0) }]

/-- The write of one element of an `MMA`, which a touch may have taken. -/
def MmaOp.placeElem (o : MmaOp) (tick : Nat) (x : Placing) (e : Target) : Placing :=
  match o.touchedFrom e.elem with
  | some v => { x with old := x.old ++ [(e.elem, v)], new := x.new ++ [(e.elem, (o.run e.row e.col v).1)] }
  | none =>
    let t := x.team.settle tick e.elem
    let v := t.accAt e.elem
    let y := (o.run e.row e.col v).1
    { team := { t with ops := rebase [(e.elem, y)] t.ops }.setAcc e.elem y
      old := x.old ++ [(e.elem, v)], new := x.new ++ [(e.elem, y)], credits := x.credits ++ o.corrects e v }

/-- The writes of an `MMA`. -/
def Team.placeMma (t : Team) (tick : Nat) (o : MmaOp) : Placing :=
  o.targets.foldl (o.placeElem tick) { team := t, old := [], new := [], credits := [] }

/-- The writes of an `ACCMERGE`. -/
def Team.placeMerge (t : Team) (tick : Nat) (o : MergeOp) (vals : List (Nat × BitVec 32)) : Team :=
  (vals.map (·.1)).eraseDups.foldl (fun t k => t.placeFold tick o vals k) t

/-- Group `g` has waited for the n-th operation of its team. -/
def Team.waitAt (g tick : Nat) (x : Team × List Credit) (n : Nat) : Team × List Credit :=
  let t := x.1
  match t.ops[n]? with
  | some (.settled o) =>
    if o.groups.contains g then
      let p := t.placeMma tick o
      ({ p.team with ops := p.team.ops.set n (.applied (o.groups.filter (· != g)) p.old p.new) }, x.2 ++ p.credits)
    else x
  | some (.applied gs old new) => ({ t with ops := t.ops.set n (.applied (gs.filter (· != g)) old new) }, x.2)
  | some (.folded o vals) =>
    if o.group = g then
      let t1 := t.placeMerge tick o vals
      ({ t1 with ops := t1.ops.set n (.applied [] [] []) }, x.2)
    else x
  | _ => x

/-- Some group has still to wait for the operation. -/
def AccOp.owed : AccOp → Bool
  | .applied gs _ _ => !gs.isEmpty
  | _ => true

/-- The `MMAW` of group `g`: the writes of the operations that it took part in are placed, in issue order, and it leaves them; with the
credits of the elements that have changed since a commit. -/
def Team.waits (t : Team) (g tick : Nat) : Team × List Credit :=
  let r := (List.range t.ops.length).foldl (Team.waitAt g tick) (t, [])
  ({ r.1 with ops := r.1.ops.filter AccOp.owed }, r.2)

/-- DESIGN CHOICE (log 76). -/
def execMmaw (g : Guard) (s : State) : Out :=
  .next (s.groupLevel matrixRole g [] fun _ s1 =>
    if s1.inFlight s1.focus then s
    else
      let w := s1.myTeam.waits s1.focus s1.tick
      let s2 := w.2.foldl State.amend (s1.setTeam s1.me.team w.1)
      s2.setMe { s2.me with areads := [] }.next)

/-! ## Accumulator transfers (R238, R239) -/

/-- The (lane, j) pairs of the active lanes. -/
def accPairs (act : List Nat) (cnt : Nat) : List (Nat × Nat) :=
  act.flatMap fun l => (List.range (cnt + 1)).map fun j => (l, j)

/-- An accumulator transfer of the active lanes: `k` takes the address word's fields, which are checked whether or not a lane is
active (R223). -/
def State.accOp (s : State) (g : Guard) (ops : List Opd) (a : Opd) (k : List Nat → AccAddr → State → State) : State :=
  s.issue matrixRole ops fun s1 =>
    let act := s1.me.active g
    match s1.myTeam.accAddr (s1.me.rdGroup a act) with
    | none => s1.trap .illegalOperand
    | some w => k act w s1

/-- Write elements one after another, each as a touch. -/
def State.touchWrites (s : State) (w : AccAddr) (ps : List (Nat × Nat)) (f : Nat → Nat → BitVec 32 → BitVec 32) : State :=
  let g := s.me
  let r := ps.foldl (fun acc p =>
    let k := w.key acc.1 g.core p.1 p.2
    acc.1.touchWrite s.focus acc.2 k (f p.1 p.2 (acc.1.accAt k))) (s.team g.team, s.choices)
  { s.setTeam g.team r.1 with choices := r.2 }

/-- Read elements one after another, each as a touch. -/
def State.touchReads (s : State) (w : AccAddr) (ps : List (Nat × Nat)) : State × List ((Nat × Nat) × BitVec 32) :=
  let g := s.me
  let t := s.team g.team
  let r := ps.foldl (fun acc p =>
    let x := t.touchRead s.focus acc.2 (w.key t g.core p.1 p.2)
    (acc.1 ++ [(p, x.1)], x.2)) (([] : List ((Nat × Nat) × BitVec 32)), s.choices)
  ({ s with choices := r.2 }, r.1)

def execAccz (g : Guard) (a : Opd) (s : State) : Out :=
  .next (s.accOp g [a] a fun act w s1 => (s1.touchWrites w (accPairs act w.cnt) fun _ _ _ => 0).commit)

/-- Elements into registers: sub-element j mod m of register d + j div m. -/
def Group.putElems (g : Group) (d : Opd) (f : Fmt) (xs : List ((Nat × Nat) × Nat)) : Group :=
  xs.foldl (fun g x =>
    let r := d.plus (x.1.2 / perLane f)
    g.wr r [x.1.1] fun l => put (g.rdRaw r l) (x.1.2 % perLane f) f.cell x.2) g

def execAccld (g : Guard) (out : Bool) (d a : Opd) (s : State) : Out :=
  .next (s.accOp g [d, a] a fun act w s1 =>
    let grp := s1.me
    let ps := accPairs act w.cnt
    if !grp.hasRun d (w.cnt / 2 + 1) then s1.trap .illegalOperand
    else if out then
      let r := s1.touchReads w ps
      r.1.setMe (grp.putElems d .int32 (r.2.map fun x => (x.1, x.2.toNat))).next
    else
      (s1.touchWrites w ps fun l j _ => BitVec.ofNat 32 (elem (grp.rd (d.plus (j / 2)) l) (j % 2) 32)).commit)

def execAccst (g : Guard) (dst : Fmt) (srcInt sat : Bool) (rm : RMode) (d a : Opd) (s : State) : Out :=
  .next (s.accOp g [d, a] a fun act w s1 =>
    let grp := s1.me
    if !grp.hasRun d (w.cnt / perLane dst + 1) then s1.trap .illegalOperand
    else
      let r := s1.touchReads w (accPairs act w.cnt)
      let ys := r.2.map fun x => (x.1, roundTo dst (value (if srcInt then .int32 else .f32) x.2.toNat) rm sat)
      let h := (grp.putElems d dst (ys.map fun y => (y.1, y.2.1))).orFlags (ys.foldl (fun m y => m ||| y.2.2) 0)
      let sats := (ys.filter fun y => y.2.2 &&& FLAG.saturated != 0).length
      r.1.setMe (if dst.width < 32 then { h with satcnt := satAdd h.satcnt sats } else h).next)

/-- `ACCSCL` of one (lane, j) pair: the team, the next choice and the flags. DEDUCED (log 14). -/
def Team.scaleAt (t : Team) (g c k : Nat) (x : BitVec 32) : Team × Nat × BitVec 32 :=
  let r := scaleStep x (t.accAt k)
  let w := t.touchWrite g c k r.1
  ({ w.1 with ops := rebase [(k, w.1.accAt k)] w.1.ops }, w.2, r.2)

/-- Of some elements, each counted once, those that hold NaN in `t` and did not in `old` (03 R56). -/
def newNans (old t : Team) (ks : List Nat) : Nat :=
  (ks.eraseDups.filter fun k => isNan32 (t.accAt k) && !isNan32 (old.accAt k)).length

/-- `ACCSCL` scales lane after lane, in ascending order: an element that several lanes name is scaled by each. It acts after the folded
`ACCMERGE`s on its elements (R236). DEDUCED (log 14). DESIGN CHOICE (log 76). -/
def execAccscl (g : Guard) (a b : Opd) (s : State) : Out :=
  .next (s.accOp g [a, b] a fun act w s1 =>
    let grp := s1.me
    let key := fun (p : Nat × Nat) => w.key s1.myTeam grp.core p.1 p.2
    let ps := accPairs act w.cnt
    let t := s1.myTeam.settleAll s1.tick (ps.map key)
    let r := ps.foldl (fun acc p =>
      let x := acc.1.scaleAt s1.focus acc.2.1 (key p) ((grp.rd b p.1).setWidth 32)
      (x.1, x.2.1, acc.2.2 ||| x.2.2)) (t, s1.choices, (0 : BitVec 32))
    let nans := newNans t r.1 (ps.map key)
    { s1.setTeam grp.team r.1 with choices := r.2.1 }.setMe
      { grp.orFlags r.2.2 with nancnt := satAdd grp.nancnt nans }.next)

/-! ## `ACCMERGE` (R240 to R242) -/

/-- Data bytes of a merge area for `cnt` + 1 elements per lane. -/
def areaBytes (cnt : Nat) : Nat := 64 + 128 * (cnt + 1)

/-- Reserved bits of a merge header. -/
def headerBad (h : Nat) : Bool := nbits h 28 36 != 0 || nbits h 19 5 != 0

/-- The illegal-operand cases of R241 that need the header. -/
def mergeBad (h chunk cnt : Nat) : Bool :=
  headerBad h || nbits h 0 8 == 0 || decide (nbits h 0 8 ≤ chunk) || decide (chunk < nbits h 8 8) || nbits h 24 4 != cnt

/-- A run of physical pieces read as one list of bytes. -/
def State.piecesRead (s : State) : List (Nat × Nat) → State × Option (List Byte)
  | [] => (s, some [])
  | (p, n) :: ps =>
    let r := s.physRead p n
    let q := r.1.piecesRead ps
    match r.2, q.2 with
    | some x, some y => (q.1, some (x ++ y))
    | _, _ => (q.1, none)

def State.piecesWrite (s : State) : List (Nat × Nat) → List Byte → State
  | [], _ => s
  | (p, n) :: ps, bs => ((s.physWrite p (bs.take n)).1).piecesWrite ps (bs.drop n)

/-- A memory fault of the merge area. -/
def mergeFault (act : List Nat) (reason addr : Nat) : MemFault :=
  { lanes := act, access := 2, lane := act.headD 0, space := 4, reason := reason, addr := addr }

/-- The physical address of a merge area's header. -/
def MergeOp.place (o : MergeOp) : Nat := (o.pieces.headD (0, 0)).1

/-- An `ACCMERGE` on the area is open. -/
def State.areaBusy (s : State) (pa : Nat) : Bool :=
  s.teams.any fun e => e.2.ops.any fun o =>
    match o with
    | .merge m => m.place == pa
    | _ => false

/-- The area is in use from the first `ACCMERGE` accepted on it on (R240). DEDUCED (log 77). -/
def State.openArea (s : State) (o : MergeOp) (next : Nat) : State :=
  if s.areas.any (fun a => a.pa == o.place) && (s.areaBusy o.place || next != 0) then s
  else { s with areas := { pa := o.place, pieces := o.pieces, past := s.past.length } :: s.areas.filter fun a => a.pa != o.place }

/-- The elements of an `ACCMERGE` on which an `MMA` of the group is in flight, with the values that the `MMA`s give them, and the
team in which they count as touched (07 R102). DESIGN CHOICE (log 13). -/
def Team.overtake (t : Team) (g : Nat) (ks : List Nat) : Team × List (Nat × BitVec 32) :=
  (ks.eraseDups.filter fun k => t.ops.any fun o => o.covers g k).foldl (fun acc k =>
    let now := acc.1.accAt k
    ({ acc.1 with ops := markTouched g k now acc.1.ops }, acc.2 ++ [(k, newestValue acc.1.ops g k now)])) (t, [])

/-- The acceptance of an `ACCMERGE` whose checks have passed: its partials are read, after the folded `ACCMERGE`s on its elements (R236),
and it waits for its fold. DESIGN CHOICE (log 76). -/
def State.acceptMerge (s : State) (w : AccAddr) (area : Word) (ws : List (Where × Nat)) (chunk next : Nat) : State :=
  let grp := s.me
  let ps := accPairs lanes w.cnt
  let key := fun (p : Nat × Nat) => w.key s.myTeam grp.core p.1 p.2
  let r := (s.setTeam grp.team (s.myTeam.settleAll s.tick (ps.map key))).touchReads w ps
  let t := r.1.myTeam
  let elems := r.2.map fun x => (key x.1, x.2)
  let o := t.overtake s.focus (elems.map (·.1))
  let op : MergeOp :=
    { group := s.focus, area := area, pieces := ws.map fun x => (x.1.pa, x.2), part := s.myPart, chunk := chunk
      elems := elems, hits := o.2, folded := 0 }
  ((r.1.openArea op next).setTeam grp.team { o.1 with ops := o.1.ops ++ [.merge op] }).commit

/-- `ACCMERGE` covers all 32 lanes; its address word is checked whether or not a lane is active (R223, R241). Misalignment and
translation of the area come before the header's illegal operands. DESIGN CHOICE (log 16, 87). -/
def execAccmerge (g : Guard) (_la : Fin 16) (a b c : Opd) (s : State) : Out :=
  .next (s.accOp g [a, b, c] a fun act w s1 =>
    let grp := s1.me
    let area := grp.rdGroup b act
    let chunk := (grp.rdGroup c act).toNat
    let need : Need := { r := true, w := true }
    if act.isEmpty then s1.commit
    else if 256 ≤ chunk then s1.trap .illegalOperand
    else if area.toNat % 64 ≠ 0 then s1.memFault (mergeFault act 5 area.toNat)
    else
      let ht := s1.translateRange grp.core s1.myPart need area.toNat 64
      match ht.2 with
      | .error e => ht.1.memFault (mergeFault act e.2 e.1)
      | .ok hw =>
        let hr := ht.1.piecesRead (hw.map fun x => (x.1.pa, x.2))
        match hr.2 with
        | none => hr.1.memFault (mergeFault act 6 area.toNat)
        | some bs =>
          let h := leNat (bs.take 8)
          let at_ := hr.1.translateRange grp.core s1.myPart need area.toNat (areaBytes (nbits h 24 4))
          match at_.2 with
          | .error e => at_.1.memFault (mergeFault act e.2 e.1)
          | .ok ws =>
            if mergeBad h chunk w.cnt then s1.trap .illegalOperand
            else at_.1.acceptMerge w area ws chunk (nbits h 8 8))

/-- The header with `next` or `err` changed. -/
def headerNext (h n : Nat) : Nat := h - nbits h 8 8 * 256 + n % 256 * 256
def headerErr (h : Nat) : Nat := if nbits h 18 1 = 1 then h else h + 2 ^ 18

/-- One element of a fold: the new data, and its flags. -/
def foldElem (h chunk : Nat) (data p : BitVec 32) : BitVec 32 × BitVec 32 :=
  if chunk = 0 ∧ nbits h 16 1 = 0 then (p, 0)
  else if nbits h 17 1 = 1 then
    let t := data.toInt + p.toInt
    (BitVec.ofInt 32 t, if t < -2 ^ 31 ∨ 2 ^ 31 - 1 < t then FLAG.overflow else 0)
  else
    let r := addRound .f32 (value .f32 data.toNat) (value .f32 p.toNat) .rn false
    (BitVec.ofNat 32 r.1, r.2)

/-- 32-bit elements of a list of bytes. -/
def elems32 (n : Nat) (bs : List Byte) : List (BitVec 32) :=
  (List.range n).map fun i => BitVec.ofNat 32 (leNat ((bs.drop (4 * i)).take 4))

/-- The operation is done in step `tick`: what it still writes at its group's next `MMAW`, if anything, stays. -/
def Team.endMerge (t : Team) (tick n : Nat) (o : MergeOp) (vals : List (Nat × BitVec 32)) : Team :=
  { t with ops := if vals.isEmpty then t.ops.eraseIdx n else t.ops.set n (.folded { o with folded := tick } vals) }

/-- An `ACCMERGE` completes without folding (R242): its elements keep their values, or take those of the `MMA`s it overtook, and
the header's `err` becomes 1, where it can be read and written. DESIGN CHOICE (log 16). -/
def State.discardMerge (s : State) (tk n : Nat) (o : MergeOp) : State :=
  let p := o.place
  let r := s.physRead p 8
  let s1 := match r.2 with
    | some bs => (r.1.physWrite p (leBytes 8 (headerErr (leNat bs)))).1
    | none => r.1
  s1.setTeam tk ((s1.team tk).endMerge s.tick n { o with hits := [] } o.hits)

/-- The first open `ACCMERGE` on an area whose chunk `next` has passed: its team, its place there, and the operation. -/
def State.firstPassed (s : State) (pa next : Nat) : Option (Nat × Nat × MergeOp) :=
  s.teams.findSome? fun e => (s.team e.1).ops.zipIdx.findSome? fun x =>
    match x.1 with
    | .merge m => if m.place == pa && decide (m.chunk < next) then some (e.1, x.2, m) else none
    | _ => none

/-- The chunks that `next` has passed are discarded (R242), at most `n`. -/
def State.discardPassed (pa next : Nat) : Nat → State → State
  | 0, s => s
  | n + 1, s =>
    match s.firstPassed pa next with
    | none => s
    | some x => (s.discardMerge x.1 x.2.1 x.2.2).discardPassed pa next n

/-- The open operations of all teams. -/
def State.opCount (s : State) : Nat := (s.teams.map fun e => (s.team e.1).ops.length).sum

/-- A byte of the area has been written since it was as the folds left it (R240). DEDUCED (log 77). -/
def State.areaSpoiled (s : State) (a : MergeArea) : Bool :=
  (s.since a.past).any fun p => p.old.any fun e => a.pieces.any fun q => decide (q.1 ≤ e.1) && decide (e.1 < q.1 + q.2)

/-- The bytes of an area, in order. -/
def MergeArea.keys (a : MergeArea) : List Nat := a.pieces.flatMap fun q => (List.range q.2).map (q.1 + ·)

/-- A byte takes a new value in every copy of it. -/
def State.spoilByte (s : State) (k : Nat) (x : Byte) : State :=
  if s.backing k = .none then s else (s.setByte (s.homeKey k) x).setByte k x

/-- After a write made too early every data byte of an area is indeterminate (R240). DEDUCED (log 77). -/
def State.spoilArea (s : State) (a : MergeArea) : State :=
  (a.keys.drop 64).foldl (fun u k => u.spoilByte k (BitVec.ofNat 8 (Config.member [s.tick, k]))) s

/-- The data of the areas that have been written too early become indeterminate, at the start of the step after the write (R240).
DEDUCED (log 77). -/
def State.settleAreas (s : State) : State :=
  let bad := s.areas.filter s.areaSpoiled
  if bad.isEmpty then s
  else { bad.foldl State.spoilArea s with areas := s.areas.map fun a => { a with past := s.past.length } }

/-- The area after a fold: it is in use until `next` = C. DEDUCED (log 77). -/
def State.areaFolded (s : State) (o : MergeOp) (last : Bool) : State :=
  let rest := s.areas.filter fun a => a.pa != o.place
  { s with areas := if last then rest else { pa := o.place, pieces := o.pieces, past := s.past.length } :: rest }

/-- Of the elements of an `ACCMERGE`, each counted once, those that become NaN over their partials (03 R56). -/
def MergeOp.newNans (o : MergeOp) (vals : List (Nat × BitVec 32)) : Nat :=
  ((o.elems.map (·.1)).eraseDups.filter fun k => isNan32 (lastIn vals k 0) && !isNan32 (lastIn o.elems k 0)).length

/-- The fold itself (R241): the data and `next` are written, the flags and counters go to the group, and the elements are written
at its next `MMAW`, unless an operation that acts on one of them places it before (R236). An open `ACCMERGE` on one of them acts after it,
and one on the area whose chunk `next` passes is discarded (R242). DESIGN CHOICE (log 16, 76). -/
def State.foldMerge (s : State) (tk n : Nat) (o : MergeOp) (bs : List Byte) : State :=
  let h := leNat (bs.take 8)
  let data := elems32 o.elems.length (bs.drop 64)
  let ys := (o.elems.zip data).map fun e => foldElem h o.chunk e.2 e.1.2
  let out := leBytes 8 (headerNext h (o.chunk + 1)) ++ (bs.drop 8).take 56 ++ ys.flatMap fun y => leBytes 4 y.1.toNat
  let vals := (o.elems.zip ys).map fun e => (e.1.1, e.2.1)
  let t := (s.team tk).endMerge s.tick n o vals
  let nans := if nbits h 17 1 = 1 then 0 else o.newNans vals
  let s1 := (((s.areaFolded o (o.chunk + 1 == nbits h 0 8)).piecesWrite o.pieces out).setTeam tk
    { t with ops := rebase vals t.ops }).credit o.group (ys.foldl (fun m y => m ||| y.2) 0) nans
  s1.discardPassed o.place (o.chunk + 1) s1.opCount

/-- `ACCMERGE_FOLD`: the adders beside the L2 take the n-th operation of a team once its chunk is next (R241); a chunk that
`next` has passed is discarded (R242). DESIGN CHOICE (log 16). -/
def execAccmergeFold (team n : Nat) (s : State) : Out :=
  .next (
    match (s.team team).ops[n]? with
    | some (.merge o) =>
      let r := s.piecesRead o.pieces
      match r.2 with
      | none => s
      | some bs =>
        let next := nbits (leNat (bs.take 8)) 8 8
        if next = o.chunk then r.1.foldMerge team n o bs
        else if o.chunk < next then r.1.discardMerge team n o
        else s
    | _ => s)

end Sys2Proof.Machine
end

