-- ==== Sys2Proof/Machine/Jobs.lean ====
section
/-!
DEFINITION. What a copy-engine job is (17 R250 to R264): its ranges, the checks made at issue, and what one chunk of each
kind reads and writes.
-/
namespace Sys2Proof.Machine

/-! ## Sequencing -/

/-- Go on unless the first part stopped. -/
def andThen {ε α β : Type} (r : State × Except ε α) (f : State → α → State × Except ε β) : State × Except ε β :=
  match r.2 with
  | .error e => (r.1, .error e)
  | .ok x => f r.1 x

/-- One after another, until one stops. -/
def runAll {ε α β : Type} (f : State → α → State × Except ε β) : List α → State → State × Except ε (List β)
  | [], s => (s, .ok [])
  | x :: xs, s => andThen (f s x) fun s1 y => andThen (runAll f xs s1) fun s2 ys => (s2, .ok (y :: ys))

/-- Why a job's access does not go on: held for a migration, a memory fault, or a decode fault. -/
inductive JobStop where
  | held
  | mem (access space reason addr : Nat)
  | decode (c : DecCode) (ctx : TileCtx)
  deriving DecidableEq, Repr

/-- A tensor access of a job; its writes are job writes. DEDUCED (log 28). -/
def TFault.toStop : TFault → JobStop
  | .stall => .held
  | .memory a r x => .mem (if a = 1 then 6 else a) 5 r x
  | .decode c x => .decode c x

/-- A tensor access as a part of a job. -/
def jobPart {α : Type} (r : State × Except TFault α) : State × Except JobStop α :=
  match r.2 with
  | .ok x => (r.1, .ok x)
  | .error e => (r.1, .error e.toStop)

/-! ## Fields of a job -/

/-- A space code of R257. -/
def space4Of (n : Nat) : Space4 := if n % 4 = 0 then .sp else if n % 4 = 1 then .cl else if n % 4 = 2 then .ch else .g

def Job.dstSpace (j : Job) : Space4 := space4Of (nbits j.mods.toNat 6 2)
def Job.srcSpace (j : Job) : Space4 := space4Of (nbits j.mods.toNat 4 2)
def Job.csr (j : Job) : Bool := j.mods.getLsbD 3
def Job.elemBytes (j : Job) : Nat := 4 * 2 ^ nbits j.mods.toNat 0 3
def Job.keep (j : Job) : Bool := j.mods.getLsbD 0
def Job.aAt (j : Job) (i : Nat) : Nat := (j.a.getD i 0).toNat
def Job.bAt (j : Job) (i : Nat) : Nat := (j.b.getD i 0).toNat
def Job.cAt (j : Job) (i : Nat) : Nat := (j.c.getD i 0).toNat

/-- The opcode of a kind (R257). -/
def JobKind.opcode : JobKind → Nat
  | .cpy => 0x10 | .cpy2d => 0x11 | .gather => 0x12 | .scatter => 0x13 | .xform => 0x14 | .kvsend => 0x15 | .wbcast => 0x16
  | .ringpush => 0x17

/-- Bytes per row, rows, destination stride, source stride (R258). -/
structure CopyShape where
  row : Nat
  rows : Nat
  ds : Nat
  ss : Nat
  deriving DecidableEq, Repr

def Job.shape (j : Job) : CopyShape :=
  match j.kind with
  | .cpy2d => { row := nbits (j.cAt 0) 0 32, rows := nbits (j.cAt 0) 32 32, ds := nbits (j.cAt 1) 0 32, ss := nbits (j.cAt 1) 32 32 }
  | _ => { row := j.cAt 0, rows := 1, ds := 0, ss := 0 }

/-- Bytes from the first to the last of `rows` rows. -/
def CopyShape.span (c : CopyShape) (stride : Nat) : Nat := (c.rows - 1) * stride + c.row

/-- The list word's fields (R259). -/
def Job.lim (j : Job) : Nat := nbits (j.cAt 1) 40 24
def Job.listSpace (j : Job) : Space4 := space4Of (nbits (j.cAt 1) 32 2)
def Job.listLen (j : Job) : Nat := nbits (j.cAt 1) 0 32

/-- First tile and tile count of an `XFORM`, and its encoder slot (R260). -/
def Job.firstTile (j : Job) : Nat := j.cAt 0
def Job.tileCount (j : Job) : Nat := nbits (j.cAt 1) 0 32
def Job.encSlot (j : Job) : Nat := nbits (j.cAt 1) 32 4

/-- Tile count and direction of a `RINGPUSH` (R264). -/
def Job.pushCount (j : Job) : Nat := nbits (j.cAt 0) 0 4 + 1
def Job.pushCoord (j : Job) (t : Nat) : Coord :=
  let c := coordOf (j.b.getD 0 0) (j.b.getD 1 0)
  if nbits (j.cAt 0) 4 1 = 1 then { c with y := signed 32 (unsigned 32 (c.y + t)) }
  else { c with x := signed 32 (unsigned 32 (c.x + t)) }

/-- The descriptors as read at issue; a job without one never uses it. -/
def Desc.empty : Desc :=
  { fmt := .e2m1, coded := false, sparsity := 0, ndim := 0, ctdef := 0, dims := [], strides := [], base := 0, fill := 0,
    fscale := 0, addr := 0 }

def Job.srcDesc (j : Job) : Desc := j.src.getD Desc.empty
def Job.dstDesc (j : Job) : Desc := j.dst.getD Desc.empty

/-- The start of the ring slot that the control word names, as a scratchpad offset. -/
def State.slotStartOf (s : State) (j : Job) : Nat :=
  match j.ringSlot with
  | some (r, sl) =>
    match (s.team j.team).rings[r]? with
    | some x => x.base + sl * x.size
    | none => 0
  | none => 0

/-! ## Ranges (R248, R258 to R260, 07 R103) -/

/-- A byte range in a job's own terms: space, start, length. -/
structure RawRange where
  space : Space4
  lo : Nat
  n : Nat
  deriving DecidableEq, Repr

def RawRange.meets (a b : RawRange) : Bool := a.space == b.space && decide (a.lo < b.lo + b.n) && decide (b.lo < a.lo + a.n)

/-- Virtual bytes of the tiles t0 to t1: pages of a coded tensor, slots of a plain one. -/
def Desc.tileRange (d : Desc) (t0 t1 : Nat) : RawRange :=
  if d.coded then { space := .g, lo := d.page t0, n := d.page t1 + 65536 - d.page t0 }
  else { space := .g, lo := d.plainAt t0, n := d.plainAt t1 + slotSize d.fmt d.sparsity - d.plainAt t0 }

/-- The bounding range of the tiles t0 to t1 and, for a coded tensor, of the sidecar lines of their pages (R248, 07 R103). Where a
tile starts in its page is not known before the line is read, so the range takes whole pages. DEDUCED (log 78). -/
def State.tileBound (s : State) (part : Nat) (d : Desc) (t0 t1 : Nat) : RawRange :=
  let r := d.tileRange t0 t1
  if d.coded then
    let ls := (List.range (t1 / 128 - t0 / 128 + 1)).map fun i => s.lineAt part (d.page t0 + 65536 * i)
    let lo := ls.foldl min r.lo
    { r with lo := lo, n := (ls.map (· + 256)).foldl max (r.lo + r.n) - lo }
  else r

/-- Tile numbers that a `RINGPUSH` reads. -/
def Job.pushTiles (j : Job) : List Nat :=
  ((List.range j.pushCount).filter fun t => j.srcDesc.touches (j.pushCoord t)).map fun t => j.srcDesc.tileNo (j.pushCoord t)

/-- The job's destination, from the lowest to the highest byte written; a remote job has none here. -/
def State.jobDst (s : State) (j : Job) : Option RawRange :=
  let e := j.elemBytes
  match j.kind with
  | .cpy | .cpy2d => some { space := j.dstSpace, lo := j.aAt 0, n := j.shape.span j.shape.ds }
  | .gather => some { space := j.dstSpace, lo := j.aAt 0, n := (if j.csr then j.lim else j.listLen) * e }
  | .scatter => some { space := j.dstSpace, lo := j.aAt 0, n := j.lim * e }
  | .xform => some (s.tileBound j.part j.dstDesc j.firstTile (j.firstTile + j.tileCount - 1))
  | .kvsend | .wbcast => none
  | .ringpush => some { space := .sp, lo := s.slotStartOf j, n := j.pushCount * slotSize j.srcDesc.fmt j.srcDesc.sparsity }

/-- The source ranges that the overlap rules compare. -/
def State.jobSrcs (s : State) (j : Job) : List RawRange :=
  match j.kind with
  | .cpy | .cpy2d => [{ space := j.srcSpace, lo := j.bAt 0, n := j.shape.span j.shape.ss }]
  | .gather =>
    if j.csr then [{ space := j.listSpace, lo := j.cAt 2, n := 4 * (j.listLen + 1) }]
    else [{ space := j.listSpace, lo := j.cAt 0, n := 4 * j.listLen }]
  | .scatter =>
    [{ space := j.listSpace, lo := j.cAt 0, n := 4 * j.listLen },
     { space := j.srcSpace, lo := j.bAt 0, n := j.listLen * j.elemBytes }]
  | .xform => [s.tileBound j.part j.srcDesc j.firstTile (j.firstTile + j.tileCount - 1)]
  | .kvsend =>
    [s.tileBound j.part { Desc.empty with coded := true, base := j.bAt 0 } 0 (128 * j.cAt 0 - 1)]
  | .wbcast => [{ space := j.srcSpace, lo := j.bAt 0, n := j.cAt 0 }]
  | .ringpush =>
    match j.pushTiles.min?, j.pushTiles.max? with
    | some lo, some hi => [s.tileBound j.part j.srcDesc lo hi]
    | _, _ => []

/-- A range in the terms of the scoreboard (07 R103): a cluster-shared one in the physical bytes of each core that it reaches. -/
def State.normRange (s : State) (j : Job) (r : RawRange) : List SbRange :=
  match r.space with
  | .sp =>
    let lo := (s.team j.team).spbaseOn j.core + r.lo
    [⟨.sp j.core, lo, lo + r.n⟩]
  | .cl => (pieces (2 ^ 19) r.lo r.n).map fun p =>
      ⟨.sp (clusterOf j.core * 8 + p.1 / 2 ^ 19 % 8), p.1 % 2 ^ 19, p.1 % 2 ^ 19 + p.2⟩
  | .ch => [⟨.ch, r.lo, r.lo + r.n⟩]
  | .g => [⟨.g, r.lo, r.lo + r.n⟩]

/-- The 64 KiB pages that two ranges cover meet. -/
def pagesMeet (a b : RawRange) : Bool :=
  decide (a.lo / 65536 ≤ (b.lo + b.n - 1) / 65536) && decide (b.lo / 65536 ≤ (a.lo + a.n - 1) / 65536)

/-- The job's own source and destination overlap: it retires with status 0x04 (R258 to R260). -/
def State.jobOverlaps (s : State) (j : Job) : Bool :=
  let tiles := fun d : Desc => d.tileRange j.firstTile (j.firstTile + j.tileCount - 1)
  match s.jobDst j, j.kind with
  | some _, .xform => pagesMeet (tiles j.dstDesc) (tiles j.srcDesc)
  | _, .ringpush => false
  | some d, _ => (s.jobSrcs j).any d.meets
  | none, _ => false

/-! ## The checks at issue (R249, R251, R258 to R264) -/

/-- The control word's fields. -/
def ctlNode (w : Word) : Option Nat := if w.getLsbD 63 then some (nbits w.toNat 49 14) else none
def ctlBar (w : Word) : Option Nat := if w.getLsbD 40 then some (nbits w.toNat 36 4) else none
def ctlTag (w : Word) : Option Nat := if w.getLsbD 35 then some (nbits w.toNat 29 6) else none

/-- The node belongs to the running graph. -/
def State.nodeOf (s : State) (graph idx : Nat) : Bool := graph != 0 && (s.node idx).graph == graph

/-- The named ring slot is not declared. -/
def Team.noSlot (t : Team) (j : Job) : Bool :=
  match j.ringSlot with
  | some (r, sl) => decide (t.ringSlots r ≤ sl)
  | none => false

/-- Slot bytes of the ring that the control word names. -/
def Team.slotBytes (t : Team) (j : Job) : Nat :=
  match j.ringSlot with
  | some (r, _) => (t.rings[r]?.map Ring.size).getD 0
  | none => 0

/-- The destination does not lie wholly in the named slot (R251). -/
def State.outsideSlot (s : State) (j : Job) : Bool :=
  j.ringSlot.isSome && j.kind != .ringpush &&
    match s.jobDst j with
    | some d => d.space != .sp || decide (d.lo < s.slotStartOf j)
        || decide (s.slotStartOf j + (s.team j.team).slotBytes j < d.lo + d.n)
    | none => true

/-- The cases of R251. -/
def State.ctlBad (s : State) (j : Job) : Bool :=
  nbits j.ctl.toNat 0 29 != 0
    || (match ctlNode j.ctl with
        | some n => !s.nodeOf (s.grid j.grid).graph n
        | none => false)
    || (s.team j.team).noSlot j || (j.kind == .ringpush && j.ringSlot.isNone)

/-- A handle of a partition (25 R348). -/
def Partition.handle (p : Partition) (n : Nat) : Word := kget 0 p.handles n

def handleKind (h : Word) : Nat := nbits h.toNat 62 2

/-- The illegal-operand cases of a kind's own entry that need no descriptor. Where a rule gives a field its limits and names no
consequence of a breach, that is one of them. DESIGN CHOICE (log 88). -/
def State.jobBad (s : State) (j : Job) : Bool :=
  let p := s.part j.part
  let c := j.shape
  match j.kind with
  | .cpy => c.row == 0 || decide (2 ^ 32 < c.row) || c.row % 16 != 0
  | .cpy2d =>
    c.row == 0 || c.row % 16 != 0 || c.rows == 0 || c.ds % 16 != 0 || c.ss % 16 != 0
      || (decide (1 < c.rows) && decide (c.ds < c.row))
  | .gather => nbits (j.cAt 1) 34 6 != 0 || j.listLen == 0 || (j.lim == 0) == j.csr
  | .scatter => nbits (j.cAt 1) 34 6 != 0 || j.listLen == 0 || j.lim == 0
  | .xform => nbits (j.cAt 1) 36 28 != 0 || j.tileCount == 0 || decide (2 ^ 24 < j.tileCount)
  | .kvsend =>
    nbits (j.aAt 1) 12 52 != 0 || handleKind (p.handle (j.aAt 1)) != 1 || j.cAt 0 == 0 || decide (4096 < j.cAt 0)
  | .wbcast =>
    nbits (j.aAt 1) 12 52 != 0 || handleKind (p.handle (j.aAt 1)) != 2 || decide (j.cAt 0 < 16)
      || decide (2 ^ 32 < j.cAt 0) || j.cAt 0 % 16 != 0
  | .ringpush => nbits (j.cAt 0) 5 59 != 0

/-- Addresses with the alignment that each needs: (access, space, address, multiple); of several misaligned ones the first is reported.
DESIGN CHOICE (log 90). -/
def Job.aligns (j : Job) : List (Nat × Space4 × Nat × Nat) :=
  match j.kind with
  | .cpy | .cpy2d => [(6, j.dstSpace, j.aAt 0, 16), (5, j.srcSpace, j.bAt 0, 16)]
  | .gather | .scatter =>
    [(6, j.dstSpace, j.aAt 0, j.elemBytes), (5, j.srcSpace, j.bAt 0, j.elemBytes), (5, j.listSpace, j.cAt 0, 4)]
      ++ (if j.csr then [(5, j.listSpace, j.cAt 2, 4)] else [])
  | .kvsend => [(6, .g, j.aAt 0, 65536), (5, .g, j.bAt 0, 65536)]
  | _ => []

/-- The first misaligned address of the job or of its status word: access, space code, address. -/
def Job.misaligned (j : Job) : Option (Nat × Nat × Nat) :=
  match j.aligns.find? fun x => x.2.2.1 % x.2.2.2 != 0 with
  | some x => some (x.1, x.2.1.wide.code, x.2.2.1)
  | none => if j.status.toNat % 8 = 0 then none else some (1, 4, j.status.toNat)

/-- A job as a writer. -/
def Job.writer (j : Job) : Writer := .job j.core j.num

/-- How a job sees writes to bytes that the overlap rule does not compare: those that no fence of its issuing group stands behind are
unordered with it, an earlier job's too (07 R104, R259). -/
def Job.looseView (j : Job) : Option View := some { group := groupKey j.team j.group, since := j.seen, width := 4, job := none }

/-- How a job sees writes to its other sources: it starts behind the earlier jobs of its core whose destinations overlap them (R248),
which a graph's job has none of. -/
def Job.view (j : Job) : Option View :=
  some { group := groupKey j.team j.group, since := j.seen, width := 4, job := if j.node.isNone then some (j.core, j.num) else none }

/-- The agent of a job's tensor accesses; a job does not stall on the scoreboard. -/
def Job.agent (j : Job) : Agent := { writer := j.writer, core := j.core, part := j.part, sb := none, view := j.view }

/-- The descriptors of an `XFORM` or `RINGPUSH`, read at issue, with the further faults of R260: of an `XFORM` the destination's first, and a
mismatch names the source. A fault of a `RINGPUSH` names the coordinates of its first tile. DESIGN CHOICE (log 89). -/
def State.jobDescs (s : State) (j : Job) : State × Except TFault Job :=
  match j.kind with
  | .xform =>
    let d := s.readDesc j.agent j.bindings (j.a.getD 0 0) 4
    match d.2 with
    | .error e => (d.1, .error e)
    | .ok dst =>
      let r := d.1.readDesc j.agent j.bindings (j.b.getD 0 0) 4
      match r.2 with
      | .error e => (r.1, .error e)
      | .ok src =>
        let ctx := descCtx 4 src.addr.toNat
        if !src.coded then (r.1, .error (.decode ⟨0x15, 5, 4⟩ ctx))
        else if src.sparsity ≠ dst.sparsity then (r.1, .error (.decode ⟨4, 5, 5⟩ ctx))
        else if j.keep ∧ src.fmt ≠ dst.fmt then (r.1, .error (.decode ⟨3, 5, 0⟩ ctx))
        else (r.1, .ok { j with src := some src, dst := some dst })
  | .ringpush =>
    let r := s.readDesc j.agent j.bindings (j.a.getD 0 0) 4
    match r.2 with
    | .error e => (r.1, .error (e.atTile (j.b.getD 0 0) (j.b.getD 1 0)))
    | .ok src => (r.1, .ok { j with src := some src })
  | _ => (s, .ok j)

/-- The slot of a `RINGPUSH` is too small for its records (R264). -/
def State.pushBad (s : State) (j : Job) : Bool :=
  j.kind == .ringpush
    && decide ((s.team j.team).slotBytes j < j.pushCount * slotSize j.srcDesc.fmt j.srcDesc.sparsity)

/-- The status address translates for write, if there is one. DEDUCED (log 28). -/
def State.statusAt (s : State) (j : Job) : State × Except Nat Unit :=
  if j.status = 0 then (s, .ok ())
  else
    let t := s.translate j.core j.part Need.write j.status.toNat
    match t.2 with
    | .error e => (t.1, .error e)
    | .ok _ => (t.1, .ok ())

/-! ## A job's accesses (R104, 07 R87) -/

/-- The group as which a job's window rules are looked up. -/
def Job.asGroup (j : Job) : Group := { Group.absent with team := j.team, core := j.core }

/-- The place of a run of bytes below one KiB boundary in scratchpad or chip space. The scratchpad of a withdrawn core is there for a job
no more than for a cluster-shared access (21 R314). DESIGN CHOICE (log 83). -/
def State.jobAt (s : State) (j : Job) (spc : Space4) (a n : Nat) : LaneAt :=
  if 2 ^ spc.wide.bits ≤ a then .fault 4
  else
    match spc with
    | .sp => if (s.core j.core).withdrawn then .fault 4 else s.scratchAt j.asGroup a n
    | .cl => s.sharedAt j.asGroup a n
    | _ => s.chipAt j.part a n

/-- Bytes of a scratchpad or of the chip scratchpad as a job reads them, from the saved image while its team is out. -/
def State.jobCells (s : State) (j : Job) (w : Option View) (spc : Space4) (ks : List Nat) : Option (List Byte) :=
  let t := s.team j.team
  if spc = .sp ∧ t.phase = .saved then some (ks.map fun k => kget 0 t.spsave k)
  else (s.cellsRead ks).map fun bs => s.viewed w 0 (ks.headD 0) ks.length bs

/-- DEDUCED (log 28). -/
def State.jobRead (s : State) (j : Job) (w : Option View) (spc : Space4) (addr n : Nat) : State × Except JobStop (List Byte) :=
  let a := addr % 2 ^ 64
  if spc = .g then
    if 2 ^ 57 < a + n then (s, .error (.mem 5 4 4 a))
    else
      let t := s.translateRange j.core j.part Need.read a n
      match t.2 with
      | .error e => (t.1, .error (.mem 5 4 e.2 e.1))
      | .ok ws =>
        let r := t.1.readPieces w a ws
        match r.2 with
        | .error x => (r.1, .error (.mem 5 4 6 x))
        | .ok bs => (r.1, .ok bs)
  else
    match runAll (fun s p =>
      match s.jobAt j spc p.1 p.2 with
      | .held _ => (s, .error .held)
      | .cells ks _ =>
        match s.jobCells j w spc ks with
        | some bs => (s, .ok bs)
        | none => (s, .error (.mem 5 spc.wide.code 6 p.1))
      | _ => (s, .error (.mem 5 spc.wide.code 4 p.1))) (pieces 1024 a n) s with
    | (s1, .error e) => (s1, .error e)
    | (s1, .ok bss) => (s1, .ok bss.flatten)

/-- Writes to the scratchpad of a frozen core are held (R256). DEDUCED (log 28). -/
def State.jobWrite (s : State) (j : Job) (spc : Space4) (addr : Nat) (bs : List Byte) : State × Except JobStop Unit :=
  let a := addr % 2 ^ 64
  if spc = .g then
    if 2 ^ 57 < a + bs.length then (s, .error (.mem 6 4 4 a))
    else
      let t := s.translateRange j.core j.part Need.write a bs.length
      match t.2 with
      | .error e => (t.1, .error (.mem 6 4 e.2 e.1))
      | .ok ws =>
        let r := (t.1.rememberPieces j.writer a ws).writePieces ws bs
        if r.2 then (r.1, .ok ()) else (t.1, .error (.mem 6 4 6 a))
  else if spc = .sp ∧ (s.core j.core).frozen ∧ (s.core j.core).withdrawn = false then (s, .error .held)
  else
    andThen (runAll (fun s p =>
      match s.jobAt j spc p.1 p.2 with
      | .held _ => (s, .error .held)
      | .cells ks _ => ((s.remember j.writer none ks).cellsWrite ks ((bs.drop (p.1 - a)).take p.2), .ok ())
      | _ => (s, .error (.mem 6 spc.wide.code 4 p.1))) (pieces 1024 a bs.length) s) fun s1 _ => (s1, .ok ())

/-- A 32-bit index or row pointer. -/
def State.jobIndex (s : State) (j : Job) (w : Option View) (a : Nat) : State × Except JobStop Nat :=
  andThen (s.jobRead j w j.listSpace a 4) fun s1 bs => (s1, .ok (leNat bs))

/-! ## Chunks (R253) -/

/-- What a chunk adds to `count`, whether a bad index was seen, whether it was the last, and the status that ends the job
with it, if any; and the row pointers that it read. -/
structure ChunkOut where
  count : Nat := 0
  bad : Bool := false
  last : Bool := true
  status : Option Nat := none
  ptrs : Option (List Nat) := none
  deriving DecidableEq, Repr

/-- The runs of destination bytes of copy chunk `c`: destination, source, length. -/
def Job.copyRuns (j : Job) (c : Nat) : List (Nat × Nat × Nat) :=
  let h := j.shape
  let total := h.row * h.rows
  (pieces h.row (65536 * c) (min 65536 (total - 65536 * c))).map fun p =>
    (j.aAt 0 + p.1 / h.row * h.ds + p.1 % h.row, j.bAt 0 + p.1 / h.row * h.ss + p.1 % h.row, p.2)

def State.copyChunk (s : State) (j : Job) : State × Except JobStop ChunkOut :=
  andThen (runAll (fun s r => andThen (s.jobRead j j.view j.srcSpace r.2.1 r.2.2) fun s1 bs => s1.jobWrite j j.dstSpace r.1 bs)
    (j.copyRuns j.chunk) s) fun s1 _ =>
      (s1, .ok { last := decide (j.shape.row * j.shape.rows ≤ 65536 * (j.chunk + 1)) })

/-- The empty index of R259. -/
def emptyIndex : Nat := 0xFFFFFFFF

/-- Element `q` of a gather, from index-list position `p`. The overlap rule compares neither the elements nor the index positions of a
`.csr` gather (R259). -/
def State.gatherOne (s : State) (j : Job) (q p : Nat) : State × Except JobStop Unit :=
  let e := j.elemBytes
  andThen (s.jobIndex j (if j.csr then j.looseView else j.view) (j.cAt 0 + 4 * p)) fun s1 x =>
    andThen (if x = emptyIndex then (s1, .ok (List.replicate e 0)) else s1.jobRead j j.looseView j.srcSpace (j.bAt 0 + x * e) e)
      fun s2 bs => s2.jobWrite j j.dstSpace (j.aAt 0 + q * e) bs

/-- The positions of chunk `c` among `total`. -/
def chunkPositions (c total : Nat) : List Nat := (List.range (min 256 (total - 256 * c))).map fun i => 256 * c + i

def State.gatherChunk (s : State) (j : Job) : State × Except JobStop ChunkOut :=
  let ps := chunkPositions j.chunk j.listLen
  andThen (runAll (fun s i => s.gatherOne j i i) ps s) fun s1 _ =>
    (s1, .ok { count := ps.length, last := decide (j.listLen ≤ 256 * (j.chunk + 1)) })

/-- Some row pointer is below the one before it. -/
def descends : List Nat → Bool
  | a :: b :: r => decide (b < a) || descends (b :: r)
  | _ => false

/-- The row pointers, read once for the job, before any element. -/
def State.rowPointers (s : State) (j : Job) : State × Except JobStop (List Nat) :=
  match j.ptrs with
  | some ps => (s, .ok ps)
  | none => runAll (fun s r => s.jobIndex j j.view (j.cAt 2 + 4 * r)) (List.range (j.listLen + 1)) s

def State.csrChunk (s : State) (j : Job) : State × Except JobStop ChunkOut :=
  andThen (s.rowPointers j) fun s1 ptr =>
    if descends ptr then (s1, .ok { status := some 5 })
    else
      let first := ptr.headD 0
      let total := ptr.getLastD 0 - first
      let ps := chunkPositions j.chunk total
      andThen (runAll (fun s q => s.gatherOne j q (first + q)) (ps.filter fun q => decide (q < j.lim)) s1) fun s2 _ =>
        let last := decide (total ≤ 256 * (j.chunk + 1))
        (s2, .ok { count := ps.length, last := last, status := if last ∧ j.lim < total then some 6 else none, ptrs := some ptr })

/-- One position of a scatter: (elements written, bad index). -/
def State.scatterOne (s : State) (j : Job) (i : Nat) : State × Except JobStop (Nat × Bool) :=
  let e := j.elemBytes
  andThen (s.jobIndex j j.view (j.cAt 0 + 4 * i)) fun s1 x =>
    if x = emptyIndex then (s1, .ok (0, false))
    else if j.lim ≤ x then (s1, .ok (0, true))
    else
      andThen (s1.jobRead j j.view j.srcSpace (j.bAt 0 + i * e) e) fun s2 bs =>
        andThen (s2.jobWrite j j.dstSpace (j.aAt 0 + x * e) bs) fun s3 _ => (s3, .ok (1, false))

def State.scatterChunk (s : State) (j : Job) : State × Except JobStop ChunkOut :=
  andThen (runAll (fun s i => s.scatterOne j i) (chunkPositions j.chunk j.listLen) s) fun s1 rs =>
    (s1, .ok { count := natSum (rs.map (·.1)), bad := rs.any (·.2), last := decide (j.listLen ≤ 256 * (j.chunk + 1)) })

/-! ### `XFORM` (R260, 05 R84, R85) -/

/-- The job's tables as captured at issue. -/
def Job.tableAt (j : Job) (n : Nat) : Option CodeTable := kget none j.tables n

/-- The record that the job writes for a source record: its size and bits, and the elements that saturated. -/
def Job.recode (j : Job) (n x : Nat) (r : RecordData) : (Nat × Nat) × Nat :=
  let sf := j.srcDesc.fmt
  let df := j.dstDesc.fmt
  if j.keep then ((n, x), 0)
  else
    let perRow := if j.srcDesc.sparsity = 0 then 16 else keepOf j.srcDesc.sparsity
    let els := (List.range (elemCount j.srcDesc.sparsity)).map fun i =>
      if i / perRow < r.rows then r.els.getD i 0 else j.srcDesc.fill
    let ys := els.map fun e => if df = sf then (e, (0 : BitVec 32)) else roundTo df (value sf e) .rn false
    (encodeTile df j.dstDesc.sparsity r.idx (j.tableAt j.encSlot) j.encSlot r.scales (ys.map (·.1)),
      (ys.filter fun y => y.2 &&& FLAG.saturated != 0).length)

/-- The line after an `XFORM` sets entry `i` to end e (05 R82). -/
def lineRaised (es : List Nat) (i e : Nat) : Nat :=
  (es.mapIdx fun k x => if k < i then x else if k = i then e else if entryEnd x < e then e else x).foldr
    (fun h x => h + x * 65536) 0

/-- Write the sidecar line of the page at `p`; where it cannot be written, that is reason 0x0F (21 R306). -/
def State.xformLine (s : State) (j : Job) (p line : Nat) (ctx : TileCtx) : State × Except JobStop Unit :=
  andThen (jobPart (s.planLine j.agent p line ctx)) fun s1 x =>
    let w := (s1.rememberPieces j.writer x.va x.ws).writePieces x.ws x.bytes
    if w.2 then (w.1, .ok ()) else (s1, .error x.fail.toStop)

/-- Write the record of tile `t` to the destination; `false` on a page overflow. -/
def State.xformWrite (s : State) (j : Job) (t : Nat) (rec_ : Nat × Nat) : State × Except JobStop Bool :=
  let d := j.dstDesc
  let ctx := tileCtx d ⟨0, 0, 0, 0⟩ 4 t
  if d.coded then
    let p := d.page t
    let ctx := { ctx with recAddr := p % 2 ^ 64 }
    andThen (jobPart (s.tensorRange j.agent Need.write p 1 (some true) ctx)) fun s1 _ =>
      andThen (jobPart (s1.readLine j.agent p (some t) ctx)) fun s2 es =>
        let st := slotStart es (t % 128)
        if 65536 < st + rec_.1 then (s2, .ok false)
        else
          andThen (jobPart (s2.tensorWrite j.agent (p + st) rec_.1 rec_.2 (some true) ctx)) fun s3 _ =>
            andThen (s3.xformLine j p (lineRaised es (t % 128) ((st + rec_.1) / 16)) ctx) fun s4 _ => (s4, .ok true)
  else
    let ctx := { ctx with recAddr := d.plainAt t % 2 ^ 64 }
    andThen (jobPart (s.tensorWrite j.agent (d.plainAt t) (max rec_.1 (slotSize d.fmt d.sparsity)) rec_.2 (some false) ctx))
      fun s1 _ => (s1, .ok true)

/-- One tile: the elements that saturated, and whether it fitted its page. A tile of an `XFORM` is named by its number: the
coordinates of a decode record are 0. DEDUCED (log 79). -/
def State.xformTile (s : State) (j : Job) (t : Nat) : State × Except JobStop (Nat × Bool) :=
  let d := j.srcDesc
  andThen (jobPart (s.findSlot j.agent d t (tileCtx d ⟨0, 0, 0, 0⟩ 4 t))) fun s1 sl =>
    andThen (jobPart (s1.tensorRead j.agent Need.read sl.va sl.n (some true) sl.ctx)) fun s2 x =>
      match parseRecord d.fmt d.sparsity sl.opened j.tableAt sl.n x with
      | .error e => (s2, .error (.decode e sl.ctx))
      | .ok r =>
        let y := j.recode sl.n x r
        andThen (s2.xformWrite j t y.1) fun s3 ok => (s3, .ok (y.2, ok))

/-- The tiles in order, until one overflows its page. -/
def State.xformTiles (s : State) (j : Job) : List Nat → State × Except JobStop (Nat × Bool)
  | [] => (s, .ok (0, true))
  | t :: ts =>
    andThen (s.xformTile j t) fun s1 r =>
      if r.2 then andThen (s1.xformTiles j ts) fun s2 q => (s2, .ok (r.1 + q.1, q.2)) else (s1, .ok r)

def State.xformChunk (s : State) (j : Job) : State × Except JobStop ChunkOut :=
  let ts := (List.range (min 16 (j.tileCount - 16 * j.chunk))).map fun i => j.firstTile + 16 * j.chunk + i
  let r := s.xformTiles j ts
  match r.2 with
  | .error e => (r.1, .error e)
  | .ok (n, false) => (s, .ok { count := n, status := some 7 })
  | .ok (n, true) => (r.1, .ok { count := n, last := decide (j.tileCount ≤ 16 * (j.chunk + 1)) })

/-! ### Remote jobs (R261 to R263) -/

/-- Every port that the handle may use is down (25 R347). DESIGN CHOICE (log 31). -/
def State.pathDown (s : State) (h : Word) : Bool := (h.setWidth 16 &&& ~~~s.portsDown) == 0

/-- The context of a page that is not coded (R262, 05 R357). -/
def pageCtx (p : Nat) : TileCtx := { path := 4, desc := 0, xy := 0, z := 0, tile := 0, recAddr := p, side := 0 }

/-- The four outcomes at the peer: accepted, checksum mismatch, link error, refused. The fabric's and the peer's part is a
free choice; a path with every port down is a link error. DESIGN CHOICE (log 31). -/
def peerStatus (down : Bool) (c : Nat) : Option Nat := if down then some 2 else [none, some 1, some 2, some 8].getD (c % 4) none

/-- DESIGN CHOICE (log 31, 57). -/
def State.sendChunk (s : State) (j : Job) : State × Except JobStop ChunkOut :=
  let p := j.bAt 0 + 65536 * j.chunk
  let t := s.translateRange j.core j.part Need.read p 65536
  match t.2 with
  | .error e => (t.1, .error (.mem 5 4 e.2 e.1))
  | .ok ws =>
    if ws.any fun w => w.1.kind != 1 then (t.1, .error (.decode ⟨0x15, 0, 0⟩ (pageCtx p)))
    else
      andThen (jobPart (t.1.readLine j.agent p none (pageCtx p))) fun s1 es =>
        andThen (s1.jobRead j j.view .g p 65536) fun s2 bs =>
          let c := s2.choose
          let st := peerStatus (s.pathDown j.handle) c.2
          let out : Sent := { handle := j.handle, addr := j.aAt 0 + 65536 * j.chunk, bytes := bs,
                              line := es.flatMap fun e => leBytes 2 e }
          ({ c.1 with sent := c.1.sent ++ [out] },
            .ok { last := decide (j.cAt 0 ≤ j.chunk + 1), status := st })

/-- The members of a multicast group that met a link error: all where every port is down, otherwise a free choice.
DESIGN CHOICE (log 31). -/
def castLost (down : Bool) (members c : Nat) : Nat := if down then members else c % (members + 1)

/-- How a `WBCAST` goes on behind a chunk: a member that has not met a link error may refuse the write, which ends the job with status
0x08 (25 R349); behind the last chunk a link error of a member does, with 0x02 (R263). DESIGN CHOICE (log 31). -/
def castStatus (last : Bool) (lost members c : Nat) : Option Nat :=
  if lost < members ∧ c % 2 = 1 then some 8 else if last ∧ lost ≠ 0 then some 2 else none

/-- DESIGN CHOICE (log 31). -/
def State.castChunk (s : State) (j : Job) : State × Except JobStop ChunkOut :=
  let lo := 65536 * j.chunk
  andThen (s.jobRead j j.view j.srcSpace (j.bAt 0 + lo) (min 65536 (j.cAt 0 - lo))) fun s1 bs =>
    let out : Sent := { handle := j.handle, addr := j.aAt 0 + lo, bytes := bs, line := [] }
    let last := decide (j.cAt 0 ≤ lo + 65536)
    let members := nbits j.handle.toNat 32 8
    let c := { s1 with sent := s1.sent ++ [out] }.choose
    let d := c.1.choose
    let lost := castLost (s.pathDown j.handle) members c.2
    let status := castStatus last lost members d.2
    (d.1, .ok { count := if last || status.isSome then lost else 0, last := last, status := status })

/-! ### `RINGPUSH` (R264) -/

/-- The constant record of a tile with no in-bounds element. DEDUCED (log 32). -/
def constRecord (d : Desc) : Nat :=
  let k := keepOf d.sparsity
  recordBitsOf 2 d.fmt ((List.range 16).flatMap fun _ => List.range k) 0 d.fmt.width (List.replicate 8 d.fscale)
    (d.fill % 2 ^ d.fmt.width)

/-- The record of tile t as a number below 2^(8S). DEDUCED (log 32). -/
def State.pushRecord (s : State) (j : Job) (t : Nat) : State × Except JobStop Nat :=
  let d := j.srcDesc
  let c := j.pushCoord t
  let n := slotSize d.fmt d.sparsity
  if !d.touches c then (s, .ok (constRecord d))
  else
    andThen (jobPart (s.findSlot j.agent d (d.tileNo c) (tileCtx d c 4 (d.tileNo c)))) fun s1 sl =>
      andThen (jobPart (s1.tensorRead j.agent Need.read sl.va (min sl.n n) (some d.coded) sl.ctx)) fun s2 x => (s2, .ok x)

/-- DEDUCED (log 32). -/
def State.pushChunk (s : State) (j : Job) : State × Except JobStop ChunkOut :=
  let n := slotSize j.srcDesc.fmt j.srcDesc.sparsity
  andThen (runAll (fun s t =>
    andThen (s.pushRecord j t) fun s1 x => s1.jobWrite j .sp (s.slotStartOf j + t * n) (leBytes n x))
    (List.range j.pushCount) s) fun s1 _ => (s1, .ok {})

/-- The chunk at the job's index. -/
def State.runChunk (s : State) (j : Job) : State × Except JobStop ChunkOut :=
  match j.kind with
  | .cpy | .cpy2d => s.copyChunk j
  | .gather => if j.csr then s.csrChunk j else s.gatherChunk j
  | .scatter => s.scatterChunk j
  | .xform => s.xformChunk j
  | .kvsend => s.sendChunk j
  | .wbcast => s.castChunk j
  | .ringpush => s.pushChunk j

/-! ## Indeterminate bytes (R252, R253) -/

/-- The record bytes of `n` tiles from `t0` on in one page of a coded destination: from the first one's slot on, as many as the tiles can
fill, and where a tile above them has a record, up to the last one's slot end; none where the line cannot be read.
DESIGN CHOICE (log 24). -/
def State.lostRecords (s : State) (j : Job) (p t0 n : Nat) : List RawRange :=
  match (s.readLine j.agent p none (descCtx 4 0)).2 with
  | .error _ => []
  | .ok es =>
    let start := slotStart es (t0 % 128)
    let stop := slotStart es (t0 % 128 + n)
    let above := (es.drop (t0 % 128 + n)).any fun x => decide (stop < 16 * entryEnd x)
    [{ space := .g, lo := p + start
       n := if above then stop - start else min (n * slotSize j.dstDesc.fmt j.dstDesc.sparsity) (65536 - start) }]

/-- What an `XFORM` has not completed in one page of a coded destination: the tiles' records and their sidecar entries.
DESIGN CHOICE (log 24). -/
def State.lostPage (s : State) (j : Job) (t0 n : Nat) : List RawRange :=
  let p := j.dstDesc.page t0
  s.lostRecords j p t0 n ++ [{ space := .g, lo := s.lineAt j.part p + 2 * (t0 % 128), n := 2 * n }]

/-- The elements that the positions of a scatter from `p` on name, where the position can be read. DESIGN CHOICE (log 24). -/
def State.lostElements (s : State) (j : Job) (d : RawRange) (p : Nat) : List RawRange :=
  (List.range (j.listLen - p)).filterMap fun i =>
    match (s.jobIndex j j.view (j.cAt 0 + 4 * (p + i))).2 with
    | .ok x => if x < j.lim then some { d with lo := d.lo + x * j.elemBytes, n := j.elemBytes } else none
    | .error _ => none

/-- The elements that a gather writes: those of its list, or of its walk as far as they fit; none where the row pointers cannot be read.
DESIGN CHOICE (log 24). -/
def State.gatherLen (s : State) (j : Job) : Nat :=
  if j.csr then
    match (s.rowPointers j).2 with
    | .ok ps => if descends ps then 0 else min (ps.getLastD 0 - ps.headD 0) j.lim
    | .error _ => 0
  else j.listLen

/-- The destination runs at or above the job's chunk index: every byte there is indeterminate after status 0x03 or 0x07.
DESIGN CHOICE (log 24). -/
def State.lostRuns (s : State) (j : Job) : List RawRange :=
  match s.jobDst j with
  | none => []
  | some d =>
    match j.kind with
    | .cpy | .cpy2d =>
      let h := j.shape
      (pieces h.row (65536 * j.chunk) (h.row * h.rows - 65536 * j.chunk)).map fun p =>
        { space := j.dstSpace, lo := j.aAt 0 + p.1 / h.row * h.ds + p.1 % h.row, n := p.2 }
    | .gather => [{ d with lo := d.lo + 256 * j.chunk * j.elemBytes, n := (s.gatherLen j - 256 * j.chunk) * j.elemBytes }]
    | .scatter => s.lostElements j d (256 * j.chunk)
    | .xform =>
      let t0 := j.firstTile + 16 * j.chunk
      let n := j.tileCount - 16 * j.chunk
      if j.dstDesc.coded then (pieces 128 t0 n).flatMap fun p => s.lostPage j p.1 p.2
      else [j.dstDesc.tileRange t0 (t0 + n - 1)]
    | _ => [d]

/-- One indeterminate byte, where it can be written. DESIGN CHOICE (log 24). -/
def State.scrambleByte (s : State) (j : Job) (spc : Space4) (a : Nat) : State :=
  let c := s.choices
  let r := s.jobWrite j spc a [BitVec.ofNat 8 (Config.junk c)]
  match r.2 with
  | .ok _ => { r.1 with choices := c + 1 }
  | .error _ => s

/-- DESIGN CHOICE (log 24). -/
def State.scramble (s : State) (j : Job) : State :=
  (s.lostRuns j).foldl (fun s r => (List.range r.n).foldl (fun s i => s.scrambleByte j r.space (r.lo + i)) s) s

end Sys2Proof.Machine
end

