-- ==== Sys2Proof/Machine/System.lean ====
section
/-!
DEFINITION. System instructions of class S: `TRAP`, `CLOCK`, `SYSRD`, `SYSWR`, `VALID` (13 R214 to R218).
-/
namespace Sys2Proof.Machine

/-! ## `TRAP` (R214) -/

/-- The system-call record; the device time is filled in when it is written. -/
def callRecord (code : BitVec 17) (d : Opd) (pc : Word) (grid : Nat) (ident a b : Word) : Record :=
  { words := [BitVec.ofNat 64 (code.toNat * 2 ^ 32 + d.toField.toNat * 256 + 8), pc, BitVec.ofNat 64 grid, ident, a, b, 0, 0],
    timeAt := some 6, job := none }

def execTrap (g : Guard) (d a b : Opd) (code : BitVec 17) (s : State) : Out :=
  .next (s.blocking anyRole g [d, a, b] fun act s1 =>
    let grp := s1.me
    let r := callRecord code d grp.cur s1.myTeam.grid (s1.identOf grp) (grp.rdGroup a act) (grp.rdGroup b act)
    (s1.setMe { grp with status := .parked (.call d act) }).post s1.myPart true r)

/-! ## `CLOCK` (R215) -/

/-- DESIGN CHOICE (log 56). -/
def execClock (g : Guard) (cyc : Bool) (d : Opd) (s : State) : Out :=
  .next (s.groupLevel anyRole g [d] fun act s1 =>
    let x := if cyc then (s1.core s1.me.core).cycles else s1.timeOf s1.myPart
    s1.setMe (s1.me.wr d act fun _ => BitVec.ofNat 64 x).next)

/-! ## The validity word (R218, 19 R294) -/

/-- The fault record fields of an access to the validity word. -/
def validFault (act : List Nat) (access reason va : Nat) : MemFault :=
  { lanes := act, access := access, lane := act.headD 0, space := 4, reason := reason, addr := va }

/-- The grid's validity word: in memory at `vword`, or held by the device. -/
def State.validRead (s : State) (core grid : Nat) : State × Except Nat Word :=
  let x := s.grid grid
  if x.pkt.vword = 0 then (s, .ok x.vheld)
  else
    let r := s.vread core (partOf grid) x.pkt.vword.toNat 8
    match r.2 with
    | .ok bs => (r.1, .ok (wordOf bs))
    | .error e => (r.1, .error e.2)

/-- The atomic OR into the validity word, which needs `w` (23 R332). -/
def State.validOr (s : State) (core grid : Nat) (v : Word) : State × Except Nat Unit :=
  let x := s.grid grid
  if x.pkt.vword = 0 then (s.setGrid grid { x with vheld := x.vheld ||| v }, .ok ())
  else
    let t := s.translate core (partOf grid) Need.write x.pkt.vword.toNat
    match t.2 with
    | .error e => (t.1, .error e)
    | .ok w =>
      let r := t.1.physRead w.pa 8
      match r.2 with
      | none => (r.1, .error 6)
      | some bs =>
        let q := r.1.physWrite w.pa (wordBytes (wordOf bs ||| v))
        if q.2 then (q.1, .ok ()) else (q.1, .error 6)

def execValid (g : Guard) (f : ValidForm) (s : State) : Out :=
  let a : Opd := match f with
    | .bit _ => .zero
    | .reg a => a
  .next (s.groupLevel anyRole g [a] fun act s1 =>
    let v : Word := match f with
      | .bit n => 1#64 <<< n.toNat
      | .reg a => s1.me.rdGroup a act
    let r := s1.validOr s1.me.core s1.myTeam.grid v
    match r.2 with
    | .ok _ => r.1.commit
    | .error e => r.1.memFault (validFault act 2 e s1.myGrid.pkt.vword.toNat))

/-! ## Special registers (R216, R217) -/

/-- `IDENT`. -/
def Group.identReg (g : Group) : Word :=
  BitVec.ofNat 64 (g.core % 256 * 2 ^ 24 + clusterOf g.core % 32 * 2 ^ 19 + g.core % 8 * 2 ^ 16 + g.slot % 32 * 256
    + g.index % 32)

/-- The value of a special register; `VALIDW` may fault instead. -/
def State.sysRead (s : State) (r : SysReg) : State × Except Nat Word :=
  let g := s.me
  let t := s.team g.team
  let x := s.grid t.grid
  match r with
  | .flags => (s, .ok (g.flags.setWidth 64))
  | .flagen => (s, .ok (g.flagen.setWidth 64))
  | .amax => (s, .ok (g.amax.setWidth 64))
  | .nancnt => (s, .ok (g.nancnt.setWidth 64))
  | .satcnt => (s, .ok (g.satcnt.setWidth 64))
  | .evpendLo => (s, .ok (halfOf false g.evpend))
  | .evpendHi => (s, .ok (halfOf true g.evpend))
  | .evmaskLo => (s, .ok (halfOf false g.evmask))
  | .evmaskHi => (s, .ok (halfOf true g.evmask))
  | .gang => (s, .ok g.gang)
  | .ident => (s, .ok g.identReg)
  | .teamno => (s, .ok (BitVec.ofNat 64 (t.number % 2 ^ 24)))
  | .gridno => (s, .ok (BitVec.ofNat 64 t.grid))
  | .depth => (s, .ok (BitVec.ofNat 64 x.depth))
  | .deadline => (s, .ok (BitVec.ofNat 64 x.deadline))
  | .regalloc => (s, .ok (BitVec.ofNat 64 g.gran))
  | .spbase => (s, .ok (BitVec.ofNat 64 (t.spbaseOn g.core % 2 ^ 19)))
  | .pvbase => (s, .ok (BitVec.ofNat 64 g.pvbase))
  | .validw => s.validRead g.core t.grid
  | .sidebase => (s, .ok (s.part (partOf t.grid)).sidebase)

/-- Numbers 0x000 to 0x00B, whose access waits for every earlier instruction of the group (R216). -/
def SysReg.ordered : SysReg → Bool
  | .flags | .flagen | .amax | .nancnt | .satcnt | .evpendLo | .evpendHi | .evmaskLo | .evmaskHi => true
  | _ => false

def execSysrd (g : Guard) (d : Opd) (r : SysReg) (s : State) : Out :=
  .next (s.groupLevel anyRole g [d] fun act s1 =>
    if SysReg.ordered r && s1.inFlight s1.focus then s
    else
      let v := s1.sysRead r
      match v.2 with
      | .ok w => v.1.setMe (v.1.me.wr d act fun _ => w).next
      | .error e => v.1.memFault (validFault act 0 e s1.myGrid.pkt.vword.toNat))

/-- What a write to `AMAX` stores: bit 31 cleared, a NaN as 0 (R216). -/
def amaxStored (v : Word) : BitVec 32 :=
  let p : BitVec 32 := v.setWidth 32 &&& 0x7FFFFFFF
  if 0x7F800000 < p.toNat then 0 else p

/-- The defined bits of `SIDEBASE` (05 R75). -/
def sideMask : Word := 0x01FFFFFFFFFF0000

/-- A write of the issuing group's own special register; a write to an RO register is ignored. -/
def Group.sysWrite (g : Group) (r : SysReg) (v : Word) : Group :=
  match r with
  | .flags => { g with flags := flagBits v }
  | .flagen => { g with flagen := flagBits v }
  | .amax => { g with amax := amaxStored v }
  | .nancnt => { g with nancnt := v.setWidth 32 }
  | .satcnt => { g with satcnt := v.setWidth 32 }
  | .evmaskLo => { g with evmask := withHalf false g.evmask v &&& evMaskBits }
  | .evmaskHi => { g with evmask := withHalf true g.evmask v &&& evMaskBits }
  | _ => g

def execSyswr (g : Guard) (r : SysReg) (a : Opd) (s : State) : Out :=
  .next (s.groupLevel anyRole g [a] fun act s1 =>
    let v := s1.me.rdGroup a act
    if SysReg.ordered r && s1.inFlight s1.focus then s
    else if r = .sidebase then
      if s1.myGrid.sys then
        ((s1.setPart s1.myPart { s1.part s1.myPart with sidebase := v &&& sideMask }).dropLines s1.myPart).commit
      else s1.trap .illegalOperand
    else s1.setMe (s1.me.sysWrite r v).next)

end Sys2Proof.Machine
end

