-- ==== Sys2Proof/Machine/FrontEnd.lean ====
section
/-!
DEFINITION. The command front end (19 R267 to R285, R290, R294): launch packets and their checks, admission, completion
records and notices, launch-node graphs, `LAUNCH` and `DONE`, and expiry.
-/
namespace Sys2Proof.Machine

/-! ## Launch packets (R267, R268) -/

/-- Ring `r` of the packet: present bit, slots − 1, slot size in 256-byte units. -/
def ringField (x : Nat) : Bool × Nat × Nat := (nbits x 15 1 == 1, nbits x 11 4, nbits x 0 11)

/-- The fields of a packet from its sixteen words. -/
def packetOf (ws : List Word) : Packet :=
  let w := fun i => (ws.getD i 0).toNat
  { root := nbits (w 0) 50 14, graph := nbits (w 0) 49 1 == 1, notify := nbits (w 0) 48 1 == 1, teams := nbits (w 0) 24 24,
    groups := nbits (w 0) 19 5, paired := nbits (w 0) 18 1 == 1, sys := nbits (w 0) 17 1 == 1,
    rsv := nbits (w 0) 16 1 != 0 || nbits (w 6) 26 38 != 0 || nbits (w 6) 5 3 != 0 || w 15 != 0,
    cls := nbits (w 0) 13 3, nbind := nbits (w 0) 8 5, ver := nbits (w 0) 0 8, entry := ws.getD 1 0, wrap := ws.getD 2 0,
    trap := ws.getD 3 0, deadline := w 4, work := nbits (w 5) 32 32, budget := nbits (w 5) 0 32, acc := nbits (w 6) 24 2,
    priv := nbits (w 6) 18 6, spkib := nbits (w 6) 8 10, gran := nbits (w 6) 0 5,
    roles := (List.range 32).map fun g => nbits (w 7) (2 * g) 2,
    rings := (List.range 8).map fun r => ringField (nbits (w (8 + r / 4)) (16 * (r % 4)) 16),
    args := ws.getD 10 0, recAddr := ws.getD 11 0, vword := ws.getD 12 0, bind := ws.getD 13 0, tag := ws.getD 14 0 }

/-- T and G of R16. -/
def Packet.total (p : Packet) : Nat := p.teams + 1
def Packet.size (p : Packet) : Nat := p.groups + 1

/-- Groups that a team places on one of its cores. -/
def Packet.perCore (p : Packet) : Nat := if p.paired then p.size / 2 else p.size

/-- A core's scratchpad need in bytes, rounded up to 1 KiB (R267, 07 R88). -/
def Packet.scratch (p : Packet) : Nat := (1024 * p.spkib + 2048 * p.priv * p.perCore + 1023) / 1024 * 1024

/-- The present rings: those before the first absent one. -/
def Packet.ringList (p : Packet) : List (Nat × Nat) :=
  (p.rings.takeWhile fun r => r.1).map fun r => (r.2.1 + 1, 256 * r.2.2)

/-- Check 0x14: present rings are rings 0 to n − 1 with a size, within `spkib` KiB. -/
def Packet.ringsBad (p : Packet) : Bool :=
  (p.rings.drop p.ringList.length).any (fun r => r.1) || p.ringList.any (fun r => r.2 == 0)
    || decide (1024 * p.spkib < natSum (p.ringList.map fun r => r.1 * r.2))

/-- Check 0x16. A kernel node's packet may have no record. -/
def Packet.addrBad (p : Packet) (node : Bool) : Bool :=
  p.entry == 0 || p.entry.toNat % 8 != 0 || p.wrap.toNat % 8 != 0 || p.trap.toNat % 8 != 0
    || (p.recAddr == 0 && !node) || p.recAddr.toNat % 64 != 0 || p.vword.toNat % 8 != 0 || p.bind.toNat % 16 != 0

/-- The first failing check of 0x10 to 0x16. A kernel node's packet has no `graph` or `root` (R282). -/
def Packet.shapeError (p : Packet) (node : Bool) : Option Nat :=
  if p.ver ≠ 1 ∨ p.rsv ∨ (!node ∧ !p.graph ∧ p.root ≠ 0) then some 0x10
  else if p.paired ∧ p.size % 2 ≠ 0 then some 0x11
  else if 1 < ((p.roles.take p.size).filter (· == 3)).length ∨ (p.roles.drop p.size).any (· != 0) then some 0x12
  else if p.gran < 1 ∨ 20 < p.gran ∨ 512 < p.spkib ∨ 32 < p.priv ∨ 2 < p.acc then some 0x13
  else if p.ringsBad then some 0x14
  else if coreGranules < p.gran * p.perCore ∨ coreSlots < p.perCore ∨ coreScratch < p.scratch then some 0x15
  else if p.addrBad node then some 0x16
  else none

/-! ## Weight-set bindings (R284) -/

/-- One entry: handle and base, when its bytes [7:4] are 0. -/
def bindEntry (bs : List Byte) : Option (Nat × Word) :=
  let h := leNat (bs.take 4)
  let base := wordOf ((bs.drop 8).take 8)
  if h = 0 ∨ leNat ((bs.drop 4).take 4) ≠ 0 ∨ base.toNat % 16 ≠ 0 then none else some (h, base)

/-- The entries, unless one is malformed or two handles are equal. -/
def bindTable : Nat → List Byte → List (Nat × Word) → Option (List (Nat × Word))
  | 0, _, acc => some acc
  | n + 1, bs, acc =>
    match bindEntry bs with
    | none => none
    | some e => if acc.any fun x => x.1 == e.1 then none else bindTable n (bs.drop 16) (acc ++ [e])

/-- The binding table of a packet: reason 0x17 when it cannot be read or breaks a rule. -/
def State.readBindings (s : State) (part : Nat) (p : Packet) : State × Option (List (Nat × Word)) :=
  if 16 < p.nbind then (s, none)
  else if p.nbind = 0 then (s, some [])
  else
    let r := s.vread noCore part p.bind.toNat (16 * p.nbind)
    match r.2 with
    | .error _ => (r.1, none)
    | .ok bs => (r.1, bindTable p.nbind bs [])

/-- The checks of R268 in their order; those of a graph's nodes are made when the graph starts (R279). `mayBeSys` holds for
a packet of the privileged queue and for one launched by a grid with `sys` = 1. DEDUCED (log 34). -/
def State.shapeCheck (s : State) (part : Nat) (p : Packet) (node mayBeSys : Bool) : State × Option Nat :=
  match p.shapeError node with
  | some e => (s, some e)
  | none =>
    let b := s.readBindings part p
    match b.2 with
    | none => (b.1, some 0x17)
    | some _ => (b.1, if p.sys && !mayBeSys then some 0x19 else none)

/-- A packet's 128 bytes, or the address and reason of the memory fault (R274, R282). -/
def State.readPacket (s : State) (core part : Nat) (a : Word) (w : Option View := none) : State × Except (Nat × Nat) Packet :=
  if a.toNat % 128 ≠ 0 then (s, .error (a.toNat, 5))
  else
    let r := s.vread core part a.toNat 128 w
    match r.2 with
    | .error e => (r.1, .error e)
    | .ok bs => (r.1, .ok (packetOf (wordsOf 16 bs)))

/-! ## Records and notices (R270 to R273) -/

/-- A misalignment or translation fault of the issuing group. -/
def issueFault (act : List Nat) (access space reason addr : Nat) : MemFault :=
  { lanes := act, access := access, lane := act.headD 0, space := space, reason := reason, addr := addr }

/-- What a completion record says. -/
structure Completion where
  ran : Nat := 0
  reason : Nat := 0
  nerr : Bool := false
  exp : Bool := false
  status : Nat
  grid : Nat
  valid : Word := 0
  admitted : Nat := 0
  start : Nat := 0
  cancel : Nat := 0
  deriving DecidableEq, Repr

/-- The eight words of a completion record. -/
def Completion.words (c : Completion) (tag : Word) (stop : Nat) : List Word :=
  [BitVec.ofNat 64 (c.ran % 2 ^ 32 * 2 ^ 32 + c.reason % 256 * 2 ^ 16 + c.nerr.toNat * 2 ^ 10 + c.exp.toNat * 2 ^ 9 + 2 ^ 8
      + c.status % 256),
   BitVec.ofNat 64 c.grid, c.valid, tag, BitVec.ofNat 64 c.admitted, BitVec.ofNat 64 c.start, BitVec.ofNat 64 stop,
   BitVec.ofNat 64 (c.cancel % 2 ^ 32 * 2 ^ 32)]

/-- The eight words of a completion notice. -/
def Completion.notice (c : Completion) (rec_ tag : Word) (stop : Nat) : List Word :=
  [BitVec.ofNat 64 (c.ran % 2 ^ 32 * 2 ^ 32 + c.reason % 256 * 2 ^ 16 + c.status % 256 * 2 ^ 8 + 7), BitVec.ofNat 64 c.grid,
   rec_, tag, c.valid, BitVec.ofNat 64 stop, 0, 0]

/-- A memory-fault record of a front-end access (R303): `pc` 0, `ident` only the partition. DEDUCED (log 58). -/
def State.frontFault (s : State) (part access reason addr grid : Nat) : State :=
  s.post part false (memRecord (issueFault [] access 4 reason addr) 0 grid (identWord 0 0 0 part) 0)

/-- The record is written, or a fault record says that it could not be (R272). -/
def State.writeCompletion (s : State) (part : Nat) (p : Packet) (c : Completion) : State :=
  let ws := c.words p.tag (s.timeOf part)
  let w := s.vwrite noCore part p.recAddr.toNat (ws.flatMap wordBytes)
  match w.2 with
  | .ok _ => w.1
  | .error e => w.1.frontFault part 1 e.2 p.recAddr.toNat c.grid

/-- The record of a kernel node's packet, which may have none (R282). -/
def State.writeNodeCompletion (s : State) (part : Nat) (p : Packet) (c : Completion) : State :=
  if p.recAddr = 0 then s else s.writeCompletion part p c

/-- The notice of a packet with `notify` = 1 waits to be sent (R273). -/
def State.addNotice (s : State) (part : Nat) (p : Packet) (c : Completion) : State :=
  if p.notify then
    let x := s.part part
    let n : Record := { words := c.notice p.recAddr p.tag (s.timeOf part), timeAt := none, job := none }
    s.setPart part { x with notices := x.notices ++ [n] }
  else s

/-- Record and notice of a packet. -/
def State.completePacket (s : State) (part : Nat) (p : Packet) (c : Completion) : State :=
  (s.writeCompletion part p c).addNotice part p c

/-- The heap entries of a partition. -/
def State.heapOf (s : State) (part : Nat) : List Graph := (s.graphs.filter fun e => e.2.live && e.2.part == part).map fun e => e.2

/-- A partition that is dropped ceases to exist when nothing of it is left (25 R342): its chip window is zeroed, and its
identifier sequence goes on. DEDUCED (log 41). -/
def State.dropCheck (s : State) (part : Nat) : State :=
  let x := s.part part
  if x.live && x.dropping && (s.heapOf part).isEmpty && x.fwait.isEmpty && x.hwait.isEmpty && x.notices.isEmpty then
    let s1 := s.setPart part { Partition.absent with seq := x.seq }
    let lo := chKey x.chipBase
    let hi := chKey (x.chipBase + x.chipSize)
    { s1 with mem := kcut s1.mem lo hi, bad := s1.bad.filter fun k => !(lo ≤ k && k < hi),
              held := s1.held.filter fun h => h.part != part }
  else s

/-- `COMPLETION_NOTICE`: the oldest notice of a partition goes to its host ring. -/
def execCompletionNotice (part : Nat) (s : State) : Out :=
  .next (
    let x := s.part part
    match x.notices with
    | [] => s
    | n :: rest => ((s.setPart part { x with notices := rest }).post part true n).dropCheck part)

/-! ## Admission (R272, R274 to R276) -/

/-- The next grid identifier of a partition. DEDUCED (log 35). -/
def State.newId (s : State) (part : Nat) : State × Nat :=
  let x := s.part part
  (s.setPart part { x with seq := x.seq + 1 }, part * 2 ^ 58 + (x.seq + 1) % 2 ^ 58)

/-- All heap entries. DESIGN CHOICE (log 30). -/
def State.heapSize (s : State) : Nat := (s.graphs.filter fun e => e.2.live).length

/-- The demand test of R275 for a new packet with deadline `d` and work `w`. -/
def State.demandMet (s : State) (part d w : Nat) : Bool :=
  let items := (d, w) :: (s.heapOf part).map fun g => (g.deadline, g.pkt.work)
  let now := s.timeOf part
  items.all fun j => decide (j.1 < d) ||
    decide (256000 * natSum ((items.filter fun i => i.1 ≤ j.1).map fun i => i.2) ≤ (s.part part).share * (j.1 - now))

/-- The reason of "not admitted", in the order of R274. DESIGN CHOICE (log 30). -/
def State.refusal (s : State) (part d : Nat) (p : Packet) : Option Nat :=
  if d ≤ s.timeOf part + p.budget then some 1
  else if (s.part part).quota ≤ (s.heapOf part).length ∨ 256 ≤ s.heapSize then some 2
  else if s.demandMet part d p.work then none
  else some 3

/-- The grid of a launching team. -/
def State.parentGrid (s : State) (parent : Option Nat) : Option Grid := parent.map fun tk => s.grid (s.team tk).grid

/-- The heap entry of an admitted packet. A child's deadline and expiry point are no later than its parent's (R19, R290).
DEDUCED (log 35). -/
def State.newGraph (s : State) (part : Nat) (p : Packet) (priv : Bool) (parent : Option Nat) : Graph :=
  let up := s.parentGrid parent
  let d := min p.deadline ((up.map Grid.deadline).getD p.deadline)
  let e := d - p.budget
  { Graph.absent with
    live := true, part := part, pkt := p, order := s.nextOrder, deadline := d,
    expiry := min e ((up.map Grid.expiry).getD e), admitted := s.timeOf part, depth := (up.map Grid.depth).getD 0 + 1,
    sys := priv || (up.map Grid.sys).getD false, parent := parent }

/-- A readable packet is submitted: it gets an identifier, and is admitted or refused with a record (R272, R274). -/
def State.submit (s : State) (part : Nat) (p : Packet) (priv : Bool) (parent : Option Nat) : State × Nat :=
  let n := s.newId part
  let g := n.1.newGraph part p priv parent
  let c := n.1.shapeCheck part p false g.sys
  match c.2 with
  | some r => (c.1.completePacket part p { status := 4, reason := r, grid := n.2 }, n.2)
  | none =>
    match c.1.refusal part g.deadline p with
    | some r => (c.1.completePacket part p { status := 3, reason := r, grid := n.2 }, n.2)
    | none => ({ c.1.setGraph n.2 g with nextOrder := c.1.nextOrder + 1 }, n.2)

/-- Limit and consumer index of a submission queue. -/
def Partition.queue (x : Partition) (priv : Bool) : BitVec 32 × BitVec 32 :=
  if priv then (x.plimit, x.pcons) else (x.nlimit, x.ncons)

def Partition.queueAt (x : Partition) (priv : Bool) : Nat := if priv then x.sqp else x.sqn

/-- The consumer index advances, in the queue's header too (25 R345). DEDUCED (log 58). -/
def State.takeEntry (s : State) (part : Nat) (priv : Bool) : State :=
  let x := s.part part
  let c := (x.queue priv).2 + 1
  ((s.setPart part (if priv then { x with pcons := c } else { x with ncons := c })).physWrite (x.queueAt priv + 4)
    (leBytes 4 c.toNat)).1

/-- `SUBMISSION_ENTRY`: the oldest entry below the queue's doorbell limit is taken. DEDUCED (log 58). -/
def execSubmissionEntry (part : Nat) (priv : Bool) (s : State) : Out :=
  .next (
    let x := s.part part
    let q := x.queue priv
    if !x.live || x.dropping || q.1 == q.2 then s
    else
      let at_ := x.queueAt priv + 64 + 8 * (q.2.toNat % x.entries (if priv then 3 else 2))
      let r := s.physRead at_ 8
      let s1 := r.1.takeEntry part priv
      match r.2 with
      | none => s1.frontFault part 4 6 at_ 0
      | some bs =>
        let k := s1.readPacket noCore part (wordOf bs)
        match k.2 with
        | .error e => k.1.frontFault part 4 e.2 e.1 0
        | .ok p => (k.1.submit part p priv none).1)

/-! ## `LAUNCH` (13 R219, R25) -/

/-- The guard is true in a lane other than the leader thread. -/
def notLeader (g : Group) (act : List Nat) : Bool := act.any fun l => g.index != 0 || l != 0

def execLaunch (g : Guard) (d a : Opd) (s : State) : Out :=
  .next (s.groupLevel anyRole g [d, a] fun act s1 =>
    let grp := s1.me
    let part := s1.myPart
    if notLeader grp act then s1.trap .role 8
    else
      let k := s1.readPacket grp.core part (grp.rdGroup a act) (s1.groupView s1.focus)
      match k.2 with
      | .error e => k.1.memFault (issueFault act 4 4 e.2 e.1)
      | .ok p =>
        let r := if 10 ≤ s1.myGrid.depth then (k.1.completePacket part p { status := 5, grid := 0 }, 0)
          else k.1.submit part p false (some grp.team)
        r.1.setMe (r.1.me.wr d act fun _ => BitVec.ofNat 64 r.2).next)

/-! ## The end of a grid (R271, R290, R294, 13 R220) -/

/-- The teams of a grid that have not started are cancelled and counted, once. DEDUCED (log 36). -/
def State.cancelUnstarted (s : State) (gid : Nat) : State :=
  let x := s.grid gid
  if x.stopping then s
  else (s.setGrid gid { x with stopping := true, cancelled := x.pkt.total - x.started }).sendDown 32 2 gid 0 0

/-- The status of a grid that ran. -/
def Grid.status (x : Grid) : Nat :=
  if x.mcheck then 7 else if x.terminated then 6 else if x.doneGrid then 1 else if x.expired then 2 else 1

/-- The mailboxes bound to a grid become free (13 R210). -/
def State.freeMailboxes (s : State) (gid : Nat) : State :=
  { s with cores := kmap Core.fresh s.cores fun _ c => { c with mbox := c.mbox.filter fun e => e.2.grid != gid } }

/-- A packet's heap entry is freed. -/
def State.freeGraph (s : State) (gid : Nat) : State := (s.setGraph gid Graph.absent).dropCheck (s.graph gid).part

/-- The end of a kernel node's grid, as its graph sees it: an error unless the status is complete. -/
def State.nodeGridEnds (s : State) (x : Grid) (st : Nat) (v : Word) (idx : Nat) : State :=
  let g := s.graph x.graph
  let n := s.node idx
  (s.setGraph x.graph { g with valid := g.valid ||| v, mcheck := g.mcheck || st == 7, terminated := g.terminated || st == 6 })
    |>.setNode idx { n with err := n.err || st != 1 }

/-- A grid whose teams have all retired or been cancelled ends: its record, and its heap entry or its node. -/
def State.finishGrid (s : State) (gid : Nat) : State :=
  let x := s.grid gid
  let r := s.validRead noCore gid
  let v := match r.2 with
    | .ok w => w
    | .error _ => 0
  let st := x.status
  let c : Completion :=
    { ran := x.retired, exp := x.expired, status := st, grid := gid, valid := v, admitted := (s.graph x.graph).admitted,
      start := x.start, cancel := x.cancelled }
  let s1 := r.1.freeMailboxes gid
  match x.node with
  | some idx => ((s1.writeNodeCompletion x.part x.pkt c).nodeGridEnds x st v idx).setGrid gid Grid.absent
  | none => ((s1.completePacket x.part x.pkt c).freeGraph x.graph).setGrid gid Grid.absent

/-- The grid ends if nothing of it is left. -/
def State.checkGrid (s : State) (gid : Nat) : State :=
  let x := s.grid gid
  if x.live && x.started == x.retired && x.retired + x.cancelled == x.pkt.total then s.finishGrid gid else s

/-- The team's groups end, and R32 is looked at on its cores (13 R220). -/
def State.endTeam (s : State) (tk : Nat) : State :=
  ((s.teamGroups tk).foldl State.endGroup s).growCheck (s.team tk).cores

/-- The teams of a grid that live. -/
def State.gridTeams (s : State) (gid : Nat) : List Nat := s.teamsThat fun t => t.grid == gid

/-- Every group of a grid ends. -/
def State.endGridGroups (s : State) (gid : Nat) : State :=
  (s.gridTeams gid).foldl (fun s tk => (s.endTeam tk).refreshWake tk) s

/-- Termination of a grid by system software (21 R305). -/
def State.terminateGrid (s : State) (gid : Nat) : State :=
  let s1 := s.setGrid gid { s.grid gid with terminated := true }
  ((s1.cancelUnstarted gid).endGridGroups gid).checkGrid gid

/-- DEDUCED (log 36). -/
def execDone (g : Guard) (grid : Bool) (s : State) : Out :=
  .next (s.groupLevel anyRole g [] fun _ s1 =>
    let tk := s1.me.team
    let gid := s1.myTeam.grid
    let s2 := if grid then (s1.setGrid gid { s1.myGrid with doneGrid := true }).cancelUnstarted gid else s1
    s2.endTeam tk)

/-! ## Nodes (R280, R281, R283) -/

/-- The graph's expiry point has passed. -/
def State.graphOver (s : State) (gid : Nat) : Bool :=
  let x := s.graph gid
  x.expired || decide (x.expiry ≤ s.timeOf x.part)

/-- A node leaves its graph, completed or cancelled; its successors' decrements follow. -/
def State.endNode (s : State) (idx : Nat) (err cancelled : Bool) : State × List (Nat × Bool) :=
  let n := s.node idx
  let g := s.graph n.graph
  let e := n.err || err
  let g' := if cancelled then { g with cancelled := g.cancelled + 1 } else { g with ran := g.ran + 1, nerr := g.nerr || e }
  ((s.setNode idx { n with phase := if cancelled then .cancelled else .complete, err := e, done := !cancelled }).setGraph
    n.graph g', n.csucc.map fun i => (i, e || cancelled))

/-- A node whose counter has reached 0: cancelled after the expiry point, complete at once when it carries an error and
skips, otherwise ready. DEDUCED (log 36). -/
def State.readyNode (s : State) (idx : Nat) : State × List (Nat × Bool) :=
  let n := s.node idx
  if s.graphOver n.graph then s.endNode idx false true
  else if n.err && n.skip then s.endNode idx false false
  else (s.setNode idx { n with phase := .ready }, [])

/-- One decrement, and the decrements that it brings about. A node whose count has been 0 from the start is not readied by one.
DESIGN CHOICE (log 91). -/
def State.oneDec (s : State) (idx : Nat) (err : Bool) : State × List (Nat × Bool) :=
  let n := s.node idx
  if n.graph = 0 then (s, [])
  else if n.count = 0 then
    match n.phase with
    | .ready => if n.skip then s.endNode idx true false else (s.setNode idx { n with err := true }, [])
    | .complete =>
      let g := s.graph n.graph
      ((s.setNode idx { n with err := true }).setGraph n.graph { g with nerr := true }, [])
    | _ => (s.setNode idx { n with err := true }, [])
  else
    let s1 := s.setNode idx { n with count := n.count - 1, err := n.err || err }
    if n.count = 1 then s1.readyNode idx else (s1, [])

/-- Decrements one after another, with all that they bring about; each node ends once, so `fuel` is never used up. -/
def State.decAll : Nat → List (Nat × Bool) → State → State
  | 0, _, s => s
  | _, [], s => s
  | fuel + 1, (i, e) :: rest, s =>
    let r := s.oneDec i e
    State.decAll fuel (r.2 ++ rest) r.1

/-- More decrements than a graph can bring about: eight for each of 16,384 nodes, and those at the start. -/
def decFuel : Nat := 147456

/-- The indices of a graph's nodes in a phase. -/
def State.nodesIn (s : State) (gid : Nat) (ph : NodePhase) : List Nat :=
  (s.graph gid).nodes.filter fun i => (s.node i).phase == ph

/-- The nodes of a graph belong to no graph any more; their table entries keep `count`, `err` and `done`. -/
def State.releaseNodes (s : State) (gid : Nat) : State :=
  (s.graph gid).nodes.foldl (fun s i => s.setNode i { s.node i with graph := 0 }) s

/-- The status of a graph that ran (R271). -/
def Graph.status (x : Graph) : Nat := if x.mcheck then 7 else if x.terminated then 6 else if x.expired then 2 else 1

/-- `GRAPH_COMPLETION` (R283): with no node running or ready, the rest is cancelled together and the record is written.
DEDUCED (log 36). -/
def State.checkGraph (s : State) (gid : Nat) : State :=
  let x := { s.graph gid with expired := s.graphOver gid }
  if !x.live || !x.started || !x.pkt.graph || !(s.nodesIn gid .running).isEmpty || !(s.nodesIn gid .ready).isEmpty then s
  else
    let left := s.nodesIn gid .waiting
    let s1 := left.foldl (fun s i => s.setNode i { s.node i with phase := .cancelled }) s
    let c : Completion :=
      { ran := x.ran, nerr := x.nerr, exp := x.expired, status := x.status, grid := gid, valid := x.valid, admitted := x.admitted,
        start := x.start, cancel := x.cancelled + left.length }
    ((s1.completePacket x.part x.pkt c).releaseNodes gid).freeGraph gid

/-- A decrement of a node by a job's control word (17 R250). -/
def State.nodeDec (s : State) (idx : Nat) (err : Bool) : State :=
  (s.decAll decFuel [(idx, err)]).checkGraph (s.node idx).graph

/-- A node completes, and passes its error on. -/
def State.completeNode (s : State) (idx : Nat) (err : Bool) : State :=
  let g := (s.node idx).graph
  let r := s.endNode idx err false
  (r.1.decAll decFuel r.2).checkGraph g

/-- A ready node is cancelled (R283). -/
def State.cancelNode (s : State) (idx : Nat) : State :=
  let n := s.node idx
  if n.graph = 0 ∨ n.phase ≠ .ready then s
  else
    let r := s.endNode idx false true
    (r.1.decAll decFuel r.2).checkGraph n.graph

/-! ## Graph start (R277, R279, R284, R285) -/

/-- Heap order: the earlier deadline, then the earlier admission. -/
def Graph.before (a b : Graph) : Bool := decide (a.deadline < b.deadline) || (a.deadline == b.deadline && decide (a.order < b.order))

/-- The admitted packet that starts next. -/
def State.nextGraph (s : State) : Option Nat :=
  (kfind s.graphs fun _ g => g.live && !g.started).foldl (fun b k =>
    match b with
    | none => some k
    | some x => if (s.graph k).before (s.graph x) then some k else some x) none

/-- The successors that a node lists. -/
def Node.succs (n : Node) : List Nat :=
  let all := (List.range 8).map fun k => nbits (if k < 4 then n.succ0 else n.succ1).toNat (16 * (k % 4)) 16
  all.takeWhile fun x => x != 0xFFFF

/-- A reserved bit of the entry is set (R278). -/
def Node.rsvBad (n : Node) : Bool :=
  let w := n.w0.toNat
  nbits w 50 14 != 0 || nbits w 4 12 != 0 || nbits w 2 1 != 0

/-- `kind` does not match `job`. -/
def Node.jobBad (n : Node) : Bool :=
  if nbits n.w0.toNat 0 2 = 3 then n.job != 0 else n.job == 0 || n.job.toNat % 128 != 0

/-- The nodes reachable from a list, each once; none when one of them fails a check of R279 (the table has 16,384 nodes: 25 R342). -/
def State.reach (s : State) (part : Nat) : Nat → List Nat → List Nat → Option (List Nat)
  | 0, _, _ => none
  | _, [], seen => some seen
  | fuel + 1, i :: rest, seen =>
    if seen.contains i then State.reach s part fuel rest seen
    else
      let p := s.part part
      let n := s.node i
      if i < p.nb ∨ p.nb + p.nn ≤ i ∨ 16384 ≤ i ∨ n.graph ≠ 0 ∨ n.rsvBad ∨ n.jobBad then none
      else State.reach s part fuel (n.succs ++ rest) (seen ++ [i])

/-- The nodes of a graph, captured in ascending order; none when a check of R279 fails. DEDUCED (log 34). -/
def State.graphNodes (s : State) (x : Graph) : Option (List Nat) :=
  match s.reach x.part decFuel [x.pkt.root] [] with
  | none => none
  | some ns =>
    if nbits (s.node x.pkt.root).w0.toNat 16 16 ≠ 0 then none
    else some ((List.range 16384).filter ns.contains)

/-- A node's captured fields. -/
def Node.capture (n : Node) (gid : Nat) : Node :=
  let w := n.w0.toNat
  { n with graph := gid, phase := .waiting, kind := nbits w 0 2, skip := nbits w 3 1 == 1, cjob := n.job, csucc := n.succs,
           count := nbits w 16 16, err := false, done := false }

/-- The bindings that a packet captures: its own, or with `nbind` = 0 those of the parent grid (R285). -/
def State.captureBindings (s : State) (x : Graph) : State × Option (List (Nat × Word)) :=
  if x.pkt.nbind = 0 then (s, some ((s.parentGrid x.parent).map Grid.bindings |>.getD []))
  else s.readBindings x.part x.pkt

/-- A packet refused at its start. -/
def State.refuseStart (s : State) (gid reason : Nat) : State :=
  let x := s.graph gid
  (s.completePacket x.part x.pkt { status := 4, reason := reason, grid := gid, admitted := x.admitted }).freeGraph gid

/-- The validity word is set to 0 at grid start (R294). -/
def State.clearValid (s : State) (part gid : Nat) (p : Packet) : State :=
  if p.vword = 0 then s
  else
    let w := s.vwrite noCore part p.vword.toNat (wordBytes 0)
    match w.2 with
    | .ok _ => w.1
    | .error e => w.1.frontFault part 1 e.2 p.vword.toNat gid

/-- A kernel grid starts: the front end passes it to the global scheduler core (R286). DEDUCED (log 35). -/
def State.startGrid (s : State) (gid graph : Nat) (node : Option Nat) (p : Packet) (bs : List (Nat × Word)) : State :=
  let g := s.graph graph
  let x : Grid :=
    { Grid.absent with
      live := true, born := s.past.length, part := g.part, graph := graph, node := node, pkt := p, depth := g.depth, sys := p.sys,
      parent := g.parent.map fun tk => (s.team tk).grid, deadline := g.deadline, expiry := g.expiry, cls := g.pkt.cls,
      bindings := bs, expired := g.expired }
  let s1 := ((s.setGrid gid x).clearValid g.part gid p).sendDown 32 1 gid 0 p.total
  if (s1.part g.part).dropping then s1.terminateGrid gid else s1

/-- `GRAPH_START`: the first packet in heap order starts. DEDUCED (log 34). -/
def execGraphStart (s : State) : Out :=
  .next (
    match s.nextGraph with
    | none => s
    | some gid =>
      let x := s.graph gid
      let b := s.captureBindings x
      match b.2 with
      | none => b.1.refuseStart gid 0x17
      | some bs =>
        let s1 := b.1.setGraph gid { x with started := true, bindings := bs }
        if !x.pkt.graph then s1.startGrid gid gid none x.pkt bs
        else
          match s1.graphNodes x with
          | none => b.1.refuseStart gid 0x18
          | some ns =>
            let s2 := ns.foldl (fun s i => s.setNode i ((s.node i).capture gid)) s1
            let r := (s2.setGraph gid { s2.graph gid with nodes := ns }).readyNode x.pkt.root
            (r.1.decAll decFuel r.2).checkGraph gid)

/-! ## Dispatch and completion of nodes (R277, R280 to R282) -/

/-- The order of dispatch: deadline, admission, node index (R277). -/
def State.nodeBefore (s : State) (a b : Nat) : Bool :=
  let x := s.graph (s.node a).graph
  let y := s.graph (s.node b).graph
  x.before y || (x.deadline == y.deadline && x.order == y.order && decide (a < b))

/-- The ready node that is dispatched next. -/
def State.nextNode (s : State) : Option Nat :=
  (kfind s.nodes fun k _ => (s.node k).graph != 0 && (s.node k).phase == .ready).foldl (fun b k =>
    match b with
    | none => some k
    | some x => if s.nodeBefore k x then some k else some x) none

/-- The job kinds of a job block, by node kind (R282). -/
def blockKind (kind op : Nat) : Option JobKind :=
  if kind = 1 then (if op = 0x14 then some .xform else none)
  else
    match op with
    | 0x10 => some .cpy
    | 0x11 => some .cpy2d
    | 0x12 => some .gather
    | 0x13 => some .scatter
    | 0x15 => some .kvsend
    | 0x16 => some .wbcast
    | _ => none

/-- The modifier bits that a kind leaves 0 (17 R257). -/
def JobKind.modsBad (k : JobKind) (m : Nat) : Bool :=
  match k with
  | .cpy | .cpy2d => nbits m 0 4 != 0
  | .gather => false
  | .scatter => nbits m 3 1 != 0
  | .xform => nbits m 1 7 != 0
  | .kvsend => m != 0
  | .wbcast => nbits m 0 4 != 0 || nbits m 6 2 != 0
  | .ringpush => true

/-- The spaces that a job's operands name. -/
def Job.spaces (j : Job) : List Space4 :=
  match j.kind with
  | .cpy | .cpy2d => [j.dstSpace, j.srcSpace]
  | .gather | .scatter => [j.dstSpace, j.srcSpace, j.listSpace]
  | .wbcast => [j.srcSpace]
  | _ => []

/-- The job that a block's sixteen words describe. DEDUCED (log 53). -/
def State.blockJob (s : State) (idx : Nat) (k : JobKind) (ws : List Word) : Job :=
  let n := s.node idx
  let g := s.graph n.graph
  let w := fun i => ws.getD i 0
  let handle := if k = .kvsend ∨ k = .wbcast then (s.part g.part).handle (w 3).toNat else 0
  { live := true, kind := k, mods := BitVec.ofNat 8 (nbits (w 0).toNat 8 8), ctl := 0, status := w 1, a := [w 2, w 3],
    b := [w 4, w 5], c := [w 6, w 7, w 8], core := noCore, part := g.part, grid := n.graph, team := 0, group := 0, pc := 0,
    ident := identWord 0 0 0 g.part, node := some idx, handle := handle, src := none, dst := none, tables := [],
    bindings := g.bindings, phase := .queued, chunk := 0, count := 0, bad := false, record := none, range := [],
    seen := s.past.length, ptrs := none, num := s.nextJob }

/-- The block breaks a rule of R282 or a check that needs no access. DEDUCED (log 53). -/
def State.blockBad (s : State) (j : Job) (ws : List Word) : Bool :=
  nbits (ws.getD 0 0).toNat 16 48 != 0 || (ws.drop 9).any (· != 0) || j.kind.modsBad j.mods.toNat
    || j.spaces.any (fun x => x == .sp || x == .cl) || s.jobBad j || j.misaligned.isSome

/-- A job node's block: the job starts, or the node completes with an error. DEDUCED (log 53). -/
def State.startNodeJob (s : State) (idx : Nat) (ws : List Word) : State :=
  match blockKind (s.node idx).kind (nbits (ws.getD 0 0).toNat 0 8) with
  | none => s.completeNode idx true
  | some k =>
    let j := s.blockJob idx k ws
    if s.blockBad j ws then s.completeNode idx true
    else
      let dr := s.jobDescs j
      match dr.2 with
      | .error _ => dr.1.completeNode idx true
      | .ok j' =>
        let st := dr.1.statusAt j'
        match st.2 with
        | .error _ => st.1.completeNode idx true
        | .ok _ =>
          let j2 := { j' with phase := if st.1.jobOverlaps j' then .failed 4 else .running }
          { st.1.setJob st.1.nextJob j2 with nextJob := st.1.nextJob + 1 }

/-- A kernel node's packet: its grid starts, or the node completes with an error and the record says why. DEDUCED (log 35). -/
def State.startNodeGrid (s : State) (idx : Nat) (p : Packet) : State :=
  let g := s.graph (s.node idx).graph
  let c := s.shapeCheck g.part p true g.sys
  let i := c.1.newId g.part
  match c.2 with
  | some r => (i.1.writeNodeCompletion g.part p { status := 4, reason := r, grid := i.2 }).completeNode idx true
  | none =>
    let b := if p.nbind = 0 then (i.1, some g.bindings) else i.1.readBindings g.part p
    b.1.startGrid i.2 (s.node idx).graph (some idx) p (b.2.getD [])

/-- The 128 bytes that a node names, or the fault record of R282. -/
def State.readNodeBlock (s : State) (idx : Nat) : State × Option (List Word) :=
  let n := s.node idx
  let part := (s.graph n.graph).part
  let r := s.vread noCore part n.cjob.toNat 128
  match r.2 with
  | .error e => (r.1.frontFault part 4 e.2 e.1 n.graph, none)
  | .ok bs => (r.1, some (wordsOf 16 bs))

/-- `NODE_DISPATCH`. -/
def execNodeDispatch (s : State) : Out :=
  .next (
    match s.nextNode with
    | none => s
    | some idx =>
      let n := s.node idx
      if s.graphOver n.graph then s.cancelNode idx
      else if n.kind = 3 ∨ (n.err && n.skip) then s.completeNode idx false
      else
        let s1 := s.setNode idx { n with phase := .running }
        let r := s1.readNodeBlock idx
        match r.2 with
        | none => r.1.completeNode idx true
        | some ws =>
          if n.kind = 0 then r.1.startNodeGrid idx (packetOf ws) else r.1.startNodeJob idx ws)

/-- The run of a node has ended: no grid and no job of it is left. -/
def State.nodeRan (s : State) (idx : Nat) : Bool :=
  let n := s.node idx
  n.graph != 0 && n.phase == .running && !s.grids.any (fun e => e.2.live && e.2.node == some idx && e.2.graph == n.graph)
    && !s.jobs.any fun e => e.2.live && e.2.node == some idx

/-- `NODE_COMPLETION`. -/
def execNodeCompletion (node : Nat) (s : State) : Out :=
  .next (if s.nodeRan node then s.completeNode node false else s)

/-! ## Expiry (R290, R292, R293) -/

/-- The `ACCMERGE`s of group `k` among the first n operations of its team complete without folding (15 R242). -/
def State.discardMerges (s : State) (tk k : Nat) : Nat → State
  | 0 => s
  | n + 1 =>
    let s1 :=
      match (s.team tk).ops[n]? with
      | some (.merge o) => if o.group = k then s.discardMerge tk n o else s
      | _ => s
    s1.discardMerges tk k n

/-- The deadline event is raised on a group, once (R291, R292): its `ACCMERGE`s that are not folded complete (15 R242), and unless
it has ended it diverts, a parked or evicted group when it goes on. DESIGN CHOICE (log 55). -/
def State.raiseDeadline (s : State) (k : Nat) : State :=
  let g := s.grp k
  if g.raised then s
  else
    let t := s.team g.team
    let s1 := (s.setGrp k { g with raised := true }).discardMerges g.team k t.ops.length
    if g.status = .ended then s1
    else
      let s2 := (s1.setGrp k { s1.grp k with divert := true }).dropGrow t.cores k
      let parked : Bool := match g.status with
        | .parked _ => true
        | _ => false
      if t.phase = .resident ∧ !parked then (s2.divertGroup k).growCheck t.cores
      else s2.refreshWake g.team

/-- `DEADLINE_EVENT`: the event is raised on one group of an expired grid, at an instant of its own; on a group of a team that has
been evicted since, in the saved state. DESIGN CHOICE (log 55). -/
def execDeadlineEvent (group : Nat) (s : State) : Out :=
  .next (
    let g := s.grp group
    let t := s.team g.team
    let x := s.grid t.grid
    if x.live && x.expired && (t.phase == .saved || t.phase == .resident && !(s.core g.core).frozen) then s.raiseDeadline group
    else s)

/-- The expiry point of one grid: unstarted teams are cancelled, and the event is raised on evicted teams. DEDUCED (log 36). -/
def State.expireGrid (s : State) (gid : Nat) : State :=
  let x := s.grid gid
  let s1 := (s.setGrid gid { x with expired := true }).cancelUnstarted gid
  let s2 := s1.sendDown 32 3 gid x.expiry 0
  let out := (s2.gridTeams gid).filter fun tk => (s2.team tk).phase == .saved
  let s3 := (out.flatMap s2.teamGroups).foldl State.raiseDeadline s2
  s3.checkGrid gid

/-- The running grids of a graph. -/
def State.gridsOf (s : State) (graph : Nat) : List Nat := kfind s.grids fun _ x => x.live && x.graph == graph

/-- `DEADLINE_EXPIRY` of an admitted packet's graph, once; a ready node that is not dispatched yet is cancelled with those that become ready
later. DESIGN CHOICE (log 55, 92). -/
def execDeadlineExpiry (graph : Nat) (s : State) : Out :=
  .next (
    let x := s.graph graph
    if x.live && x.started && !x.expired && decide (x.expiry ≤ s.timeOf x.part) then
      let s1 := s.setGraph graph { x with expired := true }
      let s2 := (s1.gridsOf graph).foldl State.expireGrid s1
      (s2.nodesIn graph .ready).foldl State.cancelNode s2 |>.checkGraph graph
    else s)

/-- `GRID_DEADLINE` (R293): at device time D every group of the grid that has not ended ends. DESIGN CHOICE (log 55). -/
def execGridDeadline (grid : Nat) (s : State) : Out :=
  .next (
    let x := s.grid grid
    if x.live && decide (x.deadline ≤ s.timeOf x.part) then s.endGridGroups grid else s)

/-! ## `RING_RECORD_WRITE` (21 R304, 25 R345) -/

/-- The oldest record that waits for a ring is written once an entry is free and can be written. DEDUCED (log 65). -/
def execRingRecordWrite (part : Nat) (host : Bool) (s : State) : Out :=
  .next (
    let x := s.part part
    match x.waitList host with
    | [] => s
    | r :: rest =>
      let w := (s.setPart part (x.setWait host rest)).writeRecord part host r
      if s.ringFull part host || !w.2 then s else w.1.dropCheck part)

end Sys2Proof.Machine
end

