-- ==== Sys2Proof/Machine/Leaf.lean ====
section
/-!
DEFINITION. Command links (19 R286 to R288) and leaf controllers: placement, group start and retirement (01 R28, R33,
13 R186, 19 R269, R289).
-/
namespace Sys2Proof.Machine

/-! ## Command links (R287, R288) -/

/-- Link 32 joins the front end to the global scheduler core; link g below it joins that core to leaf controller g. -/
def frontLink : Nat := 32

/-- The receiver takes the oldest command of a direction from its buffer, and its permit returns. -/
def Link.take (l : Link) (up : Bool) : Link :=
  if up then { l with up := l.up.drop 1 ++ l.upWait.take 1, upWait := l.upWait.drop 1 }
  else { l with down := l.down.drop 1 ++ l.downWait.take 1, downWait := l.downWait.drop 1 }

/-- The command that the receiver takes next. -/
def Link.head (l : Link) (up : Bool) : Option LinkCmd := if up then l.up.head? else l.down.head?

/-- The command is taken when it is the next one of its direction: `is` compares its kind and the arguments it uses. -/
def State.takeCmd (s : State) (n : Nat) (up : Bool) (is : LinkCmd → Bool) : Option State :=
  match (s.link n).head up with
  | some c => if is c then some (s.setLink n ((s.link n).take up)) else none
  | none => none

/-- Kind, grid and both arguments agree. -/
def sameCmd (kind : Byte) (grid arg0 arg1 : Word) (c : LinkCmd) : Bool :=
  c.kind == kind && c.grid == grid && c.arg0 == arg0 && c.arg1 == arg1

/-- The global scheduler core sends each team to a leaf controller, in ascending team number; which one is not fixed.
DESIGN CHOICE (log 38). -/
def State.scatterTeams (s : State) (grid first count : Nat) : State :=
  (List.range count).foldl (fun s i =>
    let c := s.choose
    c.1.sendDown (c.2 % 32) 1 grid (first + i) 1) s

/-- A leaf controller takes teams in; those of a grid that starts no more teams are discarded. -/
def State.queueTeams (s : State) (cluster grid first count : Nat) : State :=
  let c := s.cluster cluster
  let x := s.grid grid
  if !x.live || x.stopping then s
  else s.setCluster cluster { c with waiting := c.waiting ++ (List.range count).map fun i => ⟨grid, first + i⟩ }

def execPlace (link : Nat) (grid first count : Word) (s : State) : Out :=
  .next (
    match s.takeCmd link false (sameCmd 1 grid first count) with
    | none => s
    | some s1 =>
      if link = frontLink then
        if (s1.grid grid.toNat).live && !(s1.grid grid.toNat).stopping then
          s1.scatterTeams grid.toNat first.toNat count.toNat
        else s1
      else s1.queueTeams link grid.toNat first.toNat count.toNat)

/-- A command goes on to every leaf controller. DEDUCED (log 37). -/
def State.forwardDown (s : State) (kind : Nat) (grid arg0 arg1 : Word) : State :=
  (List.range 32).foldl (fun s n => s.sendDown n kind grid.toNat arg0.toNat arg1.toNat) s

/-- A leaf controller discards the waiting teams of a grid and reports how many. DEDUCED (log 36). -/
def State.dropWaiting (s : State) (cluster grid : Nat) : State :=
  let c := s.cluster cluster
  let n := (c.waiting.filter fun w => w.grid == grid).length
  if n = 0 then s
  else (s.setCluster cluster { c with waiting := c.waiting.filter fun w => w.grid != grid }).sendUp cluster 4 grid 0 n

def execCancelUnstartedTeams (link : Nat) (grid : Word) (s : State) : Out :=
  .next (
    match s.takeCmd link false (fun c => c.kind == 2 && c.grid == grid) with
    | none => s
    | some s1 => if link = frontLink then s1.forwardDown 2 grid 0 0 else s1.dropWaiting link grid.toNat)

/-- The deadline event itself is `DEADLINE_EVENT`, group by group; the command tells the leaf controllers. -/
def execDeadlineEventCommand (link : Nat) (grid time : Word) (s : State) : Out :=
  .next (
    match s.takeCmd link false (fun c => c.kind == 3 && c.grid == grid && c.arg0 == time) with
    | none => s
    | some s1 => if link = frontLink then s1.forwardDown 3 grid time 0 else s1)

/-- An upward command is passed on to the front end. -/
def State.passUp (s : State) (link kind : Nat) (grid arg0 arg1 : Word) : State :=
  match s.takeCmd link true (sameCmd (BitVec.ofNat 8 kind) grid arg0 arg1) with
  | none => s
  | some s1 => if link = frontLink then s1 else s1.sendUp frontLink kind grid.toNat arg0.toNat arg1.toNat

def execTeamsRetired (link : Nat) (grid count cancelled : Word) (s : State) : Out := .next (s.passUp link 4 grid count cancelled)
def execFaultReport (link : Nat) (grid index core : Word) (s : State) : Out := .next (s.passUp link 5 grid index core)
/-- DEDUCED (log 37). -/
def execFreezeReport (link : Nat) (grid pcore status : Word) (s : State) : Out := .next (s.passUp link 6 grid pcore status)

/-- A kind that R288 does not list. -/
def reservedKind (kind : Byte) : Bool := kind.toNat == 0 || decide (6 < kind.toNat)

/-- The receiver discards a reserved command and returns its permit. -/
def execReservedLinkCommand (link : Nat) (kind : Byte) (s : State) : Out :=
  .next (
    let l := s.link link
    let is := fun up => (l.head up).any fun c => c.kind == kind
    if !reservedKind kind then s
    else if is false then s.setLink link (l.take false)
    else if is true then s.setLink link (l.take true)
    else s)

/-! ## Placement (R28, R88) -/

/-- A core is in service for placement. -/
def State.usable (s : State) (core : Nat) : Bool := !(s.core core).frozen && !(s.core core).withdrawn

/-- One core satisfies its share of a packet's four needs. -/
def State.coreFits (s : State) (core : Nat) (p : Packet) : Bool :=
  s.usable core && decide (p.gran * p.perCore ≤ s.openGran core) && (spFit (s.spTaken core) p.scratch).isSome
    && decide (p.acc ≤ s.freeHalves core) && decide (p.perCore ≤ (s.freeSlots core).length)

/-- Core `a` is preferred to `b`: free granules, scratchpad KiB, slots, then the lower number. -/
def State.prefers (s : State) (a b : Nat) : Bool :=
  let f := fun c => (s.freeGran c, spLargest (s.spTaken c), (s.freeSlots c).length)
  let x := f a
  let y := f b
  if x.1 != y.1 then decide (y.1 < x.1)
  else if x.2.1 != y.2.1 then decide (y.2.1 < x.2.1)
  else if x.2.2 != y.2.2 then decide (y.2.2 < x.2.2)
  else decide (a < b)

/-- The core, or the even core of the pair, on which a team of a packet is placed in a cluster now. DESIGN CHOICE (log 38). -/
def State.placeOn (s : State) (cluster : Nat) (p : Packet) : Option Nat :=
  if p.paired then
    (([0, 2, 4, 6].map fun l => 8 * cluster + l).filter fun c => s.coreFits c p && s.coreFits (c + 1) p).head?
  else
    (((List.range 8).map fun l => 8 * cluster + l).filter fun c => s.coreFits c p).foldl (fun b c =>
      match b with
      | none => some c
      | some x => if s.prefers c x then some c else some x) none

/-! ## Team and group start (R15, R26, R269, R289) -/

def roleOf (n : Nat) : Role :=
  if n = 1 then .general else if n = 2 then .matrix else if n = 3 then .feeder else .vector

/-- The stage rings of a team: each follows the one before it, with every pip, full bit and claim 0. -/
def ringsFrom : Nat → List (Nat × Nat) → List Ring
  | _, [] => []
  | base, (n, size) :: rest =>
    let off := List.replicate n false
    { size := size, base := base, pips := off, full := off, claim := off } :: ringsFrom (base + n * size) rest

/-- A new group (R269): its private slice follows those of the team's earlier groups on the same core (R88). -/
def newGroup (team : Nat) (t : Team) (p : Packet) (i : Nat) : Group :=
  let core := t.coreOf i
  { Group.absent with
    team := team, index := i, role := roleOf (p.roles.getD i 0), gran := p.gran, core := core,
    pvbase := t.spbaseOn core + 1024 * p.spkib + 2048 * p.priv * (if p.paired then i / 2 else i),
    threads := List.replicate 32 { pc := p.entry, meet := BitVec.allOnes 64, held := false, exited := false, preds := 0 },
    cur := p.entry, s := kset 0 [] 0 p.args, placed := { Placed.start with s := kset 0 [] 0 p.args }, status := .running }

/-- A group takes the lowest free slot and the lowest free granules of its core, and starts from its bind record.
DESIGN CHOICE (log 38). -/
def State.startGroup (s : State) (team : Nat) (p : Packet) (i : Nat) : State :=
  let g := newGroup team (s.team team) p i
  let k := groupKey team i
  let s1 := s.setGrp k { g with slot := (s.freeSlots g.core).headD 0, granules := (s.freeGranules g.core).take g.gran }
  s1.bind k

/-- A waiting team is placed on a core or a pair. DESIGN CHOICE (log 40). -/
def State.placeTeam (s : State) (cluster : Nat) (w : WaitingTeam) (core : Nat) : State :=
  let c := s.cluster cluster
  let x := s.grid w.grid
  let p := x.pkt
  let at_ := fun k => (spFit (s.spTaken k) p.scratch).getD 0
  let t : Team :=
    { Team.absent with
      phase := .resident, grid := w.grid, number := w.number, launchNo := c.launches + 1, size := p.size, paired := p.paired,
      core := core, spbase := if p.paired then [at_ core, at_ (core + 1)] else [at_ core], spsize := p.scratch,
      spkib := p.spkib, rings := ringsFrom 0 p.ringList, halves := p.acc }
  let now := s.timeOf x.part
  let g := s.graph x.graph
  let s1 := s.setCluster cluster { c with waiting := c.waiting.filter (· != w), launches := c.launches + 1 }
  let s2 := s1.setGrid w.grid { x with started := x.started + 1, start := if x.started = 0 then now else x.start }
  let s3 := s2.setGraph x.graph { g with start := if g.start = 0 then now else g.start }
  let s4 := { s3.setTeam s3.nextTeam t with nextTeam := s3.nextTeam + 1 }
  (List.range p.size).foldl (fun s i => s.startGroup s3.nextTeam p i) s4

/-- A grid still starts teams: it is not past its expiry point (R290). -/
def State.startsTeams (s : State) (gid : Nat) : Bool :=
  let x := s.grid gid
  x.live && !x.stopping && decide (s.timeOf x.part < x.expiry)

/-- A waiting team comes before another: the earlier deadline; teams of one grid in ascending number.
DESIGN CHOICE (log 38). -/
def State.waitsBefore (s : State) (a b : WaitingTeam) : Bool :=
  let da := (s.grid a.grid).deadline
  let db := (s.grid b.grid).deadline
  decide (da < db) || (da == db && a.grid == b.grid && decide (a.number < b.number))

/-- The first of some waiting teams: of equal ones of different grids, the one queued first. DESIGN CHOICE (log 80). -/
def State.firstWaiting (s : State) (ws : List WaitingTeam) : Option WaitingTeam :=
  ws.foldl (fun b w =>
    match b with
    | none => some w
    | some x => if s.waitsBefore w x then some w else some x) none

/-- The waiting teams of a cluster that may start. -/
def State.waitingIn (s : State) (cluster : Nat) : List WaitingTeam :=
  (s.cluster cluster).waiting.filter fun w => s.startsTeams w.grid

/-- Saved teams of a cluster. -/
def State.savedIn (s : State) (cluster : Nat) : List Nat :=
  s.teamsThat fun t => t.phase == .saved && clusterOf t.core == cluster

/-- An evicted team of an expired grid goes ahead of every waiting team of its cluster (R290). DEDUCED (log 39). -/
def State.expiringOut (s : State) (cluster : Nat) : Bool :=
  (s.savedIn cluster).any fun tk => (s.grid (s.team tk).grid).expired && s.wakeMask tk != 0

/-- `TEAM_PLACEMENT`: of the waiting teams that fit, the first in deadline order is placed. DESIGN CHOICE (log 38). -/
def execTeamPlacement (cluster : Nat) (s : State) : Out :=
  .next (
    if s.expiringOut cluster then s
    else
      match s.firstWaiting ((s.waitingIn cluster).filter fun w => (s.placeOn cluster (s.grid w.grid).pkt).isSome) with
      | none => s
      | some w =>
        match s.placeOn cluster (s.grid w.grid).pkt with
        | none => s
        | some core => s.placeTeam cluster w core)

/-! ## Retirement (13 R186, R19) -/

/-- Every group has ended, and every job, `MMA`, `ACCMERGE` and child of the team is done. -/
def State.retirable (s : State) (tk : Nat) : Bool :=
  let t := s.team tk
  t.phase != .absent && (s.teamGroups tk).all (fun k => (s.grp k).status == .ended)
    && !s.jobs.any (fun e => e.2.live && e.2.node.isNone && e.2.team == tk)
    && !t.ops.any (fun o => match o with
      | .mma _ | .merge _ => true
      | _ => false)
    && !s.graphs.any fun e => e.2.live && e.2.parent == some tk

/-- `TEAM_RETIREMENT`: the team's resources return, and its grid may end. -/
def execTeamRetirement (team : Nat) (s : State) : Out :=
  .next (
    if !s.retirable team then s
    else
      let t := s.team team
      let s1 := (s.teamGroups team).foldl (fun s k => s.setGrp k Group.absent) s
      let s2 := (s1.setTeam team Team.absent).sendUp (clusterOf t.core) 4 t.grid 1 0
      let x := s2.grid t.grid
      (s2.setGrid t.grid { x with retired := x.retired + 1 }).checkGrid t.grid)

end Sys2Proof.Machine
end

