-- ==== Sys2Proof/Machine/Preempt.lean ====
section
/-!
DEFINITION. Pre-emption (21 R307 to R311), freeze and migration (21 R312 to R315), outstanding loads (09 R120), and the
events of the memory tiers: sector lookups (23 R321) and translation walks (23 R327, R333).
-/
namespace Sys2Proof.Machine

/-! ## `TEAM_EVICTION` for a waiting team (R307) -/

/-- The state as it would be with a team out, as far as free resources go. -/
def State.without (s : State) (tk : Nat) : State :=
  let ks := (s.teamGroups tk).filter fun k => (s.grp k).status != .ended
  (ks.foldl State.unbind s).setTeam tk { s.team tk with phase := .saved }

/-- The team's eviction lets the waiting team of an earlier deadline fit. -/
def State.makesRoom (s : State) (cluster : Nat) (w : WaitingTeam) (tk : Nat) : Bool :=
  s.evictable tk && decide ((s.grid w.grid).deadline < (s.grid (s.team tk).grid).deadline)
    && ((s.without tk).placeOn cluster (s.grid w.grid).pkt).isSome

/-- The victim: the latest deadline, then the latest launch order. -/
def State.victim (s : State) (cluster : Nat) (w : WaitingTeam) : Option Nat :=
  ((s.teamsThat fun t => t.phase == .resident && clusterOf t.core == cluster).filter (s.makesRoom cluster w)).foldl (fun b tk =>
    match b with
    | none => some tk
    | some x =>
      let dx := (s.grid (s.team x).grid).deadline
      let dt := (s.grid (s.team tk).grid).deadline
      if dx < dt ∨ (dx = dt ∧ (s.team x).launchNo < (s.team tk).launchNo) then some tk else some x) none

/-- The waiting team of a cluster for which a team is evicted: of those that fit nowhere and that an eviction lets fit, the first in
deadline order. DESIGN CHOICE (log 85). -/
def State.starved (s : State) (cluster : Nat) : Option WaitingTeam :=
  s.firstWaiting ((s.waitingIn cluster).filter fun w =>
    (s.placeOn cluster (s.grid w.grid).pkt).isNone && (s.victim cluster w).isSome)

/-- `TEAM_EVICTION`. The evictions of R32 are part of the steps that block or end groups, and those of system software are
commands. -/
def execTeamEviction (team : Nat) (s : State) : Out :=
  .next (
    let cluster := clusterOf (s.team team).core
    match s.starved cluster with
    | none => s
    | some w => if s.victim cluster w = some team then s.evict team else s)

/-! ## `TEAM_RESTORE` (R310, R311) -/

/-- Restore order: expiring teams first, then deadline, then launch order. DEDUCED (log 39). -/
def State.restoresBefore (s : State) (a b : Nat) : Bool :=
  let f := fun tk => ((s.grid (s.team tk).grid).expired, (s.grid (s.team tk).grid).deadline, (s.team tk).launchNo)
  let x := f a
  let y := f b
  if x.1 != y.1 then x.1
  else if x.2.1 != y.2.1 then decide (x.2.1 < y.2.1)
  else decide (x.2.2 < y.2.2)

/-- DEDUCED (log 39). -/
def execTeamRestore (team : Nat) (s : State) : Out :=
  .next (
    if (s.savedIn (clusterOf (s.team team).core)).any fun tk => s.restorable tk && s.restoresBefore tk team then s
    else s.restore team)

/-! ## `CORE_FREEZE` and `MIGRATION` (R312 to R315) -/

/-- An uncorrectable soft error freezes a core: `unit` is the structure of R315 (a saved image is none of a core's), `lost` the
teams whose state it hit. DESIGN CHOICE (log 51). -/
def execCoreFreeze (core : Nat) (unit : Byte) (lost : List Nat) (s : State) : Out :=
  .next (
    let c := s.core core
    if c.frozen || c.withdrawn || decide (256 ≤ core) || unit == 0 || decide (5 < unit.toNat) then s
    else s.setCore core { c with frozen := true, unit := unit, lost := lost })

/-- Structures that belong to no single team: L1 and core control. -/
def sharedUnit (unit : Byte) : Bool := unit == 4 || unit == 5

/-- The resident teams of a frozen core that end with machine-check status. -/
def State.lostTeams (s : State) (core : Nat) : List Nat :=
  let c := s.core core
  (s.residentOn core).filter fun tk => sharedUnit c.unit || c.lost.contains tk

/-- What some groups wait for is over: their accesses go on, and their teams are ready if they are out (R310, R313). -/
def State.endHolds (s : State) (is : Hold → Bool) : State :=
  (kfind s.groups fun _ g => g.waits.any is).foldl (fun s k =>
    (s.setGrp k { s.grp k with waits := none }).refreshWake (s.grp k).team) s

/-- The spare takes the frozen core's logical number (R12); its count of clock cycles is its own (13 R215). DEDUCED (log 52). -/
def State.useSpare (s : State) (core : Nat) : State :=
  let g := clusterOf core
  let cl := s.cluster g
  let s1 := s.setCluster g { cl with phys := cl.phys.set (core % 8) 8, spareUsed := true }
  s1.setCore core { s1.core core with frozen := false, unit := 0, lost := [], cycles := 0 }

/-- The teams of a logical core that are out. -/
def State.savedOf (s : State) (core : Nat) : List Nat := s.teamsThat fun t => t.phase == .saved && t.cores.contains core

/-- No spare is left: every team of the logical core ends, and the number is withdrawn (R314); a job's later write to its
scratchpad is a window fault, as a cluster-shared access is. DESIGN CHOICE (log 83). -/
def State.withdraw (s : State) (core : Nat) : State :=
  let u := (s.core core).unit.toNat
  let s1 := (s.residentOn core ++ s.savedOf core).foldl (fun s tk => s.machineCheck tk core u) s
  (s1.setCore core { s1.core core with withdrawn := true }).endHolds (· == .core core)

/-- The teams that move commit their accepted `MMA`s before a group of them goes on (15 R237). DEDUCED (log 37, 52). -/
def execMigration (core : Nat) (s : State) : Out :=
  .next (
    let c := s.core core
    let g := clusterOf core
    if !c.frozen || c.withdrawn then s
    else
      let pcore := (s.cluster g).phys.getD (core % 8) 0
      if (s.cluster g).spareUsed then (s.withdraw core).sendUp g 6 0 pcore 2
      else
        let ended := s.lostTeams core
        let s1 := ended.foldl (fun s tk => s.machineCheck tk core c.unit.toNat) s
        let moved := (s.residentOn core).filter fun tk => !ended.contains tk
        let s2 := (moved.foldl State.commitAll (s1.useSpare core)).endHolds (· == .core core)
        s2.sendUp g 6 0 pcore (if ended.isEmpty then 0 else 1))

/-! ## `LOAD_COMPLETION` (09 R120) -/

/-- Outstanding writes of some lanes to a register complete. DESIGN CHOICE (log 7). -/
def execLoadCompletion (group : Nat) (dst : Opd) (lanes : BitVec 32) (s : State) : Out :=
  .next (s.setGrp group ((s.grp group).complete fun p => p.dst == dst && lanes.getLsbD p.lane))

/-! ## `SECTOR_LOOKUP` and `TRANSLATION_WALK` (23 R321, R327, R333) -/

/-- The access waits for the fill of the sector of LPDDR6 address `a`. -/
def Hold.onSector (a : Nat) : Hold → Bool
  | .fill b => a / 2048 == b / 2048
  | .core _ => false

/-- An L2 fill or write-back reaches the LPDDR6 tier: one lookup, after which the sector is there for those that wait for it
(21 R310). DESIGN CHOICE (log 20). -/
def execSectorLookup (addr : BitVec 52) (write : Bool) (s : State) : Out :=
  .next (
    if s.backing addr.toNat == .lpddr then
      (s.request (addr.toNat / 256 * 256) 256 write).1.endHolds (Hold.onSector addr.toNat)
    else s)

/-- A core misses its translation cache, walks both stages, and may hold what it found; an entry that is not valid is
never held. DESIGN CHOICE (log 50). -/
def execTranslationWalk (core part : Nat) (va : Word) (s : State) : Out :=
  .next (
    if 256 ≤ core ∨ !(s.part part).live ∨ (s.heldFor core part va.toNat).isSome then s
    else
      let s1 := (s.addCounter 0x0F core 1).addCounter 0x10 (clusterOf core) 1
      let w := s1.walk core part {} va.toNat
      match w.2 with
      | .error _ => w.1
      | .ok h => { w.1 with held := w.1.held ++ [h] })

end Sys2Proof.Machine
end

