-- ==== Sys2Proof/Machine/Sha3.lean ====
section
/-!
DEFINITION. SHA3-512, the hash that 25 R351 and R352 name: the Keccak permutation on 25 words of 64 bits, word `x + 5 y` at
column x and row y, with blocks of 72 bytes.
-/
namespace Sys2Proof.Machine

/-- The rotation of each word. -/
def keccakTurns : List Nat :=
  [0, 1, 62, 28, 27, 36, 44, 6, 55, 20, 3, 10, 43, 25, 39, 41, 45, 15, 21, 8, 18, 2, 61, 56, 14]

/-- The constant of each round. -/
def keccakRounds : List Nat :=
  [0x1, 0x8082, 0x800000000000808A, 0x8000000080008000, 0x808B, 0x80000001, 0x8000000080008081, 0x8000000000008009,
   0x8A, 0x88, 0x80008009, 0x8000000A, 0x8000808B, 0x800000000000008B, 0x8000000000008089, 0x8000000000008003,
   0x8000000000008002, 0x8000000000000080, 0x800A, 0x800000008000000A, 0x8000000080008081, 0x8000000000008080, 0x80000001,
   0x8000000080008008]

/-- The word at column x and row y, both modulo 5. -/
def laneAt5 (a : List Word) (x y : Nat) : Word := a.getD (x % 5 + 5 * (y % 5)) 0

/-- A state from the value of each column and row. -/
def lanes5 (f : Nat → Nat → Word) : List Word := (List.range 25).map fun i => f (i % 5) (i / 5)

/-- The parity step: every word takes the parities of two neighbouring columns. -/
def keccakTheta (a : List Word) : List Word :=
  let c := (List.range 5).map fun x => (List.range 5).foldl (fun w y => w ^^^ laneAt5 a x y) 0
  lanes5 fun x y => laneAt5 a x y ^^^ c.getD ((x + 4) % 5) 0 ^^^ (c.getD ((x + 1) % 5) 0).rotateLeft 1

/-- The words are turned and change places. -/
def keccakMove (a : List Word) : List Word :=
  lanes5 fun x y => (laneAt5 a (x + 3 * y) x).rotateLeft (keccakTurns.getD ((x + 3 * y) % 5 + 5 * x) 0)

/-- The step within rows. -/
def keccakChi (b : List Word) : List Word :=
  lanes5 fun x y => laneAt5 b x y ^^^ (~~~laneAt5 b (x + 1) y &&& laneAt5 b (x + 2) y)

/-- One round. -/
def keccakRound (a : List Word) (rc : Nat) : List Word :=
  (keccakChi (keccakMove (keccakTheta a))).modify 0 fun w => w ^^^ BitVec.ofNat 64 rc

def keccak (a : List Word) : List Word := keccakRounds.foldl keccakRound a

/-- The bytes that fill the last block. -/
def sha3Pad (n : Nat) : List Byte :=
  let q := 72 - n % 72
  if q = 1 then [0x86] else [0x06] ++ List.replicate (q - 2) 0 ++ [0x80]

/-- The first `n` blocks of the bytes are taken in. -/
def sha3Absorb : Nat → List Byte → List Word → List Word
  | 0, _, a => a
  | n + 1, bs, a =>
    let ws := wordsOf 9 (bs.take 72)
    sha3Absorb n (bs.drop 72) (keccak (a.mapIdx fun i w => w ^^^ ws.getD i 0))

/-- SHA3-512 of some bytes. -/
def hash64 (bs : List Byte) : List Byte :=
  ((sha3Absorb (bs.length / 72 + 1) (bs ++ sha3Pad bs.length) (List.replicate 25 0)).take 8).flatMap wordBytes

end Sys2Proof.Machine
end

