-- ==== Sys2Proof/Machine/Mgmt.lean ====
section
/-!
DEFINITION. Management commands (25 R341 to R346, R348, R351, R352, R356, R358): each reads and writes the queue entry at
the device's consumer index.
-/
namespace Sys2Proof.Machine

/-! ## The management queue (R341, R345) -/

/-- k of the management ring, 0 when `MQBASE` holds none; and the ring's address. -/
def CardState.ringLog (c : CardState) : Nat := nbits c.mqbase.toNat 0 4
def CardState.ringBase (c : CardState) : Nat := nbits c.mqbase.toNat 12 40 * 4096

/-- The entry that an index of the management queue names. -/
def CardState.entryAt (c : CardState) (ix : Nat) : Nat := c.ringBase + 64 + 64 * (ix % 2 ^ c.ringLog)

/-- The answer to a command: status code and result. -/
abbrev Reply := Nat × Nat

def Reply.done : Reply := (1, 0)
def Reply.refused : Reply := (2, 0)
def Reply.badArg : Reply := (3, 0)

/-- Status and result are written into the entry, the consumer index advances, and the completion interrupt is raised; `false` when
a byte cannot be written. -/
def State.reply (s : State) (r : Reply) : State × Bool :=
  let c := s.card
  let at_ := c.entryAt c.mqcons.toNat
  let s1 := s.physWrite (at_ + 1) [BitVec.ofNat 8 r.1]
  let s2 := s1.1.physWrite (at_ + 56) (leBytes 8 r.2)
  let s3 := s2.1.physWrite (c.ringBase + 4) (leBytes 4 (c.mqcons + 1).toNat)
  (({ s3.1 with card := { s3.1.card with mqcons := c.mqcons + 1 } }).irq 0, s1.2 && s2.2 && s3.2)

/-- The requests of an answer that cannot be written are made, and count (23 R335). -/
def State.triedReply (s : State) : State :=
  let at_ := s.card.entryAt s.card.mqcons.toNat
  ((s.tryRange (at_ + 1) 1 true).tryRange (at_ + 56) 8 true).tryRange (s.card.ringBase + 4) 4 true

/-- A command executes when the queue holds an entry that a doorbell has named (R340); it waits while its entry cannot be written.
DEDUCED (log 65). -/
def State.command (s : State) (k : State → State × Reply) : State :=
  if s.card.mqcons = s.card.mqlimit then s
  else
    let r := k s
    let w := r.1.reply r.2
    if w.2 then w.1 else s.triedReply

/-- A command that is accepted only after `GO` (R356). DEDUCED (log 45). -/
def State.afterGo (s : State) (k : State → State × Reply) : State :=
  s.command fun s1 => if s1.boot.step < 6 then (s1, Reply.refused) else k s1

/-- A command that acts on an existing partition (R358). -/
def State.onPart (s : State) (part : BitVec 6) (k : State → State × Reply) : State :=
  s.afterGo fun s1 => if (s1.part part.toNat).live then k s1 else (s1, Reply.badArg)

/-- A device physical range of an argument has a backing (R318, R358). -/
def State.argBacked (s : State) (a : Word) (n : Nat) : Bool := decide (a.toNat + n ≤ 2 ^ 52) && s.backed a.toNat n

/-! ## `PCFG` (R344, R346) -/

/-- Word `i` of a block. -/
def blockWord (ws : List Word) (i : Nat) : Nat := (ws.getD i 0).toNat

/-- No reserved bit is set and no field is out of range. The reserved bits of the roots and of `SIDEBASE` (23 R328, 05 R75)
count as the block's: DEDUCED (log 42, 44). -/
def blockRange (ws : List Word) : Bool :=
  let w := blockWord ws
  let log := fun i => nbits (w 11) (5 * i) 5
  [0, 1].all (fun i => nbits (w i) 1 11 == 0 && nbits (w i) 52 12 == 0) && nbits (w 2) 0 16 == 0 && nbits (w 2) 57 7 == 0
    && nbits (w 4) 29 35 == 0 && nbits (w 5) 31 33 == 0 && nbits (w 5) 14 2 == 0 && nbits (w 6) 26 38 == 0
    && nbits (w 6) 10 6 == 0 && nbits (w 11) 20 44 == 0 && w 14 == 0 && w 15 == 0
    && decide (nbits (w 4) 20 9 ≤ 256) && decide (1 ≤ nbits (w 4) 0 17) && decide (nbits (w 4) 0 17 ≤ 65536)
    && decide (nbits (w 5) 16 15 ≤ 16384) && decide (nbits (w 5) 0 14 + nbits (w 5) 16 15 ≤ 16384)
    && [7, 8, 9, 10].all (fun i => w i % 4096 == 0)
    && [0, 1, 2, 3].all fun i => decide (4 ≤ log i) && decide (log i ≤ 16)

/-- The partition that a block describes, on top of what the partition holds. -/
def Partition.fromBlock (p : Partition) (ws : List Word) : Partition :=
  let w := blockWord ws
  { p with
    live := true, ptroot := ws.getD 0 0, hsroot := ws.getD 1 0, sidebase := ws.getD 2 0,
    toff := if p.live then p.toff else w 3, quota := nbits (w 4) 20 9, floor := nbits (w 4) 17 3, share := nbits (w 4) 0 17,
    nn := nbits (w 5) 16 15, nb := nbits (w 5) 0 14, cwsize := nbits (w 6) 16 10, cwbase := nbits (w 6) 0 10,
    fring := w 7, hring := w 8, sqn := w 9, sqp := w 10, logs := (List.range 4).map fun i => nbits (w 11) (5 * i) 5,
    save := w 12, savesz := w 13, block := ws }

/-- [a, a + n) and [b, b + m) share a number. -/
def rangesMeet (a n b m : Nat) : Bool := decide (n ≠ 0) && decide (m ≠ 0) && decide (a < b + m) && decide (b < a + n)

/-- Addresses of a partition reach no backing: a ring with its header and entries, or the save area (R344). -/
def State.unbacked (s : State) (x : Partition) : Bool :=
  let ring := fun a i size => decide (2 ^ 52 < a + 64 + size * x.entries i) || !s.backed a (64 + size * x.entries i)
  ring x.fring 0 64 || ring x.hring 1 64 || ring x.sqn 2 8 || ring x.sqp 3 8
    || (x.savesz != 0 && (s.backing x.save != .hbm || !s.backed x.save x.savesz))

/-- The other partitions. -/
def State.otherParts (s : State) (part : Nat) : List Partition :=
  (s.parts.filter fun e => e.1 != part && e.2.live).map fun e => e.2

/-- The checks of `PCFG` against the rest of the package. DEDUCED (log 42). -/
def State.blockFits (s : State) (part : Nat) (x : Partition) : Bool :=
  let os := s.otherParts part
  !s.unbacked x && (x.cwsize == 0 || decide (x.cwbase + x.cwsize ≤ 16 * s.boot.k))
    && os.all (fun o => !rangesMeet x.nb x.nn o.nb o.nn && !rangesMeet x.cwbase x.cwsize o.cwbase o.cwsize)
    && decide (x.share + natSum (os.map Partition.share) ≤ 65536)
    && decide (x.quota + natSum (os.map Partition.quota) ≤ 256)

/-- The fields of the last row of R346. -/
def Partition.fixedPart (x : Partition) : List Nat :=
  [x.nb, x.nn, x.cwbase, x.cwsize, x.fring, x.hring, x.sqn, x.sqp, x.save, x.savesz] ++ x.logs

/-- A ring that is placed anew starts with both indices 0. DESIGN CHOICE (log 33). -/
def Partition.restartRings (x old : Partition) : Partition :=
  let same := fun (f : Partition → Nat) (i : Nat) => old.live && f x == f old && x.logs.getD i 0 == old.logs.getD i 0
  let a := if same Partition.fring 0 then x else { x with fprod := 0 }
  let b := if same Partition.hring 1 then a else { a with hprod := 0 }
  let c := if same Partition.sqn 2 then b else { b with nlimit := 0, ncons := 0 }
  if same Partition.sqp 3 then c else { c with plimit := 0, pcons := 0 }

/-- Bytes of a chip window become 0 (23 R326). DEDUCED (log 41, 42). -/
def State.zeroWindow (s : State) (x : Partition) : State :=
  let lo := chKey x.chipBase
  let hi := chKey (x.chipBase + x.chipSize)
  { s with mem := kcut s.mem lo hi, bad := s.bad.filter fun k => !(lo ≤ k && k < hi) }

/-- The block is applied whole. A new or moved chip window is zeroed, and a new `SIDEBASE` empties the metadata caches of the
partition's lines (13 R217). DESIGN CHOICE (log 33). DEDUCED (log 42). -/
def State.applyBlock (s : State) (part : Nat) (x : Partition) : State :=
  let old := s.part part
  let s0 := s.setPart part (x.restartRings old)
  let s1 := if x.sidebase = old.sidebase then s0 else s0.dropLines part
  if old.live && x.cwbase == old.cwbase && x.cwsize == old.cwsize then s1 else s1.zeroWindow x

/-- DEDUCED (log 42). -/
def execPcfg (part : BitVec 6) (block : Word) (s : State) : Out :=
  .next (s.afterGo fun s1 =>
    if block.toNat % 128 ≠ 0 ∨ !s1.argBacked block 128 then (s1, Reply.badArg)
    else
      let r := s1.physRead block.toNat 128
      match r.2 with
      | none => (r.1, Reply.badArg)
      | some bs =>
        let ws := wordsOf 16 bs
        let old := r.1.part part.toNat
        let x := old.fromBlock ws
        if !blockRange ws || !r.1.blockFits part.toNat x then (r.1, Reply.badArg)
        else if old.live && x.fixedPart != old.fixedPart && !(r.1.heapOf part.toNat).isEmpty then (r.1, Reply.refused)
        else (r.1.applyBlock part.toNat x, Reply.done))

/-! ## `PDROP` (R342) -/

/-- Every running grid of a partition ends; packets that have not started end when they start. DEDUCED (log 41). -/
def execPdrop (part : BitVec 6) (s : State) : Out :=
  .next (s.onPart part fun s1 =>
    let s2 := s1.setPart part.toNat { s1.part part.toNat with dropping := true }
    let gs := kfind s2.grids fun _ x => x.live && x.part == part.toNat
    ((gs.foldl State.terminateGrid s2).dropCheck part.toNat, Reply.done))

/-! ## `GACT` and `JACT` (21 R305, 17 R254) -/

/-- The group that a grid and an identity word name: the word's team number and group number say which; its core and
partition fields repeat what those two and the command determine. DEDUCED (log 43). -/
def State.namedGroup (s : State) (part : Nat) (grid who : Word) : Option Nat :=
  if partOf grid.toNat ≠ part then none
  else ((s.gridTeams grid.toNat).flatMap s.teamGroups).find? fun k => let g := s.grp k
    (s.team g.team).number % 2 ^ 24 == who.toNat / 2 ^ 40 && g.index == who.toNat / 2 ^ 8 % 32

/-- A parked group goes on: evicted, it wakes when its team is restored (21 R310). -/
def State.unpark (s : State) (k : Nat) (g : Group) : State := (s.wakeGroup k g).refreshWake g.team

/-- An action on a named group: `k` gives the state, or `none` when the group is not parked in the matching way. -/
def State.groupAction (s : State) (part : BitVec 6) (grid who : Word) (k : State → Nat → Option State) : State :=
  s.onPart part fun s1 =>
    match s1.namedGroup part.toNat grid who with
    | none => (s1, Reply.refused)
    | some n =>
      match k s1 n with
      | none => (s1, Reply.refused)
      | some s2 => (s2, Reply.done)

/-- Resume: a fault's instruction issues again, in every group that parked with it; a system call returns the reply. -/
def State.resumeGroup (s : State) (k : Nat) (reply : Word) : Option State :=
  let g := s.grp k
  match g.status with
  | .parked (.fault gang) =>
    some ((k :: gang.filter (· != k)).foldl (fun s j =>
      match (s.grp j).status with
      | .parked (.fault _) => s.unpark j (s.grp j)
      | _ => s) s)
  | .parked (.call d act) => some (s.unpark k (g.wr d act fun _ => reply).afterBlock)
  | _ => none

def execGactResume (part : BitVec 6) (grid who reply : Word) (s : State) : Out :=
  .next (s.groupAction part grid who fun s1 k => s1.resumeGroup k reply)

/-- Skip: only a trap parked by R299. -/
def execGactSkip (part : BitVec 6) (grid who : Word) (s : State) : Out :=
  .next (s.groupAction part grid who fun s1 k =>
    match (s1.grp k).status with
    | .parked .trap => some (s1.unpark k (s1.grp k).afterSkip)
    | _ => none)

/-- Terminate group: any parked group; its grid's status becomes terminated. -/
def execGactTerminateGroup (part : BitVec 6) (grid who : Word) (s : State) : Out :=
  .next (s.groupAction part grid who fun s1 k =>
    match (s1.grp k).status with
    | .parked _ =>
      let t := s1.team (s1.grp k).team
      let s2 := s1.setGrid t.grid { s1.grid t.grid with terminated := true }
      some (((s2.endGroup k).growCheck t.cores).refreshWake (s1.grp k).team)
    | _ => none)

def execGactTerminateGrid (part : BitVec 6) (grid : Word) (s : State) : Out :=
  .next (s.onPart part fun s1 =>
    if partOf grid.toNat = part.toNat ∧ (s1.grid grid.toNat).live then (s1.terminateGrid grid.toNat, Reply.done)
    else (s1, Reply.refused))

/-- The parked job of a partition whose record has an index in the fault ring (R345). -/
def State.parkedJob (s : State) (part index : Nat) : Option Nat :=
  (kfind s.jobs fun _ j => j.live && j.part == part && j.phase == .parked && j.record == some index).head?

def State.jobAction (s : State) (part : BitVec 6) (index : Word) (phase : JobPhase) : State :=
  s.onPart part fun s1 =>
    match s1.parkedJob part.toNat index.toNat with
    | none => (s1, Reply.refused)
    | some n => (s1.setJob n { s1.job n with phase := phase, record := none }, Reply.done)

/-- The job reruns the chunk at its index. -/
def execJactResume (part : BitVec 6) (index : Word) (s : State) : Out := .next (s.jobAction part index .running)

/-- The job retires with status 0x03. -/
def execJactCancel (part : BitVec 6) (index : Word) (s : State) : Out := .next (s.jobAction part index (.failed 3))

/-! ## `EVICT` and `TINV` (21 R307, 23 R333) -/

def execEvict (part : BitVec 6) (grid team : Word) (s : State) : Out :=
  .next (s.onPart part fun s1 =>
    let ts := (s1.gridTeams grid.toNat).filter fun tk => (s1.team tk).number == team.toNat
    match ts with
    | tk :: _ =>
      if partOf grid.toNat ≠ part.toNat then (s1, Reply.refused)
      else
        let s2 := s1.evict tk
        if (s1.team tk).phase = .resident ∧ (s2.team tk).phase = .saved then (s2, Reply.done) else (s1, Reply.refused)
    | [] => (s1, Reply.refused))

/-- An entry of the partition is removed: all of them, or those whose page meets a virtual range. DEDUCED (log 49). -/
def Held.removed (h : Held) (part : Nat) (range : Option (Nat × Nat)) : Bool :=
  h.part == part &&
    match range with
    | none => true
    | some (lo, n) => rangesMeet h.va h.size lo n

/-- An `ACCMERGE` of the partition that waits for its fold has translated its area through a removed entry: its access to the area has
not performed. DEDUCED (log 49). -/
def State.mergeUses (s : State) (part : Nat) (range : Option (Nat × Nat)) : Bool :=
  s.teams.any fun e => e.2.ops.any fun o =>
    match o with
    | .merge m =>
      m.part == part &&
        match range with
        | none => true
        | some (lo, n) => rangesMeet m.area.toNat (natSum (m.pieces.map (·.2))) lo n
    | _ => false

/-- Lane accesses and chunks perform whole in one step, so the command completes with the removal, once no `ACCMERGE` waits that used
a removed entry; until then it stays in the queue. DEDUCED (log 49). -/
def execTinv (part : BitVec 6) (scope start length : Word) (s : State) : Out :=
  .next (
    let range := if scope.toNat = 0 then some (start.toNat, length.toNat) else none
    let bad := decide (2 < scope.toNat) || scope.toNat == 0 && length.toNat % 65536 != 0
    if 6 ≤ s.boot.step ∧ (s.part part.toNat).live ∧ !bad ∧ s.mergeUses part.toNat range then s
    else
      s.onPart part fun s1 =>
        if bad then (s1, Reply.badArg)
        else ({ s1 with held := s1.held.filter fun h => !h.removed part.toNat range }, Reply.done))

/-! ## Sectors and counters (23 R322, R323, R336) -/

/-- A sector's state word (R322). -/
def Sector.word (x : Sector) : Nat :=
  if x.unknown then 2 ^ 32 else x.saddr % 2 ^ 30 * 4 + x.dirty.toNat * 2 + x.valid.toNat

def execSprobe (index : Word) (s : State) : Out :=
  .next (s.afterGo fun s1 =>
    if s1.sectorCount ≤ index.toNat then (s1, Reply.badArg) else (s1, (1, (s1.sector index.toNat).word)))

/-- The sector becomes invalid without a write-back. -/
def execSreset (index : Word) (s : State) : Out :=
  .next (s.afterGo fun s1 =>
    if s1.sectorCount ≤ index.toNat then (s1, Reply.badArg) else (s1.setSector index.toNat Sector.reset, Reply.done))

/-- Instances of a counter code (R342); 0 for a code that does not exist. -/
def counterInstances (code : Nat) : Nat :=
  if code = 0 then 0
  else if code ≤ 3 then 1
  else if code ≤ 7 then 12
  else if code ≤ 9 then 4
  else if code ≤ 0x0E then 64
  else if code = 0x0F then 256
  else if code ≤ 0x13 then 32
  else if code = 0x20 ∨ code = 0x21 ∨ code = 0x22 then 256
  else if code = 0x23 then 1
  else 0

def execCntrd (code inst clear : Word) (s : State) : Out :=
  .next (s.afterGo fun s1 =>
    if counterInstances code.toNat ≤ inst.toNat then (s1, Reply.badArg)
    else
      let v := (s1.counter code.toNat inst.toNat).toNat
      let s2 := if clear.getLsbD 0 then
          { s1 with counters := kset 0 s1.counters (counterKey code.toNat inst.toNat) 0 }
        else s1
      (s2, (1, v)))

/-! ## `HSET`, `PWRCAP`, `TOFF`, `TSRC` -/

/-- A handle entry breaks the table of R348: a bad argument. DEDUCED (log 94). -/
def handleBad (e : Word) : Bool :=
  let w := e.toNat
  let members := nbits w 32 8
  nbits w 56 6 != 0 || nbits w 30 2 != 0 || nbits w 16 8 != 0 || (if handleKind e = 2 then members == 0 else members != 0)
    || ((handleKind e == 1 || handleKind e == 2) && nbits w 0 16 == 0)

/-- The handle is `w1` [11:0]; its other bits are not looked at. -/
def execHset (part : BitVec 6) (handle entry : Word) (s : State) : Out :=
  .next (s.onPart part fun s1 =>
    if handleBad entry then (s1, Reply.badArg)
    else
      let p := s1.part part.toNat
      (s1.setPart part.toNat { p with handles := kset 0 p.handles (nbits handle.toNat 0 12) entry }, Reply.done))

def execPwrcap (watts : Word) (s : State) : Out :=
  .next (s.afterGo fun s1 =>
    if watts.toNat < 1500 ∨ 2800 < watts.toNat then (s1, Reply.badArg)
    else ({ s1 with power := { s1.power with cap := watts.toNat } }, Reply.done))

def execToff (part : BitVec 6) (v : Word) (s : State) : Out :=
  .next (s.onPart part fun s1 =>
    if (s1.heapOf part.toNat).isEmpty then
      (s1.setPart part.toNat { s1.part part.toNat with toff := v.toNat }, Reply.done)
    else (s1, Reply.refused))

/-- Select a source; nothing is locked until it delivers. -/
def TimeState.select (t : TimeState) (src : TimeSource) (v : Word) : TimeState :=
  { t with source := src, locked := false, target := none, ppsFirst := src == .pps, ppsNext := if src = .pps then v.toNat else 0,
           ppsLast := t.master }

def execTsrc (src v : Word) (s : State) : Out :=
  .next (s.afterGo fun s1 =>
    match src.toNat with
    | 0 => ({ s1 with time := s1.time.select .oscillator v }, Reply.done)
    | 1 => ({ s1 with time := s1.time.select .ieee1588 v }, Reply.done)
    | 2 => ({ s1 with time := s1.time.select .pps v }, Reply.done)
    | _ => (s1, Reply.badArg))

/-! ## Attestation and bring-up (R351, R352, R356) -/

/-- Bytes as numbers, for the opaque functions. -/
def byteNats (bs : List Byte) : List Nat := bs.map BitVec.toNat

/-- The report before its signature: 0x180 bytes. -/
def State.reportHead (s : State) (part : Nat) (nonce : List Byte) : List Byte :=
  let b := s.boot
  leBytes 8 (5011 * 2 ^ 32 + part % 64 * 2 ^ 8 + 1) ++ leBytes 8 b.fid.toNat ++ List.replicate 48 0 ++ nonce ++ b.slot0
    ++ b.slot1 ++ b.slot2 ++ hash64 ((s.part part).block.flatMap wordBytes)

/-- DESIGN CHOICE (log 25). DEDUCED (log 45). -/
def execAttest (part : BitVec 6) (nonce report : Word) (s : State) : Out :=
  .next (s.command fun s1 =>
    if s1.boot.step < 2 then (s1, Reply.refused)
    else if !(s1.part part.toNat).live || !s1.argBacked nonce 64 || !s1.argBacked report 5011 then (s1, Reply.badArg)
    else
      let r := s1.physRead nonce.toNat 64
      match r.2 with
      | none => (r.1, Reply.badArg)
      | some bs =>
        let head := r.1.reportHead part.toNat bs
        let sig := (List.range 4627).map fun i => BitVec.ofNat 8 (Config.sign (byteNats head) i)
        ((r.1.physWrite report.toNat (head ++ sig)).1, (1, 5011)))

def execFid (v : Word) (s : State) : Out :=
  .next (s.command fun s1 =>
    if s1.boot.step ≠ 2 then (s1, Reply.refused)
    else ({ s1 with boot := { s1.boot with fid := v.setWidth 16, step := 3 } }, Reply.done))

/-- The three checks of R351 against a fused minimum version. DESIGN CHOICE (log 25). -/
def imagePasses (bs : List Byte) (minimum : Nat) : Bool :=
  let ns := byteNats bs
  byteNats (hash64 ((Config.imageKey ns).map (BitVec.ofNat 8))) == Config.romKeyHash && Config.imageSigned ns
    && decide (minimum ≤ Config.imageVersion ns)

/-- The boot state with an image loaded and measured into its slot. -/
def BootState.load (b : BootState) (leaf : Bool) (h : List Byte) : BootState :=
  if leaf then { b with leafLoaded := true, slot1 := h, step := 4 } else { b with gscLoaded := true, slot0 := h, step := 4 }

/-- An image is loaded once for each target; a slot changes only at reset (R351). DEDUCED (log 45). DESIGN CHOICE (log 25). -/
def execFwload (image length target : Word) (s : State) : Out :=
  .next (s.command fun s1 =>
    let leaf := target.getLsbD 0
    let loaded := if leaf then s1.boot.leafLoaded else s1.boot.gscLoaded
    if (s1.boot.step ≠ 3 ∧ s1.boot.step ≠ 4) ∨ loaded then (s1, Reply.refused)
    else if !s1.argBacked image length.toNat then (s1, Reply.badArg)
    else
      let r := s1.physRead image.toNat length.toNat
      match r.2 with
      | none => (r.1, (4, 0))
      | some bs =>
        if imagePasses bs r.1.boot.secver then
          ({ r.1 with boot := r.1.boot.load leaf (hash64 bs) }, Reply.done)
        else (r.1, (4, 0)))

/-- DEDUCED (log 45). -/
def execBootcfg (c k : Word) (s : State) : Out :=
  .next (s.command fun s1 =>
    if s1.boot.step ≠ 4 then (s1, Reply.refused)
    else if 3 < c.toNat ∨ 32 < k.toNat ∨ k.toNat % 4 ≠ 0 then (s1, Reply.badArg)
    else
      let b := { s1.boot with c := c.toNat, k := k.toNat, slot2 := hash64 (wordBytes c ++ wordBytes k), step := 5 }
      let lo := chKey 0
      ({ s1 with boot := b, sectors := [], mem := s1.mem.filter (fun e => e.1 < lo), bad := s1.bad.filter (· < lo) },
        Reply.done))

/-- DEDUCED (log 45). -/
def execGo (s : State) : Out :=
  .next (s.command fun s1 =>
    if s1.boot.step ≠ 5 ∨ !s1.boot.gscLoaded ∨ !s1.boot.leafLoaded then (s1, Reply.refused)
    else ({ s1 with boot := { s1.boot with step := 6 }, portsDown := 0 }, Reply.done))

/-- A reserved opcode: status 0xFF, no effect. DEDUCED (log 45). -/
def execReservedManagementCommand (_ : Byte) (s : State) : Out := .next (s.command fun s1 => (s1, (0xFF, 0)))

end Sys2Proof.Machine
end

