-- ==== Sys2Proof/Machine/Card.lean ====
section
/-!
DEFINITION. The card's register window (25 R340), time input, links, power and reset (25 R337, R347, R350, R353 to R356,
19 R266), and words that are no instruction (09 R136).
-/
namespace Sys2Proof.Machine

/-! ## The register window (R340) -/

/-- The bytes of the management ring that a `MQBASE` value describes. -/
def ringBytes (v : Word) : Nat := 64 + 64 * 2 ^ nbits v.toNat 0 4

/-- A value that `MQBASE` takes. -/
def State.mqbaseGood (s : State) (v : Word) : Bool :=
  let k := nbits v.toNat 0 4
  let a := nbits v.toNat 12 40 * 4096
  nbits v.toNat 52 12 == 0 && nbits v.toNat 4 8 == 0 && decide (4 ≤ k) && decide (k ≤ 12)
    && decide (a + ringBytes v ≤ 2 ^ 52) && s.backed a (ringBytes v)

/-- Writable until the `FID` command completes. -/
def execMqbaseWrite (v : Word) (s : State) : Out :=
  .next (
    if s.boot.step < 3 ∧ s.mqbaseGood v then { s with card := { s.card with mqbase := v } } else s)

/-- A doorbell value that names a queue: no reserved bit is set. -/
def doorbellFor (queue : Nat) (v : Word) : Bool :=
  nbits v.toNat 22 42 == 0 && nbits v.toNat 2 14 == 0 && nbits v.toNat 0 2 == queue

/-- The partition field. -/
def doorbellPart (v : Word) : Nat := nbits v.toNat 16 6

/-- The device reads a ring's producer index, with an acquire at system scope. -/
def State.producer (s : State) (at_ : Nat) (k : State → BitVec 32 → State) : State :=
  let r := s.physRead at_ 4
  match r.2 with
  | some bs => k r.1 (BitVec.ofNat 32 (leNat bs))
  | none => r.1

/-- DEDUCED (log 46). -/
def execManagementDoorbell (v : Word) (s : State) : Out :=
  .next (
    if doorbellFor 0 v && s.card.link && s.card.ringLog != 0 then
      s.producer s.card.ringBase fun s1 ix => { s1 with card := { s1.card with mqlimit := ix } }
    else s)

/-- A submission doorbell of an existing partition. DEDUCED (log 46). -/
def State.submissionBell (s : State) (v : Word) (priv : Bool) : State :=
  let part := doorbellPart v
  let x := s.part part
  if x.live && s.card.link then
    s.producer (x.queueAt priv) fun s1 ix =>
      let y := s1.part part
      s1.setPart part (if priv then { y with plimit := ix } else { y with nlimit := ix })
  else s

def execNormalSubmissionDoorbell (v : Word) (s : State) : Out :=
  .next (if doorbellFor 1 v then s.submissionBell v false else s)

def execPrivilegedSubmissionDoorbell (v : Word) (s : State) : Out :=
  .next (if doorbellFor 2 v then s.submissionBell v true else s)

/-- The card discards the write. -/
def execReservedQueueDoorbell (_ : Word) (s : State) : Out := .next s

/-- A bit written as 1 is cleared. -/
def execIrqstWrite (v : Word) (s : State) : Out :=
  .next { s with card := { s.card with irqst := s.card.irqst &&& ~~~(v.setWidth 4) } }

/-- A write of any other register: `IRQEN` takes its four bits, and every other offset discards the write. -/
def execRegisterWrite (off : BitVec 16) (v : Word) (s : State) : Out :=
  .next (if off = 0x20 then { s with card := { s.card with irqen := v.setWidth 4 } } else s)

/-- An access of the window that reaches a register: 8 bytes, aligned. -/
def wholeRegister (off : BitVec 16) (size : Nat) : Bool := size == 8 && off.toNat % 8 == 0

/-- What a read of `size` bytes of the window returns. -/
def State.registerRead (s : State) (off : BitVec 16) (size : Nat) : Word :=
  match if wholeRegister off size then off.toNat else 0x10 with
  | 0x00 => BitVec.ofNat 64 (s.boot.step * 256 + s.power.hot.toNat * 2 + s.card.link.toNat)
  | 0x08 => s.card.mqbase
  | 0x18 => s.card.irqst.setWidth 64
  | 0x20 => s.card.irqen.setWidth 64
  | _ => 0

/-! ## Time (19 R266, 25 R350) -/

/-- A source delivers its time: the first lock after reset sets the count once, if that is later; otherwise the count is
slewed towards it. DESIGN CHOICE (log 47). -/
def TimeState.deliver (t : TimeState) (ns : Nat) : TimeState :=
  let m := if t.everLocked then t.master else max t.master ns
  { t with master := m, everLocked := true, locked := true, target := some ns }

/-- An IEEE 1588 event message, while that source is selected and the link is up. -/
def execTimeMessage (ns : Nat) (s : State) : Out :=
  .next (if s.time.source = .ieee1588 ∧ s.card.link then { s with time := s.time.deliver ns } else s)

/-- The time that a pulse edge now stands for. The first one after `TSRC` stands for the given time; a later one is the n-th behind the
last accepted edge, which the count tells by the seconds gone since then, and is ignored where it comes more than 500 µs off them.
DESIGN CHOICE (log 47). -/
def TimeState.edgeTime (t : TimeState) : Option Nat :=
  if t.ppsFirst then some t.ppsNext
  else
    let gone := t.master - t.ppsLast
    let n := (gone + 500000000) / 1000000000
    if n = 0 ∨ 500000 < gone - n * 1000000000 ∨ 500000 < n * 1000000000 - gone then none
    else some (t.ppsNext + (n - 1) * 1000000000)

/-- A pulse edge. -/
def execPpsPulse (s : State) : Out :=
  .next (
    let t := s.time
    if t.source ≠ .pps then s
    else
      match t.edgeTime with
      | none => s
      | some e =>
        let d := t.deliver e
        { s with time := { d with ppsFirst := false, ppsNext := e + 1000000000, ppsLast := d.master } })

/-- No edge has been accepted for 3 s. -/
def execPpsUnlock (s : State) : Out :=
  .next (
    let t := s.time
    if t.source = .pps ∧ t.locked ∧ t.ppsLast + 3000000000 ≤ t.master then
      { s with time := { t with locked := false, target := none } }
    else s)

/-! ## Links (25 R337, R347) -/

/-- The link fails: time messages stop. DEDUCED (log 46). -/
def execLinkDown (s : State) : Out :=
  .next (
    if s.card.link then
      let t := s.time
      let t' := if t.source = .ieee1588 then { t with locked := false, target := none } else t
      ({ s with time := t', card := { s.card with link := false } }).irq 3
    else s)

/-- Training is tried while the link is down; when it comes up at first, bring-up reaches step 2. DEDUCED (log 46). -/
def execLinkTraining (comesUp : Bool) (s : State) : Out :=
  .next (
    if !s.card.link && comesUp then
      ({ s with card := { s.card with link := true }, boot := { s.boot with step := max 2 s.boot.step } }).irq 3
    else s)

/-- Jobs that use the port's path end with status 0x02 when they next send. -/
def execFabricPathDown (port : Fin 16) (s : State) : Out := .next { s with portsDown := s.portsDown ||| (1#16 <<< port.val) }

/-! ## Power and temperature (25 R353 to R355) -/

/-- A 1 ms window ends; one in which throttling acted is counted. -/
def execPowerWindow (throttled : Bool) (s : State) : Out :=
  .next (
    let s1 := { s with power := { s.power with throttling := throttled } }
    if throttled then s1.addCounter 0x23 0 1 else s1)

/-- The junction passes 105 °C: clocks are lowered. DEDUCED (log 46). -/
def execJunctionLimit (s : State) : Out :=
  .next (if s.power.hot then s else ({ s with power := { s.power with hot := true, lowered := true } }).irq 3)

/-- DEDUCED (log 46). -/
def execJunctionBelowLimit (s : State) : Out :=
  .next (if s.power.hot then ({ s with power := { s.power with hot := false, lowered := false } }).irq 3 else s)

/-- The package at reset. The host's memory, what is fused into the package and the card's interrupt registers are not
the package's; the model's own counters go on. DESIGN CHOICE (log 29, 57). -/
def State.restart (s : State) : State :=
  { State.reset with
    mem := s.mem.filter fun e => 0x8000000000000 ≤ e.1 && e.1 < 0xFFFFFFFFFFFFF,
    bad := s.bad.filter fun k => 0x8000000000000 ≤ k && k < 0xFFFFFFFFFFFFF,
    boot := { State.reset.boot with secver := s.boot.secver },
    card := { State.reset.card with irqst := s.card.irqst, irqen := s.card.irqen, msix := s.card.msix },
    schedule := s.schedule, tick := s.tick, choices := s.choices }

/-- At 120 °C the package stops and enters reset; the host sees the link go down. DESIGN CHOICE (log 29). DEDUCED (log 46). -/
def execThermalTrip (s : State) : Out := .next (if s.card.link then s.restart.irq 3 else s.restart)

/-- Power good: bring-up step 1. -/
def execPowerGood (s : State) : Out := .next s.restart

/-! ## Words that are no instruction (09 R136) -/

/-- Rows 1 to 5 raise the illegal-instruction trap, row 6 the illegal-operand trap. -/
def execReservedInstructionWord (w : Word) (s : State) : Out :=
  .next (
    match decodeWord w with
    | .ok _ => s
    | .error row =>
      s.issue anyRole [] fun s1 => s1.trap (if row = 6 then .illegalOperand else .illegalInstruction) row (rejectHalf w))

end Sys2Proof.Machine
end

