-- ==== Sys2Proof/Machine/Control.lean ====
section
/-!
DEFINITION. Class C instructions (13 R182 to R186), and the trap of a refused word (09 R136, R137) and of a fetch that fails
(13 R183).
-/
namespace Sys2Proof.Machine

/-- A relative target: own + 8 × off (09 R122). -/
def relTarget (own : Word) (off : BitVec 36) : Word := own + (off.signExtend 64 <<< 3)

/-- A class C instruction: `body` moves or marks the active threads after the subset has advanced; `close` closes the
lookahead windows first (R120). -/
def State.control (s : State) (gd : Guard) (ops : List Opd) (close : Bool) (body : List Nat → Group → Group → Group) :
    State :=
  s.issue anyRole ops fun s1 =>
    let g := if close then s1.me.closeWindows else s1.me
    let ls := g.subset
    s1.setMe ((body (g.active gd) g (g.advance ls)).finish ls false)

/-- The threads of `act` whose register target is not a multiple of 8 (R183). -/
def Group.badTargets (g : Group) (act : List Nat) (r : Opd) : List Nat := act.filter fun l => (g.rd r l).toNat % 8 != 0

/-- `BRX` and `RET`: a misaligned target raises the misalignment fault, and no thread moves. -/
def State.branchReg (s : State) (gd : Guard) (r : Opd) (close : Bool) : State :=
  s.issue anyRole [r] fun s1 =>
    let g := if close then s1.me.closeWindows else s1.me
    let ls := g.subset
    let act := g.active gd
    match g.badTargets act r with
    | [] => s1.setMe (((g.advance ls).jump act (g.rd r)).finish ls false)
    | l :: rest =>
      s1.memFault { lanes := l :: rest, access := 3, lane := l, space := 4, reason := 5, addr := (g.rd r l).toNat }

def execBra (g : Guard) (off : BitVec 36) (s : State) : Out :=
  .next (s.control g [] false fun act grp h => h.jump act fun _ => relTarget grp.cur off)
def execBrx (g : Guard) (r : Opd) (s : State) : Out := .next (s.branchReg g r false)
def execCall (g : Guard) (link : Opd) (off : BitVec 36) (s : State) : Out :=
  .next (s.control g [link] true fun act grp h =>
    (h.wr link act fun _ => grp.cur + 8).jump act fun _ => relTarget grp.cur off)
def execRet (g : Guard) (r : Opd) (s : State) : Out := .next (s.branchReg g r true)

/-- The threads of `act` take `MEET` := f l. -/
def Group.setMeet (g : Group) (act : List Nat) (f : Nat → Word) : Group :=
  g.mapThr fun l t => if act.contains l then { t with meet := f l } else t

def execSetmeet (g : Guard) (off : BitVec 36) (s : State) : Out :=
  .next (s.control g [] false fun act grp h => h.setMeet act fun _ => relTarget grp.cur off)
def execSetmeetToken (g : Guard) (tok : Opd) (s : State) : Out :=
  .next (s.control g [tok] false fun act grp h => h.setMeet act (grp.rd tok))
def execSavemeet (g : Guard) (tok : Opd) (s : State) : Out :=
  .next (s.control g [tok] false fun act grp h => h.wr tok act fun l => (grp.thr l).meet)

/-- `YIELD` (R185): its effect is the rotation of R22 when a guard is true. DEDUCED (log 19). -/
def execYield (g : Guard) (s : State) : Out :=
  .next (s.issue anyRole [] fun s1 =>
    let h := if (s1.me.active g).isEmpty then s1.me else s1.me.closeWindows
    s1.setMe ((h.advance h.subset).finish h.subset (!(h.active g).isEmpty)))

def execNop (_ : Guard) (s : State) : Out := .next (s.issue anyRole [] fun s1 => s1.commit)

/-- The threads of `act` exit. -/
def Group.exits (g : Group) (act : List Nat) : Group :=
  g.mapThr fun l t => if act.contains l then { t with exited := true, held := false } else t

/-- `EXIT` (R186): when every thread has exited, the group ends; R32 then holds on the team's cores. -/
def execExit (g : Guard) (s : State) : Out :=
  .next (s.issue anyRole [] fun s1 =>
    let h := s1.me.closeWindows
    let ls := h.subset
    let s2 := s1.setMe (((h.advance ls).exits (h.active g)).finish ls false)
    if s2.me.threads.all Thread.exited then (s2.endGroup s2.focus).growCheck s2.myTeam.cores else s2)

/-- The access of a fetch fault: record fields of R303. -/
def fetchFault (reason addr : Nat) : MemFault :=
  { lanes := [], access := 3, lane := 0, space := 4, reason := reason, addr := addr }

/-- A fetch from an address that is not mapped executable (R183): the fault names the fetched address. -/
def State.fetchReason (s : State) : Option Nat :=
  let a := s.me.cur.toNat
  let t := s.translate s.me.core s.myPart Need.fetch a
  match t.2 with
  | .error e => some e
  | .ok w => if (t.1.physRead w.pa 8).2.isSome then none else some 6

def execInstructionFetchFault (s : State) : Out :=
  .next (
    if !s.canIssue then s
    else
      match s.fetchReason with
      | some e => s.memFault (fetchFault e s.me.cur.toNat)
      | none => s)

end Sys2Proof.Machine
end

