-- ==== Sys2Proof/Machine/SpecFun.lean ====
section
/-!
DEFINITION. The special functions of 03 R53. `RCP`, `SQRT` and `RSQ` are computed exactly with a sticky bit. The others are
enclosed between two multiples of 2^-P that lie far closer together than any F32 rounding boundary allows; when both ends
round alike, that is the result nearest to the exact value. Should they ever differ, the result is a free value.
-/
namespace Sys2Proof.Machine

/-- The special functions. -/
inductive SpecFn where
  | rcp | rsq | sqrt | ex2 | lg2 | sinpi | cospi | tanh
  deriving DecidableEq, Repr

/-- Bits behind the point in the enclosures. -/
def specP : Nat := 200

/-- ⌊π × 2^400⌋. -/
def piBits : Nat :=
  0x3243f6a8885a308d313198a2e03707344a4093822299f31d0082efa98ec4e6c89452821e638d01377be5466cf34e90c6cc0ac

/-- ⌊ln 2 × 2^400⌋. -/
def ln2Bits : Nat :=
  0xb17217f7d1cf79abc9e3b39803f2f6af40f343267298b62d8a0d175b8baafa2be7b876206debac98559552fb4afa1b10ed2e

/-- Flag combinations of exact special cases. -/
def f32Nan : Nat := 0x7FC00000

/-- A quotient with its sticky bit: a value strictly between q and q + 1 becomes q + 1/2. -/
def stickyDiv (a b : Nat) : Nat × Bool := (2 * (a / b) + (if a % b = 0 then 0 else 1), a % b != 0)

/-- ⌊√n⌋, one bit at a time from bit `i − 1` of the root. -/
def isqrtFrom (n : Nat) : Nat → Nat → Nat
  | 0, r => r
  | i + 1, r => if (r + 2 ^ i) * (r + 2 ^ i) ≤ n then isqrtFrom n i (r + 2 ^ i) else isqrtFrom n i r

/-- ± x × 2^e rounded to F32 when it is known to differ from the exact value in nothing a rounding can see. -/
def roundDyadic (neg : Bool) (x : Nat) (e : Int) (inexact : Bool) : Nat × BitVec 32 :=
  let r := roundF32 (.fin neg x e)
  (r.1, r.2 ||| (if inexact then FLAG.inexact else 0))

/-- The F32 value nearest to an irrational strictly between lo × 2^e and hi × 2^e, if the two ends decide it. -/
def roundBetween (neg : Bool) (lo hi : Nat) (e : Int) : Option (Nat × BitVec 32) :=
  let a := roundDyadic neg (2 * lo + 1) (e - 1) true
  let b := roundDyadic neg (2 * hi - 1) (e - 1) true
  if a = b then some a else none

/-- The enclosure of a sum whose terms were cut: at most `slop` units either way. -/
def slop : Nat := 4096

def roundNear (neg : Bool) (x : Nat) (e : Int) : Option (Nat × BitVec 32) := roundBetween neg (x - slop) (x + slop) e

/-- Σ z^k / k! for a fixed-point z with p fraction bits, from the term `t` of index `k`. -/
def expSeries (z p : Nat) : Nat → Nat → Nat → Nat
  | 0, _, _ => 0
  | n + 1, k, t => t + expSeries z p n (k + 1) (t * z / 2 ^ p / (k + 1))

/-- 2^p × exp(z / 2^p), for 0 ≤ z < 2^p. -/
def expFix (z p : Nat) : Nat := expSeries z p 80 0 (2 ^ p)

/-- Σ (−1)^k z^(2k+1) / (2k+1)!, the positive and the negative terms apart. -/
def sinSeries (z p : Nat) : Nat → Nat → Nat → Nat × Nat
  | 0, _, _ => (0, 0)
  | n + 1, k, t =>
    let r := sinSeries z p n (k + 1) (t * z / 2 ^ p * z / 2 ^ p / ((2 * k + 2) * (2 * k + 3)))
    (t + r.2, r.1)

def sinFix (z p : Nat) : Nat :=
  let r := sinSeries z p 60 0 z
  r.1 - r.2

/-- Σ t^(2k+1) / (2k+1). -/
def atanhSeries (t p : Nat) : Nat → Nat → Nat → Nat
  | 0, _, _ => 0
  | n + 1, k, u => u / (2 * k + 1) + atanhSeries t p n (k + 1) (u * t / 2 ^ p * t / 2 ^ p)

/-- 2^p × ln(m / 2^l) for 2^l ≤ m < 2^(l+1). -/
def lnFix (m l p : Nat) : Nat :=
  let t := (m - 2 ^ l) * 2 ^ p / (m + 2 ^ l)
  2 * atanhSeries t p 80 0 t

/-- m × 2^e as a fixed-point number with p fraction bits, cut toward 0. -/
def fixed (m : Nat) (e : Int) (p : Nat) : Nat :=
  let q := e + p
  if 0 ≤ q then m * 2 ^ q.toNat else m / 2 ^ (-q).toNat

/-- sin(π r) for 0 < r = m × 2^e < 1, r not 1/2. The point moves with r, so the relative precision is kept. -/
def sinpiPos (neg : Bool) (m : Nat) (e : Int) : Option (Nat × BitVec 32) :=
  let top : Int := e + Nat.log2 m
  let p := specP + (-top).toNat
  -- r and 1 − r have the same sine
  let r := fixed m e p
  let r := if 2 ^ p < 2 * r then 2 ^ p - r else r
  roundNear neg (sinFix (r * piBits / 2 ^ 400) p) (-(p : Int))

/-- m × 2^e modulo 2 as a dyadic number with the same exponent; e < 1. -/
def mod2 (m : Nat) (e : Int) : Nat := m % 2 ^ (1 - e).toNat

/-- `SINPI` of a finite non-zero operand. -/
def sinpiFin (neg : Bool) (m : Nat) (e : Int) : Option (Nat × BitVec 32) :=
  if 0 ≤ e ∨ m % 2 ^ (-e).toNat = 0 then some (if neg then 0x80000000 else 0, 0)
  else
    let one := 2 ^ (-e).toNat
    let r := mod2 m e
    let s := (decide (one < r)) != neg
    let r := if one < r then r - one else r
    if 2 * r = one then some (if s then 0xBF800000 else 0x3F800000, 0)
    else sinpiPos s r e

/-- `COSPI` of a finite operand: sin(π (|x| + 1/2)). -/
def cospiFin (m : Nat) (e : Int) : Option (Nat × BitVec 32) :=
  if 0 < e ∨ m = 0 then some (0x3F800000, 0)
  else
    let one := 2 ^ (-e).toNat
    if m % one = 0 then some (if m / one % 2 = 0 then 0x3F800000 else 0xBF800000, 0)
    else
      -- with one more fraction bit, |x| + 1/2 = (2 m + one) × 2^(e − 1)
      let r := mod2 (2 * m + one) (e - 1)
      if r % (2 * one) = 0 then some (0, 0)
      else
        let s := decide (2 * one < r)
        let r := if s then r - 2 * one else r
        sinpiPos s r (e - 1)

/-- `EX2` of a finite non-zero operand. -/
def ex2Fin (neg : Bool) (m : Nat) (e : Int) : Option (Nat × BitVec 32) :=
  let top : Int := e + Nat.log2 m
  if 8 ≤ top then some (roundDyadic false 1 (if neg then -400 else 400) false)
  else if 0 ≤ e ∨ m % 2 ^ (-e).toNat = 0 then
    let n : Int := fixed m e 0
    some (roundDyadic false 1 (if neg then -n else n) false)
  else
    -- x = n + f with 0 < f < 1
    let one := 2 ^ (-e).toNat
    let n : Int := if neg then -(m / one : Nat) - 1 else (m / one : Nat)
    let f := if neg then one - m % one else m % one
    let z := fixed f e specP * ln2Bits / 2 ^ 400
    roundNear false (expFix z specP) (n - specP)

/-- `LG2` of a finite operand above 0. -/
def lg2Fin (m : Nat) (e : Int) : Option (Nat × BitVec 32) :=
  let l := Nat.log2 m
  let n : Int := e + l
  if m = 2 ^ l then some (roundDyadic (decide (n < 0)) n.natAbs 0 false)
  else
    let y := n * (2 ^ specP : Nat) + (lnFix m l specP * 2 ^ 400 / ln2Bits : Nat)
    roundNear (decide (y < 0)) y.natAbs (-(specP : Int))

/-- `TANH` of a finite non-zero operand: x − x³ < tanh x < x below 2^-20; 1 − 2 / (exp(2x) + 1) above. -/
def tanhFin (neg : Bool) (m : Nat) (e : Int) : Option (Nat × BitVec 32) :=
  let top : Int := e + Nat.log2 m
  if top < -20 then
    -- at the exponent 3 e (e < 0), x − x³ = (m × 2^(−2e) − m³) × 2^(3e)
    let x := m * 2 ^ (-2 * e).toNat
    roundBetween neg (x - m ^ 3) x (3 * e)
  else if 6 ≤ top then roundBetween neg (2 ^ 100 - 1) (2 ^ 100) (-100)
  else
    let z := fixed (2 * m) e specP
    let ln2 := ln2Bits / 2 ^ (400 - specP)
    let k := z / ln2
    let ex := expFix (z % ln2) specP * 2 ^ k
    let one := 2 ^ specP
    roundNear neg (one - 2 * one * one / (ex + one)) (-(specP : Int))

/-- The operand that 1 is divided by, or whose root is taken, gives an exact or sticky result. -/
def rcpFin (neg : Bool) (m : Nat) (e : Int) : Nat × BitVec 32 :=
  let q := stickyDiv (2 ^ 100) m
  roundDyadic neg q.1 (-e - 101) q.2

/-- √(n × 2^(2 q)) of a number n, with the sticky bit. -/
def rootRound (n : Nat) (q : Int) (cut : Bool) : Nat × BitVec 32 :=
  let r := isqrtFrom n (Nat.log2 n / 2 + 1) 0
  let sticky := cut || r * r != n
  roundDyadic false (2 * r + (if sticky then 1 else 0)) (q - 1) sticky

def sqrtFin (m : Nat) (e : Int) : Nat × BitVec 32 :=
  let h := e / 2
  let n := m * 2 ^ (e - 2 * h).toNat
  rootRound (n * 2 ^ 160) (h - 80) false

def rsqFin (m : Nat) (e : Int) : Nat × BitVec 32 :=
  let h := e / 2
  let n := m * 2 ^ (e - 2 * h).toNat
  rootRound (2 ^ 240 / n) (-h - 120) (2 ^ 240 % n != 0)

/-- R53: the result and the flags of a special function on an F32 pattern, or `none` if the enclosure does not decide.
DESIGN CHOICE (log 22). -/
def specialOpt (fn : SpecFn) (p : Nat) : Option (Nat × BitVec 32) :=
  match fn, value .f32 p with
  | _, .nan => some (f32Nan, 0)
  | .rcp, .inf neg => some (if neg then 0x80000000 else 0, 0)
  | .rsq, .inf false => some (0, 0)
  | .rsq, .inf true => some (f32Nan, FLAG.invalid)
  | .sqrt, .inf false => some (0x7F800000, 0)
  | .sqrt, .inf true => some (f32Nan, FLAG.invalid)
  | .ex2, .inf neg => some (if neg then 0 else 0x7F800000, 0)
  | .lg2, .inf false => some (0x7F800000, 0)
  | .lg2, .inf true => some (f32Nan, FLAG.invalid)
  | .sinpi, .inf _ => some (f32Nan, FLAG.invalid)
  | .cospi, .inf _ => some (f32Nan, FLAG.invalid)
  | .tanh, .inf neg => some (if neg then 0xBF800000 else 0x3F800000, 0)
  | fn, .fin neg m e =>
    let signed0 := if neg then 0x80000000 else 0
    if m = 0 then
      match fn with
      | .rcp | .rsq => some (if neg then 0xFF800000 else 0x7F800000, FLAG.divzero)
      | .sqrt | .sinpi | .tanh => some (signed0, 0)
      | .ex2 | .cospi => some (0x3F800000, 0)
      | .lg2 => some (0xFF800000, FLAG.divzero)
    else
      match fn with
      | .rcp => some (rcpFin neg m e)
      | .rsq => some (if neg then (f32Nan, FLAG.invalid) else rsqFin m e)
      | .sqrt => some (if neg then (f32Nan, FLAG.invalid) else sqrtFin m e)
      | .lg2 => if neg then some (f32Nan, FLAG.invalid) else lg2Fin m e
      | .ex2 => ex2Fin neg m e
      | .sinpi => sinpiFin neg m e
      | .cospi => cospiFin m e
      | .tanh => tanhFin neg m e

def SpecFn.code : SpecFn → Nat
  | .rcp => 0 | .rsq => 1 | .sqrt => 2 | .ex2 => 3 | .lg2 => 4 | .sinpi => 5 | .cospi => 6 | .tanh => 7

/-- The special function of R53; where the enclosure does not decide, a free value (no operand is known to come there). -/
def special (fn : SpecFn) (p : Nat) : Nat × BitVec 32 :=
  (specialOpt fn p).getD (Config.special fn.code p % 2 ^ 32, FLAG.inexact)

end Sys2Proof.Machine
end

