-- ==== Sys2Proof/Machine/VectorFloat.lean ====
section
/-!
DEFINITION. Float instructions of classes A and B (11 R158 to R162).
-/
namespace Sys2Proof.Machine

/-- Sub-element functions of float patterns. -/
def floatOp1 (t : FType) (f : Fmt → Nat → Nat × BitVec 32) (x : Word) : Word × BitVec 32 :=
  let w := t.fmt.width
  elems w fun i => f t.fmt (elem x i w)

def floatOp2 (t : FType) (f : Fmt → Nat → Nat → Nat × BitVec 32) (x y : Word) : Word × BitVec 32 :=
  let w := t.fmt.width
  elems w fun i => f t.fmt (elem x i w) (elem y i w)

def floatOp3 (t : FType) (f : Fmt → Nat → Nat → Nat → Nat × BitVec 32) (x y z : Word) : Word × BitVec 32 :=
  let w := t.fmt.width
  elems w fun i => f t.fmt (elem x i w) (elem y i w) (elem z i w)

/-- R158, R159 on patterns. -/
def faddPat (m : FloatMod) (f : Fmt) (x y : Nat) : Nat × BitVec 32 := addRound f (value f x) (value f y) m.rm m.sat
def fsubPat (m : FloatMod) (f : Fmt) (x y : Nat) : Nat × BitVec 32 := addRound f (value f x) (value f y).neg m.rm m.sat
def fmulPat (m : FloatMod) (f : Fmt) (x y : Nat) : Nat × BitVec 32 := mulRound f (value f x) (value f y) m.rm m.sat
def ffmaPat (m : FloatMod) (f : Fmt) (x y z : Nat) : Nat × BitVec 32 :=
  fmaRound f (value f x) (value f y) (value f z) m.rm m.sat
def fscalePat (m : FloatMod) (f : Fmt) (x y : Nat) : Nat × BitVec 32 :=
  scaleRound f (value f x) (signed f.width y) m.rm m.sat

/-- An operation of R160 sets no flag. -/
def quiet2 (f : Fmt → Nat → Nat → Nat) (t : Fmt) (x y : Nat) : Nat × BitVec 32 := (f t x y, 0)

/-- Float conditions (R155), with the `invalid` of an ordered test on a NaN. -/
def FCond.test (c : FCond) (a b : Val) : Bool × BitVec 32 :=
  if a.isNan || b.isNan then
    match c with
    | .ne | .nan => (true, 0)
    | .lt | .le | .gt | .ge => (false, FLAG.invalid)
    | .eq | .num => (false, 0)
  else
    match c with
    | .eq => (a.eq b, 0) | .ne => (!a.eq b, 0) | .lt => (a.lt b, 0) | .le => (a.lt b || a.eq b, 0)
    | .gt => (b.lt a, 0) | .ge => (b.lt a || a.eq b, 0) | .nan => (false, 0) | .num => (true, 0)

def fcmpTest (t : FType) (cond : FCond) (x y : Word) : Bool × BitVec 32 :=
  let w := t.fmt.width
  let r := fun i => FCond.test cond (value t.fmt (elem x i w)) (value t.fmt (elem y i w))
  (allElems w fun i => (r i).1, (List.range (64 / w)).foldl (fun m i => m ||| (r i).2) 0)

/-! ## Meanings -/

def State.float2 (s : State) (g : Guard) (t : FType) (d : Opd) (a b : Src) (f : Fmt → Nat → Nat → Nat × BitVec 32) : State :=
  s.lanewise g d [a, b] (fun2 (floatOp2 t f))

def State.float2Imm (s : State) (g : Guard) (t : FType) (d : Opd) (a : Src) (imm : BitVec 22)
    (f : Fmt → Nat → Nat → Nat × BitVec 32) : State :=
  s.lanewise g d [a] (fun1 fun x => floatOp2 t f x (immFloat t imm))

def execFadd (g : Guard) (m : FloatMod) (d : Opd) (a b : Src) (s : State) : Out := .next (s.float2 g m.t d a b (faddPat m))
def execFaddImm (g : Guard) (m : FloatMod) (d : Opd) (a : Src) (imm : BitVec 22) (s : State) : Out :=
  .next (s.float2Imm g m.t d a imm (faddPat m))
def execFsub (g : Guard) (m : FloatMod) (d : Opd) (a b : Src) (s : State) : Out := .next (s.float2 g m.t d a b (fsubPat m))
def execFmul (g : Guard) (m : FloatMod) (d : Opd) (a b : Src) (s : State) : Out := .next (s.float2 g m.t d a b (fmulPat m))
def execFmulImm (g : Guard) (m : FloatMod) (d : Opd) (a : Src) (imm : BitVec 22) (s : State) : Out :=
  .next (s.float2Imm g m.t d a imm (fmulPat m))
def execFfma (g : Guard) (m : FloatMod) (d : Opd) (a b c : Src) (s : State) : Out :=
  .next (s.lanewise g d [a, b, c] (fun3 (floatOp3 m.t (ffmaPat m))))
def execFmin (g : Guard) (t : FType) (d : Opd) (a b : Src) (s : State) : Out := .next (s.float2 g t d a b (quiet2 minPat))
def execFminImm (g : Guard) (t : FType) (d : Opd) (a : Src) (imm : BitVec 22) (s : State) : Out :=
  .next (s.float2Imm g t d a imm (quiet2 minPat))
def execFmax (g : Guard) (t : FType) (d : Opd) (a b : Src) (s : State) : Out :=
  .next (s.float2 g t d a b (quiet2 maxPatOf))
def execFmaxImm (g : Guard) (t : FType) (d : Opd) (a : Src) (imm : BitVec 22) (s : State) : Out :=
  .next (s.float2Imm g t d a imm (quiet2 maxPatOf))
def execFminm (g : Guard) (t : FType) (d : Opd) (a b : Src) (s : State) : Out := .next (s.float2 g t d a b (quiet2 minMag))
def execFmaxm (g : Guard) (t : FType) (d : Opd) (a b : Src) (s : State) : Out := .next (s.float2 g t d a b (quiet2 maxMag))
def execFclamp (g : Guard) (t : FType) (d : Opd) (a b c : Src) (s : State) : Out :=
  .next (s.lanewise g d [a, b, c] (fun3 (floatOp3 t fun f x y z => (clampPat f x y z, 0))))
def execFrnd (g : Guard) (t : FType) (rm : RMode) (d : Opd) (a : Src) (s : State) : Out :=
  .next (s.lanewise g d [a] (fun1 (floatOp1 t fun f x => (integralPat f x rm, 0))))
def execFscale (g : Guard) (m : FloatMod) (d : Opd) (a b : Src) (s : State) : Out :=
  .next (s.float2 g m.t d a b (fscalePat m))
def execFcmp (g : Guard) (t : FType) (cond : FCond) (pd : PredDst) (a b : Src) (s : State) : Out :=
  .next (s.compare g pd [a, b] (fun2 (fcmpTest t cond)))
def execFcmpImm (g : Guard) (t : FType) (cond : FCond) (pd : PredDst) (a : Src) (imm : BitVec 22) (s : State) : Out :=
  .next (s.compare g pd [a] (fun1 fun x => fcmpTest t cond x (immFloat t imm)))

/-- A special function on both F32 sub-elements (R162). -/
def State.specFn (s : State) (g : Guard) (d : Opd) (a : Src) (fn : SpecFn) : State :=
  s.lanewise g d [a] (fun1 (floatOp1 .f32x2 fun _ x => special fn x))

def execRcp (g : Guard) (d : Opd) (a : Src) (s : State) : Out := .next (s.specFn g d a .rcp)
def execRsq (g : Guard) (d : Opd) (a : Src) (s : State) : Out := .next (s.specFn g d a .rsq)
def execSqrt (g : Guard) (d : Opd) (a : Src) (s : State) : Out := .next (s.specFn g d a .sqrt)
def execEx2 (g : Guard) (d : Opd) (a : Src) (s : State) : Out := .next (s.specFn g d a .ex2)
def execLg2 (g : Guard) (d : Opd) (a : Src) (s : State) : Out := .next (s.specFn g d a .lg2)
def execSinpi (g : Guard) (d : Opd) (a : Src) (s : State) : Out := .next (s.specFn g d a .sinpi)
def execCospi (g : Guard) (d : Opd) (a : Src) (s : State) : Out := .next (s.specFn g d a .cospi)
def execTanh (g : Guard) (d : Opd) (a : Src) (s : State) : Out := .next (s.specFn g d a .tanh)

end Sys2Proof.Machine
end

