-- ==== Sys2Proof/Machine/Convert.lean ====
section
/-!
DEFINITION. Conversion instructions (11 R163 to R170) and the running maximum `AMAX` (03 R57).
-/
namespace Sys2Proof.Machine

/-! ## `CVT` (R165) -/

/-- The source pattern that converted element `j` takes. -/
def cvtSource (src dst : Fmt) (part : Fin 8) (x : Word) (j : Nat) : Nat :=
  let si := if src.perLane ≤ dst.perLane then j else part.val * dst.perLane + j
  elem x si src.cell

/-- One lane: the merged destination and its flags. -/
def cvtLane (src dst : Fmt) (part : Fin 8) (rm : RMode) (sat : Bool) (x old : Word) : Word × BitVec 32 :=
  (List.range (min src.perLane dst.perLane)).foldl (fun acc j =>
    let di := if src.perLane ≤ dst.perLane then part.val * src.perLane + j else j
    let r := roundTo dst (value src (cvtSource src dst part x j)) rm sat
    (put acc.1 di dst.cell r.1, acc.2 ||| r.2)) (old, 0)

/-- The values of the converted elements of one lane. -/
def cvtValues (src dst : Fmt) (part : Fin 8) (x : Word) : List Val :=
  (List.range (min src.perLane dst.perLane)).map fun j => value src (cvtSource src dst part x j)

/-- The magnitude as an F32 pattern, rounded toward +∞ where it is not exact (R57). -/
def magPat (v : Val) : Nat := (roundTo .f32 v.abs .ru false).1

/-- The `AMAX` update of R57 over some source values; F32 patterns of magnitudes order as numbers. -/
def amaxUpdate (amax : BitVec 32) (vs : List Val) : BitVec 32 :=
  BitVec.ofNat 32 (vs.foldl (fun m v => if v.isNan then m else max m (magPat v)) amax.toNat)

/-- A NaN or NaR source sets `invalid` (R57). -/
def amaxFlags (vs : List Val) : BitVec 32 := if vs.any Val.isNan then FLAG.invalid else 0

def execCvt (g : Guard) (src dst : Fmt) (part : Fin 8) (rm : RMode) (sat amax : Bool) (d : Opd) (a : Src) (s : State) : Out :=
  .next (s.simple g [d, a.r] fun act grp =>
    let h := grp.deliver d [a] act fun l => cvtLane src dst part rm sat (grp.rd a.r l) (grp.rd d l)
    if amax then
      let vs := act.flatMap fun l => cvtValues src dst part (grp.rd a.r l)
      { h.orFlags (amaxFlags vs) with amax := amaxUpdate h.amax vs }
    else h)

/-- `AMAXR` (R170): the lanes receive `AMAX`, which is reset unless `.nr`, when a guard is true. -/
def execAmaxr (g : Guard) (nr : Bool) (d : Opd) (s : State) : Out :=
  .next (s.simple g [d] fun act grp =>
    let h := grp.wr d act fun _ => grp.amax.setWidth 64
    if nr || act.isEmpty then h else { h with amax := 0 })

/-! ## `PACK` and `UNPACK` (R167, R168) -/

/-- The 192-bit stream of quad `q`: element e in bits [6e + 5 : 6e]. -/
def packStream (rdA : Nat → Word) (q : Nat) : Nat :=
  (List.range 32).foldl (fun n e => n + elem (rdA (4 * q + e / 8)) (e % 8) 8 % 64 * 2 ^ (6 * e)) 0

/-- What `PACK.x6` gives lane `l`: 0 for the last lane of the quad. -/
def packQuad (rdA : Nat → Word) (l : Nat) : Word :=
  if l % 4 = 3 then 0 else BitVec.ofNat 64 (packStream rdA (l / 4) / 2 ^ (64 * (l % 4)))

/-- The stream that `UNPACK.x6` reads: lanes 4q to 4q + 2. -/
def unpackStream (rdA : Nat → Word) (q : Nat) : Nat :=
  (rdA (4 * q)).toNat + (rdA (4 * q + 1)).toNat * 2 ^ 64 + (rdA (4 * q + 2)).toNat * 2 ^ 128

def unpackQuad (rdA : Nat → Word) (l : Nat) : Word :=
  elems0 8 fun i => unpackStream rdA (l / 4) / 2 ^ (6 * (8 * (l % 4) + i)) % 64

def packNibbles (x y : Word) : Word := elems0 4 fun i => if i < 8 then elem x i 8 % 16 else elem y (i - 8) 8 % 16

def packWords (x y : Word) : Word := elems0 32 fun i => elem (if i = 0 then x else y) 0 32

def execPack (g : Guard) (k : PackKind) (d : Opd) (a b : Src) (s : State) : Out :=
  .next (s.simple g [d, a.r, b.r] fun act grp =>
    grp.deliver d [a, b] act fun l =>
      match k with
      | .x6 => (packQuad (grp.rd a.r) l, 0)
      | .x4 => (packNibbles (grp.rd a.r l) (grp.rd b.r l), 0)
      | .w32 => (packWords (grp.rd a.r l) (grp.rd b.r l), 0))

def execUnpack (g : Guard) (k : UnpackKind) (d : Opd) (a : Src) (s : State) : Out :=
  .next (s.simple g [d, a.r] fun act grp =>
    grp.deliver d [a] act fun l =>
      match k with
      | .x6 => (unpackQuad (grp.rd a.r) l, 0)
      | .x4lo => (elems0 8 fun i => elem (grp.rd a.r l) i 4, 0)
      | .x4hi => (elems0 8 fun i => elem (grp.rd a.r l) (8 + i) 4, 0))

/-! ## `MXSCALE` (R169) -/

/-- The maximum exponent E of a format. -/
def mxExp : MxFmt → Int
  | .e2m1 => 2 | .e2m3 => 2 | .e3m2 => 4 | .e4m3 => 8 | .e5m2 => 15

def mxCalc (f : MxFmt) (p : Nat) : Nat × BitVec 32 :=
  match value .f32 p with
  | .nan => (0xFF, 0)
  | .inf _ => (0xFF, FLAG.invalid)
  | .fin _ m e => if m = 0 then (0, 0) else ((max (e + Nat.log2 m - mxExp f) (-127) + 127).toNat, 0)

def mxApply (p sc : Nat) : Nat × BitVec 32 :=
  let x := value .f32 p
  if sc % 256 = 0xFF || x.isNan then (0x7FC00000, 0) else roundF32 (x.scale (127 - (sc % 256 : Nat)))

def execMxscale (g : Guard) (op : MxOp) (d : Opd) (a : Src) (s : State) : Out :=
  match op with
  | .calc f => .next (s.lanewise g d [a] (fun1 fun x => elems 32 fun i => mxCalc f (elem x i 32)))
  | .apply b => .next (s.lanewise g d [a, b] (fun2 fun x y => elems 32 fun i => mxApply (elem x i 32) (elem y i 32)))

end Sys2Proof.Machine
end

