-- ==== Sys2Proof/Machine/CrossLane.lean ====
section
/-!
DEFINITION. Cross-lane instructions (11 R171 to R178).
-/
namespace Sys2Proof.Machine

/-! ## `SHFL` and `BCAST` (R172, R173) -/

/-- elem(rd(a, k div m), k mod m, w): the element at flat index k; the lane is read whether active or not (R144). -/
def flatElem (rdA : Nat → Word) (w k : Nat) : Nat :=
  let m := 64 / w
  elem (rdA (k / m)) (k % m) w

/-- The source position of flat index `j` for amount or index `n`, inside [0, 32m), or outside it (`.edge`).
DEDUCED (log 11). -/
def shflPos (mode : ShflMode) (w : Nat) (j : Nat) (n : Nat) : Option Nat :=
  let lim := 32 * (64 / w)
  match mode with
  | .gather => some (n % lim)
  | .rot => some ((j + n) % lim)
  | .edge =>
    let k := (j : Int) + signed 9 n
    if 0 ≤ k ∧ k < lim then some k.toNat else none
  | .bfly => some (Nat.xor j (n % lim))

/-- One lane of `SHFL`: `amt i` is the index or amount of element i, `fill` the lane of c. -/
def shflLane (w : IWidth) (mode : ShflMode) (rdA : Nat → Word) (amt : Nat → Nat) (fill : Word) (l : Nat) : Word :=
  let m := 64 / w.bits
  elems0 w.bits fun i =>
    match shflPos mode w.bits (m * l + i) (amt i) with
    | some k => flatElem rdA w.bits k
    | none => elem fill i w.bits

/-- DEDUCED (log 11). -/
def execShfl (g : Guard) (w : IWidth) (mode : ShflMode) (d : Opd) (a b c : Src) (s : State) : Out :=
  .next (s.simple g [d, a.r, b.r, c.r] fun act grp =>
    grp.deliver d [a, b, c] act fun l =>
      let amt := fun i => if mode == .gather then elem (grp.rd b.r l) i w.bits else (grp.rd b.r l).toNat % 512
      (shflLane w mode (grp.rd a.r) amt (grp.rd c.r l) l, 0))

def execShflImm (g : Guard) (w : IWidth) (mode : ShflMode) (d : Opd) (a : Src) (n : BitVec 9) (s : State) : Out :=
  .next (s.simple g [d, a.r] fun act grp =>
    grp.deliver d [a] act fun l => (shflLane w mode (grp.rd a.r) (fun _ => n.toNat) 0 l, 0))

/-- One element in every sub-element. -/
def bcastLane (w : IWidth) (rdA : Nat → Word) (k : Nat) : Word :=
  elems0 w.bits fun _ => flatElem rdA w.bits (k % (32 * (64 / w.bits)))

def execBcast (g : Guard) (w : IWidth) (d : Opd) (a b : Src) (s : State) : Out :=
  .next (s.simple g [d, a.r, b.r] fun act grp =>
    grp.deliver d [a, b] act fun l => (bcastLane w (grp.rd a.r) (grp.rd b.r l).toNat, 0))

def execBcastImm (g : Guard) (w : IWidth) (d : Opd) (a : Src) (k : BitVec 8) (s : State) : Out :=
  .next (s.simple g [d, a.r] fun act grp =>
    grp.deliver d [a] act fun _ => (bcastLane w (grp.rd a.r) k.toNat, 0))

/-! ## `VOTE` and `BALLOT` (R174, R175) -/

/-- The active lanes whose vote is yes. -/
def Group.yes (g : Group) (act : List Nat) (neg : Bool) (q : Fin 8) : List Nat :=
  act.filter fun l => (g.thr l).pred q != neg

/-- A group-level result: every active lane of a vector d, or a scalar d even with no active lane. -/
def Group.wrAll (g : Group) (d : Opd) (act : List Nat) (f : Nat → Word) (empty : Word) : Group :=
  match d with
  | .s n => g.swrite n.val (match act with | [] => empty | l :: _ => f l)
  | d => g.wr d act f

def voteVerdict (mode : VoteMode) (y v : Nat) : Bool :=
  match mode with
  | .every => y == v | .some => 1 ≤ y | .none => y == 0 | .split => 0 < y && y < v

/-- The result word of R174. -/
def voteWord (mode : VoteMode) (y v : Nat) : Word :=
  BitVec.ofNat 64 (y + v * 256 + if voteVerdict mode y v then 32768 else 0)

def execVote (g : Guard) (mode : VoteMode) (v : Fin 8) (neg : Bool) (q : Fin 8) (d : Opd) (s : State) : Out :=
  .next (s.simple g [d] fun act grp =>
    let y := (grp.yes act neg q).length
    let r := voteWord mode y act.length
    let h := (grp.wrAll d act (fun _ => r) r).mapThr fun l t =>
      if act.contains l then t.setPred v (voteVerdict mode y act.length) else t
    if act.isEmpty then h.orFlags FLAG.empty else h)

/-- What lane `l` receives from the gathered lanes (R175). -/
def ballotWord (mode : BallotMode) (yes : List Nat) (l : Nat) : Word :=
  match mode with
  | .mask => (laneMask yes).setWidth 64
  | .rank => BitVec.ofNat 64 (yes.filter fun k => k < l).length
  | .count => BitVec.ofNat 64 yes.length
  | .first => BitVec.ofNat 64 (yes.headD 32)

def execBallot (g : Guard) (mode : BallotMode) (neg : Bool) (q : Fin 8) (d : Opd) (s : State) : Out :=
  .next (s.simple g [d] fun act grp =>
    let yes := grp.yes act neg q
    grp.wrAll d act (ballotWord mode yes) (ballotWord mode [] 0))

/-! ## `LREDUCE` and `LSCAN` (R176 to R178) -/

/-- Width of a reduction type. -/
def redWidth : RedType → Nat
  | .int64 | .uint64 => 64 | .int32 | .uint32 | .f32 => 32 | .f16 | .bf16 => 16

/-- The float format of a reduction type. -/
def redFmt : RedType → Option Fmt
  | .f32 => some .f32 | .f16 => some .f16 | .bf16 => some .bf16 | _ => none

def redSigned : RedType → Bool
  | .int64 | .int32 => true
  | _ => false

/-- `step` of R177 on integers. -/
def redInt (op : RedOp) (sg : Bool) (w t e : Nat) : Nat :=
  let lt := if sg then decide (signed w t < signed w e) else decide (t < e)
  match op with
  | .add => (t + e) % 2 ^ w
  | .min => if lt then t else e
  | .max => if lt then e else t
  | .and => Nat.land t e
  | .or => Nat.lor t e
  | .xor => Nat.xor t e

/-- `step` of R177. -/
def redStep (op : RedOp) (t : RedType) (x e : Nat) : Nat × BitVec 32 :=
  match redFmt t with
  | none => (redInt op (redSigned t) (redWidth t) x e, 0)
  | some f =>
    match op with
    | .add => addRound f (value f x) (value f e) .rn false
    | .min => (minPat f x e, 0)
    | _ => (maxPatOf f x e, 0)

/-- The first contribution: a NaN enters canonical. -/
def redFirst (t : RedType) (e : Nat) : Nat :=
  match redFmt t with
  | none => e
  | some f => if (value f e).isNan then f.canon else e

/-- The running values of one sub-element over the contributing elements, with their flags. -/
def redScan (op : RedOp) (t : RedType) : Option Nat → List Nat → List (Nat × BitVec 32)
  | _, [] => []
  | none, e :: r => (redFirst t e, 0) :: redScan op t (some (redFirst t e)) r
  | some x, e :: r => redStep op t x e :: redScan op t (some (redStep op t x e).1) r

/-- The identity of R178. -/
def redIdentity (op : RedOp) (t : RedType) : Nat :=
  let w := redWidth t
  match redFmt t with
  | some f =>
    match op with
    | .min => f.infPat
    | .max => f.infPat + 2 ^ (w - 1)
    | _ => 0
  | none =>
    match op with
    | .add | .or | .xor => 0
    | .min => if redSigned t then 2 ^ (w - 1) - 1 else 2 ^ w - 1
    | .max => if redSigned t then 2 ^ (w - 1) else 0
    | .and => 2 ^ w - 1

/-- The running values of every sub-element position: entry i lists those of position i, lane by lane. -/
def redTable (op : RedOp) (t : RedType) (act : List Nat) (rdA : Nat → Word) : List (List (Nat × BitVec 32)) :=
  (List.range (64 / redWidth t)).map fun i => redScan op t none (act.map fun l => elem (rdA l) i (redWidth t))

/-- A lane's result from the table: the values at place `n` of every position. -/
def redLane (t : RedType) (tab : List (List (Nat × BitVec 32))) (n : Nat) : Word :=
  elems0 (redWidth t) fun i => ((tab.getD i []).getD n (0, 0)).1

def redFlags (tab : List (List (Nat × BitVec 32))) : BitVec 32 :=
  tab.foldl (fun m r => r.foldl (fun m x => m ||| x.2) m) 0

/-- `LREDUCE` (`scan` false) and `LSCAN`; lane l of the contributing lanes takes the last or its own running value. -/
def State.reduce (s : State) (scan : Bool) (g : Guard) (op : RedOp) (t : RedType) (d : Opd) (a : Src) : State :=
  s.simple g [d, a.r] fun act grp =>
    let tab := redTable op t act (grp.rd a.r)
    let at_ := fun l => if scan then act.findIdx (· == l) else act.length - 1
    let h := (grp.mark act a).wrAll d act (fun l => redLane t tab (at_ l)) (elems0 (redWidth t) fun _ => redIdentity op t)
    if act.isEmpty then h.orFlags FLAG.empty else h.orFlags (redFlags tab)

def execLreduce (g : Guard) (op : RedOp) (t : RedType) (d : Opd) (a : Src) (s : State) : Out :=
  .next (s.reduce false g op t d a)
def execLscan (g : Guard) (op : RedOp) (t : RedType) (d : Opd) (a : Src) (s : State) : Out :=
  .next (s.reduce true g op t d a)

end Sys2Proof.Machine
end

