-- ==== Sys2Proof/Machine/Engines.lean ====
section
/-!
DEFINITION. Copy engines (17 R248 to R257): the eight instructions that queue jobs, and the steps of a job: start, chunk,
fault, retirement; writes that arrive from other packages (25 R349).
-/
namespace Sys2Proof.Machine

/-! ## Queueing a job (R249) -/

/-- Only the feeder role queues jobs (R24). -/
def feederRole (r : Role) : Bool := r == .feeder

/-- The values of `n` registers from an operand. DEDUCED (log 10). -/
def Group.operandRun (g : Group) (o : Opd) (act : List Nat) (n : Nat) : List Word :=
  (List.range n).map fun k => g.rdGroup (o.plus k) act

/-- Registers that the fields a, b and c name, by kind (R257). -/
def JobKind.widths : JobKind → Nat × Nat × Nat
  | .cpy => (1, 1, 1) | .cpy2d => (1, 1, 2) | .gather => (1, 1, 3) | .scatter => (1, 1, 2) | .xform => (1, 1, 2)
  | .kvsend => (2, 1, 1) | .wbcast => (2, 1, 1) | .ringpush => (1, 2, 1)

/-- The job that a feeder's instruction describes. It reads its source at system scope when it is remote, otherwise at device scope,
and may rely on the group's last release fence of that scope or wider (07 R104). -/
def State.newJob (s : State) (g : Group) (act : List Nat) (k : JobKind) (mods : BitVec 8) (d a b c : Opd) : Job :=
  let t := s.team g.team
  let w := k.widths
  let part := partOf t.grid
  let handle := if k = .kvsend ∨ k = .wbcast then (s.part part).handle (g.rdGroup (a.plus 1) act).toNat else 0
  { live := true, kind := k, mods := mods, ctl := g.rdGroup d act,
    status := if d = .zero then 0 else g.rdGroup (d.plus 1) act,
    a := g.operandRun a act w.1, b := g.operandRun b act w.2.1, c := g.operandRun c act w.2.2, core := g.core, part := part,
    grid := t.grid, team := g.team, group := g.index, pc := g.cur, ident := s.identOf g, node := none, handle := handle,
    src := none, dst := none, tables := t.ct, bindings := (s.grid t.grid).bindings, phase := .queued, chunk := 0, count := 0,
    bad := false, record := none, range := [],
    seen := if k = .kvsend ∨ k = .wbcast then g.fenceSys else g.fenceDev, ptrs := none, num := s.nextJob }

/-- Scoreboard entries in use on a core (07 R103). -/
def State.sbUsed (s : State) (core : Nat) : Nat :=
  (s.jobs.filter fun e => e.2.live && e.2.node.isNone && e.2.core == core).length

/-- The job enters the queue with its scoreboard range. -/
def State.enqueue (s : State) (j : Job) : State :=
  { s.setJob s.nextJob { j with range := ((s.jobDst j).map (s.normRange j)).getD [] } with nextJob := s.nextJob + 1 }

/-- R249: traps first, then misalignment, then translation and descriptor faults; a stall while the scoreboard is full. -/
def State.queueJob (s : State) (gd : Guard) (k : JobKind) (mods : BitVec 8) (d a b c : Opd) : State :=
  s.groupLevel feederRole gd [d, a, b, c] fun act s1 =>
    let grp := s1.me
    let j := s1.newJob grp act k mods d a b c
    if s1.ctlBad j || s1.jobBad j || s1.outsideSlot j then s1.trap .illegalOperand
    else
      let dr := s1.jobDescs j
      let push : Bool := match dr.2 with
        | .ok j' => s1.pushBad j'
        | .error _ => false
      if push then s1.trap .illegalOperand
      else
        match j.misaligned with
        | some m => s1.memFault (issueFault act m.1 m.2.1 5 m.2.2)
        | none =>
          let st := s1.statusAt j
          match st.2 with
          | .error e => st.1.memFault (issueFault act 1 4 e j.status.toNat)
          | .ok _ =>
            match dr.2 with
            | .error e => s.codedFault dr.1 e 5 act
            | .ok j' => if 32 ≤ s1.sbUsed grp.core then s else (dr.1.enqueue j').commit

/-- The modifiers of R257. -/
def spaceMods (dst src : Space4) (low : BitVec 4) : BitVec 8 := dst.toBits ++ src.toBits ++ low

def execCpy (g : Guard) (dst src : Space4) (d a b c : Opd) (s : State) : Out :=
  .next (s.queueJob g .cpy (spaceMods dst src 0) d a b c)
def execCpy2d (g : Guard) (dst src : Space4) (d a b c : Opd) (s : State) : Out :=
  .next (s.queueJob g .cpy2d (spaceMods dst src 0) d a b c)
def execGather (g : Guard) (dst src : Space4) (csr : Bool) (k : Fin 8) (d a b c : Opd) (s : State) : Out :=
  .next (s.queueJob g .gather (spaceMods dst src (BitVec.ofBool csr ++ BitVec.ofFin (w := 3) k)) d a b c)
def execScatter (g : Guard) (dst src : Space4) (k : Fin 8) (d a b c : Opd) (s : State) : Out :=
  .next (s.queueJob g .scatter (spaceMods dst src (0#1 ++ BitVec.ofFin (w := 3) k)) d a b c)
def execXform (g : Guard) (keep : Bool) (d a b c : Opd) (s : State) : Out :=
  .next (s.queueJob g .xform ((BitVec.ofBool keep).setWidth 8) d a b c)
def execKvsend (g : Guard) (d a b c : Opd) (s : State) : Out := .next (s.queueJob g .kvsend 0 d a b c)
def execWbcast (g : Guard) (src : Space4) (d a b c : Opd) (s : State) : Out :=
  .next (s.queueJob g .wbcast (spaceMods .sp src 0) d a b c)
def execRingpush (g : Guard) (d a b c : Opd) (s : State) : Out := .next (s.queueJob g .ringpush 0 d a b c)

/-! ## `JOB_START` (R248, R256, 01 R27) -/

/-- The jobs of a core's engine, in issue order. -/
def State.engineJobs (s : State) (core : Nat) : List Nat :=
  kfind s.jobs fun _ j => j.live && j.node.isNone && j.core == core

/-- The overlap rule: an earlier job's destination meets a range of this one. -/
def State.overlapsEarlier (s : State) (n : Nat) (j : Job) : Bool :=
  let mine := j.range ++ (s.jobSrcs j).flatMap (s.normRange j)
  (s.engineJobs j.core).any fun m => decide (m < n) && (s.job m).range.any fun r => mine.any r.meets

/-- The ring slot is neither full nor claimed, and the team is on its core; a job that writes into the cores of its team does not start
while the team is out either (R256). -/
def State.slotOpen (s : State) (j : Job) : Bool :=
  let t := s.team j.team
  match j.ringSlot with
  | some (r, sl) => t.phase == .resident && !t.ringFull r sl && !t.ringClaim r sl
  | none => t.phase != .saved || !j.intoCores t.cores

/-- A team with the claim of one slot set to `b`. -/
def Team.setClaim (t : Team) (r sl : Nat) (b : Bool) : Team :=
  { t with rings := t.rings.modify r fun x => { x with claim := x.claim.set sl b } }

/-- The start of a job: the slot is claimed; an overlapping job runs no chunk (R258). -/
def State.startJob (s : State) (n : Nat) : State :=
  let j := s.job n
  let s1 := s.setJob n { j with phase := if s.jobOverlaps j then .failed 4 else .running }
  match j.ringSlot with
  | some (r, sl) => s1.setTeam j.team ((s1.team j.team).setClaim r sl true)
  | none => s1

/-- The engine of a core starts its oldest queued job, if it may start now. -/
def execJobStart (core : Nat) (s : State) : Out :=
  .next (
    let js := s.engineJobs core
    let busy := (js.filter fun n => (s.job n).phase != .queued).length
    match js.find? fun n => (s.job n).phase == .queued with
    | none => s
    | some n =>
      let j := s.job n
      if busy < 4 ∧ !s.overlapsEarlier n j ∧ s.slotOpen j then s.startJob n else s)

/-! ## `CHUNK_COMPLETION` and `JOB_FAULT` (R253, R254) -/

/-- The job after a chunk. -/
def Job.afterChunk (j : Job) (o : ChunkOut) : Job :=
  let bad := j.bad || o.bad
  let j' := { j with bad := bad, ptrs := o.ptrs.orElse fun _ => j.ptrs, count := if o.status = some 5 then 0 else j.count + o.count }
  match o.status with
  | some 6 => { j' with chunk := j.chunk + 1, phase := .failed 6 }
  | some st => { j' with phase := .failed st }
  | none =>
    { j' with chunk := j.chunk + 1,
              phase := if o.last then (if bad then .failed 5 else .finished) else .running }

def execChunkCompletion (job : Nat) (s : State) : Out :=
  .next (
    let j := s.job job
    if j.live && j.phase == .running then
      let r := s.runChunk j
      match r.2 with
      | .ok o => r.1.setJob job (j.afterChunk o)
      | .error _ => s
    else s)

/-- The record of a parked job (R254, 21 R303). DEDUCED (log 28). -/
def Job.stopRecord (j : Job) (n : Nat) (e : JobStop) : Option Record :=
  match e with
  | .held => none
  | .mem access space reason addr =>
    some { memRecord (issueFault [] access space reason addr) j.pc j.grid j.ident j.chunk with job := some n }
  | .decode c x => some { decodeRecord c x j.pc with job := some n }

/-- A running job parks at the start of the chunk that meets a fault, and its record is written. DEDUCED (log 28). -/
def execJobFault (job : Nat) (s : State) : Out :=
  .next (
    let j := s.job job
    if j.live && j.phase == .running then
      let r := s.runChunk j
      match r.2 with
      | .ok _ => s
      | .error e =>
        match j.stopRecord job e with
        | none => s
        | some x =>
          (s.setJob job { j with phase := .parked, record := none }).post j.part false
            { x with report := if j.node.isNone then some (j.grid, j.core) else none }
    else s)

/-! ## `JOB_RETIREMENT` (R252, R255) -/

/-- The job's status code. -/
def Job.code (j : Job) : Nat :=
  match j.phase with
  | .failed st => st
  | _ => 0

/-- The status word (R252). -/
def Job.statusWord (j : Job) : Word :=
  BitVec.ofNat 64 (min j.count 0xFFFFFFFF * 2 ^ 32 + j.kind.opcode * 2 ^ 16 + 2 ^ 15 + j.code)

/-- The status word is written, or a record says why not; `true` when it was lost. -/
def State.writeStatus (s : State) (j : Job) : State × Bool :=
  if j.status = 0 then (s, false)
  else
    let w := s.vwrite j.core j.part j.status.toNat (wordBytes j.statusWord)
    match w.2 with
    | .ok _ => (w.1, false)
    | .error e =>
      (w.1.post j.part false (memRecord (issueFault [] 6 4 e.2 j.status.toNat) j.pc j.grid j.ident j.chunk), true)

/-- A team with the pip of one slot set to `b`. -/
def Team.setPip (t : Team) (r sl : Nat) (b : Bool) : Team :=
  { t with rings := t.rings.modify r fun x => { x with pips := x.pips.set sl b } }

/-- The slot's pip flips, it is full, its claim is cleared, and groups that wait for the new phase continue (R27, R255). -/
def State.flipSlot (s : State) (j : Job) : State :=
  match j.ringSlot with
  | none => s
  | some (r, sl) =>
    let t := s.team j.team
    let ph := !t.ringPip r sl
    let t1 := ((t.setFull r sl true).setClaim r sl false).setPip r sl ph
    (s.setTeam j.team t1).release (s.teamGroups j.team) (.ring r sl ph)

/-- The effects of R255 after the status word, in their order. -/
def State.retireEffects (s : State) (n : Nat) (j : Job) (err : Bool) : State :=
  let s1 := s.flipSlot j
  let s2 := match ctlTag j.ctl with
    | some t => s1.raiseAll (s1.teamGroups j.team) (copyBit t)
    | none => s1
  let s3 := match ctlBar j.ctl with
    | some b => s2.teamBarrier j.team b none
    | none => s2
  let s4 := match ctlNode j.ctl with
    | some i => s3.nodeDec i err
    | none => s3
  let s5 := match j.node with
    | some i => if err then s4.setNode i { s4.node i with err := true } else s4
    | none => s4
  s5.setJob n Job.absent

/-- Retirement, once per job, whatever its status. -/
def State.retireJob (s : State) (n : Nat) : State :=
  let j := s.job n
  let s0 := if j.code = 3 ∨ j.code = 7 then s.scramble j else s
  let w := s0.writeStatus j
  w.1.retireEffects n j (j.code != 0 || w.2)

def execJobRetirement (job : Nat) (s : State) : Out :=
  .next (
    let j := s.job job
    let done : Bool := match j.phase with
      | .finished | .failed _ => true
      | _ => false
    if j.live && done then s.retireJob job else s)

/-! ## `INBOUND_REMOTE_WRITE` (25 R349, 17 R262) -/

/-- The partition holds an accept handle for a package and partition. -/
def Partition.accepts (p : Partition) (fid : BitVec 16) (rpart : BitVec 6) : Bool :=
  p.handles.any fun e => handleKind e.2 == 3 && e.2.extractLsb' 40 16 == fid && e.2.extractLsb' 24 6 == rpart

/-- A whole page with its sidecar line comes from a `KVSEND`; other bytes from a `WBCAST`. A refused write changes nothing
here. DESIGN CHOICE (log 31, 57). -/
def execInboundRemoteWrite (part : Nat) (fid : BitVec 16) (rpart : BitVec 6) (addr : Word) (bytes : List Byte) (s : State) :
    Out :=
  .next (
    if !(s.part part).accepts fid rpart then s
    else
      let a := addr.toNat
      if bytes.length = 65536 + 256 then
        let t := s.translateRange noCore part Need.write a 65536
        match t.2 with
        | .error _ => s
        | .ok ws =>
          if ws.any fun w => w.1.kind != 1 then s
          else
            let l := t.1.translateRange noCore part Need.write (t.1.lineAt part a) 256
            match l.2 with
            | .error _ => s
            | .ok ls =>
              let s1 := (l.1.rememberPieces .other a ws).rememberPieces .other (t.1.lineAt part a) ls
              ((s1.writePieces ws (bytes.take 65536)).1.writePieces ls (bytes.drop 65536)).1
      else
        let t := s.translateRange noCore part Need.write a bytes.length
        match t.2 with
        | .error _ => s
        | .ok ws =>
          let r := (t.1.rememberPieces .other a ws).writePieces ws bytes
          if r.2 then r.1 else s)

end Sys2Proof.Machine
end

