-- ==== Sys2Proof/Machine/VectorInt.lean ====
section
/-!
DEFINITION. Integer instructions of classes A and B, `MOVI` and the predicate instructions (11 R146 to R157, 09 R124).
-/
namespace Sys2Proof.Machine

/-! ## The functions of the entries -/

/-- An operand as R146 takes it: unsigned with `.u`, otherwise signed. -/
def intOf (u : Bool) (w x : Nat) : Int := if u then ((x % 2 ^ w : Nat) : Int) else signed w x

/-- How R146 writes the exact result r. -/
def intResult (m : IntMod) (r : Int) : Nat × BitVec 32 :=
  let w := m.w.bits
  if m.sat then
    let lo : Int := if m.u then 0 else -(2 ^ (w - 1) : Nat)
    let hi : Int := if m.u then (2 ^ w - 1 : Nat) else (2 ^ (w - 1) - 1 : Nat)
    if r < lo then (unsigned w lo, FLAG.saturated)
    else if hi < r then (unsigned w hi, FLAG.saturated)
    else (unsigned w r, 0)
  else (unsigned w r, 0)

/-- The lanes of R146's two-source arithmetic. -/
def intOp2 (m : IntMod) (f : Int → Int → Int) (x y : Word) : Word × BitVec 32 :=
  let w := m.w.bits
  elems w fun i => intResult m (f (intOf m.u w (elem x i w)) (intOf m.u w (elem y i w)))

def intOp3 (m : IntMod) (f : Int → Int → Int → Int) (x y z : Word) : Word × BitVec 32 :=
  let w := m.w.bits
  elems w fun i => intResult m (f (intOf m.u w (elem x i w)) (intOf m.u w (elem y i w)) (intOf m.u w (elem z i w)))

def intOp1 (m : IntMod) (f : Int → Int) (x : Word) : Word × BitVec 32 :=
  let w := m.w.bits
  elems w fun i => intResult m (f (intOf m.u w (elem x i w)))

/-- `IADDC` (R147). -/
def addCarry (w : IWidth) (co : Bool) (x y z : Word) : Word :=
  let b := w.bits
  elems0 b fun i =>
    let sum := elem x i b + elem y i b + elem z i b % 2
    if co then sum / 2 ^ b else sum % 2 ^ b

/-- Sub-element functions of two patterns. -/
def patOp2 (w : IWidth) (f : Nat → Nat → Nat → Nat) (x y : Word) : Word :=
  elems0 w.bits fun i => f w.bits (elem x i w.bits) (elem y i w.bits)

def patOp1 (w : IWidth) (f : Nat → Nat → Nat) (x : Word) : Word := elems0 w.bits fun i => f w.bits (elem x i w.bits)

/-- R148. -/
def shlPat (w a n : Nat) : Nat := if n < w then a * 2 ^ n % 2 ^ w else 0
def shrPat (w a n : Nat) : Nat := if n < w then a / 2 ^ n else 0
def shraPat (w a n : Nat) : Nat :=
  if n < w then unsigned w (signed w a / (2 ^ n : Nat)) else if signed w a < 0 then 2 ^ w - 1 else 0
def rotlPat (w a n : Nat) : Nat := (a * 2 ^ (n % w) % 2 ^ w) + a / 2 ^ (w - n % w)

/-- R149: the effective length. -/
def fieldLen (w pos len : Nat) : Nat := if w ≤ pos then 0 else min len (w - pos)

def bfxPat (u : Bool) (pos len w a : Nat) : Nat :=
  let l := fieldLen w pos len
  if l = 0 then 0
  else
    let f := a / 2 ^ pos % 2 ^ l
    if u then f else unsigned w (signed l f)

def bfiPat (pos len w a c : Nat) : Nat :=
  let l := fieldLen w pos len
  if l = 0 then c else c - (c / 2 ^ pos % 2 ^ l) * 2 ^ pos + (a % 2 ^ l) * 2 ^ pos

/-- pos = b[5:0] and len = b[12:6] of the whole lane of b (R149). -/
def bfPos (b : Word) : Nat := b.toNat % 64
def bfLen (b : Word) : Nat := b.toNat / 64 % 128

/-- R150. -/
def popcPat (w a : Nat) : Nat := ((List.range w).filter fun j => a.testBit j).length
def clzPat (w a : Nat) : Nat := if a = 0 then w else w - 1 - Nat.log2 a
def brevPat (w a : Nat) : Nat := (List.range w).foldl (fun r j => r + if a.testBit (w - 1 - j) then 2 ^ j else 0) 0

/-- `LEA` (R153). -/
def leaWord (f : LeaForm) (sh : Fin 8) (a b : Word) : Word :=
  let ix : Word := match f with
    | .x64 => b
    | .x32 => (b.setWidth 32).signExtend 64
    | .x32u => (b.setWidth 32).setWidth 64
  a + (ix <<< sh.val)

/-- Integer conditions (R154). -/
def ICond.test (c : ICond) (a b : Int) : Bool :=
  match c with
  | .eq => a == b | .ne => a != b | .lt => decide (a < b) | .le => decide (a ≤ b) | .gt => decide (b < a)
  | .ge => decide (b ≤ a)

def icmpTest (w : IWidth) (u : Bool) (cond : ICond) (x y : Word) : Bool × BitVec 32 :=
  (allElems w.bits fun i => ICond.test cond (intOf u w.bits (elem x i w.bits)) (intOf u w.bits (elem y i w.bits)), 0)

/-- `PMOV.tov` (R157): p7 to p0, p7 reading as 1. -/
def Thread.predByte (t : Thread) : Word := BitVec.setWidth 64 (1#1 ++ t.preds)

/-- `MOVI` (R124). -/
def moviWord (mode : MoviMode) (imm : BitVec 32) (old : Word) : Word :=
  match mode with
  | .sx => imm.signExtend 64
  | .lo => (old &&& 0xFFFFFFFF00000000) ||| imm.setWidth 64
  | .hi => (old &&& 0x00000000FFFFFFFF) ||| (imm.setWidth 64 <<< 32)
  | .dup => (imm.setWidth 64 <<< 32) ||| imm.setWidth 64

/-! ## Meanings: arithmetic (R146, R147) -/

/-- A class A or B integer instruction of R146 with two sources. -/
def State.int2 (s : State) (g : Guard) (m : IntMod) (d : Opd) (a b : Src) (f : Int → Int → Int) : State :=
  s.lanewise g d [a, b] (fun2 (intOp2 m f))

def State.int2Imm (s : State) (g : Guard) (m : IntMod) (d : Opd) (a : Src) (imm : BitVec 22) (f : Int → Int → Int) : State :=
  s.lanewise g d [a] (fun1 fun x => intOp2 m f x (immElems m.w imm))

def execIadd (g : Guard) (m : IntMod) (d : Opd) (a b : Src) (s : State) : Out := .next (s.int2 g m d a b (· + ·))
def execIaddImm (g : Guard) (m : IntMod) (d : Opd) (a : Src) (imm : BitVec 22) (s : State) : Out :=
  .next (s.int2Imm g m d a imm (· + ·))
def execIsub (g : Guard) (m : IntMod) (d : Opd) (a b : Src) (s : State) : Out := .next (s.int2 g m d a b (· - ·))
def execIsubImm (g : Guard) (m : IntMod) (d : Opd) (a : Src) (imm : BitVec 22) (s : State) : Out :=
  .next (s.int2Imm g m d a imm (· - ·))
def execIaddc (g : Guard) (w : IWidth) (co : Bool) (d : Opd) (a b c : Src) (s : State) : Out :=
  .next (s.lanewise0 g d [a, b, c] (fun3 (addCarry w co)))
def execImul (g : Guard) (m : IntMod) (d : Opd) (a b : Src) (s : State) : Out := .next (s.int2 g m d a b (· * ·))
def execImulImm (g : Guard) (m : IntMod) (d : Opd) (a : Src) (imm : BitVec 22) (s : State) : Out :=
  .next (s.int2Imm g m d a imm (· * ·))
def execImulhi (g : Guard) (w : IWidth) (u : Bool) (d : Opd) (a b : Src) (s : State) : Out :=
  .next (s.int2 g { w := w, u := u, sat := false } d a b fun x y => x * y / (2 ^ w.bits : Nat))
def execImad (g : Guard) (m : IntMod) (d : Opd) (a b c : Src) (s : State) : Out :=
  .next (s.lanewise g d [a, b, c] (fun3 (intOp3 m fun x y z => x * y + z)))
def execImin (g : Guard) (w : IWidth) (u : Bool) (d : Opd) (a b : Src) (s : State) : Out :=
  .next (s.int2 g { w := w, u := u, sat := false } d a b min)
def execIminImm (g : Guard) (w : IWidth) (u : Bool) (d : Opd) (a : Src) (imm : BitVec 22) (s : State) : Out :=
  .next (s.int2Imm g { w := w, u := u, sat := false } d a imm min)
def execImax (g : Guard) (w : IWidth) (u : Bool) (d : Opd) (a b : Src) (s : State) : Out :=
  .next (s.int2 g { w := w, u := u, sat := false } d a b max)
def execImaxImm (g : Guard) (w : IWidth) (u : Bool) (d : Opd) (a : Src) (imm : BitVec 22) (s : State) : Out :=
  .next (s.int2Imm g { w := w, u := u, sat := false } d a imm max)
def execIabs (g : Guard) (w : IWidth) (sat : Bool) (d : Opd) (a : Src) (s : State) : Out :=
  .next (s.lanewise g d [a] (fun1 (intOp1 { w := w, u := false, sat := sat } fun x => (x.natAbs : Int))))

/-! ## Meanings: shifts, bit fields and counts (R148 to R150) -/

def State.shift (s : State) (g : Guard) (w : IWidth) (d : Opd) (a b : Src) (f : Nat → Nat → Nat → Nat) : State :=
  s.lanewise0 g d [a, b] (fun2 (patOp2 w f))

def State.shiftImm (s : State) (g : Guard) (w : IWidth) (d : Opd) (a : Src) (n : BitVec 6) (f : Nat → Nat → Nat → Nat) : State :=
  s.lanewise0 g d [a] (fun1 (patOp1 w fun b x => f b x n.toNat))

def execShl (g : Guard) (w : IWidth) (d : Opd) (a b : Src) (s : State) : Out := .next (s.shift g w d a b shlPat)
def execShlImm (g : Guard) (w : IWidth) (d : Opd) (a : Src) (n : BitVec 6) (s : State) : Out :=
  .next (s.shiftImm g w d a n shlPat)
def execShr (g : Guard) (w : IWidth) (d : Opd) (a b : Src) (s : State) : Out := .next (s.shift g w d a b shrPat)
def execShrImm (g : Guard) (w : IWidth) (d : Opd) (a : Src) (n : BitVec 6) (s : State) : Out :=
  .next (s.shiftImm g w d a n shrPat)
def execShra (g : Guard) (w : IWidth) (d : Opd) (a b : Src) (s : State) : Out := .next (s.shift g w d a b shraPat)
def execShraImm (g : Guard) (w : IWidth) (d : Opd) (a : Src) (n : BitVec 6) (s : State) : Out :=
  .next (s.shiftImm g w d a n shraPat)
def execRotl (g : Guard) (w : IWidth) (d : Opd) (a b : Src) (s : State) : Out := .next (s.shift g w d a b rotlPat)
def execRotlImm (g : Guard) (w : IWidth) (d : Opd) (a : Src) (n : BitVec 6) (s : State) : Out :=
  .next (s.shiftImm g w d a n rotlPat)

def execBfx (g : Guard) (w : IWidth) (u : Bool) (d : Opd) (a b : Src) (s : State) : Out :=
  .next (s.lanewise0 g d [a, b] (fun2 fun x y => patOp1 w (bfxPat u (bfPos y) (bfLen y)) x))
def execBfxImm (g : Guard) (w : IWidth) (u : Bool) (d : Opd) (a : Src) (pos : BitVec 6) (len : Fin 65) (s : State) : Out :=
  .next (s.lanewise0 g d [a] (fun1 (patOp1 w (bfxPat u pos.toNat len.val))))
def execBfi (g : Guard) (w : IWidth) (d : Opd) (a b c : Src) (s : State) : Out :=
  .next (s.lanewise0 g d [a, b, c] (fun3 fun x y z => patOp2 w (bfiPat (bfPos y) (bfLen y)) x z))

def execPopc (g : Guard) (w : IWidth) (d : Opd) (a : Src) (s : State) : Out :=
  .next (s.lanewise0 g d [a] (fun1 (patOp1 w popcPat)))
def execClz (g : Guard) (w : IWidth) (d : Opd) (a : Src) (s : State) : Out :=
  .next (s.lanewise0 g d [a] (fun1 (patOp1 w clzPat)))
def execBrev (g : Guard) (w : IWidth) (d : Opd) (a : Src) (s : State) : Out :=
  .next (s.lanewise0 g d [a] (fun1 (patOp1 w brevPat)))

/-! ## Meanings: logic, selection, moves and addresses (R151 to R153, R124) -/

def execAnd (g : Guard) (d : Opd) (a b : Src) (s : State) : Out := .next (s.lanewise0 g d [a, b] (fun2 (· &&& ·)))
def execAndImm (g : Guard) (d : Opd) (a : Src) (imm : BitVec 22) (s : State) : Out :=
  .next (s.lanewise0 g d [a] (fun1 fun x => x &&& immWord imm))
def execOr (g : Guard) (d : Opd) (a b : Src) (s : State) : Out := .next (s.lanewise0 g d [a, b] (fun2 (· ||| ·)))
def execOrImm (g : Guard) (d : Opd) (a : Src) (imm : BitVec 22) (s : State) : Out :=
  .next (s.lanewise0 g d [a] (fun1 fun x => x ||| immWord imm))
def execXor (g : Guard) (d : Opd) (a b : Src) (s : State) : Out := .next (s.lanewise0 g d [a, b] (fun2 (· ^^^ ·)))
def execXorImm (g : Guard) (d : Opd) (a : Src) (imm : BitVec 22) (s : State) : Out :=
  .next (s.lanewise0 g d [a] (fun1 fun x => x ^^^ immWord imm))
def execAndn (g : Guard) (d : Opd) (a b : Src) (s : State) : Out :=
  .next (s.lanewise0 g d [a, b] (fun2 fun x y => x &&& ~~~y))
def execAndnImm (g : Guard) (d : Opd) (a : Src) (imm : BitVec 22) (s : State) : Out :=
  .next (s.lanewise0 g d [a] (fun1 fun x => x &&& ~~~(immWord imm)))
def execMov (g : Guard) (d : Opd) (a : Src) (s : State) : Out := .next (s.lanewise0 g d [a] (fun1 id))

def execSel (g : Guard) (neg : Bool) (q : Fin 8) (d : Opd) (a b : Src) (s : State) : Out :=
  .next (s.simple g [d, a.r, b.r] fun act grp =>
    grp.deliver d [a, b] act fun l => (if (grp.thr l).pred q != neg then grp.rd a.r l else grp.rd b.r l, 0))

def execLea (g : Guard) (f : LeaForm) (sh : Fin 8) (d : Opd) (a b : Src) (s : State) : Out :=
  .next (s.lanewise0 g d [a, b] (fun2 (leaWord f sh)))
def execLeaImm (g : Guard) (f : LeaForm) (sh : Fin 8) (d : Opd) (a : Src) (imm : BitVec 22) (s : State) : Out :=
  .next (s.lanewise0 g d [a] (fun1 fun x => leaWord f sh x (immWord imm)))

def execMovi (g : Guard) (mode : MoviMode) (d : Opd) (imm : BitVec 32) (s : State) : Out :=
  .next (s.simple g [d] fun act grp => grp.deliver d [] act fun l => (moviWord mode imm (grp.rd d l), 0))

/-! ## Meanings: compares and predicates (R154 to R157) -/

def execIcmp (g : Guard) (w : IWidth) (u : Bool) (cond : ICond) (pd : PredDst) (a b : Src) (s : State) : Out :=
  .next (s.compare g pd [a, b] (fun2 (icmpTest w u cond)))
def execIcmpImm (g : Guard) (w : IWidth) (u : Bool) (cond : ICond) (pd : PredDst) (a : Src) (imm : BitVec 22) (s : State) : Out :=
  .next (s.compare g pd [a] (fun1 fun x => icmpTest w u cond x (immElems w imm)))

/-- `PSET` (R156). -/
def execPset (g : Guard) (pd pa pb : Fin 8) (lut : BitVec 4) (s : State) : Out :=
  .next (s.simple g [] fun act grp =>
    grp.mapThr fun l t =>
      if act.contains l then t.setPred pd (lut.getLsbD (2 * (t.pred pa).toNat + (t.pred pb).toNat)) else t)

/-- `PMOV` (R157). -/
def execPmov (g : Guard) (dir : PmovDir) (s : State) : Out :=
  match dir with
  | .tov d => .next (s.simple g [d] fun act grp => grp.wr d act fun l => (grp.thr l).predByte)
  | .top a => .next (s.simple g [a.r] fun act grp =>
      (grp.mark act a).mapThr fun l t => if act.contains l then { t with preds := (grp.rd a.r l).setWidth 7 } else t)

end Sys2Proof.Machine
end

