-- ==== Sys2Proof/Machine/Pair.lean ====
section
/-!
DEFINITION. Paired words (09 R125 to R128, R136).
-/
namespace Sys2Proof.Machine

/-- Register `n` of a half's bank (R126). -/
def bankReg (bank : Fin 6) (n : Fin 64) : Opd :=
  if h : bank.val < 5 then .v ⟨64 * bank.val + n.val, by omega⟩ else .s n

/-- d op a of R128, with its flags. -/
def halfResult (op : HalfOp) (x y : Word) : Word × BitVec 32 :=
  match op with
  | .iadd w sat => intOp2 ⟨w, false, sat⟩ (· + ·) x y
  | .isub w sat => intOp2 ⟨w, false, sat⟩ (· - ·) x y
  | .imul w => intOp2 ⟨w, false, false⟩ (· * ·) x y
  | .imin w u => intOp2 ⟨w, u, false⟩ min x y
  | .imax w u => intOp2 ⟨w, u, false⟩ max x y
  | .shl w => (patOp2 w shlPat x y, 0)
  | .shr w => (patOp2 w shrPat x y, 0)
  | .shra w => (patOp2 w shraPat x y, 0)
  | .and => (x &&& y, 0)
  | .or => (x ||| y, 0)
  | .xor => (x ^^^ y, 0)
  | .andn => (x &&& ~~~y, 0)
  | .mov => (y, 0)
  | .fadd t rm => floatOp2 t (faddPat ⟨t, rm, false⟩) x y
  | .fsub t rm => floatOp2 t (fsubPat ⟨t, rm, false⟩) x y
  | .fmul t rm => floatOp2 t (fmulPat ⟨t, rm, false⟩) x y
  | .fmin t => floatOp2 t (quiet2 minPat) x y
  | .fmax t => floatOp2 t (quiet2 maxPatOf) x y

/-- The register operands of a half. -/
def halfOpds : Half → List Opd
  | .nop => []
  | .op b => [bankReg b.bank b.d, bankReg b.bank b.a]

/-- Its two sources with their hints: d is read first (R128). -/
def halfSrcs : Half → List Src
  | .nop => []
  | .op b => [⟨bankReg b.bank b.d, b.lastD, b.keepD⟩, ⟨bankReg b.bank b.a, b.lastA, b.keepA⟩]

/-- The writes of a half from the group `g` that its reads saw, into `h`. -/
def halfWrite (hf : Half) (g : Group) (act : List Nat) (h : Group) : Group :=
  match hf with
  | .nop => h
  | .op b =>
    let d := bankReg b.bank b.d
    let a := bankReg b.bank b.a
    let r := fun l => halfResult b.op (g.rd d l) (g.rd a l)
    (h.wr d act fun l => (r l).1).orFlags (gather act fun l => (r l).2)

/-- Two non-NOP halves in one bank: row 7 of R136. -/
def sameBank : Half → Half → Bool
  | .op x, .op y => x.bank == y.bank
  | _, _ => false

/-- A paired word: every read, then the marks of both halves, then both writes (R127). An illegal pair traps with `half` = 1.
DEDUCED (log 93). -/
def execPairedWord (h0 h1 : Half) (s : State) : Out :=
  .next (
    if !s.canIssue then s
    else
      let s1 := s.setMe s.me.age
      let g := s1.me
      if !(halfOpds h0).all g.has then s1.trap .illegalOperand 6 0
      else if !(halfOpds h1).all g.has then s1.trap .illegalOperand 6 1
      else if sameBank h0 h1 then s1.trap .illegalPair 7 1
      else
        let act := g.subset
        let m := g.marks act (halfSrcs h0 ++ halfSrcs h1)
        s1.setMe (halfWrite h1 g act (halfWrite h0 g act m)).next)

end Sys2Proof.Machine
end

