-- ==== Sys2Proof/Machine/Dispatch.lean ====
section
/-!
DEFINITION. The dispatch of every constructor of `Instr` to its meaning, one arm each.
-/
namespace Sys2Proof.Machine

/-- The meaning of an instruction or event in a state. -/
def exec (i : Instr) (s : State) : Host.Outcome State Fault Refusal :=
  match i with
  | .iadd g m d a b => Sys2Proof.Machine.execIadd g m d a b s
  | .iaddImm g m d a imm => Sys2Proof.Machine.execIaddImm g m d a imm s
  | .isub g m d a b => Sys2Proof.Machine.execIsub g m d a b s
  | .isubImm g m d a imm => Sys2Proof.Machine.execIsubImm g m d a imm s
  | .iaddc g w co d a b c => Sys2Proof.Machine.execIaddc g w co d a b c s
  | .imul g m d a b => Sys2Proof.Machine.execImul g m d a b s
  | .imulImm g m d a imm => Sys2Proof.Machine.execImulImm g m d a imm s
  | .imulhi g w u d a b => Sys2Proof.Machine.execImulhi g w u d a b s
  | .imad g m d a b c => Sys2Proof.Machine.execImad g m d a b c s
  | .imin g w u d a b => Sys2Proof.Machine.execImin g w u d a b s
  | .iminImm g w u d a imm => Sys2Proof.Machine.execIminImm g w u d a imm s
  | .imax g w u d a b => Sys2Proof.Machine.execImax g w u d a b s
  | .imaxImm g w u d a imm => Sys2Proof.Machine.execImaxImm g w u d a imm s
  | .iabs g w sat d a => Sys2Proof.Machine.execIabs g w sat d a s
  | .shl g w d a b => Sys2Proof.Machine.execShl g w d a b s
  | .shlImm g w d a n => Sys2Proof.Machine.execShlImm g w d a n s
  | .shr g w d a b => Sys2Proof.Machine.execShr g w d a b s
  | .shrImm g w d a n => Sys2Proof.Machine.execShrImm g w d a n s
  | .shra g w d a b => Sys2Proof.Machine.execShra g w d a b s
  | .shraImm g w d a n => Sys2Proof.Machine.execShraImm g w d a n s
  | .rotl g w d a b => Sys2Proof.Machine.execRotl g w d a b s
  | .rotlImm g w d a n => Sys2Proof.Machine.execRotlImm g w d a n s
  | .and g d a b => Sys2Proof.Machine.execAnd g d a b s
  | .andImm g d a imm => Sys2Proof.Machine.execAndImm g d a imm s
  | .or g d a b => Sys2Proof.Machine.execOr g d a b s
  | .orImm g d a imm => Sys2Proof.Machine.execOrImm g d a imm s
  | .xor g d a b => Sys2Proof.Machine.execXor g d a b s
  | .xorImm g d a imm => Sys2Proof.Machine.execXorImm g d a imm s
  | .andn g d a b => Sys2Proof.Machine.execAndn g d a b s
  | .andnImm g d a imm => Sys2Proof.Machine.execAndnImm g d a imm s
  | .bfx g w u d a b => Sys2Proof.Machine.execBfx g w u d a b s
  | .bfxImm g w u d a pos len => Sys2Proof.Machine.execBfxImm g w u d a pos len s
  | .bfi g w d a b c => Sys2Proof.Machine.execBfi g w d a b c s
  | .popc g w d a => Sys2Proof.Machine.execPopc g w d a s
  | .clz g w d a => Sys2Proof.Machine.execClz g w d a s
  | .brev g w d a => Sys2Proof.Machine.execBrev g w d a s
  | .sel g neg q d a b => Sys2Proof.Machine.execSel g neg q d a b s
  | .mov g d a => Sys2Proof.Machine.execMov g d a s
  | .lea g f sh d a b => Sys2Proof.Machine.execLea g f sh d a b s
  | .leaImm g f sh d a imm => Sys2Proof.Machine.execLeaImm g f sh d a imm s
  | .icmp g w u cond pd a b => Sys2Proof.Machine.execIcmp g w u cond pd a b s
  | .icmpImm g w u cond pd a imm => Sys2Proof.Machine.execIcmpImm g w u cond pd a imm s
  | .pset g pd pa pb lut => Sys2Proof.Machine.execPset g pd pa pb lut s
  | .pmov g dir => Sys2Proof.Machine.execPmov g dir s
  | .fadd g m d a b => Sys2Proof.Machine.execFadd g m d a b s
  | .faddImm g m d a imm => Sys2Proof.Machine.execFaddImm g m d a imm s
  | .fsub g m d a b => Sys2Proof.Machine.execFsub g m d a b s
  | .fmul g m d a b => Sys2Proof.Machine.execFmul g m d a b s
  | .fmulImm g m d a imm => Sys2Proof.Machine.execFmulImm g m d a imm s
  | .ffma g m d a b c => Sys2Proof.Machine.execFfma g m d a b c s
  | .fmin g t d a b => Sys2Proof.Machine.execFmin g t d a b s
  | .fminImm g t d a imm => Sys2Proof.Machine.execFminImm g t d a imm s
  | .fmax g t d a b => Sys2Proof.Machine.execFmax g t d a b s
  | .fmaxImm g t d a imm => Sys2Proof.Machine.execFmaxImm g t d a imm s
  | .fminm g t d a b => Sys2Proof.Machine.execFminm g t d a b s
  | .fmaxm g t d a b => Sys2Proof.Machine.execFmaxm g t d a b s
  | .fclamp g t d a b c => Sys2Proof.Machine.execFclamp g t d a b c s
  | .frnd g t rm d a => Sys2Proof.Machine.execFrnd g t rm d a s
  | .fscale g m d a b => Sys2Proof.Machine.execFscale g m d a b s
  | .fcmp g t cond pd a b => Sys2Proof.Machine.execFcmp g t cond pd a b s
  | .fcmpImm g t cond pd a imm => Sys2Proof.Machine.execFcmpImm g t cond pd a imm s
  | .rcp g d a => Sys2Proof.Machine.execRcp g d a s
  | .rsq g d a => Sys2Proof.Machine.execRsq g d a s
  | .sqrt g d a => Sys2Proof.Machine.execSqrt g d a s
  | .ex2 g d a => Sys2Proof.Machine.execEx2 g d a s
  | .lg2 g d a => Sys2Proof.Machine.execLg2 g d a s
  | .sinpi g d a => Sys2Proof.Machine.execSinpi g d a s
  | .cospi g d a => Sys2Proof.Machine.execCospi g d a s
  | .tanh g d a => Sys2Proof.Machine.execTanh g d a s
  | .cvt g src dst part rm sat amax d a => Sys2Proof.Machine.execCvt g src dst part rm sat amax d a s
  | .pack g k d a b => Sys2Proof.Machine.execPack g k d a b s
  | .unpack g k d a => Sys2Proof.Machine.execUnpack g k d a s
  | .mxscale g op d a => Sys2Proof.Machine.execMxscale g op d a s
  | .amaxr g nr d => Sys2Proof.Machine.execAmaxr g nr d s
  | .shfl g w mode d a b c => Sys2Proof.Machine.execShfl g w mode d a b c s
  | .shflImm g w mode d a n => Sys2Proof.Machine.execShflImm g w mode d a n s
  | .bcast g w d a b => Sys2Proof.Machine.execBcast g w d a b s
  | .bcastImm g w d a k => Sys2Proof.Machine.execBcastImm g w d a k s
  | .vote g mode v neg q d => Sys2Proof.Machine.execVote g mode v neg q d s
  | .ballot g mode neg q d => Sys2Proof.Machine.execBallot g mode neg q d s
  | .lreduce g op t d a => Sys2Proof.Machine.execLreduce g op t d a s
  | .lscan g op t d a => Sys2Proof.Machine.execLscan g op t d a s
  | .pairedWord h0 h1 => Sys2Proof.Machine.execPairedWord h0 h1 s
  | .movi g mode d imm => Sys2Proof.Machine.execMovi g mode d imm s
  | .ld g spc sz acq sc la d base x off => Sys2Proof.Machine.execLd g spc sz acq sc la d base x off s
  | .st g spc sz rel sc base data off => Sys2Proof.Machine.execSt g spc sz rel sc base data off s
  | .atom g op k spc sz sc la d base x off => Sys2Proof.Machine.execAtom g op k spc sz sc la d base x off s
  | .cas g k spc sz sc la d base x off => Sys2Proof.Machine.execCas g k spc sz sc la d base x off s
  | .ldt g hi q0 cnt sc la d base x => Sys2Proof.Machine.execLdt g hi q0 cnt sc la d base x s
  | .stt g hi q0 cnt sc d base x => Sys2Proof.Machine.execStt g hi q0 cnt sc d base x s
  | .sttSeal g hi q0 cnt sc d base x => Sys2Proof.Machine.execSttSeal g hi q0 cnt sc d base x s
  | .prefG g sc base x off => Sys2Proof.Machine.execPrefG g sc base x off s
  | .prefT g sc base x k => Sys2Proof.Machine.execPrefT g sc base x k s
  | .fenceAcq g sc => Sys2Proof.Machine.execFenceAcq g sc s
  | .fenceRel g sc => Sys2Proof.Machine.execFenceRel g sc s
  | .fenceAr g sc => Sys2Proof.Machine.execFenceAr g sc s
  | .afence g a b => Sys2Proof.Machine.execAfence g a b s
  | .ofence g => Sys2Proof.Machine.execOfence g s
  | .tfence g => Sys2Proof.Machine.execTfence g s
  | .gangset g pair a => Sys2Proof.Machine.execGangset g pair a s
  | .mma g mode bt reuse la d a b c => Sys2Proof.Machine.execMma g mode bt reuse la d a b c s
  | .mmaw g => Sys2Proof.Machine.execMmaw g s
  | .accz g a => Sys2Proof.Machine.execAccz g a s
  | .accld g out d a => Sys2Proof.Machine.execAccld g out d a s
  | .accst g dst srcInt sat rm d a => Sys2Proof.Machine.execAccst g dst srcInt sat rm d a s
  | .accscl g a b => Sys2Proof.Machine.execAccscl g a b s
  | .accmerge g la a b c => Sys2Proof.Machine.execAccmerge g la a b c s
  | .ctld g sp slot a => Sys2Proof.Machine.execCtld g sp slot a s
  | .ctst g sp slot d a => Sys2Proof.Machine.execCtst g sp slot d a s
  | .dec g dst sat bt la d b c => Sys2Proof.Machine.execDec g dst sat bt la d b c s
  | .enc g fmt slot la d a b c => Sys2Proof.Machine.execEnc g fmt slot la d a b c s
  | .cpy g dst src d a b c => Sys2Proof.Machine.execCpy g dst src d a b c s
  | .cpy2d g dst src d a b c => Sys2Proof.Machine.execCpy2d g dst src d a b c s
  | .gather g dst src csr k d a b c => Sys2Proof.Machine.execGather g dst src csr k d a b c s
  | .scatter g dst src k d a b c => Sys2Proof.Machine.execScatter g dst src k d a b c s
  | .xform g keep d a b c => Sys2Proof.Machine.execXform g keep d a b c s
  | .kvsend g d a b c => Sys2Proof.Machine.execKvsend g d a b c s
  | .wbcast g src d a b c => Sys2Proof.Machine.execWbcast g src d a b c s
  | .ringpush g d a b c => Sys2Proof.Machine.execRingpush g d a b c s
  | .bra g off => Sys2Proof.Machine.execBra g off s
  | .brx g r => Sys2Proof.Machine.execBrx g r s
  | .call g link off => Sys2Proof.Machine.execCall g link off s
  | .ret g r => Sys2Proof.Machine.execRet g r s
  | .setmeet g off => Sys2Proof.Machine.execSetmeet g off s
  | .setmeetToken g tok => Sys2Proof.Machine.execSetmeetToken g tok s
  | .savemeet g tok => Sys2Proof.Machine.execSavemeet g tok s
  | .yield g => Sys2Proof.Machine.execYield g s
  | .exit g => Sys2Proof.Machine.execExit g s
  | .nop g => Sys2Proof.Machine.execNop g s
  | .bar g arr count id => Sys2Proof.Machine.execBar g arr count id s
  | .cbar g arr count id => Sys2Proof.Machine.execCbar g arr count id s
  | .waitany g d a count => Sys2Proof.Machine.execWaitany g d a count s
  | .evmask g op hi a => Sys2Proof.Machine.execEvmask g op hi a s
  | .evread g mask clr hi d => Sys2Proof.Machine.execEvread g mask clr hi d s
  | .mbsend g q a b => Sys2Proof.Machine.execMbsend g q a b s
  | .mbrecv g q d a => Sys2Proof.Machine.execMbrecv g q d a s
  | .ringwait g ring sel => Sys2Proof.Machine.execRingwait g ring sel s
  | .ringrel g ring sel => Sys2Proof.Machine.execRingrel g ring sel s
  | .reggrow g k => Sys2Proof.Machine.execReggrow g k s
  | .accgrow g k => Sys2Proof.Machine.execAccgrow g k s
  | .regshrink g k => Sys2Proof.Machine.execRegshrink g k s
  | .trap g d a b code => Sys2Proof.Machine.execTrap g d a b code s
  | .clock g cyc d => Sys2Proof.Machine.execClock g cyc d s
  | .sysrd g d r => Sys2Proof.Machine.execSysrd g d r s
  | .syswr g r a => Sys2Proof.Machine.execSyswr g r a s
  | .valid g f => Sys2Proof.Machine.execValid g f s
  | .launch g d a => Sys2Proof.Machine.execLaunch g d a s
  | .done g grid => Sys2Proof.Machine.execDone g grid s
  | .reservedInstructionWord w => Sys2Proof.Machine.execReservedInstructionWord w s
  | .instructionFetchFault => Sys2Proof.Machine.execInstructionFetchFault s
  | .loadCompletion group dst lanes => Sys2Proof.Machine.execLoadCompletion group dst lanes s
  | .jointMma group => Sys2Proof.Machine.execJointMma group s
  | .mmaCommit team n => Sys2Proof.Machine.execMmaCommit team n s
  | .accmergeFold team n => Sys2Proof.Machine.execAccmergeFold team n s
  | .jobStart core => Sys2Proof.Machine.execJobStart core s
  | .chunkCompletion job => Sys2Proof.Machine.execChunkCompletion job s
  | .jobFault job => Sys2Proof.Machine.execJobFault job s
  | .jobRetirement job => Sys2Proof.Machine.execJobRetirement job s
  | .inboundRemoteWrite part fid rpart addr bytes => Sys2Proof.Machine.execInboundRemoteWrite part fid rpart addr bytes s
  | .growGrant core acc => Sys2Proof.Machine.execGrowGrant core acc s
  | .teamRetirement team => Sys2Proof.Machine.execTeamRetirement team s
  | .completionNotice part => Sys2Proof.Machine.execCompletionNotice part s
  | .ringRecordWrite part host => Sys2Proof.Machine.execRingRecordWrite part host s
  | .submissionEntry part priv => Sys2Proof.Machine.execSubmissionEntry part priv s
  | .graphStart => Sys2Proof.Machine.execGraphStart s
  | .nodeDispatch => Sys2Proof.Machine.execNodeDispatch s
  | .nodeCompletion node => Sys2Proof.Machine.execNodeCompletion node s
  | .place link grid first count => Sys2Proof.Machine.execPlace link grid first count s
  | .cancelUnstartedTeams link grid => Sys2Proof.Machine.execCancelUnstartedTeams link grid s
  | .deadlineEventCommand link grid time => Sys2Proof.Machine.execDeadlineEventCommand link grid time s
  | .teamsRetired link grid count cancelled => Sys2Proof.Machine.execTeamsRetired link grid count cancelled s
  | .faultReport link grid index core => Sys2Proof.Machine.execFaultReport link grid index core s
  | .freezeReport link grid pcore status => Sys2Proof.Machine.execFreezeReport link grid pcore status s
  | .reservedLinkCommand link kind => Sys2Proof.Machine.execReservedLinkCommand link kind s
  | .teamPlacement cluster => Sys2Proof.Machine.execTeamPlacement cluster s
  | .deadlineExpiry graph => Sys2Proof.Machine.execDeadlineExpiry graph s
  | .deadlineEvent group => Sys2Proof.Machine.execDeadlineEvent group s
  | .gridDeadline grid => Sys2Proof.Machine.execGridDeadline grid s
  | .teamEviction team => Sys2Proof.Machine.execTeamEviction team s
  | .teamRestore team => Sys2Proof.Machine.execTeamRestore team s
  | .coreFreeze core unit lost => Sys2Proof.Machine.execCoreFreeze core unit lost s
  | .migration core => Sys2Proof.Machine.execMigration core s
  | .sectorLookup addr write => Sys2Proof.Machine.execSectorLookup addr write s
  | .translationWalk core part va => Sys2Proof.Machine.execTranslationWalk core part va s
  | .mqbaseWrite v => Sys2Proof.Machine.execMqbaseWrite v s
  | .managementDoorbell v => Sys2Proof.Machine.execManagementDoorbell v s
  | .normalSubmissionDoorbell v => Sys2Proof.Machine.execNormalSubmissionDoorbell v s
  | .privilegedSubmissionDoorbell v => Sys2Proof.Machine.execPrivilegedSubmissionDoorbell v s
  | .reservedQueueDoorbell v => Sys2Proof.Machine.execReservedQueueDoorbell v s
  | .irqstWrite v => Sys2Proof.Machine.execIrqstWrite v s
  | .registerWrite off v => Sys2Proof.Machine.execRegisterWrite off v s
  | .pcfg part block => Sys2Proof.Machine.execPcfg part block s
  | .pdrop part => Sys2Proof.Machine.execPdrop part s
  | .gactResume part grid who reply => Sys2Proof.Machine.execGactResume part grid who reply s
  | .gactSkip part grid who => Sys2Proof.Machine.execGactSkip part grid who s
  | .gactTerminateGroup part grid who => Sys2Proof.Machine.execGactTerminateGroup part grid who s
  | .gactTerminateGrid part grid => Sys2Proof.Machine.execGactTerminateGrid part grid s
  | .jactResume part index => Sys2Proof.Machine.execJactResume part index s
  | .jactCancel part index => Sys2Proof.Machine.execJactCancel part index s
  | .evict part grid team => Sys2Proof.Machine.execEvict part grid team s
  | .tinv part scope start length => Sys2Proof.Machine.execTinv part scope start length s
  | .sprobe index => Sys2Proof.Machine.execSprobe index s
  | .sreset index => Sys2Proof.Machine.execSreset index s
  | .cntrd code inst clear => Sys2Proof.Machine.execCntrd code inst clear s
  | .hset part handle entry => Sys2Proof.Machine.execHset part handle entry s
  | .attest part nonce report => Sys2Proof.Machine.execAttest part nonce report s
  | .pwrcap watts => Sys2Proof.Machine.execPwrcap watts s
  | .toff part v => Sys2Proof.Machine.execToff part v s
  | .tsrc src v => Sys2Proof.Machine.execTsrc src v s
  | .fid v => Sys2Proof.Machine.execFid v s
  | .fwload image length target => Sys2Proof.Machine.execFwload image length target s
  | .bootcfg c k => Sys2Proof.Machine.execBootcfg c k s
  | .go => Sys2Proof.Machine.execGo s
  | .reservedManagementCommand opcode => Sys2Proof.Machine.execReservedManagementCommand opcode s
  | .timeMessage ns => Sys2Proof.Machine.execTimeMessage ns s
  | .ppsPulse => Sys2Proof.Machine.execPpsPulse s
  | .ppsUnlock => Sys2Proof.Machine.execPpsUnlock s
  | .linkDown => Sys2Proof.Machine.execLinkDown s
  | .linkTraining comesUp => Sys2Proof.Machine.execLinkTraining comesUp s
  | .fabricPathDown port => Sys2Proof.Machine.execFabricPathDown port s
  | .powerWindow throttled => Sys2Proof.Machine.execPowerWindow throttled s
  | .junctionLimit => Sys2Proof.Machine.execJunctionLimit s
  | .junctionBelowLimit => Sys2Proof.Machine.execJunctionBelowLimit s
  | .thermalTrip => Sys2Proof.Machine.execThermalTrip s
  | .powerGood => Sys2Proof.Machine.execPowerGood s

end Sys2Proof.Machine
end

