-- ==== Sys2Proof/Machine/Turns.lean ====
section
/-!
DEFINITION. What happens in one turn of the schedule beside an instruction's own effect: fetching a word (13 R183), reading
the next command of a queue or link, and what the outside world does.
-/
namespace Sys2Proof.Machine

/-! ## Fetching (13 R183) -/

/-- The group in a slot of a core. -/
def State.slotGroup (s : State) (core slot : Nat) : Option Nat :=
  let b := kget Bind.free (s.core core).slots slot
  if b.valid then some b.key else none

/-- The word at the current subset's `PC`, or none on a fetch fault: as it stood at the start of the grid, or as a write since has left
it (07 R108). DESIGN CHOICE (log 6). -/
def State.fetch (s : State) : State × Option Word :=
  let t := s.translate s.me.core s.myPart Need.fetch s.me.cur.toNat
  match t.2 with
  | .error _ => (t.1, none)
  | .ok w =>
    let r := t.1.physRead w.pa 8
    (r.1, r.2.map fun bs => wordOf (s.mixRun (fun _ _ => .free) (fun _ _ => true) (s.since s.myGrid.born) 8 w.pa 8 bs))

/-- What the issuing group does next, if it can issue, and the state in which it does it. DESIGN CHOICE (log 6). -/
def State.fetched (s : State) : State × Option Instr :=
  if s.canIssue then
    let f := s.fetch
    match f.2 with
    | some w => ({ f.1 with word := w }, some (fetchInstr w))
    | none => (f.1, some .instructionFetchFault)
  else (s, none)

/-! ## Commands -/

/-- The next command of a link direction. -/
def State.linkCommand (s : State) (n : Nat) (up : Bool) : Option Instr :=
  ((s.link n).head up).map fun c => linkInstr n c.kind c.grid c.arg0 c.arg1

/-- The next management command, when a doorbell has named one and its entry can be read. -/
def State.mgmtCommand (s : State) : State × Option Instr :=
  if s.card.mqcons = s.card.mqlimit then (s, none)
  else
    let r := s.physRead (s.card.entryAt s.card.mqcons.toNat) 64
    (r.1, r.2.map fun bs => mgmtInstr (wordsOf 8 bs))

/-- A write of the register window (25 R340): `CARDST` and offsets that are not listed discard it. -/
def cardInstr (off : BitVec 16) (v : Word) : Instr :=
  match off.toNat with
  | 0x08 => .mqbaseWrite v
  | 0x10 =>
    match v.toNat % 4 with
    | 0 => .managementDoorbell v
    | 1 => .normalSubmissionDoorbell v
    | 2 => .privilegedSubmissionDoorbell v
    | _ => .reservedQueueDoorbell v
  | 0x18 => .irqstWrite v
  | _ => .registerWrite off v

/-- Events of the package: what is not an instruction word, a command or a register write. DESIGN CHOICE (log 1). -/
def isEvent (e : Instr) : Bool :=
  match e with
  | .loadCompletion .. | .jointMma .. | .mmaCommit .. | .accmergeFold .. | .jobStart .. | .chunkCompletion .. | .jobFault ..
  | .jobRetirement .. | .inboundRemoteWrite .. | .growGrant .. | .teamRetirement .. | .completionNotice ..
  | .ringRecordWrite .. | .submissionEntry .. | .graphStart | .nodeDispatch | .nodeCompletion .. | .teamPlacement ..
  | .deadlineExpiry .. | .deadlineEvent .. | .gridDeadline .. | .teamEviction .. | .teamRestore .. | .coreFreeze ..
  | .migration .. | .sectorLookup .. | .translationWalk .. | .timeMessage .. | .ppsPulse | .ppsUnlock | .linkDown
  | .linkTraining .. | .fabricPathDown .. | .powerWindow .. | .junctionLimit | .junctionBelowLimit | .thermalTrip
  | .powerGood => true
  | _ => false

/-! ## The outside world -/

/-- The host writes its own memory (25 R338). DESIGN CHOICE (log 57). -/
def State.hostStore (s : State) (addr : Nat) (bs : List Byte) : State :=
  if 0x8000000000000 ≤ addr ∧ addr + bs.length ≤ 0xFFFFFFFFFFFFF then
    (s.remember .other none ((List.range bs.length).map (addr + ·))).setBytes addr bs
  else s

/-- An `ACCMERGE` of group `k` waits for its fold. -/
def State.mergeOpen (s : State) (k : Nat) : Bool :=
  (s.team (s.grp k).team).ops.any fun o =>
    match o with
    | .merge m => m.group == k
    | _ => false

/-- A grid lets `ns` pass for its partition (19 R290, R293): its expiry point is not passed before its event is sent, the
event is raised on every group within 2000 ns, on one that has ended for the sake of its open `ACCMERGE`s (15 R242), and no group is
left behind time D. DESIGN CHOICE (log 48). -/
def State.gridAllows (s : State) (gid ns : Nat) : Bool :=
  let x := s.grid gid
  let now := s.timeOf x.part + ns
  let ks := (s.gridTeams gid).flatMap s.teamGroups
  !x.live ||
    ((x.expired || decide (now ≤ x.expiry))
      && ks.all fun k =>
        let g := s.grp k
        let sent := !x.expired || g.raised || (s.core g.core).frozen || decide (now ≤ x.expiry + 2000)
        if g.status = .ended then sent || !s.mergeOpen k else sent && decide (now ≤ x.deadline))

/-- A started graph's expiry point is not passed before the event is sent. DESIGN CHOICE (log 48). -/
def State.graphAllows (s : State) (gid ns : Nat) : Bool :=
  let x := s.graph gid
  !x.live || !x.started || x.expired || decide (s.timeOf x.part + ns ≤ x.expiry)

/-- Time may advance by `ns`. DESIGN CHOICE (log 48). -/
def State.mayElapse (s : State) (ns : Nat) : Bool :=
  s.grids.all (fun e => s.gridAllows e.1 ns) && s.graphs.all fun e => s.graphAllows e.1 ns

/-- What slewing adds, for a source that is ahead, or takes away, when `ns` pass (19 R266): at most 200 ppm.
DESIGN CHOICE (log 47). -/
def State.slew (s : State) (ns : Nat) : Nat × Nat :=
  match s.time.target with
  | none => (0, 0)
  | some t =>
    let most := ns * 200 / 1000000
    (s.pick (min most (t - s.time.master) + 1), s.pick (min most (s.time.master - t) + 1))

/-- `ns` pass on the local oscillator. DESIGN CHOICE (log 47, 48). -/
def State.elapse (s : State) (ns : Nat) : State :=
  let d := s.slew ns
  let n := ns + d.1 - d.2
  if s.mayElapse n then
    { s with time := { s.time with master := s.time.master + n, target := s.time.target.map (· + ns) },
             choices := s.choices + 1 }
  else s

/-- System software writes a launch-node entry; the fields that the device writes stay (19 R278). DESIGN CHOICE (log 40). -/
def State.nodeStore (s : State) (n : Nat) (w0 job succ0 succ1 : Word) : State :=
  if n < 16384 then s.setNode n { s.node n with w0 := w0, job := job, succ0 := succ0, succ1 := succ1 } else s

/-- Uncorrectable errors appear in bytes of memory (23 R319, R326). DESIGN CHOICE (log 51). -/
def State.spoil (s : State) (addrs : List Nat) : State :=
  { s with bad := s.bad ++ (addrs.filter fun k => (decide (k < 2 ^ 52) || decide (2 ^ 53 ≤ k)) && !s.bad.contains k).eraseDups }

/-- A timing counter advances: one whose events the model does not produce (23 R336, 19 R297, 25 R354).
DESIGN CHOICE (log 56). -/
def State.countTiming (s : State) (code inst n : Nat) : State :=
  if counterInstances code ≤ inst then s
  else if code = 0x20 ∨ code = 0x21 then
    let v := min ((s.counter code inst).toNat + n) 0xFFFFFFFF
    { s with counters := kset 0 s.counters (counterKey code inst) (BitVec.ofNat 64 v) }
  else if (6 ≤ code ∧ code ≤ 7) ∨ (0x0A ≤ code ∧ code ≤ 0x0E) ∨ code = 0x11 then s.addCounter code inst n
  else s

/-- The sector of LPDDR6 address `a` is in the sector cache (23 R321). -/
def State.sectorHolds (s : State) (a : Nat) : Bool := s.backing a == .lpddr && s.homeKey a != a

/-- What an access that may wait for a sector does (13 R180). -/
def accessOut (i : Instr) (s : State) : Out :=
  match i with
  | .ld g spc sz acq sc la d base x off => execLd g spc sz acq sc la d base x off s
  | .atom g op k spc sz sc la d base x off => execAtom g op k spc sz sc la d base x off s
  | .cas g k spc sz sc la d base x off => execCas g k spc sz sc la d base x off s
  | .ldt g hi q0 cnt sc la d base x => execLdt g hi q0 cnt sc la d base x s
  | _ => .next s

/-- The next instruction of a slot's group is an access that misses the sector of address `a`: it waits for the fill, which is a
pre-emption point (13 R180, 21 R310). DESIGN CHOICE (log 20). -/
def State.missAt (s : State) (core slot : Nat) (a : Nat) : State :=
  match s.slotGroup core slot with
  | none => s
  | some k =>
    let f := ({ s with focus := k }).fetched
    let fills : Bool :=
      match f.2 with
      | some i =>
        match accessOut i f.1 with
        | .next t => !f.1.sectorHolds a && t.sectorHolds a
        | _ => false
      | none => false
    if fills then s.setGrp k { (s.grp k).closeWindows with waits := some (.fill a) } else s

/-- The copy of a line in a metadata cache becomes uncorrectable (21 R306). DESIGN CHOICE (log 51). -/
def State.spoilLine (s : State) (cluster pa : Nat) : State :=
  let c := s.cluster cluster
  if cluster < 32 then s.setCluster cluster { c with lines := c.lines.map fun l => if l.pa = pa then { l with bad := true } else l }
  else s

/-- A turn that is none of a core, queue, link, card or event. DESIGN CHOICE (log 50, 56). -/
def State.outside (s : State) (t : Turn) : State :=
  match t with
  | .hostWrite a bs => s.hostStore a bs
  | .elapse ns => s.elapse ns
  | .miss c sl a => s.missAt c sl a.toNat
  | .cycles c n => if c < 256 then s.setCore c { s.core c with cycles := (s.core c).cycles + n } else s
  | .nodeWrite n w0 j a b => s.nodeStore n w0 j a b
  | .dropHeld c => { s with held := s.held.filter fun h => h.core != c }
  | .badData addrs => s.spoil addrs
  | .badSector i => if i < s.sectorCount then s.setSector i { s.sector i with unknown := true } else s
  | .badLine g pa => s.spoilLine g pa
  | .corrected c => if c < 256 then s.addCounter 0x22 c 1 else s
  | .count code inst n => s.countTiming code inst n
  | _ => s

/-- The instruction or command that a turn runs, if any, and the state in which it runs. DESIGN CHOICE (log 1). -/
def State.selects (s : State) (t : Turn) : State × Option Instr :=
  match t with
  | .issue core slot =>
    match s.slotGroup core slot with
    | some k => { s with focus := k }.fetched
    | none => (s, none)
  | .mgmt => s.mgmtCommand
  | .link n up => (s, s.linkCommand n up)
  | .card off size v => (s, if wholeRegister off size then some (cardInstr off v) else none)
  | .event e => (s, if isEvent e then some e else none)
  | t => (s.outside t, none)

/-! ## A package on which one given instruction runs next -/

/-- Page tables at 0x100000 that map the first GiB of a partition to itself, both stages with every right. -/
def tableBytes : List (Nat × Nat) :=
  [(0x100000, 0x101001), (0x101000, 0x102001), (0x102000, 0x1F), (0x103000, 0x104001), (0x104000, 0x105001),
   (0x105000, 0x1F)]

/-- Words stored at physical addresses. -/
def State.pokeWords (s : State) (ws : List (Nat × Nat)) : State :=
  ws.foldl (fun s e => s.setBytes e.1 (leBytes 8 e.2)) s

/-- A partition over those tables, with its rings and save area. DESIGN CHOICE (log 8). -/
def demoPart : Partition :=
  { Partition.absent with
    live := true, ptroot := 0x103001, hsroot := 0x100001, quota := 256, share := 65536, fring := 0x400000,
    hring := 0x500000, sqn := 0x600000, sqp := 0x700000, logs := [4, 4, 4, 4], save := 0x800000, savesz := 0x800000 }

/-- Where the program of the demonstration package lies. -/
def demoEntry : Word := 0x200000

/-- A packet of one team of one group. DESIGN CHOICE (log 8). -/
def demoPacket (role : Nat) : Packet :=
  { Packet.empty with ver := 1, gran := 20, acc := 2, spkib := 64, roles := [role], entry := demoEntry, deadline := 2 ^ 62,
                      recAddr := 0x300000 }

/-- The role that may run an instruction (01 R24): matrix for the matrix engine and coded streams, feeder for jobs.
DESIGN CHOICE (log 8). -/
def roleFor (i : Instr) : Nat :=
  match i with
  | .gangset .. | .mma .. | .mmaw .. | .accz .. | .accld .. | .accst .. | .accscl .. | .accmerge .. | .accgrow .. | .ctld ..
  | .ctst .. | .dec .. | .enc .. => 2
  | .cpy .. | .cpy2d .. | .gather .. | .scatter .. | .xform .. | .kvsend .. | .wbcast .. | .ringpush .. => 3
  | _ => 0

/-- A package after bring-up with one team of one group of a role, resident on core 0 in slot 0. DESIGN CHOICE (log 8). -/
def State.demo (s : State) (role : Nat) : State :=
  let p := demoPacket role
  let gid := 1
  let g : Graph := { Graph.absent with live := true, started := true, pkt := p, order := s.nextOrder, deadline := p.deadline,
                                       expiry := p.deadline, depth := 1 }
  let x : Grid := { Grid.absent with live := true, born := s.past.length, graph := gid, pkt := p, depth := 1, deadline := p.deadline,
                                     expiry := p.deadline }
  let b := { s.boot with step := 6, gscLoaded := true, leafLoaded := true }
  let s0 := { s with boot := b, card := { s.card with link := true }, cores := [], teams := [], groups := [], jobs := [],
                     nextTeam := 1, nextOrder := s.nextOrder + 1 }
  let s1 := s0.pokeWords tableBytes
  let s2 := ((s1.setPart 0 { demoPart with seq := 1 }).setGraph gid g).setGrid gid x
  s2.placeTeam 0 ⟨gid, 0⟩ 0

/-- The management ring of the demonstration package. -/
def demoRing : Nat := 0x300000

/-- The step of bring-up at which a management opcode executes. DESIGN CHOICE (log 8). -/
def bringUpStep (op : Nat) : Nat := if op = 0x10 then 2 else if op = 0x11 then 3 else if op = 0x12 then 4 else if op = 0x13 then 5 else 6

/-- A package whose next management command is the 64-byte entry `w`. DESIGN CHOICE (log 8). -/
def State.demoMgmt (s : State) (w : Nat) : State :=
  let op := w % 256
  let s1 := s.demo 0
  let b := { s1.boot with step := bringUpStep op, leafLoaded := op == 0x13, gscLoaded := op == 0x13 }
  let c := { s1.card with mqbase := BitVec.ofNat 64 (demoRing + 4), mqcons := 0, mqlimit := 1 }
  { (s1.setBytes (demoRing + 64) (leBytes 64 w)) with boot := b, card := c }

/-- A package whose link 0 delivers the 32-byte command `w` next. DESIGN CHOICE (log 8). -/
def State.demoLink (s : State) (w : Nat) : State × Bool :=
  let kind := w % 256
  let c : LinkCmd := ⟨BitVec.ofNat 8 kind, BitVec.ofNat 16 (bitsAt w 16 16), BitVec.ofNat 64 (bitsAt w 64 64),
    BitVec.ofNat 64 (bitsAt w 128 64), BitVec.ofNat 64 (bitsAt w 192 64)⟩
  let up := kind == 4 || kind == 5 || kind == 6
  let s1 := s.demo 0
  let l := s1.link 0
  (s1.setLink 0 (if up then { l with up := [c], upWait := [] } else { l with down := [c], downWait := [] }), up)

/-- The state in which the very next step runs the instruction or command whose bits are `w`. DESIGN CHOICE (log 8). -/
def State.placeWord (s : State) (nbits w : Nat) : State :=
  if nbits ≤ 64 then
    let i := fetchInstr (BitVec.ofNat 64 w)
    let s1 := (s.demo (roleFor i)).setBytes demoEntry.toNat (leBytes 8 w)
    { s1 with schedule := .issue 0 0 :: s1.schedule }
  else if nbits ≤ 256 then
    let r := s.demoLink w
    { r.1 with schedule := .link 0 r.2 :: r.1.schedule }
  else
    let s1 := s.demoMgmt w
    { s1 with schedule := .mgmt :: s1.schedule }

end Sys2Proof.Machine
end

