-- ==== Sys2Proof/Machine/Step.lean ====
section
/-!
DEFINITION. One step: the next turn of the schedule is taken.
-/
namespace Sys2Proof.Config

/-- The turn that the package takes when its schedule names none: the manual fixes no order among its agents.
DESIGN CHOICE (log 1). -/
opaque arbiter : Nat → Sys2Proof.Machine.Turn

end Sys2Proof.Config

namespace Sys2Proof.Machine

/-- The turn that comes next. DESIGN CHOICE (log 1). -/
def State.turn (s : State) : Turn := s.schedule.headD (Config.arbiter s.tick)

/-- The state in which that turn is taken. DESIGN CHOICE (log 1, 61). DEDUCED (log 77). -/
def State.begin (s : State) : State := { s.settleAreas with schedule := s.schedule.drop 1, tick := s.tick + 1 }

/-- One step of the package. DESIGN CHOICE (log 1). -/
def step (s : State) : Host.Outcome State Fault Refusal :=
  let r := s.begin.selects s.turn
  match r.2 with
  | some i => exec i r.1
  | none => .next r.1

/-- `s` with an instruction or command placed so that the very next step runs it. DESIGN CHOICE (log 8). -/
def State.withFetchWord (s : State) (nbits w : Nat) : State := s.placeWord nbits w

end Sys2Proof.Machine
end

