-- ==== Sys2Proof/Safety.lean ====
section
/-!
DEFINITION. The terms in which claims are stated: what a sound package is, when an instruction is ready to execute, what it
changes and what it leaves alone.
-/
namespace Sys2Proof.Machine

/-! ## A sound package -/

/-- Every valid sector caches an LPDDR6 address of its own index (23 R320, R321). -/
def State.tierOk (s : State) : Prop :=
  ∀ i x, (i, x) ∈ s.sectors → x.valid = true → x.saddr % s.sectorCount = i ∧ x.saddr < 2 ^ 30

/-- Bring-up is at a step of 25 R356, and the carve-out code is one of its four. -/
def BootState.ok (b : BootState) : Prop := 1 ≤ b.step ∧ b.step ≤ 6 ∧ b.c ≤ 3

/-- The power cap lies in the range of 25 R353. -/
def PowerState.ok (p : PowerState) : Prop := 1500 ≤ p.cap ∧ p.cap ≤ 2800

/-! ## Memory as software sees it -/

/-- Software can reach the byte. -/
def State.isMem (s : State) (p : Nat) : Prop := s.backing p ≠ .none ∨ 2 ^ 52 ≤ p

/-- Every clean sector of the sector cache holds what the LPDDR6 device holds (23 R321, R322). -/
def State.copiesAgree (s : State) : Prop :=
  s.sectorCount ≠ 0 → ∀ i, (s.sector i).valid = true → (s.sector i).dirty = false → ∀ o, o < 2048 →
    s.byte (s.sectorBase i + o) = s.byte (lpKey ((s.sector i).saddr * 2048) + o)

/-- The invariant of the package. -/
structure State.Sound (s : State) : Prop where
  mem : Memory.wf s.mem = true
  tier : s.tierOk
  copies : s.copiesAgree
  boot : s.boot.ok
  power : s.power.ok

/-- Every byte of memory outside `W` reads as before. -/
def MemKept (s t : State) (W : Nat → Prop) : Prop := ∀ p, s.isMem p → ¬ W p → t.memByte p = s.memByte p

/-- No byte at all. -/
def nowhere : Nat → Prop := fun _ => False

/-- The bytes of memory, lowest first, of an access of `n` bytes to a place. -/
def LaneAt.keys (x : LaneAt) (n : Nat) : List Nat :=
  match x with
  | .cells ks _ => ks
  | .phys pa _ => (List.range n).map (pa + ·)
  | _ => []

/-- The bytes of memory at a list of keys. -/
def State.memBytes (s : State) (ks : List Nat) : List Byte := ks.map s.memByte

/-- The bytes of a place as the issuing group reads them: each 4-byte granule of a global access holds what memory holds, or a value
that a write through another address replaced or wrote (07 R100). -/
def State.seenBytes (s : State) (x : LaneAt) (n : Nat) : List Byte :=
  match x with
  | .phys pa r => s.viewed (s.groupView s.focus) r.lo pa n (s.memBytes (x.keys n))
  | _ => s.memBytes (x.keys n)

/-- The bytes of memory that some lane's place covers. -/
def covered (ps : List (Nat × LaneAt)) (n : Nat) : Nat → Prop := fun p => ∃ e ∈ ps, p ∈ e.2.keys n

/-! ## When an instruction executes -/

/-- The issuing group as an instruction sees it: the lookahead windows that have passed are closed (09 R120). -/
def State.seen (s : State) : Group := s.me.age

/-- The active lanes of an instruction with guard `gd`: the threads of the current subset whose guard is true (09 R111). -/
def State.act (s : State) (gd : Guard) : List Nat := s.seen.active gd

/-- An instruction with these register operands executes: its group can issue (01 R20, R24; 21 R299, R312), and the
registers lie in the group's allocation (01 R30). -/
structure State.Ready (s : State) (ops : List Opd) : Prop where
  issue : s.canIssue = true
  regs : ∀ o ∈ ops, s.me.has o = true

/-- The same for an instruction of certain roles (01 R24). -/
structure State.ReadyAs (s : State) (role : Role → Bool) (ops : List Opd) : Prop where
  ready : s.Ready ops
  role : role s.me.role = true

/-! ## What an instruction changes -/

/-- Only the issuing group changes: no other group, no memory, no other state of the package. -/
def OnlyGroup (s t : State) : Prop := t = { s with groups := t.groups } ∧ ∀ k, k ≠ s.focus → t.grp k = s.grp k

/-- Only the issuing group and what serves memory reads change: the sector cache and its counters. -/
def OnlyRead (s t : State) : Prop :=
  t = { s with groups := t.groups, mem := t.mem, bad := t.bad, sectors := t.sectors, counters := t.counters }
    ∧ ∀ k, k ≠ s.focus → t.grp k = s.grp k

/-- The same for an access that writes memory, of which the history takes note (07 R100 to R108). -/
def OnlyWrite (s t : State) : Prop :=
  t = { s with groups := t.groups, mem := t.mem, bad := t.bad, sectors := t.sectors, counters := t.counters, past := t.past }
    ∧ ∀ k, k ≠ s.focus → t.grp k = s.grp k

/-- Only registers, `FLAGS`, the threads of a group and its outstanding results change. -/
def GroupRest (g h : Group) : Prop :=
  h = { g with threads := h.threads, cur := h.cur, v := h.v, dead := h.dead, s := h.s, flags := h.flags, pending := h.pending }

/-- The threads of `g` leave an instruction with the given `PC`, `MEET` and exits, and 01 R20 to R22 then decide which of them are
held and which subset is current: `h` has those threads. `new` lists the results that are outstanding then, of which those of a
thread that becomes held are due at once (09 R120). `rot` holds after `YIELD` and a completed blocking instruction. -/
def Reaches (g h : Group) (new : List Pending) (rot : Bool) (pc meet : Nat → Word) (exited : Nat → Bool) : Prop :=
  ∃ m : Group, m.cur = g.cur ∧ m.pending = new ∧ h.threads = (m.finish g.subset rot).threads
    ∧ h.cur = (m.finish g.subset rot).cur ∧ h.pending = (m.finish g.subset rot).pending
    ∧ ∀ l, l < 32 → (m.thr l).pc = pc l ∧ (m.thr l).meet = meet l ∧ (m.thr l).exited = exited l
      ∧ (m.thr l).held = (g.thr l).held

/-- `PC`s when the current subset goes on to the next instruction and no other thread moves. -/
def nextPc (g : Group) (l : Nat) : Word := if g.inSubset l then (g.thr l).pc + 8 else (g.thr l).pc

/-- Every thread of the current subset goes on to the next instruction, and no other thread moves; `MEET` and exits stay, and
01 R20 to R22 decide which threads are held and which subset is current. `new` lists the outstanding results (09 R120). -/
structure WentOn (g h : Group) (new : List Pending := g.pending) : Prop where
  pc : ∀ l, l < 32 → (h.thr l).pc = nextPc g l
  meet : ∀ l, l < 32 → (h.thr l).meet = (g.thr l).meet
  exited : ∀ l, l < 32 → (h.thr l).exited = (g.thr l).exited
  after : Reaches g h new false (nextPc g) (fun l => (g.thr l).meet) fun l => (g.thr l).exited

/-- No predicate changes. -/
def PredsKept (g h : Group) : Prop := ∀ l, l < 32 → (h.thr l).preds = (g.thr l).preds

/-- The lane is one in which a source with the last-use bit dies (09 R114). -/
def dies (srcs : List Src) (act : List Nat) (r : Fin 320) (l : Nat) : Bool :=
  act.contains l && srcs.any fun a => a.last && a.r == .v r

/-- Every register after an instruction: `new` names what it writes; a source that dies reads as poison; every other
register, in every lane, reads as before (09 R112 to R114). -/
structure RegsBy (g h : Group) (new : Opd → Nat → Option Word) (srcs : List Src) (act : List Nat) : Prop where
  v : ∀ (r : Fin 320) (l : Nat), l < 32 →
    h.vread r l = (new (.v r) l).getD (if dies srcs act r l then poison else g.vread r l)
  s : ∀ n : Fin 64, h.sread n = (new (.s n) (act.headD 0)).getD (g.sread n)

/-- One destination: the active lanes of a vector register, the lowest active lane's result for a scalar register (09 R113);
nothing for the zero register (R112). -/
def one (d : Opd) (act : List Nat) (res : Nat → Word) : Opd → Nat → Option Word :=
  fun o l => if o = d ∧ l ∈ act then some (res l) else none

/-- Nothing is written. -/
def noReg : Opd → Nat → Option Word := fun _ _ => none

/-- `t` is `s` after an instruction that writes registers as `new` says, ORs `fl` into `FLAGS`, changes the group otherwise as
`b` says of the group it saw, and does nothing else but go on to the next instruction. -/
structure RegEffect (s t : State) (b : Group) (new : Opd → Nat → Option Word) (srcs : List Src) (act : List Nat)
    (fl : BitVec 32) : Prop where
  only : OnlyGroup s t
  rest : GroupRest b t.me
  went : WentOn s.seen t.me b.pending
  preds : PredsKept s.seen t.me
  regs : RegsBy s.seen t.me new srcs act
  flags : t.me.flags = s.seen.flags ||| fl

/-- The instruction completes with result `res l` in each active lane `l`, and that is its whole effect. -/
def RegStep (i : Instr) (s : State) (gd : Guard) (d : Opd) (srcs : List Src) (res : Nat → Word) (fl : BitVec 32) : Prop :=
  ∃ t, exec i s = .next t ∧ RegEffect s t s.seen (one d (s.act gd) res) srcs (s.act gd) fl

/-- The OR of some flags. -/
def orAll (n : Nat) (f : Nat → BitVec 32) : BitVec 32 := (List.range n).foldl (fun m k => m ||| f k) 0

/-- The instruction completes; sub-element `k`, of `w` bits, of its result in each active lane `l` is `f l k` with the flags
that go with it, and that is its whole effect. -/
def ElemStep (i : Instr) (s : State) (gd : Guard) (d : Opd) (srcs : List Src) (w : Nat) (f : Nat → Nat → Nat × BitVec 32) : Prop :=
  ∃ res : Nat → Word,
    RegStep i s gd d srcs res (gather (s.act gd) fun l => orAll (64 / w) fun k => (f l k).2)
      ∧ ∀ l ∈ s.act gd, ∀ k, k < 64 / w → elem (res l) k w = (f l k).1 % 2 ^ w

/-- The same for an instruction that sets no flag. -/
def ElemStep0 (i : Instr) (s : State) (gd : Guard) (d : Opd) (srcs : List Src) (w : Nat) (f : Nat → Nat → Nat) : Prop :=
  ElemStep i s gd d srcs w fun l k => (f l k, 0)

/-- The predicates of lane `l` after an instruction: `new` names what it writes. `p7` reads as true (09 R111, R117). -/
def PredsBy (g h : Group) (new : Nat → Fin 8 → Option Bool) : Prop :=
  ∀ l, l < 32 → ∀ q : Fin 8, q ≠ 7 → (h.thr l).pred q = (new l q).getD ((g.thr l).pred q)

end Sys2Proof.Machine
end

