-- ==== Sys2Proof/Certificates/Slice0/Obligations.lean ====
section
/-!
DEFINITION. The statements for the provers. Each says, from the rules of spec/, what an instruction or an event of the package
does, what it leaves alone, or what every step keeps.
-/
namespace Sys2Proof.Claims
open Sys2Proof.Machine

/-! ## Integer operands and results (11 R146) -/

/-- Sub-element `k` of a source in lane `l`. -/
def src (s : State) (a : Src) (w l k : Nat) : Nat := elem (s.seen.rd a.r l) k w

/-- imm22 as every sub-element takes it: the low w bits of its sign extension (09 R118, 11 R145). -/
def immBits (imm : BitVec 22) (w : Nat) : Nat := elem (imm.signExtend 64) 0 w

/-- A pattern as the entry takes it: signed, or unsigned with `.u`. -/
def taken (m : IntMod) (x : Nat) : Int := if m.u then (x : Int) else signed m.w.bits x

/-- How the exact result r is written, and `saturated`. -/
def written (m : IntMod) (r : Int) : Nat × BitVec 32 :=
  let w := m.w.bits
  let lo : Int := if m.u then 0 else -2 ^ (w - 1)
  let hi : Int := if m.u then 2 ^ w - 1 else 2 ^ (w - 1) - 1
  if m.sat then (unsigned w (max lo (min hi r)), if r < lo ∨ hi < r then FLAG.saturated else 0) else (unsigned w r, 0)

/-- A one-source entry of R146 with exact result `f`. -/
def IntStep1 (i : Instr) (s : State) (g : Guard) (m : IntMod) (d : Opd) (a : Src) (f : Int → Int) : Prop :=
  ElemStep i s g d [a] m.w.bits fun l k => written m (f (taken m (src s a m.w.bits l k)))

/-- A two-source entry. -/
def IntStep2 (i : Instr) (s : State) (g : Guard) (m : IntMod) (d : Opd) (a b : Src) (f : Int → Int → Int) : Prop :=
  ElemStep i s g d [a, b] m.w.bits fun l k => written m (f (taken m (src s a m.w.bits l k)) (taken m (src s b m.w.bits l k)))

/-- A three-source entry. -/
def IntStep3 (i : Instr) (s : State) (g : Guard) (m : IntMod) (d : Opd) (a b c : Src) (f : Int → Int → Int → Int) : Prop :=
  ElemStep i s g d [a, b, c] m.w.bits fun l k =>
    written m (f (taken m (src s a m.w.bits l k)) (taken m (src s b m.w.bits l k)) (taken m (src s c m.w.bits l k)))

/-- The class B form: the immediate in the place of b. -/
def IntStepImm (i : Instr) (s : State) (g : Guard) (m : IntMod) (d : Opd) (a : Src) (imm : BitVec 22) (f : Int → Int → Int) :
    Prop :=
  ElemStep i s g d [a] m.w.bits fun l k => written m (f (taken m (src s a m.w.bits l k)) (taken m (immBits imm m.w.bits)))

/-- A word of a class and an opcode (09 R110: bit 63 and the class, then the opcode) that decodes to `i`. -/
def Read (cls : BitVec 4) (op : BitVec 8) (x : Word) (i : Instr) : Prop :=
  x.extractLsb' 60 4 = cls ∧ x.extractLsb' 52 8 = op ∧ decodeWord x = .ok i

/-- The integer modifiers of a word (09 R116). -/
def intMods (x : Word) : IntMod := { w := IWidth.ofBits (x.extractLsb' 4 2), u := x.getLsbD 3, sat := x.getLsbD 2 }

/-- The width modifier of a word (09 R116). -/
def widthOf (x : Word) : IWidth := IWidth.ofBits (x.extractLsb' 4 2)

/-- Fields b and c of a class A word (09 R115), and the immediate of a class B word (R118). -/
def fieldB (x : Word) : BitVec 9 := x.extractLsb' 21 9
def fieldC (x : Word) : BitVec 9 := x.extractLsb' 12 9
def immField (x : Word) : BitVec 22 := x.extractLsb' 6 22

end Sys2Proof.Claims

open Sys2Proof Sys2Proof.Machine Sys2Proof.Claims

/-! ## Vector instructions: integers (11 R146 to R153) -/

/-- 11 R146: `IADD`, `ISUB`, `IMUL`, `IMULHI`, `IMAD`, `IMIN`, `IMAX`, `IABS` in every form: they complete, every sub-element of
the destination in the active lanes is the exact result, wrapped or clamped, `saturated` is set when the clamp changes it,
and nothing else changes. A word of one of their opcodes decodes to it with its modifier bits, and to nothing when a bit that must
be 0 is set or a field that it does not use does not hold 511.
Where the manual is open it follows the model: log 9. -/
def Obligations.IntegerArithmetic : Prop :=
  ∀ (s : State) (g : Guard) (m : IntMod) (w : IWidth) (u sat : Bool) (d : Opd) (a b c : Src) (imm : BitVec 22),
    (s.Ready [d, a.r, b.r] →
      IntStep2 (.iadd g m d a b) s g m d a b (fun x y => x + y)
        ∧ IntStep2 (.isub g m d a b) s g m d a b (fun x y => x - y)
        ∧ IntStep2 (.imul g m d a b) s g m d a b (fun x y => x * y)
        ∧ IntStep2 (.imulhi g w u d a b) s g ⟨w, u, false⟩ d a b (fun x y => x * y / 2 ^ w.bits)
        ∧ IntStep2 (.imin g w u d a b) s g ⟨w, u, false⟩ d a b min
        ∧ IntStep2 (.imax g w u d a b) s g ⟨w, u, false⟩ d a b max)
      ∧ (s.Ready [d, a.r, b.r, c.r] → IntStep3 (.imad g m d a b c) s g m d a b c (fun x y z => x * y + z))
      ∧ (s.Ready [d, a.r] →
        IntStep1 (.iabs g w sat d a) s g ⟨w, false, sat⟩ d a (fun x => (x.natAbs : Int))
          ∧ IntStepImm (.iaddImm g m d a imm) s g m d a imm (fun x y => x + y)
          ∧ IntStepImm (.isubImm g m d a imm) s g m d a imm (fun x y => x - y)
          ∧ IntStepImm (.imulImm g m d a imm) s g m d a imm (fun x y => x * y)
          ∧ IntStepImm (.iminImm g w u d a imm) s g ⟨w, u, false⟩ d a imm min
          ∧ IntStepImm (.imaxImm g w u d a imm) s g ⟨w, u, false⟩ d a imm max)
      ∧ ∀ (x : Word) (i : Instr),
        (Read 0 0x00 x i → x.extractLsb' 0 2 = 0 ∧ fieldC x = 511 ∧ ∃ g d a b, i = .iadd g (intMods x) d a b)
        ∧ (Read 0 0x01 x i → x.extractLsb' 0 2 = 0 ∧ fieldC x = 511 ∧ ∃ g d a b, i = .isub g (intMods x) d a b)
        ∧ (Read 0 0x03 x i → x.extractLsb' 0 2 = 0 ∧ fieldC x = 511 ∧ ∃ g d a b, i = .imul g (intMods x) d a b)
        ∧ (Read 0 0x04 x i → x.extractLsb' 0 3 = 0 ∧ fieldC x = 511 ∧ ∃ g d a b, i = .imulhi g (widthOf x) (x.getLsbD 3) d a b)
        ∧ (Read 0 0x05 x i → x.extractLsb' 0 2 = 0 ∧ ∃ g d a b c, i = .imad g (intMods x) d a b c)
        ∧ (Read 0 0x06 x i → x.extractLsb' 0 3 = 0 ∧ fieldC x = 511 ∧ ∃ g d a b, i = .imin g (widthOf x) (x.getLsbD 3) d a b)
        ∧ (Read 0 0x07 x i → x.extractLsb' 0 3 = 0 ∧ fieldC x = 511 ∧ ∃ g d a b, i = .imax g (widthOf x) (x.getLsbD 3) d a b)
        ∧ (Read 0 0x08 x i → x.extractLsb' 0 2 = 0 ∧ x.getLsbD 3 = false ∧ fieldB x = 511 ∧ fieldC x = 511
          ∧ ∃ g d a, i = .iabs g (widthOf x) (x.getLsbD 2) d a)
        ∧ (Read 1 0x00 x i → x.extractLsb' 0 2 = 0 ∧ ∃ g d a, i = .iaddImm g (intMods x) d a (immField x))
        ∧ (Read 1 0x01 x i → x.extractLsb' 0 2 = 0 ∧ ∃ g d a, i = .isubImm g (intMods x) d a (immField x))
        ∧ (Read 1 0x03 x i → x.extractLsb' 0 2 = 0 ∧ ∃ g d a, i = .imulImm g (intMods x) d a (immField x))
        ∧ (Read 1 0x06 x i → x.extractLsb' 0 3 = 0 ∧ ∃ g d a, i = .iminImm g (widthOf x) (x.getLsbD 3) d a (immField x))
        ∧ (Read 1 0x07 x i → x.extractLsb' 0 3 = 0 ∧ ∃ g d a, i = .imaxImm g (widthOf x) (x.getLsbD 3) d a (immField x))
        ∧ ¬ Read 1 0x04 x i ∧ ¬ Read 1 0x05 x i ∧ ¬ Read 1 0x08 x i

/-- 11 R147: `IADDC` and `IADDC.co`: the sum with bit 0 of c, or its carry, in every sub-element; no flag is set and nothing else
changes. A word of opcode 0x02 decodes to it with the width of [5:4] and `.co` of [1], and only with [3:2] and [0] at 0.
Where the manual is open it follows the model: log 9. -/
def Obligations.AddWithCarry : Prop :=
  (∀ (s : State) (g : Guard) (w : IWidth) (co : Bool) (d : Opd) (a b c : Src), s.Ready [d, a.r, b.r, c.r] →
    ElemStep0 (.iaddc g w co d a b c) s g d [a, b, c] w.bits fun l k =>
      let sum := src s a w.bits l k + src s b w.bits l k + (if (src s c w.bits l k).testBit 0 then 1 else 0)
      if co then sum / 2 ^ w.bits else sum % 2 ^ w.bits)
    ∧ ∀ (x : Word) (i : Instr), Read 0 0x02 x i → x.extractLsb' 2 2 = 0 ∧ x.getLsbD 0 = false
      ∧ ∃ g d a b c, i = .iaddc g (widthOf x) (x.getLsbD 1) d a b c

/-- 11 R148: `SHL`, `SHR`, `SHRA`, `ROTL` for every amount n, from a register or from imm22[5:0];
no flag is set and nothing else changes. A word of one of their opcodes decodes to it with its width, and only with modifier bits
[3:0], and imm22[21:6] in class B, at 0.
Where the manual is open it follows the model: log 9. -/
def Obligations.Shifts : Prop :=
  ∀ (s : State) (g : Guard) (w : IWidth) (d : Opd) (a b : Src) (n : BitVec 6),
    (s.Ready [d, a.r, b.r] →
      (ElemStep0 (.shl g w d a b) s g d [a, b] w.bits fun l k =>
          if src s b w.bits l k < w.bits then src s a w.bits l k * 2 ^ src s b w.bits l k else 0)
        ∧ (ElemStep0 (.shr g w d a b) s g d [a, b] w.bits fun l k =>
          if src s b w.bits l k < w.bits then src s a w.bits l k / 2 ^ src s b w.bits l k else 0)
        ∧ (ElemStep0 (.shra g w d a b) s g d [a, b] w.bits fun l k =>
          if src s b w.bits l k < w.bits then unsigned w.bits (signed w.bits (src s a w.bits l k) / 2 ^ src s b w.bits l k)
          else if 0 ≤ signed w.bits (src s a w.bits l k) then 0 else 2 ^ w.bits - 1)
        ∧ (ElemStep0 (.rotl g w d a b) s g d [a, b] w.bits fun l k =>
          let t := src s a w.bits l k * 2 ^ (src s b w.bits l k % w.bits)
          t % 2 ^ w.bits + t / 2 ^ w.bits))
      ∧ (s.Ready [d, a.r] →
        (ElemStep0 (.shlImm g w d a n) s g d [a] w.bits fun l k =>
            if n.toNat < w.bits then src s a w.bits l k * 2 ^ n.toNat else 0)
          ∧ (ElemStep0 (.shrImm g w d a n) s g d [a] w.bits fun l k =>
            if n.toNat < w.bits then src s a w.bits l k / 2 ^ n.toNat else 0)
          ∧ (ElemStep0 (.shraImm g w d a n) s g d [a] w.bits fun l k =>
            if n.toNat < w.bits then unsigned w.bits (signed w.bits (src s a w.bits l k) / 2 ^ n.toNat)
            else if 0 ≤ signed w.bits (src s a w.bits l k) then 0 else 2 ^ w.bits - 1)
          ∧ (ElemStep0 (.rotlImm g w d a n) s g d [a] w.bits fun l k =>
            let t := src s a w.bits l k * 2 ^ (n.toNat % w.bits)
            t % 2 ^ w.bits + t / 2 ^ w.bits))
      ∧ ∀ (x : Word) (i : Instr),
        (Read 0 0x09 x i → x.extractLsb' 0 4 = 0 ∧ fieldC x = 511 ∧ ∃ g d a b, i = .shl g (widthOf x) d a b)
        ∧ (Read 0 0x0A x i → x.extractLsb' 0 4 = 0 ∧ fieldC x = 511 ∧ ∃ g d a b, i = .shr g (widthOf x) d a b)
        ∧ (Read 0 0x0B x i → x.extractLsb' 0 4 = 0 ∧ fieldC x = 511 ∧ ∃ g d a b, i = .shra g (widthOf x) d a b)
        ∧ (Read 0 0x0C x i → x.extractLsb' 0 4 = 0 ∧ fieldC x = 511 ∧ ∃ g d a b, i = .rotl g (widthOf x) d a b)
        ∧ (Read 1 0x09 x i → x.extractLsb' 0 4 = 0 ∧ (immField x).toNat < 64
          ∧ ∃ g d a, i = .shlImm g (widthOf x) d a ((immField x).setWidth 6))
        ∧ (Read 1 0x0A x i → x.extractLsb' 0 4 = 0 ∧ (immField x).toNat < 64
          ∧ ∃ g d a, i = .shrImm g (widthOf x) d a ((immField x).setWidth 6))
        ∧ (Read 1 0x0B x i → x.extractLsb' 0 4 = 0 ∧ (immField x).toNat < 64
          ∧ ∃ g d a, i = .shraImm g (widthOf x) d a ((immField x).setWidth 6))
        ∧ (Read 1 0x0C x i → x.extractLsb' 0 4 = 0 ∧ (immField x).toNat < 64
          ∧ ∃ g d a, i = .rotlImm g (widthOf x) d a ((immField x).setWidth 6))

namespace Sys2Proof.Claims

/-- The effective length of R149. -/
def fieldLength (w pos len : Nat) : Nat := if w ≤ pos then 0 else min len (w - pos)

/-- Bit `j` of what `BFX` extracts from `x`. -/
def extractedBit (u : Bool) (pos len w x j : Nat) : Bool :=
  let n := fieldLength w pos len
  if n = 0 then false
  else if j < n then x.testBit (pos + j)
  else !u && decide (j < w) && x.testBit (pos + n - 1)

/-- Bit `j` of what `BFI` makes of `y` with the field taken from `x`. -/
def insertedBit (pos len w x y j : Nat) : Bool :=
  let n := fieldLength w pos len
  if pos ≤ j ∧ j < pos + n then x.testBit (j - pos) else y.testBit j

/-- The instruction completes without a flag, and bit `j` of sub-element `k` of its result in each active lane is `f l k j`. -/
def BitStep (i : Instr) (s : State) (g : Guard) (d : Opd) (srcs : List Src) (w : Nat) (f : Nat → Nat → Nat → Bool) : Prop :=
  ∃ res : Nat → Word, RegStep i s g d srcs res 0
    ∧ ∀ l ∈ s.act g, ∀ k, k < 64 / w → ∀ j, j < w → (elem (res l) k w).testBit j = f l k j

end Sys2Proof.Claims

/-- 11 R149, R150: bit fields and `BREV` bit by bit, `POPC` and `CLZ` by their counts. -/
def Sys2Proof.Claims.BitFieldsAndCounts : Prop :=
  ∀ (s : State) (g : Guard) (w : IWidth) (u : Bool) (d : Opd) (a b c : Src) (pos : BitVec 6) (len : Fin 65),
    (s.Ready [d, a.r, b.r] → BitStep (.bfx g w u d a b) s g d [a, b] w.bits fun l k j =>
        extractedBit u ((s.seen.rd b.r l).toNat % 64) ((s.seen.rd b.r l).toNat / 64 % 128) w.bits (src s a w.bits l k) j)
      ∧ (s.Ready [d, a.r, b.r, c.r] → BitStep (.bfi g w d a b c) s g d [a, b, c] w.bits fun l k j =>
        insertedBit ((s.seen.rd b.r l).toNat % 64) ((s.seen.rd b.r l).toNat / 64 % 128) w.bits (src s a w.bits l k)
          (src s c w.bits l k) j)
      ∧ (s.Ready [d, a.r] →
        (BitStep (.bfxImm g w u d a pos len) s g d [a] w.bits fun l k j =>
            extractedBit u pos.toNat len.val w.bits (src s a w.bits l k) j)
          ∧ (BitStep (.brev g w d a) s g d [a] w.bits fun l k j => (src s a w.bits l k).testBit (w.bits - 1 - j))
          ∧ (ElemStep0 (.popc g w d a) s g d [a] w.bits fun l k => (List.range w.bits).countP (src s a w.bits l k).testBit)
          ∧ (ElemStep0 (.clz g w d a) s g d [a] w.bits fun l k =>
              ((List.range w.bits).takeWhile fun j => !(src s a w.bits l k).testBit (w.bits - 1 - j)).length))

namespace Sys2Proof.Claims

/-- An instruction on whole lanes that sets no flag. -/
def LaneStep (i : Instr) (s : State) (g : Guard) (d : Opd) (srcs : List Src) (res : Nat → Word) : Prop :=
  RegStep i s g d srcs res 0

/-- The index of `LEA` by its form (11 R153). -/
def leaIndex (f : LeaForm) (x : Word) : Word :=
  match f with
  | .x64 => x
  | .x32 => (x.setWidth 32).signExtend 64
  | .x32u => (x.setWidth 32).setWidth 64

/-- What `MOVI` writes over the old lane (09 R124). -/
def immMoved (mode : MoviMode) (imm : BitVec 32) (old : Word) : Word :=
  match mode with
  | .sx => imm.signExtend 64
  | .lo => old.extractLsb' 32 32 ++ imm
  | .hi => imm ++ old.extractLsb' 0 32
  | .dup => imm ++ imm

end Sys2Proof.Claims

/-- 11 R151 to R153, 09 R124: logic, `MOV`, `SEL`, `LEA` and `MOVI` on whole lanes. -/
def Sys2Proof.Claims.LogicMovesAndAddresses : Prop :=
  ∀ (s : State) (g : Guard) (d : Opd) (a b : Src) (imm : BitVec 22) (neg : Bool) (q : Fin 8) (f : LeaForm) (sh : Fin 8)
    (mode : MoviMode) (x : BitVec 32),
    (s.Ready [d, a.r, b.r] →
      (LaneStep (.and g d a b) s g d [a, b] fun l => s.seen.rd a.r l &&& s.seen.rd b.r l)
        ∧ (LaneStep (.or g d a b) s g d [a, b] fun l => s.seen.rd a.r l ||| s.seen.rd b.r l)
        ∧ (LaneStep (.xor g d a b) s g d [a, b] fun l => s.seen.rd a.r l ^^^ s.seen.rd b.r l)
        ∧ (LaneStep (.andn g d a b) s g d [a, b] fun l => s.seen.rd a.r l &&& ~~~(s.seen.rd b.r l))
        ∧ (LaneStep (.sel g neg q d a b) s g d [a, b] fun l =>
            if (s.seen.thr l).pred q ^^ neg then s.seen.rd a.r l else s.seen.rd b.r l)
        ∧ (LaneStep (.lea g f sh d a b) s g d [a, b] fun l =>
            s.seen.rd a.r l + leaIndex f (s.seen.rd b.r l) * BitVec.ofNat 64 (2 ^ sh.val)))
      ∧ (s.Ready [d, a.r] →
        (LaneStep (.andImm g d a imm) s g d [a] fun l => s.seen.rd a.r l &&& imm.signExtend 64)
          ∧ (LaneStep (.orImm g d a imm) s g d [a] fun l => s.seen.rd a.r l ||| imm.signExtend 64)
          ∧ (LaneStep (.xorImm g d a imm) s g d [a] fun l => s.seen.rd a.r l ^^^ imm.signExtend 64)
          ∧ (LaneStep (.andnImm g d a imm) s g d [a] fun l => s.seen.rd a.r l &&& ~~~(imm.signExtend 64))
          ∧ (LaneStep (.mov g d a) s g d [a] fun l => s.seen.rd a.r l)
          ∧ (LaneStep (.leaImm g f sh d a imm) s g d [a] fun l =>
              s.seen.rd a.r l + leaIndex f (imm.signExtend 64) * BitVec.ofNat 64 (2 ^ sh.val)))
      ∧ (s.Ready [d] → LaneStep (.movi g mode d x) s g d [] fun l => immMoved mode x (s.seen.rd d l))

/-- 11 R149 to R153, 09 R124: bit fields, counts, logic, moves and `LEA`.
Where the manual is open it follows the model: log 9. -/
def Obligations.BitFieldsLogicAndMoves : Prop := BitFieldsAndCounts ∧ LogicMovesAndAddresses

/-! ## Vector instructions: compares and predicates (09 R117, 11 R154 to R157) -/

namespace Sys2Proof.Claims

/-- A signed or unsigned relation of R154. -/
def related (c : ICond) (x y : Int) : Bool :=
  match c with
  | .eq => decide (x = y)
  | .ne => decide (x ≠ y)
  | .lt => decide (x < y)
  | .le => decide (x ≤ y)
  | .gt => decide (x > y)
  | .ge => decide (x ≥ y)

/-- A relation of R155 on values, −0 equal to +0. -/
def relatedF (c : FCond) (x y : Val) : Bool :=
  let n := x.isNan || y.isNan
  match c with
  | .eq => !n && x.eq y
  | .ne => n || !x.eq y
  | .lt => !n && x.lt y
  | .le => !n && (x.lt y || x.eq y)
  | .gt => !n && y.lt x
  | .ge => !n && (y.lt x || x.eq y)
  | .nan => n
  | .num => !n

/-- `.lt`, `.le`, `.gt`, `.ge` on a NaN set `invalid`. -/
def relatedFlag (c : FCond) (x y : Val) : BitVec 32 :=
  match c with
  | .lt | .le | .gt | .ge => if x.isNan || y.isNan then FLAG.invalid else 0
  | _ => 0

/-- The n1 column of R117. -/
def combined (ty : Combine) (old c : Bool) : Bool :=
  match ty with
  | .set | .fill => c
  | .conj => old && c
  | .disj => old || c
  | .flip => old ^^ c

/-- What a compare with test `c` writes: pd1 := n1 and pd2 := ¬n1 in the active lanes, and with `.fill` also, with a false test,
in the other lanes of the current subset. -/
def comparePreds (s : State) (act : List Nat) (pd : PredDst) (c : Nat → Bool) : Nat → Fin 8 → Option Bool := fun l q =>
  if l ∈ act ∨ (pd.ty = .fill ∧ s.seen.inSubset l = true) then
    let n1 := combined pd.ty ((s.seen.thr l).pred pd.pd1) (decide (l ∈ act) && c l)
    if q = pd.pd2 then some (!n1) else if q = pd.pd1 then some n1 else none
  else none

/-- An instruction that completes with predicates written as `new` says, and does nothing else: no register changes but sources
that die. -/
def PredStep (i : Instr) (s : State) (g : Guard) (srcs : List Src) (new : Nat → Fin 8 → Option Bool) (fl : BitVec 32) : Prop :=
  ∃ t, exec i s = .next t ∧ OnlyGroup s t ∧ GroupRest s.seen t.me ∧ WentOn s.seen t.me
    ∧ RegsBy s.seen t.me noReg srcs (s.act g) ∧ PredsBy s.seen t.me new ∧ t.me.flags = s.seen.flags ||| fl

/-- Every sub-element satisfies the relation. -/
def everyElem (w : Nat) (f : Nat → Bool) : Bool := (List.range (64 / w)).all f

/-- The float immediate as every sub-element takes it (09 R118). -/
def floatImm (t : FType) (imm : BitVec 22) : Nat :=
  match t with
  | .f32x2 => imm.toNat * 1024
  | _ => imm.toNat % 65536

/-- Sub-element `k` of a source as a value. -/
def srcVal (s : State) (a : Src) (t : FType) (l k : Nat) : Val := value t.fmt (src s a t.fmt.width l k)

end Sys2Proof.Claims

/-- 09 R117, 11 R154, R155: `ICMP` and `FCMP` with a register or an immediate, every combining type. -/
def Sys2Proof.Claims.Compares : Prop :=
  ∀ (s : State) (g : Guard) (w : IWidth) (u : Bool) (c : ICond) (t : FType) (fc : FCond) (pd : PredDst) (a b : Src)
    (imm : BitVec 22),
    (s.Ready [a.r, b.r] →
      (PredStep (.icmp g w u c pd a b) s g [a, b]
          (comparePreds s (s.act g) pd fun l => everyElem w.bits fun k =>
            related c (taken ⟨w, u, false⟩ (src s a w.bits l k)) (taken ⟨w, u, false⟩ (src s b w.bits l k))) 0)
        ∧ (PredStep (.fcmp g t fc pd a b) s g [a, b]
          (comparePreds s (s.act g) pd fun l => everyElem t.fmt.width fun k => relatedF fc (srcVal s a t l k) (srcVal s b t l k))
          (gather (s.act g) fun l => orAll (64 / t.fmt.width) fun k => relatedFlag fc (srcVal s a t l k) (srcVal s b t l k))))
      ∧ (s.Ready [a.r] →
        (PredStep (.icmpImm g w u c pd a imm) s g [a]
            (comparePreds s (s.act g) pd fun l => everyElem w.bits fun k =>
              related c (taken ⟨w, u, false⟩ (src s a w.bits l k)) (taken ⟨w, u, false⟩ (immBits imm w.bits))) 0)
          ∧ (PredStep (.fcmpImm g t fc pd a imm) s g [a]
            (comparePreds s (s.act g) pd fun l => everyElem t.fmt.width fun k =>
              relatedF fc (srcVal s a t l k) (value t.fmt (floatImm t imm)))
            (gather (s.act g) fun l => orAll (64 / t.fmt.width) fun k =>
              relatedFlag fc (srcVal s a t l k) (value t.fmt (floatImm t imm)))))

/-- 11 R156, R157: `PSET` by its truth table, `PMOV` both ways. -/
def Sys2Proof.Claims.PredicateMoves : Prop :=
  ∀ (s : State) (g : Guard) (pd pa pb : Fin 8) (lut : BitVec 4) (d : Opd) (a : Src),
    (s.Ready [] → PredStep (.pset g pd pa pb lut) s g []
        (fun l q => if l ∈ s.act g ∧ q = pd then
          some (lut.getLsbD ((if (s.seen.thr l).pred pa then 2 else 0) + (if (s.seen.thr l).pred pb then 1 else 0))) else none) 0)
      ∧ (s.Ready [d] → RegStep (.pmov g (.tov d)) s g d [] (fun l => BitVec.ofNat 64 (128 + (s.seen.thr l).preds.toNat)) 0)
      ∧ (s.Ready [a.r] → PredStep (.pmov g (.top a)) s g [a]
        (fun l q => if l ∈ s.act g then some ((s.seen.rd a.r l).getLsbD q.val) else none) 0)

/-- 09 R117, 11 R154 to R157: compares, `PSET` and `PMOV`.
Where the manual is open it follows the model: log 9. -/
def Obligations.ComparesAndPredicates : Prop := Compares ∧ PredicateMoves

/-! ## Vector instructions: floating point (11 R158 to R162) -/

namespace Sys2Proof.Claims

/-- R158 and R159 for a sum. -/
def sumOf (m : FloatMod) (x y : Val) : Nat × BitVec 32 :=
  if x.isNan || y.isNan then (m.t.fmt.canon, 0)
  else if x.isInf && y.isInf && (x.isNeg != y.isNeg) then (m.t.fmt.canon, FLAG.invalid)
  else roundTo m.t.fmt (x.add y m.rm) m.rm m.sat

/-- R158 and R159 for a product. -/
def productOf (m : FloatMod) (x y : Val) : Nat × BitVec 32 :=
  if (x.isZero && y.isInf) || (x.isInf && y.isZero) then (m.t.fmt.canon, FLAG.invalid)
  else if x.isNan || y.isNan then (m.t.fmt.canon, 0)
  else roundTo m.t.fmt (x.mul y) m.rm m.sat

/-- R158 and R159 for a product and a sum, rounded once. -/
def fusedOf (m : FloatMod) (x y z : Val) : Nat × BitVec 32 :=
  if (x.isZero && y.isInf) || (x.isInf && y.isZero) then (m.t.fmt.canon, FLAG.invalid)
  else if x.isNan || y.isNan || z.isNan then (m.t.fmt.canon, 0)
  else if (x.mul y).isInf && z.isInf && ((x.mul y).isNeg != z.isNeg) then (m.t.fmt.canon, FLAG.invalid)
  else roundTo m.t.fmt ((x.mul y).add z m.rm) m.rm m.sat

/-- A float instruction of two sources. -/
def FloatStep2 (i : Instr) (s : State) (g : Guard) (t : FType) (d : Opd) (a b : Src) (f : Val → Val → Nat × BitVec 32) : Prop :=
  ElemStep i s g d [a, b] t.fmt.width fun l k => f (srcVal s a t l k) (srcVal s b t l k)

/-- Its class B form. -/
def FloatStepImm (i : Instr) (s : State) (g : Guard) (t : FType) (d : Opd) (a : Src) (imm : BitVec 22)
    (f : Val → Val → Nat × BitVec 32) : Prop :=
  ElemStep i s g d [a] t.fmt.width fun l k => f (srcVal s a t l k) (value t.fmt (floatImm t imm))

end Sys2Proof.Claims

/-- 11 R158, R159: `FADD`, `FSUB`, `FMUL`, `FFMA`, `FSCALE`: the exact value of the rule is rounded once, NaNs and infinities as
R159 says, in every sub-element of the active lanes.
Where the manual is open it follows the model: log 9. -/
def Obligations.FloatArithmetic : Prop :=
  ∀ (s : State) (g : Guard) (m : FloatMod) (d : Opd) (a b c : Src) (imm : BitVec 22),
    (s.Ready [d, a.r, b.r] →
      FloatStep2 (.fadd g m d a b) s g m.t d a b (sumOf m)
        ∧ FloatStep2 (.fsub g m d a b) s g m.t d a b (fun x y => sumOf m x y.neg)
        ∧ FloatStep2 (.fmul g m d a b) s g m.t d a b (productOf m)
        ∧ (ElemStep (.fscale g m d a b) s g d [a, b] m.t.fmt.width fun l k =>
            roundTo m.t.fmt ((srcVal s a m.t l k).scale (signed m.t.fmt.width (src s b m.t.fmt.width l k))) m.rm m.sat))
      ∧ (s.Ready [d, a.r, b.r, c.r] → ElemStep (.ffma g m d a b c) s g d [a, b, c] m.t.fmt.width fun l k =>
          fusedOf m (srcVal s a m.t l k) (srcVal s b m.t l k) (srcVal s c m.t l k))
      ∧ (s.Ready [d, a.r] →
        FloatStepImm (.faddImm g m d a imm) s g m.t d a imm (sumOf m)
          ∧ FloatStepImm (.fmulImm g m d a imm) s g m.t d a imm (productOf m))

namespace Sys2Proof.Claims

/-- R160: one NaN is ignored, two give the canonical NaN; otherwise `first` tells whether x is taken. -/
def pickBy (f : Fmt) (first : Val → Val → Bool) (x y : Nat) : Nat :=
  if (value f x).isNan then (if (value f y).isNan then f.canon else y)
  else if (value f y).isNan then x
  else if first (value f x) (value f y) then x else y

/-- The smaller, with −0 below +0. -/
def smaller (f : Fmt) : Nat → Nat → Nat := pickBy f fun x y => x.lt y || (x.eq y && x.isNeg)

/-- The larger, with −0 below +0. -/
def larger (f : Fmt) : Nat → Nat → Nat := pickBy f fun x y => y.lt x || (x.eq y && !x.isNeg)

/-- The smaller magnitude; equal magnitudes as `smaller` says. -/
def smallerMag (f : Fmt) (x y : Nat) : Nat :=
  if !(value f x).isNan && !(value f y).isNan && (value f x).abs.lt (value f y).abs then x
  else if !(value f x).isNan && !(value f y).isNan && (value f y).abs.lt (value f x).abs then y
  else smaller f x y

/-- The larger magnitude. -/
def largerMag (f : Fmt) (x y : Nat) : Nat :=
  if !(value f x).isNan && !(value f y).isNan && (value f y).abs.lt (value f x).abs then x
  else if !(value f x).isNan && !(value f y).isNan && (value f x).abs.lt (value f y).abs then y
  else larger f x y

/-- A selection of R160 on two sources, and on a source and an immediate. -/
def SelectStep (i : Instr) (s : State) (g : Guard) (t : FType) (d : Opd) (a b : Src) (f : Fmt → Nat → Nat → Nat) : Prop :=
  ElemStep0 i s g d [a, b] t.fmt.width fun l k => f t.fmt (src s a t.fmt.width l k) (src s b t.fmt.width l k)

def SelectStepImm (i : Instr) (s : State) (g : Guard) (t : FType) (d : Opd) (a : Src) (imm : BitVec 22)
    (f : Fmt → Nat → Nat → Nat) : Prop :=
  ElemStep0 i s g d [a] t.fmt.width fun l k => f t.fmt (src s a t.fmt.width l k) (floatImm t imm)

/-- R161: the integral value that the mode selects; a zero keeps the sign of the operand. -/
def integral (f : Fmt) (rm : RMode) (x : Nat) : Nat :=
  match value f x with
  | .nan => f.canon
  | .inf _ => x
  | .fin neg m e => (roundTo f (.fin neg (roundAt neg m e 0 rm).1 0) .rz false).1

end Sys2Proof.Claims

/-- 11 R160, R161: minima, maxima, clamp and `FRND`; none sets a flag.
Where the manual is open it follows the model: log 9. -/
def Obligations.FloatSelection : Prop :=
  ∀ (s : State) (g : Guard) (t : FType) (rm : RMode) (d : Opd) (a b c : Src) (imm : BitVec 22),
    (s.Ready [d, a.r, b.r] →
      SelectStep (.fmin g t d a b) s g t d a b smaller ∧ SelectStep (.fmax g t d a b) s g t d a b larger
        ∧ SelectStep (.fminm g t d a b) s g t d a b smallerMag ∧ SelectStep (.fmaxm g t d a b) s g t d a b largerMag)
      ∧ (s.Ready [d, a.r, b.r, c.r] → ElemStep0 (.fclamp g t d a b c) s g d [a, b, c] t.fmt.width fun l k =>
          let x := src s a t.fmt.width l k
          if (value t.fmt x).isNan then t.fmt.canon
          else smaller t.fmt (larger t.fmt x (src s b t.fmt.width l k)) (src s c t.fmt.width l k))
      ∧ (s.Ready [d, a.r] →
        SelectStepImm (.fminImm g t d a imm) s g t d a imm smaller ∧ SelectStepImm (.fmaxImm g t d a imm) s g t d a imm larger
          ∧ ElemStep0 (.frnd g t rm d a) s g d [a] t.fmt.width fun l k => integral t.fmt rm (src s a t.fmt.width l k))

/-- 11 R162: each special function is applied to both F32 sub-elements of the active lanes, with its flags. -/
def Sys2Proof.Claims.SpecialFunctions : Prop :=
  ∀ (s : State) (g : Guard) (d : Opd) (a : Src), s.Ready [d, a.r] →
    let step := fun (i : Instr) (f : SpecFn) => ElemStep i s g d [a] 32 fun l k => special f (src s a 32 l k)
    step (.rcp g d a) .rcp ∧ step (.rsq g d a) .rsq ∧ step (.sqrt g d a) .sqrt ∧ step (.ex2 g d a) .ex2
      ∧ step (.lg2 g d a) .lg2 ∧ step (.sinpi g d a) .sinpi ∧ step (.cospi g d a) .cospi ∧ step (.tanh g d a) .tanh

namespace Sys2Proof.Claims

/-- The dyadic number m × 2^e is n / 2^h. -/
def isOver (m : Nat) (e : Int) (n h : Nat) : Prop := m * 2 ^ e.toNat * 2 ^ h = n * 2 ^ (-e).toNat

/-- The F32 pattern of 2^n, for n from −149 to 127. -/
def powerOfTwo (n : Int) : Nat := if -126 ≤ n then (n + 127).toNat * 2 ^ 23 else 2 ^ (n + 149).toNat

/-- An F32 pattern that stands for the integer n other than 0. -/
def standsFor (p : Nat) (n : Int) : Prop := ∃ m e, value .f32 p = .fin (decide (n < 0)) m e ∧ isOver m e n.natAbs 0

/-- The exact cases of 03 R53: integers for `EX2`, powers of two for `LG2`, integers and halves for `SINPI` and `COSPI`; and the operands
below 0 that `RSQ`, `SQRT` and `LG2` refuse. -/
structure ExactCases : Prop where
  ex2 : ∀ p neg m e n, value .f32 p = .fin neg m e → isOver m e n 0 → n ≠ 0 → n ≤ (if neg then 149 else 127) →
    special .ex2 p = (powerOfTwo (if neg then -(n : Int) else n), 0)
  lg2 : ∀ n : Int, -149 ≤ n → n ≤ 127 → (n = 0 → special .lg2 (powerOfTwo n) = (0, 0))
    ∧ (n ≠ 0 → standsFor (special .lg2 (powerOfTwo n)).1 n ∧ (special .lg2 (powerOfTwo n)).2 = 0)
  sinpi : ∀ p neg m e n, value .f32 p = .fin neg m e →
    (isOver m e n 0 → special .sinpi p = (if neg then 0x80000000 else 0, 0))
      ∧ (isOver m e n 1 → n % 2 = 1 → special .sinpi p = (if decide (n % 4 = 1) != neg then 0x3F800000 else 0xBF800000, 0))
  cospi : ∀ p neg m e n, value .f32 p = .fin neg m e →
    (isOver m e n 0 → special .cospi p = (if n % 2 = 0 then 0x3F800000 else 0xBF800000, 0))
      ∧ (isOver m e n 1 → n % 2 = 1 → special .cospi p = (0, 0))
  negative : ∀ p m e, value .f32 p = .fin true m e → m ≠ 0 →
    ∀ f ∈ [SpecFn.rsq, .sqrt, .lg2], special f p = (0x7FC00000, FLAG.invalid)

end Sys2Proof.Claims

/-- The special cases of 03 R53: NaN, ±0, ±∞, negative operands of `RSQ`, `SQRT` and `LG2`, and the exact cases of `EX2`, `LG2`, `SINPI`
and `COSPI`. -/
def Sys2Proof.Claims.SpecialFunctionCases : Prop :=
  ExactCases ∧
  (∀ (f : SpecFn) (x : Nat), value .f32 x = .nan → special f x = (0x7FC00000, 0))
    ∧ [SpecFn.rcp, .rsq, .sqrt, .ex2, .lg2, .sinpi, .cospi, .tanh].map (special · 0x80000000)
      = [(0xFF800000, FLAG.divzero), (0xFF800000, FLAG.divzero), (0x80000000, 0), (0x3F800000, 0),
          (0xFF800000, FLAG.divzero), (0x80000000, 0), (0x3F800000, 0), (0x80000000, 0)]
    ∧ [SpecFn.rcp, .rsq, .sqrt, .ex2, .lg2, .sinpi, .cospi, .tanh].map (special · 0)
      = [(0x7F800000, FLAG.divzero), (0x7F800000, FLAG.divzero), (0, 0), (0x3F800000, 0), (0xFF800000, FLAG.divzero), (0, 0),
          (0x3F800000, 0), (0, 0)]
    ∧ [SpecFn.rcp, .rsq, .sqrt, .ex2, .lg2, .sinpi, .cospi, .tanh].map (special · 0xFF800000)
      = [(0x80000000, 0), (0x7FC00000, FLAG.invalid), (0x7FC00000, FLAG.invalid), (0, 0), (0x7FC00000, FLAG.invalid),
          (0x7FC00000, FLAG.invalid), (0x7FC00000, FLAG.invalid), (0xBF800000, 0)]
    ∧ [SpecFn.rcp, .rsq, .sqrt, .ex2, .lg2, .sinpi, .cospi, .tanh].map (special · 0x7F800000)
      = [(0, 0), (0, 0), (0x7F800000, 0), (0x7F800000, 0), (0x7F800000, 0), (0x7FC00000, FLAG.invalid),
          (0x7FC00000, FLAG.invalid), (0x3F800000, 0)]
    ∧ ∀ (x : Nat) (m : Nat) (e : Int), value .f32 x = .fin true m e → m ≠ 0 →
      special .rsq x = (0x7FC00000, FLAG.invalid) ∧ special .sqrt x = (0x7FC00000, FLAG.invalid)
        ∧ special .lg2 x = (0x7FC00000, FLAG.invalid)

/-- 11 R162, 03 R53: the special functions and their special cases.
Where the manual is open it follows the model: log 9. -/
def Obligations.SpecialFunctionSteps : Prop := SpecialFunctions ∧ SpecialFunctionCases

/-! ## Vector instructions: conversion (03 R57, 11 R163 to R170) -/

namespace Sys2Proof.Claims

/-- Sub-elements per lane of a format (11 R164). -/
def perReg (f : Fmt) : Nat := 64 / f.cell

/-- The value that conversion `j` of lane `l` takes. -/
def converted (s : State) (a : Src) (src_ dst : Fmt) (part l j : Nat) : Val :=
  value src_ (elem (s.seen.rd a.r l) (if perReg src_ ≤ perReg dst then j else part * perReg dst + j) src_.cell)

/-- Its place in the destination lane. -/
def convertedAt (src_ dst : Fmt) (part j : Nat) : Nat := if perReg src_ ≤ perReg dst then part * perReg src_ + j else j

/-- The magnitudes that `.amax` sees: rounded toward +∞ to F32 where they are not exact (03 R57). -/
def magnitudes (vs : List Val) : List Nat := (vs.filter fun v => !v.isNan).map fun v => (roundTo .f32 v.abs .ru false).1

/-- The values that a `CVT` converts in the active lanes. -/
def allConverted (s : State) (act : List Nat) (a : Src) (src_ dst : Fmt) (part : Nat) : List Val :=
  act.flatMap fun l => (List.range (min (perReg src_) (perReg dst))).map fun j => converted s a src_ dst part l j

/-- What happens to the group besides registers and flags: the running maximum. -/
def withAmax (s : State) (on : Bool) (vs : List Val) : Group :=
  if on then { s.seen with amax := BitVec.ofNat 32 ((magnitudes vs).foldl max s.seen.amax.toNat) } else s.seen

end Sys2Proof.Claims

/-- 11 R165, 03 R57: `CVT` converts min(ns, nd) sub-elements, merges the others of the destination from its old value, and with
`.amax` updates the running maximum. -/
def Sys2Proof.Claims.Conversion : Prop :=
  ∀ (s : State) (g : Guard) (src_ dst : Fmt) (part : Fin 8) (rm : RMode) (sat amax : Bool) (d : Opd) (a : Src),
    part.val < max (perReg src_) (perReg dst) / min (perReg src_) (perReg dst) → s.Ready [d, a.r] →
      ∃ (res : Nat → Word) (t : State), exec (.cvt g src_ dst part rm sat amax d a) s = .next t
        ∧ RegEffect s t (withAmax s amax (allConverted s (s.act g) a src_ dst part.val)) (one d (s.act g) res) [a] (s.act g)
          ((gather (s.act g) fun l => orAll (min (perReg src_) (perReg dst)) fun j =>
              (roundTo dst (converted s a src_ dst part.val l j) rm sat).2)
            ||| if amax && (allConverted s (s.act g) a src_ dst part.val).any Val.isNan then FLAG.invalid else 0)
        ∧ ∀ l ∈ s.act g,
          (∀ j, j < min (perReg src_) (perReg dst) →
            elem (res l) (convertedAt src_ dst part.val j) dst.cell
              = (roundTo dst (converted s a src_ dst part.val l j) rm sat).1 % 2 ^ dst.cell)
            ∧ ∀ k, k < perReg dst → (∀ j, j < min (perReg src_) (perReg dst) → k ≠ convertedAt src_ dst part.val j) →
              elem (res l) k dst.cell = elem (s.seen.rd d l) k dst.cell

/-- 11 R170: `AMAXR` reads `AMAX` into bits [31:0], and resets it unless `.nr` or no guard is true. -/
def Sys2Proof.Claims.MaximumRead : Prop :=
  ∀ (s : State) (g : Guard) (nr : Bool) (d : Opd), s.Ready [d] →
    ∃ t, exec (.amaxr g nr d) s = .next t
      ∧ RegEffect s t (if nr = false ∧ s.act g ≠ [] then { s.seen with amax := 0 } else s.seen)
        (one d (s.act g) fun _ => BitVec.ofNat 64 s.seen.amax.toNat) [] (s.act g) 0

/-- 11 R165, R170, 03 R57: conversion between formats, and the read of the running maximum.
Where the manual is open it follows the model: log 9. -/
def Obligations.ConversionAndMaximum : Prop := Conversion ∧ MaximumRead

namespace Sys2Proof.Claims

/-- Bit `n` of a quad's 192-bit stream (11 R167): element e is sub-element e mod 8 of lane 4q + e div 8, its low six bits. -/
def packedBit (rdA : Nat → Word) (q n : Nat) : Bool :=
  (elem (rdA (4 * q + n / 6 / 8)) (n / 6 % 8) 8).testBit (n % 6)

/-- Bit `n` of the stream that `UNPACK.x6` reads from the first three lanes of a quad. -/
def streamBit (rdA : Nat → Word) (q n : Nat) : Bool := (rdA (4 * q + n / 64)).getLsbD (n % 64)

/-- `floor(log2|x|)` of a finite non-zero value. -/
def floorLog (m : Nat) (e : Int) : Int := e + Nat.log2 m

/-- The scale of `MXSCALE.calc`. -/
def scaleOf (f : MxFmt) (x : Val) : Nat × BitVec 32 :=
  match x with
  | .nan => (0xFF, 0)
  | .inf _ => (0xFF, FLAG.invalid)
  | .fin _ 0 _ => (0, 0)
  | .fin _ m e =>
    let top : Int := match f with
      | .e2m1 | .e2m3 => 2
      | .e3m2 => 4
      | .e4m3 => 8
      | .e5m2 => 15
    ((max (floorLog m e - top) (-127) + 127).toNat, 0)

end Sys2Proof.Claims

/-- 11 R167 to R169: `PACK` and `UNPACK` bit by bit, `MXSCALE.calc` and `.apply`.
Where the manual is open it follows the model: log 9. -/
def Obligations.PackingAndScales : Prop :=
  ∀ (s : State) (g : Guard) (d : Opd) (a b : Src) (f : MxFmt),
    (s.Ready [d, a.r, b.r] →
      (BitStep (.pack g .x6 d a b) s g d [a, b] 64 fun l _ j =>
          decide (l % 4 ≠ 3) && packedBit (s.seen.rd a.r) (l / 4) (64 * (l % 4) + j))
        ∧ (BitStep (.pack g .x4 d a b) s g d [a, b] 4 fun l i j =>
          (elem (s.seen.rd (if i < 8 then a else b).r l) (i % 8) 8).testBit j)
        ∧ (BitStep (.pack g .w32 d a b) s g d [a, b] 32 fun l i j => (elem (s.seen.rd (if i = 0 then a else b).r l) 0 32).testBit j)
        ∧ (ElemStep (.mxscale g (.apply b) d a) s g d [a, b] 32 fun l k =>
          let x := value .f32 (src s a 32 l k)
          let c := src s b 32 l k % 256
          if c = 255 ∨ x.isNan then (0x7FC00000, 0) else roundF32 (x.scale (127 - (c : Int)))))
      ∧ (s.Ready [d, a.r] →
        (BitStep (.unpack g .x6 d a) s g d [a] 8 fun l i j =>
            decide (j < 6) && streamBit (s.seen.rd a.r) (l / 4) (6 * (8 * (l % 4) + i) + j))
          ∧ (ElemStep0 (.unpack g .x4lo d a) s g d [a] 8 fun l i => elem (s.seen.rd a.r l) i 4)
          ∧ (ElemStep0 (.unpack g .x4hi d a) s g d [a] 8 fun l i => elem (s.seen.rd a.r l) (8 + i) 4)
          ∧ (ElemStep (.mxscale g (.calc f) d a) s g d [a] 32 fun l k => scaleOf f (value .f32 (src s a 32 l k))))

/-! ## Vector instructions: across lanes (11 R171 to R178) -/

namespace Sys2Proof.Claims

/-- The element at a flat index (11 R171, R144). -/
def flat (rdA : Nat → Word) (w j : Nat) : Nat := elem (rdA (j / (64 / w))) (j % (64 / w)) w

/-- The element that `SHFL` brings to flat index `j` for index or amount `n`; `fill` for a position outside. -/
def shuffled (rdA : Nat → Word) (w : Nat) (mode : ShflMode) (j n fill : Nat) : Nat :=
  let size := 32 * (64 / w)
  match mode with
  | .gather => flat rdA w (n % size)
  | .rot => flat rdA w ((j + n) % size)
  | .bfly => flat rdA w (Nat.xor j (n % size))
  | .edge =>
    let k : Int := j + signed 9 n
    if 0 ≤ k ∧ k < size then flat rdA w k.toNat else fill

end Sys2Proof.Claims

/-- 11 R172, R173: `SHFL` in its four modes and `BCAST`, with a register or an immediate.
Where the manual is open it follows the model: logs 9, 11. -/
def Obligations.ShufflesAndBroadcasts : Prop :=
  ∀ (s : State) (g : Guard) (w : IWidth) (mode : ShflMode) (d : Opd) (a b c : Src) (n : BitVec 9) (k8 : BitVec 8),
    (s.Ready [d, a.r, b.r, c.r] → ElemStep0 (.shfl g w mode d a b c) s g d [a, b, c] w.bits fun l i =>
        shuffled (s.seen.rd a.r) w.bits mode (64 / w.bits * l + i)
          (if mode = .gather then src s b w.bits l i else (s.seen.rd b.r l).toNat % 512) (src s c w.bits l i))
      ∧ (s.Ready [d, a.r] →
        (ElemStep0 (.shflImm g w mode d a n) s g d [a] w.bits fun l i =>
            shuffled (s.seen.rd a.r) w.bits mode (64 / w.bits * l + i) n.toNat 0)
          ∧ (ElemStep0 (.bcastImm g w d a k8) s g d [a] w.bits fun _ _ =>
            flat (s.seen.rd a.r) w.bits (k8.toNat % (32 * (64 / w.bits)))))
      ∧ (s.Ready [d, a.r, b.r] → ElemStep0 (.bcast g w d a b) s g d [a, b] w.bits fun l _ =>
          flat (s.seen.rd a.r) w.bits ((s.seen.rd b.r l).toNat % (32 * (64 / w.bits))))

namespace Sys2Proof.Claims

/-- The active lanes that vote yes. -/
def yesLanes (s : State) (act : List Nat) (neg : Bool) (q : Fin 8) : List Nat := act.filter fun l => (s.seen.thr l).pred q ^^ neg

/-- A group-level result: the active lanes of a vector register, and a scalar register even with no active lane. -/
def allTo (d : Opd) (act : List Nat) (f : Nat → Word) (empty : Word) : Opd → Nat → Option Word := fun o l =>
  match o with
  | .s _ => if o = d then some (if act = [] then empty else f l) else none
  | _ => if o = d ∧ l ∈ act then some (f l) else none

/-- The verdict of `VOTE` for y yes votes among n. -/
def verdict (mode : VoteMode) (y n : Nat) : Bool :=
  match mode with
  | .every => decide (y = n)
  | .some => decide (1 ≤ y)
  | .none => decide (y = 0)
  | .split => decide (0 < y ∧ y < n)

end Sys2Proof.Claims

/-- 11 R174, R175: `VOTE` counts and judges; `BALLOT` gives its mask, rank, count or first lane. With no voter `VOTE` sets
`empty`. -/
def Sys2Proof.Claims.VotesAndBallots : Prop :=
  ∀ (s : State) (g : Guard) (mode : VoteMode) (bm : BallotMode) (v q : Fin 8) (neg : Bool) (d : Opd), s.Ready [d] →
    (let y := (yesLanes s (s.act g) neg q).length
      let n := (s.act g).length
      let word := BitVec.ofNat 64 (y + 256 * n + (if verdict mode y n then 32768 else 0))
      ∃ t, exec (.vote g mode v neg q d) s = .next t ∧ OnlyGroup s t ∧ GroupRest s.seen t.me ∧ WentOn s.seen t.me
        ∧ RegsBy s.seen t.me (allTo d (s.act g) (fun _ => word) word) [] (s.act g)
        ∧ PredsBy s.seen t.me (fun l p => if l ∈ s.act g ∧ p = v then some (verdict mode y n) else none)
        ∧ t.me.flags = s.seen.flags ||| (if s.act g = [] then FLAG.empty else 0))
      ∧ ∃ (t : State) (f : Nat → Word) (e : Word), exec (.ballot g bm neg q d) s = .next t
        ∧ RegEffect s t s.seen (allTo d (s.act g) f e) [] (s.act g) 0
        ∧ (∀ l, match bm with
          | .mask => ∀ j, (f l).getLsbD j = decide (j ∈ yesLanes s (s.act g) neg q)
          | .rank => (f l).toNat = ((yesLanes s (s.act g) neg q).filter fun j => decide (j < l)).length
          | .count => (f l).toNat = (yesLanes s (s.act g) neg q).length
          | .first => (f l).toNat = (yesLanes s (s.act g) neg q).headD 32)
        ∧ e.toNat = if bm = .first then 32 else 0

namespace Sys2Proof.Claims

/-- The running value of R177 over some elements in lane order, and the flags of its steps; the identity of R178 over none. -/
def folded (op : RedOp) (t : RedType) (es : List Nat) : Nat × BitVec 32 :=
  match es with
  | [] => (redIdentity op t, 0)
  | e :: r => r.foldl (fun acc x => ((redStep op t acc.1 x).1, acc.2 ||| (redStep op t acc.1 x).2)) (redFirst t e, 0)

/-- Position `i` of the contributing lanes. -/
def lanesAt (s : State) (a : Src) (t : RedType) (ls : List Nat) (i : Nat) : List Nat := ls.map fun l => src s a (redWidth t) l i

/-- A reduction or a scan: lane `l` receives the value over the lanes of `part l`. -/
def ReduceStep (i : Instr) (s : State) (g : Guard) (op : RedOp) (t : RedType) (d : Opd) (a : Src) (part : Nat → List Nat) : Prop :=
  ∃ (u : State) (f : Nat → Word) (e : Word), exec i s = .next u
    ∧ RegEffect s u s.seen (allTo d (s.act g) f e) [a] (s.act g)
      (if s.act g = [] then FLAG.empty
        else orAll (64 / redWidth t) fun k => (folded op t (lanesAt s a t (s.act g) k)).2)
    ∧ (∀ l ∈ s.act g, ∀ k, k < 64 / redWidth t →
        elem (f l) k (redWidth t) = (folded op t (lanesAt s a t (part l) k)).1 % 2 ^ redWidth t)
    ∧ ∀ k, k < 64 / redWidth t → elem e k (redWidth t) = redIdentity op t % 2 ^ redWidth t

end Sys2Proof.Claims

/-- 11 R176 to R178: `LREDUCE` over all active lanes, `LSCAN` over those up to the lane's own; with no active lane a scalar
destination receives the identity and `empty` is set. -/
def Sys2Proof.Claims.ReductionsAndScans : Prop :=
  ∀ (s : State) (g : Guard) (op : RedOp) (t : RedType) (d : Opd) (a : Src), s.Ready [d, a.r] →
    ReduceStep (.lreduce g op t d a) s g op t d a (fun _ => s.act g)
      ∧ ReduceStep (.lscan g op t d a) s g op t d a (fun l => (s.act g).filter fun k => decide (k ≤ l))

/-- 11 R174 to R178: `VOTE`, `BALLOT`, `LREDUCE` and `LSCAN`.
Where the manual is open it follows the model: log 9. -/
def Obligations.VotesReductionsAndScans : Prop := VotesAndBallots ∧ ReductionsAndScans

/-! ## Paired words (09 R125 to R128) -/

namespace Sys2Proof.Claims

/-- The result of a half in one lane, from its two registers; none for the NOP half. -/
def halfValue (s : State) (h : Half) (l : Nat) : Option (Word × BitVec 32) :=
  match h with
  | .nop => none
  | .op b => some (halfResult b.op (s.seen.rd (bankReg b.bank b.d) l) (s.seen.rd (bankReg b.bank b.a) l))

/-- What two halves write: each its own destination. -/
def pairNew (s : State) (act : List Nat) (h0 h1 : Half) : Opd → Nat → Option Word := fun o l =>
  let w : Half → Option Word := fun h =>
    match h with
    | .nop => none
    | .op b => if o = bankReg b.bank b.d ∧ l ∈ act then (halfValue s h l).map Prod.fst else none
  (w h1).or (w h0)

/-- The flags of a half in the active lanes. -/
def halfFlags (s : State) (act : List Nat) (h : Half) : BitVec 32 := gather act fun l => ((halfValue s h l).map Prod.snd).getD 0

end Sys2Proof.Claims

/-- 09 R127, R128: both halves of a paired word read before either writes, each writes d op a to its own d in every lane of the
current subset, and two halves of one bank raise the illegal-pair trap (R136).
Where the manual is open it follows the model: logs 9, 93. -/
def Obligations.PairedWords : Prop :=
  ∀ (s : State) (h0 h1 : Half), s.Ready (halfOpds h0 ++ halfOpds h1) →
    (sameBank h0 h1 = false → ∃ t, exec (.pairedWord h0 h1) s = .next t
      ∧ RegEffect s t s.seen (pairNew s s.seen.subset h0 h1) (halfSrcs h0 ++ halfSrcs h1) s.seen.subset
        (halfFlags s s.seen.subset h0 ||| halfFlags s s.seen.subset h1))
      ∧ (sameBank h0 h1 = true →
        exec (.pairedWord h0 h1) s = .next ((s.setMe s.seen).trap .illegalPair 7 1))

/-! ## Control flow (01 R20 to R22, 13 R182 to R186) -/

namespace Sys2Proof.Claims

/-- Thread `l` of `g` is held once the threads of `ls` have arrived (01 R20). -/
def arrives (g : Group) (ls : List Nat) (l : Nat) : Bool :=
  !(g.thr l).exited && (if l ∈ ls then (g.thr l).pc == (g.thr l).meet else (g.thr l).held)

/-- It runs on then. -/
def runsOn (g : Group) (ls : List Nat) (l : Nat) : Bool :=
  decide (l < g.threads.length) && !(g.thr l).exited && !arrives g ls l

/-- `c` is the lowest of some addresses above `prev`, or the lowest of all when none is above (01 R22). -/
def NextAbove (has : Word → Prop) (prev c : Word) : Prop :=
  has c ∧ ((∃ a, has a ∧ prev.toNat < a.toNat) → prev.toNat < c.toNat)
    ∧ ∀ a, has a → (prev.toNat < c.toNat → prev.toNat < a.toNat → c.toNat ≤ a.toNat)
      ∧ (¬ prev.toNat < c.toNat → c.toNat ≤ a.toNat)

/-- Threads after an instruction of the current subset: the active ones at `f`, the others of the subset behind it. -/
def pcAfter (b : Group) (act : List Nat) (f : Nat → Word) (l : Nat) : Word :=
  if l ∈ act then f l else if b.inSubset l then (b.thr l).pc + 8 else (b.thr l).pc

/-- An instruction that moves threads: `b` is the group as it saw it, `new` the registers it writes. -/
structure MoveEffect (s t : State) (b : Group) (rot : Bool) (pc meet : Nat → Word) (exited : Nat → Bool)
    (new : Opd → Nat → Option Word) (act : List Nat) : Prop where
  only : OnlyGroup s t
  rest : GroupRest b t.me
  reaches : Reaches b t.me b.pending rot pc meet exited
  preds : PredsKept b t.me
  regs : RegsBy b t.me new [] act
  flags : t.me.flags = b.flags

/-- A branch of the active threads to `f`. -/
def BranchStep (i : Instr) (s : State) (b : Group) (act : List Nat) (f : Nat → Word) (new : Opd → Nat → Option Word) : Prop :=
  ∃ t, exec i s = .next t
    ∧ MoveEffect s t b false (pcAfter b act f) (fun l => (b.thr l).meet) (fun l => (b.thr l).exited) new act

/-- The group with every lookahead window closed (09 R120). -/
def closed (s : State) : Group := s.seen.closeWindows

/-- Only `MEET` of the active threads, or a register, changes. -/
def MarkStep (i : Instr) (s : State) (act : List Nat) (meet : Nat → Word) (new : Opd → Nat → Option Word) : Prop :=
  ∃ t, exec i s = .next t
    ∧ MoveEffect s t s.seen false (pcAfter s.seen [] fun _ => 0)
      (fun l => if l ∈ act then meet l else (s.seen.thr l).meet) (fun l => (s.seen.thr l).exited) new act

/-- own + 8 × off of 09 R122. -/
def target (b : Group) (off : BitVec 36) : Word := b.cur + BitVec.ofInt 64 (8 * off.toInt)

/-- The misalignment fault of `BRX` and `RET` (13 R183). -/
def branchFault (b : Group) (act : List Nat) (r : Opd) : MemFault :=
  let bad := act.filter fun l => (b.rd r l).toNat % 8 != 0
  { lanes := bad, access := 3, lane := bad.headD 0, space := 4, reason := 5, addr := (b.rd r (bad.headD 0)).toNat }

end Sys2Proof.Claims

/-- 01 R20 to R22: after an instruction the arriving threads whose `PC` equals `MEET` are held; while some thread runs, the
subset that goes on is the rest of the one that executed, or after rotation the lowest `PC` above it; when none runs, the
threads held at the lowest address are released. The address above which a wholly held or exited subset's successor lies is
the model's choice (log 9).
Where the manual is open it follows the model: logs 9, 64. -/
def Obligations.Reconvergence : Prop :=
  ∀ (g : Group) (ls : List Nat) (rot : Bool), ls.Pairwise (· < ·) →
    let h := g.finish ls rot
    let running := fun a => ∃ l, runsOn g ls l = true ∧ (g.thr l).pc = a
    (∀ l, (h.thr l).pc = (g.thr l).pc ∧ (h.thr l).meet = (g.thr l).meet ∧ (h.thr l).exited = (g.thr l).exited
        ∧ (h.thr l).preds = (g.thr l).preds)
      ∧ ((∃ a, running a) →
        (∀ l, (g.thr l).exited = false → (h.thr l).held = arrives g ls l)
          ∧ (∀ l ∈ ls, runsOn g ls l = true → (∀ k ∈ ls, k < l → runsOn g ls k = false) →
              (rot = false → h.cur = (g.thr l).pc) ∧ (rot = true → NextAbove running (g.thr l).pc h.cur))
          ∧ ((∀ l ∈ ls, runsOn g ls l = false) → NextAbove running g.cur h.cur))
      ∧ ((¬ ∃ a, running a) → ∀ a, (∃ l, l < g.threads.length ∧ arrives g ls l = true ∧ (g.thr l).pc = a) →
        (∀ l, l < g.threads.length → arrives g ls l = true → a.toNat ≤ (g.thr l).pc.toNat) →
        h.cur = a ∧ ∀ l, l < g.threads.length → (g.thr l).exited = false →
          (h.thr l).held = (arrives g ls l && (g.thr l).pc != a))

/-- 13 R182, R183, 09 R122: `BRA` and `CALL` go to own + 8 × off, `BRX` and `RET` to each thread's register; the threads
without a true guard go on; `CALL` writes the link and `CALL` and `RET` close the lookahead windows. A register target that
is no multiple of 8 raises the misalignment fault, and no thread moves. -/
def Sys2Proof.Claims.Branches : Prop :=
  ∀ (s : State) (g : Guard) (off : BitVec 36) (link r : Opd),
    (s.Ready [] → BranchStep (.bra g off) s s.seen (s.act g) (fun _ => target s.seen off) noReg)
      ∧ (s.Ready [link] → BranchStep (.call g link off) s (closed s) (s.act g) (fun _ => target s.seen off)
          (one link (s.act g) fun _ => s.seen.cur + 8))
      ∧ (s.Ready [r] →
        ((∀ l ∈ s.act g, (s.seen.rd r l).toNat % 8 = 0) →
          BranchStep (.brx g r) s s.seen (s.act g) (s.seen.rd r) noReg)
          ∧ ((∀ l ∈ s.act g, ((closed s).rd r l).toNat % 8 = 0) →
            BranchStep (.ret g r) s (closed s) (s.act g) ((closed s).rd r) noReg)
          ∧ ((∃ l ∈ s.act g, (s.seen.rd r l).toNat % 8 ≠ 0) →
            exec (.brx g r) s = .next ((s.setMe s.seen).memFault (branchFault s.seen (s.act g) r)))
          ∧ ((∃ l ∈ s.act g, ((closed s).rd r l).toNat % 8 ≠ 0) →
            exec (.ret g r) s = .next ((s.setMe s.seen).memFault (branchFault (closed s) (s.act g) r))))

/-- 13 R184: `SETMEET` writes `MEET` of the active threads from own + 8 × off or a token, `SAVEMEET` reads it. -/
def Sys2Proof.Claims.MeetTokens : Prop :=
  ∀ (s : State) (g : Guard) (off : BitVec 36) (tok : Opd),
    (s.Ready [] → MarkStep (.setmeet g off) s (s.act g) (fun _ => target s.seen off) noReg)
      ∧ (s.Ready [tok] →
        MarkStep (.setmeetToken g tok) s (s.act g) (s.seen.rd tok) noReg
          ∧ MarkStep (.savemeet g tok) s (s.act g) (fun l => (s.seen.thr l).meet)
            (one tok (s.act g) fun l => (s.seen.thr l).meet))

/-- 13 R182 to R184: branches, calls, returns and `MEET` tokens.
Where the manual is open it follows the model: log 9. -/
def Obligations.BranchesAndMeetTokens : Prop := Branches ∧ MeetTokens

/-- 13 R185, R186, 09 R120: `NOP` goes on; `YIELD` closes the windows and rotates when a guard is true; `EXIT` closes them and
ends the active threads, and the group with the last of them: its slot is freed, `EVPEND`, the event mask, dead marks and
`FLAGS` are discarded, and 01 R32 is looked at on the cores of the team.
Where the manual is open it follows the model: logs 9, 19, 63. -/
def Obligations.YieldsAndExits : Prop :=
  ∀ (s : State) (g : Guard), s.Ready [] →
    (∃ t, exec (.nop g) s = .next t ∧ MoveEffect s t s.seen false (pcAfter s.seen [] fun _ => 0) (fun l => (s.seen.thr l).meet)
        (fun l => (s.seen.thr l).exited) noReg [])
      ∧ (∃ t, exec (.yield g) s = .next t
        ∧ MoveEffect s t (if s.act g = [] then s.seen else closed s) (decide (s.act g ≠ [])) (pcAfter s.seen [] fun _ => 0)
          (fun l => (s.seen.thr l).meet) (fun l => (s.seen.thr l).exited) noReg [])
      ∧ ∃ u, MoveEffect s u (closed s) false (pcAfter s.seen [] fun _ => 0) (fun l => (s.seen.thr l).meet)
          (fun l => (s.seen.thr l).exited || (s.act g).contains l) noReg []
        ∧ ((∃ th ∈ u.me.threads, th.exited = false) → exec (.exit g) s = .next u)
        ∧ ((∀ th ∈ u.me.threads, th.exited = true) →
          exec (.exit g) s = .next ((u.endGroup s.focus).growCheck u.myTeam.cores)
            ∧ ((u.endGroup s.focus).me.status = .ended ∧ (u.endGroup s.focus).me.flags = 0
              ∧ (u.endGroup s.focus).me.evpend = 0 ∧ (u.endGroup s.focus).me.evmask = 0 ∧ (u.endGroup s.focus).me.dead = [])
            ∧ kget Bind.free ((u.endGroup s.focus).core u.me.core).slots u.me.slot = Bind.free
            ∧ ∀ k, k ≠ s.focus → (u.endGroup s.focus).grp k = u.grp k)

/-! ## Memory instructions (07 R86 to R103, 13 R187 to R201) -/

namespace Sys2Proof.Claims

/-- The state in which a ready instruction acts: the windows that have passed are closed. -/
def aged (s : State) : State := s.setMe s.seen

/-- The address of lane `l`: the base register, the index register and off × n (09 R119). -/
def address (s : State) (base : Src) (x : Option Src) (off : Int) (n l : Nat) : Nat :=
  (s.seen.rd base.r l + (match x with | some a => s.seen.rd a.r l | none => 0) + BitVec.ofInt 64 (off * n)).toNat

/-- The lanes that are left to an `LD`: those that a fault of it left to execute again, or every active lane (13 R190). -/
def lanesLeft (s : State) (g : Guard) : List Nat :=
  match s.seen.replay with
  | some m => (s.act g).filter m.contains
  | none => s.act g

/-- The places of some lanes' accesses, and the state after their translations. -/
def places (s : State) (ls : List Nat) (spc : Space) (n : Nat) (need : Need) (addr : Nat → Nat) : State × List (Nat × LaneAt) :=
  (aged s).placeLanes s.seen spc n need addr ls

/-- No lane's access is held for a migration (R87) or stalls on a job's range (R103). -/
def goesOn (s : State) (ps : List (Nat × LaneAt)) : Prop := (aged s).accessWaits s.seen true ps = none

/-- A lane's access is held for a migration of `c`, and no lower lane's is held for another core's. -/
def heldOn (ps : List (Nat × LaneAt)) (c : Nat) : Prop := (ps.findSome? fun e => e.2.heldFor) = some c

/-- The instruction waits: nothing of the package changes but that the windows that have passed are closed and, while an access is
held, `w` marks the group as pre-emptible (13 R180), with every window closed (21 R308). -/
def Stalls (i : Instr) (s : State) (w : Option Hold) : Prop :=
  exec i s = .next (s.setMe { (if w = none then s.seen else closed s) with waits := w })

/-- The place of lane `l`. -/
def placeOf (ps : List (Nat × LaneAt)) (l : Nat) : LaneAt := ((ps.find? fun e => e.1 == l).map Prod.snd).getD (.fault 0)

/-- Memory with some bytes replaced, in order. -/
def poke (m : Nat → Byte) (ks : List Nat) (bs : List Byte) : Nat → Byte :=
  (ks.zip bs).foldl (fun m e q => if q = e.1 then e.2 else m q) m

/-- The pattern of `n` bytes at a place as the issuing group reads it, where memory is `m` and the writes so far are `ps`. -/
def seenAt (s : State) (ps : List Past) (m : Nat → Byte) (x : LaneAt) (n : Nat) : Nat :=
  let bs := (x.keys n).map m
  leNat (match x with
    | .phys pa r => ({ s with past := ps } : State).viewed (some ⟨s.focus, ps.length, 4, none⟩) r.lo pa n bs
    | _ => bs)

/-- What the history notes of a group's write at a place (07 R100). -/
def noted (s : State) (m : Nat → Byte) (x : LaneAt) (n : Nat) : Past :=
  { writer := .group s.focus
    whole := none
    va := match x with
      | .phys _ r => some r.lo
      | _ => none
    old := (x.keys n).map fun k => (k, m k) }

/-- Memory, the history of its writes, and each lane's old pattern, after the lanes' accesses of one instruction. -/
structure Performed where
  mem : Nat → Byte
  past : List Past
  old : List (Nat × Nat)

/-- Each lane of `ps` in order replaces the pattern o at its place by `f l o`, if that is given (13 R188, R191). -/
def perform (s : State) (n : Nat) (f : Nat → Nat → Option Nat) (m : Nat → Byte) (past : List Past) :
    List (Nat × LaneAt) → Performed
  | [] => ⟨m, past, []⟩
  | e :: ps =>
    let o := seenAt s past m e.2 n
    let r := match f e.1 o with
      | some y => perform s n f (poke m (e.2.keys n) (leBytes n y)) (noted s m e.2 n :: past) ps
      | none => perform s n f m past ps
    { r with old := (e.1, o) :: r.old }

/-- The old pattern of lane `l`. -/
def oldOf (os : List (Nat × Nat)) (l : Nat) : Nat := ((os.find? fun e => e.1 == l).map Prod.snd).getD 0

/-- The lanes of `ls` that write `d`: each of them, or for a scalar register the instruction's lowest active lane alone
(09 R113). -/
def writers (d : Opd) (low : Nat) (ls : List Nat) : List Nat :=
  match d with
  | .s _ => ls.filter (· == low)
  | _ => ls

/-- What the lanes of `ls` deliver to `d`. -/
def delivered (d : Opd) (low : Nat) (ls : List Nat) (val : Nat → Word) : Opd → Nat → Option Word := one d (writers d low ls) val

/-- The results that become outstanding (09 R120). -/
def outstanding (la : Nat) (d : Opd) (low : Nat) (ls : List Nat) (val : Nat → Word) : List Pending :=
  (writers d low ls).map fun l => ⟨d, l, val l, BitVec.allOnes 64, la⟩

/-- What a long-latency instruction with results `val` in the lanes of `ls` does to the group: with lookahead 0 it writes them,
otherwise they become outstanding (09 R120). Otherwise the group is `b`, but for the threads, which go on. -/
structure Delivers (s t : State) (b : Group) (la : Nat) (d : Opd) (srcs : List Src) (low : Nat) (ls : List Nat) (val : Nat → Word)
    (fl : BitVec 32) : Prop where
  rest : GroupRest b t.me
  went : WentOn s.seen t.me (if la = 0 then s.seen.pending else s.seen.pending ++ outstanding la d low ls val)
  preds : PredsKept s.seen t.me
  flags : t.me.flags = s.seen.flags ||| fl
  regs : RegsBy s.seen t.me (if la = 0 then delivered d low ls val else noReg) srcs ls

/-- The record of a fault of several lanes names the lowest with its reason and address (21 R303). -/
def laneFault (lanes : List Nat) (access : Nat) (spc : Space) (l e : Nat) (addr : Nat → Nat) : MemFault :=
  { lanes := lanes, access := access, lane := l, space := spc.code, reason := e, addr := addr l }

/-- An access of all the active lanes that faults, of which nothing is performed: one record, and the group parks (13 R190). -/
def AccessFaults (i : Instr) (s : State) (f : MemFault) : Prop :=
  ∃ u, OnlyRead s u ∧ MemKept s u nowhere ∧ u.me = s.seen ∧ exec i s = .next (u.memFault f)

end Sys2Proof.Claims

/-- 13 R187, 09 R119, R120, 07 R100: `LD` of every space and size: when no lane waits or faults, each lane's word is the bytes of
memory at its place as the group reads them, zero-extended; no byte of memory changes. After a fault only the lanes that were left
execute. An access held for a migration waits, and so does one that overlaps a job's range. -/
def Sys2Proof.Claims.Loads : Prop :=
  ∀ (s : State) (g : Guard) (spc : Space) (sz : Size) (acq : Bool) (sc : Scope) (la : Fin 16) (d : Opd) (base x : Src)
    (off : BitVec 11), s.Sound → s.Ready [d, base.r, x.r] →
    let i := Instr.ld g spc sz acq sc la d base x off
    let ls := lanesLeft s g
    let p := places s ls spc sz.bytes Need.read (address s base (some x) off.toInt sz.bytes)
    (goesOn s p.2 → (p.1.loadLanes sz.bytes p.2).2.2 = [] →
      ∃ t, exec i s = .next t ∧ OnlyRead s t ∧ MemKept s t nowhere
        ∧ Delivers s t { s.seen with replay := none } la.val d [base, x] ((s.act g).headD 0) ls
          (fun l => BitVec.ofNat 64 (leNat (s.seenBytes (placeOf p.2 l) sz.bytes))) 0)
      ∧ (∀ c, heldOn p.2 c → Stalls i s (some (.core c)))
      ∧ ((p.2.findSome? fun e => e.2.heldFor) = none → ¬ goesOn s p.2 → Stalls i s none)

/-- 13 R190, 21 R303: when some lanes of an `LD` fault, the other lanes receive their words and their sources die, those that
fault are left to execute again with their registers as before, one record names them with the lowest's space, reason and
address, the group parks, and no byte of memory changes but the record's. -/
def Sys2Proof.Claims.LoadFaults : Prop :=
  ∀ (s : State) (g : Guard) (spc : Space) (sz : Size) (acq : Bool) (sc : Scope) (la : Fin 16) (d : Opd) (base x : Src)
    (off : BitVec 11) (l e : Nat) (rest : List (Nat × Nat)), s.Sound → s.Ready [d, base.r, x.r] →
    let ls := lanesLeft s g
    let addr := address s base (some x) off.toInt sz.bytes
    let p := places s ls spc sz.bytes Need.read addr
    goesOn s p.2 → (p.1.loadLanes sz.bytes p.2).2.2 = (l, e) :: rest →
      let bad := l :: rest.map Prod.fst
      let good := ls.filter fun k => !bad.contains k
      ∃ u, OnlyRead s u ∧ MemKept s u nowhere ∧ u.me.cur = s.seen.cur ∧ u.me.threads = s.seen.threads
        ∧ u.me.flags = s.seen.flags ∧ u.me.pending = s.seen.pending ∧ GroupRest { s.seen with replay := some bad } u.me
        ∧ RegsBy s.seen u.me (delivered d ((s.act g).headD 0) good
            fun k => BitVec.ofNat 64 (leNat (s.seenBytes (placeOf p.2 k) sz.bytes))) [base, x] good
        ∧ exec (.ld g spc sz acq sc la d base x off) s = .next (u.memFault (laneFault bad 0 spc l e addr))

/-- 13 R187, R190, 21 R303: `LD` with no fault, and with one.
Where the manual is open it follows the model: logs 4, 7, 9, 61, 68. -/
def Obligations.LoadsAndTheirFaults : Prop := Loads ∧ LoadFaults

/-- 13 R187, R188, R190: `ST`: when no lane waits or faults, the active lanes store the low bytes of their data in ascending lane
order, the history of writes notes them (07 R100), and no other byte of memory changes. When a lane faults nothing is stored, and
one record names every active lane. A store held for a migration waits, and is no pre-emption point (R180).
Where the manual is open it follows the model: logs 4, 9, 61. -/
def Obligations.Stores : Prop :=
  ∀ (s : State) (g : Guard) (spc : Space) (sz : Size) (rel : Bool) (sc : Scope) (base data : Src) (off : BitVec 11),
    s.Sound → s.Ready [base.r, data.r] →
    let i := Instr.st g spc sz rel sc base data off
    let addr := address s base none off.toInt sz.bytes
    let p := places s (s.act g) spc sz.bytes Need.write addr
    (goesOn s p.2 →
      (p.1.writeFaults sz.bytes p.2 = [] →
        let r := perform s sz.bytes (fun l _ => some (s.seen.rd data.r l).toNat) s.memByte s.past p.2
        ∃ t, exec i s = .next t ∧ OnlyWrite s t ∧ MemKept s t (covered p.2 sz.bytes)
          ∧ (∀ q, s.isMem q → t.memByte q = r.mem q) ∧ t.past = r.past
          ∧ GroupRest s.seen t.me ∧ WentOn s.seen t.me ∧ PredsKept s.seen t.me
          ∧ RegsBy s.seen t.me noReg [base, data] (s.act g) ∧ t.me.flags = s.seen.flags)
        ∧ ∀ l e rest, p.1.writeFaults sz.bytes p.2 = (l, e) :: rest → AccessFaults i s (laneFault (s.act g) 1 spc l e addr))
      ∧ (¬ goesOn s p.2 → Stalls i s none)

namespace Sys2Proof.Claims

/-- An atomic completes: `f l o` is lane l's new pattern for the old pattern o, `fl l o` its flags. Or a lane of it faults, or it
waits. -/
def AtomicStep (i : Instr) (s : State) (g : Guard) (spc : Space) (n : Nat) (la : Fin 16) (d : Opd) (base x : Src) (off : Int)
    (f : Nat → Nat → Option Nat) (fl : Nat → Nat → BitVec 32) : Prop :=
  let addr := address s base none off n
  let p := places s (s.act g) spc n Need.rmw addr
  (goesOn s p.2 →
    (p.1.rmwFaults n p.2 = [] →
      let r := perform s n f s.memByte s.past p.2
      ∃ t, exec i s = .next t ∧ OnlyWrite s t ∧ MemKept s t (covered p.2 n)
        ∧ (∀ q, s.isMem q → t.memByte q = r.mem q) ∧ t.past = r.past
        ∧ Delivers s t s.seen la.val d [base, x] ((s.act g).headD 0) (s.act g) (fun l => BitVec.ofNat 64 (oldOf r.old l))
          (r.old.foldl (fun m e => m ||| fl e.1 e.2) 0))
      ∧ ∀ l e rest, p.1.rmwFaults n p.2 = (l, e) :: rest → AccessFaults i s (laneFault (s.act g) 2 spc l e addr))
    ∧ (∀ c, heldOn p.2 c → Stalls i s (some (.core c)))
    ∧ ((p.2.findSome? fun e => e.2.heldFor) = none → ¬ goesOn s p.2 → Stalls i s none)

/-- The new pattern of `ATOM` for old pattern o and datum v (13 R191). -/
def atomNew (op : AtomOp) (w o v : Nat) : Nat :=
  match op with
  | .add => (o + v) % 2 ^ w
  | .min => if signed w v < signed w o then v else o
  | .max => if signed w v > signed w o then v else o
  | .umin => if v < o then v else o
  | .umax => if v > o then v else o
  | .and => Nat.land o v
  | .or => Nat.lor o v
  | .xor => Nat.xor o v
  | .exch => v
  | .fadd => (sumOf ⟨.f32x2, .rn, false⟩ (value .f32 o) (value .f32 v)).1

/-- Only `.fadd` sets flags. -/
def atomFlags (op : AtomOp) (o v : Nat) : BitVec 32 :=
  if op = .fadd then (sumOf ⟨.f32x2, .rn, false⟩ (value .f32 o) (value .f32 v)).2 else 0

end Sys2Proof.Claims

/-- 13 R190, R191: `ATOM` and `CAS`: in ascending lane order each active lane's pattern is replaced by op(o, v), or by v where it
equals the comparand, and the lane receives o; no other byte of memory changes. When a lane faults nothing is performed, and one
record names every active lane.
Where the manual is open it follows the model: logs 4, 7, 9, 61. -/
def Obligations.Atomics : Prop :=
  ∀ (s : State) (g : Guard) (op : AtomOp) (k : OrdKind) (spc : Space4) (sz : ASize) (sc : Scope) (la : Fin 16) (d : Opd)
    (base x : Src) (off : BitVec 7), s.Sound → s.Ready [d, base.r, x.r] →
    AtomicStep (.atom g op k spc sz sc la d base x off) s g spc.wide sz.bytes la d base x off.toInt
        (fun l o => some (atomNew op (8 * sz.bytes) o (src s x (8 * sz.bytes) l 0)))
        (fun l o => atomFlags op o (src s x (8 * sz.bytes) l 0))
      ∧ AtomicStep (.cas g k spc sz sc la d base x off) s g spc.wide sz.bytes la d base x off.toInt
        (fun l o => if o = elem (s.seen.rd d l) 0 (8 * sz.bytes) then some (src s x (8 * sz.bytes) l 0) else none) (fun _ _ => 0)

namespace Sys2Proof.Claims

/-- An instruction that completes and changes only registers whose last use it is. -/
def HintStep (i : Instr) (s : State) (g : Guard) (srcs : List Src) : Prop :=
  ∃ t, exec i s = .next t ∧ RegEffect s t s.seen noReg srcs (s.act g) 0

/-- The place of the sidecar line that `PREF.t` of the tile k tiles further along x finds, if any (13 R198, 05 R77). -/
def prefetched (s : State) (g : Guard) (a b : Src) (k : BitVec 11) : Option Nat :=
  let at_ := fun o => s.seen.rd o ((s.act g).headD 0)
  let c := coordOf (at_ b.r) (at_ (b.r.plus 1))
  (aged s).prefLine { (aged s).groupAgent s.seen with sb := none } (s.grid (s.team s.seen.team).grid).bindings (at_ a.r)
    { c with x := signed 32 (unsigned 32 (c.x + k.toInt)) }

/-- The metadata cache of cluster `k` after a prefetch of the line at `pa`: a line that is not in the cache of the group's cluster enters
it, and the oldest of 512 leaves. -/
def prefetchedInto (s : State) (line : Option Nat) (k : Nat) : Cluster :=
  match line with
  | none => s.cluster k
  | some pa =>
    if s.seen.core < 256 ∧ k = clusterOf s.seen.core ∧ ¬ ∃ l ∈ (s.cluster k).lines, l.part = partOf (s.team s.seen.team).grid ∧ l.pa = pa ∧ l.bad = false then
      { s.cluster k with
        lines := (⟨partOf (s.team s.seen.team).grid, pa, false⟩ ::
          (s.cluster k).lines.filter fun l => l.part != partOf (s.team s.seen.team).grid || l.pa != pa).take 512 }
    else s.cluster k

/-- The group with its flags raised the arithmetic trap for the enabled ones (13 R201). -/
def enabledFlags (b : Group) : BitVec 32 := b.flags &&& b.flagen

end Sys2Proof.Claims

/-- 13 R198 to R201, 07 R100, R101, R104: prefetches and `FENCE.acq` change nothing but dying sources, but that `PREF.t` fills the
metadata cache of its cluster; a release fence notes how far
memory has come for the jobs of its scope, `AFENCE` its pair of pages, and `OFENCE` the registers and the history that the group's next
`MMA`s see, after the outstanding results have arrived. `TFENCE` waits for the group's matrix work, lets outstanding results arrive
and raises the arithmetic trap for an enabled flag.
Where the manual is open it follows the model: logs 4, 5, 9, 12, 71. -/
def Obligations.HintsAndFences : Prop :=
  ∀ (s : State) (g : Guard) (sc : Scope) (a b : Src) (k : BitVec 11),
    let none := s.act g = []
    let n := s.past.length
    let released : Group := { s.seen with
      fenceDev := if sc = .dev ∨ sc = .sys then n else s.seen.fenceDev
      fenceSys := if sc = .sys then n else s.seen.fenceSys }
    let c := closed s
    (s.Ready [a.r, b.r] → HintStep (.prefG g sc a b k) s g [a, b]
        ∧ (none → HintStep (.prefT g sc a b k) s g [])
        ∧ (¬ none → ∃ t cs, RegEffect s t s.seen noReg [a, b] (s.act g) 0
          ∧ exec (.prefT g sc a b k) s = .next { t with clusters := cs }
          ∧ ∀ n, ({ t with clusters := cs } : State).cluster n = prefetchedInto s (prefetched s g a b k) n)
        ∧ (none → HintStep (.afence g a b) s g [])
        ∧ (¬ none → ∃ t, RegEffect s t s.seen noReg [a, b] (s.act g) 0
          ∧ exec (.afence g a b) s = .next { t with
              afences := ⟨s.focus, (s.seen.rd a.r ((s.act g).headD 0)).toNat / 65536,
                (s.seen.rd b.r ((s.act g).headD 0)).toNat / 65536, n⟩ :: s.afences }))
      ∧ (s.Ready [] → HintStep (.fenceAcq g sc) s g []
        ∧ (none → HintStep (.fenceRel g sc) s g [] ∧ HintStep (.fenceAr g sc) s g [] ∧ HintStep (.ofence g) s g []
          ∧ HintStep (.tfence g) s g [])
        ∧ (¬ none →
          (∃ t, exec (.fenceRel g sc) s = .next t ∧ RegEffect s t released noReg [] [] 0)
            ∧ (∃ t, exec (.fenceAr g sc) s = .next t ∧ RegEffect s t released noReg [] [] 0)
            ∧ (∃ t, exec (.ofence g) s = .next t
              ∧ RegEffect s t { c with placed := { fenced := true, v := c.v, dead := c.dead, s := c.s, past := n } }
                (fun o l => some (match o with
                  | .v r => c.vread r l
                  | .s n => c.sread n
                  | .zero => 0)) [] [] 0)
            ∧ ((aged s).inFlight s.focus = true → exec (.tfence g) s = .next s)
            ∧ ((aged s).inFlight s.focus = false →
              (enabledFlags c = 0 → exec (.tfence g) s = .next ((aged s).setMe c.next))
                ∧ (enabledFlags c ≠ 0 → exec (.tfence g) s =
                  .next (((aged s).setMe c).trap .arithmetic 0 0 (enabledFlags c).toNat)))))

/-! ## Tensor loads and stores, code tables, `DEC` and `ENC` (13 R192 to R197, 15 R243 to R247) -/

namespace Sys2Proof.Claims

/-- The roles of an instruction (01 R24). -/
def generalOrMatrix (r : Role) : Bool := r == .general || r == .matrix
def matrixOnly (r : Role) : Bool := r == .matrix

/-- The value of an operand of a group-level instruction: the lowest active lane's (13 R179). -/
def groupVal (s : State) (g : Guard) (a : Opd) : Word := s.seen.rd a ((s.act g).headD 0)

/-- The whole effect of a long-latency instruction on its group, which otherwise is `b`: `new` names the registers that it writes over
those of a group. With lookahead 0 they are written at once; otherwise they are outstanding, and read so once every window has
closed (09 R120). -/
structure LongEffect (s t : State) (b : Group) (la : Nat) (new : Group → Opd → Nat → Option Word) (act : List Nat)
    (fl : BitVec 32) : Prop where
  rest : GroupRest b t.me
  went : ∃ ps, WentOn s.seen t.me (s.seen.pending ++ ps) ∧ (la = 0 → ps = []) ∧ ∀ p ∈ ps, p.left = la
  preds : PredsKept s.seen t.me
  flags : t.me.flags = s.seen.flags ||| fl
  now : la = 0 → RegsBy s.seen t.me (new s.seen) [] act
  later : la ≠ 0 → RegsBy s.seen t.me noReg [] act ∧ RegsBy (closed s) t.me.closeWindows (new (closed s)) [] act

/-- Registers after some elements of a tile image are placed from `d` on: element e has pattern `pat e`; every other bit of the
registers stays (13 R193). -/
def imagePlaced (d : Opd) (f : Fmt) (hi : Bool) (n : Nat) (es : List (Nat × Nat)) (b : Group) : Opd → Nat → Option Word := fun o l =>
  match (List.range n).find? fun k => d.plus k == o with
  | some k =>
    let w := laneImage f hi es k l
    if w.2 = 0 then none else some ((b.rdRaw o l &&& ~~~w.2) ||| (w.1 &&& w.2))
  | none => none

/-- Nothing but the issuing group, memory and what serves accesses changes: the sector cache, the metadata caches, the history of
writes and the counters. -/
def Served (s t : State) : Prop :=
  t = { s with groups := t.groups, mem := t.mem, bad := t.bad, sectors := t.sectors, counters := t.counters
               choices := t.choices, past := t.past, clusters := t.clusters }
    ∧ (∀ k, k ≠ s.focus → t.grp k = s.grp k) ∧ ∀ k, { t.cluster k with lines := [] } = { s.cluster k with lines := [] }

/-- The same, where of memory only the bytes in `W` change. -/
def OnlyBytes (s t : State) (W : Nat → Prop) : Prop := Served s t ∧ MemKept s t W

/-- The same for an access that only reads. -/
def OnlyLooks (s t : State) : Prop := OnlyBytes s t nowhere ∧ t.past = s.past

/-- With no active lane a group-level instruction only goes on (13 R179). -/
def PassesBy (i : Instr) (s : State) : Prop := ∃ t, exec i s = .next t ∧ RegEffect s t s.seen noReg [] [] 0

/-- The record of a coded access's fault: a memory fault of every active lane (21 R303), or a decode fault (05 R68); none for an
access that stalls on a job's range (07 R103). -/
def tileRecord (pc : Word) (grid : Nat) (ident : Word) (act : List Nat) (space : Nat) (e : TFault) : Option Record :=
  match e with
  | .stall => none
  | .memory access reason addr =>
    some (memRecord { lanes := act, access := access, lane := act.headD 0, space := space, reason := reason, addr := addr } pc grid
      ident 0)
  | .decode c x =>
    some { words := [BitVec.ofNat 64 (c.offset % 2 ^ 32 * 2 ^ 32 + x.path * 2 ^ 19 + c.area * 2 ^ 16 + c.reason * 2 ^ 8 + 3),
                     BitVec.ofNat 64 x.desc, BitVec.ofNat 64 x.xy, BitVec.ofNat 64 x.z, BitVec.ofNat 64 x.tile,
                     BitVec.ofNat 64 x.recAddr, pc, BitVec.ofNat 64 (x.side % 65536)]
           timeAt := none, job := none }

/-- The group parks with a record; no register, no flag and no byte of memory but the record's changes (13 R190, R197). -/
def ParksWith (i : Instr) (s : State) (r : Record) : Prop :=
  ∃ u, OnlyLooks s u ∧ u.me = s.seen ∧ exec i s = .next (u.parkFault s.focus [] r)

/-- A coded access does not go on: the group parks with the record, or the whole instruction waits. -/
def TileFaults (i : Instr) (s : State) (g : Guard) (space : Nat) (e : TFault) : Prop :=
  match tileRecord s.seen.cur (s.team s.seen.team).grid (s.identOf s.seen) (s.act g) space e with
  | some r => ParksWith i s r
  | none => exec i s = .next s

/-- The bytes that the writes of a store to a tile cover. -/
def tileBytes (xs : List TileWrite) : Nat → Prop := fun p => ∃ x ∈ xs, p ∈ pieceKeys x.ws

/-- Memory and the history of its writes after the writes of a store to a tile, in their order (07 R100). A record and its line become
visible in one piece (05 R83): the history marks them with one number. -/
def tileStored (s : State) (xs : List TileWrite) : (Nat → Byte) × List Past :=
  let whole := if xs.length = 2 then some s.past.length else none
  xs.foldl (fun acc x => (poke acc.1 (pieceKeys x.ws) x.bytes,
    (pieceVas x.va x.ws).foldl (fun ps v =>
      ⟨.group s.focus, whole, some v.1, (pieceKeys [v.2]).map fun k => (k, acc.1 k)⟩ :: ps) acc.2))
    (s.memByte, s.past)

/-- The tile that a tensor instruction names: descriptor address, (x, y) and (z1, z2) (13 R192). -/
def tensorDesc (s : State) (g : Guard) (base x : Src) (path : Nat) : State × Except TFault Desc :=
  (aged s).tileDesc s.seen (groupVal s g base.r) (groupVal s g x.r) (groupVal s g (x.r.plus 1)) path

/-- Its coordinate. -/
def tensorCoord (s : State) (g : Guard) (x : Src) : Coord := coordOf (groupVal s g x.r) (groupVal s g (x.r.plus 1))

/-- The patterns that `LDT` places: the element's own, 0 where the tile does not keep it, the fill out of bounds (13 R194). -/
def loadedPattern (t : Tile) (e : Nat) : Nat :=
  if t.oob.getD e false then t.pats.getD e 0 else if t.kept.getD e false then t.pats.getD e 0 else 0

end Sys2Proof.Claims

/-- 13 R192 to R194, R197: `LDT`: the rows q0 to q0 + count − 1 of the decoded tile are placed in the image of all 32 lanes, and the
scales in s(n + 2); memory does not change. With no active lane it only goes on; an image past the allocation traps; a fault of the
descriptor or of the tile parks the group with its record, and leaves registers, flags and memory.
Where the manual is open it follows the model: logs 7, 9, 19, 71, 73, 74. -/
def Obligations.TensorLoads : Prop :=
  ∀ (s : State) (g : Guard) (hi : Bool) (q0 cnt : Fin 16) (sc : Scope) (la : Fin 16) (d : Opd) (base x : Src),
    let i := Instr.ldt g hi q0 cnt sc la d base x
    i.wellFormed = true → s.Sound → s.Ready [d, base.r, x.r] →
    (s.act g = [] → PassesBy i s)
      ∧ (s.act g ≠ [] →
        (∀ desc s1, tensorDesc s g base x 2 = (s1, .ok desc) →
          (s.seen.hasRun d (imageRegs desc.fmt) = true →
            ∀ s2 r, s1.decodeTile ((aged s).groupAgent s.seen) s.myTeam.table desc (tensorCoord s g x) 2 = (s2, r) →
              match r with
              | .ok tile =>
                ∃ t, exec i s = .next t ∧ OnlyLooks s t
                  ∧ LongEffect s t s.seen la.val (fun b o l =>
                      if o = x.r.plus 2 then some (BitVec.ofNat 64 (leNat (tile.scales.map (BitVec.ofNat 8))))
                      else imagePlaced d desc.fmt hi (imageRegs desc.fmt) ((List.range (16 * (cnt.val + 1))).map fun k =>
                        (16 * q0.val + k, loadedPattern tile (16 * q0.val + k))) b o l) (s.act g) 0
              | .error e => TileFaults i s g 5 e)
            ∧ (s.seen.hasRun d (imageRegs desc.fmt) = false → exec i s = .next ((aged s).trap .illegalOperand)))
          ∧ ∀ e s1, tensorDesc s g base x 2 = (s1, .error e) → TileFaults i s g 5 e)

namespace Sys2Proof.Claims

/-- `STT` with or without `.seal`: what R195 stores is planned from the descriptor, the image and the old tile; then all of it is
written, or nothing. -/
def TensorStore (i : Instr) (s : State) (g : Guard) (hi : Bool) (q0 n : Nat) (d : Opd) (base x : Src) (sealing : Bool) : Prop :=
  (s.act g = [] → PassesBy i s)
    ∧ (s.act g ≠ [] →
      (∀ desc s1, tensorDesc s g base x 3 = (s1, .ok desc) →
        (s.seen.hasRun d (imageRegs desc.fmt) = true →
          ∀ s2 r, s1.planTile ((aged s).groupAgent s.seen) s.myTeam.table desc (tensorCoord s g x)
            { q0 := q0
              rows := (List.range n).map fun r => (List.range 16).map fun c => s.seen.imageElem d desc.fmt hi (16 * (q0 + r) + c)
              scales := (List.range 8).map fun b => elem (groupVal s g (x.r.plus 2)) b 8, seal_ := sealing } = (s2, r) →
          match r with
          | .ok xs =>
            match (s2.writeTile xs).2 with
            | .ok _ =>
              ∃ t, exec i s = .next t ∧ OnlyBytes s t (tileBytes xs)
                ∧ (∀ p, s.isMem p → t.memByte p = (tileStored s xs).1 p) ∧ t.past = (tileStored s xs).2
                ∧ GroupRest s.seen t.me ∧ WentOn s.seen t.me ∧ PredsKept s.seen t.me ∧ RegsBy s.seen t.me noReg [] []
                ∧ t.me.flags = s.seen.flags
            | .error e => TileFaults i s g 5 e
          | .error e => TileFaults i s g 5 e)
          ∧ (s.seen.hasRun d (imageRegs desc.fmt) = false → exec i s = .next ((aged s).trap .illegalOperand)))
        ∧ ∀ e s1, tensorDesc s g base x 3 = (s1, .error e) → TileFaults i s g 5 e)

end Sys2Proof.Claims

/-- 13 R195, R197: `STT` and `STT.seal`: they store the planned bytes; registers, flags and every other byte of memory stay. With no
active lane they only go on; an image past the allocation traps; a fault of the descriptor, of the plan or of a write parks the group
with its record, and leaves registers, flags and every byte of memory.
Where the manual is open it follows the model: logs 9, 23, 73, 74. -/
def Obligations.TensorStores : Prop :=
  ∀ (s : State) (g : Guard) (hi : Bool) (q0 cnt : Fin 16) (sc : Scope) (d : Opd) (base x : Src),
    s.Sound → s.Ready [d, base.r, x.r] → x.r.isSRun 2 = true →
    TensorStore (.stt g hi q0 cnt sc d base x) s g hi q0.val (cnt.val + 1) d base x false
      ∧ TensorStore (.sttSeal g hi q0 cnt sc d base x) s g hi q0.val (cnt.val + 1) d base x true

/-- 05 R60, R61, R81: the raw and the constant record of a tile of any format decode to its own elements and scales. -/
def Obligations.RecordsDecode : Prop :=
  ∀ (f : Fmt) (slot : Nat) (scales els : List Nat) (ct : Nat → Option CodeTable), f.hasCode = true → slot < 16 →
    scales.length = 8 → (∀ x ∈ scales, x < 256) → els.length = 256 → (∀ x ∈ els, x < 2 ^ f.width) →
    let r := encodeRecord f none slot scales els
    (parseRecord f 0 false ct r.1 r.2) = .ok { els := els, rows := 16, idx := [], scales := scales }
      ∧ r.1 ≤ slotSize f 0 ∧ r.1 % 16 = 0

namespace Sys2Proof.Claims

/-- A code table as its image in memory reads (05 R63). -/
def imageTable (x y n : Nat) : CodeTable :=
  { tag := BitVec.ofNat 16 (x % 16), counts := (List.range 12).map fun k => x / 2 ^ (16 + 16 * k) % 65536,
    syms := (List.range n).map fun k => y / 2 ^ (16 * k) % 65536 }

/-- Nothing but the issuing group's registers and the bytes of `W`. -/
def ByteStep (i : Instr) (s : State) (W : Nat → Prop) (m : Nat → Byte) (new : Opd → Nat → Option Word) (act : List Nat) : Prop :=
  ∃ t, exec i s = .next t ∧ OnlyBytes s t W ∧ (∀ q, s.isMem q → t.memByte q = m q) ∧ GroupRest s.seen t.me ∧ WentOn s.seen t.me
    ∧ PredsKept s.seen t.me ∧ RegsBy s.seen t.me new [] act ∧ t.me.flags = s.seen.flags

/-- The bytes of the image of a code table: its tag, the twelve counts and the symbols as halfwords (05 R63). -/
def tableBytes (c : CodeTable) : List Byte :=
  (List.range (13 + c.syms.length)).flatMap fun h =>
    let x := (c.tag.toNat :: c.counts ++ c.syms).getD h 0
    [BitVec.ofNat 8 x, BitVec.ofNat 8 (x / 256)]

/-- Σ count[l] × 2^(12 − l) of an image (05 R64). -/
def kraftOf (x : Nat) : Nat := ((List.range 12).map fun k => x / 2 ^ (16 + 16 * k) % 65536 * 2 ^ (11 - k)).sum

/-- Reason and `kraft` of an image whose head fails the checks 0x01 to 0x03 of 05 R64. -/
def headWrong (x : Nat) : Option (Nat × Nat) :=
  if x / 16 % 4096 ≠ 0 then some (1, 0) else if 10 < x % 16 then some (2, 0)
  else if kraftOf x ≠ 4096 then some (3, kraftOf x) else none

/-- The symbols fail check 0x04 or 0x05 of 05 R64 with reason `r` at number `n`. -/
def SymsWrong (w : Nat) (ys : List Nat) (r n : Nat) : Prop :=
  n < ys.length ∧ (r = 4 ∧ 2 ^ w ≤ ys.getD n 0 ∧ (∀ m, m < n → ys.getD m 0 < 2 ^ w)
    ∨ r = 5 ∧ (∀ y ∈ ys, y < 2 ^ w) ∧ ys.getD n 0 ∈ ys.take n ∧ ∀ m, m < n → ys.getD m 0 ∉ ys.take m)

/-- Every symbol fits the width and none occurs twice (05 R64). -/
def SymsRight (w : Nat) (ys : List Nat) : Prop := (∀ y ∈ ys, y < 2 ^ w) ∧ ys.Nodup

/-- A code-table fault's record (15 R244). -/
def tableFault (s : State) (slot : Nat) (sp : Bool) (reason index kraft : Nat) (image : Word) : Record :=
  { words := [BitVec.ofNat 64 (index * 2 ^ 32 + slot * 2 ^ 20 + (if sp then 2 ^ 19 else 0) + reason * 2 ^ 8 + 4), image,
              BitVec.ofNat 64 kraft, s.seen.cur, 0, 0, 0, 0], timeAt := none, job := none }

/-- Where an image of `n` bytes is written (15 R243). -/
def imageKeys (s : State) (sp : Bool) (at_ n : Nat) : List Nat :=
  if sp then
    match (aged s).scratchRun s.seen 1 at_ n with
    | .ok ks => ks
    | .error _ => []
  else
    match ((aged s).tensorRange ((aged s).groupAgent s.seen) Need.write at_ n none (descCtx 1 0)).2 with
    | .ok ws => pieceKeys ws
    | .error _ => []

/-- `CTLD` of the image at `image`, once its reads are given. -/
def TableLoad (i : Instr) (s : State) (g : Guard) (sp : Bool) (slot : Fin 16) (image : Word) : Prop :=
  let space := if sp then 1 else 4
  let read := fun (u : State) at_ n => u.runRead s.seen sp 0 at_ n
  (image.toNat % 16 ≠ 0 → TileFaults i s g space (.memory 0 5 image.toNat))
    ∧ (image.toNat % 16 = 0 →
      (∀ s1 e, read (aged s) image.toNat 26 = (s1, .error e) → TileFaults i s g space e)
        ∧ ∀ s1 x, read (aged s) image.toNat 26 = (s1, .ok x) →
          (∀ r k, headWrong x = some (r, k) → ParksWith i s (tableFault s slot.val sp r 0 k image))
            ∧ (headWrong x = none →
              let n := symCount (imageCounts x)
              let w := ((fmtOf (x % 16)).map Fmt.width).getD 0
              (∀ s2 e, read s1 (image.toNat + 26) (2 * n) = (s2, .error e) → TileFaults i s g space e)
                ∧ ∀ s2 y, read s1 (image.toNat + 26) (2 * n) = (s2, .ok y) →
                  let c := imageTable x y n
                  (∀ r k, SymsWrong w c.syms r k → ParksWith i s (tableFault s slot.val sp r k 0 image))
                    ∧ (SymsRight w c.syms →
                      ∃ t, exec i s = .next t
                        ∧ t = { s with groups := t.groups, teams := t.teams, mem := t.mem, bad := t.bad, sectors := t.sectors
                                       counters := t.counters }
                        ∧ MemKept s t nowhere
                        ∧ (∀ k, k ≠ s.seen.team → t.team k = s.team k) ∧ (∀ k, k ≠ s.focus → t.grp k = s.grp k)
                        ∧ { t.team s.seen.team with ct := [] } = { s.team s.seen.team with ct := [] }
                        ∧ (∀ n, (t.team s.seen.team).table n = if n = slot.val then some c else (s.team s.seen.team).table n)
                        ∧ GroupRest s.seen t.me ∧ WentOn s.seen t.me ∧ PredsKept s.seen t.me ∧ RegsBy s.seen t.me noReg [] []
                        ∧ t.me.flags = s.seen.flags)))

/-- `CTST` of a slot to `at_`. -/
def TableStore (i : Instr) (s : State) (g : Guard) (sp : Bool) (slot : Fin 16) (d : Opd) (at_ : Nat) : Prop :=
  let space := if sp then 1 else 4
  (at_ % 16 ≠ 0 → TileFaults i s g space (.memory 1 5 at_))
    ∧ (at_ % 16 = 0 →
      (s.myTeam.table slot.val = none → ByteStep i s nowhere s.memByte (one d (s.act g) fun _ => 0) (s.act g))
        ∧ ∀ c, s.myTeam.table slot.val = some c →
          let n := 26 + 2 * c.syms.length
          let ks := imageKeys s sp at_ n
          (∀ u, (aged s).runWrite s.seen sp at_ n c.image = (u, .ok ()) →
            ByteStep i s (· ∈ ks) (poke s.memByte ks (tableBytes c)) (one d (s.act g) fun _ => BitVec.ofNat 64 n) (s.act g))
            ∧ ∀ u e, (aged s).runWrite s.seen sp at_ n c.image = (u, .error e) → TileFaults i s g space e)

end Sys2Proof.Claims

/-- 05 R63, R64, 15 R243 to R245: `CTLD` reads an image whose head and symbols pass their checks into the slot of its team; one that
fails them leaves the slot and parks the group with its record. `CTST` of an empty slot writes 0, of a full one the image and its
size. A misaligned address and a fault of a byte leave registers and memory; with no active lane both only go on.
Where the manual is open it follows the model: logs 9, 19. -/
def Obligations.CodeTableTransfers : Prop :=
  ∀ (s : State) (g : Guard) (sp : Bool) (slot : Fin 16) (d a : Opd), s.Sound →
    (s.ReadyAs generalOrMatrix [a] →
      (s.act g = [] → PassesBy (.ctld g sp slot a) s)
        ∧ (s.act g ≠ [] → TableLoad (.ctld g sp slot a) s g sp slot (groupVal s g a)))
      ∧ (s.ReadyAs generalOrMatrix [d, a] →
        (s.act g = [] → PassesBy (.ctst g sp slot d a) s)
          ∧ (s.act g ≠ [] → TableStore (.ctst g sp slot d a) s g sp slot d (groupVal s g a).toNat))

namespace Sys2Proof.Claims

/-- The value that `DEC` rounds for element i: 0 where the tile does not keep it (15 R246). -/
def decodedValue (t : Tile) (f : Fmt) (i : Nat) : Val :=
  if t.oob.getD i false || t.kept.getD i false then t.val f i else .fin false 0 0

/-- Element i of `ENC`'s source under its block's scale (15 R247). -/
def encoded (s : State) (g : Guard) (a c : Opd) (fmt : Fmt) (i : Nat) : Nat × BitVec 32 :=
  let x := value .f32 (elem (s.seen.rd (a.plus (i / 64)) (i % 64 / 2)) (i % 2) 32)
  let sc := elem (groupVal s g c) (i / 32) 8
  roundTo fmt (if sc = 255 then .nan else x.scale (127 - (sc : Int))) .rn false

/-- The record that `ENC` writes, with its size. -/
def encodedRecord (s : State) (g : Guard) (fmt : Fmt) (slot : Nat) (a c : Opd) : Nat × Nat :=
  encodeRecord fmt (s.myTeam.table slot) slot ((List.range 8).map fun k => elem (groupVal s g c) k 8)
    ((List.range 256).map fun i => (encoded s g a c fmt i).1)

end Sys2Proof.Claims

/-- 15 R246, R247: `DEC` writes the 256 rounded values of a tile in all lanes with the flags of every rounding; `ENC` writes the
record of 256 rounded values and its zero padding to the whole slot in the scratchpad, its size to d, the flags, and `SATCNT`. A run of
registers past the allocation traps with order 6 whether or not a lane is active (01 R30, 09 R136); a bad operand value traps; a fault
parks the group with its record and leaves registers and memory; with no active lane both only go on.
Where the manual is open it follows the model: logs 7, 9. -/
def Obligations.DecodeAndEncodeTiles : Prop :=
  ∀ (s : State) (g : Guard) (dst : DecDst) (sat bt : Bool) (la slot : Fin 16) (fmt : Fmt) (d a b c : Opd) (r : Fin 320), s.Sound →
    let i := Instr.dec g dst sat bt la (.v r) b c
    let j := Instr.enc g fmt slot la d a b c
    let regs := if dst = .f32 then 4 else 2
    (s.Ready [.v r, b, c] → s.seen.hasRun (.v r) regs = false → exec i s = .next ((aged s).trap .illegalOperand 6))
      ∧ (s.ReadyAs generalOrMatrix [.v r, b, c] → s.seen.hasRun (.v r) regs = true →
        (s.act g = [] → PassesBy i s)
          ∧ (s.act g ≠ [] →
            match (aged s).decSource s.seen bt b c (s.act g) with
            | none => exec i s = .next ((aged s).trap .illegalOperand)
            | some (_, .error e) => TileFaults i s g (if bt then 5 else 1) e
            | some (_, .ok (tile, f)) =>
              ∃ t, exec i s = .next t ∧ OnlyLooks s t
                ∧ LongEffect s t s.seen la.val
                  (imagePlaced (.v r) (decFmt dst) false regs ((List.range 256).map fun k =>
                    (k, (roundTo (decFmt dst) (decodedValue tile f k) .rn sat).1))) (s.act g)
                  (orAll 256 fun k => (roundTo (decFmt dst) (decodedValue tile f k) .rn sat).2)))
      ∧ (s.Ready [d, a, b, c] → s.seen.hasRun a 4 = false → exec j s = .next ((aged s).trap .illegalOperand 6))
      ∧ (s.ReadyAs generalOrMatrix [d, a, b, c] → s.seen.hasRun a 4 = true →
        (s.act g = [] → PassesBy j s)
          ∧ (s.act g ≠ [] →
            let o := (groupVal s g b).toNat
            let size := slotSize fmt 0
            (¬ (o < 2 ^ 19 ∧ o % 16 = 0) → exec j s = .next ((aged s).trap .illegalOperand))
              ∧ (o < 2 ^ 19 ∧ o % 16 = 0 →
                match (aged s).scratchRun s.seen 1 o size with
                | .error e => TileFaults j s g 1 e
                | .ok ks =>
                  ∃ t, exec j s = .next t ∧ OnlyBytes s t (· ∈ ks)
                    ∧ (∀ q, s.isMem q → t.memByte q = poke s.memByte ks (leBytes size (encodedRecord s g fmt slot.val a c).2) q)
                    ∧ t.past = ⟨.group s.focus, none, none, ks.map fun k => (k, s.memByte k)⟩ :: s.past
                    ∧ LongEffect s t { s.seen with satcnt := BitVec.ofNat 32 (min (s.seen.satcnt.toNat
                          + ((List.range 256).filter fun k => (encoded s g a c fmt k).2 &&& FLAG.saturated != 0).length) 0xFFFFFFFF) }
                      la.val (fun _ => one d (s.act g) fun _ => BitVec.ofNat 64 (encodedRecord s g fmt slot.val a c).1) (s.act g)
                      (orAll 256 fun k => (encoded s g a c fmt k).2))))

/-! ## Matrix instructions (15 R222 to R242) -/

namespace Sys2Proof.Claims

/-- What an instruction does to its group; `b` is the group as it saw it. -/
structure GroupEffect (s t : State) (b : Group) (new : Opd → Nat → Option Word) (srcs : List Src) (act : List Nat)
    (fl : BitVec 32) : Prop where
  rest : GroupRest b t.me
  went : WentOn s.seen t.me b.pending
  preds : PredsKept s.seen t.me
  regs : RegsBy s.seen t.me new srcs act
  flags : t.me.flags = s.seen.flags ||| fl

/-- Only the issuing group and its team change. -/
def OnlyTeam (s t : State) : Prop :=
  t = { s with groups := t.groups, teams := t.teams, choices := t.choices } ∧ (∀ k, k ≠ s.focus → t.grp k = s.grp k)
    ∧ ∀ k, k ≠ s.me.team → t.team k = s.team k

/-- An instruction that is only guards and a change of its own group, without a register. -/
def OwnStep (i : Instr) (s : State) (b : Group) : Prop :=
  ∃ t, exec i s = .next t ∧ RegEffect s t b noReg [] [] 0

/-- An element's value after one more product, by 03 R47 and R50: the exact sum is rounded once; or by R49 with wrap. -/
def productStep (fw : BitVec 32) (a : List Word) (acc : BitVec 32 × BitVec 32) (e : BElem) : BitVec 32 × BitVec 32 :=
  let fa := fmtAt (fwAfmt fw)
  let fb := fmtAt (fwBfmt fw)
  if fwInt fw then
    let t := acc.1.toInt + signed fa.width (rowElem fa a e.k) * signed fb.width e.pat
    (BitVec.ofInt 32 t, acc.2 ||| if t < -2 ^ 31 ∨ 2 ^ 31 - 1 < t then FLAG.overflow else 0)
  else
    let r := fusedOf ⟨.f32x2, .rn, false⟩ (scaledVal fa (rowElem fa a e.k) (rowScale fa (fwAscl fw) a)) (scaledVal fb e.pat e.scale)
      (value .f32 acc.1.toNat)
    (BitVec.ofNat 32 r.1, acc.2 ||| r.2)

/-- What an `MMA` makes of an element (15 R233): it starts from 0, from the old value, or from the scaled old value. -/
def elementAfter (o : MmaOp) (r : MmaRow) (col : List BElem) (old : BitVec 32) : BitVec 32 × BitVec 32 :=
  col.foldl (productStep o.fw r.a) (match o.mode with
    | .z => (0, 0)
    | .a => (old, 0)
    | .s =>
      let p := productOf ⟨.f32x2, .rn, false⟩ (value .f32 o.scalar.toNat) (value .f32 old.toNat)
      (BitVec.ofNat 32 p.1, p.2))

/-- The elements that an operation targets, row by row. -/
def targets (o : MmaOp) : List (MmaRow × List BElem × Nat) :=
  o.rows.flatMap fun r => (o.colsOf r.core).zipIdx.map fun e => (r, e.1, r.base + e.2)

/-- A team's accumulator and open operations while writes are placed, with what the elements add to the groups' flags and counts. -/
structure Laid where
  acc : Nat → BitVec 32
  ops : List AccOp
  fixes : List Credit

/-- An element takes a value. -/
def Laid.put (x : Laid) (k : Nat) (v : BitVec 32) : Laid := { x with acc := fun j => if j = k then v else x.acc j }

/-- The write of element `k` by a folded `ACCMERGE` (15 R236, R241): one on which an `MMA` of the group was in flight takes that value, the
`MMA`'s or poison (07 R102). Merges that folded no later have no more to write there. -/
def layFold (tick : Nat) (x : Laid) (o : MergeOp) (vals : List (Nat × BitVec 32)) (k : Nat) : Laid :=
  if vals.any fun e => e.1 == k then
    let v := lastIn vals k 0
    ({ x with ops := forget o.folded k x.ops } : Laid).put k (match o.hits.find? fun e => e.1 == k with
      | some e => memberOf [tick, k] v [v, e.2, accPoison]
      | none => v)
  else x

/-- A read-modify-write of element `k` acts after the folded `ACCMERGE`s on it, of which the last is placed early. -/
def layEarly (tick : Nat) (x : Laid) (k : Nat) : Laid :=
  match lastFold x.ops k with
  | some m => layFold tick x m.1 m.2 k
  | none => x

/-- What an element adds that acts on `v` and, at the commit, acted on another value (03 R56, R58). -/
def layFix (o : MmaOp) (r : MmaRow) (col : List BElem) (k : Nat) (v : BitVec 32) : List Credit :=
  let u := lastIn o.used k v
  let nan := fun z => if !fwInt o.fw && isNan32 (elementAfter o r col z).1 && !isNan32 z then (1 : Int) else 0
  if u = v then [] else [⟨r.group, (elementAfter o r col v).2, nan v - nan u⟩]

/-- The writes of an `MMA` (15 R233, R235): each target element but those that a touch took (07 R102); an open `ACCMERGE` acts after it. -/
def layMma (tick : Nat) (x : Laid) (o : MmaOp) : Laid :=
  (targets o).foldl (fun x e =>
    if o.touched.any fun y => y.1 == e.2.2 then x
    else
      let y := layEarly tick x e.2.2
      let r := (elementAfter o e.1 e.2.1 (y.acc e.2.2)).1
      ({ y with ops := rebase [(e.2.2, r)] y.ops, fixes := y.fixes ++ layFix o e.1 e.2.1 e.2.2 (y.acc e.2.2) } : Laid).put e.2.2 r) x

/-- The n-th operation of the team once group `g` has waited for it. -/
def layOp (g tick : Nat) (x : Laid) (n : Nat) : Laid :=
  match x.ops[n]? with
  | some (.settled m) =>
    if m.groups.contains g then
      let y := layMma tick x m
      { y with ops := y.ops.set n (.applied (m.groups.filter (· != g)) [] []) }
    else x
  | some (.folded m vals) =>
    if m.group = g then
      let y := (vals.map Prod.fst).eraseDups.foldl (fun x k => layFold tick x m vals k) x
      { y with ops := y.ops.set n (.applied [] [] []) }
    else x
  | _ => x

/-- The accumulator after the operations that group `g` took part in are placed, in issue order (15 R235, R236). -/
def layAll (g tick : Nat) (ops : List AccOp) (f : Nat → BitVec 32) : Laid :=
  (List.range ops.length).foldl (layOp g tick) ⟨f, ops, []⟩

/-- The corrections of group `j`, which a group that has ended discards. -/
def corrected (j : Nat) (g : Group) (fixes : List Credit) : Group :=
  if g.status = .ended then g
  else (fixes.filter fun c => c.group == j).foldl (fun (g : Group) (c : Credit) =>
    { g with flags := g.flags ||| c.flags, nancnt := BitVec.ofNat 32 (min ((g.nancnt.toNat : Int) + c.nans).toNat 0xFFFFFFFF) }) g

/-- `GANGSET` raises the trap for value `w` (15 R226). -/
def gangWrong (s : State) (w : Word) (pair : Bool) : Prop :=
  let t := s.team s.me.team
  let n := w.toNat / 2 ^ 32 % 8
  let at_ := fun k => w.toNat / 2 ^ (5 * k) % 32
  w.toNat / 2 ^ 35 ≠ 0 ∨ w.toNat / 2 ^ 30 % 4 ≠ 0 ∨ n = 1 ∨ n = 7
    ∨ (n = 0 ∧ (pair = true ∨ w.toNat % 2 ^ 30 ≠ 0))
    ∨ (2 ≤ n ∧ n ≤ 6 ∧ ((∃ k, n ≤ k ∧ k < 6 ∧ at_ k ≠ 0) ∨ (∃ k, k + 1 < n ∧ at_ (k + 1) ≤ at_ k) ∨ (∃ k, k < n ∧ t.size ≤ at_ k)
      ∨ (∀ k, k < n → at_ k ≠ s.seen.index) ∨ (∃ k, k < n ∧ (s.grp (groupKey s.me.team (at_ k))).role ≠ .matrix)
      ∨ (pair = true ∧ (t.paired = false
        ∨ 2 * ((List.range n).filter fun k => at_ k % 2 == 0).length ≠ n))
      ∨ (pair = false ∧ t.paired = true ∧ ∃ k, k < n ∧ at_ k % 2 ≠ s.seen.index % 2)))

/-- The group has still to wait for the operation. -/
def owes (g : Nat) (o : AccOp) : Prop :=
  match o with
  | .settled m => g ∈ m.groups
  | .applied gs _ _ => g ∈ gs
  | .folded m _ => m.group = g
  | .mma _ | .merge _ => False

end Sys2Proof.Claims

/-- 15 R225 to R227, R232, R235, R236: `GANGSET` writes `GANG` or raises the trap of R226; `MMA` arrives at the latch with its operands,
whether or not a lane is active; `MMAW` waits until no `MMA` of its group is uncommitted, and then places the writes of the group's
operations, in issue order, after which it has nothing more to wait for. Where another group has changed an element since the commit,
the flags and the count of its row's group follow the value on which it acts now (03 R56, R58).
Where the manual is open it follows the model: logs 9, 15, 19, 76. -/
def Obligations.GangsAndArrivals : Prop :=
  ∀ (s : State) (g : Guard) (pair : Bool) (mode : MmaMode) (bt reuse : Bool) (la : Fin 16) (d a b c : Opd),
    (s.ReadyAs matrixOnly [a] →
      (s.act g = [] → OwnStep (.gangset g pair a) s s.seen)
        ∧ (s.act g ≠ [] → ¬ gangWrong s (groupVal s g a) pair →
          OwnStep (.gangset g pair a) s
            { s.seen with gang := groupVal s g a ||| (if pair then BitVec.ofNat 64 (2 ^ 35) else 0), latch := none })
        ∧ (s.act g ≠ [] → gangWrong s (groupVal s g a) pair →
          exec (.gangset g pair a) s = .next ((aged s).trap .illegalOperand)))
      ∧ (s.ReadyAs matrixOnly [d, a, b, c] → exec (.mma g mode bt reuse la d a b c) s = .next ((aged s).setMe
          { s.seen with arrival := some { pc := s.seen.cur, word := s.word, mode := mode, bt := bt, reuse := reuse,
                                          a := a, b := b, c := c, d := d, act := s.act g } }))
      ∧ (s.ReadyAs matrixOnly [] →
        (s.act g = [] → OwnStep (.mmaw g) s s.seen)
          ∧ (s.act g ≠ [] → (aged s).inFlight s.focus = true → exec (.mmaw g) s = .next s)
          ∧ (s.act g ≠ [] → (aged s).inFlight s.focus = false →
            let old := s.team s.me.team
            let x := layAll s.focus s.tick old.ops old.accAt
            ∃ t, exec (.mmaw g) s = .next t ∧ t = { s with groups := t.groups, teams := t.teams }
              ∧ (∀ k, k ≠ s.me.team → t.team k = s.team k)
              ∧ (∀ j, j ≠ s.focus → t.grp j = corrected j (s.grp j) x.fixes)
              ∧ { t.team s.me.team with acc := [], ops := [] } = { old with acc := [], ops := [] }
              ∧ (∀ k, (t.team s.me.team).accAt k = x.acc k)
              ∧ (∀ o ∈ (t.team s.me.team).ops, ¬ owes s.focus o)
              ∧ (∀ m, (.mma m ∈ old.ops → .mma m ∈ (t.team s.me.team).ops)
                ∧ (.settled m ∈ old.ops → s.focus ∉ m.groups → .settled m ∈ (t.team s.me.team).ops))
              ∧ GroupEffect s t { corrected s.focus s.seen x.fixes with areads := [] } noReg [] []
                ((x.fixes.filter fun c => c.group == s.focus).foldl (fun m c => m ||| c.flags) 0)))

namespace Sys2Proof.Claims

/-- A row of A: which lane of which group, the accumulator element of its first column, and the words of A (15 R226, R230, R233). -/
def rowOf (t : Team) (xs : List Arrived) (fw : BitVec 32) (x : Arrived) (as : List (List Word)) (l : Nat) : MmaRow :=
  let q := (((xs.filter fun y => y.grp.core == x.grp.core).map Arrived.key).idxOf x.key)
  { group := x.key, lane := l, core := x.grp.core
    base := (x.grp.core - t.core) * 32768 + fwHalf fw * 16384 + (16 * fwBase fw + 16 * fwTiles fw * (32 * q + l))
    src := if x.grp.latch = none then some x.arr.a else none, a := as.getD l [] }

/-- Column c of a tile of B: the kept positions with their patterns and scales; out of bounds the fill with its own (15 R231). -/
def columnOf (fw : BitVec 32) (t : Tile) (c : Nat) : List BElem :=
  (if fwSp fw = 0 then List.range 16 else t.keep.getD c []).map fun k =>
    let i := if fwOrient fw then 16 * c + k else 16 * k + c
    if t.oob.getD i false then ⟨k, t.fill, t.fscale⟩
    else ⟨k, t.pats.getD i 0, if fwBscl fw then t.scales.getD (i / 32) 0 else 127⟩

/-- Every element of `w` bits of `z` is that of `x` or that of `y`. -/
def EachOf (w : Nat) (z x y : Word) : Prop := ∀ i, i < 64 / w → elem z i w = elem x i w ∨ elem z i w = elem y i w

/-- What an arrived group holds once the `MMA` is accepted: its latch, the registers in flight, and its progress. -/
def GoesOn (fw : BitVec 32) (x : Arrived) (as : List (List Word)) (g h : Group) : Prop :=
  h = { g with
      threads := h.threads, cur := h.cur, pending := h.pending, arrival := none
      latch := if x.arr.reuse then some { fmt := fmtAt (fwAfmt fw), ascl := fwAscl fw, words := as } else none
      areads := g.areads ++ x.areads fw }
    ∧ WentOn g h ∧ PredsKept g h

/-- The gang of an operation: its groups, and the operands that they brought. -/
structure Accepted (xs : List Arrived) (x0 : Arrived) (s : State) (fw : BitVec 32) (as : List (List (List Word)))
    (cols : List (Nat × List (List BElem))) (op : MmaOp) : Prop where
  groups : op.groups = xs.map Arrived.key
  word : op.fw = fw
  mode : op.mode = x0.arr.mode
  scalar : op.scalar = (x0.grp.rd x0.arr.d 0).setWidth 32
  rows : op.rows = (xs.zip as).flatMap fun z => z.1.arr.act.map (rowOf (s.team x0.grp.team) xs fw z.1 z.2)
  cols : op.cols = cols
  operandB : op.bt = x0.arr.bt ∧ op.b = x0.grp.rd x0.arr.b 0 ∧ op.seen = s.past.length
  touched : op.touched = []
  used : op.used = []

end Sys2Proof.Claims

/-- 15 R228 to R234, 07 R101: `JOINT_MMA`: nothing happens until every group of the gang has arrived; a gang with an ended group, or
with a bad format word or operand, raises the illegal-operand trap in every group, and one that disagrees the divergence trap. A fault
of B parks the gang with one record. Otherwise the operation is accepted: its rows hold the active lanes' words of A, of which each
element is its present value or the one of the last `OFENCE`; its columns are those of the tiles of B, as they are when nothing has been
written since the `OFENCE`, or, before the first one, when the group itself has written nothing; the groups go on. Reading both operands at this point is the model's choice (log 12).
Where the manual is open it follows the model: logs 9, 12, 15, 75, 81, 82. -/
def Obligations.JointOperations : Prop :=
  ∀ (s : State) (k : Nat),
    let i := Instr.jointMma k
    let ks := (s.grp k).gangKeys
    let xs := s.arrivedOf ks
    let fws := xs.flatMap Arrived.formats
    let fw := fws.headD 0
    let joins := (s.grp k).arrival.isSome = true ∧ s.gangLive ks = true ∧ (∀ j ∈ ks, (s.grp j).status ≠ .ended)
      ∧ xs.length = ks.length
    (((s.grp k).arrival = none ∨ s.gangLive ks = false) → exec i s = .next s)
      ∧ ((s.grp k).arrival.isSome = true → s.gangLive ks = true → (∃ j ∈ ks, (s.grp j).status = .ended) →
        exec i s = .next (s.trapAll xs .illegalOperand))
      ∧ ((s.grp k).arrival.isSome = true → s.gangLive ks = true → (∀ j ∈ ks, (s.grp j).status ≠ .ended) →
        xs.length ≠ ks.length → exec i s = .next s)
      ∧ ∀ x0 rest, xs = x0 :: rest → joins →
        ((¬ ((∀ x ∈ xs, x0.agrees x = true) ∧ ∀ w ∈ fws, w = fw) → exec i s = .next (s.trapAll xs .divergence))
          ∧ ((∀ x ∈ xs, x0.agrees x = true) → (∀ w ∈ fws, w = fw) →
            (fws = [] → (xs.map Arrived.key).Nodup → ∃ t, exec i s = .next t ∧ t = { s with groups := t.groups }
              ∧ (∀ j, j ∉ xs.map Arrived.key → t.grp j = s.grp j)
              ∧ ∀ x ∈ xs, t.grp x.key = (s.grp x.key).accepted)
            ∧ (fws ≠ [] → (formatBad (s.team x0.grp.team) xs fw x0.arr.mode = true
                ∨ (x0.arr.bt = false ∧ offsetOk (x0.grp.rd x0.arr.b 0) = false) ∨ ∃ x ∈ xs, x.operandA fw = none) →
              exec i s = .next (s.trapAll xs .illegalOperand))
            ∧ (fws ≠ [] → formatBad (s.team x0.grp.team) xs fw x0.arr.mode = false →
              (x0.arr.bt = true ∨ offsetOk (x0.grp.rd x0.arr.b 0) = true) → (xs.map Arrived.key).Nodup →
              ∀ as, xs.map (fun x => x.operandA fw) = as.map some →
                (∀ z ∈ xs.zip as, z.1.grp.latch = none → ∀ l, l < 32 → ∀ n, n < aCount fw →
                  EachOf (aWidth fw n) ((z.2.getD l []).getD n 0) (z.1.grp.rdRaw (z.1.arr.a.plus n) l)
                    (z.1.grp.placedRd (z.1.arr.a.plus n) l))
                ∧ ∀ s1 r, s.readBs xs fw x0.arr.bt (x0.grp.rd x0.arr.b 0) (x0.grp.rd (x0.arr.b.plus 1) 0)
                  (x0.grp.rd (x0.arr.b.plus 2) 0) (gangCores xs) = (s1, r) →
                  match r with
                  | .ok cols =>
                    (∀ c s2 tiles, gangCores xs = [c] →
                      (∀ p ∈ s.since x0.grp.placed.past, x0.grp.placed.fenced = false ∧ p.writer ≠ .group x0.key) →
                      s.readB x0.grp fw x0.arr.bt (x0.grp.rd x0.arr.b 0) (x0.grp.rd (x0.arr.b.plus 1) 0)
                        (x0.grp.rd (x0.arr.b.plus 2) 0) = (s2, .ok tiles) →
                      cols = [(c, tiles.flatMap fun t => (List.range 16).map (columnOf fw t))])
                    ∧ ∃ t op, exec i s = .next t
                      ∧ t = { s1 with groups := t.groups, teams := t.teams }
                      ∧ (s.Sound → MemKept s t nowhere)
                      ∧ (∀ j, j ∉ xs.map Arrived.key → t.grp j = s.grp j) ∧ (∀ j, j ≠ x0.grp.team → t.team j = s.team j)
                      ∧ t.team x0.grp.team = { s.team x0.grp.team with ops := (s.team x0.grp.team).ops ++ [.mma op] }
                      ∧ Accepted xs x0 s fw as cols op
                      ∧ ∀ z ∈ xs.zip as, GoesOn fw z.1 z.2 (s.grp z.1.key) (t.grp z.1.key)
                  | .error e =>
                    let grid := (s.team x0.grp.team).grid
                    match tileRecord x0.arr.pc grid (s.identOf x0.grp) x0.arr.act (if x0.arr.bt then 5 else 1) e with
                    | none => exec i s = .next s
                    | some rec_ =>
                      ∃ u, exec i s = .next (u.post (partOf grid) false { rec_ with report := some (grid, x0.grp.core) })
                        ∧ u = { s1 with groups := u.groups } ∧ (s.Sound → MemKept s u nowhere)
                        ∧ (∀ j, j ∉ xs.map Arrived.key → u.grp j = s.grp j)
                        ∧ ∀ x ∈ xs, u.grp x.key = { (s.grp x.key).closeWindows with
                            arrival := none, status := .parked (.fault (xs.map Arrived.key)) })))

namespace Sys2Proof.Claims

/-- The flags of some rows' elements, where each acts on the value `old`. -/
def rowFlags (o : MmaOp) (j : Nat) (old : Nat → Nat → BitVec 32) : BitVec 32 :=
  ((targets o).filter fun e => e.1.group == j).foldl (fun m e => m ||| (elementAfter o e.1 e.2.1 (old e.1.group e.2.2)).2) 0

/-- The elements of some rows that become NaN. -/
def rowNans (o : MmaOp) (j : Nat) (old : Nat → Nat → BitVec 32) : Nat :=
  ((targets o).filter fun e => e.1.group == j && !fwInt o.fw && !isNan32 (old e.1.group e.2.2)
    && isNan32 (elementAfter o e.1 e.2.1 (old e.1.group e.2.2)).1).length

end Sys2Proof.Claims

/-- 15 R233 to R237, 03 R47 to R50, R56: `MMA_COMMIT`: each row's flags and new NaNs go to its group, and the operation is committed; no
element of the accumulator store changes before a group of the gang executes `MMAW`. Each element acts on the accumulator as the
operations before it leave it, or on the value that a touch took it from. The operands are those of the acceptance, unless a register
or a byte of them has been written since by a group of the gang. An operation behind an earlier one of a common group waits, and so does one of a team on a
frozen core.
Where the manual is open it follows the model: logs 12, 13, 18, 76. -/
def Obligations.MatrixCommits : Prop :=
  ∀ (s : State) (tk n : Nat) (o : MmaOp), (s.team tk).ops[n]? = some (.mma o) →
    let t0 := s.team tk
    let waits := oldestOf t0.ops n o = false ∨ ∃ c ∈ t0.cores, (s.core c).frozen = true
    let o1 := s.lateOp o
    let old := fun g k => o1.oldAt t0 (t0.ops.take n) g k
    let o' := { o1 with used := (targets o1).map fun e => (e.2.2, old e.1.group e.2.2) }
    (waits → exec (.mmaCommit tk n) s = .next s)
      ∧ (¬ waits →
        (∃ t, exec (.mmaCommit tk n) s = .next t ∧ t = { s with groups := t.groups, teams := t.teams }
          ∧ (∀ j, j ≠ tk → t.team j = s.team j)
          ∧ t.team tk = { t0 with ops := t0.ops.set n (.settled o') }
          ∧ (∀ j, (s.grp j).status ≠ .ended →
            t.grp j = { s.grp j with flags := (t.grp j).flags, nancnt := (t.grp j).nancnt }
              ∧ (t.grp j).flags = (s.grp j).flags ||| rowFlags o' j old
              ∧ (t.grp j).nancnt.toNat = min 0xFFFFFFFF ((s.grp j).nancnt.toNat + rowNans o' j old))
          ∧ ∀ j, (s.grp j).status = .ended → t.grp j = s.grp j)
        ∧ (o'.groups = o.groups ∧ o'.fw = o.fw ∧ o'.mode = o.mode ∧ o'.scalar = o.scalar ∧ o'.touched = o.touched)
        ∧ ((∀ r ∈ o.rows, r.src = none) → (o.bt = true ∨ ∀ p ∈ s.since o.seen, ∀ g ∈ o.groups, p.writer ≠ .group g) → o1 = o)
        ∧ ∀ g k, o.touched = [] → (∀ p ∈ t0.ops.take n, p.covers g k = false ∧ ∀ m vals, p ≠ .folded m vals) → old g k = t0.accAt k)

namespace Sys2Proof.Claims

/-- The key of element j of lane l. -/
def accElem (s : State) (w : AccAddr) (l j : Nat) : Nat :=
  accKey (s.team s.me.team) s.me.core w.half (w.idx + w.stride * l + j)

/-- (l, j) of every element that an accumulator transfer reaches, lane by lane (15 R238). -/
def accReach (act : List Nat) (w : AccAddr) : List (Nat × Nat) :=
  act.flatMap fun l => (List.range (w.cnt + 1)).map fun j => (l, j)

/-- No uncommitted or unwaited `MMA` of the group covers one of them (07 R102). -/
def untouched (s : State) (act : List Nat) (w : AccAddr) : Prop :=
  ∀ p ∈ accReach act w, ∀ o ∈ (s.team s.me.team).ops, o.covers s.focus (accElem s w p.1 p.2) = false

/-- The accumulator after the elements take `f l j` in order. -/
def accWritten (s : State) (act : List Nat) (w : AccAddr) (f : Nat → Nat → BitVec 32) (k : Nat) : BitVec 32 :=
  (accReach act w).foldl (fun x p => if accElem s w p.1 p.2 = k then f p.1 p.2 else x) ((s.team s.me.team).accAt k)

/-- An instruction that writes accumulator elements and nothing else. -/
def AccWrite (i : Instr) (s : State) (b : Group) (act : List Nat) (w : AccAddr) (f : Nat → Nat → BitVec 32) (fl : BitVec 32) :
    Prop :=
  ∃ t, exec i s = .next t ∧ OnlyTeam s t
    ∧ t.team s.me.team = { s.team s.me.team with acc := (t.team s.me.team).acc }
    ∧ (∀ k, (t.team s.me.team).accAt k = accWritten s act w f k) ∧ GroupEffect s t b noReg [] [] fl

/-- Registers d, d + 1, … with m sub-elements of c bits each: sub-element j mod m of d + j div m takes `val l j` in the active
lanes, and every other bit of every register stays. -/
def ElemsPlaced (s t : State) (r : Fin 320) (m c cnt : Nat) (act : List Nat) (val : Nat → Nat → Nat) : Prop :=
  (∀ l ∈ act, ∀ j, j ≤ cnt → elem (t.me.rdRaw ((Opd.v r).plus (j / m)) l) (j % m) c = val l j % 2 ^ c)
    ∧ (∀ l ∈ act, ∀ j, cnt < j → j / m ≤ cnt / m → elem (t.me.rdRaw ((Opd.v r).plus (j / m)) l) (j % m) c
        = elem (s.seen.rdRaw ((Opd.v r).plus (j / m)) l) (j % m) c)
    ∧ (∀ (q : Fin 320) (l : Nat), l < 32 → (l ∉ act ∨ q.val < r.val ∨ r.val + cnt / m < q.val) → t.me.vread q l = s.seen.vread q l)
    ∧ ∀ n : Fin 64, t.me.sread n = s.seen.sread n

/-- An instruction that reads accumulator elements into registers. -/
def AccRead (i : Instr) (s : State) (b : Group) (r : Fin 320) (m c : Nat) (act : List Nat) (w : AccAddr)
    (val : Nat → Nat → Nat) (fl : BitVec 32) : Prop :=
  ∃ t, exec i s = .next t ∧ OnlyGroup s t ∧ GroupRest b t.me ∧ WentOn s.seen t.me ∧ PredsKept s.seen t.me
    ∧ t.me.flags = s.seen.flags ||| fl ∧ ElemsPlaced s t r m c w.cnt act val

/-- The present value of an element. -/
def accNow (s : State) (w : AccAddr) (l j : Nat) : BitVec 32 := (s.team s.me.team).accAt (accElem s w l j)

/-- Some pairs counted. -/
def countPairs (ps : List (Nat × Nat)) (f : Nat → Nat → Bool) : Nat := (ps.filter fun p => f p.1 p.2).length

/-- The OR of flags over some pairs. -/
def orPairs (ps : List (Nat × Nat)) (f : Nat → Nat → BitVec 32) : BitVec 32 := ps.foldl (fun m p => m ||| f p.1 p.2) 0

/-- An element scaled by c (15 R238). -/
def scaledBy (c old : BitVec 32) : BitVec 32 × BitVec 32 :=
  let p := productOf ⟨.f32x2, .rn, false⟩ (value .f32 c.toNat) (value .f32 old.toNat)
  (BitVec.ofNat 32 p.1, p.2)

/-- The elements of some pairs, each once. -/
def accKeys (s : State) (w : AccAddr) (ps : List (Nat × Nat)) : List Nat := (ps.map fun p => accElem s w p.1 p.2).eraseDups

/-- The team's accumulator with the folded `ACCMERGE`s on some elements placed, since a read-modify-write of them follows (15 R236). -/
def laidOn (s : State) (ks : List Nat) : Laid :=
  ks.foldl (layEarly s.tick) ⟨(s.team s.me.team).accAt, (s.team s.me.team).ops, []⟩

/-- The accumulator and the flags after `ACCSCL` has scaled the elements of some pairs, lane after lane; `c l` is lane l's scalar. An
open `ACCMERGE` on one acts after it (15 R236). -/
def scaledAll (s : State) (w : AccAddr) (c : Nat → BitVec 32) (ps : List (Nat × Nat)) : Laid × BitVec 32 :=
  ps.foldl (fun x p =>
    let k := accElem s w p.1 p.2
    let r := scaledBy (c p.1) (x.1.acc k)
    (({ x.1 with ops := rebase [(k, r.1)] x.1.ops } : Laid).put k r.1, x.2 ||| r.2)) (laidOn s (accKeys s w ps), 0)

end Sys2Proof.Claims

/-- 15 R223, R236, R238, R239, 03 R56, R58: `ACCZ`, `ACCLD.in`, `ACCLD.out`, `ACCST` and `ACCSCL` on elements that no unwaited `MMA`
covers, with no active lane too; a bad address word, or a run of registers past the allocation, raises the illegal-operand trap. An
element that several lanes of an `ACCSCL` name is scaled by each, in lane order (log 14), and counts once in `NANCNT`.
Where the manual is open it follows the model: logs 9, 14. -/
def Obligations.AccumulatorTransfers : Prop :=
  ∀ (s : State) (g : Guard) (r : Fin 320) (a b : Opd) (dst : Fmt) (srcInt sat : Bool) (rm : RMode),
    let old := s.team s.me.team
    let traps := fun i => exec i s = .next ((aged s).trap .illegalOperand)
    (old.accAddr (groupVal s g a) = none →
      (s.ReadyAs matrixOnly [a] → traps (.accz g a))
        ∧ (s.ReadyAs matrixOnly [a, b] → traps (.accscl g a b))
        ∧ (s.ReadyAs matrixOnly [.v r, a] → ∀ out, traps (.accld g out (.v r) a) ∧ traps (.accst g dst srcInt sat rm (.v r) a)))
      ∧ ∀ w, old.accAddr (groupVal s g a) = some w →
        (s.ReadyAs matrixOnly [.v r, a] →
          (s.seen.hasRun (.v r) (w.cnt / 2 + 1) = false → ∀ out, traps (.accld g out (.v r) a))
            ∧ (s.seen.hasRun (.v r) (w.cnt / (64 / dst.cell) + 1) = false → traps (.accst g dst srcInt sat rm (.v r) a)))
        ∧ (untouched s (s.act g) w →
          (s.ReadyAs matrixOnly [a] → AccWrite (.accz g a) s s.seen (s.act g) w (fun _ _ => 0) 0)
          ∧ (s.ReadyAs matrixOnly [.v r, a] → s.seen.hasRun (.v r) (w.cnt / 2 + 1) = true →
            AccWrite (.accld g false (.v r) a) s s.seen (s.act g) w
                (fun l j => BitVec.ofNat 32 (elem (s.seen.rd ((Opd.v r).plus (j / 2)) l) (j % 2) 32)) 0
              ∧ AccRead (.accld g true (.v r) a) s s.seen r 2 32 (s.act g) w (fun l j => (accNow s w l j).toNat) 0)
          ∧ (s.ReadyAs matrixOnly [.v r, a] → s.seen.hasRun (.v r) (w.cnt / (64 / dst.cell) + 1) = true →
            let res := fun l j => roundTo dst (value (if srcInt then .int32 else .f32) (accNow s w l j).toNat) rm sat
            AccRead (.accst g dst srcInt sat rm (.v r) a) s
              (if dst.width < 32 then { s.seen with satcnt := BitVec.ofNat 32 (min (s.seen.satcnt.toNat
                + countPairs (accReach (s.act g) w) fun l j => (res l j).2 &&& FLAG.saturated != 0) 0xFFFFFFFF) } else s.seen)
              r (64 / dst.cell) dst.cell (s.act g) w (fun l j => (res l j).1) (orPairs (accReach (s.act g) w) fun l j => (res l j).2))
          ∧ (s.ReadyAs matrixOnly [a, b] →
            let c := fun l => (s.seen.rd b l).setWidth 32
            let ps := accReach (s.act g) w
            let x := scaledAll s w c ps
            ∃ t, exec (.accscl g a b) s = .next t ∧ OnlyTeam s t
              ∧ { t.team s.me.team with acc := [] } = { old with acc := [], ops := x.1.ops }
              ∧ (∀ k, (t.team s.me.team).accAt k = x.1.acc k)
              ∧ GroupEffect s t { s.seen with nancnt := BitVec.ofNat 32 (min (s.seen.nancnt.toNat
                  + ((accKeys s w ps).filter fun k => isNan32 (x.1.acc k) && !isNan32 ((laidOn s (accKeys s w ps)).acc k)).length) 0xFFFFFFFF) } noReg [] [] x.2))

namespace Sys2Proof.Claims

/-- The rights that an `ACCMERGE` needs of its area. -/
def mergeNeed : Need := { r := true, w := true }

/-- The header of a merge area that an `ACCMERGE` of the group names: aligned and read (15 R241). -/
structure MergeHead (s : State) (area : Word) (s2 : State) (bs : List Byte) : Prop where
  aligned : area.toNat % 64 = 0
  read : ∃ s1 hw, (aged s).translateRange s.seen.core s.myPart mergeNeed area.toNat 64 = (s1, .ok hw)
    ∧ s1.piecesRead (hw.map fun x => (x.1.pa, x.2)) = (s2, some bs)

/-- The extent of an area whose header is `h` (15 R240). -/
def mergeExtent (h : Nat) : Nat := 64 + 128 * (h / 2 ^ 24 % 16 + 1)

/-- The header is good for chunk `c` of an address word with `cnt` (15 R241). -/
def headerGood (h c cnt : Nat) : Prop :=
  h / 2 ^ 28 % 2 ^ 36 = 0 ∧ h / 2 ^ 19 % 32 = 0 ∧ h % 256 ≠ 0 ∧ c < h % 256 ∧ h / 256 % 256 ≤ c ∧ h / 2 ^ 24 % 16 = cnt

/-- The new data of a folded element (15 R241). -/
def foldedData (h chunk : Nat) (data p : BitVec 32) : BitVec 32 × BitVec 32 :=
  if chunk = 0 ∧ h / 2 ^ 16 % 2 = 0 then (p, 0)
  else if h / 2 ^ 17 % 2 = 1 then
    (data + p, if data.toInt + p.toInt < -2 ^ 31 ∨ 2 ^ 31 - 1 < data.toInt + p.toInt then FLAG.overflow else 0)
  else
    let r := sumOf ⟨.f32x2, .rn, false⟩ (value .f32 data.toNat) (value .f32 p.toNat)
    (BitVec.ofNat 32 r.1, r.2)

/-- Element i of the data of an area. -/
def areaElem (bs : List Byte) (i : Nat) : BitVec 32 := BitVec.ofNat 32 (leNat ((bs.drop (64 + 4 * i)).take 4))

/-- The bytes of physical pieces, in order. -/
def mergeKeys (ps : List (Nat × Nat)) : List Nat := ps.flatMap fun e => (List.range e.2).map (e.1 + ·)

/-- The record of a merge area's fault names an atomic access of every active lane (15 R241). -/
def areaFault (s : State) (g : Guard) (reason addr : Nat) : MemFault :=
  { lanes := s.act g, access := 2, lane := (s.act g).headD 0, space := 4, reason := reason, addr := addr }

/-- The merge areas in use once an `ACCMERGE` on the area at `pa` is accepted (15 R240). -/
def areasOpened (s : State) (pa : Nat) (pieces : List (Nat × Nat)) (next : Nat) : List MergeArea :=
  if (∃ x ∈ s.areas, x.pa = pa) ∧ (s.areaBusy pa = true ∨ next ≠ 0) then s.areas
  else ⟨pa, pieces, s.past.length⟩ :: s.areas.filter fun x => x.pa != pa

/-- `ACCMERGE` whose address word is `w`, with the area and the chunk that its operands name. -/
def MergeStep (i : Instr) (s : State) (g : Guard) (w : AccAddr) (area : Word) (chunk : Nat) : Prop :=
  let old := s.team s.me.team
  (area.toNat % 64 ≠ 0 → AccessFaults i s (areaFault s g 5 area.toNat))
    ∧ (area.toNat % 64 = 0 →
      (∀ u e, (aged s).translateRange s.seen.core s.myPart mergeNeed area.toNat 64 = (u, .error e) →
        AccessFaults i s (areaFault s g e.2 e.1))
      ∧ ∀ u hw u', (aged s).translateRange s.seen.core s.myPart mergeNeed area.toNat 64 = (u, .ok hw) →
        u.piecesRead (hw.map fun x => (x.1.pa, x.2)) = (u', none) → AccessFaults i s (areaFault s g 6 area.toNat))
    ∧ ∀ s2 bs, MergeHead s area s2 bs →
      let h := leNat (bs.take 8)
      (∀ u e, s2.translateRange s.seen.core s.myPart mergeNeed area.toNat (mergeExtent h) = (u, .error e) →
        AccessFaults i s (areaFault s g e.2 e.1))
      ∧ ∀ s3 ws, s2.translateRange s.seen.core s.myPart mergeNeed area.toNat (mergeExtent h) = (s3, .ok ws) →
        (¬ headerGood h chunk w.cnt → exec i s = .next ((aged s).trap .illegalOperand))
          ∧ (headerGood h chunk w.cnt → untouched s (List.range 32) w →
            ∃ t, exec i s = .next t
              ∧ t = { s with groups := t.groups, teams := t.teams, mem := t.mem, bad := t.bad, sectors := t.sectors
                             counters := t.counters, areas := t.areas }
              ∧ t.areas = areasOpened s ((ws.map fun x => x.1.pa).headD 0) (ws.map fun x => (x.1.pa, x.2)) (h / 256 % 256)
              ∧ (s.Sound → MemKept s t nowhere) ∧ (∀ k, k ≠ s.focus → t.grp k = s.grp k)
              ∧ (∀ k, k ≠ s.me.team → t.team k = s.team k)
              ∧ (let x := laidOn s (accKeys s w (accReach (List.range 32) w))
                { t.team s.me.team with acc := [] } = { old with acc := [], ops := x.ops ++ [.merge
                  { group := s.focus, area := area, pieces := ws.map fun x => (x.1.pa, x.2), part := s.myPart, chunk := chunk
                    elems := (accReach (List.range 32) w).map fun p => (accElem s w p.1 p.2, x.acc (accElem s w p.1 p.2))
                    hits := [], folded := 0 }] }
                ∧ ∀ k, (t.team s.me.team).accAt k = x.acc k)
              ∧ GroupEffect s t s.seen noReg [] [] 0)

/-- What a fold writes over its area: `next` advanced, the rest of the header, and the new data (15 R241). -/
def foldedBytes (bs : List Byte) (chunk : Nat) (ys : List (BitVec 32)) : List Byte :=
  bs.mapIdx fun i x => if i = 1 then BitVec.ofNat 8 (chunk + 1) else if i < 64 then x
    else (ys.getD ((i - 64) / 4) 0).extractLsb' (8 * ((i - 64) % 4)) 8

/-- An open `ACCMERGE` on the area of `o` whose chunk is folded with `o`'s. -/
def isPassed (o m : MergeOp) : Prop := m.place = o.place ∧ m.chunk ≤ o.chunk

/-- After a fold the chunks that `next` has passed are discarded, of whatever team (15 R242): `err` of the header becomes 1 where it can be
read and written. -/
structure Passed (sound : Prop) (u t : State) (o : MergeOp) : Prop where
  only : t = { u with teams := t.teams, mem := t.mem, bad := t.bad, sectors := t.sectors, counters := t.counters }
  rest : ∀ k, { t.team k with ops := [] } = { u.team k with ops := [] }
  left : ∀ k m, .merge m ∈ (t.team k).ops ↔ .merge m ∈ (u.team k).ops ∧ ¬ isPassed o m
  others : ∀ k x, (∀ m, x ≠ .merge m) → x ∈ (u.team k).ops → x ∈ (t.team k).ops
  kept : (∀ k m, .merge m ∈ (u.team k).ops → ¬ isPassed o m) → t = u
  bytes : sound → ∀ p, u.isMem p → p ≠ o.place + 2 → t.memByte p = u.memByte p
  err : sound → (∃ k m, .merge m ∈ (u.team k).ops ∧ isPassed o m) → ∀ s2 hs, u.physRead o.place 8 = (s2, some hs) →
    (s2.physWrite o.place (leBytes 8 (headerErr (leNat hs)))).2 = true → t.memByte (o.place + 2) = u.memByte (o.place + 2) ||| 4

/-- The fold of an operation whose area holds `bs`: `t` is the state after it but for the chunks that `next` has passed. -/
def FoldStep (s : State) (tk n : Nat) (o : MergeOp) (bs : List Byte) : Prop :=
  let h := leNat (bs.take 8)
  let keys := o.elems.map Prod.fst
  ∃ t z : State, exec (.accmergeFold tk n) s = .next z ∧ Passed s.Sound t z o
    ∧ (let res := fun i => foldedData h o.chunk (areaElem bs i) ((o.elems.map Prod.snd).getD i 0)
      let m := o.elems.length
      let vals := (List.range m).map fun i => (keys.getD i 0, (res i).1)
      let last := fun (xs : List (Nat × BitVec 32)) k => ((xs.reverse.find? fun e => e.1 == k).map Prod.snd).getD 0
      t = { s with groups := t.groups, teams := t.teams, mem := t.mem, bad := t.bad, sectors := t.sectors
                   counters := t.counters, areas := t.areas }
      ∧ (∀ k, k ≠ tk → t.team k = s.team k)
      ∧ (o.elems ≠ [] → t.team tk = { s.team tk with ops := rebase vals ((s.team tk).ops.set n (.folded { o with folded := s.tick } vals)) })
      ∧ (∀ x ∈ t.areas, x.pa ≠ o.place → x ∈ s.areas) ∧ (∀ x ∈ s.areas, x.pa ≠ o.place → x ∈ t.areas)
      ∧ (∀ x, x.pa = o.place → (x ∈ t.areas ↔ o.chunk + 1 ≠ h % 256 ∧ x = ⟨o.place, o.pieces, s.past.length⟩))
      ∧ (∀ k, k ≠ o.group → t.grp k = s.grp k)
      ∧ ((s.grp o.group).status ≠ .ended →
        t.grp o.group = { s.grp o.group with
          flags := (s.grp o.group).flags ||| orAll m fun i => (res i).2
          nancnt := BitVec.ofNat 32 (min ((s.grp o.group).nancnt.toNat + (if h / 2 ^ 17 % 2 = 1 then 0
            else (keys.eraseDups.filter fun k => isNan32 (last vals k) && !isNan32 (last o.elems k)).length)) 0xFFFFFFFF) })
      ∧ (s.Sound → (∀ p, s.isMem p → p ∉ mergeKeys o.pieces → t.memByte p = s.memByte p)
        ∧ (bs.length = 64 + 4 * m → ∀ p, s.isMem p →
          t.memByte p = poke s.memByte (mergeKeys o.pieces) (foldedBytes bs o.chunk ((List.range m).map fun i => (res i).1)) p)))

/-- A chunk that is not folded (15 R242): the operation is gone, or leaves the values of the `MMA`s that it overtook, and `err` of the
header at `p` becomes 1 where that can be read and written. -/
def Discards (s s1 t : State) (tk n : Nat) (o : MergeOp) : Prop :=
  t = { s with teams := t.teams, mem := t.mem, bad := t.bad, sectors := t.sectors, counters := t.counters }
    ∧ (∀ k, k ≠ tk → t.team k = s.team k)
    ∧ { t.team tk with ops := [] } = { s.team tk with ops := [] }
    ∧ (t.team tk).ops = (if o.hits = [] then (s.team tk).ops.eraseIdx n
      else (s.team tk).ops.set n (.folded { o with hits := [], folded := s.tick } o.hits))
    ∧ (s.Sound → ∀ q, s.isMem q → q ≠ o.place + 2 → t.memByte q = s.memByte q)
    ∧ (s.Sound → ∀ s2 hs, s1.physRead o.place 8 = (s2, some hs) →
      (s2.physWrite o.place (leBytes 8 (headerErr (leNat hs)))).2 = true →
      t.memByte (o.place + 2) = s.memByte (o.place + 2) ||| 4)

end Sys2Proof.Claims

/-- 15 R223, R236, R240 to R242: `ACCMERGE` with a good area and header reads its partials and is accepted; a bad word or header traps,
and a fault of the area parks the group. The fold waits until `next` is its chunk, then writes the data, advances `next`, and credits
the group's flags and `NANCNT`; the elements take the new values at the group's next `MMAW`. A chunk that `next` has passed is discarded
with `err` set, and so are those that a fold passes. After an early write to an area its data bytes are free values from the next step on,
and no other byte changes.
Where the manual is open it follows the model: logs 9, 13, 16, 76, 77, 87. -/
def Obligations.SplitKMerges : Prop :=
  ∀ (s : State) (g : Guard) (la : Fin 16) (a b c : Opd),
    let i := Instr.accmerge g la a b c
    (s.settleAreas = { s with mem := s.settleAreas.mem, bad := s.settleAreas.bad, areas := s.settleAreas.areas }
        ∧ (s.Sound → ∀ p, s.isMem p →
          (¬ ∃ x ∈ s.areas, (∃ w ∈ s.since x.past, ∃ e ∈ w.old, ∃ q ∈ x.pieces, q.1 ≤ e.1 ∧ e.1 < q.1 + q.2)
            ∧ p ∈ (mergeKeys x.pieces).drop 64) →
          s.settleAreas.memByte p = s.memByte p))
      ∧ (s.ReadyAs matrixOnly [a, b, c] →
      ((s.team s.me.team).accAddr (groupVal s g a) = none → exec i s = .next ((aged s).trap .illegalOperand))
        ∧ ∀ w, (s.team s.me.team).accAddr (groupVal s g a) = some w →
          (s.act g = [] → PassesBy i s)
            ∧ (s.act g ≠ [] → 256 ≤ (groupVal s g c).toNat → exec i s = .next ((aged s).trap .illegalOperand))
            ∧ (s.act g ≠ [] → (groupVal s g c).toNat < 256 → MergeStep i s g w (groupVal s g b) (groupVal s g c).toNat))
      ∧ ∀ tk n o, (s.team tk).ops[n]? = some (.merge o) →
        (∀ s1, s.piecesRead o.pieces = (s1, none) → exec (.accmergeFold tk n) s = .next s)
          ∧ ∀ s1 bs, s.piecesRead o.pieces = (s1, some bs) →
            let next := leNat (bs.take 8) / 256 % 256
            (o.chunk > next → exec (.accmergeFold tk n) s = .next s)
              ∧ (o.chunk < next → ∃ t, exec (.accmergeFold tk n) s = .next t ∧ Discards s s1 t tk n o)
              ∧ (o.chunk = next → FoldStep s tk n o bs)

/-! ## Jobs of the copy engines (17 R248 to R264) -/

namespace Sys2Proof.Claims

/-- Only the feeder role queues jobs (01 R24). -/
def feederOnly (r : Role) : Bool := r == .feeder

/-- The values of n consecutive registers, as a group-level instruction reads them. -/
def groupVals (s : State) (g : Guard) (o : Opd) (n : Nat) : List Word := (List.range n).map fun k => groupVal s g (o.plus k)

/-- A job just queued holds the operands of its instruction (17 R249, R257); a, b and c are runs of `na`, `nb` and `nc` registers. -/
structure JobQueued (s : State) (g : Guard) (k : JobKind) (mods : BitVec 8) (na nb nc : Nat) (d a b c : Opd) (j : Job) : Prop where
  kind : j.live = true ∧ j.kind = k ∧ j.mods = mods ∧ j.node = none
  ctl : j.ctl = groupVal s g d
  status : j.status = if d = .zero then 0 else groupVal s g (d.plus 1)
  a : j.a = groupVals s g a na
  b : j.b = groupVals s g b nb
  c : j.c = groupVals s g c nc
  owner : j.core = s.seen.core ∧ j.team = s.seen.team ∧ j.group = s.seen.index ∧ j.pc = s.seen.cur ∧ j.grid = s.myTeam.grid
    ∧ j.part = partOf s.myTeam.grid
  captured : j.tables = s.myTeam.ct ∧ j.bindings = s.myGrid.bindings
  number : j.num = s.nextJob
  start : j.phase = .queued ∧ j.chunk = 0 ∧ j.count = 0 ∧ j.bad = false ∧ j.ptrs = none
  seen : j.seen = if k = .kvsend ∨ k = .wbcast then s.seen.fenceSys else s.seen.fenceDev

/-- An instruction that queues a job: a bad operand raises the illegal-operand trap; a misaligned address, a status address that
cannot be written and a descriptor's error park the group with their record (17 R249, R251); a full scoreboard stalls it; and
otherwise it completes with its job as the newest one (07 R103). -/
def QueueStep (i : Instr) (s : State) (g : Guard) (k : JobKind) (mods : BitVec 8) (na nb nc : Nat) (d a b c : Opd) : Prop :=
  let u := aged s
  let j := u.newJob s.seen (s.act g) k mods d a b c
  let bad := u.ctlBad j || u.jobBad j || u.outsideSlot j
  let fault := fun access space reason addr => MemFault.mk (s.act g) access ((s.act g).headD 0) space reason addr
  (s.act g = [] → PassesBy i s)
    ∧ (s.act g ≠ [] →
      (bad = true → exec i s = .next (u.trap .illegalOperand))
        ∧ (bad = false → (∃ s1 j', u.jobDescs j = (s1, .ok j') ∧ u.pushBad j' = true) → exec i s = .next (u.trap .illegalOperand))
        ∧ (bad = false → (∀ s1 j', u.jobDescs j = (s1, .ok j') → u.pushBad j' = false) →
          (∀ m, j.misaligned = some m → exec i s = .next (u.memFault (fault m.1 m.2.1 5 m.2.2)))
            ∧ (j.misaligned = none →
              (∀ s1 e, u.statusAt j = (s1, .error e) → AccessFaults i s (fault 1 4 e j.status.toNat))
                ∧ ∀ s1, u.statusAt j = (s1, .ok ()) →
                  (∀ s2 e, u.jobDescs j = (s2, .error e) → TileFaults i s g 5 e)
                    ∧ ∀ s2 j', u.jobDescs j = (s2, .ok j') →
                      (32 ≤ u.sbUsed s.seen.core → exec i s = .next s)
                        ∧ (u.sbUsed s.seen.core < 32 → ∃ t, exec i s = .next t
                          ∧ t = { s with groups := t.groups, jobs := t.jobs, nextJob := s.nextJob + 1, mem := t.mem, bad := t.bad,
                                         sectors := t.sectors, counters := t.counters }
                          ∧ MemKept s t nowhere ∧ (∀ n, n ≠ s.focus → t.grp n = s.grp n)
                          ∧ (∀ n, n ≠ s.nextJob → t.job n = s.job n)
                          ∧ JobQueued s g k mods na nb nc d a b c (t.job s.nextJob)
                          ∧ (t.job s.nextJob).src = j'.src ∧ (t.job s.nextJob).dst = j'.dst
                          ∧ GroupEffect s t s.seen noReg [] [] 0))))

end Sys2Proof.Claims

/-- 17 R249 to R251, R257 to R264, 07 R103: the eight instructions that queue jobs.
Where the manual is open it follows the model: logs 9, 28, 88, 89, 90. -/
def Obligations.JobsQueued : Prop :=
  ∀ (s : State) (g : Guard) (dst src : Space4) (csr keep : Bool) (e : Fin 8) (d a b c : Opd), s.Sound →
    s.ReadyAs feederOnly [d, a, b, c] →
    QueueStep (.cpy g dst src d a b c) s g .cpy (dst.toBits ++ src.toBits ++ 0#4) 1 1 1 d a b c
      ∧ QueueStep (.cpy2d g dst src d a b c) s g .cpy2d (dst.toBits ++ src.toBits ++ 0#4) 1 1 2 d a b c
      ∧ QueueStep (.gather g dst src csr e d a b c) s g .gather
        (dst.toBits ++ src.toBits ++ (BitVec.ofBool csr ++ BitVec.ofNat 3 e.val)) 1 1 3 d a b c
      ∧ QueueStep (.scatter g dst src e d a b c) s g .scatter (dst.toBits ++ src.toBits ++ (0#1 ++ BitVec.ofNat 3 e.val)) 1 1 2 d a b c
      ∧ QueueStep (.xform g keep d a b c) s g .xform (BitVec.ofNat 8 keep.toNat) 1 1 2 d a b c
      ∧ QueueStep (.kvsend g d a b c) s g .kvsend 0 2 1 1 d a b c
      ∧ QueueStep (.wbcast g src d a b c) s g .wbcast (0#2 ++ src.toBits ++ 0#4) 2 1 1 d a b c
      ∧ QueueStep (.ringpush g d a b c) s g .ringpush 0 1 2 1 d a b c

/-- 17 R248, R256, R258, 01 R27: `JOB_START`: the oldest queued job of a core starts when fewer than four are busy, no earlier job
of the core overlaps it, and its ring slot is neither full nor claimed; a job for a ring slot or into the cores of its team does not start
while the team is out; the slot is claimed, and a job whose own ranges overlap runs no chunk. -/
def Sys2Proof.Claims.JobStarts : Prop :=
  ∀ (s : State) (core : Nat),
    let js := s.engineJobs core
    let go := fun n => (js.filter fun m => (s.job m).phase != .queued).length < 4 ∧ s.overlapsEarlier n (s.job n) = false
      ∧ (match (s.job n).ringSlot with
        | some (r, sl) => (s.team (s.job n).team).phase = .resident ∧ (s.team (s.job n).team).ringFull r sl = false
          ∧ (s.team (s.job n).team).ringClaim r sl = false
        | none => (s.team (s.job n).team).phase = .saved → (s.job n).intoCores (s.team (s.job n).team).cores = false)
    ((∀ n ∈ js, (s.job n).phase ≠ .queued) → exec (.jobStart core) s = .next s)
      ∧ ∀ pre n post, js = pre ++ n :: post → (s.job n).phase = .queued → (∀ m ∈ pre, (s.job m).phase ≠ .queued) →
        (¬ go n → exec (.jobStart core) s = .next s)
          ∧ (go n → ∃ t, exec (.jobStart core) s = .next t ∧ t = { s with jobs := t.jobs, teams := t.teams }
            ∧ (∀ m, m ≠ n → t.job m = s.job m)
            ∧ t.job n = { s.job n with phase := if s.jobOverlaps (s.job n) then .failed 4 else .running }
            ∧ ((s.job n).ringSlot = none → t.teams = s.teams)
            ∧ ∀ r sl, (s.job n).ringSlot = some (r, sl) →
              t.team (s.job n).team = (s.team (s.job n).team).setClaim r sl true
                ∧ ∀ k, k ≠ (s.job n).team → t.team k = s.team k)

namespace Sys2Proof.Claims

/-! ### What a job reads and writes (17 R252 to R264, 07 R87, R104) -/

/-- The byte of memory at an address of a space on chip, for a job of a team on its core. -/
def jobCell (s : State) (j : Job) (spc : Space4) (a : Nat) : Nat :=
  match s.jobAt j spc (a % 2 ^ 64) 1 with
  | .cells (k :: _) _ => k
  | _ => 0

/-- The bytes of memory from an address on. -/
def jobCells (s : State) (j : Job) (spc : Space4) (a n : Nat) : List Nat := (List.range n).map fun i => jobCell s j spc (a + i)

/-- A byte on chip of which the job reads the present value: every write to it was made through no virtual address, and stands before the
fence of the job's issuing group (07 R104) or, where the overlap rule compares the byte, comes from a job of the same core that is no
later (17 R248). `loose` holds for the bytes that the rule does not compare (R259). -/
def Settled (s : State) (j : Job) (loose : Bool) (q : Nat) : Prop :=
  ∀ i p, s.past.reverse[i]? = some p → p.touches [q] = true → p.va = none
    ∧ (i < j.seen ∨ (loose = false ∧ j.node = none ∧ ∃ n, n ≤ j.num ∧ p.writer = .job j.core n))

/-- The bytes of translated pieces from virtual address `va` on, as an agent reads them (07 R100, R104). -/
def seenPieces (s : State) (w : Option View) : Nat → List (Where × Nat) → List Byte
  | _, [] => []
  | va, (x, n) :: ws =>
    s.viewed w va x.pa n (((List.range n).map (x.pa + ·)).map s.memByte) ++ seenPieces s w (va + n) ws

/-- Of the package only what serves accesses changes, and memory. -/
def EngineOnly (s t : State) : Prop :=
  t = { s with mem := t.mem, bad := t.bad, sectors := t.sectors, counters := t.counters, past := t.past, clusters := t.clusters }

/-- The same, where memory reads as before. -/
def EngineLooks (s t : State) : Prop := EngineOnly s t ∧ t.past = s.past ∧ MemKept s t nowhere

/-- `bs` are the bytes that a job reads from `addr` on. -/
def Reads (s : State) (j : Job) (spc : Space4) (addr n : Nat) (bs : List Byte) : Prop :=
  (spc = .g → ∃ u ws, EngineLooks s u
      ∧ (u.translateRange j.core j.part Need.read (addr % 2 ^ 64) n).2 = .ok ws ∧ bs = seenPieces u j.view (addr % 2 ^ 64) ws)
    ∧ (spc ≠ .g → (∀ q ∈ jobCells s j spc addr n, Settled s j false q) → bs = (jobCells s j spc addr n).map s.memByte)

/-- `t` has memory `s` with the bytes from `addr` on replaced by `bs`. -/
def Writes (s t : State) (j : Job) (spc : Space4) (addr : Nat) (bs : List Byte) : Prop :=
  (spc = .g → ∃ u ws, EngineLooks s u ∧ (u.translateRange j.core j.part Need.write (addr % 2 ^ 64) bs.length).2 = .ok ws
      ∧ ∀ q, s.isMem q → t.memByte q = poke s.memByte (pieceKeys ws) bs q)
    ∧ (spc ≠ .g → ∀ q, t.memByte q = poke s.memByte (jobCells s j spc addr bs.length) bs q)

/-- The job's team is on its core, and the spaces are on chip. -/
def OnChip (s : State) (j : Job) (spaces : List Space4) : Prop := (s.team j.team).phase ≠ .saved ∧ ∀ x ∈ spaces, x ≠ .g

/-- A byte that a gather or scatter with `n` destination bytes reads: its present value, which the job does not write itself. -/
def Readable (s : State) (j : Job) (n : Nat) (loose : Bool) (q : Nat) : Prop :=
  Settled s j loose q ∧ ∀ k, k < n → q ≠ jobCell s j j.dstSpace (j.aAt 0 + k)

/-- The 32-bit word at an address. -/
def wordAt (s : State) (j : Job) (a : Nat) (m : Nat → Byte) : Nat := leNat ((jobCells s j j.listSpace a 4).map m)

/-- Memory after elements of a gather: (destination element, position in the index list) in order (17 R259). -/
def gathered (s : State) (j : Job) (ps : List (Nat × Nat)) (m : Nat → Byte) : Nat → Byte :=
  ps.foldl (fun m p =>
    let e := j.elemBytes
    let x := wordAt s j (j.cAt 0 + 4 * p.2) m
    poke m (jobCells s j j.dstSpace (j.aAt 0 + p.1 * e) e)
      (if x = 0xFFFFFFFF then List.replicate e 0 else (jobCells s j j.srcSpace (j.bAt 0 + x * e) e).map m)) m

/-- Memory, elements written and whether some index was bad, after positions of a scatter in order (17 R259). -/
def scattered (s : State) (j : Job) (ps : List Nat) (m : Nat → Byte) : (Nat → Byte) × Nat × Bool :=
  ps.foldl (fun acc i =>
    let e := j.elemBytes
    let x := wordAt s j (j.cAt 0 + 4 * i) acc.1
    if x = 0xFFFFFFFF then acc
    else if j.lim ≤ x then (acc.1, acc.2.1, true)
    else (poke acc.1 (jobCells s j j.dstSpace (j.aAt 0 + x * e) e) ((jobCells s j j.srcSpace (j.bAt 0 + i * e) e).map acc.1),
      acc.2.1 + 1, acc.2.2)) (m, 0, false)

/-- The index at a position of the list, and the element that it names, are readable. -/
def PositionReadable (s : State) (j : Job) (n : Nat) (looseIndex looseElement : Bool) (p at_ : Nat) : Prop :=
  let x := wordAt s j (j.cAt 0 + 4 * p) s.memByte
  (∀ q ∈ jobCells s j j.listSpace (j.cAt 0 + 4 * p) 4, Readable s j n looseIndex q)
    ∧ (x ≠ 0xFFFFFFFF → ∀ q ∈ jobCells s j j.srcSpace (j.bAt 0 + (if j.kind = .scatter then at_ else x) * j.elemBytes) j.elemBytes,
      Readable s j n looseElement q)

/-- The positions of a chunk of 256 among `total` (17 R253). -/
def positions (c total : Nat) : List Nat := (List.range (min (256 * c + 256) total)).filter fun i => decide (256 * c ≤ i)

/-- The row pointers of a `GATHER.csr`: those that its first chunk read, or those that memory holds now. -/
def pointers (s : State) (j : Job) : List Nat :=
  j.ptrs.getD ((List.range (j.listLen + 1)).map fun r => wordAt s j (j.cAt 2 + 4 * r) s.memByte)

/-- The bytes of destination that chunk `c` of a copy covers (17 R253). -/
def copied (j : Job) (k : Nat) : Prop := 65536 * j.chunk ≤ k ∧ k < 65536 * (j.chunk + 1) ∧ k < j.shape.row * j.shape.rows

/-- Where byte `k` of a copy lies, with a stride (17 R258). -/
def byteOf (j : Job) (at_ stride k : Nat) : Nat := at_ + k / j.shape.row * stride + k % j.shape.row

/-- A chunk of `CPY` or `CPY2D` writes what its source holds (17 R258). -/
def CopyChunk (s s1 : State) (j : Job) : Prop :=
  (j.kind = .cpy → (s.team j.team).phase ≠ .saved →
    let at_ := 65536 * j.chunk
    at_ < j.cAt 0 →
    ∃ u bs, EngineLooks s u ∧ bs.length = min 65536 (j.cAt 0 - at_) ∧ Reads s j j.srcSpace (j.bAt 0 + at_) bs.length bs
      ∧ Writes u s1 j j.dstSpace (j.aAt 0 + at_) bs)
    ∧ (OnChip s j [j.srcSpace, j.dstSpace] → j.srcSpace ≠ .cl → j.dstSpace ≠ .cl → s.jobOverlaps j = false → s.jobBad j = false →
      (∀ k, copied j k → Settled s j false (jobCell s j j.srcSpace (byteOf j (j.bAt 0) j.shape.ss k))) →
      j.aAt 0 + j.shape.span j.shape.ds ≤ 2 ^ 64 → j.bAt 0 + j.shape.span j.shape.ss ≤ 2 ^ 64 →
      (∀ k, copied j k → s1.memByte (jobCell s j j.dstSpace (byteOf j (j.aAt 0) j.shape.ds k))
          = s.memByte (jobCell s j j.srcSpace (byteOf j (j.bAt 0) j.shape.ss k)))
        ∧ ∀ q, (∀ k, copied j k → q ≠ jobCell s j j.dstSpace (byteOf j (j.aAt 0) j.shape.ds k)) → s1.memByte q = s.memByte q)

/-- A chunk of `GATHER` with an index list, all on chip (17 R259). -/
def GatherChunk (s s1 : State) (j : Job) (o : ChunkOut) : Prop :=
  OnChip s j [j.srcSpace, j.dstSpace, j.listSpace] →
    let ps := positions j.chunk j.listLen
    (∀ p ∈ ps, PositionReadable s j (j.listLen * j.elemBytes) false true p p) →
    (∀ q, s1.memByte q = gathered s j (ps.map fun i => (i, i)) s.memByte q)
      ∧ o = { count := ps.length, last := decide (j.listLen ≤ 256 * (j.chunk + 1)) }

/-- A chunk of `GATHER.csr`, all on chip: falling row pointers end the job with status 0x05; elements beyond `lim` are counted and not
written, and status 0x06 follows (17 R259). -/
def CsrChunk (s s1 : State) (j : Job) (o : ChunkOut) : Prop :=
  OnChip s j [j.srcSpace, j.dstSpace, j.listSpace] →
    let ptr := pointers s j
    let first := ptr.headD 0
    let total := ptr.getLastD 0 - first
    let ps := positions j.chunk total
    let last := decide (total ≤ 256 * (j.chunk + 1))
    (j.ptrs = none → ∀ q ∈ jobCells s j j.listSpace (j.cAt 2) (4 * (j.listLen + 1)), Settled s j false q) →
    (∀ p ∈ ps, p < j.lim → PositionReadable s j (j.lim * j.elemBytes) true true (first + p) p) →
    ((∃ r, r + 1 < ptr.length ∧ ptr.getD (r + 1) 0 < ptr.getD r 0) → (∀ q, s1.memByte q = s.memByte q) ∧ o = { status := some 5 })
      ∧ ((∀ r, r + 1 < ptr.length → ptr.getD r 0 ≤ ptr.getD (r + 1) 0) →
        (∀ q, s1.memByte q = gathered s j ((ps.filter fun q => decide (q < j.lim)).map fun q => (q, first + q)) s.memByte q)
          ∧ o = { count := ps.length, last := last, status := if last ∧ j.lim < total then some 6 else none, ptrs := some ptr })

/-- A chunk of `SCATTER`, all on chip (17 R259). -/
def ScatterChunk (s s1 : State) (j : Job) (o : ChunkOut) : Prop :=
  OnChip s j [j.srcSpace, j.dstSpace, j.listSpace] →
    (∀ p ∈ positions j.chunk j.listLen, PositionReadable s j (j.lim * j.elemBytes) false false p p) →
    let r := scattered s j (positions j.chunk j.listLen) s.memByte
    (∀ q, s1.memByte q = r.1 q)
      ∧ o = { count := r.2.1, bad := r.2.2, last := decide (j.listLen ≤ 256 * (j.chunk + 1)) }

/-- The record that an `XFORM` makes of a source record, with its size, and the elements that saturated: rows beyond an open tile's
take fill, each element is converted by 03 R42 when the formats differ, and the choice of 05 R81 is made with the job's slot. -/
def recoded (j : Job) (r : RecordData) : (Nat × Nat) × Nat :=
  let sp := j.srcDesc.sparsity
  let ks := List.range (elemCount sp)
  let e := fun i => if i / (if sp = 0 then 16 else keepOf sp) < r.rows then r.els.getD i 0 else j.srcDesc.fill
  let y := fun i =>
    if j.dstDesc.fmt = j.srcDesc.fmt then (e i, (0 : BitVec 32)) else roundTo j.dstDesc.fmt (value j.srcDesc.fmt (e i)) .rn false
  (encodeTile j.dstDesc.fmt j.dstDesc.sparsity r.idx (j.tableAt j.encSlot) j.encSlot r.scales (ks.map fun i => (y i).1),
    (ks.filter fun i => (y i).2 &&& FLAG.saturated != 0).length)

/-- The entries of a sidecar line when entry `i` is set to end `e`: those before it stay, and those behind are raised (05 R82). -/
def raisedEntries (es : List Nat) (i e : Nat) : List Nat :=
  (List.range 128).map fun k => if k < i then es.getD k 0 else if k = i then e else if entryEnd (es.getD k 0) < e then e else es.getD k 0

/-- `bits`, as `n` bytes at virtual address `at_`, are written to a destination of the page kind. -/
def TensorBytes (s t : State) (j : Job) (coded : Option Bool) (ctx : TileCtx) (at_ : Nat) (bs : List Byte) : Prop :=
  EngineOnly s t ∧ ∃ u ws, EngineLooks s u ∧ (u.tensorRange j.agent Need.write at_ bs.length coded ctx).2 = .ok ws
    ∧ ∀ q, s.isMem q → t.memByte q = poke s.memByte (pieceKeys ws) bs q

/-- The record of tile `t` in the destination of an `XFORM`: in its plain slot; or in its page behind the entry before, with the
line raised, unless it would pass the page (17 R260). -/
def RecordWritten (s u : State) (j : Job) (t size bits : Nat) (fits : Bool) : Prop :=
  let d := j.dstDesc
  let n := max size (slotSize d.fmt d.sparsity)
  let p := d.page t
  (d.coded = false → fits = true ∧ ∃ ctx, TensorBytes s u j (some false) ctx (d.plainAt t) (leBytes n bits))
    ∧ (d.coded = true → ∃ v es ctx, EngineLooks s v ∧ (v.readLine j.agent p (some t) ctx).2 = .ok es
      ∧ let start := slotStart es (t % 128)
        fits = decide (start + size ≤ 65536)
        ∧ (fits = true → ∃ w, TensorBytes s w j (some true) ctx (p + start) (leBytes size bits)
          ∧ TensorBytes w u j none ctx (s.lineAt j.part p)
              ((raisedEntries es (t % 128) ((start + size) / 16)).flatMap (leBytes 2))))

/-- Tile `t` of an `XFORM`: its record is read as stored, and its own or the re-coded one is written. -/
def TileDone (s u : State) (j : Job) (t n : Nat) (fits : Bool) : Prop :=
  ∃ s1 sl s2 x r, s.findSlot j.agent j.srcDesc t (tileCtx j.srcDesc ⟨0, 0, 0, 0⟩ 4 t) = (s1, .ok sl)
    ∧ s1.tensorRead j.agent Need.read sl.va sl.n (some true) sl.ctx = (s2, .ok x)
    ∧ parseRecord j.srcDesc.fmt j.srcDesc.sparsity sl.opened j.tableAt sl.n x = .ok r
    ∧ EngineLooks s s2
    ∧ let y := if j.keep then ((sl.n, x), 0) else recoded j r
      n = y.2 ∧ RecordWritten s2 u j t y.1.1 y.1.2 fits

/-- The tiles of a chunk in order, until one does not fit its page. -/
def TilesDone (j : Job) : State → List Nat → State → Nat → Bool → Prop
  | s, [], u, n, fits => u = s ∧ n = 0 ∧ fits = true
  | s, t :: ts, u, n, fits => ∃ s1 m ok, TileDone s s1 j t m ok
    ∧ if ok then ∃ k, TilesDone j s1 ts u k fits ∧ n = m + k else n = m ∧ fits = false

/-- A chunk of `XFORM` (17 R260): when a record would pass its page nothing of the chunk is kept, and the job ends with status 7. -/
def XformChunk (s s1 : State) (j : Job) (o : ChunkOut) : Prop :=
  let c := 16 * j.chunk
  let ts := (List.range (min 16 (j.tileCount - c))).map fun i => j.firstTile + c + i
  ∃ u n fits, TilesDone j s ts u n fits
    ∧ (fits = true → s1 = u ∧ o = { count := n, last := decide (j.tileCount ≤ 16 * (j.chunk + 1)) })
    ∧ (fits = false → s1 = s ∧ o = { count := n, status := some 7 })

/-- What is sent to a peer joins the list of what was sent; memory stays. -/
def SentOne (s s1 : State) (x : Sent) : Prop :=
  s1.sent = s.sent ++ [x] ∧ MemKept s s1 nowhere ∧ EngineOnly { s with sent := s1.sent, choices := s1.choices } s1

/-- A chunk of `KVSEND`: a page of coded kind and its sidecar line go to the peer, whose answer is one of 17 R252's. -/
def SendChunk (s s1 : State) (j : Job) (o : ChunkOut) : Prop :=
  let at_ := 65536 * j.chunk
  ∃ bs line, bs.length = 65536 ∧ line.length = 256 ∧ Reads s j .g (j.bAt 0 + at_) 65536 bs
    ∧ SentOne s s1 { handle := j.handle, addr := j.aAt 0 + at_, bytes := bs, line := line }
    ∧ (∃ u ctx es, EngineLooks s u ∧ (u.readLine j.agent (j.bAt 0 + at_) none ctx).2 = .ok es ∧ line = es.flatMap (leBytes 2))
    ∧ o.count = 0 ∧ o.last = decide (j.cAt 0 ≤ j.chunk + 1) ∧ o.status ∈ [none, some 1, some 2, some 8]
    ∧ (s.pathDown j.handle = true → o.status = some 2)

/-- A chunk of `WBCAST`: the bytes go to the members; after the last, the members that met a link error are counted, and where a member
refuses the write the job ends with status 0x08 (25 R349). -/
def CastChunk (s s1 : State) (j : Job) (o : ChunkOut) : Prop :=
  let at_ := 65536 * j.chunk
  let members := nbits j.handle.toNat 32 8
  (∃ bs, bs.length = min 65536 (j.cAt 0 - at_) ∧ ((s.team j.team).phase ≠ .saved → Reads s j j.srcSpace (j.bAt 0 + at_) bs.length bs)
      ∧ SentOne s s1 { handle := j.handle, addr := j.aAt 0 + at_, bytes := bs, line := [] })
    ∧ (at_ + 65536 < j.cAt 0 → o = { last := false } ∨ (o = { count := o.count, last := false, status := some 8 } ∧ o.count < members))
    ∧ (j.cAt 0 ≤ at_ + 65536 →
      (o = { count := o.count, status := if o.count = 0 then none else some 2 } ∧ o.count ≤ members)
        ∨ (o = { count := o.count, status := some 8 } ∧ o.count < members))
    ∧ (s.pathDown j.handle = true → o.status ≠ some 8 ∧ (j.cAt 0 ≤ at_ + 65536 → o.count = members))

/-- What a `RINGPUSH` writes for one tile: the record bytes as memory holds them, zero padded; or a constant record of fill when no
element of the tile is in bounds (17 R264). -/
def Pushed (s : State) (j : Job) (t x : Nat) : Prop :=
  let d := j.srcDesc
  let c := j.pushCoord t
  let n := slotSize d.fmt d.sparsity
  (d.touches c = true → ∃ u v sl, EngineOnly s u ∧ (∀ q, s.isMem q → u.memByte q ≠ s.memByte q →
        ∃ k, k < j.pushCount * n ∧ q = jobCell s j .sp (s.slotStartOf j + k))
      ∧ u.findSlot j.agent d (d.tileNo c) (tileCtx d c 4 (d.tileNo c)) = (v, .ok sl)
      ∧ (v.tensorRead j.agent Need.read sl.va (min sl.n n) (some d.coded) sl.ctx).2 = .ok x)
    ∧ (d.touches c = false → d.fmt.hasCode = true → d.sparsity ≤ 4 → d.fscale < 256 →
      ∃ r, parseRecord d.fmt d.sparsity false (fun _ => none) n x = .ok r ∧ nbits x 0 2 = 2 ∧ r.rows = 16
        ∧ r.els = List.replicate (elemCount d.sparsity) (d.fill % 2 ^ d.fmt.width) ∧ r.scales = List.replicate 8 d.fscale
        ∧ r.idx = (List.range (16 * keepOf d.sparsity)).map (· % keepOf d.sparsity))

/-- `RINGPUSH` writes whole records into its slot, one behind the other (17 R264). -/
def PushChunk (s s1 : State) (j : Job) (o : ChunkOut) : Prop :=
  (s.team j.team).phase ≠ .saved →
    let n := slotSize j.srcDesc.fmt j.srcDesc.sparsity
    ∃ x : Nat → Nat, (∀ t, t < j.pushCount → Pushed s j t (x t)) ∧ o = {}
      ∧ ∀ q, s.isMem q → s1.memByte q = (List.range j.pushCount).foldl
          (fun m t => poke m (jobCells s j .sp (s.slotStartOf j + t * n) n) (leBytes n (x t))) s.memByte q

/-- What one chunk of each kind does (17 R253). -/
def ChunkDone (s s1 : State) (j : Job) (o : ChunkOut) : Prop :=
  match j.kind with
  | .cpy | .cpy2d => EngineOnly s s1 ∧ CopyChunk s s1 j ∧ o = { last := decide (j.shape.row * j.shape.rows ≤ 65536 * (j.chunk + 1)) }
  | .gather => EngineOnly s s1 ∧ if j.csr then CsrChunk s s1 j o else GatherChunk s s1 j o
  | .scatter => EngineOnly s s1 ∧ ScatterChunk s s1 j o
  | .xform => EngineOnly s s1 ∧ XformChunk s s1 j o
  | .kvsend => SendChunk s s1 j o
  | .wbcast => CastChunk s s1 j o
  | .ringpush => EngineOnly s s1 ∧ PushChunk s s1 j o

end Sys2Proof.Claims

/-- 17 R253, R254, R258 to R264: `CHUNK_COMPLETION` and `JOB_FAULT`: a running job's chunk is carried out whole: the bytes that its
kind's entry names are read and written, and its index, counts and phase follow; a chunk that faults parks the job with one record
and leaves its index and counts.
Where the manual is open it follows the model: logs 24, 28, 31, 32, 61, 79. -/
def Obligations.JobChunks : Prop :=
  ∀ (s : State) (n : Nat), s.Sound → (s.job n).live = true → (s.job n).phase = .running →
    let j := s.job n
    (∀ s1 o, s.runChunk j = (s1, .ok o) →
      (∃ t, exec (.chunkCompletion n) s = .next t ∧ exec (.jobFault n) s = .next s
          ∧ t = { s1 with jobs := t.jobs } ∧ (∀ m, m ≠ n → t.job m = s.job m)
          ∧ t.job n = { j with
              bad := j.bad || o.bad
              ptrs := if o.ptrs = none then j.ptrs else o.ptrs
              count := if o.status = some 5 then 0 else j.count + o.count
              chunk := if o.status = none ∨ o.status = some 6 then j.chunk + 1 else j.chunk
              phase := match o.status with
                | some st => .failed st
                | none => if o.last then (if j.bad || o.bad then .failed 5 else .finished) else .running })
        ∧ ChunkDone s s1 j o)
      ∧ (∀ s1 e x, s.runChunk j = (s1, .error e) → j.stopRecord n e = some x →
        exec (.chunkCompletion n) s = .next s
          ∧ exec (.jobFault n) s = .next ((s.setJob n { j with phase := .parked, record := none }).post j.part false
            { x with report := if j.node.isNone then some (j.grid, j.core) else none }))
      ∧ (∀ s1, s.runChunk j = (s1, .error .held) →
        exec (.chunkCompletion n) s = .next s ∧ exec (.jobFault n) s = .next s)

/-! ## Synchronisation (13 R202 to R213, 01 R20, R27, R31, R32) -/

namespace Sys2Proof.Claims

/-- One bit of a slot of a ring. -/
def slotBit (t : Team) (f : Ring → List Bool) (r sl : Nat) : Option Bool := (t.rings[r]?).bind fun x => (f x)[sl]?

/-- A blocking instruction that need not wait: the windows close, the current subset goes on and issue rotates (13 R180, 01 R22). -/
def Passes (i : Instr) (s : State) (b : Group) (new : Opd → Nat → Option Word) (act : List Nat) : Prop :=
  ∃ t, exec i s = .next t ∧ MoveEffect s t b true (pcAfter b [] fun _ => 0) (fun l => (b.thr l).meet) (fun l => (b.thr l).exited)
    new act

/-- A blocking instruction that waits: the group stays at it with its windows closed. -/
def Waits (i : Instr) (s : State) (w : Wait) : Prop := exec i s = .next (s.setMe { closed s with status := .blocked w })

/-- A group that a release of `w` reaches: if it waits for it, it goes on behind its instruction (13 R180). -/
def released (w : Option Wait) (g : Group) : Group :=
  match w with
  | some w => if g.status = .blocked w then { g.afterBlock with status := .running } else g
  | none => g

/-- A group on which event bit `bit` is raised (13 R205, R207): an unmasked `WAITANY` that lists it ends there with its index; for any
other group that has not ended the bit becomes pending. -/
def raisedOn (resident : Bool) (bit : Nat) (g : Group) : Group :=
  match g.status with
  | .ended => g
  | .blocked (.any d act es) =>
    if resident = true ∧ g.evmask.getLsbD bit = false ∧ (∃ e ∈ es, e.bit = bit) then
      g.resumeAny d act es (es.findIdx fun e => e.bit == bit)
    else { g with evpend := g.evpend ||| BitVec.ofNat 128 (2 ^ bit) }
  | _ => { g with evpend := g.evpend ||| BitVec.ofNat 128 (2 ^ bit) }

/-- The bytes of the wake masks of evicted teams, which follow the saved state (21 R310). -/
def wakeBytes (s : State) : Nat → Prop := fun p =>
  ∃ tk, (s.team tk).phase = .saved ∧ (s.team tk).image + 0x20 ≤ p ∧ p < (s.team tk).image + 0x28

/-- From u, the groups `ks` are released from `w` and event `bit` is raised on them; nothing else changes but what `u'` names, and
no byte of memory but wake masks. A group with a pending deadline diverts instead (19 R292). -/
structure Signals (u t : State) (ks : List Nat) (w : Option Wait) (bit : Nat) : Prop where
  groups : ks.Nodup → ∀ k ∈ ks, ((u.grp k).divert = false ∨ (∀ x, (u.grp k).status ≠ .blocked x)) →
    t.grp k = raisedOn (decide ((u.team (u.grp k).team).phase = .resident)) bit (released w (u.grp k))
  others : ∀ k, k ∉ ks → t.grp k = u.grp k
  cores : (∀ k ∈ ks, (u.grp k).divert = false) → t.cores = u.cores
  mem : u.Sound → MemKept u t (wakeBytes u)
  rest : t = { u with groups := t.groups, cores := t.cores, mem := t.mem, bad := t.bad, sectors := t.sectors, counters := t.counters }

/-- A barrier after one group arrival with `count` (13 R202, R203). -/
def arrived (b : Barrier) (count : Nat) : Barrier := ⟨b.arrivals + 1, count, true, b.phase⟩

/-- A completed barrier: arrivals above the count belong to the next phase. -/
def completed (b : Barrier) : Barrier := ⟨b.arrivals - b.count, b.count, false, !b.phase⟩

/-- What an arrival at a barrier does: `put` stores the barrier; below its count nothing else happens, at its count the phase ends
(13 R202, R203). -/
def Arrives (u : State) (i : Instr) (s : State) (put : State → Barrier → State) (b : Barrier) (count : Nat) (ks : List Nat) (w : Wait)
    (bit : Nat) : Prop :=
  (b.arrivals + 1 < count → exec i s = .next (put u (arrived b count)))
    ∧ (count ≤ b.arrivals + 1 → ∃ t, exec i s = .next t ∧ Signals (put u (completed (arrived b count))) t ks (some w) bit)

end Sys2Proof.Claims

/-- 13 R180, R202, R203, R205: `BAR` and `CBAR`: `.arr` arrives and goes on; the other form waits at it. With the last arrival the
phase flips, the waiting groups go on, and the event is raised on every group of the team, or of the grid in the cluster.
Where the manual is open it follows the model: logs 9, 19. -/
def Obligations.Barriers : Prop :=
  ∀ (s : State) (g : Guard) (count : BitVec 9) (i : Fin 16) (j : Fin 8), s.Ready [] →
    let tk := s.seen.team
    let n := if count = 0 then (s.team tk).size else count.toNat
    let b := kget Barrier.start (s.team tk).bars i.val
    let putBar := fun (u : State) (x : Barrier) => u.setTeam tk ((u.team tk).setBar i.val x)
    let gid := (s.team tk).grid
    let cl := s.seen.core / 8
    let c := kget Barrier.start (s.grid gid).cbars (8 * cl + j.val)
    let putCbar := fun (u : State) (x : Barrier) => u.setGrid gid ((u.grid gid).setCbar cl j.val x)
    (s.act g = [] →
      (∃ t, exec (.bar g true count i) s = .next t ∧ RegEffect s t s.seen noReg [] [] 0)
        ∧ (∃ t, exec (.cbar g true count j) s = .next t ∧ RegEffect s t s.seen noReg [] [] 0)
        ∧ Passes (.bar g false count i) s (closed s) noReg [] ∧ Passes (.cbar g false count j) s (closed s) noReg [])
      ∧ (s.act g ≠ [] →
        (∃ u, RegEffect s u s.seen noReg [] [] 0
            ∧ Arrives u (.bar g true count i) s putBar b n (s.teamGroups tk) (.bar i.val b.phase) i.val
            ∧ Arrives u (.cbar g true count j) s putCbar c count.toNat (u.gridGroupsIn gid cl) (.cbar j.val c.phase) (16 + j.val))
          ∧ Arrives (s.setMe { closed s with status := .blocked (.bar i.val b.phase) }) (.bar g false count i) s putBar b n
            (s.teamGroups tk) (.bar i.val b.phase) i.val
          ∧ Arrives (s.setMe { closed s with status := .blocked (.cbar j.val c.phase) }) (.cbar g false count j) s putCbar c
            count.toNat (s.gridGroupsIn gid cl) (.cbar j.val c.phase) (16 + j.val))

namespace Sys2Proof.Claims

/-- Entry k of a `WAITANY` (13 R206): kind at 31:30, id at 29:24, a signed word offset at 23:0 of a half of a register; none when the
id is out of its kind's range. -/
def listedEntry (b : Group) (a : Opd) (k : Nat) : Option WaitEntry :=
  let w := elem (b.rd (a.plus (k / 2)) 0) (k % 2) 32
  let id := w / 2 ^ 24 % 64
  let h := b.cur + BitVec.ofInt 64 (8 * signed 24 w)
  match w / 2 ^ 30 with
  | 0 => if id < 16 then some ⟨id, h⟩ else none
  | 1 => if id < 8 then some ⟨16 + id, h⟩ else none
  | 2 => some ⟨64 + id, h⟩
  | _ => if id < 32 then some ⟨24 + id, h⟩ else none

/-- Bit n of a 128-bit register of which one half is replaced by w. -/
def halfBit (hi : Bool) (x : BitVec 128) (w : Word) (n : Nat) : Bool :=
  if (n / 64 == 1) == hi then w.getLsbD (n % 64) else x.getLsbD n

/-- One half of a 128-bit register. -/
def half (hi : Bool) (x : BitVec 128) : Word := BitVec.ofNat 64 (x.toNat / 2 ^ (if hi then 64 else 0))

end Sys2Proof.Claims

/-- 13 R204 to R209: `WAITANY` with an entry of an unknown event raises the illegal-operand trap; with a listed event pending and
unmasked it consumes the lowest one, writes its index and sends the active threads to its handler; otherwise it waits. `EVMASK`
writes a half of the mask but for reserved bits 63:56; `EVREAD` reads a half, and with `.clr` clears it.
Where the manual is open it follows the model: logs 9, 19, 64. -/
def Obligations.Events : Prop :=
  ∀ (s : State) (g : Guard) (d a : Opd) (count : Fin 9) (op : EvOp) (hi mask clr : Bool),
    (s.Ready [d] →
      (s.act g = [] → Passes (.waitany g d a count) s (closed s) noReg [])
        ∧ (s.act g ≠ [] →
          ((∃ k, k < count.val ∧ listedEntry (closed s) a k = none) →
            exec (.waitany g d a count) s = .next ((s.setMe (closed s)).trap .illegalOperand))
          ∧ ∀ es : List WaitEntry, es.length = count.val →
            (∀ k, k < count.val → listedEntry (closed s) a k = es[k]?) →
            ((∀ e ∈ es, (s.seen.evpend.getLsbD e.bit && !s.seen.evmask.getLsbD e.bit) = false) →
              Waits (.waitany g d a count) s (.any d (s.act g) es))
            ∧ ∀ k e, es[k]? = some e → (s.seen.evpend.getLsbD e.bit && !s.seen.evmask.getLsbD e.bit) = true →
              (∀ m x, m < k → es[m]? = some x → (s.seen.evpend.getLsbD x.bit && !s.seen.evmask.getLsbD x.bit) = false) →
              ∃ t b, exec (.waitany g d a count) s = .next t ∧ b = { closed s with evpend := b.evpend }
                ∧ (∀ n, b.evpend.getLsbD n = (s.seen.evpend.getLsbD n && n != e.bit))
                ∧ MoveEffect s t b true (pcAfter b (s.act g) fun _ => e.handler) (fun l => (b.thr l).meet)
                  (fun l => (b.thr l).exited) (one d (s.act g) fun _ => BitVec.ofNat 64 k) (s.act g)))
      ∧ (s.Ready [] → s.act g ≠ [] → ∃ b, b = { s.seen with evmask := b.evmask } ∧ OwnStep (.evmask g op hi a) s b
          ∧ ∀ n, n < 128 → b.evmask.getLsbD n = (!(decide (56 ≤ n) && decide (n < 64)) &&
            halfBit hi s.seen.evmask (match op with
              | .wr => groupVal s g a
              | .set => half hi s.seen.evmask ||| groupVal s g a
              | .clr => half hi s.seen.evmask &&& ~~~ groupVal s g a) n))
      ∧ (s.Ready [d] → s.act g ≠ [] → ∃ t b, exec (.evread g mask clr hi d) s = .next t ∧ b = { s.seen with evpend := b.evpend }
          ∧ (∀ n, n < 128 → b.evpend.getLsbD n = if clr then halfBit hi s.seen.evpend 0 n else s.seen.evpend.getLsbD n)
          ∧ RegEffect s t b (one d (s.act g) fun _ => half hi (if mask then s.seen.evmask else s.seen.evpend)) [] (s.act g) 0)
      ∧ (s.Ready [d] → s.act g = [] → (∃ t, exec (.evmask g op hi a) s = .next t ∧ RegEffect s t s.seen noReg [] [] 0)
          ∧ ∃ t, exec (.evread g mask clr hi d) s = .next t ∧ RegEffect s t s.seen noReg [] [] 0)

namespace Sys2Proof.Claims

/-- The group after a mailbox instruction: its status is in p[q] of every active lane (13 R211). -/
structure Answered (s : State) (h : Group) (act : List Nat) (q : Fin 8) (ok : Bool) (new : Opd → Nat → Option Word) : Prop where
  rest : GroupRest s.seen h
  went : WentOn s.seen h
  preds : PredsBy s.seen h fun l p => if l ∈ act ∧ p = q then some ok else none
  regs : RegsBy s.seen h new [] act
  flags : h.flags = s.seen.flags

/-- The messages of mailbox m of a core, and the grid that it is bound to. -/
def mailbox (s : State) (core m : Nat) : Mailbox := kget Mailbox.free (s.core core).mbox m

/-- Only one core's one mailbox differs, beside the issuing group. -/
def OnlyMailbox (s t : State) (core m : Nat) (x : Mailbox) : Prop :=
  t = { s with groups := t.groups, cores := t.cores } ∧ (∀ k, k ≠ s.focus → t.grp k = s.grp k) ∧ mailbox t core m = x
    ∧ (∀ k, k ≠ m → mailbox t core k = mailbox s core k) ∧ (∀ c, c ≠ core → t.core c = s.core c)
    ∧ t.core core = { s.core core with mbox := (t.core core).mbox }

end Sys2Proof.Claims

/-- 13 R210, R211: `MBSEND` to a mailbox that is free, or bound to the grid with fewer than four messages, appends its word, binds the
mailbox, and raises the event on the grid's groups on that core; otherwise its status is false. `MBRECV` takes the oldest message of
its grid, and the last one frees the mailbox. A send to a withdrawn core faults, to a frozen one stalls (21 R314).
Where the manual is open it follows the model: logs 9, 67. -/
def Obligations.Mailboxes : Prop :=
  ∀ (s : State) (g : Guard) (q : Fin 8) (d a b : Opd), s.act g ≠ [] →
    let w := (groupVal s g a).toNat
    let core := s.seen.core / 8 * 8 + w % 8
    let m := w / 8 % 32
    let x := mailbox s core m
    let grid := (s.team s.seen.team).grid
    let y := mailbox s s.seen.core (w % 32)
    (s.Ready [a, b] →
      ((s.core core).withdrawn = true → exec (.mbsend g q a b) s = .next ((aged s).memFault
          { lanes := s.act g, access := 1, lane := (s.act g).headD 0, space := 2, reason := 4, addr := w }))
        ∧ ((s.core core).withdrawn = false → (s.core core).frozen = true → exec (.mbsend g q a b) s = .next s)
        ∧ ((s.core core).withdrawn = false → (s.core core).frozen = false → x.msgs ≠ [] → (x.grid ≠ grid ∨ 4 ≤ x.msgs.length) →
          ∃ t, exec (.mbsend g q a b) s = .next t ∧ OnlyGroup s t ∧ Answered s t.me (s.act g) q false noReg)
        ∧ ((s.core core).withdrawn = false → (s.core core).frozen = false →
          (x.msgs = [] ∨ x.grid = grid ∧ x.msgs.length < 4) →
          ∃ u t, exec (.mbsend g q a b) s = .next t ∧ OnlyMailbox s u core m ⟨grid, x.msgs ++ [groupVal s g b]⟩
            ∧ Answered s u.me (s.act g) q true noReg ∧ Signals u t (u.gridGroupsOn grid core) none (24 + m)))
      ∧ (s.Ready [d, a] →
        (∀ msg rest, y.msgs = msg :: rest → y.grid = grid →
          ∃ t, exec (.mbrecv g q d a) s = .next t
            ∧ OnlyMailbox s t s.seen.core (w % 32) (if rest = [] then ⟨0, []⟩ else ⟨grid, rest⟩)
            ∧ Answered s t.me (s.act g) q true (one d (s.act g) fun _ => msg))
          ∧ ((y.msgs = [] ∨ y.grid ≠ grid) →
            ∃ t, exec (.mbrecv g q d a) s = .next t ∧ OnlyGroup s t ∧ Answered s t.me (s.act g) q false noReg))

namespace Sys2Proof.Claims

/-- The slot and the phase of a `RINGWAIT` on a ring of n slots (13 R212, 01 R27): as written, or those of iteration i. -/
def ringPlace (n : Nat) (imm : Option (Nat × Bool)) (i : Nat) : Option (Nat × Bool) :=
  if n = 0 then none
  else
    match imm with
    | some x => if x.1 < n then some x else none
    | none => some (i % n, decide ((i / n + 1) % 2 = 1))

/-- Slots of a ring of the issuing team. -/
def ringSize (s : State) (r : Nat) : Nat := (((s.team s.seen.team).rings[r]?).map fun x => x.pips.length).getD 0

/-- What the fields of `RINGWAIT` and `RINGREL` name. -/
def waitSel : RingSel → Opd × Option (Nat × Bool)
  | .imm sl ph => (.zero, some (sl.val, ph))
  | .it a => (a, none)

def relSel : RingRelSel → Opd × Option (Nat × Bool)
  | .imm sl => (.zero, some (sl.val, false))
  | .it a => (a, none)

end Sys2Proof.Claims

/-- 13 R212, 01 R27: `RINGWAIT` waits until the slot's pip equals the phase; `RINGREL` clears the slot's full bit and changes nothing
else; a ring or slot that the team does not have raises the illegal-operand trap.
Where the manual is open it follows the model: log 9. -/
def Obligations.StageRings : Prop :=
  ∀ (s : State) (g : Guard) (ring : Fin 8) (sel : RingSel) (rel : RingRelSel), s.act g ≠ [] →
    let p := ringPlace (ringSize s ring.val) (waitSel sel).2 ((closed s).rd (waitSel sel).1 ((s.act g).headD 0)).toNat
    let r := ringPlace (ringSize s ring.val) (relSel rel).2 (groupVal s g (relSel rel).1).toNat
    (s.Ready [(waitSel sel).1] →
      (p = none → exec (.ringwait g ring sel) s = .next ((s.setMe (closed s)).trap .illegalOperand))
        ∧ ∀ sl ph, p = some (sl, ph) →
          (slotBit (s.team s.seen.team) Ring.pips ring.val sl = some ph → Passes (.ringwait g ring sel) s (closed s) noReg [])
            ∧ (slotBit (s.team s.seen.team) Ring.pips ring.val sl = some (!ph) →
              Waits (.ringwait g ring sel) s (.ring ring.val sl ph)))
      ∧ (s.Ready [(relSel rel).1] →
        (r = none → exec (.ringrel g ring rel) s = .next ((aged s).trap .illegalOperand))
          ∧ ∀ sl ph, r = some (sl, ph) → ∃ t, exec (.ringrel g ring rel) s = .next t ∧ OnlyTeam s t
            ∧ t.team s.me.team = { s.team s.me.team with rings := (t.team s.me.team).rings }
            ∧ (∀ f ∈ [Ring.pips, Ring.claim], ∀ n k, slotBit (t.team s.me.team) f n k = slotBit (s.team s.me.team) f n k)
            ∧ (∀ n k, slotBit (t.team s.me.team) Ring.full n k =
              (slotBit (s.team s.me.team) Ring.full n k).map fun b => b && !(n == ring.val && k == sl))
            ∧ GroupEffect s t s.seen noReg [] [] 0)

namespace Sys2Proof.Claims

/-- The cores in whose order a request of the issuing group stands: its own, or all of its team's (01 R14, R31). -/
def askedOn (s : State) (acc : Bool) : List Nat := if acc then s.myTeam.cores else [s.seen.core]

/-- The state in which a grow request waits: it stands last in the order of each of its cores, and the group blocks (01 R31). -/
def asked (s : State) (acc : Bool) (k : Nat) : State :=
  ((askedOn s acc).foldl (fun u c => u.setCore c { u.core c with grow := (u.core c).grow ++ [⟨s.focus, acc, k⟩] })
    (s.setMe (closed s))).setMe { closed s with status := .blocked (if acc then .accGrow k else .regGrow k) }

/-- No request of the kind waits on a core that the issuing group's would ask. -/
def noneWaits (s : State) (acc : Bool) : Prop := ∀ c ∈ askedOn s acc, ∀ r ∈ (s.core c).grow, r.acc ≠ acc

/-- The granules that the core has free, and the halves that every core of the team has free (01 R14). -/
def granFree (s : State) (k : Nat) : Prop := k ≤ (s.setMe (closed s)).freeGran s.seen.core
def halvesFree (s : State) (k : Nat) : Prop := ∀ c ∈ s.myTeam.cores, k ≤ (s.setMe (closed s)).freeHalves c

/-- A group with k more granules, at the numbers `ns`: the new registers read as poison in every lane, the others as before
(01 R31). -/
structure Grown (b h : Group) (k : Nat) (ns : List Nat) : Prop where
  only : h = { b with gran := h.gran, granules := h.granules, dead := h.dead }
  gran : h.gran = b.gran + k
  granules : h.granules = b.granules ++ ns
  fresh : ∀ r l, 16 * b.gran ≤ r → r < 16 * (b.gran + k) → l < 32 → h.vread r l = poison
  old : ∀ r l, (r < 16 * b.gran ∨ 16 * (b.gran + k) ≤ r) → l < 32 → h.vread r l = b.vread r l

/-- A waiting request is granted: it leaves the order of the cores `cs` on which it stands, its group has the resource, and goes on
(01 R31). -/
structure Granted (s t : State) (r : GrowReq) (cs : List Nat) : Prop where
  order : ∀ c ∈ cs, (t.core c).grow = (s.core c).grow.filter fun x => x.group != r.group
  cores : ∀ c, c ∉ cs → t.core c = s.core c
  regs : r.acc = false → (t.grp r.group).gran = (s.grp r.group).gran + r.k
  halves : r.acc = true → (t.team (s.grp r.group).team).halves = (s.team (s.grp r.group).team).halves + r.k
  runs : (t.grp r.group).status = .running
  others : ∀ j, j ≠ r.group → t.grp j = s.grp j

/-- The register requests that wait on a core are granted in their order while their granules are free, at most `n` of them. -/
def Granting (core : Nat) : Nat → State → State → Prop
  | 0, s, t => t = s
  | n + 1, s, t =>
    match (s.core core).grow.find? (fun x => x.acc == false) with
    | none => t = s
    | some r =>
      let own := (s.grp r.group).core
      if (s.core own).grow.find? (fun x => x.acc == false) = some r ∧ r.k ≤ s.freeGran own then
        ∃ u, ((s.grp r.group).divert = false → Granted s u r [own]) ∧ Granting core n u t
      else t = s

end Sys2Proof.Claims

/-- 13 R213, 01 R31, R32: `REGGROW` and `ACCGROW` beyond the limit raise the illegal-operand trap; with no request before it and
enough free they take the resource and go on; otherwise they wait, and R32 is looked at. A request of a paired team stands in the
order of both cores. `REGSHRINK` gives the top granules back, to the requests that wait for them (log 84). `GROW_GRANT` serves the oldest request of a kind when it fits.
Where the manual is open it follows the model: logs 9, 19, 63, 84. -/
def Obligations.Growth : Prop :=
  ∀ (s : State) (g : Guard) (k : Fin 32) (n : Fin 4) (core : Nat) (acc : Bool),
    (s.Ready [] → s.act g ≠ [] →
      (20 < s.me.gran + k.val → exec (.reggrow g k) s = .next ((s.setMe (closed s)).trap .illegalOperand))
        ∧ (s.me.gran + k.val ≤ 20 → noneWaits s false → granFree s k.val →
          ∃ b, Grown (closed s) b k.val (((s.setMe (closed s)).freeGranules s.seen.core).take k.val)
            ∧ Passes (.reggrow g k) s b noReg [])
        ∧ (s.me.gran + k.val ≤ 20 → (¬ noneWaits s false ∨ ¬ granFree s k.val) →
          exec (.reggrow g k) s = .next ((asked s false k.val).growCheck s.myTeam.cores))
        ∧ (s.me.gran < 1 + k.val → exec (.regshrink g k) s = .next ((aged s).trap .illegalOperand))
        ∧ (1 + k.val ≤ s.me.gran → ∃ t z, exec (.regshrink g k) s = .next z ∧ Granting s.seen.core 32 t z ∧ OnlyGroup s t
          ∧ GroupRest { s.seen with gran := s.seen.gran - k.val, granules := s.seen.granules.take (s.seen.gran - k.val) } t.me ∧ WentOn s.seen t.me ∧ PredsKept s.seen t.me
          ∧ t.me.flags = s.seen.flags ∧ (∀ n : Fin 64, t.me.sread n = s.seen.sread n)
          ∧ ∀ r l, r < 16 * (s.seen.gran - k.val) → l < 32 → t.me.vread r l = s.seen.vread r l))
      ∧ (s.ReadyAs matrixOnly [] → s.act g ≠ [] →
        (2 < s.myTeam.halves + n.val → exec (.accgrow g n) s = .next ((s.setMe (closed s)).trap .illegalOperand))
          ∧ (s.myTeam.halves + n.val ≤ 2 → noneWaits s true → halvesFree s n.val →
            ∃ u t, exec (.accgrow g n) s = .next t
              ∧ u = (s.setMe (closed s)).setTeam s.me.team { s.myTeam with halves := s.myTeam.halves + n.val }
              ∧ t = { u with groups := t.groups }
              ∧ MoveEffect s { t with teams := s.teams } (closed s) true (pcAfter (closed s) [] fun _ => 0)
                (fun l => ((closed s).thr l).meet) (fun l => ((closed s).thr l).exited) noReg [])
          ∧ (s.myTeam.halves + n.val ≤ 2 → (¬ noneWaits s true ∨ ¬ halvesFree s n.val) →
            exec (.accgrow g n) s = .next ((asked s true n.val).growCheck s.myTeam.cores)))
      ∧ (s.Ready [] → s.act g = [] → Passes (.reggrow g k) s (closed s) noReg []
        ∧ ∃ t, exec (.regshrink g k) s = .next t ∧ RegEffect s t s.seen noReg [] [] 0)
      ∧ (s.ReadyAs matrixOnly [] → s.act g = [] → Passes (.accgrow g n) s (closed s) noReg [])
      ∧ ((∀ r ∈ (s.core core).grow, r.acc ≠ acc) → (∃ j ∈ s.groupsOn core, ∀ x, (s.grp j).status ≠ .blocked x) → exec (.growGrant core acc) s = .next s)
      ∧ ∀ pre r post, (s.core core).grow = pre ++ r :: post → r.acc = acc → (∀ x ∈ pre, x.acc ≠ acc) →
        (∃ j ∈ s.groupsOn core, j ≠ r.group ∧ ∀ x, (s.grp j).status ≠ .blocked x) →
        let cs := if acc then (s.team (s.grp r.group).team).cores else [(s.grp r.group).core]
        let first := ∀ c ∈ cs, (s.core c).grow.find? (fun x => x.acc == acc) = some r
        (core ∈ cs → first → s.growFits r = true → (s.grp r.group).divert = false → ∃ t, exec (.growGrant core acc) s = .next t ∧ Granted s t r cs)
          ∧ ((¬ first ∨ s.growFits r = false) → exec (.growGrant core acc) s = .next s)

/-! ## System instructions, traps, faults and records (13 R214 to R220, 21 R298 to R305, 09 R136) -/

namespace Sys2Proof.Claims

/-- Device time of a partition (19 R265): the master count plus its offset. -/
def deviceTime (s : State) (part : Nat) : Nat := (s.time.master + (s.part part).toff) % 2 ^ 64

/-- Word 0x18 of 13 R214: team at 63:40, core at 39:32, group at 12:8, partition at 5:0. -/
def identBits (s : State) (b : Group) : Word :=
  let t := s.team b.team
  BitVec.ofNat 64 (2 ^ 40 * (t.number % 2 ^ 24) + 2 ^ 32 * (b.core % 256) + 2 ^ 8 * (b.index % 32) + t.grid / 2 ^ 58 % 64)

/-- The value of a special register but `VALIDW` (13 R216). -/
def sysValue (s : State) (r : SysReg) : Word :=
  let g := s.seen
  let t := s.team g.team
  let x := s.grid t.grid
  match r with
  | .flags => g.flags.setWidth 64
  | .flagen => g.flagen.setWidth 64
  | .amax => g.amax.setWidth 64
  | .nancnt => g.nancnt.setWidth 64
  | .satcnt => g.satcnt.setWidth 64
  | .evpendLo => half false g.evpend
  | .evpendHi => half true g.evpend
  | .evmaskLo => half false g.evmask
  | .evmaskHi => half true g.evmask
  | .gang => g.gang
  | .ident => BitVec.ofNat 64 (2 ^ 24 * (g.core % 256) + 2 ^ 19 * (g.core / 8 % 32) + 2 ^ 16 * (g.core % 8) + 2 ^ 8 * (g.slot % 32)
      + g.index % 32)
  | .teamno => BitVec.ofNat 64 (t.number % 2 ^ 24)
  | .gridno => BitVec.ofNat 64 t.grid
  | .depth => BitVec.ofNat 64 x.depth
  | .deadline => BitVec.ofNat 64 x.deadline
  | .regalloc => BitVec.ofNat 64 g.gran
  | .spbase => BitVec.ofNat 64 (t.spbaseOn g.core % 2 ^ 19)
  | .pvbase => BitVec.ofNat 64 g.pvbase
  | .validw => x.vheld
  | .sidebase => (s.part (t.grid / 2 ^ 58)).sidebase

/-- Registers 0x000 to 0x00B, ordered after every earlier instruction of the group (13 R216). -/
def orderedReg (r : SysReg) : Bool :=
  [SysReg.flags, .flagen, .amax, .nancnt, .satcnt, .evpendLo, .evpendHi, .evmaskLo, .evmaskHi].contains r

/-- The group after a `SYSWR` of a register of its own (13 R216, R204, 03 R54); a read-only one ignores the write. -/
def sysWritten (g : Group) (r : SysReg) (v : Word) : Group :=
  match r with
  | .flags => { g with flags := v.setWidth 32 &&& 0x7F }
  | .flagen => { g with flagen := v.setWidth 32 &&& 0x7F }
  | .amax => { g with amax := if 0x7F800000 < v.toNat % 2 ^ 31 then 0 else BitVec.ofNat 32 (v.toNat % 2 ^ 31) }
  | .nancnt => { g with nancnt := v.setWidth 32 }
  | .satcnt => { g with satcnt := v.setWidth 32 }
  | .evmaskLo => { g with evmask := half true g.evmask ++ (v &&& 0x00FFFFFFFFFFFFFF) }
  | .evmaskHi => { g with evmask := v ++ (half false g.evmask &&& 0x00FFFFFFFFFFFFFF) }
  | _ => g

/-- An access of the group that the record of 21 R303 names, in global space at the validity word (13 R218). -/
def validAccess (s : State) (g : Guard) (access reason : Nat) : MemFault :=
  { lanes := s.act g, access := access, lane := (s.act g).headD 0, space := 4, reason := reason, addr := s.myGrid.pkt.vword.toNat }

/-- What `VALID` ORs in. -/
def validBits (s : State) (g : Guard) : ValidForm → Word
  | .bit n => BitVec.ofNat 64 (2 ^ n.toNat)
  | .reg a => groupVal s g a

def validReg : ValidForm → Opd
  | .bit _ => .zero
  | .reg a => a

end Sys2Proof.Claims

/-- 13 R214 to R218: `TRAP` parks the group and posts its record; `CLOCK` and `SYSRD` write their value; `SYSWR` writes the fields of
its register, a read-only one ignores it, and `SIDEBASE` needs the system flag and takes the partition's lines from every metadata
cache; `VALID` ORs its bits into the validity word.
Where the manual is open it follows the model: logs 9, 71. -/
def Obligations.SystemInstructions : Prop :=
  ∀ (s : State) (g : Guard) (d a b : Opd) (code : BitVec 17) (cyc : Bool) (r : SysReg) (f : ValidForm), s.act g ≠ [] →
    (s.Ready [d, a, b] → exec (.trap g d a b code) s =
        .next ((s.setMe { closed s with status := .parked (.call d (s.act g)) }).post s.myPart true
          { words := [BitVec.ofNat 64 (2 ^ 32 * code.toNat + 2 ^ 8 * d.toField.toNat + 8), s.seen.cur, BitVec.ofNat 64 s.myTeam.grid,
              identBits s s.seen, (closed s).rd a ((s.act g).headD 0), (closed s).rd b ((s.act g).headD 0), 0, 0],
            timeAt := some 6, job := none }))
      ∧ (s.Ready [d] → ∃ t, exec (.clock g cyc d) s = .next t ∧ RegEffect s t s.seen
          (one d (s.act g) fun _ => BitVec.ofNat 64 (if cyc then (s.core s.seen.core).cycles else deviceTime s s.myPart)) []
          (s.act g) 0)
      ∧ (s.Ready [d] → orderedReg r = true → (aged s).inFlight s.focus = true →
          exec (.sysrd g d r) s = .next s ∧ exec (.syswr g r d) s = .next s)
      ∧ (s.Ready [d] → (orderedReg r = true → (aged s).inFlight s.focus = false) → (r = .validw → s.myGrid.pkt.vword = 0) →
          ∃ t, exec (.sysrd g d r) s = .next t ∧ RegEffect s t s.seen (one d (s.act g) fun _ => sysValue s r) [] (s.act g) 0)
      ∧ (s.Ready [d] → s.myGrid.pkt.vword ≠ 0 →
        (∀ s1 bs, (aged s).vread s.seen.core s.myPart s.myGrid.pkt.vword.toNat 8 = (s1, .ok bs) → s.Sound →
          ∃ t, exec (.sysrd g d .validw) s = .next t ∧ OnlyBytes s t nowhere
            ∧ GroupEffect s t s.seen (one d (s.act g) fun _ => BitVec.ofNat 64 (leNat bs)) [] (s.act g) 0)
          ∧ ∀ s1 e, (aged s).vread s.seen.core s.myPart s.myGrid.pkt.vword.toNat 8 = (s1, .error e) →
            exec (.sysrd g d .validw) s = .next (s1.memFault (validAccess s g 0 e.2)))
      ∧ (s.Ready [a] → r ≠ .sidebase → (orderedReg r = true → (aged s).inFlight s.focus = false) →
          ∃ t, exec (.syswr g r a) s = .next t ∧ OnlyGroup s t ∧ GroupRest (sysWritten s.seen r (groupVal s g a)) t.me
            ∧ WentOn s.seen t.me ∧ PredsKept s.seen t.me ∧ RegsBy s.seen t.me noReg [] []
            ∧ t.me.flags = (sysWritten s.seen r (groupVal s g a)).flags)
      ∧ (s.Ready [a] → s.myGrid.sys = false → exec (.syswr g .sidebase a) s = .next ((aged s).trap .illegalOperand))
      ∧ (s.Ready [a] → s.myGrid.sys = true → ∃ t, exec (.syswr g .sidebase a) s = .next t
          ∧ t = { s with groups := t.groups, parts := t.parts, clusters := t.clusters } ∧ (∀ k, k ≠ s.focus → t.grp k = s.grp k)
          ∧ (∀ k, k < 32 → t.cluster k = { s.cluster k with lines := (s.cluster k).lines.filter fun l => l.part != s.myPart })
          ∧ (∀ k, 32 ≤ k → t.cluster k = s.cluster k)
          ∧ (∀ p, p ≠ s.myPart → t.part p = s.part p)
          ∧ t.part s.myPart = { s.part s.myPart with sidebase := groupVal s g a &&& 0x01FFFFFFFFFF0000 }
          ∧ GroupEffect s t s.seen noReg [] [] 0)
      ∧ (s.Ready [validReg f] → s.myGrid.pkt.vword = 0 → ∃ t, exec (.valid g f) s = .next t
          ∧ t = { s with groups := t.groups, grids := t.grids } ∧ (∀ k, k ≠ s.focus → t.grp k = s.grp k)
          ∧ (∀ x, x ≠ s.myTeam.grid → t.grid x = s.grid x)
          ∧ t.grid s.myTeam.grid = { s.myGrid with vheld := s.myGrid.vheld ||| validBits s g f } ∧ GroupEffect s t s.seen noReg [] [] 0)
      ∧ (s.Ready [validReg f] → s.myGrid.pkt.vword ≠ 0 → ∀ s1 w s2 bs,
          (aged s).translate s.seen.core s.myPart Need.write s.myGrid.pkt.vword.toNat = (s1, .ok w) →
          s1.physRead w.pa 8 = (s2, some bs) → s.Sound → (s2.physWrite w.pa (leBytes 8 (leNat bs ||| (validBits s g f).toNat))).2 = true →
          ∃ t, exec (.valid g f) s = .next t ∧ OnlyBytes s t (fun p => w.pa ≤ p ∧ p < w.pa + 8)
            ∧ (∀ i, i < 8 → t.memByte (w.pa + i) = (leBytes 8 (leNat bs ||| (validBits s g f).toNat)).getD i 0)
            ∧ GroupEffect s t s.seen noReg [] [] 0)
      ∧ (s.Ready [validReg f] → s.myGrid.pkt.vword ≠ 0 → ∀ s1 e,
          (aged s).translate s.seen.core s.myPart Need.write s.myGrid.pkt.vword.toNat = (s1, .error e) →
          exec (.valid g f) s = .next (s1.memFault (validAccess s g 2 e)))
      ∧ (s.Ready [validReg f] → s.myGrid.pkt.vword ≠ 0 → ∀ s1 w,
          (aged s).translate s.seen.core s.myPart Need.write s.myGrid.pkt.vword.toNat = (s1, .ok w) →
          (∀ s2, s1.physRead w.pa 8 = (s2, none) → exec (.valid g f) s = .next (s2.memFault (validAccess s g 2 6)))
            ∧ ∀ s2 bs, s1.physRead w.pa 8 = (s2, some bs) →
              (s2.physWrite w.pa (leBytes 8 (leNat bs ||| (validBits s g f).toNat))).2 = false →
              ∃ u : State, exec (.valid g f) s = .next (u.memFault (validAccess s g 2 6)))

namespace Sys2Proof.Claims

/-- Cause codes of 21 R300. -/
def causeCode : Cause → Nat
  | .illegalInstruction => 1
  | .illegalOperand => 2
  | .illegalPair => 3
  | .role => 4
  | .divergence => 5
  | .arithmetic => 6

/-- The cause word (21 R300). A row above 7 does not fit `order` and leaves its low three bits there (log 17). -/
def causeBits (c : Cause) (order half flags : Nat) : Word :=
  BitVec.ofNat 64 (2 ^ 32 * (flags % 128) + 2 ^ 17 * (order % 8) + 2 ^ 16 * (half % 2) + 2 ^ 8 * causeCode c + 5)

/-- The issuing group's packet. -/
def packet (s : State) : Packet := (s.grid (s.team s.me.team).grid).pkt

/-- Word 0 of a memory-fault record (21 R303). -/
def faultHead (f : MemFault) : Nat :=
  2 ^ 32 * (laneMask f.lanes).toNat + 2 ^ 24 * (f.access % 8) + 2 ^ 19 * (f.lane % 32) + 2 ^ 16 * (f.space % 8)
    + 2 ^ 8 * (f.reason % 256) + 1

end Sys2Proof.Claims

/-- 09 R136, R137, 13 R183, 21 R299 to R303: a trap of the issuing group, with a trap entry and without one; a memory fault; a word
that is no instruction; and a fetch that fails. The order field of row 8 is the model's reading (log 17).
Where the manual is open it follows the model: log 17. -/
def Obligations.TrapsAndFaults : Prop :=
  ∀ (s : State) (c : Cause) (order half_ flags : Nat) (f : MemFault) (w : Word) (row : Nat),
    ((packet s).trap ≠ 0 → ∃ t, s.trap c order half_ flags = t ∧ OnlyGroup s t
        ∧ (∀ l, l < 32 → (t.me.thr l).pc = if s.me.inSubset l then (packet s).trap else (s.me.thr l).pc)
        ∧ (∀ l, l < 32 → (t.me.thr l).meet = (s.me.thr l).meet ∧ (t.me.thr l).held = (s.me.thr l).held
          ∧ (t.me.thr l).exited = (s.me.thr l).exited ∧ (t.me.thr l).preds = (s.me.thr l).preds)
        ∧ t.me.cur = (packet s).trap ∧ t.me.pending = []
        ∧ t.me.sread 62 = causeBits c order half_ flags ∧ t.me.sread 63 = s.me.cur
        ∧ (∀ n : Fin 64, n.val < 62 → t.me.sread n = s.me.closeWindows.sread n)
        ∧ (∀ (r : Fin 320) (l : Nat), l < 32 → t.me.vread r l = s.me.closeWindows.vread r l)
        ∧ t.me = { s.me with threads := t.me.threads, cur := t.me.cur, pending := [], v := t.me.v, dead := t.me.dead, s := t.me.s })
      ∧ ((packet s).trap = 0 → s.trap c order half_ flags = (s.setMe { s.me.closeWindows with status := .parked .trap }).post
          s.myPart false
          { words := [causeBits c order half_ flags, s.me.cur, s.word, BitVec.ofNat 64 s.myTeam.grid, identBits s s.me, 0, 0, 0],
            timeAt := some 5, job := none, report := some (s.myTeam.grid, s.me.core) })
      ∧ s.memFault f = (s.setMe { s.me.closeWindows with status := .parked (.fault []) }).post s.myPart false
          { words := [BitVec.ofNat 64 (faultHead f), BitVec.ofNat 64 f.addr, s.me.cur, BitVec.ofNat 64 s.myTeam.grid, identBits s s.me,
              0, 0, 0], timeAt := some 5, job := none, report := some (s.myTeam.grid, s.me.core) }
      ∧ (s.Ready [] → decodeWord w = .error row → exec (.reservedInstructionWord w) s =
          .next ((aged s).trap (if row = 6 then .illegalOperand else .illegalInstruction) row (rejectHalf w)))
      ∧ (s.Ready [] → ∀ s1 e, s.translate s.me.core s.myPart Need.fetch s.me.cur.toNat = (s1, .error e) →
          exec .instructionFetchFault s = .next (s.memFault
            { lanes := [], access := 3, lane := 0, space := 4, reason := e, addr := s.me.cur.toNat }))
      ∧ (s.Ready [] → ∀ s1 x, s.translate s.me.core s.myPart Need.fetch s.me.cur.toNat = (s1, .ok x) →
          ((s1.physRead x.pa 8).2 = none → exec .instructionFetchFault s = .next (s.memFault
            { lanes := [], access := 3, lane := 0, space := 4, reason := 6, addr := s.me.cur.toNat }))
            ∧ ((s1.physRead x.pa 8).2.isSome = true → exec .instructionFetchFault s = .next s))

namespace Sys2Proof.Claims

/-- The words of a record as they are written: device time goes into its place (21 R301, R303). -/
def finalWords (s : State) (part : Nat) (r : Record) : List Word :=
  match r.timeAt with
  | some i => r.words.set i (BitVec.ofNat 64 (deviceTime s part))
  | none => r.words

/-- Where the next entry of a record ring lies: 25 R345. -/
def nextEntry (s : State) (part : Nat) (host : Bool) : Nat :=
  let p := s.part part
  (if host then p.hring else p.fring) + 64
    + 64 * ((if host then p.hprod else p.fprod).toNat % 2 ^ p.logs.getD (if host then 1 else 0) 0)

/-- The ring of a partition, in memory the device can write, with its entry and its header in one line each. -/
structure RingWritable (s : State) (part : Nat) (host : Bool) : Prop where
  base : (if host then (s.part part).hring else (s.part part).fring) % 4096 = 0
  hbm : (if host then (s.part part).hring else (s.part part).fring) + 64 + 64 * 2 ^ (s.part part).logs.getD (if host then 1 else 0) 0
    ≤ hbmTop - s.carve

/-- The notice of a record that goes up the link of its core's cluster (19 R287): kind 5, the grid, the record's index, the core. -/
def reportCmd (s : State) (part : Nat) (host : Bool) (grid core : Nat) : LinkCmd :=
  ⟨5, (s.link (core / 8)).upSeq, BitVec.ofNat 64 grid, BitVec.ofNat 64 ((s.part part).prod host).toNat, BitVec.ofNat 64 core⟩

/-- A record is written: its eight words at the ring's next entry, then the producer index in the ring's header, no other byte of memory,
and the interrupt (21 R304, 25 R340, R345). A
parked job keeps the index of its record, and the record of a group or of an engine job is reported up its cluster's link. -/
structure RingRecordPut (s t : State) (part : Nat) (host : Bool) (r : Record) : Prop where
  index : (t.part part).prod host = (s.part part).prod host + 1
  entry : r.words.length = 8 → RingWritable s part host → ∀ i k, i < 8 → k < 8 →
    t.memByte (nextEntry s part host + 8 * i + k) = (wordBytes ((finalWords s part r).getD i 0)).getD k 0
  header : RingWritable s part host → ∀ k, k < 4 →
    t.memByte ((if host then (s.part part).hring else (s.part part).fring) + k)
      = (leBytes 4 ((s.part part).prod host + 1).toNat).getD k 0
  bytes : s.Sound → r.words.length = 8 → MemKept s t fun q =>
    (nextEntry s part host ≤ q ∧ q < nextEntry s part host + 64)
      ∨ ((if host then (s.part part).hring else (s.part part).fring) ≤ q
        ∧ q < (if host then (s.part part).hring else (s.part part).fring) + 4)
  others : ∀ q, q ≠ part → t.part q = s.part q
  irq : t.card.irqst.getLsbD (if host then 2 else 1) = true
  job : ∀ n, t.job n = if r.job = some n then { s.job n with record := some ((s.part part).prod host).toNat } else s.job n
  report : ∀ n, t.link n = match r.report with
    | some (grid, core) =>
      if n = core / 8 then
        let l := s.link n
        let c := reportCmd s part host grid core
        if l.up.length < 8 then { l with upSeq := l.upSeq + 1, up := l.up ++ [c] }
        else { l with upSeq := l.upSeq + 1, upWait := l.upWait ++ [c] }
      else s.link n
    | none => s.link n
  rest : t = { s with parts := t.parts, jobs := t.jobs, links := t.links, card := t.card, mem := t.mem, bad := t.bad
                      sectors := t.sectors, counters := t.counters }

/-- A ring has room: its header can be read, and fewer records than entries stand between its indices (25 R345). -/
def hasRoom (s : State) (part : Nat) (host : Bool) : Prop :=
  ∃ c, s.ringCons (s.part part) host = some c
    ∧ ((s.part part).prod host - c).toNat ≠ 2 ^ (s.part part).logs.getD (if host then 1 else 0) 0

/-- The record and the ring's header can be written: no byte of them lies where nothing can (23 R318, 25 R337). -/
def canWrite (s : State) (part : Nat) (host : Bool) (r : Record) : Prop := (s.writeRecord part host r).2 = true

/-- Nothing more keeps a partition from ceasing to exist (25 R342). -/
def staysUp (s : State) (part : Nat) : Prop := (s.part part).dropping = false

end Sys2Proof.Claims

/-- 21 R304, 19 R273, 25 R340, R345: a record of any kind is written at once when its ring has room and none waits, and otherwise
waits; so does one that cannot be written. `RING_RECORD_WRITE` writes the oldest waiting one once it can; `COMPLETION_NOTICE` posts
the oldest notice to the host ring. A ring in the device's own memory can always be written.
Where the manual is open it follows the model: logs 37, 65. -/
def Obligations.RecordRings : Prop :=
  ∀ (s : State) (part : Nat) (host : Bool) (r : Record) (rest : List Record), s.Sound →
    ((s.part part).waitList host = [] → hasRoom s part host → canWrite s part host r →
        RingRecordPut s (s.post part host r) part host r)
      ∧ (((s.part part).waitList host ≠ [] ∨ ¬ hasRoom s part host ∨ ¬ canWrite s part host r) →
          ∃ t, s.post part host r = t ∧ t = { s with parts := t.parts }
          ∧ (∀ q, q ≠ part → t.part q = s.part q) ∧ (t.part part).waitList host = (s.part part).waitList host ++ [r]
          ∧ (t.part part).prod host = (s.part part).prod host)
      ∧ (r.words.length = 8 → RingWritable s part host → canWrite s part host r)
      ∧ ((s.part part).waitList host = [] → exec (.ringRecordWrite part host) s = .next s)
      ∧ ((s.part part).waitList host = r :: rest → (¬ hasRoom s part host ∨ ¬ canWrite s part host r) →
          exec (.ringRecordWrite part host) s = .next s)
      ∧ ((s.part part).waitList host = r :: rest → hasRoom s part host → canWrite s part host r → staysUp s part →
          ∃ t, exec (.ringRecordWrite part host) s = .next t ∧ RingRecordPut s t part host r ∧ (t.part part).waitList host = rest)
      ∧ ((s.part part).notices = [] → exec (.completionNotice part) s = .next s)
      ∧ ((s.part part).notices = r :: rest → staysUp s part → (s.part part).hwait = [] → hasRoom s part true →
          canWrite s part true r →
          ∃ t, exec (.completionNotice part) s = .next t ∧ RingRecordPut s t part true r ∧ (t.part part).notices = rest)
      ∧ ((s.part part).notices = r :: rest → staysUp s part →
          ((s.part part).hwait ≠ [] ∨ ¬ hasRoom s part true ∨ ¬ canWrite s part true r) →
          exec (.completionNotice part) s =
            .next (s.setPart part { s.part part with notices := rest, hwait := (s.part part).hwait ++ [r] }))

/-! ## The command front end (19 R267 to R285, 13 R219, R220) -/

namespace Sys2Proof.Claims

/-- The eight words of a completion record (19 R270). -/
def completionWords (c : Completion) (tag : Word) (now : Nat) : List Word :=
  [BitVec.ofNat 64 (2 ^ 32 * (c.ran % 2 ^ 32) + 2 ^ 16 * (c.reason % 256) + (if c.nerr then 2 ^ 10 else 0) + (if c.exp then 2 ^ 9 else 0)
      + 2 ^ 8 + c.status % 256),
   BitVec.ofNat 64 c.grid, c.valid, tag, BitVec.ofNat 64 c.admitted, BitVec.ofNat 64 c.start, BitVec.ofNat 64 now,
   BitVec.ofNat 64 (2 ^ 32 * (c.cancel % 2 ^ 32))]

/-- The eight words of a completion notice (19 R273). -/
def noticeWords (c : Completion) (p : Packet) (now : Nat) : List Word :=
  [BitVec.ofNat 64 (2 ^ 32 * (c.ran % 2 ^ 32) + 2 ^ 16 * (c.reason % 256) + 2 ^ 8 * (c.status % 256) + 7), BitVec.ofNat 64 c.grid,
   p.recAddr, p.tag, c.valid, BitVec.ofNat 64 now, 0, 0]

/-- A state with the notice of a packet that asks for one (19 R273). -/
def noticed (s : State) (part : Nat) (p : Packet) (c : Completion) : State :=
  if p.notify then
    s.setPart part { s.part part with
      notices := (s.part part).notices ++ [{ words := noticeWords c p (deviceTime s part), timeAt := none, job := none }] }
  else s

/-- A memory-fault record of the front end (21 R303). -/
def frontRecord (part access reason addr grid : Nat) : Record :=
  { words := [BitVec.ofNat 64 (2 ^ 24 * (access % 8) + 2 ^ 16 * 4 + 2 ^ 8 * (reason % 256) + 1), BitVec.ofNat 64 addr, 0,
      BitVec.ofNat 64 grid, BitVec.ofNat 64 (part % 64), 0, 0, 0], timeAt := some 5, job := none }

/-- The next grid identifier of a partition (19 R272), and the state that has counted it. -/
def identifier (s : State) (part : Nat) : Nat := part * 2 ^ 58 + ((s.part part).seq + 1) % 2 ^ 58
def counted (s : State) (part : Nat) : State := s.setPart part { s.part part with seq := (s.part part).seq + 1 }

/-- The grid of a launching team. -/
def parentOf (s : State) (parent : Option Nat) : Option Grid := parent.map fun tk => s.grid (s.team tk).grid

/-- The heap entry of an admitted packet (01 R19, 19 R272, R276, R290). -/
structure Admitted (s : State) (part : Nat) (p : Packet) (priv : Bool) (parent : Option Nat) (g : Graph) : Prop where
  entry : g.live = true ∧ g.started = false ∧ g.part = part ∧ g.pkt = p ∧ g.order = s.nextOrder ∧ g.parent = parent
  time : g.admitted = deviceTime s part
  depth : g.depth = (match parentOf s parent with | some x => x.depth | none => 0) + 1
  sys : g.sys = (priv || (match parentOf s parent with | some x => x.sys | none => false))
  deadline : g.deadline = (match parentOf s parent with | some x => min p.deadline x.deadline | none => p.deadline)
  expiry : g.expiry = (match parentOf s parent with | some x => min (g.deadline - p.budget) x.expiry | none => g.deadline - p.budget)

/-- The demand test of 19 R275 for a packet of deadline d and work w. -/
def demandOk (s : State) (part d w : Nat) : Prop :=
  let items := (d, w) :: (s.heapOf part).map fun g => (g.deadline, g.pkt.work)
  ∀ j ∈ items, d ≤ j.1 → 256000 * natSum ((items.filter fun i => decide (i.1 ≤ j.1)).map Prod.snd) ≤ (s.part part).share * (j.1 - deviceTime s part)

/-- Scratchpad bytes that a packet needs on one core (19 R267). -/
def scratchNeed (p : Packet) (perCore : Nat) : Nat := (1024 * p.spkib + 32 * 64 * p.priv * perCore + 1023) / 1024 * 1024

/-- The checks of 19 R268 that need the packet alone, in their order; a kernel node's packet has no `graph`, `root` or record
(R282). -/
def shapeTests (p : Packet) (node : Bool) : List (Nat × Prop) :=
  let size := p.groups + 1
  let perCore := if p.paired then size / 2 else size
  let present := p.rings.takeWhile fun r => r.1
  [(0x10, p.ver ≠ 1 ∨ p.rsv = true ∨ (node = false ∧ p.graph = false ∧ p.root ≠ 0)),
   (0x11, p.paired = true ∧ size % 2 ≠ 0),
   (0x12, 1 < ((p.roles.take size).filter (· == 3)).length ∨ ∃ x ∈ p.roles.drop size, x ≠ 0),
   (0x13, p.gran < 1 ∨ 20 < p.gran ∨ 512 < p.spkib ∨ 32 < p.priv ∨ 2 < p.acc),
   (0x14, (∃ r ∈ p.rings.drop present.length, r.1 = true) ∨ (∃ r ∈ present, r.2.2 = 0)
      ∨ 1024 * p.spkib < (present.map fun r => (r.2.1 + 1) * (256 * r.2.2)).sum),
   (0x15, 192 < p.gran * perCore ∨ 32 < perCore ∨ 2 ^ 19 < scratchNeed p perCore),
   (0x16, p.entry = 0 ∨ p.entry.toNat % 8 ≠ 0 ∨ p.wrap.toNat % 8 ≠ 0 ∨ p.trap.toNat % 8 ≠ 0 ∨ (p.recAddr = 0 ∧ node = false)
      ∨ p.recAddr.toNat % 64 ≠ 0 ∨ p.vword.toNat % 8 ≠ 0 ∨ p.bind.toNat % 16 ≠ 0)]

/-- A binding table of `n` entries breaks a rule of reason 0x17 (19 R268, R284). -/
def tableWrong (n : Nat) (bs : List Byte) : Prop :=
  let at_ := fun k o w => leNat ((bs.drop (16 * k + o)).take w)
  ∃ k, k < n ∧ (at_ k 0 4 = 0 ∨ at_ k 4 4 ≠ 0 ∨ at_ k 8 8 % 16 ≠ 0 ∨ ∃ m, m < k ∧ at_ m 0 4 = at_ k 0 4)

/-- The checks of 19 R268 in their order: the first that fails gives its reason. -/
def ShapeChecks (s : State) (part : Nat) (p : Packet) (node mayBeSys : Bool) : Prop :=
  let check := s.shapeCheck part p node mayBeSys
  let last := if p.sys = true ∧ mayBeSys = false then some 0x19 else none
  (∀ pre r fails post, shapeTests p node = pre ++ (r, fails) :: post → fails → (∀ x ∈ pre, ¬ x.2) → check = (s, some r))
    ∧ ((∀ x ∈ shapeTests p node, ¬ x.2) →
      (16 < p.nbind → check = (s, some 0x17))
        ∧ (p.nbind = 0 → check = (s, last))
        ∧ (0 < p.nbind → p.nbind ≤ 16 → ∀ s1 r, s.vread noCore part p.bind.toNat (16 * p.nbind) = (s1, r) →
          match r with
          | .error _ => check = (s1, some 0x17)
          | .ok bs => (tableWrong p.nbind bs → check = (s1, some 0x17)) ∧ (¬ tableWrong p.nbind bs → check = (s1, last))))

/-- The first check of 19 R274 after the shape that fails. -/
def refusedWith (s : State) (part d : Nat) (p : Packet) (r : Nat) : Prop :=
  let late := d ≤ deviceTime s part + p.budget
  let full := (s.part part).quota ≤ (s.heapOf part).length ∨ 256 ≤ s.heapSize
  (late ∧ r = 1) ∨ (¬ late ∧ full ∧ r = 2) ∨ (¬ late ∧ ¬ full ∧ ¬ demandOk s part d p.work ∧ r = 3)

end Sys2Proof.Claims

/-- 19 R268, R270 to R276, 01 R19: a submitted packet gets the next identifier; it is refused for its shape, or for the first of R274's
checks that fails, with a record, or becomes a heap entry; the record and the notice hold the words of R270 and R273. The checks of the
shape are those of R268 in its order, but for 0x18, which a graph's start makes. Only a kernel node's packet may have no record (R282). Refusing the 257th heap entry for the quota is the model's choice (log 30).
Where the manual is open it follows the model: logs 30, 34, 35. -/
def Obligations.Admissions : Prop :=
  ∀ (s : State) (part : Nat) (p : Packet) (priv : Bool) (parent : Option Nat) (c : Completion),
    (∀ node mayBeSys, ShapeChecks s part p node mayBeSys) ∧
    (∀ s1 w,
        s.vwrite noCore part p.recAddr.toNat ((completionWords c p.tag (deviceTime s part)).flatMap wordBytes) = (s1, w) →
        let u := match w with
          | .ok _ => s1
          | .error e => s1.post part false (frontRecord part 1 e.2 p.recAddr.toNat c.grid)
        s.completePacket part p c = noticed u part p c
          ∧ (p.recAddr ≠ 0 → s.writeNodeCompletion part p c = u) ∧ (p.recAddr = 0 → s.writeNodeCompletion part p c = s))
      ∧ ∀ g, Admitted (counted s part) part p priv parent g → ∀ s1 e, (counted s part).shapeCheck part p false g.sys = (s1, e) →
        (∀ r, e = some r → s.submit part p priv parent =
            (s1.completePacket part p { status := 4, reason := r, grid := identifier s part }, identifier s part))
          ∧ (e = none → ∀ r, refusedWith s1 part g.deadline p r → s.submit part p priv parent =
            (s1.completePacket part p { status := 3, reason := r, grid := identifier s part }, identifier s part))
          ∧ (e = none → (∀ r, ¬ refusedWith s1 part g.deadline p r) →
            ∃ t, s.submit part p priv parent = (t, identifier s part) ∧ t = { s1 with graphs := t.graphs, nextOrder := s1.nextOrder + 1 }
              ∧ Admitted (counted s part) part p priv parent (t.graph (identifier s part))
              ∧ ∀ k, k ≠ identifier s part → t.graph k = s1.graph k)

namespace Sys2Proof.Claims

/-- An instruction's own group after `LAUNCH`, on top of a state v that has taken the packet. -/
def LaunchStep (i : Instr) (s v : State) (d : Opd) (act : List Nat) (id : Nat) : Prop :=
  ∃ t, exec i s = .next t ∧ t = { v with groups := t.groups } ∧ (∀ k, k ≠ s.focus → t.grp k = s.grp k)
    ∧ GroupEffect s t s.seen (one d act fun _ => BitVec.ofNat 64 id) [] act 0

/-- The state in which the groups of the team end: `DONE.grid` has cancelled the unstarted teams (13 R220). -/
def doneFrom (s : State) (grid : Bool) : State :=
  let u := aged s
  if grid then (u.setGrid s.myTeam.grid { s.myGrid with doneGrid := true }).cancelUnstarted s.myTeam.grid else u

end Sys2Proof.Claims

/-- 13 R219, R220, 01 R25, 19 R274: `LAUNCH` by another thread than the leader raises the role trap; an unreadable packet faults; at
depth 10 it writes a depth-exceeded record and answers 0; otherwise it submits the packet and answers its identifier. `DONE` ends every
group of the team. `SUBMISSION_ENTRY` takes one entry of a queue, with the consumer index in the queue's header, and submits its packet,
or records a fault.
Where the manual is open it follows the model: logs 9, 19, 35, 36, 58. -/
def Obligations.LaunchesAndQueues : Prop :=
  ∀ (s : State) (g : Guard) (d a : Opd) (grid : Bool) (part : Nat) (priv : Bool),
    (s.Ready [d, a] → s.act g ≠ [] →
      ((∃ l ∈ s.act g, s.seen.index ≠ 0 ∨ l ≠ 0) → exec (.launch g d a) s = .next ((aged s).trap .role 8))
        ∧ ((∀ l ∈ s.act g, s.seen.index = 0 ∧ l = 0) →
          (∀ s1 e, (aged s).readPacket s.seen.core s.myPart (groupVal s g a) ((aged s).groupView s.focus) = (s1, .error e) →
            exec (.launch g d a) s = .next (s1.memFault
              { lanes := s.act g, access := 4, lane := (s.act g).headD 0, space := 4, reason := e.2, addr := e.1 }))
            ∧ ∀ s1 p, (aged s).readPacket s.seen.core s.myPart (groupVal s g a) ((aged s).groupView s.focus) = (s1, .ok p) →
              (10 ≤ s.myGrid.depth → LaunchStep (.launch g d a) s (s1.completePacket s.myPart p { status := 5, grid := 0 }) d (s.act g) 0)
                ∧ (s.myGrid.depth < 10 → LaunchStep (.launch g d a) s (s1.submit s.myPart p false (some s.seen.team)).1 d (s.act g)
                  (identifier s1 s.myPart))))
      ∧ (s.Ready [] → s.act g ≠ [] →
        let u := doneFrom s grid
        let v := (u.teamGroups s.seen.team).foldl State.endGroup u
        exec (.done g grid) s = .next (v.growCheck s.myTeam.cores)
          ∧ (∀ k ∈ s.teamGroups s.seen.team, (v.grp k).status = .ended)
          ∧ (∀ k, k ∉ s.teamGroups s.seen.team → k ≠ s.focus → v.grp k = s.grp k)
          ∧ v.teams = s.teams ∧ v.jobs = s.jobs ∧ v.mem = s.mem
          ∧ (grid = false → v.grids = s.grids ∧ v.links = s.links)
          ∧ (grid = true → s.myGrid.stopping = false → (v.grid s.myTeam.grid).doneGrid = true ∧ (v.grid s.myTeam.grid).stopping = true
            ∧ (v.grid s.myTeam.grid).cancelled = s.myGrid.pkt.teams + 1 - s.myGrid.started))
      ∧ (s.Ready [d, a] → s.act g = [] → (∃ t, exec (.launch g d a) s = .next t ∧ RegEffect s t s.seen noReg [] [] 0)
        ∧ ∃ t, exec (.done g grid) s = .next t ∧ RegEffect s t s.seen noReg [] [] 0)
      ∧ (let x := s.part part
        let q := if priv then (x.plimit, x.pcons) else (x.nlimit, x.ncons)
        let entry := (if priv then x.sqp else x.sqn) + 64 + 8 * (q.2.toNat % 2 ^ x.logs.getD (if priv then 3 else 2) 0)
        ((x.live = false ∨ x.dropping = true ∨ q.1 = q.2) → exec (.submissionEntry part priv) s = .next s)
          ∧ (x.live = true → x.dropping = false → q.1 ≠ q.2 → ∀ s1 bs, s.physRead entry 8 = (s1, bs) →
            let base := if priv then x.sqp else x.sqn
            ∃ s2 : State,
              s2 = { s with parts := s2.parts, mem := s2.mem, bad := s2.bad, sectors := s2.sectors, counters := s2.counters }
              ∧ (∀ k, k ≠ part → s2.part k = s.part k)
              ∧ s2.part part = { x with ncons := if priv then x.ncons else x.ncons + 1, pcons := if priv then x.pcons + 1 else x.pcons }
              ∧ (s.Sound → MemKept s s2 fun k => base + 4 ≤ k ∧ k < base + 8)
              ∧ (base % 64 = 0 → base + 64 ≤ hbmTop - s.carve → ∀ k, k < 4 →
                s2.memByte (base + 4 + k) = (leBytes 4 (q.2 + 1).toNat).getD k 0)
              ∧ (bs = none → exec (.submissionEntry part priv) s = .next (s2.post part false (frontRecord part 4 6 entry 0)))
              ∧ ∀ b, bs = some b →
                (∀ s3 e, s2.readPacket noCore part (BitVec.ofNat 64 (leNat b)) = (s3, .error e) →
                  exec (.submissionEntry part priv) s = .next (s3.post part false (frontRecord part 4 e.2 e.1 0)))
                  ∧ ∀ s3 p, s2.readPacket noCore part (BitVec.ofNat 64 (leNat b)) = (s3, .ok p) →
                    exec (.submissionEntry part priv) s = .next (s3.submit part p priv none).1))

namespace Sys2Proof.Claims

/-- An entry of the heap that has not started. -/
def startable (s : State) (k : Nat) : Prop := ∃ x, (k, x) ∈ s.graphs ∧ x.live = true ∧ x.started = false

/-- The admitted packet that starts next: the earliest deadline, then the earliest admission (19 R277). -/
def StartsNext (s : State) (gid : Nat) : Prop :=
  startable s gid ∧ ∀ k, startable s k → ¬ ((s.graph k).deadline < (s.graph gid).deadline
    ∨ ((s.graph k).deadline = (s.graph gid).deadline ∧ (s.graph k).order < (s.graph gid).order))

/-- A kernel grid as it starts (19 R269, R286, R290, R294). -/
structure GridStarted (s : State) (gid graph : Nat) (node : Option Nat) (p : Packet) (bs : List (Nat × Word)) (x : Grid) : Prop where
  name : x.live = true ∧ x.part = (s.graph graph).part ∧ x.graph = graph ∧ x.node = node ∧ x.pkt = p ∧ x.bindings = bs
  place : x.depth = (s.graph graph).depth ∧ x.deadline = (s.graph graph).deadline ∧ x.expiry = (s.graph graph).expiry
    ∧ x.cls = (s.graph graph).pkt.cls ∧ x.sys = p.sys
  fresh : x.started = 0 ∧ x.retired = 0 ∧ x.cancelled = 0 ∧ x.vheld = 0 ∧ x.cbars = [] ∧ x.born = s.past.length

/-- The commands on their way down a link. -/
def goingDown (s : State) (n : Nat) : List LinkCmd := (s.link n).down ++ (s.link n).downWait

/-- The successors that a node's entry lists: halfwords up to the first 0xFFFF (19 R278). -/
def successors (n : Node) : List Nat :=
  ((List.range 8).map fun k => (if k < 4 then n.succ0 else n.succ1).toNat / 2 ^ (16 * (k % 4)) % 2 ^ 16).takeWhile (· ≠ 0xFFFF)

/-- A node that lists lead to from `root`. -/
inductive Reachable (s : State) (root : Nat) : Nat → Prop where
  | start : Reachable s root root
  | next (i j : Nat) : Reachable s root i → j ∈ successors (s.node i) → Reachable s root j

/-- A node that fails a check of 19 R279: outside the partition's range, in a running graph, with a reserved bit, or with a job that its
kind does not allow. -/
def nodeWrong (s : State) (part i : Nat) : Prop :=
  let n := s.node i
  let w := n.w0.toNat
  i < (s.part part).nb ∨ (s.part part).nb + (s.part part).nn ≤ i ∨ 16384 ≤ i ∨ n.graph ≠ 0
    ∨ w / 2 ^ 50 ≠ 0 ∨ w / 2 ^ 4 % 2 ^ 12 ≠ 0 ∨ w / 2 ^ 2 % 2 ≠ 0
    ∨ (if w % 4 = 3 then n.job ≠ 0 else n.job = 0 ∨ n.job.toNat % 128 ≠ 0)

/-- The nodes of a graph whose packet is x's: all those reachable from its root in ascending order, unless a check of 19 R279 fails. -/
def NodesOf (s : State) (x : Graph) : Prop :=
  let bad := (∃ i, Reachable s x.pkt.root i ∧ nodeWrong s x.part i) ∨ (s.node x.pkt.root).w0.toNat / 2 ^ 16 % 2 ^ 16 ≠ 0
  (bad → s.graphNodes x = none)
    ∧ (¬ bad → ∃ ns, s.graphNodes x = some ns ∧ ns.Pairwise (· < ·) ∧ ∀ i, i ∈ ns ↔ Reachable s x.pkt.root i)

/-- A ready node of a running graph. -/
def dispatchable (s : State) (k : Nat) : Prop := (s.node k).graph ≠ 0 ∧ (s.node k).phase = .ready

/-- The ready node that is dispatched next: the earliest deadline, then the earliest admission, then the lowest index (19 R277). -/
def DispatchedNext (s : State) (i : Nat) : Prop :=
  let g := fun k => s.graph (s.node k).graph
  dispatchable s i ∧ ∀ k, dispatchable s k → k ≠ i →
    (g i).deadline < (g k).deadline ∨ ((g i).deadline = (g k).deadline
      ∧ ((g i).order < (g k).order ∨ ((g i).order = (g k).order ∧ i < k)))

/-- The kind of job that a block names by its opcode, for a transform (kind 1) or a copy node (kind 2) (19 R282). -/
def jobKindAt (kind op : Nat) : Option JobKind :=
  if kind = 1 then if op = 0x14 then some .xform else none
  else if op = 0x10 then some .cpy else if op = 0x11 then some .cpy2d else if op = 0x12 then some .gather
  else if op = 0x13 then some .scatter else if op = 0x15 then some .kvsend else if op = 0x16 then some .wbcast else none

/-- Modifier bits that are 0 in every word of the instruction (17 R257). -/
def modsWrong (k : JobKind) (m : Nat) : Prop :=
  match k with
  | .cpy | .cpy2d => m % 16 ≠ 0
  | .gather => False
  | .scatter => m / 8 % 2 ≠ 0
  | .xform => m / 2 ≠ 0
  | .kvsend | .ringpush => m ≠ 0
  | .wbcast => m % 16 ≠ 0 ∨ m / 64 ≠ 0

/-- A job as its block describes it (19 R282). -/
structure BlockRead (s : State) (idx : Nat) (k : JobKind) (ws : List Word) (j : Job) : Prop where
  kind : j.kind = k ∧ j.mods.toNat = (ws.getD 0 0).toNat / 2 ^ 8 % 256 ∧ j.ctl = 0 ∧ j.status = ws.getD 1 0
  operands : (∀ i, i < 2 → j.a.getD i 0 = ws.getD (2 + i) 0 ∧ j.b.getD i 0 = ws.getD (4 + i) 0) ∧ ∀ i, i < 3 → j.c.getD i 0 = ws.getD (6 + i) 0
  owner : j.core = noCore ∧ j.node = some idx ∧ j.part = (s.graph (s.node idx).graph).part ∧ j.pc = 0 ∧ j.ptrs = none
  start : j.chunk = 0 ∧ j.count = 0 ∧ j.bad = false ∧ j.bindings = (s.graph (s.node idx).graph).bindings

/-- The dispatch of a transform or copy node whose block holds `ws` (19 R282): it completes with an error when the opcode does not match
the kind, a field that must be 0 is not, an operand lies in a team's or a cluster's scratchpad, or a check of the instruction fails;
otherwise its job starts. -/
def JobDispatched (s : State) (idx : Nat) (ws : List Word) : Prop :=
  let wrong := fun u : State => s.startNodeJob idx ws = u.completeNode idx true
  (jobKindAt (s.node idx).kind ((ws.getD 0 0).toNat % 256) = none → wrong s)
    ∧ ∀ k, jobKindAt (s.node idx).kind ((ws.getD 0 0).toNat % 256) = some k → ∃ j, BlockRead s idx k ws j
      ∧ ((((ws.getD 0 0).toNat / 2 ^ 16 ≠ 0 ∨ (∃ i, 9 ≤ i ∧ i < 16 ∧ ws.getD i 0 ≠ 0) ∨ modsWrong k j.mods.toNat
          ∨ .sp ∈ j.spaces ∨ .cl ∈ j.spaces ∨ s.jobBad j = true ∨ j.misaligned ≠ none) → wrong s)
        ∧ (¬ ((ws.getD 0 0).toNat / 2 ^ 16 ≠ 0 ∨ (∃ i, 9 ≤ i ∧ i < 16 ∧ ws.getD i 0 ≠ 0) ∨ modsWrong k j.mods.toNat
          ∨ .sp ∈ j.spaces ∨ .cl ∈ j.spaces ∨ s.jobBad j = true ∨ j.misaligned ≠ none) →
          (∀ s1 e, s.jobDescs j = (s1, .error e) → wrong s1)
            ∧ ∀ s1 j', s.jobDescs j = (s1, .ok j') →
              (∀ s2 e, s1.statusAt j' = (s2, .error e) → wrong s2)
                ∧ ∀ s2, s1.statusAt j' = (s2, .ok ()) →
                  ∃ t, s.startNodeJob idx ws = t ∧ t = { s2 with jobs := t.jobs, nextJob := s2.nextJob + 1 }
                    ∧ (∀ n, n ≠ s2.nextJob → t.job n = s2.job n)
                    ∧ t.job s2.nextJob = { j' with phase := if s2.jobOverlaps j' then .failed 4 else .running }))

/-- The dispatch of a kernel node whose packet is p (19 R282): refused by R268 it completes with an error, and a record says why where the
packet has one; otherwise its grid starts, with the graph's deadline and class, and its own bindings if it lists some (R285). -/
def KernelDispatched (s : State) (idx : Nat) (p : Packet) : Prop :=
  let gid := (s.node idx).graph
  let part := (s.graph gid).part
  ∀ s1 e, s.shapeCheck part p true (s.graph gid).sys = (s1, e) →
    let u := counted s1 part
    (∀ r, e = some r → s.startNodeGrid idx p =
        (u.writeNodeCompletion part p { status := 4, reason := r, grid := identifier s1 part }).completeNode idx true)
      ∧ (e = none → p.vword = 0 → (s.part part).dropping = false → ∀ s2 b, u.readBindings part p = (s2, b) →
        let v := if p.nbind = 0 then u else s2
        ∃ t, s.startNodeGrid idx p = t ∧ t = { v with grids := t.grids, links := t.links }
          ∧ GridStarted s (identifier s1 part) gid (some idx) p (if p.nbind = 0 then (s.graph gid).bindings else b.getD [])
            (t.grid (identifier s1 part))
          ∧ (∀ k, k ≠ identifier s1 part → t.grid k = s.grid k)
          ∧ ∃ c ∈ goingDown t 32, c.kind = 1 ∧ c.grid = BitVec.ofNat 64 (identifier s1 part) ∧ c.arg0 = 0
            ∧ c.arg1 = BitVec.ofNat 64 (p.teams + 1))

/-- A node as a graph captures it (19 R279). -/
structure Captured (n m : Node) (gid : Nat) : Prop where
  graph : m.graph = gid
  count : m.count = n.w0.toNat / 2 ^ 16 % 2 ^ 16
  kind : m.kind = n.w0.toNat % 4 ∧ m.skip = n.w0.getLsbD 3 ∧ m.cjob = n.job
  clear : m.err = false ∧ m.done = false
  succ : m.csucc = successors n

/-- One decrement of a node's counter (19 R280, R281, R283). -/
structure Decrements (s t : State) (i : Nat) (e : Bool) : Prop where
  others : ∀ k, k ≠ i → t.node k = s.node k
  gone : (s.node i).graph = 0 → t = s
  more : (s.node i).graph ≠ 0 → 1 < (s.node i).count → t.node i = { s.node i with count := (s.node i).count - 1, err := (s.node i).err || e }
  ready : (s.node i).graph ≠ 0 → (s.node i).count = 1 → s.graphOver (s.node i).graph = false →
    (((s.node i).err || e) && (s.node i).skip) = false → t.node i = { s.node i with count := 0, err := (s.node i).err || e, phase := .ready }
  skipped : (s.node i).graph ≠ 0 → (s.node i).count = 1 → s.graphOver (s.node i).graph = false →
    (((s.node i).err || e) && (s.node i).skip) = true → (t.node i).phase = .complete ∧ (t.node i).err = true
  late : (s.node i).graph ≠ 0 → (s.node i).count = 1 → s.graphOver (s.node i).graph = true → (t.node i).phase = .cancelled
  early : (s.node i).graph ≠ 0 → (s.node i).count = 0 → ((s.node i).phase ≠ .ready ∨ (s.node i).skip = false) →
    t.node i = { s.node i with err := true }

end Sys2Proof.Claims

/-- 19 R277, R279 to R286, R294: `GRAPH_START` starts the first admitted packet: a one-kernel packet becomes a grid and is passed on, a
graph captures its nodes, all those reachable from its root, which is ready, and a bad binding table or graph refuses it. `NODE_DISPATCH`
cancels, completes or runs the first ready node by deadline, admission and index, once its job block or packet has passed the checks of R282; `NODE_COMPLETION` completes a node whose run has ended; each decrement follows R280, R281 and R283.
Where the manual is open it follows the model: logs 34, 35, 36, 53, 91, 92. -/
def Obligations.GraphsAndNodes : Prop :=
  ∀ (s : State) (gid idx i : Nat) (e : Bool),
    ((∀ k, ¬ startable s k) → exec .graphStart s = .next s)
      ∧ (s.nextGraph = some gid →
        let x := s.graph gid
        StartsNext s gid
          ∧ (∀ s1, s.captureBindings x = (s1, none) → exec .graphStart s = .next (s1.refuseStart gid 0x17))
          ∧ (∀ s1 bs, s.captureBindings x = (s1, some bs) → x.pkt.graph = false → x.pkt.vword = 0 → (s.part x.part).dropping = false →
            ∃ t, exec .graphStart s = .next t ∧ t = { s1 with graphs := t.graphs, grids := t.grids, links := t.links }
              ∧ t.graph gid = { x with started := true, bindings := bs } ∧ (∀ k, k ≠ gid → t.graph k = s.graph k)
              ∧ GridStarted s gid gid none x.pkt bs (t.grid gid) ∧ (∀ k, k ≠ gid → t.grid k = s.grid k)
              ∧ ∃ c ∈ goingDown t 32, c.kind = 1 ∧ c.grid = BitVec.ofNat 64 gid ∧ c.arg0 = 0
                ∧ c.arg1 = BitVec.ofNat 64 (x.pkt.teams + 1))
          ∧ (∀ s1 bs, s.captureBindings x = (s1, some bs) → x.pkt.graph = true → s1.graphNodes x = none →
            exec .graphStart s = .next (s1.refuseStart gid 0x18))
          ∧ ∀ s1 bs ns, s.captureBindings x = (s1, some bs) → x.pkt.graph = true → s1.graphNodes x = some ns → x.pkt.root ∈ ns →
            x.expired = false → deviceTime s x.part < x.expiry →
            ∃ t, exec .graphStart s = .next t ∧ t = { s1 with graphs := t.graphs, nodes := t.nodes }
              ∧ t.graph gid = { x with started := true, bindings := bs, nodes := ns } ∧ (∀ k, k ≠ gid → t.graph k = s.graph k)
              ∧ (∀ k, k ∉ ns → t.node k = s.node k) ∧ (∀ k ∈ ns, Captured (s.node k) (t.node k) gid)
              ∧ (t.node x.pkt.root).phase = .ready ∧ ∀ k ∈ ns, k ≠ x.pkt.root → (t.node k).phase = .waiting)
      ∧ (∀ x, NodesOf s x)
      ∧ (∀ ws, ws.length = 16 → JobDispatched s idx ws)
      ∧ (∀ p, KernelDispatched s idx p)
      ∧ ((∀ k, ¬ dispatchable s k) → exec .nodeDispatch s = .next s)
      ∧ (s.nextNode = some idx ↔ DispatchedNext s idx)
      ∧ (s.nextNode = some idx →
        let n := s.node idx
        (s.graphOver n.graph = true → exec .nodeDispatch s = .next (s.cancelNode idx))
          ∧ (s.graphOver n.graph = false → (n.kind = 3 ∨ (n.err && n.skip) = true) → exec .nodeDispatch s = .next (s.completeNode idx false))
          ∧ (s.graphOver n.graph = false → n.kind ≠ 3 → (n.err && n.skip) = false →
            let u := s.setNode idx { n with phase := .running }
            (∀ s1 f, u.vread noCore (s.graph n.graph).part n.cjob.toNat 128 = (s1, .error f) → exec .nodeDispatch s =
                .next ((s1.post (s.graph n.graph).part false (frontRecord (s.graph n.graph).part 4 f.2 f.1 n.graph)).completeNode idx true))
              ∧ ∀ s1 bs, u.vread noCore (s.graph n.graph).part n.cjob.toNat 128 = (s1, .ok bs) → exec .nodeDispatch s =
                .next (if n.kind = 0 then s1.startNodeGrid idx (packetOf (wordsOf 16 bs)) else s1.startNodeJob idx (wordsOf 16 bs))))
      ∧ (s.nodeRan idx = false → exec (.nodeCompletion idx) s = .next s)
      ∧ (s.nodeRan idx = true → exec (.nodeCompletion idx) s = .next (s.completeNode idx false))
      ∧ Decrements s (s.oneDec i e).1 i e
      ∧ ((s.endNode idx e false).1.node idx = { s.node idx with phase := .complete, err := (s.node idx).err || e, done := true }
        ∧ (s.endNode idx e true).1.node idx = { s.node idx with phase := .cancelled, err := (s.node idx).err || e, done := false })

/-! ## The retirement of a job (17 R252, R255) -/

namespace Sys2Proof.Claims

/-- The status word (17 R252): `count` at 63:32, the opcode at 23:16, bit 15, the code at 7:0. -/
def statusBits (j : Job) (code : Nat) : Nat :=
  2 ^ 32 * min j.count 0xFFFFFFFF + 2 ^ 16 * j.kind.opcode + 2 ^ 15 + code

/-- Address `a` of a space is a destination byte of a chunk at or above the job's index, the only ones that status 0x03 or 0x07 leaves
indeterminate (17 R252, R253). -/
def LostAt (s : State) (j : Job) (spc : Space4) (a : Nat) : Prop :=
  let e := j.elemBytes
  match j.kind with
  | .cpy | .cpy2d =>
    spc = j.dstSpace ∧ ∃ k, 65536 * j.chunk ≤ k ∧ k < j.shape.row * j.shape.rows ∧ a = byteOf j (j.aAt 0) j.shape.ds k
  | .gather =>
    spc = j.dstSpace ∧ j.aAt 0 + 256 * j.chunk * e ≤ a ∧ (j.csr = false → a < j.aAt 0 + j.listLen * e)
      ∧ (j.csr = true → ∃ u ps, s.rowPointers j = (u, .ok ps) ∧ (∀ r, r + 1 < ps.length → ps.getD r 0 ≤ ps.getD (r + 1) 0)
        ∧ a < j.aAt 0 + min (ps.getLastD 0 - ps.headD 0) j.lim * e)
  | .scatter =>
    spc = j.dstSpace
      ∧ ∃ i bs, 256 * j.chunk ≤ i ∧ i < j.listLen
        ∧ ((s.team j.team).phase ≠ .saved → Reads s j j.listSpace (j.cAt 0 + 4 * i) 4 bs) ∧ leNat bs < j.lim
        ∧ j.aAt 0 + leNat bs * e ≤ a ∧ a < j.aAt 0 + leNat bs * e + e
  | .xform =>
    let d := j.dstDesc
    let t0 := j.firstTile + 16 * j.chunk
    let n := j.tileCount - 16 * j.chunk
    spc = .g
      ∧ (d.coded = false → d.plainAt t0 ≤ a ∧ a < d.plainAt (t0 + n - 1) + slotSize d.fmt d.sparsity)
      ∧ (d.coded = true → ∃ t, t0 ≤ t ∧ t < t0 + n
        ∧ ((∃ es, (s.readLine j.agent (d.page t) none (descCtx 4 0)).2 = .ok es
            ∧ let first := max t0 (t / 128 * 128)
              let m := min (t0 + n) (t / 128 * 128 + 128) - first
              let start := d.page t + slotStart es (first % 128)
              start ≤ a ∧ a < d.page t + 65536
                ∧ let above := ∃ x ∈ es.drop (first % 128 + m), slotStart es (first % 128 + m) < 16 * entryEnd x
                  (above → a < d.page t + slotStart es (first % 128 + m)) ∧ (¬ above → a < start + m * slotSize d.fmt d.sparsity))
          ∨ s.lineAt j.part (d.page t) + 2 * (t % 128) ≤ a ∧ a < s.lineAt j.part (d.page t) + 2 * (t % 128) + 2))
  | .ringpush => spc = .sp ∧ s.slotStartOf j ≤ a ∧ a < s.slotStartOf j + j.pushCount * slotSize j.srcDesc.fmt j.srcDesc.sparsity
  | .kvsend | .wbcast => False

/-- One byte after another is replaced, where it can be written. -/
def Replaced (j : Job) : State → List (Space4 × Nat) → State → Prop
  | s, [], t => t = s
  | s, x :: xs, t => ∃ u, (u = s ∨ ∃ b, Writes s u j x.1 x.2 [b] ∧ EngineOnly { s with choices := u.choices } u) ∧ Replaced j u xs t

/-- The destination as the job's end leaves it (17 R252). -/
def Indeterminate (s t : State) (j : Job) (code : Nat) : Prop :=
  if code = 3 ∨ code = 7 then ∃ xs, (∀ x ∈ xs, LostAt s j x.1 x.2) ∧ Replaced j s xs t else t = s

/-- The record of a status address that is not writable any more (17 R252). -/
def statusFault (j : Job) (reason : Nat) : Record :=
  { words := [BitVec.ofNat 64 (faultHead ⟨[], 6, 0, 4, reason, 0⟩), j.status, j.pc, BitVec.ofNat 64 j.grid, j.ident, 0,
      BitVec.ofNat 64 j.chunk, 0], timeAt := some 5, job := none }

/-- The status word is written, or a record says that it is lost (17 R252). -/
def StatusPut (s t : State) (j : Job) (code : Nat) (lost : Bool) : Prop :=
  (j.status = 0 → t = s ∧ lost = false)
    ∧ (j.status ≠ 0 → ∀ u r, s.vwrite j.core j.part j.status.toNat (leBytes 8 (statusBits j code)) = (u, r) →
      match r with
      | .ok _ => t = u ∧ lost = false
      | .error e => t = u.post j.part false (statusFault j e.2) ∧ lost = true)

/-- Of the effects of 17 R255 after the status word the job has only those marked. -/
def HasOnly (j : Job) (ring tag bar node own : Bool) : Prop :=
  (ring = false → j.ringSlot = none) ∧ (tag = false → ctlTag j.ctl = none) ∧ (bar = false → ctlBar j.ctl = none)
    ∧ (node = false → ctlNode j.ctl = none) ∧ (own = false → j.node = none)

end Sys2Proof.Claims

/-- 17 R250, R252, R255, 01 R27, 13 R203, R205, 19 R280: `JOB_RETIREMENT` of a job that finished or failed: the job is gone; after
status 0x03 or 0x07 only bytes of chunks at or above its index change; the status word is written, or a record says why not; a named
ring slot flips its pip, becomes full and loses its claim; the named event is raised on the groups of the team; a named barrier takes
one arrival; a named node is decremented, with the error bit after any other status than 0. -/
def Sys2Proof.Claims.JobRetirements : Prop :=
  ∀ (s : State) (n code : Nat),
    let j := s.job n
    j.live = true → (j.phase = .finished ∧ code = 0 ∨ j.phase = .failed code) →
    ∃ t v u lost, exec (.jobRetirement n) s = .next t ∧ t.job n = Job.absent ∧ (∀ m, m ≠ n → t.job m = s.job m)
      ∧ j.statusWord = BitVec.ofNat 64 (statusBits j code) ∧ Indeterminate s v j code ∧ StatusPut v u j code lost
      ∧ (HasOnly j false false false false false → t = { u with jobs := t.jobs })
      ∧ (∀ r sl b, j.ringSlot = some (r, sl) → slotBit (s.team j.team) Ring.pips r sl = some b →
        (slotBit (s.team j.team) Ring.full r sl).isSome = true → (slotBit (s.team j.team) Ring.claim r sl).isSome = true →
        slotBit (t.team j.team) Ring.pips r sl = some !b ∧ slotBit (t.team j.team) Ring.full r sl = some true
          ∧ slotBit (t.team j.team) Ring.claim r sl = some false
          ∧ (HasOnly j true false false false false → (u.teamGroups j.team).Nodup → ∀ k ∈ u.teamGroups j.team,
            (u.grp k).divert = false → t.grp k = released (some (.ring r sl !b)) (u.grp k)))
      ∧ (∀ tag, ctlTag j.ctl = some tag →
        (∀ i, i < (s.team j.team).size → (s.grp (32 * j.team + i)).status = .running →
          (t.grp (32 * j.team + i)).evpend.getLsbD (64 + tag) = true)
          ∧ (HasOnly j false true false false false →
            ∃ w, Signals u w (u.teamGroups j.team) none (64 + tag) ∧ t = { w with jobs := t.jobs }))
      ∧ (∀ b, ctlBar j.ctl = some b → HasOnly j false false true false false →
        let x := kget Barrier.start (u.team j.team).bars b
        let put := fun y : Barrier => u.setTeam j.team ((u.team j.team).setBar b y)
        ((x.armed = false ∨ x.arrivals + 1 < x.count) → t = { put { x with arrivals := x.arrivals + 1 } with jobs := t.jobs })
          ∧ (x.armed = true → x.count ≤ x.arrivals + 1 →
            ∃ w, Signals (put ⟨x.arrivals + 1 - x.count, x.count, false, !x.phase⟩) w (u.teamGroups j.team) (some (.bar b x.phase)) b
              ∧ t = { w with jobs := t.jobs }))
      ∧ (∀ i, ctlNode j.ctl = some i → HasOnly j false false false true false → (u.node i).graph ≠ 0 →
        (∃ k ∈ (u.graph (u.node i).graph).nodes, k ≠ i ∧ (u.node k).phase = .running) →
        let e := (u.node i).err || code != 0 || lost
        (1 < (u.node i).count → t.node i = { u.node i with count := (u.node i).count - 1, err := e } ∧ ∀ k, k ≠ i → t.node k = u.node k)
          ∧ ((u.node i).count = 1 → u.graphOver (u.node i).graph = false → (e && (u.node i).skip) = false →
            t.node i = { u.node i with count := 0, err := e, phase := .ready } ∧ ∀ k, k ≠ i → t.node k = u.node k))
      ∧ ∀ i, j.node = some i → HasOnly j false false false false true →
        t.node i = { u.node i with err := (u.node i).err || code != 0 || lost }

/-- 17 R248, R252, R255, R256, R258, 01 R27: the start and the retirement of an engine job.
Where the manual is open it follows the model: logs 9, 24, 28, 31, 54, 78, 83. -/
def Obligations.JobStartsAndRetirements : Prop := JobStarts ∧ JobRetirements

/-! ## Command links, leaf controllers, deadlines (19 R286 to R293, 01 R28, R33) -/

namespace Sys2Proof.Claims

/-- A link after its receiver has taken one command (19 R287): the buffer moves up, and a waiting command takes the freed permit. -/
def linkTaken (l : Link) (up : Bool) : Link :=
  if up then { l with up := l.up.tail ++ l.upWait.take 1, upWait := l.upWait.tail }
  else { l with down := l.down.tail ++ l.downWait.take 1, downWait := l.downWait.tail }

/-- The oldest command in a receiver's buffer. -/
def oldest (s : State) (n : Nat) (up : Bool) : Option LinkCmd := if up then (s.link n).up.head? else (s.link n).down.head?

/-- The commands on their way up a link. -/
def goingUp (s : State) (n : Nat) : List LinkCmd := (s.link n).up ++ (s.link n).upWait

/-- The command is taken and nothing else happens. -/
def OnlyTaken (s t : State) (n : Nat) (up : Bool) : Prop := t = s.setLink n (linkTaken (s.link n) up)

/-- A command of these fields goes up link `n`, behind those that are there. -/
def WentUp (s t : State) (n kind : Nat) (grid arg0 arg1 : Word) : Prop :=
  (∀ k, k ≠ n → t.link k = s.link k) ∧ ∃ c ∈ goingUp t n, c.kind = BitVec.ofNat 8 kind ∧ c.grid = grid ∧ c.arg0 = arg0 ∧ c.arg1 = arg1
    ∧ c.seq = (s.link n).upSeq

/-- The same on its way down. -/
def WentDown (t : State) (n kind : Nat) (grid arg0 arg1 : Word) : Prop :=
  ∃ c ∈ goingDown t n, c.kind = BitVec.ofNat 8 kind ∧ c.grid = grid ∧ c.arg0 = arg0 ∧ c.arg1 = arg1

/-- An upward command (19 R288): link 32 ends at the front end, and every other link passes it on to link 32. -/
def PassesUp (i : Instr) (s : State) (link kind : Nat) (grid arg0 arg1 : Word) : Prop :=
  (∀ c, oldest s link true = some c → c.kind = BitVec.ofNat 8 kind → c.grid = grid → c.arg0 = arg0 → c.arg1 = arg1 →
    ∃ t, exec i s = .next t ∧ (link = 32 → OnlyTaken s t link true)
      ∧ (link ≠ 32 → t = { s with links := t.links } ∧ WentUp (s.setLink link (linkTaken (s.link link) true)) t 32 kind grid arg0 arg1))
    ∧ ((∀ c, oldest s link true = some c → ¬ (c.kind = BitVec.ofNat 8 kind ∧ c.grid = grid ∧ c.arg0 = arg0 ∧ c.arg1 = arg1)) →
      exec i s = .next s)

/-- A team has retired: its groups are absent, and the leaf controller reports it (13 R186, 19 R288). -/
structure TeamGone (s t : State) (tk : Nat) : Prop where
  only : t = { s with groups := t.groups, teams := t.teams, grids := t.grids, links := t.links }
  team : t.team tk = Team.absent ∧ ∀ k, k ≠ tk → t.team k = s.team k
  grid : t.grid (s.team tk).grid = { s.grid (s.team tk).grid with retired := (s.grid (s.team tk).grid).retired + 1 }
    ∧ ∀ k, k ≠ (s.team tk).grid → t.grid k = s.grid k
  groups : (∀ k ∈ s.teamGroups tk, t.grp k = Group.absent) ∧ ∀ k, k ∉ s.teamGroups tk → t.grp k = s.grp k
  report : WentUp s t ((s.team tk).core / 8) 4 (BitVec.ofNat 64 (s.team tk).grid) 1 0

/-- The status of a grid that ran (19 R271): machine check, terminated, complete by `DONE.grid`, deadline, complete. -/
def gridStatus (x : Grid) : Nat :=
  if x.mcheck then 7 else if x.terminated then 6 else if x.doneGrid then 1 else if x.expired then 2 else 1

/-- The validity word at the end of a grid, with the state that has read it (19 R294): 0 when it cannot be read. -/
def lastValid (u : State) (gid : Nat) (x : Grid) : State × Word :=
  if x.pkt.vword = 0 then (u, x.vheld)
  else
    match u.vread noCore (gid / 2 ^ 58) x.pkt.vword.toNat 8 with
    | (u1, .ok bs) => (u1, BitVec.ofNat 64 (leNat bs))
    | (u1, .error _) => (u1, 0)

/-- What the completion record of a grid says (19 R270). -/
def gridRecord (s : State) (gid : Nat) (x : Grid) (v : Word) : Completion :=
  { ran := x.retired, exp := x.expired, status := gridStatus x, grid := gid, valid := v, admitted := (s.graph x.graph).admitted
    start := x.start, cancel := x.cancelled }

/-- The state after the end of grid `gid`, which is `x`, from `u`: its mailboxes are free and its record is written; a packet's heap entry
is freed, and a kernel node takes the grid's error (19 R271, R281, R294, 13 R210). -/
def gridEnded (u : State) (gid : Nat) (x : Grid) : State :=
  let v := lastValid u gid x
  let w := v.1.freeMailboxes gid
  let c := gridRecord u gid x v.2
  match x.node with
  | none => ((w.completePacket x.part x.pkt c).setGraph x.graph Graph.absent).setGrid gid Grid.absent
  | some idx =>
    let y := w.writeNodeCompletion x.part x.pkt c
    let g := y.graph x.graph
    let n := y.node idx
    ((y.setGraph x.graph { g with
        valid := g.valid ||| v.2, mcheck := g.mcheck || gridStatus x == 7, terminated := g.terminated || gridStatus x == 6 }).setNode idx
      { n with err := n.err || gridStatus x != 1 }).setGrid gid Grid.absent

end Sys2Proof.Claims

/-- 19 R271, R286 to R288, R290, R294, 13 R186, 01 R33: a command is taken only when it is the oldest of its link; placing scatters the teams over
the leaf controllers and queues them there; a cancellation empties the waiting list and is reported; upward commands reach the front
end; a reserved one is discarded; a team whose groups and work are done retires and is reported, and with the last team the grid ends
with its record.
Where the manual is open it follows the model: logs 36, 37, 38. -/
def Obligations.LinkCommands : Prop :=
  ∀ (s : State) (link tk : Nat) (grid a b : Word) (kind : Byte),
    PassesUp (.teamsRetired link grid a b) s link 4 grid a b ∧ PassesUp (.faultReport link grid a b) s link 5 grid a b
      ∧ PassesUp (.freezeReport link grid a b) s link 6 grid a b
      ∧ (∀ c, oldest s link false = some c → c.kind = 1 → c.grid = grid → c.arg0 = a → c.arg1 = b →
        (link ≠ 32 → (s.grid grid.toNat).live = true → (s.grid grid.toNat).stopping = false →
          ∃ t, exec (.place link grid a b) s = .next t ∧ t = { s with links := t.links, clusters := t.clusters }
            ∧ OnlyTaken s { t with clusters := s.clusters } link false ∧ (∀ k, k ≠ link → t.cluster k = s.cluster k)
            ∧ t.cluster link = { s.cluster link with
              waiting := (s.cluster link).waiting ++ (List.range b.toNat).map fun i => ⟨grid.toNat, a.toNat + i⟩ })
          ∧ (link = 32 → (s.grid grid.toNat).live = true → (s.grid grid.toNat).stopping = false →
            ∃ t, exec (.place link grid a b) s = .next t ∧ t = { s with links := t.links, choices := t.choices }
              ∧ t.link 32 = linkTaken (s.link 32) false
              ∧ ∀ i, i < b.toNat → ∃ n, n < 32 ∧ WentDown t n 1 grid (BitVec.ofNat 64 (a.toNat + i)) 1)
          ∧ (((s.grid grid.toNat).live = false ∨ (s.grid grid.toNat).stopping = true) →
            ∃ t, exec (.place link grid a b) s = .next t ∧ OnlyTaken s t link false))
      ∧ ((∀ c, oldest s link false = some c → ¬ (c.kind = 1 ∧ c.grid = grid ∧ c.arg0 = a ∧ c.arg1 = b)) →
        exec (.place link grid a b) s = .next s)
      ∧ ((∀ c, oldest s link false = some c → ¬ (c.kind = 2 ∧ c.grid = grid)) → exec (.cancelUnstartedTeams link grid) s = .next s)
      ∧ ((∀ c, oldest s link false = some c → ¬ (c.kind = 3 ∧ c.grid = grid ∧ c.arg0 = a)) →
        exec (.deadlineEventCommand link grid a) s = .next s)
      ∧ (∀ c, oldest s link false = some c → c.kind = 2 → c.grid = grid →
        (link = 32 → ∃ t, exec (.cancelUnstartedTeams link grid) s = .next t ∧ t = { s with links := t.links }
            ∧ t.link 32 = linkTaken (s.link 32) false ∧ ∀ n, n < 32 → WentDown t n 2 grid 0 0)
          ∧ (link ≠ 32 → ∃ t, exec (.cancelUnstartedTeams link grid) s = .next t
            ∧ t = { s with links := t.links, clusters := t.clusters }
            ∧ (t.cluster link).waiting = (s.cluster link).waiting.filter (fun w => w.grid != grid.toNat)
            ∧ (∀ k, k ≠ link → t.cluster k = s.cluster k)
            ∧ ((∃ w ∈ (s.cluster link).waiting, w.grid = grid.toNat) →
              WentUp (s.setLink link (linkTaken (s.link link) false)) t link 4 grid 0
                (BitVec.ofNat 64 ((s.cluster link).waiting.filter fun w => w.grid == grid.toNat).length))
            ∧ ((∀ w ∈ (s.cluster link).waiting, w.grid ≠ grid.toNat) → OnlyTaken s { t with clusters := s.clusters } link false)))
      ∧ (∀ c, oldest s link false = some c → c.kind = 3 → c.grid = grid → c.arg0 = a →
        ∃ t, exec (.deadlineEventCommand link grid a) s = .next t ∧ t = { s with links := t.links }
          ∧ (link ≠ 32 → OnlyTaken s t link false)
          ∧ (link = 32 → t.link 32 = linkTaken (s.link 32) false ∧ ∀ n, n < 32 → WentDown t n 3 grid a 0))
      ∧ ((kind = 0 ∨ 6 < kind.toNat) →
        (∀ c, oldest s link false = some c → c.kind = kind → ∃ t, exec (.reservedLinkCommand link kind) s = .next t ∧ OnlyTaken s t link false)
          ∧ ((∀ c, oldest s link false = some c → c.kind ≠ kind) → ∀ c, oldest s link true = some c → c.kind = kind →
            ∃ t, exec (.reservedLinkCommand link kind) s = .next t ∧ OnlyTaken s t link true))
      ∧ (s.retirable tk = false → exec (.teamRetirement tk) s = .next s)
      ∧ (s.retirable tk = true →
        let gid := (s.team tk).grid
        let x := { s.grid gid with retired := (s.grid gid).retired + 1 }
        (∀ k ∈ s.teamGroups tk, (s.grp k).status = .ended) ∧ (∀ n j, (n, j) ∈ s.jobs → j.live = true → j.node = none → j.team ≠ tk)
          ∧ ((x.live = false ∨ x.started ≠ x.retired ∨ x.retired + x.cancelled ≠ x.pkt.teams + 1) →
            ∃ t, exec (.teamRetirement tk) s = .next t ∧ TeamGone s t tk)
          ∧ (x.live = true → x.started = x.retired → x.retired + x.cancelled = x.pkt.teams + 1 →
            (s.part (s.graph x.graph).part).dropping = false →
            ∃ u, TeamGone s u tk ∧ exec (.teamRetirement tk) s = .next (gridEnded u gid x)))
      ∧ ∀ gid, (s.cores.map Prod.fst).Nodup → ∃ t, s.freeMailboxes gid = t ∧ t = { s with cores := t.cores }
          ∧ ∀ c, t.core c = { s.core c with mbox := (s.core c).mbox.filter fun e => e.2.grid != gid }

namespace Sys2Proof.Claims

/-- A group as its team starts it (01 R15, 19 R269, 07 R88). -/
structure GroupStarted (s : State) (p : Packet) (team base core i : Nat) (g : Group) : Prop where
  name : g.team = team ∧ g.index = i ∧ g.core = (if p.paired then core + i % 2 else core) ∧ g.gran = p.gran ∧ g.status = .running
  role : g.role = (match p.roles.getD i 0 with | 1 => .general | 2 => .matrix | 3 => .feeder | _ => .vector)
  threads : g.cur = p.entry ∧ g.threads.length = 32
    ∧ ∀ l, l < 32 → g.thr l = { pc := p.entry, meet := BitVec.allOnes 64, held := false, exited := false, preds := 0 }
  regs : (∀ r l, g.vread r l = 0) ∧ g.sread 0 = p.args ∧ ∀ n, n ≠ 0 → g.sread n = 0
  zero : g.flags = 0 ∧ g.flagen = 0 ∧ g.amax = 0 ∧ g.nancnt = 0 ∧ g.satcnt = 0 ∧ g.evpend = 0 ∧ g.evmask = 0 ∧ g.gang = 0 ∧ g.latch = none
  private_ : g.pvbase = base + 1024 * p.spkib + 2048 * p.priv * (if p.paired then i / 2 else i)
  bound : (kget Bind.free (s.core g.core).slots g.slot).valid = true
    ∧ (kget Bind.free (s.core g.core).slots g.slot).gbase = g.granules.headD 0 ∧ ∀ n ∈ g.granules, n < 192

/-- The core of a placement (01 R28): the preferred one of those that fit, or the lowest pair of which both fit. -/
def Placed (s : State) (cluster : Nat) (p : Packet) (core : Nat) : Prop :=
  core / 8 = cluster ∧ s.coreFits core p = true
    ∧ (p.paired = false → ∀ c, c / 8 = cluster → s.coreFits c p = true → s.prefers c core = false)
    ∧ (p.paired = true → core % 2 = 0 ∧ s.coreFits (core + 1) p = true
      ∧ ∀ c, c / 8 = cluster → c % 2 = 0 → c < core → (s.coreFits c p && s.coreFits (c + 1) p) = false)

end Sys2Proof.Claims

/-- 01 R15, R16, R26, R28, 19 R269, R286, R289, R290: `TEAM_PLACEMENT`: the first waiting team that fits is placed on the core that R28
names, and its groups start as R15 and R269 say, unless an expiring evicted team goes first. A paired grid has an even number of
groups, by the admission check of R268.
Where the manual is open it follows the model: logs 38, 39, 40, 80. -/
def Obligations.TeamPlacements : Prop :=
  ∀ (s : State) (cluster : Nat) (w : WaitingTeam) (core : Nat),
    let p := (s.grid w.grid).pkt
    let fits := (s.waitingIn cluster).filter fun w => (s.placeOn cluster (s.grid w.grid).pkt).isSome
    (s.expiringOut cluster = true → exec (.teamPlacement cluster) s = .next s)
      ∧ (fits = [] → exec (.teamPlacement cluster) s = .next s)
      ∧ (s.expiringOut cluster = false → (p.paired = true → (p.groups + 1) % 2 = 0) → s.firstWaiting fits = some w →
        s.placeOn cluster p = some core →
        w ∈ (s.cluster cluster).waiting ∧ (∀ v ∈ fits, s.waitsBefore v w = false) ∧ Placed s cluster p core
          ∧ deviceTime s (s.grid w.grid).part < (s.grid w.grid).expiry
          ∧ ∃ t, exec (.teamPlacement cluster) s = .next t
            ∧ t = { s with groups := t.groups, teams := t.teams, grids := t.grids, graphs := t.graphs, cores := t.cores,
                           clusters := t.clusters, nextTeam := s.nextTeam + 1 }
            ∧ (t.cluster cluster).waiting = (s.cluster cluster).waiting.filter (· != w)
            ∧ (t.cluster cluster).launches = (s.cluster cluster).launches + 1
            ∧ (∀ k, k ≠ s.nextTeam → t.team k = s.team k)
            ∧ (t.team s.nextTeam).phase = .resident ∧ (t.team s.nextTeam).grid = w.grid ∧ (t.team s.nextTeam).number = w.number
            ∧ (t.team s.nextTeam).size = p.groups + 1 ∧ (t.team s.nextTeam).core = core ∧ (t.team s.nextTeam).halves = p.acc
            ∧ (t.team s.nextTeam).rings = ringsFrom 0 p.ringList
            ∧ (t.grid w.grid).started = (s.grid w.grid).started + 1
            ∧ ((s.grid w.grid).started = 0 → (t.grid w.grid).start = deviceTime s (s.grid w.grid).part)
            ∧ (∀ i, i < p.groups + 1 → GroupStarted t p s.nextTeam
                ((t.team s.nextTeam).spbaseOn (if p.paired then core + i % 2 else core)) core i (t.grp (32 * s.nextTeam + i)))
            ∧ (∀ i j, i < j → j < p.groups + 1 → (p.paired = true → i % 2 = j % 2) →
                ∀ n ∈ (t.grp (32 * s.nextTeam + i)).granules, n ∉ (t.grp (32 * s.nextTeam + j)).granules)
            ∧ ∀ k, (∀ i, i < p.groups + 1 → k ≠ 32 * s.nextTeam + i) → t.grp k = s.grp k)

namespace Sys2Proof.Claims

/-- A group's pending merges: none of its team's operations is an `ACCMERGE` of it. -/
def noMerges (s : State) (k : Nat) : Prop := ∀ o ∈ (s.team (s.grp k).team).ops, ∀ m, o = .merge m → m.group ≠ k

/-- The state in which the deadline event has been raised on group k, with its grow request withdrawn (19 R291, R292). -/
def raisedDeadline (s : State) (k : Nat) : State :=
  let g := s.grp k
  (s.team g.team).cores.foldl (fun u c => u.setCore c { u.core c with grow := (u.core c).grow.filter fun r => r.group != k })
    (s.setGrp k { g with raised := true, divert := true })

/-- A diverted group (19 R291): every thread that has not exited at the wrap-up entry with `MEET` all ones, held threads released,
everything else kept but its windows, its arrival and its replay. -/
structure Diverted (b h : Group) (wrap : Word) : Prop where
  threads : ∀ l, l < 32 → (b.thr l).exited = false →
    h.thr l = { b.closeWindows.thr l with pc := wrap, meet := BitVec.allOnes 64, held := false }
  gone : ∀ l, l < 32 → (b.thr l).exited = true → h.thr l = b.thr l
  rest : h = { b.closeWindows with threads := h.threads, cur := wrap, status := .running, divert := false, waits := none, arrival := none,
                                   replay := none, raised := true }

end Sys2Proof.Claims

/-- 19 R283, R290 to R293, 15 R242: `DEADLINE_EXPIRY` of a started graph whose expiry point has come: every grid of it expires, cancels
and counts its unstarted teams, and tells the scheduler; the event is raised on the groups of its evicted teams; and the graph's ready
nodes are cancelled, once. `DEADLINE_EVENT` diverts a resident group to the wrap-up entry or ends it; a parked or evicted one diverts
later; an ended one's `ACCMERGE` is discarded. `GRID_DEADLINE` ends every group of every team of the grid at time D.
Where the manual is open it follows the model: logs 16, 36, 55, 92. -/
def Obligations.Deadlines : Prop :=
  ∀ (s : State) (graph k gid tk : Nat),
    let x := s.graph graph
    let g := s.grp k
    let y := s.grid gid
    let due := x.live = true ∧ x.started = true ∧ x.expired = false ∧ x.expiry ≤ deviceTime s x.part
    let ys := s.gridsOf graph
    let outs := fun z => (s.gridTeams z).filter fun j => (s.team j).phase == .saved
    let open_ := (s.grid (s.team g.team).grid).live = true ∧ (s.grid (s.team g.team).grid).expired = true
    let here := open_ ∧ (s.team g.team).phase = .resident ∧ (s.core g.core).frozen = false ∧ g.raised = false
    (¬ due → exec (.deadlineExpiry graph) s = .next s)
      ∧ (due → graph ≠ 0 → (∀ z ∈ ys, (s.grid z).started ≠ (s.grid z).retired) → (∀ n ∈ x.nodes, (s.node n).graph = graph) →
        (∀ z ∈ ys, ∀ j ∈ outs z, ∀ m ∈ s.teamGroups j, (s.grp m).team = j) →
        ∃ t, exec (.deadlineExpiry graph) s = .next t
          ∧ (∀ n ∈ x.nodes, (s.node n).phase = .ready → (s.node n).skip = false → (t.node n).phase = .cancelled)
          ∧ (∀ n ∈ x.nodes, (t.node n).phase ≠ .ready)
          ∧ ((x.pkt.graph = false ∨ ∃ n ∈ x.nodes, (s.node n).phase = .running ∧ (s.node n).count = 0) →
            (t.graph graph).live = true ∧ (t.graph graph).expired = true)
          ∧ (∀ z ∈ ys, t.grid z = { s.grid z with
                expired := true, stopping := true
                cancelled := if (s.grid z).stopping then (s.grid z).cancelled else (s.grid z).pkt.teams + 1 - (s.grid z).started }
              ∧ WentDown t 32 3 (BitVec.ofNat 64 z) (BitVec.ofNat 64 (s.grid z).expiry) 0
              ∧ ((s.grid z).stopping = false → WentDown t 32 2 (BitVec.ofNat 64 z) 0 0))
          ∧ (∀ z, z ∉ ys → t.grid z = s.grid z)
          ∧ (∀ z ∈ ys, ∀ j ∈ outs z, ∀ m ∈ s.teamGroups j, (s.grp m).raised = false →
            (t.grp m).raised = true ∧ ((s.grp m).status ≠ .ended → (t.grp m).divert = true))
          ∧ (∀ m, (∀ z ∈ ys, ∀ j ∈ outs z, m ∉ s.teamGroups j) → t.grp m = s.grp m)
          ∧ t.jobs = s.jobs ∧ t.clusters = s.clusters ∧ ∀ c, t.core c = { s.core c with grow := (t.core c).grow })
      ∧ ((g.raised = true ∨ ¬ open_ ∨ (s.team g.team).phase = .absent ∨ (s.team g.team).phase = .resident ∧ (s.core g.core).frozen = true) →
        exec (.deadlineEvent k) s = .next s)
      ∧ (g.status ≠ .ended → here → noMerges s k →
        let w := (s.grid (s.team g.team).grid).pkt.wrap
        (∀ p, g.status = .parked p → exec (.deadlineEvent k) s = .next (raisedDeadline s k))
          ∧ ((∀ p, g.status ≠ .parked p) → w ≠ 0 → ∃ v : State, exec (.deadlineEvent k) s = .next (v.growCheck (s.team g.team).cores)
            ∧ v = { raisedDeadline s k with groups := v.groups } ∧ (∀ j, j ≠ k → v.grp j = s.grp j) ∧ Diverted g (v.grp k) w
            ∧ (v.grp k).evpend = g.evpend ∧ (v.grp k).evmask = g.evmask)
          ∧ ((∀ p, g.status ≠ .parked p) → w = 0 → ∃ v : State, exec (.deadlineEvent k) s = .next (v.growCheck (s.team g.team).cores)
            ∧ (v.grp k).status = .ended ∧ (∀ j, j ≠ k → v.grp j = s.grp j) ∧ v.mem = s.mem))
      ∧ (g.status ≠ .ended → open_ → g.raised = false → (s.team g.team).phase = .saved → noMerges s k →
        ∃ t, exec (.deadlineEvent k) s = .next t
          ∧ t = { raisedDeadline s k with mem := t.mem, bad := t.bad, sectors := t.sectors, counters := t.counters }
          ∧ (s.Sound → MemKept s t (wakeBytes s)))
      ∧ (g.status = .ended → (here ∨ open_ ∧ g.raised = false ∧ (s.team g.team).phase = .saved) →
        (noMerges s k → exec (.deadlineEvent k) s = .next (s.setGrp k { g with raised := true }))
          ∧ ∀ o, (s.team g.team).ops = [.merge o] → o.group = k →
            ∃ t u, u = s.setGrp k { g with raised := true } ∧ exec (.deadlineEvent k) s = .next t ∧ Discards u u t g.team 0 o)
      ∧ ((y.live = false ∨ deviceTime s y.part < y.deadline) → exec (.gridDeadline gid) s = .next s)
      ∧ (y.live = true → y.deadline ≤ deviceTime s y.part →
        (∀ j ∈ s.gridTeams gid, ∀ m ∈ s.teamGroups j, (s.grp m).team = j ∧ (s.grp m).core ∈ (s.team j).cores) →
        (∀ c, ∀ r ∈ (s.core c).grow, (s.grp r.group).status ≠ .ended ∧ (s.team (s.grp r.group).team).phase = .resident) →
        ∃ t, exec (.gridDeadline gid) s = .next t ∧ ∀ j ∈ s.gridTeams gid, ∀ m ∈ s.teamGroups j, (t.grp m).status = .ended)
      ∧ (y.live = true → y.deadline ≤ deviceTime s y.part → s.gridTeams gid = [tk] → (s.team tk).phase = .resident →
        ∃ v : State, exec (.gridDeadline gid) s = .next ((v.growCheck (s.team tk).cores).refreshWake tk)
          ∧ (∀ j ∈ s.teamGroups tk, (v.grp j).status = .ended) ∧ (∀ j, j ∉ s.teamGroups tk → v.grp j = s.grp j)
          ∧ v.mem = s.mem ∧ v.teams = s.teams ∧ v.jobs = s.jobs)

/-! ## Pre-emption, freezes and migration (21 R307 to R315, 01 R12) -/

/-- 21 R307 to R311: `TEAM_EVICTION` evicts the victim that R307 names when its image fits: its slots, granules and grow requests are freed, its
groups otherwise stay as they were, and its scratchpad bytes are saved; `TEAM_RESTORE` restores the first ready team to its cores, or ends it when
its image is bad. The eviction's premise that every image size fits makes the claim independent of the size, which the manual leaves
open (log 27).
Where the manual is open it follows the model: logs 26, 27, 39, 60, 85, 86. -/
def Obligations.EvictionAndRestore : Prop :=
  ∀ (s : State) (tk : Nat) (w : WaitingTeam),
    let t0 := s.team tk
    let cluster := t0.core / 8
    let ks := (s.teamGroups tk).filter fun k => (s.grp k).status != .ended
    ((s.starved cluster = none ∨ ∃ v, s.starved cluster = some v ∧ s.victim cluster v ≠ some tk) → exec (.teamEviction tk) s = .next s)
      ∧ (s.starved cluster = some w → s.victim cluster w = some tk → (∀ n, n ≤ s.rawBytes tk + Config.imageExtra (s.teamShape tk) + 64 → (s.imageFit (t0.grid / 2 ^ 58) n).isSome = true) →
        (s.grid w.grid).deadline < (s.grid t0.grid).deadline ∧ t0.phase = .resident ∧ (∀ k ∈ ks, (s.grp k).preemptible = true)
          ∧ ∃ t, exec (.teamEviction tk) s = .next t
            ∧ t = { s with groups := t.groups, teams := t.teams, cores := t.cores, mem := t.mem, bad := t.bad, sectors := t.sectors
                           counters := t.counters }
            ∧ (∀ k ∈ ks, t.grp k = { s.grp k with granules := [] }) ∧ (∀ k, k ∉ ks → t.grp k = s.grp k)
            ∧ (∀ k, k ≠ tk → t.team k = s.team k) ∧ (t.team tk).phase = .saved ∧ (t.team tk).spsave = s.spCells tk
            ∧ t.team tk = { t0 with phase := .saved, image := (t.team tk).image, imageSize := (t.team tk).imageSize,
                                    spsave := (t.team tk).spsave }
            ∧ (∀ k ∈ ks, (kget Bind.free (t.core (s.grp k).core).slots (s.grp k).slot).valid = false)
            ∧ (∀ c ∈ t0.cores, ∀ r ∈ (t.core c).grow, r.group ∉ ks)
            ∧ (s.Sound → MemKept s t (fun p => (t.team tk).image ≤ p ∧ p < (t.team tk).image + 64)))
      ∧ ((s.restorable tk = false ∨ ∃ j ∈ s.savedIn cluster, s.restorable j = true ∧ s.restoresBefore j tk = true) →
        exec (.teamRestore tk) s = .next s)
      ∧ (s.restorable tk = true → (∀ j ∈ s.savedIn cluster, s.restorable j = true → s.restoresBefore j tk = false) →
        ∃ t, exec (.teamRestore tk) s = .next t
          ∧ (s.imageGood tk = false → (∀ k ∈ s.teamGroups tk, (t.grp k).status = .ended) ∧ (t.team tk).mcheck = true
            ∧ (t.grid t0.grid).mcheck = true)
          ∧ (s.imageGood tk = true → (t.team tk).phase = .resident ∧ (t.team tk).core = t0.core ∧ (t.team tk).spbase = t0.spbase
            ∧ (t.team tk).image = 0
            ∧ ((∀ k ∈ ks, (s.grp k).divert = false ∧ ((s.grp k).status = .running ∨ ∃ i ph, (s.grp k).status = .blocked (.bar i ph))) →
              ∀ k, t.grp k = { s.grp k with slot := (t.grp k).slot, granules := (t.grp k).granules })))

namespace Sys2Proof.Claims

/-- The team is on a frozen core and the error hit state of it, or a structure that all teams share (21 R313, R315). -/
def hitBy (s : State) (core tk : Nat) : Prop :=
  tk ∈ s.residentOn core ∧ ((s.core core).unit = 4 ∨ (s.core core).unit = 5 ∨ tk ∈ (s.core core).lost)

/-- The team has ended with machine-check status (21 R313 to R315). -/
def MachineChecked (s t : State) (tk : Nat) : Prop :=
  (t.team tk).mcheck = true ∧ (t.grid (s.team tk).grid).mcheck = true ∧ ∀ k ∈ s.teamGroups tk, (t.grp k).status = .ended

/-- A group whose access waited for the core goes on (07 R87, 21 R310). -/
def unheld (core : Nat) (g : Group) : Group := { g with waits := if g.waits = some (.core core) then none else g.waits }

/-- The record of a machine check (21 R315): the structure, the grid, the team, and the cluster and physical core in error. -/
def checkRecord (s : State) (tk core unit : Nat) : Record :=
  { words := [BitVec.ofNat 64 (2 ^ 8 * (unit % 256) + 6), BitVec.ofNat 64 (s.team tk).grid,
      BitVec.ofNat 64 (2 ^ 40 * ((s.team tk).number % 2 ^ 24) + 2 ^ 32 * ((s.team tk).core % 256) + (s.team tk).grid / 2 ^ 58 % 64),
      BitVec.ofNat 64 (2 ^ 8 * (core / 8 % 256) + (s.cluster (core / 8)).phys.getD (core % 8) 0 % 16), 0, 0, 0, 0],
    timeAt := some 4, job := none }

end Sys2Proof.Claims

/-- 01 R12, 13 R215, 15 R237, 21 R312 to R315: `CORE_FREEZE` freezes a core. `MIGRATION` moves its number to the spare, whose cycle
count starts at 0, commits the accepted `MMA`s of the teams that move, and ends the teams that the error hit; with the spare in use it
ends every team of the core, evicted ones too, and withdraws the number. Held accesses go on, and a freeze report goes up.
Where the manual is open it follows the model: logs 37, 51, 52, 83. -/
def Obligations.FreezeAndMigration : Prop :=
  ∀ (s : State) (core : Nat) (unit : Byte) (lost : List Nat),
    let c := s.core core
    let g := core / 8
    let phys := (s.cluster g).phys.getD (core % 8) 0
    let moves := fun tk => tk ∈ s.residentOn core ∧ ¬ hitBy s core tk
    ((c.frozen = true ∨ c.withdrawn = true ∨ 256 ≤ core ∨ unit = 0 ∨ 5 < unit.toNat) → exec (.coreFreeze core unit lost) s = .next s)
      ∧ (c.frozen = false → c.withdrawn = false → core < 256 → unit ≠ 0 → unit.toNat ≤ 5 → ∃ t, exec (.coreFreeze core unit lost) s = .next t
        ∧ t = { s with cores := t.cores } ∧ t.core core = { c with frozen := true, unit := unit, lost := lost }
        ∧ ∀ k, k ≠ core → t.core k = s.core k)
      ∧ ((c.frozen = false ∨ c.withdrawn = true) → exec (.migration core) s = .next s)
      ∧ (c.frozen = true → c.withdrawn = false → (s.cluster g).spareUsed = false →
        ∃ t, exec (.migration core) s = .next t ∧ (∀ tk, hitBy s core tk → MachineChecked s t tk)
          ∧ (t.core core).frozen = false ∧ (t.core core).cycles = 0 ∧ (t.core core).mbox = c.mbox
          ∧ (t.cluster g).spareUsed = true ∧ (t.cluster g).phys = (s.cluster g).phys.set (core % 8) 8
          ∧ (∀ tk, moves tk → ∀ o ∈ (t.team tk).ops, o.isMma = false)
          ∧ ((∀ tk, ¬ hitBy s core tk) → WentUp s t g 6 0 (BitVec.ofNat 64 phys) 0 ∧ t.parts = s.parts ∧ (t.core core).slots = c.slots)
          ∧ ((∃ tk, hitBy s core tk) → WentUp s t g 6 0 (BitVec.ofNat 64 phys) 1)
          ∧ ((s.residentOn core).filter (fun tk => sharedUnit c.unit || c.lost.contains tk) = [] ∨ ∃ tk, (s.residentOn core).filter
              (fun tk => sharedUnit c.unit || c.lost.contains tk) = [tk]
            ∧ ∃ v : State, v = { s with groups := v.groups, teams := v.teams, grids := v.grids, cores := v.cores }
              ∧ t.parts = (v.post ((s.team tk).grid / 2 ^ 58) false (checkRecord s tk core c.unit.toNat)).parts
            ∨ 2 ≤ ((s.residentOn core).filter fun tk => sharedUnit c.unit || c.lost.contains tk).length)
          ∧ ((∀ tk, moves tk → ∀ o ∈ (s.team tk).ops, o.isMma = false) → (s.groups.map Prod.fst).Nodup →
            (∀ tk, ¬ hitBy s core tk → t.team tk = s.team tk)
              ∧ ∀ k, (∀ tk, hitBy s core tk → k ∉ s.teamGroups tk) → t.grp k = unheld core (s.grp k)))
      ∧ (c.frozen = true → c.withdrawn = false → (s.cluster g).spareUsed = true →
        ∃ t, exec (.migration core) s = .next t ∧ (t.core core).withdrawn = true
          ∧ (∀ tk ∈ s.residentOn core, MachineChecked s t tk) ∧ (∀ tk ∈ s.savedOf core, MachineChecked s t tk)
          ∧ (∀ tk, tk ∉ s.residentOn core → tk ∉ s.savedOf core → t.team tk = s.team tk)
          ∧ ((s.groups.map Prod.fst).Nodup → ∀ k, (∀ tk ∈ s.residentOn core, k ∉ s.teamGroups tk) →
            (∀ tk ∈ s.savedOf core, k ∉ s.teamGroups tk) → t.grp k = unheld core (s.grp k))
          ∧ WentUp s t g 6 0 (BitVec.ofNat 64 phys) 2)

namespace Sys2Proof.Claims

/-- What a register reads once the selected outstanding writes have reached it, in order (09 R120). -/
def landed (b : Group) (ps : List Pending) (o : Opd) (l : Nat) : Word :=
  ps.foldl (fun x p =>
    if (match p.dst, o with
      | .v a, .v r => 32 * a.val + p.lane == 32 * r.val + l
      | .s a, .s n => a == n
      | _, _ => false) then (x &&& ~~~p.mask) ||| (p.val &&& p.mask) else x) (b.rd o l)

/-- One more count of a counter (23 R335, R336). -/
def oneMore (s t : State) (code inst : Nat) : Prop := t.counter code inst = s.counter code inst + 1

end Sys2Proof.Claims

namespace Sys2Proof.Claims

/-- The access of a group waits for the fill of the sector of LPDDR6 byte `a` (13 R180). -/
def waitsFill (a : Nat) (g : Group) : Prop := ∃ b, g.waits = some (.fill b) ∧ b / 2048 = a / 2048

/-- A host address, and a range that has a backing (23 R318). -/
def isHost (p : Nat) : Prop := 0x8000000000000 ≤ p ∧ p < 0xFFFFFFFFFFFFF
def hasBacking (s : State) (p : Nat) : Prop := p < hbmTop - s.carve ∨ (0x10000000000 ≤ p ∧ p < 0x30000000000) ∨ isHost p
def backs (s : State) (a n : Nat) : Prop := ∀ i, i < n → hasBacking s (a + i)

/-- Nothing stops a walk from reading its entries: no uncorrectable data, no sector of unknown state, and the link is up. -/
def NoErrors (s : State) : Prop := s.bad = [] ∧ (∀ i, (s.sector i).unknown = false) ∧ s.card.link = true

/-- A page-table entry: the eight bytes at an address, and its fields (23 R329). -/
def entryAt (s : State) (a : Nat) : Nat := leNat ((List.range 8).map fun i => s.memByte (a + i))
def eBits (e lo n : Nat) : Nat := e / 2 ^ lo % 2 ^ n
def eAddr (e : Nat) : Nat := 256 * eBits e 8 44
def eLeaf (e : Nat) : Prop := eBits e 4 1 = 1
def eFlag (e i : Nat) : Bool := eBits e i 1 == 1

/-- The levels of a walk: number, lowest address bit and index width (23 R329). -/
def walkLevels : List (Nat × Nat × Nat) := [(0, 48, 9), (1, 39, 9), (2, 30, 9), (3, 21, 9), (4, 16, 5)]

/-- A valid entry of level n, whose leaves map 2 ^ sh bytes, that is not malformed (23 R330). -/
structure GoodEntry (host : Bool) (n sh e : Nat) : Prop where
  valid : e % 2 = 1
  reserved : eBits e 56 8 = 0 ∧ eBits e 5 3 = 0 ∧ eBits e 52 4 ≤ 2
  leaf : eLeaf e → 2 ≤ n ∧ eAddr e % 2 ^ sh = 0 ∧ eFlag e 1 = true
    ∧ (eBits e 52 4 = 1 → host = false ∧ n = 4)
  table : ¬ eLeaf e → n ≠ 4 ∧ (n ≤ 2 → eAddr e % 4096 = 0) ∧ eBits e 52 4 = 0 ∧ eBits e 1 3 = 0

/-- The host stage of an intermediate address, from the table at t, ends at leaf e, which maps 2 ^ z bytes (23 R329, R330). -/
def HostFrom (s : State) (ipa : Nat) : List (Nat × Nat × Nat) → Nat → Nat → Nat → Prop
  | [], _, _, _ => False
  | (n, sh, w) :: rest, t, z, e =>
    let x := entryAt s (t + 8 * eBits ipa sh w)
    backs s t (8 * 2 ^ w) ∧ GoodEntry true n sh x ∧ (eLeaf x → z = sh ∧ e = x ∧ backs s (eAddr x) (2 ^ sh))
      ∧ (¬ eLeaf x → HostFrom s ipa rest (eAddr x) z e)
def HostLeaf (s : State) (part ipa z e : Nat) : Prop :=
  let root := (s.part part).hsroot
  root.getLsbD 0 = true ∧ ipa < 2 ^ 52 ∧ HostFrom s ipa walkLevels (4096 * eBits root.toNat 12 40) z e

/-- The partition stage, whose tables are read through the host stage: its leaf with the log of its size, or a fault reason (R332). -/
def PartFrom (s : State) (part va : Nat) : List (Nat × Nat × Nat) → Nat → Except Nat (Nat × Nat) → Prop
  | [], _, r => r = .error 1
  | (n, sh, w) :: rest, t, r =>
    let ia := t + 8 * eBits va sh w
    ((∀ z h, ¬ HostLeaf s part ia z h) → r = .error 3)
      ∧ ∀ z h, HostLeaf s part ia z h →
        let x := entryAt s (eAddr h + ia % 2 ^ z)
        (¬ GoodEntry false n sh x → r = .error 1)
          ∧ (GoodEntry false n sh x → (eLeaf x → r = .ok (sh, x)) ∧ (¬ eLeaf x → PartFrom s part va rest (eAddr x) r))
def PartLeaf (s : State) (part va : Nat) (r : Except Nat (Nat × Nat)) : Prop :=
  let root := (s.part part).ptroot
  (root.getLsbD 0 = false → r = .error 1)
    ∧ (root.getLsbD 0 = true → PartFrom s part va walkLevels (4096 * eBits root.toNat 12 40) r)

/-- A leaf lacks a right that an access needs, or is uncached where the access may not be (23 R331, R332). -/
def lacks (nd : Need) (r w x : Bool) (kind : Nat) : Prop :=
  (nd.r = true ∧ r = false) ∨ (nd.w = true ∧ w = false) ∨ (nd.x = true ∧ x = false) ∨ (nd.cached = true ∧ kind = 2)
def leafLacks (nd : Need) (e : Nat) : Prop := lacks nd (eFlag e 1) (eFlag e 2) (eFlag e 3) (eBits e 52 4)

/-- What the translation of a virtual address by a walk gives (23 R327 to R332). -/
def Translates (s : State) (part : Nat) (nd : Need) (va : Nat) (r : Except Nat Where) : Prop :=
  ∃ q, PartLeaf s part va q ∧ match q with
    | .error c => r = .error c
    | .ok (z, e) =>
      let ipa := eAddr e + va % 2 ^ z
      (leafLacks nd e → r = .error 2)
        ∧ (¬ leafLacks nd e →
          ((∀ y h, ¬ HostLeaf s part ipa y h) → r = .error 3)
            ∧ ∀ y h, HostLeaf s part ipa y h →
              ((leafLacks nd h ∨ (eBits e 52 4 = 1 ∧ eBits h 52 4 = 2)) → r = .error 3)
                ∧ (¬ (leafLacks nd h ∨ (eBits e 52 4 = 1 ∧ eBits h 52 4 = 2)) →
                  r = .ok ⟨eAddr h + ipa % 2 ^ y, if eBits h 52 4 = 2 then 2 else eBits e 52 4⟩))

/-- What a translation that a core holds gives (23 R331 to R333). -/
def HeldGives (nd : Need) (h : Held) (va : Nat) (r : Except Nat Where) : Prop :=
  (lacks nd h.pr h.pw h.px h.pkind → r = .error 2)
    ∧ (¬ lacks nd h.pr h.pw h.px h.pkind →
      ((lacks nd h.hr h.hw h.hx h.hkind ∨ (h.pkind = 1 ∧ h.hkind = 2)) → r = .error 3)
        ∧ (¬ (lacks nd h.hr h.hw h.hx h.hkind ∨ (h.pkind = 1 ∧ h.hkind = 2)) →
          r = .ok ⟨h.pa + va % h.size, if h.hkind = 2 then 2 else h.pkind⟩))

/-- An accept handle allows the package and partition to write here (25 R348, R349). -/
def acceptedFrom (s : State) (part : Nat) (fid : BitVec 16) (rpart : BitVec 6) : Prop :=
  ∃ e ∈ (s.part part).handles, e.2.toNat / 2 ^ 62 = 3 ∧ e.2.extractLsb' 40 16 = fid ∧ e.2.extractLsb' 24 6 = rpart

/-- A write that arrives is stored: `m` is memory after it, and the history takes note of it (07 R100). -/
def StoredRemote (i : Instr) (s : State) (m : Nat → Byte) : Prop :=
  ∃ t, exec i s = .next t
    ∧ t = { s with mem := t.mem, bad := t.bad, sectors := t.sectors, counters := t.counters, past := t.past }
    ∧ ∀ q, s.isMem q → t.memByte q = m q

/-- A write of plain bytes, of a `WBCAST` (17 R263, 25 R349). -/
def BytesArrive (i : Instr) (s : State) (part va : Nat) (bs : List Byte) : Prop :=
  (∀ s1 e, s.translateRange noCore part Need.write va bs.length = (s1, .error e) → exec i s = .next s)
    ∧ ∀ s1 ws, s.translateRange noCore part Need.write va bs.length = (s1, .ok ws) →
      ((s1.writePieces ws bs).2 = true → StoredRemote i s (poke s.memByte (pieceKeys ws) bs))
        ∧ ((s1.writePieces ws bs).2 = false → exec i s = .next s)

/-- A page of a `KVSEND` with its sidecar line: it is stored when every page is of coded kind, and otherwise refused (17 R262). -/
def PageArrives (i : Instr) (s : State) (part va : Nat) (bs : List Byte) : Prop :=
  (∀ s1 e, s.translateRange noCore part Need.write va 65536 = (s1, .error e) → exec i s = .next s)
    ∧ ∀ s1 ws, s.translateRange noCore part Need.write va 65536 = (s1, .ok ws) →
      ((∃ w ∈ ws, w.1.kind ≠ 1) → exec i s = .next s)
        ∧ ((∀ w ∈ ws, w.1.kind = 1) →
          (∀ s2 e, s1.translateRange noCore part Need.write (s.lineAt part va) 256 = (s2, .error e) → exec i s = .next s)
            ∧ ∀ s2 ls, s1.translateRange noCore part Need.write (s.lineAt part va) 256 = (s2, .ok ls) →
              (s2.writePieces ws (bs.take 65536)).2 = true →
              ((s2.writePieces ws (bs.take 65536)).1.writePieces ls (bs.drop 65536)).2 = true →
              StoredRemote i s (poke (poke s.memByte (pieceKeys ws) (bs.take 65536)) (pieceKeys ls) (bs.drop 65536)))

end Sys2Proof.Claims

/-- 09 R120, 23 R321, R323, R327 to R333, 25 R349: a translation walks both stages, entry by entry, or takes a held one, and fails with
the reason that R332 gives; `LOAD_COMPLETION` lets the named outstanding writes reach their registers;
`SECTOR_LOOKUP` makes one lookup, which no byte of memory shows, and ends the waits for its sector; `TRANSLATION_WALK` holds what its
walk of both stages found, and nothing when the walk fails; a write that arrives from another package, of bytes or of a coded page with
its sidecar line, is stored whole when an accept handle allows it, and not at all otherwise.
Where the manual is open it follows the model: logs 7, 20, 31, 50, 57, 59. -/
def Obligations.MemoryEvents : Prop :=
  ∀ (s : State) (k : Nat) (dst : Opd) (ls : BitVec 32) (addr : BitVec 52) (wr : Bool) (core part : Nat) (va : Word) (fid : BitVec 16)
    (rpart : BitVec 6) (bs : List Byte) (nd : Need), s.Sound →
    let g := s.grp k
    let ps := g.pending.filter fun p => p.dst == dst && ls.getLsbD p.lane
    (∃ t, exec (.loadCompletion k dst ls) s = .next t ∧ t = { s with groups := t.groups } ∧ (∀ j, j ≠ k → t.grp j = s.grp j)
        ∧ t.grp k = { g with pending := g.pending.filter (fun p => !(p.dst == dst && ls.getLsbD p.lane)), v := (t.grp k).v,
                             dead := (t.grp k).dead, s := (t.grp k).s }
        ∧ (∀ (r : Fin 320) (l : Nat), (t.grp k).vread r l = landed g ps (.v r) l)
        ∧ ∀ n : Fin 64, (t.grp k).sread n = landed g ps (.s n) 0)
      ∧ (s.backing addr.toNat ≠ .lpddr → exec (.sectorLookup addr wr) s = .next s)
      ∧ (s.backing addr.toNat = .lpddr → 0 < s.sectorCount →
        let a := addr.toNat / 256 * 256 - 0x10000000000
        let i := a / 2048 % s.sectorCount
        let x := s.sector i
        ∃ t, exec (.sectorLookup addr wr) s = .next t
          ∧ t = { s with groups := t.groups, mem := t.mem, bad := t.bad, sectors := t.sectors, counters := t.counters }
          ∧ MemKept s t (wakeBytes s)
          ∧ (∀ j, ∃ w, t.grp j = { s.grp j with waits := w }) ∧ (∀ j, waitsFill addr.toNat (s.grp j) → (t.grp j).waits = none)
          ∧ ((s.groups.map Prod.fst).Nodup → ∀ j, ¬ waitsFill addr.toNat (s.grp j) → t.grp j = s.grp j)
          ∧ (x.unknown = true → (∀ e ∈ s.groups, ¬ waitsFill addr.toNat e.2) → ∃ c ∈ [1, 2, 3], oneMore s t c 0)
          ∧ (x.unknown = false → (∀ e ∈ s.groups, ¬ waitsFill addr.toNat e.2) → t.sector i = ⟨a / 2048, true, wr || (x.valid && x.saddr == a / 2048 && x.dirty), false⟩
            ∧ (∀ j, j ≠ i → t.sector j = s.sector j)
            ∧ (x.valid = true → x.saddr = a / 2048 → oneMore s t 1 0)
            ∧ (¬ (x.valid = true ∧ x.saddr = a / 2048) → x.valid = true → x.dirty = true → oneMore s t 3 0)
            ∧ (¬ (x.valid = true ∧ x.saddr = a / 2048) → (x.valid = false ∨ x.dirty = false) → oneMore s t 2 0)))
      ∧ ((256 ≤ core ∨ (s.part part).live = false ∨ (s.heldFor core part va.toNat).isSome = true) →
        exec (.translationWalk core part va) s = .next s)
      ∧ (core < 256 → (s.part part).live = true → s.heldFor core part va.toNat = none →
        ∃ t, exec (.translationWalk core part va) s = .next t
          ∧ t = { s with mem := t.mem, bad := t.bad, sectors := t.sectors, counters := t.counters, held := t.held } ∧ MemKept s t nowhere
          ∧ oneMore s t 0x0F core ∧ oneMore s t 0x10 (core / 8)
          ∧ ∀ u r, ((s.addCounter 0x0F core 1).addCounter 0x10 (core / 8) 1).walk core part {} va.toNat = (u, r) →
            match r with
            | .ok h => t.held = s.held ++ [h] ∧ h.core = core ∧ h.part = part ∧ h.va ≤ va.toNat ∧ va.toNat < h.va + h.size
            | .error _ => t.held = s.held)
      ∧ (NoErrors s → va.toNat < 2 ^ 57 → s.heldFor core part va.toNat = none →
        ∃ u r, s.translate core part nd va.toNat = (u, r) ∧ Translates s part nd va.toNat r
          ∧ u = { s with mem := u.mem, bad := u.bad, sectors := u.sectors, counters := u.counters } ∧ MemKept s u nowhere)
      ∧ (∀ h, s.heldFor core part va.toNat = some h →
        h ∈ s.held ∧ h.core = core ∧ h.part = part ∧ h.va ≤ va.toNat ∧ va.toNat < h.va + h.size
          ∧ ∃ r, s.translate core part nd va.toNat = (s, r) ∧ HeldGives nd h va.toNat r)
      ∧ (let w := Instr.inboundRemoteWrite part fid rpart va bs
        (¬ acceptedFrom s part fid rpart → exec w s = .next s)
          ∧ (acceptedFrom s part fid rpart → bs.length ≠ 65536 + 256 → BytesArrive w s part va.toNat bs)
          ∧ (acceptedFrom s part fid rpart → bs.length = 65536 + 256 → PageArrives w s part va.toNat bs))

/-! ## Management commands (25 R341 to R352, R356, R358) -/

namespace Sys2Proof.Claims

/-- A doorbell has named a command that has not been answered (25 R340, R341). -/
def hasCommand (s : State) : Prop := s.card.mqcons ≠ s.card.mqlimit

/-- The command executes: bring-up is done (25 R356). -/
def accepted (s : State) : Prop := hasCommand s ∧ 6 ≤ s.boot.step

/-- It acts on an existing partition (25 R358). -/
def acceptedOn (s : State) (part : BitVec 6) : Prop := accepted s ∧ (s.part part.toNat).live = true

/-- A read of the device: nothing but the tier and its counters moves. -/
def DeviceRead (s s1 : State) : Prop :=
  s1 = { s with mem := s1.mem, bad := s1.bad, sectors := s1.sectors, counters := s1.counters }
    ∧ (s.Sound → ∀ q, s1.memByte q = s.memByte q)

/-- The command is answered from u with a status and a result; while its entry cannot be written it stays in the queue, and only its
requests for the entry have been made (23 R335). -/
def Answers (i : Instr) (s u : State) (code result : Nat) : Prop :=
  ∃ t, exec i s = .next t ∧ ((u.reply (code, result)).2 = true → t = (u.reply (code, result)).1)
    ∧ ((u.reply (code, result)).2 = false → DeviceRead s t)

/-- The management ring's place and the entry of its present command (25 R341, R345). -/
def mqRing (s : State) : Nat := s.card.mqbase.toNat / 2 ^ 12 % 2 ^ 40 * 4096
def mqEntry (s : State) : Nat := mqRing s + 64 + 64 * (s.card.mqcons.toNat % 2 ^ (s.card.mqbase.toNat % 16))

/-- The management ring lies in the device's memory. -/
def ringInside (u : State) : Prop := mqRing u + 64 + 64 * 2 ^ (u.card.mqbase.toNat % 16) ≤ hbmTop - u.carve

/-- What an answer leaves, v, with `ok` when its bytes could be written (25 R340, R341): status and result in the entry, the next
consumer index, the completion interrupt. -/
structure Answered25 (u v : State) (ok : Bool) (code result : Nat) : Prop where
  rest : v = { u with mem := v.mem, bad := v.bad, sectors := v.sectors, counters := v.counters, card := v.card }
  index : v.card.mqcons = u.card.mqcons + 1
  irq : v.card.irqst.getLsbD 0 = true
  fits : ringInside u → ok = true
  status : ringInside u → v.memByte (mqEntry u + 1) = BitVec.ofNat 8 code
      ∧ (∀ i, i < 8 → v.memByte (mqEntry u + 56 + i) = BitVec.ofNat 8 (result / 256 ^ i))
      ∧ ∀ i, i < 4 → v.memByte (mqRing u + 4 + i) = BitVec.ofNat 8 ((u.card.mqcons + 1).toNat / 256 ^ i)

/-- A `TINV` with these arguments removes a translation of partition q for [va, va + size) (23 R333). -/
def Invalidates (p : Nat) (a b c : Word) (q va size : Nat) : Prop :=
  q = p ∧ (a = 0 → size ≠ 0 ∧ c.toNat ≠ 0 ∧ va < b.toNat + c.toNat ∧ b.toNat < va + size)

/-- An `ACCMERGE` that has read its area through such a translation has not yet been folded (23 R333). -/
def StillUsed (s : State) (p : Nat) (a b c : Word) : Prop :=
  ∃ e ∈ s.teams, ∃ m : MergeOp, .merge m ∈ e.2.ops ∧ Invalidates p a b c m.part m.area.toNat ((m.pieces.map fun x => x.2).sum)

/-- A change of one partition and nothing else. -/
def OnlyPart (s u : State) (part : Nat) (x : Partition) : Prop :=
  u = { s with parts := u.parts } ∧ u.part part = x ∧ ∀ q, q ≠ part → u.part q = s.part q

/-- Field [lo + n − 1 : lo] of word i of a block. -/
def bf (ws : List Word) (i lo n : Nat) : Nat := (ws.getD i 0).toNat / 2 ^ lo % 2 ^ n

/-- The rules of 25 R344 that need only the block; those on the roots and on `SIDEBASE` are the model's reading (log 44). -/
def blockLegal (ws : List Word) : Prop :=
  (bf ws 0 1 11 = 0 ∧ bf ws 0 52 12 = 0 ∧ bf ws 1 1 11 = 0 ∧ bf ws 1 52 12 = 0 ∧ bf ws 2 0 16 = 0 ∧ bf ws 2 57 7 = 0)
    ∧ (bf ws 4 29 35 = 0 ∧ bf ws 5 31 33 = 0 ∧ bf ws 5 14 2 = 0 ∧ bf ws 6 26 38 = 0 ∧ bf ws 6 10 6 = 0 ∧ bf ws 11 20 44 = 0
      ∧ ws.getD 14 0 = 0 ∧ ws.getD 15 0 = 0)
    ∧ (bf ws 4 20 9 ≤ 256 ∧ 1 ≤ bf ws 4 0 17 ∧ bf ws 4 0 17 ≤ 65536 ∧ bf ws 5 16 15 ≤ 16384 ∧ bf ws 5 0 14 + bf ws 5 16 15 ≤ 16384)
    ∧ (∀ i, 7 ≤ i → i ≤ 10 → (ws.getD i 0).toNat % 4096 = 0) ∧ ∀ i, i < 4 → 4 ≤ bf ws 11 (5 * i) 5 ∧ bf ws 11 (5 * i) 5 ≤ 16

/-- The partition after a block (25 R344, R346): `TOFF` only at creation; a ring that is placed anew starts with both indices 0, which
is the model's choice (log 33). -/
structure FromBlock (old x : Partition) (ws : List Word) : Prop where
  live : x.live = true
  roots : x.ptroot = ws.getD 0 0 ∧ x.hsroot = ws.getD 1 0 ∧ x.sidebase = ws.getD 2 0
  toff : x.toff = if old.live then old.toff else (ws.getD 3 0).toNat
  share : x.quota = bf ws 4 20 9 ∧ x.floor = bf ws 4 17 3 ∧ x.share = bf ws 4 0 17
  nodes : x.nn = bf ws 5 16 15 ∧ x.nb = bf ws 5 0 14
  window : x.cwsize = bf ws 6 16 10 ∧ x.cwbase = bf ws 6 0 10
  rings : x.fring = (ws.getD 7 0).toNat ∧ x.hring = (ws.getD 8 0).toNat ∧ x.sqn = (ws.getD 9 0).toNat ∧ x.sqp = (ws.getD 10 0).toNat
  logs : x.logs = [bf ws 11 0 5, bf ws 11 5 5, bf ws 11 10 5, bf ws 11 15 5]
  save : x.save = (ws.getD 12 0).toNat ∧ x.savesz = (ws.getD 13 0).toNat
  kept : x.seq = old.seq ∧ x.handles = old.handles
  block : x.block = ws

/-- [a, a + n) and [b, b + m) share no number. -/
def apart (a n b m : Nat) : Prop := n = 0 ∨ m = 0 ∨ a + n ≤ b ∨ b + m ≤ a

/-- The rules of 25 R344 on a block that need the rest of the package: what its rings and its save area reach, and the other
partitions. -/
structure BlockFits (s : State) (p : Nat) (x : Partition) : Prop where
  rings : ∀ r ∈ [(x.fring, 0, 64), (x.hring, 1, 64), (x.sqn, 2, 8), (x.sqp, 3, 8)],
    backs s r.1 (64 + r.2.2 * 2 ^ x.logs.getD r.2.1 0)
  save : ∀ i, i < x.savesz → x.save + i < hbmTop - s.carve
  window : x.cwsize = 0 ∨ x.cwbase + x.cwsize ≤ 16 * s.boot.k
  apart : ∀ e ∈ s.parts, e.1 ≠ p → e.2.live = true → apart x.nb x.nn e.2.nb e.2.nn ∧ apart x.cwbase x.cwsize e.2.cwbase e.2.cwsize
  shares : x.share + ((s.parts.filter fun e => e.1 != p && e.2.live).map fun e => e.2.share).sum ≤ 65536
  quotas : x.quota + ((s.parts.filter fun e => e.1 != p && e.2.live).map fun e => e.2.quota).sum ≤ 256

/-- What a block may not change while the partition holds an admitted packet (25 R346). -/
def Unchanged (old x : Partition) : Prop :=
  x.nb = old.nb ∧ x.nn = old.nn ∧ x.cwbase = old.cwbase ∧ x.cwsize = old.cwsize ∧ x.fring = old.fring ∧ x.hring = old.hring
    ∧ x.sqn = old.sqn ∧ x.sqp = old.sqp ∧ x.save = old.save ∧ x.savesz = old.savesz ∧ x.logs = old.logs

/-- A handle entry against the table of 25 R348; that a bad one is refused is the model's reading (log 94). -/
def EntryLegal (e : Word) : Prop :=
  let w := fun lo n => e.toNat / 2 ^ lo % 2 ^ n
  w 56 6 = 0 ∧ w 30 2 = 0 ∧ w 16 8 = 0 ∧ (w 62 2 = 2 → 1 ≤ w 32 8) ∧ (w 62 2 ≠ 2 → w 32 8 = 0)
    ∧ ((w 62 2 = 1 ∨ w 62 2 = 2) → w 0 16 ≠ 0)

/-- A group that goes on after an action (21 R305, R292): with a pending deadline it diverts first. -/
def goneOn (s u : State) (k : Nat) (h : Group) : Prop :=
  (∀ j, j ≠ k → u.grp j = s.grp j) ∧ ((s.grp k).divert = false → h.divert = false → u.grp k = { h with status := .running })

/-- The commands that are accepted only after `GO` and that name a partition. -/
def partCommands (part : BitVec 6) (a b c : Word) : List Instr :=
  [.pdrop part, .gactResume part a b c, .gactSkip part a b, .gactTerminateGroup part a b, .gactTerminateGrid part a, .jactResume part a,
   .jactCancel part a, .evict part a b, .tinv part a b c, .hset part a b, .toff part a]

/-- The other commands that are accepted only after `GO`. -/
def packageCommands (part : BitVec 6) (a b c : Word) : List Instr :=
  [.pcfg part a, .sprobe a, .sreset a, .cntrd a b c, .pwrcap a, .tsrc a b]

/-- The commands of bring-up, `ATTEST` and the reserved opcodes. -/
def earlyCommands (part : BitVec 6) (a b c : Word) : List Instr :=
  [.attest part a b, .fid a, .fwload a b c, .bootcfg a b, .go, .reservedManagementCommand 0xFF]

end Sys2Proof.Claims

/-- 25 R341, R342, R356, R358: no command executes while the queue is empty; before `GO` a command is refused with 0x02, and one that
names no existing partition with 0x03; an answer writes status, result, index and interrupt. -/
def Sys2Proof.Claims.CommandAnswers : Prop :=
  ∀ (s : State) (part : BitVec 6) (a b c : Word) (code result : Nat), s.Sound →
    (¬ hasCommand s → ∀ i ∈ partCommands part a b c ++ packageCommands part a b c ++ earlyCommands part a b c, exec i s = .next s)
      ∧ (hasCommand s → s.boot.step < 6 →
        ∀ i ∈ partCommands part a b c ++ packageCommands part a b c, Answers i s s 2 0)
      ∧ (accepted s → (s.part part.toNat).live = false → ∀ i ∈ partCommands part a b c, Answers i s s 3 0)
      ∧ Answered25 s (s.reply (code, result)).1 (s.reply (code, result)).2 code result

/-- 25 R342 to R348, R352, R358, 21 R305, 17 R254, 23 R333: the commands that act on a partition.
Where the manual is open it follows the model: logs 9, 41, 42, 43, 44, 49, 65, 66, 94. -/
def Obligations.PartitionCommands : Prop :=
  ∀ (s : State) (part : BitVec 6) (a b c : Word) (ws : List Word) (n k : Nat),
    let p := part.toNat
    let old := s.part p
    (accepted s → (a.toNat % 128 ≠ 0 ∨ s.argBacked a 128 = false) → Answers (.pcfg part a) s s 3 0)
      ∧ (accepted s → a.toNat % 128 = 0 → s.argBacked a 128 = true → ∀ s1 bs, s.physRead a.toNat 128 = (s1, some bs) →
        ws = wordsOf 16 bs → DeviceRead s s1 ∧
        ((¬ blockLegal ws ∨ (∃ x, FromBlock old x ws ∧ ¬ BlockFits s1 p x)) → Answers (.pcfg part a) s s1 3 0)
          ∧ (blockLegal ws → (∃ x, FromBlock old x ws ∧ BlockFits s1 p x ∧ old.live = true ∧ ¬ Unchanged old x ∧ s1.heapOf p ≠ []) →
            Answers (.pcfg part a) s s1 2 0)
          ∧ (blockLegal ws → (∃ x, FromBlock old x ws ∧ BlockFits s1 p x ∧ (old.live = false ∨ Unchanged old x ∨ s1.heapOf p = [])) →
            ∃ u, Answers (.pcfg part a) s u 1 0 ∧ u = { s1 with parts := u.parts, mem := u.mem, bad := u.bad, clusters := u.clusters }
              ∧ FromBlock old (u.part p) ws ∧ (∀ q, q ≠ p → u.part q = s.part q)
              ∧ (ws.getD 2 0 = old.sidebase → u.clusters = s.clusters)
              ∧ (ws.getD 2 0 ≠ old.sidebase →
                ∀ k, k < 32 → u.cluster k = { s.cluster k with lines := (s.cluster k).lines.filter fun l => l.part != p })))
      ∧ (accepted s → a.toNat % 128 = 0 → s.argBacked a 128 = true → ∀ s1, s.physRead a.toNat 128 = (s1, none) → Answers (.pcfg part a) s s1 3 0)
      ∧ (acceptedOn s part → (∀ g x, (g, x) ∈ s.grids → x.live = true → x.part ≠ p) →
        (((s.heapOf p).isEmpty && old.fwait.isEmpty && old.hwait.isEmpty && old.notices.isEmpty) = true →
          ∃ u, Answers (.pdrop part) s u 1 0 ∧ (u.part p).live = false ∧ (u.part p).seq = old.seq ∧ (∀ q, q ≠ p → u.part q = s.part q)
            ∧ (∀ o, o < old.chipSize → u.byte (chKey (old.chipBase + o)) = 0)
            ∧ u = { s with parts := u.parts, mem := u.mem, bad := u.bad, held := u.held })
          ∧ (((s.heapOf p).isEmpty && old.fwait.isEmpty && old.hwait.isEmpty && old.notices.isEmpty) = false →
            ∃ u, Answers (.pdrop part) s u 1 0 ∧ OnlyPart s u p { old with dropping := true }))
      ∧ (acceptedOn s part → s.namedGroup p a b = none →
        Answers (.gactResume part a b c) s s 2 0 ∧ Answers (.gactSkip part a b) s s 2 0 ∧ Answers (.gactTerminateGroup part a b) s s 2 0)
      ∧ (acceptedOn s part → s.namedGroup p a b = some k →
        (a.toNat / 2 ^ 58 = p ∧ (∃ tk ∈ s.gridTeams a.toNat, k ∈ s.teamGroups tk) ∧ (s.grp k).index = b.toNat / 2 ^ 8 % 32
            ∧ (s.team (s.grp k).team).number % 2 ^ 24 = b.toNat / 2 ^ 40)
          ∧ ((s.grp k).status = .parked (.fault []) →
            (∃ u, Answers (.gactResume part a b c) s u 1 0 ∧ goneOn s u k (s.grp k)) ∧ Answers (.gactSkip part a b) s s 2 0)
          ∧ (∀ gang, (s.grp k).status = .parked (.fault gang) → (∀ j, (j = k ∨ j ∈ gang) → (s.grp j).divert = false) →
            ∃ u, Answers (.gactResume part a b c) s u 1 0 ∧ (u.grp k).status = .running
              ∧ (∀ j ∈ gang, (∃ l, (s.grp j).status = .parked (.fault l)) → u.grp j = { s.grp j with status := .running })
              ∧ (∀ j, j ≠ k → (j ∉ gang ∨ ∀ l, (s.grp j).status ≠ .parked (.fault l)) → u.grp j = s.grp j))
          ∧ (∀ d act, (s.grp k).status = .parked (.call d act) →
            (∃ u, Answers (.gactResume part a b c) s u 1 0 ∧ goneOn s u k ((s.grp k).wr d act fun _ => c).afterBlock)
              ∧ Answers (.gactSkip part a b) s s 2 0)
          ∧ ((s.grp k).status = .parked .trap →
            (∃ u, Answers (.gactSkip part a b) s u 1 0 ∧ goneOn s u k (s.grp k).afterSkip) ∧ Answers (.gactResume part a b c) s s 2 0)
          ∧ ((∀ x, (s.grp k).status ≠ .parked x) →
            Answers (.gactResume part a b c) s s 2 0 ∧ Answers (.gactSkip part a b) s s 2 0 ∧ Answers (.gactTerminateGroup part a b) s s 2 0)
          ∧ (∀ x, (s.grp k).status = .parked x → ∃ v : State, Answers (.gactTerminateGroup part a b) s
              ((v.growCheck (s.team (s.grp k).team).cores).refreshWake (s.grp k).team) 1 0 ∧ (v.grp k).status = .ended
              ∧ (∀ j, j ≠ k → v.grp j = s.grp j) ∧ (v.grid (s.team (s.grp k).team).grid).terminated = true ∧ v.mem = s.mem))
      ∧ (acceptedOn s part →
        (a.toNat / 2 ^ 58 = p → (s.grid a.toNat).live = true → Answers (.gactTerminateGrid part a) s (s.terminateGrid a.toNat) 1 0)
          ∧ ((a.toNat / 2 ^ 58 ≠ p ∨ (s.grid a.toNat).live = false) → Answers (.gactTerminateGrid part a) s s 2 0))
      ∧ (acceptedOn s part → s.parkedJob p a.toNat = none → Answers (.jactResume part a) s s 2 0 ∧ Answers (.jactCancel part a) s s 2 0)
      ∧ (acceptedOn s part → s.parkedJob p a.toNat = some n →
        (∃ u, Answers (.jactResume part a) s u 1 0 ∧ u = { s with jobs := u.jobs } ∧ (∀ m, m ≠ n → u.job m = s.job m)
            ∧ u.job n = { s.job n with phase := .running, record := none })
          ∧ ∃ u, Answers (.jactCancel part a) s u 1 0 ∧ u = { s with jobs := u.jobs } ∧ (∀ m, m ≠ n → u.job m = s.job m)
            ∧ u.job n = { s.job n with phase := .failed 3, record := none })
      ∧ (acceptedOn s part → ∀ tk rest, ((s.gridTeams a.toNat).filter fun tk => (s.team tk).number == b.toNat) = tk :: rest →
        (s.evictable tk = false → Answers (.evict part a b) s s 2 0)
          ∧ (a.toNat / 2 ^ 58 ≠ p → Answers (.evict part a b) s s 2 0)
          ∧ (a.toNat / 2 ^ 58 = p → (s.team tk).phase = .resident → ((s.evict tk).team tk).phase = .saved →
            Answers (.evict part a b) s (s.evict tk) 1 0))
      ∧ (acceptedOn s part → ((s.gridTeams a.toNat).filter fun tk => (s.team tk).number == b.toNat) = [] → Answers (.evict part a b) s s 2 0)
      ∧ (acceptedOn s part → (2 < a.toNat ∨ (a = 0 ∧ c.toNat % 65536 ≠ 0)) → Answers (.tinv part a b c) s s 3 0)
      ∧ (acceptedOn s part → a.toNat ≤ 2 → (a = 0 → c.toNat % 65536 = 0) →
        (StillUsed s p a b c → exec (.tinv part a b c) s = .next s)
          ∧ (¬ StillUsed s p a b c → ∃ u, Answers (.tinv part a b c) s u 1 0 ∧ u = { s with held := u.held }
            ∧ ∀ h, h ∈ u.held ↔ h ∈ s.held ∧ ¬ Invalidates p a b c h.part h.va h.size))
      ∧ (acceptedOn s part → ¬ EntryLegal b → Answers (.hset part a b) s s 3 0)
      ∧ (acceptedOn s part → EntryLegal b → ∃ u, Answers (.hset part a b) s u 1 0
        ∧ OnlyPart s u p { old with handles := (u.part p).handles }
        ∧ ∀ i, (u.part p).handle i = if i = a.toNat % 4096 then b else old.handle i)
      ∧ (acceptedOn s part → (s.heapOf p).isEmpty = true → ∃ u, Answers (.toff part a) s u 1 0 ∧ OnlyPart s u p { old with toff := a.toNat })
      ∧ (acceptedOn s part → (s.heapOf p).isEmpty = false → Answers (.toff part a) s s 2 0)

namespace Sys2Proof.Claims

/-- Bytes 0x000 to 0x17F of an attestation report (25 R352); the slots hold hashes of 64 bytes. -/
def reportStart (s : State) (part : BitVec 6) (nonce : List Byte) : List Byte :=
  leBytes 8 (5011 * 2 ^ 32 + part.toNat * 2 ^ 8 + 1) ++ leBytes 8 s.boot.fid.toNat ++ List.replicate 48 0 ++ nonce
    ++ s.boot.slot0 ++ s.boot.slot1 ++ s.boot.slot2 ++ hash64 ((s.part part.toNat).block.flatMap fun w => leBytes 8 w.toNat)

/-- The three checks of 25 R351 on an image, against the fused minimum version. -/
def ImagePasses (bs : List Byte) (minimum : Nat) : Prop :=
  let ns := bs.map BitVec.toNat
  (hash64 ((Config.imageKey ns).map (BitVec.ofNat 8))).map BitVec.toNat = Config.romKeyHash ∧ Config.imageSigned ns = true
    ∧ minimum ≤ Config.imageVersion ns

/-- The boot state with a verified image measured into its slot (25 R351). -/
def measured (x : BootState) (leaf : Bool) (bs : List Byte) : BootState :=
  if leaf then { x with leafLoaded := true, slot1 := hash64 bs, step := 4 }
  else { x with gscLoaded := true, slot0 := hash64 bs, step := 4 }

/-- The state word of a sector (23 R322). -/
def sectorWord (x : Sector) : Nat :=
  if x.unknown then 2 ^ 32 else 4 * (x.saddr % 2 ^ 30) + (if x.dirty then 2 else 0) + (if x.valid then 1 else 0)

/-- Instances of each counter code (25 R342, 23 R336). -/
def instances (code : Nat) : Nat :=
  if code ∈ [1, 2, 3, 0x23] then 1 else if code ∈ [4, 5, 6, 7] then 12 else if code ∈ [8, 9] then 4
  else if code ∈ [0x0A, 0x0B, 0x0C, 0x0D, 0x0E] then 64 else if code ∈ [0x0F, 0x20, 0x21, 0x22] then 256
  else if code ∈ [0x10, 0x11, 0x12, 0x13] then 32 else 0

end Sys2Proof.Claims

/-- 25 R342, R351 to R353, R356, 23 R322, R323, R335, 19 R266: the commands that act on the package, and the steps of bring-up.
Where the manual is open it follows the model: logs 25, 45. -/
def Obligations.PackageCommands : Prop :=
  ∀ (s : State) (part : BitVec 6) (a b c : Word) (op : Byte),
    (accepted s → s.sectorCount ≤ a.toNat → Answers (.sprobe a) s s 3 0 ∧ Answers (.sreset a) s s 3 0)
      ∧ (accepted s → a.toNat < s.sectorCount → Answers (.sprobe a) s s 1 (sectorWord (s.sector a.toNat))
        ∧ ∃ u, Answers (.sreset a) s u 1 0 ∧ u = { s with sectors := u.sectors } ∧ u.sector a.toNat = ⟨0, false, false, false⟩
          ∧ ∀ i, i ≠ a.toNat → u.sector i = s.sector i)
      ∧ (accepted s → instances a.toNat ≤ b.toNat → Answers (.cntrd a b c) s s 3 0)
      ∧ (accepted s → b.toNat < instances a.toNat → ∃ u, Answers (.cntrd a b c) s u 1 (s.counter a.toNat b.toNat).toNat
        ∧ u = { s with counters := u.counters } ∧ (c.getLsbD 0 = false → u = s) ∧ (c.getLsbD 0 = true → u.counter a.toNat b.toNat = 0)
        ∧ ∀ x y, y < 1024 → (x ≠ a.toNat ∨ y ≠ b.toNat) → u.counter x y = s.counter x y)
      ∧ (hasCommand s → s.boot.step < 2 → Answers (.attest part a b) s s 2 0)
      ∧ (hasCommand s → 2 ≤ s.boot.step → ((s.part part.toNat).live = false ∨ s.argBacked a 64 = false ∨ s.argBacked b 5011 = false) →
        Answers (.attest part a b) s s 3 0)
      ∧ (hasCommand s → 2 ≤ s.boot.step → (s.part part.toNat).live = true → s.argBacked a 64 = true → s.argBacked b 5011 = true →
        ∀ s1 nonce, s.physRead a.toNat 64 = (s1, some nonce) → ∃ u, Answers (.attest part a b) s u 1 5011
          ∧ u = { s1 with mem := u.mem, bad := u.bad, sectors := u.sectors, counters := u.counters }
          ∧ DeviceRead s s1
          ∧ (b.toNat + 5011 ≤ hbmTop - s.carve → s.boot.slot0.length = 64 → s.boot.slot1.length = 64 → s.boot.slot2.length = 64 →
            ∀ i, i < 0x180 → u.memByte (b.toNat + i) = (reportStart s part nonce).getD i 0)
          ∧ (s.Sound → MemKept s u (fun q => b.toNat ≤ q ∧ q < b.toNat + 5011)))
      ∧ (accepted s → (a.toNat < 1500 ∨ 2800 < a.toNat) → Answers (.pwrcap a) s s 3 0)
      ∧ (accepted s → 1500 ≤ a.toNat → a.toNat ≤ 2800 → ∃ u, Answers (.pwrcap a) s u 1 0
        ∧ u = { s with power := { s.power with cap := a.toNat } })
      ∧ (accepted s → 2 < a.toNat → Answers (.tsrc a b) s s 3 0)
      ∧ (accepted s → a.toNat ≤ 2 → ∃ u, Answers (.tsrc a b) s u 1 0 ∧ u = { s with time := u.time } ∧ u.time.master = s.time.master
        ∧ u.time.everLocked = s.time.everLocked ∧ u.time.locked = false ∧ u.time.target = none
        ∧ u.time.source = (match a.toNat with | 0 => .oscillator | 1 => .ieee1588 | _ => .pps)
        ∧ (a.toNat = 2 → u.time.ppsFirst = true ∧ u.time.ppsNext = b.toNat))
      ∧ (hasCommand s → (s.boot.step ≠ 2 → Answers (.fid a) s s 2 0) ∧ (s.boot.step = 2 → ∃ u, Answers (.fid a) s u 1 0
        ∧ u = { s with boot := { s.boot with fid := a.setWidth 16, step := 3 } }))
      ∧ (hasCommand s →
        let loaded := if c.getLsbD 0 then s.boot.leafLoaded else s.boot.gscLoaded
        (((s.boot.step ≠ 3 ∧ s.boot.step ≠ 4) ∨ loaded = true) → Answers (.fwload a b c) s s 2 0)
          ∧ ((s.boot.step = 3 ∨ s.boot.step = 4) → loaded = false → s.argBacked a b.toNat = false → Answers (.fwload a b c) s s 3 0)
          ∧ ((s.boot.step = 3 ∨ s.boot.step = 4) → loaded = false → s.argBacked a b.toNat = true →
            (∀ s1, s.physRead a.toNat b.toNat = (s1, none) → Answers (.fwload a b c) s s1 4 0 ∧ DeviceRead s s1)
              ∧ ∀ s1 bs, s.physRead a.toNat b.toNat = (s1, some bs) → DeviceRead s s1
                ∧ ∀ ok : Bool, (ok = true ↔ ImagePasses bs s.boot.secver) → Answers (.fwload a b c) s
                  (if ok then { s1 with boot := measured s.boot (c.getLsbD 0) bs } else s1) (if ok then 1 else 4) 0))
      ∧ (hasCommand s → (s.boot.step ≠ 4 → Answers (.bootcfg a b) s s 2 0)
        ∧ (s.boot.step = 4 → (3 < a.toNat ∨ 32 < b.toNat ∨ b.toNat % 4 ≠ 0) → Answers (.bootcfg a b) s s 3 0)
        ∧ (s.boot.step = 4 → a.toNat ≤ 3 → b.toNat ≤ 32 → b.toNat % 4 = 0 → ∃ u, Answers (.bootcfg a b) s u 1 0
          ∧ u = { s with boot := { s.boot with c := a.toNat, k := b.toNat, slot2 := hash64 (leBytes 8 a.toNat ++ leBytes 8 b.toNat), step := 5 },
                         sectors := [], mem := u.mem, bad := u.bad }
          ∧ (∀ o, u.byte (chKey o) = 0) ∧ ∀ q, q < 2 ^ 53 → u.byte q = s.byte q))
      ∧ (hasCommand s → ((s.boot.step ≠ 5 ∨ s.boot.gscLoaded = false ∨ s.boot.leafLoaded = false) → Answers .go s s 2 0)
        ∧ (s.boot.step = 5 → s.boot.gscLoaded = true → s.boot.leafLoaded = true → ∃ u, Answers .go s u 1 0
          ∧ u = { s with boot := { s.boot with step := 6 }, portsDown := 0 }))
      ∧ (hasCommand s → Answers (.reservedManagementCommand op) s s 0xFF 0)

/-! ## The card, time and power (25 R337, R340, R347, R350, R353 to R356, 19 R266) -/

namespace Sys2Proof.Claims

/-- Bits [lo + n − 1 : lo] of a register value. -/
def vbits (v : Word) (lo n : Nat) : Nat := v.toNat / 2 ^ lo % 2 ^ n

/-- The value describes a ring that `MQBASE` takes (25 R340). -/
def takesRing (s : State) (v : Word) : Prop :=
  vbits v 52 12 = 0 ∧ vbits v 4 8 = 0 ∧ 4 ≤ vbits v 0 4 ∧ vbits v 0 4 ≤ 12
    ∧ vbits v 12 40 * 4096 + (64 + 64 * 2 ^ vbits v 0 4) ≤ 2 ^ 52 ∧ s.backed (vbits v 12 40 * 4096) (64 + 64 * 2 ^ vbits v 0 4) = true

/-- The doorbell value names queue q and sets no reserved bit; the partition it names. -/
def rings (v : Word) (q : Nat) : Prop := vbits v 22 42 = 0 ∧ vbits v 2 14 = 0 ∧ vbits v 0 2 = q
def rungPart (v : Word) : Nat := vbits v 16 6

/-- The 32-bit index in four bytes. -/
def indexOf (bs : List Byte) : BitVec 32 := BitVec.ofNat 32 (leNat bs)

/-- A submission doorbell: the named ring's producer index is read, and the entries up to it may be taken (25 R340). -/
def SubmissionBell (i : Instr) (s : State) (v : Word) (priv : Bool) : Prop :=
  let q := if priv then 2 else 1
  let p := rungPart v
  let x := s.part p
  let ring := if priv then x.sqp else x.sqn
  ((¬ rings v q ∨ x.live = false ∨ s.card.link = false) → exec i s = .next s)
    ∧ (rings v q → x.live = true → s.card.link = true →
      (∀ s1, s.physRead ring 4 = (s1, none) → exec i s = .next s1)
        ∧ ∀ s1 bs, s.physRead ring 4 = (s1, some bs) → ∃ u, exec i s = .next u
          ∧ OnlyPart s1 u p (if priv then { x with plimit := indexOf bs } else { x with nlimit := indexOf bs }))

/-- Interrupt bit n is raised, and vector n is sent when the bit becomes 1 while enabled (25 R340). -/
def raisedCard (c : CardState) (n : Nat) : CardState :=
  { c with irqst := c.irqst ||| (1#4 <<< n),
           msix := if !c.irqst.getLsbD n && c.irqen.getLsbD n then c.msix ++ [n] else c.msix }

/-- A source delivers its time (19 R266): the first lock after reset sets the count if that is later; afterwards it is slewed. -/
def timeTaken (t : TimeState) (ns : Nat) : TimeState :=
  { t with master := if t.everLocked then t.master else max t.master ns, everLocked := true, locked := true, target := some ns }

/-- Edge e of the pulse is accepted: the next is expected a second later (25 R350). -/
def edgeTaken (t : TimeState) (e : Nat) : TimeState :=
  { timeTaken t e with ppsFirst := false, ppsNext := e + 1000000000, ppsLast := (timeTaken t e).master }

/-- The package enters reset. What the card keeps, and that device memory then reads 0, is the model's choice (log 29). -/
def Restarted (s u : State) (card : CardState) : Prop :=
  u = { State.reset with mem := u.mem, bad := u.bad, boot := { State.reset.boot with secver := s.boot.secver }, card := card,
                         schedule := s.schedule, tick := s.tick, choices := s.choices }
    ∧ (∀ p, isHost p → u.byte p = s.byte p) ∧ ∀ p, ¬ isHost p → u.byte p = 0

/-- The card's registers after reset, with its interrupt registers. -/
def restartedCard (s : State) : CardState :=
  { mqbase := 0, irqst := s.card.irqst, irqen := s.card.irqen, msix := s.card.msix, link := false, mqlimit := 0, mqcons := 0 }

end Sys2Proof.Claims

/-- 25 R340: a read of the window gives the register at the offset, and 0 elsewhere or with another size or alignment. Writes: `MQBASE` takes a ring that fits until `FID` completes; a doorbell reads the named ring's
producer index, and a bad one is discarded; `IRQST` clears the bits written as 1; `IRQEN` takes its four bits; another offset
discards the write. -/
def Sys2Proof.Claims.CardRegisters : Prop :=
  ∀ (s : State) (v : Word) (off : BitVec 16),
    ((s.boot.step < 3 ∧ takesRing s v → exec (.mqbaseWrite v) s = .next { s with card := { s.card with mqbase := v } })
        ∧ (¬ (s.boot.step < 3 ∧ takesRing s v) → exec (.mqbaseWrite v) s = .next s))
      ∧ ((¬ rings v 0 ∨ s.card.link = false ∨ vbits s.card.mqbase 0 4 = 0) → exec (.managementDoorbell v) s = .next s)
      ∧ (rings v 0 → s.card.link = true → vbits s.card.mqbase 0 4 ≠ 0 →
        (∀ s1, s.physRead (mqRing s) 4 = (s1, none) → exec (.managementDoorbell v) s = .next s1)
          ∧ ∀ s1 bs, s.physRead (mqRing s) 4 = (s1, some bs) →
            exec (.managementDoorbell v) s = .next { s1 with card := { s1.card with mqlimit := indexOf bs } })
      ∧ SubmissionBell (.normalSubmissionDoorbell v) s v false
      ∧ SubmissionBell (.privilegedSubmissionDoorbell v) s v true
      ∧ exec (.reservedQueueDoorbell v) s = .next s
      ∧ (∃ u, exec (.irqstWrite v) s = .next u ∧ u = { s with card := { s.card with irqst := u.card.irqst } }
        ∧ ∀ n, n < 4 → u.card.irqst.getLsbD n = (s.card.irqst.getLsbD n && !v.getLsbD n))
      ∧ (off = 0x20 → ∃ u, exec (.registerWrite off v) s = .next u ∧ u = { s with card := { s.card with irqen := u.card.irqen } }
        ∧ ∀ n, n < 4 → u.card.irqen.getLsbD n = v.getLsbD n)
      ∧ (off ≠ 0x20 → exec (.registerWrite off v) s = .next s)
      ∧ s.registerRead 0x00 8 = BitVec.ofNat 64 (256 * s.boot.step + (if s.power.hot then 2 else 0) + if s.card.link then 1 else 0)
      ∧ s.registerRead 0x08 8 = s.card.mqbase ∧ s.registerRead 0x18 8 = s.card.irqst.setWidth 64
      ∧ s.registerRead 0x20 8 = s.card.irqen.setWidth 64
      ∧ ∀ size, (size ≠ 8 ∨ off.toNat ∉ [0, 8, 0x18, 0x20]) → s.registerRead off size = 0

/-- 25 R340, R341, R342, R356, R358: the card's registers, and how commands are answered.
Where the manual is open it follows the model: logs 45, 46. -/
def Obligations.CardAndCommandAnswers : Prop := CardRegisters ∧ CommandAnswers

/-- 19 R266, 25 R337, R340, R347, R350, R354 to R356: time messages and pulses lock and steer the master count, which never
decreases by them; the link fails and comes up; a fabric path fails; a throttled power window is counted; the junction limit; and
what enters reset. Which of the card's registers and memories outlast a reset is the model's choice (log 29).
Where the manual is open it follows the model: logs 29, 46, 47. -/
def Obligations.TimeAndPower : Prop :=
  ∀ (s : State) (ns n : Nat) (port : Fin 16) (b : Bool),
    (s.time.source = .ieee1588 → s.card.link = true → exec (.timeMessage ns) s = .next { s with time := timeTaken s.time ns })
      ∧ (s.time.source ≠ .ieee1588 ∨ s.card.link = false → exec (.timeMessage ns) s = .next s)
      ∧ (s.time.source ≠ .pps → exec .ppsPulse s = .next s ∧ exec .ppsUnlock s = .next s)
      ∧ (s.time.source = .pps → s.time.ppsFirst = true → exec .ppsPulse s = .next { s with time := edgeTaken s.time s.time.ppsNext })
      ∧ (s.time.source = .pps → s.time.ppsFirst = false →
        let gone := s.time.master - s.time.ppsLast
        let after := fun m => (m + 1) * 1000000000
        (after n ≤ gone + 500000 → gone ≤ after n + 500000 →
            exec .ppsPulse s = .next { s with time := edgeTaken s.time (s.time.ppsNext + n * 1000000000) })
          ∧ ((∀ m, gone + 500000 < after m ∨ after m + 500000 < gone) → exec .ppsPulse s = .next s))
      ∧ (s.time.source = .pps →
        (s.time.locked = true → s.time.ppsLast + 3000000000 ≤ s.time.master →
            exec .ppsUnlock s = .next { s with time := { s.time with locked := false, target := none } })
          ∧ (s.time.locked = false ∨ s.time.master < s.time.ppsLast + 3000000000 → exec .ppsUnlock s = .next s))
      ∧ (s.card.link = false → exec .linkDown s = .next s)
      ∧ (s.card.link = true → ∃ u, exec .linkDown s = .next u ∧ u = { s with card := raisedCard { s.card with link := false } 3, time := u.time }
        ∧ u.time = (if s.time.source = .ieee1588 then { s.time with locked := false, target := none } else s.time))
      ∧ (s.card.link = true ∨ b = false → exec (.linkTraining b) s = .next s)
      ∧ (s.card.link = false → exec (.linkTraining true) s = .next { s with
          card := raisedCard { s.card with link := true } 3, boot := { s.boot with step := max 2 s.boot.step } })
      ∧ (∃ u, exec (.fabricPathDown port) s = .next u ∧ u = { s with portsDown := u.portsDown }
        ∧ ∀ i, i < 16 → u.portsDown.getLsbD i = (s.portsDown.getLsbD i || i == port.val))
      ∧ exec (.powerWindow false) s = .next { s with power := { s.power with throttling := false } }
      ∧ (∃ u, exec (.powerWindow true) s = .next u
        ∧ u = { s with power := { s.power with throttling := true }, counters := u.counters }
        ∧ u.counter 0x23 0 = s.counter 0x23 0 + 1
        ∧ ∀ x y, y < 1024 → (x ≠ 0x23 ∨ y ≠ 0) → u.counter x y = s.counter x y)
      ∧ (s.power.hot = true → exec .junctionLimit s = .next s ∧ exec .junctionBelowLimit s
        = .next { s with power := { s.power with hot := false, lowered := false }, card := raisedCard s.card 3 })
      ∧ (s.power.hot = false → exec .junctionBelowLimit s = .next s ∧ exec .junctionLimit s
        = .next { s with power := { s.power with hot := true, lowered := true }, card := raisedCard s.card 3 })
      ∧ (∃ u, exec .powerGood s = .next u ∧ Restarted s u (restartedCard s))
      ∧ (∃ u, exec .thermalTrip s = .next u
        ∧ Restarted s u (if s.card.link then raisedCard (restartedCard s) 3 else restartedCard s))

/-! ## The step, reset, the invariant and the encoding -/

namespace Sys2Proof.Claims

/-- The state in which group `k` issues: the turn is over, and the group is the issuing one. -/
def issues (s : State) (k : Nat) : State := { s.begin with focus := k }

/-- The word that is fetched where memory holds `bs`: those bytes, when no write since the start of the grid has touched them, and
otherwise what they held after some write since then or at its start (07 R108). -/
def FetchedWord (s : State) (pa : Nat) (bs : List Byte) (w : Word) : Prop :=
  let ks := (List.range 8).map (pa + ·)
  let ps := s.past.take (s.past.length - s.myGrid.born)
  ((∀ p ∈ ps, ∀ o ∈ p.old, o.1 ∉ ks) → w = wordOf bs)
    ∧ (pa % 8 = 0 → ∃ n, n ≤ ps.length ∧ w = wordOf ((ps.take n).foldl (fun v p => p.before ks v) bs))

/-- The write of the card's window at each offset (25 R340). -/
def windowWrite (off : Nat) (v : Word) : Instr :=
  if off = 0x08 then .mqbaseWrite v
  else if off = 0x10 then
    if v.toNat % 4 = 0 then .managementDoorbell v else if v.toNat % 4 = 1 then .normalSubmissionDoorbell v
    else if v.toNat % 4 = 2 then .privilegedSubmissionDoorbell v else .reservedQueueDoorbell v
  else if off = 0x18 then .irqstWrite v
  else .registerWrite (BitVec.ofNat 16 off) v

/-- The opcode bytes that 25 R342 lists. -/
def listedOps : List Nat := [1, 2, 3, 4, 5, 6, 7, 8, 9, 10, 11, 12, 13, 14, 16, 17, 18, 19]

/-- The operands of a command lie in the fields that 25 R342 gives them. -/
def fits : Instr → Prop
  | .tinv _ scope _ _ => scope.toNat < 4
  | .tsrc source _ => source.toNat < 4
  | .reservedManagementCommand op => op.toNat ∉ listedOps
  | _ => True

end Sys2Proof.Claims

/-- 01 R29, 13 R183, 09 R136, 19 R288, 25 R340, R341: a step takes the next turn. When a core's scheduler issues from a slot, the word
at the group's `PC` is fetched with an execute access, as it stands or as it stood since the start of the grid, and the step is `exec` of the instruction it decodes to; a word that is no
instruction, a fetch that fails, a link command, a management command and a register write run as their rows; a narrower or misaligned register write is discarded.
The next access of a slot's group may wait for a sector's fill (13 R180). The turns themselves
are the model's form of the order that the manual leaves open (log 1).
Where the manual is open it follows the model: logs 1, 6, 20, 77. -/
def Obligations.StepRunsDecoded : Prop :=
  ∀ (s : State) (core slot k n : Nat) (up : Bool) (off : BitVec 16) (v : Word) (e : Instr),
    (s.turn = .issue core slot → (kget Bind.free (s.core core).slots slot).valid = true →
      (kget Bind.free (s.core core).slots slot).key = k →
      let b := issues s k
      ((b.canIssue = false) → step s = .next b)
        ∧ (b.canIssue = true → ∀ s1,
          (∀ r, b.translate b.me.core b.myPart Need.fetch b.me.cur.toNat = (s1, .error r) → step s = exec .instructionFetchFault s1)
            ∧ ∀ pl s2, b.translate b.me.core b.myPart Need.fetch b.me.cur.toNat = (s1, .ok pl) →
              (s1.physRead pl.pa 8 = (s2, none) → step s = exec .instructionFetchFault s2)
                ∧ ∀ bs, s1.physRead pl.pa 8 = (s2, some bs) → ∃ w, FetchedWord b pl.pa bs w ∧
                  (∀ i, decodeWord w = .ok i → step s = exec i { s2 with word := w })
                    ∧ ∀ row, decodeWord w = .error row → step s = exec (.reservedInstructionWord w) { s2 with word := w }))
      ∧ (s.turn = .issue core slot → (kget Bind.free (s.core core).slots slot).valid = false → step s = .next s.begin)
      ∧ (s.turn = .link n up → (∀ c, (s.link n).head up = some c →
        step s = exec (linkInstr n c.kind c.grid c.arg0 c.arg1) s.begin) ∧ ((s.link n).head up = none → step s = .next s.begin))
      ∧ (s.turn = .mgmt → (hasCommand s → ∀ s1 bs, s.begin.physRead (mqEntry s) 64 = (s1, some bs) →
        step s = exec (mgmtInstr (wordsOf 8 bs)) s1) ∧ (¬ hasCommand s → step s = .next s.begin))
      ∧ (∀ size, s.turn = .card off size v →
        (size = 8 → off.toNat % 8 = 0 → step s = exec (windowWrite off.toNat v) s.begin)
          ∧ ((size ≠ 8 ∨ off.toNat % 8 ≠ 0) → step s = .next s.begin))
      ∧ (∀ a, s.turn = .miss core slot a → ∃ u, step s = .next u ∧ u = { s.begin with groups := u.groups }
        ∧ ∀ j, u.grp j = s.grp j ∨ (u.grp j = { s.grp j with waits := some (.fill a.toNat) }
          ∧ (kget Bind.free (s.core core).slots slot).valid = true ∧ (kget Bind.free (s.core core).slots slot).key = j))
      ∧ (s.turn = .event e → step s = if isEvent e then exec e s.begin else .next s.begin)

/-- 25 R340, R353, R356, 19 R266, 23 R320 to R322: what reset leaves, and that it is sound. That every byte reads 0 and that the link is
down are the model's choices (logs 2, 3). -/
def Obligations.ResetState : Prop :=
  State.reset.Sound ∧ State.reset.boot.step = 1 ∧ State.reset.card.mqbase = 0 ∧ State.reset.card.irqst = 0
    ∧ State.reset.card.irqen = 0 ∧ State.reset.time.master = 0 ∧ State.reset.time.source = .oscillator ∧ State.reset.time.locked = false
    ∧ State.reset.power.cap = 2800 ∧ State.reset.power.hot = false ∧ State.reset.card.link = false
    ∧ (∀ n, (State.reset.part n).live = false ∧ (State.reset.team n).phase = .absent ∧ (State.reset.grid n).live = false
      ∧ (State.reset.graph n).live = false ∧ (State.reset.job n).live = false ∧ (State.reset.sector n).valid = false
      ∧ (State.reset.core n).frozen = false ∧ (State.reset.grp n).status = .ended)
    ∧ (∀ c n, State.reset.counter c n = 0) ∧ ∀ p, State.reset.memByte p = 0

/-- Every step keeps the package sound: the memory in its canonical form, each valid sector at its own index (23 R320, R321), each clean
sector equal to what the device holds (23 R321, R322), bring-up at a step of 25 R356, and the power cap within 25 R353. -/
def Obligations.SoundPreserved : Prop := ∀ s t : State, s.Sound → step s = .next t → t.Sound

/-- 09 R109 to R136, 19 R288, 25 R341, R342: decoding the word of a well-formed instruction gives the instruction back, with every
operand and modifier; so do a management command's words and a link command's bits. -/
def Obligations.DecodeEncode : Prop :=
  (∀ (i : Instr) (w : Word), i.wellFormed = true → encode i = some w → decodeWord w = .ok i)
    ∧ (∀ (i : Instr) (ws : List Word), fits i → encodeMgmt i = some ws → mgmtInstr ws = i)
    ∧ ∀ (link : Nat) (kind : Byte) (sq : BitVec 16) (rsv : BitVec 40) (grid a0 a1 : Word),
      decodeLink link (kind.toNat + rsv.toNat % 2 ^ 8 * 2 ^ 8 + sq.toNat * 2 ^ 16 + rsv.toNat / 2 ^ 8 * 2 ^ 32 + grid.toNat * 2 ^ 64
        + a0.toNat * 2 ^ 128 + a1.toNat * 2 ^ 192) = linkInstr link kind grid a0 a1

/-- The words that the spec writes out, 09 R111 to R128, 11 R154, R165, R167, 13 R206, R212, 15 R231, 17 R257: each decodes to the
instruction it stands for. R135: opcode 0x00 of class I is `MOVI`, and every other opcode of the class is reserved. -/
def Obligations.DecodeWords : Prop :=
  let al : Guard := ⟨false, 7⟩
  let v (n : Fin 320) : Src := ⟨.v n, false, false⟩
  decodeWord 0x0232020040403200 = .ok (.ffma ⟨false, 2⟩ ⟨.f32x2, .rn, false⟩ (.v 4) (v 1) ⟨.v 2, true, false⟩ (v 3))
    ∧ decodeWord 0x100702818FFFFF40 = .ok (.iaddImm al ⟨.w64, false, false⟩ (.v 5) (v 6) (-3))
    ∧ decodeWord 0x01970500405FF002 = .ok (.icmp al .w64 false .lt ⟨.set, 1, 2⟩ (v 1) (v 2))
    ∧ decodeWord 0x0387020096201002 = .ok (.cvt al .f32 .e2m3 1 .rn true false (.v 4) (v 2))
    ∧ decodeWord 0x22670400BFE06002 = .ok (.ld al .g .b64 false .core 3 (.v 8) (v 2) ⟨.zero, false, false⟩ 2)
    ∧ decodeWord 0x4001FF8FFFFFFFFB = .ok (.bra ⟨false, 1⟩ (-5))
    ∧ decodeWord 0x5077FFD13FE00101 = .ok (.ringwait al 1 (.it (.s 4)))
    ∧ decodeWord 0x600706303F800000 = .ok (.movi al .dup (.v 12) 0x3F800000)
    ∧ decodeWord 0x3017FF852940200D = .ok (.mma al .a true true 0 .zero (.v 20) (.s 10) (.v 2))
    ∧ decodeWord 0x3107AA5128B46030 = .ok (.cpy al .sp .g (.s 20) (.s 4) (.s 5) (.s 6))
    ∧ decodeWord 0x8000C50011208300 = .ok (.pairedWord (.op ⟨.iadd .w64 false, 0, 3, 5, false, false, false, false⟩)
      (.op ⟨.fmul .f32x2 .rn, 2, 2, 3, false, false, false, false⟩))
    ∧ ∀ (x : Word) (i : Instr), (Read 6 0 x i → ∃ g mode d imm, i = .movi g mode d imm)
      ∧ (x.extractLsb' 60 4 = 6 → x.extractLsb' 52 8 ≠ 0 → decodeWord x = .error 3)

/-! ## Number formats and rounding (03 R34 to R38, R42 to R46) -/

namespace Sys2Proof.Claims

/-- The real number ± m × 2^e. -/
def real (neg : Bool) (m : Nat) (e : Int) : Rat := (if neg then -1 else 1) * (m : Rat) * 2 ^ e

/-- Fraction width, exponent width and bias (R34). -/
def fieldsOf : Fmt → Nat × Nat × Int
  | .e2m1 => (1, 2, 1) | .e2m3 => (3, 2, 1) | .e3m2 => (2, 3, 3) | .e4m3 => (3, 4, 7) | .e5m2 => (2, 5, 15)
  | .f16 => (10, 5, 15) | .bf16 => (7, 8, 127) | _ => (23, 8, 127)

/-- The formats with a sign, an exponent and a fraction; those of them with infinities; their largest finite number (R34). -/
def floats : List Fmt := [.e2m1, .e2m3, .e3m2, .e4m3, .e5m2, .f16, .bf16, .f32]
def withInf : List Fmt := [.e5m2, .f16, .bf16, .f32]
def largest : Fmt → Rat
  | .e2m1 => 6 | .e2m3 => 15 / 2 | .e3m2 => 28 | .e4m3 => 448 | .e5m2 => 57344 | .f16 => 65504
  | .bf16 => (2 - 1 / 2 ^ 7) * 2 ^ 127 | _ => (2 - 1 / 2 ^ 23) * 2 ^ 127

/-- The NaN that an operation produces in a format that has one (R46). -/
def nanOf : Fmt → Nat
  | .f32 => 0x7FC00000 | .f16 => 0x7E00 | .bf16 => 0x7FC0 | .e5m2 => 0x7E | .e4m3 => 0x7F | .tf6 => 0x20 | .tf8 => 0x80 | _ => 0

/-- The integer z that a mode selects for x (R42). -/
def Selects (rm : RMode) (x : Rat) (z : Int) : Prop :=
  match rm with
  | .rn => (x - z).abs ≤ 1 / 2 ∧ ((x - z).abs = 1 / 2 → z % 2 = 0)
  | .rz => (z : Rat).abs ≤ x.abs ∧ x.abs < (z : Rat).abs + 1 ∧ 0 ≤ x * z
  | .rd => (z : Rat) ≤ x ∧ x < z + 1
  | .ru => x ≤ z ∧ (z : Rat) < x + 1

/-- The pattern of an infinity and of the largest finite number, with a sign (R34). -/
def infinity (f : Fmt) (neg : Bool) : Nat :=
  let (m, e, _) := fieldsOf f
  (2 ^ e - 1) * 2 ^ m + if neg then 2 ^ (e + m) else 0
def largestPat (f : Fmt) (neg : Bool) : Nat :=
  let (m, e, _) := fieldsOf f
  (if f ∈ withInf then (2 ^ e - 1) * 2 ^ m - 1 else if f = .e4m3 then 0x7E else 2 ^ (e + m) - 1) + if neg then 2 ^ (e + m) else 0

/-- The overflow result of a mode is an infinity (R43, IEEE 754). -/
def toInfinity (neg : Bool) : RMode → Bool
  | .rn => true
  | .rz => false
  | .rd => neg
  | .ru => !neg

/-- R35: the value of a pattern with a sign, an exponent and a fraction. -/
def FloatValue (f : Fmt) (p : Nat) : Prop :=
  let (mw, ew, b) := fieldsOf f
  let s := p / 2 ^ (ew + mw) % 2 == 1
  let e := p / 2 ^ mw % 2 ^ ew
  let m := p % 2 ^ mw
  if f ∈ withInf ∧ e = 2 ^ ew - 1 then value f p = if m = 0 then .inf s else .nan
  else if f = .e4m3 ∧ e = 15 ∧ m = 7 then value f p = .nan
  else ∃ n k, value f p = .fin s n k ∧ real s n k = (if s then -1 else 1)
    * (if e = 0 then 2 ^ (1 - b) * ((m : Rat) / 2 ^ mw) else 2 ^ ((e : Int) - b) * (1 + (m : Rat) / 2 ^ mw))

/-- R43 for a number x that is not 0: it is rounded with an unbounded exponent first, to `u` × 2^(top − M). -/
def FloatRounded (f : Fmt) (neg : Bool) (m : Nat) (e : Int) (rm : RMode) (sat : Bool) : Prop :=
  let x := real neg m e
  let (mw, _, b) := fieldsOf f
  let r := roundTo f (.fin neg m e) rm sat
  ∀ (top : Int) (u z : Int), 2 ^ top ≤ x.abs → x.abs < 2 ^ (top + 1) → Selects rm (x / 2 ^ (top - mw)) u →
    let v : Rat := (u : Rat) * 2 ^ (top - mw)
    let q := max (top - mw) (1 - b - mw)
    (largest f < v.abs → r =
        if f ∈ withInf ∧ sat = false then
          (if toInfinity neg rm then infinity f neg else largestPat f neg, FLAG.overflow ||| FLAG.inexact)
        else (largestPat f neg, FLAG.saturated ||| FLAG.inexact))
      ∧ (v.abs ≤ largest f → Selects rm (x / 2 ^ q) z →
        r.1 < 2 ^ f.width ∧ (∃ n k, value f r.1 = .fin neg n k ∧ real neg n k = (z : Rat) * 2 ^ q)
          ∧ r.2 = if (z : Rat) * 2 ^ q = x then 0
            else FLAG.inexact ||| if v.abs < 2 ^ (1 - b) then FLAG.underflow else 0)

/-- The bits regime, e, fraction of x ≠ 0 that R44 writes after a sign of n − 1 bits, as a number whose integer part is the first
n − 1 of them. -/
def Spelled (n : Nat) (x p : Rat) : Prop :=
  ∃ (k : Int) (e : Nat) (f : Rat), e < 2 ∧ 0 ≤ f ∧ f < 1 ∧ x.abs = 2 ^ (2 * k + e) * (1 + f)
    ∧ p = if 0 ≤ k then ((2 ^ (k + 2) - 2) * 2 + e + f) * 2 ^ ((n : Int) - 4 - k) else (2 + e + f) * 2 ^ ((n : Int) - 3 + k)

/-- R38: the word of n bits is 0, NaR, or the number that its bits spell. -/
def TaperedValue (f : Fmt) (w : Nat) : Prop :=
  let n := f.width
  if w = 0 then value f w = .fin false 0 0
  else if w = 2 ^ (n - 1) then value f w = .nan
  else let s := decide (2 ^ (n - 1) < w)
    ∃ m e, value f w = .fin s m e ∧ Spelled n (real s m e) ((if s then 2 ^ n - w else w : Nat) : Rat)

/-- R44 for a number that is not 0. -/
def TaperedRounded (f : Fmt) (neg : Bool) (m : Nat) (e : Int) (rm : RMode) (sat : Bool) : Prop :=
  let x := real neg m e
  let n := f.width
  ∀ (s : Rat) (p : Int), Spelled n x s → Selects .rn s p →
    let w := if p = 0 then 1 else if 2 ^ (n - 1) ≤ p then 2 ^ (n - 1) - 1 else p.toNat
    roundTo f (.fin neg m e) rm sat = (if neg then 2 ^ n - w else w,
      (if p = 0 then FLAG.underflow else 0) ||| (if (p : Rat) = s then 0 else FLAG.inexact)
        ||| if (2 : Rat) ^ (if n = 6 then 8 else 12) < x.abs then FLAG.saturated else 0)

/-- R45 for a finite number. -/
def IntegerRounded (f : Fmt) (neg : Bool) (m : Nat) (e : Int) (rm : RMode) (sat : Bool) : Prop :=
  let n := f.width
  ∀ z : Int, Selects rm (real neg m e) z →
    let c := max (-2 ^ (n - 1)) (min (2 ^ (n - 1) - 1) z)
    roundTo f (.fin neg m e) rm sat = ((c % 2 ^ n).toNat,
      (if (z : Rat) = real neg m e then 0 else FLAG.inexact) ||| if c = z then 0 else FLAG.saturated)

end Sys2Proof.Claims

/-- 03 R35 to R38, R43 to R46: the value of every pattern of every format, and the pattern and flags that rounding a number, a zero,
an infinity or a NaN gives in every mode. -/
def Obligations.Rounding : Prop :=
  ∀ (neg sat : Bool) (m p : Nat) (e : Int) (rm : RMode),
    (∀ f ∈ floats, (p < 2 ^ f.width → FloatValue f p)
        ∧ (m ≠ 0 → FloatRounded f neg m e rm sat)
        ∧ roundTo f (.fin neg 0 e) rm sat = (if neg then 2 ^ (f.width - 1) else 0, 0))
      ∧ (∀ f ∈ withInf, roundTo f (.inf neg) rm sat
          = (if sat then (largestPat f neg, FLAG.saturated) else (infinity f neg, 0))
        ∧ roundTo f .nan rm sat = (nanOf f, 0))
      ∧ (∀ f ∈ [Fmt.e2m1, .e2m3, .e3m2, .e4m3], roundTo f (.inf neg) rm sat = (largestPat f neg, FLAG.saturated)
        ∧ roundTo f .nan rm sat = if f = .e4m3 then (nanOf f, 0) else (0, FLAG.invalid))
      ∧ (∀ f ∈ [Fmt.tf6, .tf8], (p < 2 ^ f.width → TaperedValue f p)
        ∧ (m ≠ 0 → TaperedRounded f neg m e rm sat)
        ∧ roundTo f (.fin neg 0 e) rm sat = (0, 0) ∧ roundTo f (.inf neg) rm sat = (nanOf f, FLAG.invalid)
        ∧ roundTo f .nan rm sat = (nanOf f, 0))
      ∧ (∀ f ∈ [Fmt.int4, .int8, .int32], (p < 2 ^ f.width → ∃ n, value f p = .fin (decide (2 ^ (f.width - 1) ≤ p)) n 0
          ∧ real (decide (2 ^ (f.width - 1) ≤ p)) n 0 = if p < 2 ^ (f.width - 1) then (p : Rat) else p - 2 ^ f.width)
        ∧ IntegerRounded f neg m e rm sat
        ∧ roundTo f (.inf neg) rm sat = (if neg then 2 ^ (f.width - 1) else 2 ^ (f.width - 1) - 1, FLAG.saturated)
        ∧ roundTo f .nan rm sat = (0, FLAG.invalid))
      ∧ (p < 256 → value .e8m0 p = if p = 255 then .nan else .fin false 1 ((p : Int) - 127))
end

