-- ==== Sys2Proof/Laws/Table.lean ====
section
/-!
SUPPORT. Laws of sparse tables: reading after writing, and the canonical form.
-/
namespace Sys2Proof.Machine

variable {α : Type}

/-! ## Reading after writing -/

theorem kget_kdel (d : α) (m : KMap α) (k j : Nat) : kget d (kdel m k) j = if j = k then d else kget d m j := by
  induction m with
  | nil => simp [kdel, kget]
  | cons e r ih =>
    obtain ⟨k', y⟩ := e
    simp only [kdel]
    split
    · rw [ih]; simp only [kget]; split <;> simp_all
    · simp only [kget, ih]; split <;> simp_all [eq_comm]

theorem kget_kput (d : α) (m : KMap α) (k : Nat) (x : α) (j : Nat) :
    kget d (kput m k x) j = if j = k then x else kget d m j := by
  induction m with
  | nil => simp [kput, kget]
  | cons e r ih =>
    obtain ⟨k', y⟩ := e
    simp only [kput]
    split
    · simp [kget]
    · split
      · simp only [kget]; split <;> simp_all
      · simp only [kget, ih]; split <;> simp_all [eq_comm]

/-- Read after write, at any key and for any table. -/
theorem kget_kset [DecidableEq α] (d : α) (m : KMap α) (k : Nat) (x : α) (j : Nat) :
    kget d (kset d m k x) j = if j = k then x else kget d m j := by
  unfold kset
  split
  · rename_i h; rw [kget_kdel, h]
  · exact kget_kput d m k x j

@[simp] theorem kget_kset_same [DecidableEq α] (d : α) (m : KMap α) (k : Nat) (x : α) : kget d (kset d m k x) k = x := by
  simp [kget_kset]

theorem kget_kset_ne [DecidableEq α] (d : α) (m : KMap α) {k j : Nat} (x : α) (h : j ≠ k) :
    kget d (kset d m k x) j = kget d m j := by
  simp [kget_kset, h]

/-! ## Writing the same key twice -/

theorem kput_kput (m : KMap α) (k : Nat) (x y : α) : kput (kput m k x) k y = kput m k y := by
  induction m with
  | nil => simp [kput]
  | cons e r ih =>
    obtain ⟨k', z⟩ := e
    by_cases h : k < k'
    · simp [kput, h]
    · by_cases h' : k = k'
      · simp [kput, h']
      · simp [kput, h, h', ih]

/-- The first of two writes to a key leaves nothing, unless it wrote the default into a table that lists a key twice. -/
theorem kset_kset_put [DecidableEq α] {d : α} {m : KMap α} {k : Nat} {x y : α} (hx : x ≠ d) (hy : y ≠ d) :
    kset d (kset d m k x) k y = kset d m k y := by
  simp [kset, hx, hy, kput_kput]

/-! ## What a written table lists -/

theorem mem_kdel {m : KMap α} {k : Nat} {e : Nat × α} (h : e ∈ kdel m k) : e ∈ m := by
  induction m with
  | nil => simp [kdel] at h
  | cons a r ih =>
    obtain ⟨k', y⟩ := a
    simp only [kdel] at h
    split at h
    · exact List.mem_cons_of_mem _ (ih h)
    · rcases List.mem_cons.mp h with h | h
      · simp [h]
      · exact List.mem_cons_of_mem _ (ih h)

theorem mem_kput {m : KMap α} {k : Nat} {x : α} {e : Nat × α} (h : e ∈ kput m k x) : e ∈ m ∨ e = (k, x) := by
  induction m with
  | nil => exact .inr (by simpa [kput] using h)
  | cons a r ih =>
    obtain ⟨k', y⟩ := a
    simp only [kput] at h
    split at h
    · rcases List.mem_cons.mp h with h | h
      · exact .inr h
      · exact .inl h
    · split at h
      · rcases List.mem_cons.mp h with h | h
        · exact .inr h
        · exact .inl (List.mem_cons_of_mem _ h)
      · rcases List.mem_cons.mp h with h | h
        · simp [h]
        · rcases ih h with h | h
          · exact .inl (List.mem_cons_of_mem _ h)
          · exact .inr h

theorem mem_kset [DecidableEq α] {d : α} {m : KMap α} {k : Nat} {x : α} {e : Nat × α} (h : e ∈ kset d m k x) : e ∈ m ∨ e = (k, x) := by
  unfold kset at h
  split at h
  · exact .inl (mem_kdel h)
  · exact mem_kput h

/-! ## The canonical form -/

variable [DecidableEq α]

theorem kwfFrom_mono {d : α} {m : KMap α} {a b : Nat} (h : kwfFrom d b m = true) (hab : a ≤ b) : kwfFrom d a m = true := by
  cases m with
  | nil => rfl
  | cons e r => simp only [kwfFrom, Bool.and_eq_true, decide_eq_true_eq] at *; exact ⟨⟨by omega, h.1.2⟩, h.2⟩

theorem kwfFrom_kdel {d : α} {m : KMap α} {a : Nat} (k : Nat) (h : kwfFrom d a m = true) : kwfFrom d a (kdel m k) = true := by
  induction m generalizing a with
  | nil => rfl
  | cons e r ih =>
    obtain ⟨k', y⟩ := e
    simp only [kwfFrom, Bool.and_eq_true, decide_eq_true_eq] at h
    simp only [kdel]
    split
    · exact ih (kwfFrom_mono h.2 (by omega))
    · simp only [kwfFrom, Bool.and_eq_true, decide_eq_true_eq]; exact ⟨h.1, ih h.2⟩

theorem kwfFrom_kput {d : α} {m : KMap α} {a k : Nat} {x : α} (hx : x ≠ d) (hk : a ≤ k) (h : kwfFrom d a m = true) :
    kwfFrom d a (kput m k x) = true := by
  induction m generalizing a with
  | nil => simp [kput, kwfFrom, hx, hk]
  | cons e r ih =>
    obtain ⟨k', y⟩ := e
    simp only [kwfFrom, Bool.and_eq_true, decide_eq_true_eq, bne_iff_ne] at h
    simp only [kput]
    split
    · simp only [kwfFrom, Bool.and_eq_true, decide_eq_true_eq, bne_iff_ne]
      exact ⟨⟨hk, hx⟩, ⟨by omega, h.1.2⟩, h.2⟩
    · split
      · simp only [kwfFrom, Bool.and_eq_true, decide_eq_true_eq, bne_iff_ne]
        exact ⟨⟨hk, hx⟩, by subst_vars; exact h.2⟩
      · simp only [kwfFrom, Bool.and_eq_true, decide_eq_true_eq, bne_iff_ne]
        exact ⟨h.1, ih (by omega) h.2⟩

/-- Writing keeps the canonical form. -/
theorem kwf_kset {d : α} {m : KMap α} (k : Nat) (x : α) (h : kwf d m = true) : kwf d (kset d m k x) = true := by
  unfold kwf kset at *
  split
  · exact kwfFrom_kdel k h
  · exact kwfFrom_kput ‹_› (Nat.zero_le _) h

theorem kwfFrom_filter {d : α} {m : KMap α} {a : Nat} (p : Nat × α → Bool) (h : kwfFrom d a m = true) :
    kwfFrom d a (m.filter p) = true := by
  induction m generalizing a with
  | nil => rfl
  | cons e r ih =>
    obtain ⟨k', y⟩ := e
    simp only [kwfFrom, Bool.and_eq_true, decide_eq_true_eq] at h
    simp only [List.filter]
    split
    · simp only [kwfFrom, Bool.and_eq_true, decide_eq_true_eq]; exact ⟨h.1, ih h.2⟩
    · exact ih (kwfFrom_mono h.2 (by omega))

/-- Selecting entries keeps the canonical form. -/
theorem kwf_filter {d : α} {m : KMap α} (p : Nat × α → Bool) (h : kwf d m = true) : kwf d (m.filter p) = true :=
  kwfFrom_filter p h

theorem kwf_kcut {d : α} {m : KMap α} (lo hi : Nat) (h : kwf d m = true) : kwf d (kcut m lo hi) = true := kwf_filter _ h

/-- Two canonical parts one below the other. -/
theorem kwfFrom_append {d : α} {m n : KMap α} {a b : Nat} (hm : kwfFrom d a m = true) (hn : kwfFrom d b n = true) (hab : a ≤ b)
    (hlt : ∀ e ∈ m, e.1 < b) : kwfFrom d a (m ++ n) = true := by
  induction m generalizing a with
  | nil => exact kwfFrom_mono hn hab
  | cons e r ih =>
    obtain ⟨k', y⟩ := e
    simp only [kwfFrom, Bool.and_eq_true, decide_eq_true_eq, List.cons_append] at *
    exact ⟨hm.1, ih hm.2 (hlt (k', y) (by simp)) fun e he => hlt e (by simp [he])⟩

/-- A part above a bound. -/
theorem kwfFrom_above {d : α} {m : KMap α} {a b : Nat} (h : kwfFrom d a m = true) (hb : ∀ e ∈ m, b ≤ e.1) :
    kwfFrom d b m = true := by
  cases m with
  | nil => rfl
  | cons e r =>
    simp only [kwfFrom, Bool.and_eq_true, decide_eq_true_eq] at *
    exact ⟨⟨hb e (by simp), h.1.2⟩, h.2⟩

/-- Keys moved by the same distance. -/
theorem kwfFrom_shift {d : α} {m : KMap α} {a : Nat} (src dst : Nat) (h : kwfFrom d a m = true) (hs : ∀ e ∈ m, src ≤ e.1)
    (ha : src ≤ a) : kwfFrom d (a - src + dst) (m.map fun e => (e.1 - src + dst, e.2)) = true := by
  induction m generalizing a with
  | nil => rfl
  | cons e r ih =>
    obtain ⟨k', y⟩ := e
    simp only [kwfFrom, Bool.and_eq_true, decide_eq_true_eq, List.map_cons] at *
    have hk : src ≤ k' := hs (k', y) (by simp)
    refine ⟨⟨by omega, h.1.2⟩, ?_⟩
    have := ih h.2 (fun e he => hs e (by simp [he])) (by omega)
    rwa [show k' - src + dst + 1 = k' + 1 - src + dst by omega]

/-- Copying a range keeps the canonical form. -/
theorem kwf_kcopy {d : α} {m : KMap α} (src dst n : Nat) (h : kwf d m = true) : kwf d (kcopy m src dst n) = true := by
  unfold kwf kcopy at *
  have h1 : kwfFrom d 0 (m.filter fun e => e.1 < dst) = true := kwfFrom_filter _ h
  have h2 : kwfFrom d src (kslice m src (src + n)) = true :=
    kwfFrom_above (kwfFrom_filter _ h) fun e he => by simp [kslice] at he; omega
  have h3 : kwfFrom d dst ((kslice m src (src + n)).map fun e => (e.1 - src + dst, e.2)) = true := by
    have := kwfFrom_shift src dst h2 (fun e he => by simp [kslice] at he; omega) (Nat.le_refl _)
    simpa using this
  have h4 : kwfFrom d (dst + n) (m.filter fun e => dst + n ≤ e.1) = true :=
    kwfFrom_above (kwfFrom_filter _ h) fun e he => by simp at he; omega
  have h5 := kwfFrom_append h3 h4 (by omega) fun e he => by
    simp only [List.mem_map] at he
    obtain ⟨f, hf, rfl⟩ := he
    simp [kslice] at hf; simp; omega
  simp only [List.append_assoc]
  exact kwfFrom_append h1 h5 (Nat.zero_le _) fun e he => by simp at he; omega

theorem kwf_foldl_kset {d : α} (l : List (Nat × α)) {m : KMap α} (h : kwf d m = true) :
    kwf d (l.foldl (fun m e => kset d m e.1 e.2) m) = true := by
  induction l generalizing m with
  | nil => exact h
  | cons e r ih => exact ih (kwf_kset _ _ h)

end Sys2Proof.Machine
end

