-- ==== Sys2Proof/Laws/State.lean ====
section
/-!
SUPPORT. Laws of the state: each update changes its own field and no other, and what reading gives after writing.
-/
set_option linter.unusedVariables false
namespace Sys2Proof.Machine

/-! ## `setGrp` -/

@[simp] theorem State.setGrp_mem (s : State) (k : Nat) (x : Group) : (s.setGrp k x).mem = s.mem := rfl
@[simp] theorem State.setGrp_bad (s : State) (k : Nat) (x : Group) : (s.setGrp k x).bad = s.bad := rfl
@[simp] theorem State.setGrp_teams (s : State) (k : Nat) (x : Group) : (s.setGrp k x).teams = s.teams := rfl
@[simp] theorem State.setGrp_grids (s : State) (k : Nat) (x : Group) : (s.setGrp k x).grids = s.grids := rfl
@[simp] theorem State.setGrp_graphs (s : State) (k : Nat) (x : Group) : (s.setGrp k x).graphs = s.graphs := rfl
@[simp] theorem State.setGrp_nodes (s : State) (k : Nat) (x : Group) : (s.setGrp k x).nodes = s.nodes := rfl
@[simp] theorem State.setGrp_jobs (s : State) (k : Nat) (x : Group) : (s.setGrp k x).jobs = s.jobs := rfl
@[simp] theorem State.setGrp_parts (s : State) (k : Nat) (x : Group) : (s.setGrp k x).parts = s.parts := rfl
@[simp] theorem State.setGrp_cores (s : State) (k : Nat) (x : Group) : (s.setGrp k x).cores = s.cores := rfl
@[simp] theorem State.setGrp_clusters (s : State) (k : Nat) (x : Group) : (s.setGrp k x).clusters = s.clusters := rfl
@[simp] theorem State.setGrp_links (s : State) (k : Nat) (x : Group) : (s.setGrp k x).links = s.links := rfl
@[simp] theorem State.setGrp_sectors (s : State) (k : Nat) (x : Group) : (s.setGrp k x).sectors = s.sectors := rfl
@[simp] theorem State.setGrp_counters (s : State) (k : Nat) (x : Group) : (s.setGrp k x).counters = s.counters := rfl
@[simp] theorem State.setGrp_held (s : State) (k : Nat) (x : Group) : (s.setGrp k x).held = s.held := rfl
@[simp] theorem State.setGrp_past (s : State) (k : Nat) (x : Group) : (s.setGrp k x).past = s.past := rfl
@[simp] theorem State.setGrp_afences (s : State) (k : Nat) (x : Group) : (s.setGrp k x).afences = s.afences := rfl
@[simp] theorem State.setGrp_areas (s : State) (k : Nat) (x : Group) : (s.setGrp k x).areas = s.areas := rfl
@[simp] theorem State.setGrp_portsDown (s : State) (k : Nat) (x : Group) : (s.setGrp k x).portsDown = s.portsDown := rfl
@[simp] theorem State.setGrp_sent (s : State) (k : Nat) (x : Group) : (s.setGrp k x).sent = s.sent := rfl
@[simp] theorem State.setGrp_time (s : State) (k : Nat) (x : Group) : (s.setGrp k x).time = s.time := rfl
@[simp] theorem State.setGrp_power (s : State) (k : Nat) (x : Group) : (s.setGrp k x).power = s.power := rfl
@[simp] theorem State.setGrp_boot (s : State) (k : Nat) (x : Group) : (s.setGrp k x).boot = s.boot := rfl
@[simp] theorem State.setGrp_card (s : State) (k : Nat) (x : Group) : (s.setGrp k x).card = s.card := rfl
@[simp] theorem State.setGrp_nextTeam (s : State) (k : Nat) (x : Group) : (s.setGrp k x).nextTeam = s.nextTeam := rfl
@[simp] theorem State.setGrp_nextJob (s : State) (k : Nat) (x : Group) : (s.setGrp k x).nextJob = s.nextJob := rfl
@[simp] theorem State.setGrp_nextOrder (s : State) (k : Nat) (x : Group) : (s.setGrp k x).nextOrder = s.nextOrder := rfl
@[simp] theorem State.setGrp_focus (s : State) (k : Nat) (x : Group) : (s.setGrp k x).focus = s.focus := rfl
@[simp] theorem State.setGrp_word (s : State) (k : Nat) (x : Group) : (s.setGrp k x).word = s.word := rfl
@[simp] theorem State.setGrp_schedule (s : State) (k : Nat) (x : Group) : (s.setGrp k x).schedule = s.schedule := rfl
@[simp] theorem State.setGrp_tick (s : State) (k : Nat) (x : Group) : (s.setGrp k x).tick = s.tick := rfl
@[simp] theorem State.setGrp_choices (s : State) (k : Nat) (x : Group) : (s.setGrp k x).choices = s.choices := rfl

theorem State.setGrp_grp (s : State) (k : Nat) (x : Group) (j : Nat) : (s.setGrp k x).grp j = if j = k then x else s.grp j :=
  kget_kset _ _ _ _ _
@[simp] theorem State.setGrp_grp_same (s : State) (k : Nat) (x : Group) : (s.setGrp k x).grp k = x := kget_kset_same _ _ _ _
theorem State.setGrp_grp_ne (s : State) (x : Group) {k j : Nat} (h : j ≠ k) : (s.setGrp k x).grp j = s.grp j := kget_kset_ne _ _ _ h

@[simp] theorem State.setGrp_team (s : State) (k : Nat) (x : Group) (j : Nat) : (s.setGrp k x).team j = s.team j := rfl
@[simp] theorem State.setGrp_grid (s : State) (k : Nat) (x : Group) (j : Nat) : (s.setGrp k x).grid j = s.grid j := rfl
@[simp] theorem State.setGrp_core (s : State) (k : Nat) (x : Group) (j : Nat) : (s.setGrp k x).core j = s.core j := rfl
@[simp] theorem State.setGrp_job (s : State) (k : Nat) (x : Group) (j : Nat) : (s.setGrp k x).job j = s.job j := rfl
@[simp] theorem State.setGrp_node (s : State) (k : Nat) (x : Group) (j : Nat) : (s.setGrp k x).node j = s.node j := rfl
@[simp] theorem State.setGrp_graph (s : State) (k : Nat) (x : Group) (j : Nat) : (s.setGrp k x).graph j = s.graph j := rfl
@[simp] theorem State.setGrp_cluster (s : State) (k : Nat) (x : Group) (j : Nat) : (s.setGrp k x).cluster j = s.cluster j := rfl
@[simp] theorem State.setGrp_link (s : State) (k : Nat) (x : Group) (j : Nat) : (s.setGrp k x).link j = s.link j := rfl
@[simp] theorem State.setGrp_part (s : State) (k : Nat) (x : Group) (j : Nat) : (s.setGrp k x).part j = s.part j := rfl
@[simp] theorem State.setGrp_sector (s : State) (k : Nat) (x : Group) (j : Nat) : (s.setGrp k x).sector j = s.sector j := rfl
@[simp] theorem State.setGrp_byte (s : State) (k : Nat) (x : Group) (j : Nat) : (s.setGrp k x).byte j = s.byte j := rfl
@[simp] theorem State.setGrp_timeOf (s : State) (k : Nat) (x : Group) (j : Nat) : (s.setGrp k x).timeOf j = s.timeOf j := rfl

/-! ## `setTeam` -/

@[simp] theorem State.setTeam_mem (s : State) (k : Nat) (x : Team) : (s.setTeam k x).mem = s.mem := rfl
@[simp] theorem State.setTeam_bad (s : State) (k : Nat) (x : Team) : (s.setTeam k x).bad = s.bad := rfl
@[simp] theorem State.setTeam_groups (s : State) (k : Nat) (x : Team) : (s.setTeam k x).groups = s.groups := rfl
@[simp] theorem State.setTeam_grids (s : State) (k : Nat) (x : Team) : (s.setTeam k x).grids = s.grids := rfl
@[simp] theorem State.setTeam_graphs (s : State) (k : Nat) (x : Team) : (s.setTeam k x).graphs = s.graphs := rfl
@[simp] theorem State.setTeam_nodes (s : State) (k : Nat) (x : Team) : (s.setTeam k x).nodes = s.nodes := rfl
@[simp] theorem State.setTeam_jobs (s : State) (k : Nat) (x : Team) : (s.setTeam k x).jobs = s.jobs := rfl
@[simp] theorem State.setTeam_parts (s : State) (k : Nat) (x : Team) : (s.setTeam k x).parts = s.parts := rfl
@[simp] theorem State.setTeam_cores (s : State) (k : Nat) (x : Team) : (s.setTeam k x).cores = s.cores := rfl
@[simp] theorem State.setTeam_clusters (s : State) (k : Nat) (x : Team) : (s.setTeam k x).clusters = s.clusters := rfl
@[simp] theorem State.setTeam_links (s : State) (k : Nat) (x : Team) : (s.setTeam k x).links = s.links := rfl
@[simp] theorem State.setTeam_sectors (s : State) (k : Nat) (x : Team) : (s.setTeam k x).sectors = s.sectors := rfl
@[simp] theorem State.setTeam_counters (s : State) (k : Nat) (x : Team) : (s.setTeam k x).counters = s.counters := rfl
@[simp] theorem State.setTeam_held (s : State) (k : Nat) (x : Team) : (s.setTeam k x).held = s.held := rfl
@[simp] theorem State.setTeam_past (s : State) (k : Nat) (x : Team) : (s.setTeam k x).past = s.past := rfl
@[simp] theorem State.setTeam_afences (s : State) (k : Nat) (x : Team) : (s.setTeam k x).afences = s.afences := rfl
@[simp] theorem State.setTeam_areas (s : State) (k : Nat) (x : Team) : (s.setTeam k x).areas = s.areas := rfl
@[simp] theorem State.setTeam_portsDown (s : State) (k : Nat) (x : Team) : (s.setTeam k x).portsDown = s.portsDown := rfl
@[simp] theorem State.setTeam_sent (s : State) (k : Nat) (x : Team) : (s.setTeam k x).sent = s.sent := rfl
@[simp] theorem State.setTeam_time (s : State) (k : Nat) (x : Team) : (s.setTeam k x).time = s.time := rfl
@[simp] theorem State.setTeam_power (s : State) (k : Nat) (x : Team) : (s.setTeam k x).power = s.power := rfl
@[simp] theorem State.setTeam_boot (s : State) (k : Nat) (x : Team) : (s.setTeam k x).boot = s.boot := rfl
@[simp] theorem State.setTeam_card (s : State) (k : Nat) (x : Team) : (s.setTeam k x).card = s.card := rfl
@[simp] theorem State.setTeam_nextTeam (s : State) (k : Nat) (x : Team) : (s.setTeam k x).nextTeam = s.nextTeam := rfl
@[simp] theorem State.setTeam_nextJob (s : State) (k : Nat) (x : Team) : (s.setTeam k x).nextJob = s.nextJob := rfl
@[simp] theorem State.setTeam_nextOrder (s : State) (k : Nat) (x : Team) : (s.setTeam k x).nextOrder = s.nextOrder := rfl
@[simp] theorem State.setTeam_focus (s : State) (k : Nat) (x : Team) : (s.setTeam k x).focus = s.focus := rfl
@[simp] theorem State.setTeam_word (s : State) (k : Nat) (x : Team) : (s.setTeam k x).word = s.word := rfl
@[simp] theorem State.setTeam_schedule (s : State) (k : Nat) (x : Team) : (s.setTeam k x).schedule = s.schedule := rfl
@[simp] theorem State.setTeam_tick (s : State) (k : Nat) (x : Team) : (s.setTeam k x).tick = s.tick := rfl
@[simp] theorem State.setTeam_choices (s : State) (k : Nat) (x : Team) : (s.setTeam k x).choices = s.choices := rfl

theorem State.setTeam_team (s : State) (k : Nat) (x : Team) (j : Nat) : (s.setTeam k x).team j = if j = k then x else s.team j :=
  kget_kset _ _ _ _ _
@[simp] theorem State.setTeam_team_same (s : State) (k : Nat) (x : Team) : (s.setTeam k x).team k = x := kget_kset_same _ _ _ _
theorem State.setTeam_team_ne (s : State) (x : Team) {k j : Nat} (h : j ≠ k) : (s.setTeam k x).team j = s.team j := kget_kset_ne _ _ _ h

@[simp] theorem State.setTeam_grp (s : State) (k : Nat) (x : Team) (j : Nat) : (s.setTeam k x).grp j = s.grp j := rfl
@[simp] theorem State.setTeam_grid (s : State) (k : Nat) (x : Team) (j : Nat) : (s.setTeam k x).grid j = s.grid j := rfl
@[simp] theorem State.setTeam_core (s : State) (k : Nat) (x : Team) (j : Nat) : (s.setTeam k x).core j = s.core j := rfl
@[simp] theorem State.setTeam_job (s : State) (k : Nat) (x : Team) (j : Nat) : (s.setTeam k x).job j = s.job j := rfl
@[simp] theorem State.setTeam_node (s : State) (k : Nat) (x : Team) (j : Nat) : (s.setTeam k x).node j = s.node j := rfl
@[simp] theorem State.setTeam_graph (s : State) (k : Nat) (x : Team) (j : Nat) : (s.setTeam k x).graph j = s.graph j := rfl
@[simp] theorem State.setTeam_cluster (s : State) (k : Nat) (x : Team) (j : Nat) : (s.setTeam k x).cluster j = s.cluster j := rfl
@[simp] theorem State.setTeam_link (s : State) (k : Nat) (x : Team) (j : Nat) : (s.setTeam k x).link j = s.link j := rfl
@[simp] theorem State.setTeam_part (s : State) (k : Nat) (x : Team) (j : Nat) : (s.setTeam k x).part j = s.part j := rfl
@[simp] theorem State.setTeam_sector (s : State) (k : Nat) (x : Team) (j : Nat) : (s.setTeam k x).sector j = s.sector j := rfl
@[simp] theorem State.setTeam_byte (s : State) (k : Nat) (x : Team) (j : Nat) : (s.setTeam k x).byte j = s.byte j := rfl
@[simp] theorem State.setTeam_timeOf (s : State) (k : Nat) (x : Team) (j : Nat) : (s.setTeam k x).timeOf j = s.timeOf j := rfl

/-! ## `setGrid` -/

@[simp] theorem State.setGrid_mem (s : State) (k : Nat) (x : Grid) : (s.setGrid k x).mem = s.mem := rfl
@[simp] theorem State.setGrid_bad (s : State) (k : Nat) (x : Grid) : (s.setGrid k x).bad = s.bad := rfl
@[simp] theorem State.setGrid_groups (s : State) (k : Nat) (x : Grid) : (s.setGrid k x).groups = s.groups := rfl
@[simp] theorem State.setGrid_teams (s : State) (k : Nat) (x : Grid) : (s.setGrid k x).teams = s.teams := rfl
@[simp] theorem State.setGrid_graphs (s : State) (k : Nat) (x : Grid) : (s.setGrid k x).graphs = s.graphs := rfl
@[simp] theorem State.setGrid_nodes (s : State) (k : Nat) (x : Grid) : (s.setGrid k x).nodes = s.nodes := rfl
@[simp] theorem State.setGrid_jobs (s : State) (k : Nat) (x : Grid) : (s.setGrid k x).jobs = s.jobs := rfl
@[simp] theorem State.setGrid_parts (s : State) (k : Nat) (x : Grid) : (s.setGrid k x).parts = s.parts := rfl
@[simp] theorem State.setGrid_cores (s : State) (k : Nat) (x : Grid) : (s.setGrid k x).cores = s.cores := rfl
@[simp] theorem State.setGrid_clusters (s : State) (k : Nat) (x : Grid) : (s.setGrid k x).clusters = s.clusters := rfl
@[simp] theorem State.setGrid_links (s : State) (k : Nat) (x : Grid) : (s.setGrid k x).links = s.links := rfl
@[simp] theorem State.setGrid_sectors (s : State) (k : Nat) (x : Grid) : (s.setGrid k x).sectors = s.sectors := rfl
@[simp] theorem State.setGrid_counters (s : State) (k : Nat) (x : Grid) : (s.setGrid k x).counters = s.counters := rfl
@[simp] theorem State.setGrid_held (s : State) (k : Nat) (x : Grid) : (s.setGrid k x).held = s.held := rfl
@[simp] theorem State.setGrid_past (s : State) (k : Nat) (x : Grid) : (s.setGrid k x).past = s.past := rfl
@[simp] theorem State.setGrid_afences (s : State) (k : Nat) (x : Grid) : (s.setGrid k x).afences = s.afences := rfl
@[simp] theorem State.setGrid_areas (s : State) (k : Nat) (x : Grid) : (s.setGrid k x).areas = s.areas := rfl
@[simp] theorem State.setGrid_portsDown (s : State) (k : Nat) (x : Grid) : (s.setGrid k x).portsDown = s.portsDown := rfl
@[simp] theorem State.setGrid_sent (s : State) (k : Nat) (x : Grid) : (s.setGrid k x).sent = s.sent := rfl
@[simp] theorem State.setGrid_time (s : State) (k : Nat) (x : Grid) : (s.setGrid k x).time = s.time := rfl
@[simp] theorem State.setGrid_power (s : State) (k : Nat) (x : Grid) : (s.setGrid k x).power = s.power := rfl
@[simp] theorem State.setGrid_boot (s : State) (k : Nat) (x : Grid) : (s.setGrid k x).boot = s.boot := rfl
@[simp] theorem State.setGrid_card (s : State) (k : Nat) (x : Grid) : (s.setGrid k x).card = s.card := rfl
@[simp] theorem State.setGrid_nextTeam (s : State) (k : Nat) (x : Grid) : (s.setGrid k x).nextTeam = s.nextTeam := rfl
@[simp] theorem State.setGrid_nextJob (s : State) (k : Nat) (x : Grid) : (s.setGrid k x).nextJob = s.nextJob := rfl
@[simp] theorem State.setGrid_nextOrder (s : State) (k : Nat) (x : Grid) : (s.setGrid k x).nextOrder = s.nextOrder := rfl
@[simp] theorem State.setGrid_focus (s : State) (k : Nat) (x : Grid) : (s.setGrid k x).focus = s.focus := rfl
@[simp] theorem State.setGrid_word (s : State) (k : Nat) (x : Grid) : (s.setGrid k x).word = s.word := rfl
@[simp] theorem State.setGrid_schedule (s : State) (k : Nat) (x : Grid) : (s.setGrid k x).schedule = s.schedule := rfl
@[simp] theorem State.setGrid_tick (s : State) (k : Nat) (x : Grid) : (s.setGrid k x).tick = s.tick := rfl
@[simp] theorem State.setGrid_choices (s : State) (k : Nat) (x : Grid) : (s.setGrid k x).choices = s.choices := rfl

theorem State.setGrid_grid (s : State) (k : Nat) (x : Grid) (j : Nat) : (s.setGrid k x).grid j = if j = k then x else s.grid j :=
  kget_kset _ _ _ _ _
@[simp] theorem State.setGrid_grid_same (s : State) (k : Nat) (x : Grid) : (s.setGrid k x).grid k = x := kget_kset_same _ _ _ _
theorem State.setGrid_grid_ne (s : State) (x : Grid) {k j : Nat} (h : j ≠ k) : (s.setGrid k x).grid j = s.grid j := kget_kset_ne _ _ _ h

@[simp] theorem State.setGrid_grp (s : State) (k : Nat) (x : Grid) (j : Nat) : (s.setGrid k x).grp j = s.grp j := rfl
@[simp] theorem State.setGrid_team (s : State) (k : Nat) (x : Grid) (j : Nat) : (s.setGrid k x).team j = s.team j := rfl
@[simp] theorem State.setGrid_core (s : State) (k : Nat) (x : Grid) (j : Nat) : (s.setGrid k x).core j = s.core j := rfl
@[simp] theorem State.setGrid_job (s : State) (k : Nat) (x : Grid) (j : Nat) : (s.setGrid k x).job j = s.job j := rfl
@[simp] theorem State.setGrid_node (s : State) (k : Nat) (x : Grid) (j : Nat) : (s.setGrid k x).node j = s.node j := rfl
@[simp] theorem State.setGrid_graph (s : State) (k : Nat) (x : Grid) (j : Nat) : (s.setGrid k x).graph j = s.graph j := rfl
@[simp] theorem State.setGrid_cluster (s : State) (k : Nat) (x : Grid) (j : Nat) : (s.setGrid k x).cluster j = s.cluster j := rfl
@[simp] theorem State.setGrid_link (s : State) (k : Nat) (x : Grid) (j : Nat) : (s.setGrid k x).link j = s.link j := rfl
@[simp] theorem State.setGrid_part (s : State) (k : Nat) (x : Grid) (j : Nat) : (s.setGrid k x).part j = s.part j := rfl
@[simp] theorem State.setGrid_sector (s : State) (k : Nat) (x : Grid) (j : Nat) : (s.setGrid k x).sector j = s.sector j := rfl
@[simp] theorem State.setGrid_byte (s : State) (k : Nat) (x : Grid) (j : Nat) : (s.setGrid k x).byte j = s.byte j := rfl
@[simp] theorem State.setGrid_timeOf (s : State) (k : Nat) (x : Grid) (j : Nat) : (s.setGrid k x).timeOf j = s.timeOf j := rfl

/-! ## `setCore` -/

@[simp] theorem State.setCore_mem (s : State) (k : Nat) (x : Core) : (s.setCore k x).mem = s.mem := rfl
@[simp] theorem State.setCore_bad (s : State) (k : Nat) (x : Core) : (s.setCore k x).bad = s.bad := rfl
@[simp] theorem State.setCore_groups (s : State) (k : Nat) (x : Core) : (s.setCore k x).groups = s.groups := rfl
@[simp] theorem State.setCore_teams (s : State) (k : Nat) (x : Core) : (s.setCore k x).teams = s.teams := rfl
@[simp] theorem State.setCore_grids (s : State) (k : Nat) (x : Core) : (s.setCore k x).grids = s.grids := rfl
@[simp] theorem State.setCore_graphs (s : State) (k : Nat) (x : Core) : (s.setCore k x).graphs = s.graphs := rfl
@[simp] theorem State.setCore_nodes (s : State) (k : Nat) (x : Core) : (s.setCore k x).nodes = s.nodes := rfl
@[simp] theorem State.setCore_jobs (s : State) (k : Nat) (x : Core) : (s.setCore k x).jobs = s.jobs := rfl
@[simp] theorem State.setCore_parts (s : State) (k : Nat) (x : Core) : (s.setCore k x).parts = s.parts := rfl
@[simp] theorem State.setCore_clusters (s : State) (k : Nat) (x : Core) : (s.setCore k x).clusters = s.clusters := rfl
@[simp] theorem State.setCore_links (s : State) (k : Nat) (x : Core) : (s.setCore k x).links = s.links := rfl
@[simp] theorem State.setCore_sectors (s : State) (k : Nat) (x : Core) : (s.setCore k x).sectors = s.sectors := rfl
@[simp] theorem State.setCore_counters (s : State) (k : Nat) (x : Core) : (s.setCore k x).counters = s.counters := rfl
@[simp] theorem State.setCore_held (s : State) (k : Nat) (x : Core) : (s.setCore k x).held = s.held := rfl
@[simp] theorem State.setCore_past (s : State) (k : Nat) (x : Core) : (s.setCore k x).past = s.past := rfl
@[simp] theorem State.setCore_afences (s : State) (k : Nat) (x : Core) : (s.setCore k x).afences = s.afences := rfl
@[simp] theorem State.setCore_areas (s : State) (k : Nat) (x : Core) : (s.setCore k x).areas = s.areas := rfl
@[simp] theorem State.setCore_portsDown (s : State) (k : Nat) (x : Core) : (s.setCore k x).portsDown = s.portsDown := rfl
@[simp] theorem State.setCore_sent (s : State) (k : Nat) (x : Core) : (s.setCore k x).sent = s.sent := rfl
@[simp] theorem State.setCore_time (s : State) (k : Nat) (x : Core) : (s.setCore k x).time = s.time := rfl
@[simp] theorem State.setCore_power (s : State) (k : Nat) (x : Core) : (s.setCore k x).power = s.power := rfl
@[simp] theorem State.setCore_boot (s : State) (k : Nat) (x : Core) : (s.setCore k x).boot = s.boot := rfl
@[simp] theorem State.setCore_card (s : State) (k : Nat) (x : Core) : (s.setCore k x).card = s.card := rfl
@[simp] theorem State.setCore_nextTeam (s : State) (k : Nat) (x : Core) : (s.setCore k x).nextTeam = s.nextTeam := rfl
@[simp] theorem State.setCore_nextJob (s : State) (k : Nat) (x : Core) : (s.setCore k x).nextJob = s.nextJob := rfl
@[simp] theorem State.setCore_nextOrder (s : State) (k : Nat) (x : Core) : (s.setCore k x).nextOrder = s.nextOrder := rfl
@[simp] theorem State.setCore_focus (s : State) (k : Nat) (x : Core) : (s.setCore k x).focus = s.focus := rfl
@[simp] theorem State.setCore_word (s : State) (k : Nat) (x : Core) : (s.setCore k x).word = s.word := rfl
@[simp] theorem State.setCore_schedule (s : State) (k : Nat) (x : Core) : (s.setCore k x).schedule = s.schedule := rfl
@[simp] theorem State.setCore_tick (s : State) (k : Nat) (x : Core) : (s.setCore k x).tick = s.tick := rfl
@[simp] theorem State.setCore_choices (s : State) (k : Nat) (x : Core) : (s.setCore k x).choices = s.choices := rfl

theorem State.setCore_core (s : State) (k : Nat) (x : Core) (j : Nat) : (s.setCore k x).core j = if j = k then x else s.core j :=
  kget_kset _ _ _ _ _
@[simp] theorem State.setCore_core_same (s : State) (k : Nat) (x : Core) : (s.setCore k x).core k = x := kget_kset_same _ _ _ _
theorem State.setCore_core_ne (s : State) (x : Core) {k j : Nat} (h : j ≠ k) : (s.setCore k x).core j = s.core j := kget_kset_ne _ _ _ h

@[simp] theorem State.setCore_grp (s : State) (k : Nat) (x : Core) (j : Nat) : (s.setCore k x).grp j = s.grp j := rfl
@[simp] theorem State.setCore_team (s : State) (k : Nat) (x : Core) (j : Nat) : (s.setCore k x).team j = s.team j := rfl
@[simp] theorem State.setCore_grid (s : State) (k : Nat) (x : Core) (j : Nat) : (s.setCore k x).grid j = s.grid j := rfl
@[simp] theorem State.setCore_job (s : State) (k : Nat) (x : Core) (j : Nat) : (s.setCore k x).job j = s.job j := rfl
@[simp] theorem State.setCore_node (s : State) (k : Nat) (x : Core) (j : Nat) : (s.setCore k x).node j = s.node j := rfl
@[simp] theorem State.setCore_graph (s : State) (k : Nat) (x : Core) (j : Nat) : (s.setCore k x).graph j = s.graph j := rfl
@[simp] theorem State.setCore_cluster (s : State) (k : Nat) (x : Core) (j : Nat) : (s.setCore k x).cluster j = s.cluster j := rfl
@[simp] theorem State.setCore_link (s : State) (k : Nat) (x : Core) (j : Nat) : (s.setCore k x).link j = s.link j := rfl
@[simp] theorem State.setCore_part (s : State) (k : Nat) (x : Core) (j : Nat) : (s.setCore k x).part j = s.part j := rfl
@[simp] theorem State.setCore_sector (s : State) (k : Nat) (x : Core) (j : Nat) : (s.setCore k x).sector j = s.sector j := rfl
@[simp] theorem State.setCore_byte (s : State) (k : Nat) (x : Core) (j : Nat) : (s.setCore k x).byte j = s.byte j := rfl
@[simp] theorem State.setCore_timeOf (s : State) (k : Nat) (x : Core) (j : Nat) : (s.setCore k x).timeOf j = s.timeOf j := rfl

/-! ## `setJob` -/

@[simp] theorem State.setJob_mem (s : State) (k : Nat) (x : Job) : (s.setJob k x).mem = s.mem := rfl
@[simp] theorem State.setJob_bad (s : State) (k : Nat) (x : Job) : (s.setJob k x).bad = s.bad := rfl
@[simp] theorem State.setJob_groups (s : State) (k : Nat) (x : Job) : (s.setJob k x).groups = s.groups := rfl
@[simp] theorem State.setJob_teams (s : State) (k : Nat) (x : Job) : (s.setJob k x).teams = s.teams := rfl
@[simp] theorem State.setJob_grids (s : State) (k : Nat) (x : Job) : (s.setJob k x).grids = s.grids := rfl
@[simp] theorem State.setJob_graphs (s : State) (k : Nat) (x : Job) : (s.setJob k x).graphs = s.graphs := rfl
@[simp] theorem State.setJob_nodes (s : State) (k : Nat) (x : Job) : (s.setJob k x).nodes = s.nodes := rfl
@[simp] theorem State.setJob_parts (s : State) (k : Nat) (x : Job) : (s.setJob k x).parts = s.parts := rfl
@[simp] theorem State.setJob_cores (s : State) (k : Nat) (x : Job) : (s.setJob k x).cores = s.cores := rfl
@[simp] theorem State.setJob_clusters (s : State) (k : Nat) (x : Job) : (s.setJob k x).clusters = s.clusters := rfl
@[simp] theorem State.setJob_links (s : State) (k : Nat) (x : Job) : (s.setJob k x).links = s.links := rfl
@[simp] theorem State.setJob_sectors (s : State) (k : Nat) (x : Job) : (s.setJob k x).sectors = s.sectors := rfl
@[simp] theorem State.setJob_counters (s : State) (k : Nat) (x : Job) : (s.setJob k x).counters = s.counters := rfl
@[simp] theorem State.setJob_held (s : State) (k : Nat) (x : Job) : (s.setJob k x).held = s.held := rfl
@[simp] theorem State.setJob_past (s : State) (k : Nat) (x : Job) : (s.setJob k x).past = s.past := rfl
@[simp] theorem State.setJob_afences (s : State) (k : Nat) (x : Job) : (s.setJob k x).afences = s.afences := rfl
@[simp] theorem State.setJob_areas (s : State) (k : Nat) (x : Job) : (s.setJob k x).areas = s.areas := rfl
@[simp] theorem State.setJob_portsDown (s : State) (k : Nat) (x : Job) : (s.setJob k x).portsDown = s.portsDown := rfl
@[simp] theorem State.setJob_sent (s : State) (k : Nat) (x : Job) : (s.setJob k x).sent = s.sent := rfl
@[simp] theorem State.setJob_time (s : State) (k : Nat) (x : Job) : (s.setJob k x).time = s.time := rfl
@[simp] theorem State.setJob_power (s : State) (k : Nat) (x : Job) : (s.setJob k x).power = s.power := rfl
@[simp] theorem State.setJob_boot (s : State) (k : Nat) (x : Job) : (s.setJob k x).boot = s.boot := rfl
@[simp] theorem State.setJob_card (s : State) (k : Nat) (x : Job) : (s.setJob k x).card = s.card := rfl
@[simp] theorem State.setJob_nextTeam (s : State) (k : Nat) (x : Job) : (s.setJob k x).nextTeam = s.nextTeam := rfl
@[simp] theorem State.setJob_nextJob (s : State) (k : Nat) (x : Job) : (s.setJob k x).nextJob = s.nextJob := rfl
@[simp] theorem State.setJob_nextOrder (s : State) (k : Nat) (x : Job) : (s.setJob k x).nextOrder = s.nextOrder := rfl
@[simp] theorem State.setJob_focus (s : State) (k : Nat) (x : Job) : (s.setJob k x).focus = s.focus := rfl
@[simp] theorem State.setJob_word (s : State) (k : Nat) (x : Job) : (s.setJob k x).word = s.word := rfl
@[simp] theorem State.setJob_schedule (s : State) (k : Nat) (x : Job) : (s.setJob k x).schedule = s.schedule := rfl
@[simp] theorem State.setJob_tick (s : State) (k : Nat) (x : Job) : (s.setJob k x).tick = s.tick := rfl
@[simp] theorem State.setJob_choices (s : State) (k : Nat) (x : Job) : (s.setJob k x).choices = s.choices := rfl

theorem State.setJob_job (s : State) (k : Nat) (x : Job) (j : Nat) : (s.setJob k x).job j = if j = k then x else s.job j :=
  kget_kset _ _ _ _ _
@[simp] theorem State.setJob_job_same (s : State) (k : Nat) (x : Job) : (s.setJob k x).job k = x := kget_kset_same _ _ _ _
theorem State.setJob_job_ne (s : State) (x : Job) {k j : Nat} (h : j ≠ k) : (s.setJob k x).job j = s.job j := kget_kset_ne _ _ _ h

@[simp] theorem State.setJob_grp (s : State) (k : Nat) (x : Job) (j : Nat) : (s.setJob k x).grp j = s.grp j := rfl
@[simp] theorem State.setJob_team (s : State) (k : Nat) (x : Job) (j : Nat) : (s.setJob k x).team j = s.team j := rfl
@[simp] theorem State.setJob_grid (s : State) (k : Nat) (x : Job) (j : Nat) : (s.setJob k x).grid j = s.grid j := rfl
@[simp] theorem State.setJob_core (s : State) (k : Nat) (x : Job) (j : Nat) : (s.setJob k x).core j = s.core j := rfl
@[simp] theorem State.setJob_node (s : State) (k : Nat) (x : Job) (j : Nat) : (s.setJob k x).node j = s.node j := rfl
@[simp] theorem State.setJob_graph (s : State) (k : Nat) (x : Job) (j : Nat) : (s.setJob k x).graph j = s.graph j := rfl
@[simp] theorem State.setJob_cluster (s : State) (k : Nat) (x : Job) (j : Nat) : (s.setJob k x).cluster j = s.cluster j := rfl
@[simp] theorem State.setJob_link (s : State) (k : Nat) (x : Job) (j : Nat) : (s.setJob k x).link j = s.link j := rfl
@[simp] theorem State.setJob_part (s : State) (k : Nat) (x : Job) (j : Nat) : (s.setJob k x).part j = s.part j := rfl
@[simp] theorem State.setJob_sector (s : State) (k : Nat) (x : Job) (j : Nat) : (s.setJob k x).sector j = s.sector j := rfl
@[simp] theorem State.setJob_byte (s : State) (k : Nat) (x : Job) (j : Nat) : (s.setJob k x).byte j = s.byte j := rfl
@[simp] theorem State.setJob_timeOf (s : State) (k : Nat) (x : Job) (j : Nat) : (s.setJob k x).timeOf j = s.timeOf j := rfl

/-! ## `setNode` -/

@[simp] theorem State.setNode_mem (s : State) (k : Nat) (x : Node) : (s.setNode k x).mem = s.mem := rfl
@[simp] theorem State.setNode_bad (s : State) (k : Nat) (x : Node) : (s.setNode k x).bad = s.bad := rfl
@[simp] theorem State.setNode_groups (s : State) (k : Nat) (x : Node) : (s.setNode k x).groups = s.groups := rfl
@[simp] theorem State.setNode_teams (s : State) (k : Nat) (x : Node) : (s.setNode k x).teams = s.teams := rfl
@[simp] theorem State.setNode_grids (s : State) (k : Nat) (x : Node) : (s.setNode k x).grids = s.grids := rfl
@[simp] theorem State.setNode_graphs (s : State) (k : Nat) (x : Node) : (s.setNode k x).graphs = s.graphs := rfl
@[simp] theorem State.setNode_jobs (s : State) (k : Nat) (x : Node) : (s.setNode k x).jobs = s.jobs := rfl
@[simp] theorem State.setNode_parts (s : State) (k : Nat) (x : Node) : (s.setNode k x).parts = s.parts := rfl
@[simp] theorem State.setNode_cores (s : State) (k : Nat) (x : Node) : (s.setNode k x).cores = s.cores := rfl
@[simp] theorem State.setNode_clusters (s : State) (k : Nat) (x : Node) : (s.setNode k x).clusters = s.clusters := rfl
@[simp] theorem State.setNode_links (s : State) (k : Nat) (x : Node) : (s.setNode k x).links = s.links := rfl
@[simp] theorem State.setNode_sectors (s : State) (k : Nat) (x : Node) : (s.setNode k x).sectors = s.sectors := rfl
@[simp] theorem State.setNode_counters (s : State) (k : Nat) (x : Node) : (s.setNode k x).counters = s.counters := rfl
@[simp] theorem State.setNode_held (s : State) (k : Nat) (x : Node) : (s.setNode k x).held = s.held := rfl
@[simp] theorem State.setNode_past (s : State) (k : Nat) (x : Node) : (s.setNode k x).past = s.past := rfl
@[simp] theorem State.setNode_afences (s : State) (k : Nat) (x : Node) : (s.setNode k x).afences = s.afences := rfl
@[simp] theorem State.setNode_areas (s : State) (k : Nat) (x : Node) : (s.setNode k x).areas = s.areas := rfl
@[simp] theorem State.setNode_portsDown (s : State) (k : Nat) (x : Node) : (s.setNode k x).portsDown = s.portsDown := rfl
@[simp] theorem State.setNode_sent (s : State) (k : Nat) (x : Node) : (s.setNode k x).sent = s.sent := rfl
@[simp] theorem State.setNode_time (s : State) (k : Nat) (x : Node) : (s.setNode k x).time = s.time := rfl
@[simp] theorem State.setNode_power (s : State) (k : Nat) (x : Node) : (s.setNode k x).power = s.power := rfl
@[simp] theorem State.setNode_boot (s : State) (k : Nat) (x : Node) : (s.setNode k x).boot = s.boot := rfl
@[simp] theorem State.setNode_card (s : State) (k : Nat) (x : Node) : (s.setNode k x).card = s.card := rfl
@[simp] theorem State.setNode_nextTeam (s : State) (k : Nat) (x : Node) : (s.setNode k x).nextTeam = s.nextTeam := rfl
@[simp] theorem State.setNode_nextJob (s : State) (k : Nat) (x : Node) : (s.setNode k x).nextJob = s.nextJob := rfl
@[simp] theorem State.setNode_nextOrder (s : State) (k : Nat) (x : Node) : (s.setNode k x).nextOrder = s.nextOrder := rfl
@[simp] theorem State.setNode_focus (s : State) (k : Nat) (x : Node) : (s.setNode k x).focus = s.focus := rfl
@[simp] theorem State.setNode_word (s : State) (k : Nat) (x : Node) : (s.setNode k x).word = s.word := rfl
@[simp] theorem State.setNode_schedule (s : State) (k : Nat) (x : Node) : (s.setNode k x).schedule = s.schedule := rfl
@[simp] theorem State.setNode_tick (s : State) (k : Nat) (x : Node) : (s.setNode k x).tick = s.tick := rfl
@[simp] theorem State.setNode_choices (s : State) (k : Nat) (x : Node) : (s.setNode k x).choices = s.choices := rfl

theorem State.setNode_node (s : State) (k : Nat) (x : Node) (j : Nat) : (s.setNode k x).node j = if j = k then x else s.node j :=
  kget_kset _ _ _ _ _
@[simp] theorem State.setNode_node_same (s : State) (k : Nat) (x : Node) : (s.setNode k x).node k = x := kget_kset_same _ _ _ _
theorem State.setNode_node_ne (s : State) (x : Node) {k j : Nat} (h : j ≠ k) : (s.setNode k x).node j = s.node j := kget_kset_ne _ _ _ h

@[simp] theorem State.setNode_grp (s : State) (k : Nat) (x : Node) (j : Nat) : (s.setNode k x).grp j = s.grp j := rfl
@[simp] theorem State.setNode_team (s : State) (k : Nat) (x : Node) (j : Nat) : (s.setNode k x).team j = s.team j := rfl
@[simp] theorem State.setNode_grid (s : State) (k : Nat) (x : Node) (j : Nat) : (s.setNode k x).grid j = s.grid j := rfl
@[simp] theorem State.setNode_core (s : State) (k : Nat) (x : Node) (j : Nat) : (s.setNode k x).core j = s.core j := rfl
@[simp] theorem State.setNode_job (s : State) (k : Nat) (x : Node) (j : Nat) : (s.setNode k x).job j = s.job j := rfl
@[simp] theorem State.setNode_graph (s : State) (k : Nat) (x : Node) (j : Nat) : (s.setNode k x).graph j = s.graph j := rfl
@[simp] theorem State.setNode_cluster (s : State) (k : Nat) (x : Node) (j : Nat) : (s.setNode k x).cluster j = s.cluster j := rfl
@[simp] theorem State.setNode_link (s : State) (k : Nat) (x : Node) (j : Nat) : (s.setNode k x).link j = s.link j := rfl
@[simp] theorem State.setNode_part (s : State) (k : Nat) (x : Node) (j : Nat) : (s.setNode k x).part j = s.part j := rfl
@[simp] theorem State.setNode_sector (s : State) (k : Nat) (x : Node) (j : Nat) : (s.setNode k x).sector j = s.sector j := rfl
@[simp] theorem State.setNode_byte (s : State) (k : Nat) (x : Node) (j : Nat) : (s.setNode k x).byte j = s.byte j := rfl
@[simp] theorem State.setNode_timeOf (s : State) (k : Nat) (x : Node) (j : Nat) : (s.setNode k x).timeOf j = s.timeOf j := rfl

/-! ## `setGraph` -/

@[simp] theorem State.setGraph_mem (s : State) (k : Nat) (x : Graph) : (s.setGraph k x).mem = s.mem := rfl
@[simp] theorem State.setGraph_bad (s : State) (k : Nat) (x : Graph) : (s.setGraph k x).bad = s.bad := rfl
@[simp] theorem State.setGraph_groups (s : State) (k : Nat) (x : Graph) : (s.setGraph k x).groups = s.groups := rfl
@[simp] theorem State.setGraph_teams (s : State) (k : Nat) (x : Graph) : (s.setGraph k x).teams = s.teams := rfl
@[simp] theorem State.setGraph_grids (s : State) (k : Nat) (x : Graph) : (s.setGraph k x).grids = s.grids := rfl
@[simp] theorem State.setGraph_nodes (s : State) (k : Nat) (x : Graph) : (s.setGraph k x).nodes = s.nodes := rfl
@[simp] theorem State.setGraph_jobs (s : State) (k : Nat) (x : Graph) : (s.setGraph k x).jobs = s.jobs := rfl
@[simp] theorem State.setGraph_parts (s : State) (k : Nat) (x : Graph) : (s.setGraph k x).parts = s.parts := rfl
@[simp] theorem State.setGraph_cores (s : State) (k : Nat) (x : Graph) : (s.setGraph k x).cores = s.cores := rfl
@[simp] theorem State.setGraph_clusters (s : State) (k : Nat) (x : Graph) : (s.setGraph k x).clusters = s.clusters := rfl
@[simp] theorem State.setGraph_links (s : State) (k : Nat) (x : Graph) : (s.setGraph k x).links = s.links := rfl
@[simp] theorem State.setGraph_sectors (s : State) (k : Nat) (x : Graph) : (s.setGraph k x).sectors = s.sectors := rfl
@[simp] theorem State.setGraph_counters (s : State) (k : Nat) (x : Graph) : (s.setGraph k x).counters = s.counters := rfl
@[simp] theorem State.setGraph_held (s : State) (k : Nat) (x : Graph) : (s.setGraph k x).held = s.held := rfl
@[simp] theorem State.setGraph_past (s : State) (k : Nat) (x : Graph) : (s.setGraph k x).past = s.past := rfl
@[simp] theorem State.setGraph_afences (s : State) (k : Nat) (x : Graph) : (s.setGraph k x).afences = s.afences := rfl
@[simp] theorem State.setGraph_areas (s : State) (k : Nat) (x : Graph) : (s.setGraph k x).areas = s.areas := rfl
@[simp] theorem State.setGraph_portsDown (s : State) (k : Nat) (x : Graph) : (s.setGraph k x).portsDown = s.portsDown := rfl
@[simp] theorem State.setGraph_sent (s : State) (k : Nat) (x : Graph) : (s.setGraph k x).sent = s.sent := rfl
@[simp] theorem State.setGraph_time (s : State) (k : Nat) (x : Graph) : (s.setGraph k x).time = s.time := rfl
@[simp] theorem State.setGraph_power (s : State) (k : Nat) (x : Graph) : (s.setGraph k x).power = s.power := rfl
@[simp] theorem State.setGraph_boot (s : State) (k : Nat) (x : Graph) : (s.setGraph k x).boot = s.boot := rfl
@[simp] theorem State.setGraph_card (s : State) (k : Nat) (x : Graph) : (s.setGraph k x).card = s.card := rfl
@[simp] theorem State.setGraph_nextTeam (s : State) (k : Nat) (x : Graph) : (s.setGraph k x).nextTeam = s.nextTeam := rfl
@[simp] theorem State.setGraph_nextJob (s : State) (k : Nat) (x : Graph) : (s.setGraph k x).nextJob = s.nextJob := rfl
@[simp] theorem State.setGraph_nextOrder (s : State) (k : Nat) (x : Graph) : (s.setGraph k x).nextOrder = s.nextOrder := rfl
@[simp] theorem State.setGraph_focus (s : State) (k : Nat) (x : Graph) : (s.setGraph k x).focus = s.focus := rfl
@[simp] theorem State.setGraph_word (s : State) (k : Nat) (x : Graph) : (s.setGraph k x).word = s.word := rfl
@[simp] theorem State.setGraph_schedule (s : State) (k : Nat) (x : Graph) : (s.setGraph k x).schedule = s.schedule := rfl
@[simp] theorem State.setGraph_tick (s : State) (k : Nat) (x : Graph) : (s.setGraph k x).tick = s.tick := rfl
@[simp] theorem State.setGraph_choices (s : State) (k : Nat) (x : Graph) : (s.setGraph k x).choices = s.choices := rfl

theorem State.setGraph_graph (s : State) (k : Nat) (x : Graph) (j : Nat) : (s.setGraph k x).graph j = if j = k then x else s.graph j :=
  kget_kset _ _ _ _ _
@[simp] theorem State.setGraph_graph_same (s : State) (k : Nat) (x : Graph) : (s.setGraph k x).graph k = x := kget_kset_same _ _ _ _
theorem State.setGraph_graph_ne (s : State) (x : Graph) {k j : Nat} (h : j ≠ k) : (s.setGraph k x).graph j = s.graph j := kget_kset_ne _ _ _ h

@[simp] theorem State.setGraph_grp (s : State) (k : Nat) (x : Graph) (j : Nat) : (s.setGraph k x).grp j = s.grp j := rfl
@[simp] theorem State.setGraph_team (s : State) (k : Nat) (x : Graph) (j : Nat) : (s.setGraph k x).team j = s.team j := rfl
@[simp] theorem State.setGraph_grid (s : State) (k : Nat) (x : Graph) (j : Nat) : (s.setGraph k x).grid j = s.grid j := rfl
@[simp] theorem State.setGraph_core (s : State) (k : Nat) (x : Graph) (j : Nat) : (s.setGraph k x).core j = s.core j := rfl
@[simp] theorem State.setGraph_job (s : State) (k : Nat) (x : Graph) (j : Nat) : (s.setGraph k x).job j = s.job j := rfl
@[simp] theorem State.setGraph_node (s : State) (k : Nat) (x : Graph) (j : Nat) : (s.setGraph k x).node j = s.node j := rfl
@[simp] theorem State.setGraph_cluster (s : State) (k : Nat) (x : Graph) (j : Nat) : (s.setGraph k x).cluster j = s.cluster j := rfl
@[simp] theorem State.setGraph_link (s : State) (k : Nat) (x : Graph) (j : Nat) : (s.setGraph k x).link j = s.link j := rfl
@[simp] theorem State.setGraph_part (s : State) (k : Nat) (x : Graph) (j : Nat) : (s.setGraph k x).part j = s.part j := rfl
@[simp] theorem State.setGraph_sector (s : State) (k : Nat) (x : Graph) (j : Nat) : (s.setGraph k x).sector j = s.sector j := rfl
@[simp] theorem State.setGraph_byte (s : State) (k : Nat) (x : Graph) (j : Nat) : (s.setGraph k x).byte j = s.byte j := rfl
@[simp] theorem State.setGraph_timeOf (s : State) (k : Nat) (x : Graph) (j : Nat) : (s.setGraph k x).timeOf j = s.timeOf j := rfl

/-! ## `setCluster` -/

@[simp] theorem State.setCluster_mem (s : State) (k : Nat) (x : Cluster) : (s.setCluster k x).mem = s.mem := rfl
@[simp] theorem State.setCluster_bad (s : State) (k : Nat) (x : Cluster) : (s.setCluster k x).bad = s.bad := rfl
@[simp] theorem State.setCluster_groups (s : State) (k : Nat) (x : Cluster) : (s.setCluster k x).groups = s.groups := rfl
@[simp] theorem State.setCluster_teams (s : State) (k : Nat) (x : Cluster) : (s.setCluster k x).teams = s.teams := rfl
@[simp] theorem State.setCluster_grids (s : State) (k : Nat) (x : Cluster) : (s.setCluster k x).grids = s.grids := rfl
@[simp] theorem State.setCluster_graphs (s : State) (k : Nat) (x : Cluster) : (s.setCluster k x).graphs = s.graphs := rfl
@[simp] theorem State.setCluster_nodes (s : State) (k : Nat) (x : Cluster) : (s.setCluster k x).nodes = s.nodes := rfl
@[simp] theorem State.setCluster_jobs (s : State) (k : Nat) (x : Cluster) : (s.setCluster k x).jobs = s.jobs := rfl
@[simp] theorem State.setCluster_parts (s : State) (k : Nat) (x : Cluster) : (s.setCluster k x).parts = s.parts := rfl
@[simp] theorem State.setCluster_cores (s : State) (k : Nat) (x : Cluster) : (s.setCluster k x).cores = s.cores := rfl
@[simp] theorem State.setCluster_links (s : State) (k : Nat) (x : Cluster) : (s.setCluster k x).links = s.links := rfl
@[simp] theorem State.setCluster_sectors (s : State) (k : Nat) (x : Cluster) : (s.setCluster k x).sectors = s.sectors := rfl
@[simp] theorem State.setCluster_counters (s : State) (k : Nat) (x : Cluster) : (s.setCluster k x).counters = s.counters := rfl
@[simp] theorem State.setCluster_held (s : State) (k : Nat) (x : Cluster) : (s.setCluster k x).held = s.held := rfl
@[simp] theorem State.setCluster_past (s : State) (k : Nat) (x : Cluster) : (s.setCluster k x).past = s.past := rfl
@[simp] theorem State.setCluster_afences (s : State) (k : Nat) (x : Cluster) : (s.setCluster k x).afences = s.afences := rfl
@[simp] theorem State.setCluster_areas (s : State) (k : Nat) (x : Cluster) : (s.setCluster k x).areas = s.areas := rfl
@[simp] theorem State.setCluster_portsDown (s : State) (k : Nat) (x : Cluster) : (s.setCluster k x).portsDown = s.portsDown := rfl
@[simp] theorem State.setCluster_sent (s : State) (k : Nat) (x : Cluster) : (s.setCluster k x).sent = s.sent := rfl
@[simp] theorem State.setCluster_time (s : State) (k : Nat) (x : Cluster) : (s.setCluster k x).time = s.time := rfl
@[simp] theorem State.setCluster_power (s : State) (k : Nat) (x : Cluster) : (s.setCluster k x).power = s.power := rfl
@[simp] theorem State.setCluster_boot (s : State) (k : Nat) (x : Cluster) : (s.setCluster k x).boot = s.boot := rfl
@[simp] theorem State.setCluster_card (s : State) (k : Nat) (x : Cluster) : (s.setCluster k x).card = s.card := rfl
@[simp] theorem State.setCluster_nextTeam (s : State) (k : Nat) (x : Cluster) : (s.setCluster k x).nextTeam = s.nextTeam := rfl
@[simp] theorem State.setCluster_nextJob (s : State) (k : Nat) (x : Cluster) : (s.setCluster k x).nextJob = s.nextJob := rfl
@[simp] theorem State.setCluster_nextOrder (s : State) (k : Nat) (x : Cluster) : (s.setCluster k x).nextOrder = s.nextOrder := rfl
@[simp] theorem State.setCluster_focus (s : State) (k : Nat) (x : Cluster) : (s.setCluster k x).focus = s.focus := rfl
@[simp] theorem State.setCluster_word (s : State) (k : Nat) (x : Cluster) : (s.setCluster k x).word = s.word := rfl
@[simp] theorem State.setCluster_schedule (s : State) (k : Nat) (x : Cluster) : (s.setCluster k x).schedule = s.schedule := rfl
@[simp] theorem State.setCluster_tick (s : State) (k : Nat) (x : Cluster) : (s.setCluster k x).tick = s.tick := rfl
@[simp] theorem State.setCluster_choices (s : State) (k : Nat) (x : Cluster) : (s.setCluster k x).choices = s.choices := rfl

theorem State.setCluster_cluster (s : State) (k : Nat) (x : Cluster) (j : Nat) : (s.setCluster k x).cluster j = if j = k then x else s.cluster j :=
  kget_kset _ _ _ _ _
@[simp] theorem State.setCluster_cluster_same (s : State) (k : Nat) (x : Cluster) : (s.setCluster k x).cluster k = x := kget_kset_same _ _ _ _
theorem State.setCluster_cluster_ne (s : State) (x : Cluster) {k j : Nat} (h : j ≠ k) : (s.setCluster k x).cluster j = s.cluster j := kget_kset_ne _ _ _ h

@[simp] theorem State.setCluster_grp (s : State) (k : Nat) (x : Cluster) (j : Nat) : (s.setCluster k x).grp j = s.grp j := rfl
@[simp] theorem State.setCluster_team (s : State) (k : Nat) (x : Cluster) (j : Nat) : (s.setCluster k x).team j = s.team j := rfl
@[simp] theorem State.setCluster_grid (s : State) (k : Nat) (x : Cluster) (j : Nat) : (s.setCluster k x).grid j = s.grid j := rfl
@[simp] theorem State.setCluster_core (s : State) (k : Nat) (x : Cluster) (j : Nat) : (s.setCluster k x).core j = s.core j := rfl
@[simp] theorem State.setCluster_job (s : State) (k : Nat) (x : Cluster) (j : Nat) : (s.setCluster k x).job j = s.job j := rfl
@[simp] theorem State.setCluster_node (s : State) (k : Nat) (x : Cluster) (j : Nat) : (s.setCluster k x).node j = s.node j := rfl
@[simp] theorem State.setCluster_graph (s : State) (k : Nat) (x : Cluster) (j : Nat) : (s.setCluster k x).graph j = s.graph j := rfl
@[simp] theorem State.setCluster_link (s : State) (k : Nat) (x : Cluster) (j : Nat) : (s.setCluster k x).link j = s.link j := rfl
@[simp] theorem State.setCluster_part (s : State) (k : Nat) (x : Cluster) (j : Nat) : (s.setCluster k x).part j = s.part j := rfl
@[simp] theorem State.setCluster_sector (s : State) (k : Nat) (x : Cluster) (j : Nat) : (s.setCluster k x).sector j = s.sector j := rfl
@[simp] theorem State.setCluster_byte (s : State) (k : Nat) (x : Cluster) (j : Nat) : (s.setCluster k x).byte j = s.byte j := rfl
@[simp] theorem State.setCluster_timeOf (s : State) (k : Nat) (x : Cluster) (j : Nat) : (s.setCluster k x).timeOf j = s.timeOf j := rfl

/-! ## `setLink` -/

@[simp] theorem State.setLink_mem (s : State) (k : Nat) (x : Link) : (s.setLink k x).mem = s.mem := rfl
@[simp] theorem State.setLink_bad (s : State) (k : Nat) (x : Link) : (s.setLink k x).bad = s.bad := rfl
@[simp] theorem State.setLink_groups (s : State) (k : Nat) (x : Link) : (s.setLink k x).groups = s.groups := rfl
@[simp] theorem State.setLink_teams (s : State) (k : Nat) (x : Link) : (s.setLink k x).teams = s.teams := rfl
@[simp] theorem State.setLink_grids (s : State) (k : Nat) (x : Link) : (s.setLink k x).grids = s.grids := rfl
@[simp] theorem State.setLink_graphs (s : State) (k : Nat) (x : Link) : (s.setLink k x).graphs = s.graphs := rfl
@[simp] theorem State.setLink_nodes (s : State) (k : Nat) (x : Link) : (s.setLink k x).nodes = s.nodes := rfl
@[simp] theorem State.setLink_jobs (s : State) (k : Nat) (x : Link) : (s.setLink k x).jobs = s.jobs := rfl
@[simp] theorem State.setLink_parts (s : State) (k : Nat) (x : Link) : (s.setLink k x).parts = s.parts := rfl
@[simp] theorem State.setLink_cores (s : State) (k : Nat) (x : Link) : (s.setLink k x).cores = s.cores := rfl
@[simp] theorem State.setLink_clusters (s : State) (k : Nat) (x : Link) : (s.setLink k x).clusters = s.clusters := rfl
@[simp] theorem State.setLink_sectors (s : State) (k : Nat) (x : Link) : (s.setLink k x).sectors = s.sectors := rfl
@[simp] theorem State.setLink_counters (s : State) (k : Nat) (x : Link) : (s.setLink k x).counters = s.counters := rfl
@[simp] theorem State.setLink_held (s : State) (k : Nat) (x : Link) : (s.setLink k x).held = s.held := rfl
@[simp] theorem State.setLink_past (s : State) (k : Nat) (x : Link) : (s.setLink k x).past = s.past := rfl
@[simp] theorem State.setLink_afences (s : State) (k : Nat) (x : Link) : (s.setLink k x).afences = s.afences := rfl
@[simp] theorem State.setLink_areas (s : State) (k : Nat) (x : Link) : (s.setLink k x).areas = s.areas := rfl
@[simp] theorem State.setLink_portsDown (s : State) (k : Nat) (x : Link) : (s.setLink k x).portsDown = s.portsDown := rfl
@[simp] theorem State.setLink_sent (s : State) (k : Nat) (x : Link) : (s.setLink k x).sent = s.sent := rfl
@[simp] theorem State.setLink_time (s : State) (k : Nat) (x : Link) : (s.setLink k x).time = s.time := rfl
@[simp] theorem State.setLink_power (s : State) (k : Nat) (x : Link) : (s.setLink k x).power = s.power := rfl
@[simp] theorem State.setLink_boot (s : State) (k : Nat) (x : Link) : (s.setLink k x).boot = s.boot := rfl
@[simp] theorem State.setLink_card (s : State) (k : Nat) (x : Link) : (s.setLink k x).card = s.card := rfl
@[simp] theorem State.setLink_nextTeam (s : State) (k : Nat) (x : Link) : (s.setLink k x).nextTeam = s.nextTeam := rfl
@[simp] theorem State.setLink_nextJob (s : State) (k : Nat) (x : Link) : (s.setLink k x).nextJob = s.nextJob := rfl
@[simp] theorem State.setLink_nextOrder (s : State) (k : Nat) (x : Link) : (s.setLink k x).nextOrder = s.nextOrder := rfl
@[simp] theorem State.setLink_focus (s : State) (k : Nat) (x : Link) : (s.setLink k x).focus = s.focus := rfl
@[simp] theorem State.setLink_word (s : State) (k : Nat) (x : Link) : (s.setLink k x).word = s.word := rfl
@[simp] theorem State.setLink_schedule (s : State) (k : Nat) (x : Link) : (s.setLink k x).schedule = s.schedule := rfl
@[simp] theorem State.setLink_tick (s : State) (k : Nat) (x : Link) : (s.setLink k x).tick = s.tick := rfl
@[simp] theorem State.setLink_choices (s : State) (k : Nat) (x : Link) : (s.setLink k x).choices = s.choices := rfl

theorem State.setLink_link (s : State) (k : Nat) (x : Link) (j : Nat) : (s.setLink k x).link j = if j = k then x else s.link j :=
  kget_kset _ _ _ _ _
@[simp] theorem State.setLink_link_same (s : State) (k : Nat) (x : Link) : (s.setLink k x).link k = x := kget_kset_same _ _ _ _
theorem State.setLink_link_ne (s : State) (x : Link) {k j : Nat} (h : j ≠ k) : (s.setLink k x).link j = s.link j := kget_kset_ne _ _ _ h

@[simp] theorem State.setLink_grp (s : State) (k : Nat) (x : Link) (j : Nat) : (s.setLink k x).grp j = s.grp j := rfl
@[simp] theorem State.setLink_team (s : State) (k : Nat) (x : Link) (j : Nat) : (s.setLink k x).team j = s.team j := rfl
@[simp] theorem State.setLink_grid (s : State) (k : Nat) (x : Link) (j : Nat) : (s.setLink k x).grid j = s.grid j := rfl
@[simp] theorem State.setLink_core (s : State) (k : Nat) (x : Link) (j : Nat) : (s.setLink k x).core j = s.core j := rfl
@[simp] theorem State.setLink_job (s : State) (k : Nat) (x : Link) (j : Nat) : (s.setLink k x).job j = s.job j := rfl
@[simp] theorem State.setLink_node (s : State) (k : Nat) (x : Link) (j : Nat) : (s.setLink k x).node j = s.node j := rfl
@[simp] theorem State.setLink_graph (s : State) (k : Nat) (x : Link) (j : Nat) : (s.setLink k x).graph j = s.graph j := rfl
@[simp] theorem State.setLink_cluster (s : State) (k : Nat) (x : Link) (j : Nat) : (s.setLink k x).cluster j = s.cluster j := rfl
@[simp] theorem State.setLink_part (s : State) (k : Nat) (x : Link) (j : Nat) : (s.setLink k x).part j = s.part j := rfl
@[simp] theorem State.setLink_sector (s : State) (k : Nat) (x : Link) (j : Nat) : (s.setLink k x).sector j = s.sector j := rfl
@[simp] theorem State.setLink_byte (s : State) (k : Nat) (x : Link) (j : Nat) : (s.setLink k x).byte j = s.byte j := rfl
@[simp] theorem State.setLink_timeOf (s : State) (k : Nat) (x : Link) (j : Nat) : (s.setLink k x).timeOf j = s.timeOf j := rfl

/-! ## `setPart` -/

@[simp] theorem State.setPart_mem (s : State) (k : Nat) (x : Partition) : (s.setPart k x).mem = s.mem := rfl
@[simp] theorem State.setPart_bad (s : State) (k : Nat) (x : Partition) : (s.setPart k x).bad = s.bad := rfl
@[simp] theorem State.setPart_groups (s : State) (k : Nat) (x : Partition) : (s.setPart k x).groups = s.groups := rfl
@[simp] theorem State.setPart_teams (s : State) (k : Nat) (x : Partition) : (s.setPart k x).teams = s.teams := rfl
@[simp] theorem State.setPart_grids (s : State) (k : Nat) (x : Partition) : (s.setPart k x).grids = s.grids := rfl
@[simp] theorem State.setPart_graphs (s : State) (k : Nat) (x : Partition) : (s.setPart k x).graphs = s.graphs := rfl
@[simp] theorem State.setPart_nodes (s : State) (k : Nat) (x : Partition) : (s.setPart k x).nodes = s.nodes := rfl
@[simp] theorem State.setPart_jobs (s : State) (k : Nat) (x : Partition) : (s.setPart k x).jobs = s.jobs := rfl
@[simp] theorem State.setPart_cores (s : State) (k : Nat) (x : Partition) : (s.setPart k x).cores = s.cores := rfl
@[simp] theorem State.setPart_clusters (s : State) (k : Nat) (x : Partition) : (s.setPart k x).clusters = s.clusters := rfl
@[simp] theorem State.setPart_links (s : State) (k : Nat) (x : Partition) : (s.setPart k x).links = s.links := rfl
@[simp] theorem State.setPart_sectors (s : State) (k : Nat) (x : Partition) : (s.setPart k x).sectors = s.sectors := rfl
@[simp] theorem State.setPart_counters (s : State) (k : Nat) (x : Partition) : (s.setPart k x).counters = s.counters := rfl
@[simp] theorem State.setPart_held (s : State) (k : Nat) (x : Partition) : (s.setPart k x).held = s.held := rfl
@[simp] theorem State.setPart_past (s : State) (k : Nat) (x : Partition) : (s.setPart k x).past = s.past := rfl
@[simp] theorem State.setPart_afences (s : State) (k : Nat) (x : Partition) : (s.setPart k x).afences = s.afences := rfl
@[simp] theorem State.setPart_areas (s : State) (k : Nat) (x : Partition) : (s.setPart k x).areas = s.areas := rfl
@[simp] theorem State.setPart_portsDown (s : State) (k : Nat) (x : Partition) : (s.setPart k x).portsDown = s.portsDown := rfl
@[simp] theorem State.setPart_sent (s : State) (k : Nat) (x : Partition) : (s.setPart k x).sent = s.sent := rfl
@[simp] theorem State.setPart_time (s : State) (k : Nat) (x : Partition) : (s.setPart k x).time = s.time := rfl
@[simp] theorem State.setPart_power (s : State) (k : Nat) (x : Partition) : (s.setPart k x).power = s.power := rfl
@[simp] theorem State.setPart_boot (s : State) (k : Nat) (x : Partition) : (s.setPart k x).boot = s.boot := rfl
@[simp] theorem State.setPart_card (s : State) (k : Nat) (x : Partition) : (s.setPart k x).card = s.card := rfl
@[simp] theorem State.setPart_nextTeam (s : State) (k : Nat) (x : Partition) : (s.setPart k x).nextTeam = s.nextTeam := rfl
@[simp] theorem State.setPart_nextJob (s : State) (k : Nat) (x : Partition) : (s.setPart k x).nextJob = s.nextJob := rfl
@[simp] theorem State.setPart_nextOrder (s : State) (k : Nat) (x : Partition) : (s.setPart k x).nextOrder = s.nextOrder := rfl
@[simp] theorem State.setPart_focus (s : State) (k : Nat) (x : Partition) : (s.setPart k x).focus = s.focus := rfl
@[simp] theorem State.setPart_word (s : State) (k : Nat) (x : Partition) : (s.setPart k x).word = s.word := rfl
@[simp] theorem State.setPart_schedule (s : State) (k : Nat) (x : Partition) : (s.setPart k x).schedule = s.schedule := rfl
@[simp] theorem State.setPart_tick (s : State) (k : Nat) (x : Partition) : (s.setPart k x).tick = s.tick := rfl
@[simp] theorem State.setPart_choices (s : State) (k : Nat) (x : Partition) : (s.setPart k x).choices = s.choices := rfl

theorem State.setPart_part (s : State) (k : Nat) (x : Partition) (j : Nat) : (s.setPart k x).part j = if j = k then x else s.part j :=
  kget_kset _ _ _ _ _
@[simp] theorem State.setPart_part_same (s : State) (k : Nat) (x : Partition) : (s.setPart k x).part k = x := kget_kset_same _ _ _ _
theorem State.setPart_part_ne (s : State) (x : Partition) {k j : Nat} (h : j ≠ k) : (s.setPart k x).part j = s.part j := kget_kset_ne _ _ _ h

@[simp] theorem State.setPart_grp (s : State) (k : Nat) (x : Partition) (j : Nat) : (s.setPart k x).grp j = s.grp j := rfl
@[simp] theorem State.setPart_team (s : State) (k : Nat) (x : Partition) (j : Nat) : (s.setPart k x).team j = s.team j := rfl
@[simp] theorem State.setPart_grid (s : State) (k : Nat) (x : Partition) (j : Nat) : (s.setPart k x).grid j = s.grid j := rfl
@[simp] theorem State.setPart_core (s : State) (k : Nat) (x : Partition) (j : Nat) : (s.setPart k x).core j = s.core j := rfl
@[simp] theorem State.setPart_job (s : State) (k : Nat) (x : Partition) (j : Nat) : (s.setPart k x).job j = s.job j := rfl
@[simp] theorem State.setPart_node (s : State) (k : Nat) (x : Partition) (j : Nat) : (s.setPart k x).node j = s.node j := rfl
@[simp] theorem State.setPart_graph (s : State) (k : Nat) (x : Partition) (j : Nat) : (s.setPart k x).graph j = s.graph j := rfl
@[simp] theorem State.setPart_cluster (s : State) (k : Nat) (x : Partition) (j : Nat) : (s.setPart k x).cluster j = s.cluster j := rfl
@[simp] theorem State.setPart_link (s : State) (k : Nat) (x : Partition) (j : Nat) : (s.setPart k x).link j = s.link j := rfl
@[simp] theorem State.setPart_sector (s : State) (k : Nat) (x : Partition) (j : Nat) : (s.setPart k x).sector j = s.sector j := rfl
@[simp] theorem State.setPart_byte (s : State) (k : Nat) (x : Partition) (j : Nat) : (s.setPart k x).byte j = s.byte j := rfl

/-! ## `setSector` -/

@[simp] theorem State.setSector_mem (s : State) (k : Nat) (x : Sector) : (s.setSector k x).mem = s.mem := rfl
@[simp] theorem State.setSector_bad (s : State) (k : Nat) (x : Sector) : (s.setSector k x).bad = s.bad := rfl
@[simp] theorem State.setSector_groups (s : State) (k : Nat) (x : Sector) : (s.setSector k x).groups = s.groups := rfl
@[simp] theorem State.setSector_teams (s : State) (k : Nat) (x : Sector) : (s.setSector k x).teams = s.teams := rfl
@[simp] theorem State.setSector_grids (s : State) (k : Nat) (x : Sector) : (s.setSector k x).grids = s.grids := rfl
@[simp] theorem State.setSector_graphs (s : State) (k : Nat) (x : Sector) : (s.setSector k x).graphs = s.graphs := rfl
@[simp] theorem State.setSector_nodes (s : State) (k : Nat) (x : Sector) : (s.setSector k x).nodes = s.nodes := rfl
@[simp] theorem State.setSector_jobs (s : State) (k : Nat) (x : Sector) : (s.setSector k x).jobs = s.jobs := rfl
@[simp] theorem State.setSector_parts (s : State) (k : Nat) (x : Sector) : (s.setSector k x).parts = s.parts := rfl
@[simp] theorem State.setSector_cores (s : State) (k : Nat) (x : Sector) : (s.setSector k x).cores = s.cores := rfl
@[simp] theorem State.setSector_clusters (s : State) (k : Nat) (x : Sector) : (s.setSector k x).clusters = s.clusters := rfl
@[simp] theorem State.setSector_links (s : State) (k : Nat) (x : Sector) : (s.setSector k x).links = s.links := rfl
@[simp] theorem State.setSector_counters (s : State) (k : Nat) (x : Sector) : (s.setSector k x).counters = s.counters := rfl
@[simp] theorem State.setSector_held (s : State) (k : Nat) (x : Sector) : (s.setSector k x).held = s.held := rfl
@[simp] theorem State.setSector_past (s : State) (k : Nat) (x : Sector) : (s.setSector k x).past = s.past := rfl
@[simp] theorem State.setSector_afences (s : State) (k : Nat) (x : Sector) : (s.setSector k x).afences = s.afences := rfl
@[simp] theorem State.setSector_areas (s : State) (k : Nat) (x : Sector) : (s.setSector k x).areas = s.areas := rfl
@[simp] theorem State.setSector_portsDown (s : State) (k : Nat) (x : Sector) : (s.setSector k x).portsDown = s.portsDown := rfl
@[simp] theorem State.setSector_sent (s : State) (k : Nat) (x : Sector) : (s.setSector k x).sent = s.sent := rfl
@[simp] theorem State.setSector_time (s : State) (k : Nat) (x : Sector) : (s.setSector k x).time = s.time := rfl
@[simp] theorem State.setSector_power (s : State) (k : Nat) (x : Sector) : (s.setSector k x).power = s.power := rfl
@[simp] theorem State.setSector_boot (s : State) (k : Nat) (x : Sector) : (s.setSector k x).boot = s.boot := rfl
@[simp] theorem State.setSector_card (s : State) (k : Nat) (x : Sector) : (s.setSector k x).card = s.card := rfl
@[simp] theorem State.setSector_nextTeam (s : State) (k : Nat) (x : Sector) : (s.setSector k x).nextTeam = s.nextTeam := rfl
@[simp] theorem State.setSector_nextJob (s : State) (k : Nat) (x : Sector) : (s.setSector k x).nextJob = s.nextJob := rfl
@[simp] theorem State.setSector_nextOrder (s : State) (k : Nat) (x : Sector) : (s.setSector k x).nextOrder = s.nextOrder := rfl
@[simp] theorem State.setSector_focus (s : State) (k : Nat) (x : Sector) : (s.setSector k x).focus = s.focus := rfl
@[simp] theorem State.setSector_word (s : State) (k : Nat) (x : Sector) : (s.setSector k x).word = s.word := rfl
@[simp] theorem State.setSector_schedule (s : State) (k : Nat) (x : Sector) : (s.setSector k x).schedule = s.schedule := rfl
@[simp] theorem State.setSector_tick (s : State) (k : Nat) (x : Sector) : (s.setSector k x).tick = s.tick := rfl
@[simp] theorem State.setSector_choices (s : State) (k : Nat) (x : Sector) : (s.setSector k x).choices = s.choices := rfl

theorem State.setSector_sector (s : State) (k : Nat) (x : Sector) (j : Nat) : (s.setSector k x).sector j = if j = k then x else s.sector j :=
  kget_kset _ _ _ _ _
@[simp] theorem State.setSector_sector_same (s : State) (k : Nat) (x : Sector) : (s.setSector k x).sector k = x := kget_kset_same _ _ _ _
theorem State.setSector_sector_ne (s : State) (x : Sector) {k j : Nat} (h : j ≠ k) : (s.setSector k x).sector j = s.sector j := kget_kset_ne _ _ _ h

@[simp] theorem State.setSector_grp (s : State) (k : Nat) (x : Sector) (j : Nat) : (s.setSector k x).grp j = s.grp j := rfl
@[simp] theorem State.setSector_team (s : State) (k : Nat) (x : Sector) (j : Nat) : (s.setSector k x).team j = s.team j := rfl
@[simp] theorem State.setSector_grid (s : State) (k : Nat) (x : Sector) (j : Nat) : (s.setSector k x).grid j = s.grid j := rfl
@[simp] theorem State.setSector_core (s : State) (k : Nat) (x : Sector) (j : Nat) : (s.setSector k x).core j = s.core j := rfl
@[simp] theorem State.setSector_job (s : State) (k : Nat) (x : Sector) (j : Nat) : (s.setSector k x).job j = s.job j := rfl
@[simp] theorem State.setSector_node (s : State) (k : Nat) (x : Sector) (j : Nat) : (s.setSector k x).node j = s.node j := rfl
@[simp] theorem State.setSector_graph (s : State) (k : Nat) (x : Sector) (j : Nat) : (s.setSector k x).graph j = s.graph j := rfl
@[simp] theorem State.setSector_cluster (s : State) (k : Nat) (x : Sector) (j : Nat) : (s.setSector k x).cluster j = s.cluster j := rfl
@[simp] theorem State.setSector_link (s : State) (k : Nat) (x : Sector) (j : Nat) : (s.setSector k x).link j = s.link j := rfl
@[simp] theorem State.setSector_part (s : State) (k : Nat) (x : Sector) (j : Nat) : (s.setSector k x).part j = s.part j := rfl
@[simp] theorem State.setSector_byte (s : State) (k : Nat) (x : Sector) (j : Nat) : (s.setSector k x).byte j = s.byte j := rfl
@[simp] theorem State.setSector_timeOf (s : State) (k : Nat) (x : Sector) (j : Nat) : (s.setSector k x).timeOf j = s.timeOf j := rfl

/-! ## `addCounter` and `setByte` -/

@[simp] theorem State.addCounter_mem (s : State) (c i n : Nat) : (s.addCounter c i n).mem = s.mem := rfl
@[simp] theorem State.addCounter_bad (s : State) (c i n : Nat) : (s.addCounter c i n).bad = s.bad := rfl
@[simp] theorem State.addCounter_groups (s : State) (c i n : Nat) : (s.addCounter c i n).groups = s.groups := rfl
@[simp] theorem State.addCounter_teams (s : State) (c i n : Nat) : (s.addCounter c i n).teams = s.teams := rfl
@[simp] theorem State.addCounter_grids (s : State) (c i n : Nat) : (s.addCounter c i n).grids = s.grids := rfl
@[simp] theorem State.addCounter_graphs (s : State) (c i n : Nat) : (s.addCounter c i n).graphs = s.graphs := rfl
@[simp] theorem State.addCounter_nodes (s : State) (c i n : Nat) : (s.addCounter c i n).nodes = s.nodes := rfl
@[simp] theorem State.addCounter_jobs (s : State) (c i n : Nat) : (s.addCounter c i n).jobs = s.jobs := rfl
@[simp] theorem State.addCounter_parts (s : State) (c i n : Nat) : (s.addCounter c i n).parts = s.parts := rfl
@[simp] theorem State.addCounter_cores (s : State) (c i n : Nat) : (s.addCounter c i n).cores = s.cores := rfl
@[simp] theorem State.addCounter_clusters (s : State) (c i n : Nat) : (s.addCounter c i n).clusters = s.clusters := rfl
@[simp] theorem State.addCounter_links (s : State) (c i n : Nat) : (s.addCounter c i n).links = s.links := rfl
@[simp] theorem State.addCounter_sectors (s : State) (c i n : Nat) : (s.addCounter c i n).sectors = s.sectors := rfl
@[simp] theorem State.addCounter_held (s : State) (c i n : Nat) : (s.addCounter c i n).held = s.held := rfl
@[simp] theorem State.addCounter_past (s : State) (c i n : Nat) : (s.addCounter c i n).past = s.past := rfl
@[simp] theorem State.addCounter_afences (s : State) (c i n : Nat) : (s.addCounter c i n).afences = s.afences := rfl
@[simp] theorem State.addCounter_areas (s : State) (c i n : Nat) : (s.addCounter c i n).areas = s.areas := rfl
@[simp] theorem State.addCounter_portsDown (s : State) (c i n : Nat) : (s.addCounter c i n).portsDown = s.portsDown := rfl
@[simp] theorem State.addCounter_sent (s : State) (c i n : Nat) : (s.addCounter c i n).sent = s.sent := rfl
@[simp] theorem State.addCounter_time (s : State) (c i n : Nat) : (s.addCounter c i n).time = s.time := rfl
@[simp] theorem State.addCounter_power (s : State) (c i n : Nat) : (s.addCounter c i n).power = s.power := rfl
@[simp] theorem State.addCounter_boot (s : State) (c i n : Nat) : (s.addCounter c i n).boot = s.boot := rfl
@[simp] theorem State.addCounter_card (s : State) (c i n : Nat) : (s.addCounter c i n).card = s.card := rfl
@[simp] theorem State.addCounter_nextTeam (s : State) (c i n : Nat) : (s.addCounter c i n).nextTeam = s.nextTeam := rfl
@[simp] theorem State.addCounter_nextJob (s : State) (c i n : Nat) : (s.addCounter c i n).nextJob = s.nextJob := rfl
@[simp] theorem State.addCounter_nextOrder (s : State) (c i n : Nat) : (s.addCounter c i n).nextOrder = s.nextOrder := rfl
@[simp] theorem State.addCounter_focus (s : State) (c i n : Nat) : (s.addCounter c i n).focus = s.focus := rfl
@[simp] theorem State.addCounter_word (s : State) (c i n : Nat) : (s.addCounter c i n).word = s.word := rfl
@[simp] theorem State.addCounter_schedule (s : State) (c i n : Nat) : (s.addCounter c i n).schedule = s.schedule := rfl
@[simp] theorem State.addCounter_tick (s : State) (c i n : Nat) : (s.addCounter c i n).tick = s.tick := rfl
@[simp] theorem State.addCounter_choices (s : State) (c i n : Nat) : (s.addCounter c i n).choices = s.choices := rfl
@[simp] theorem State.setByte_groups (s : State) (k : Nat) (b : Byte) : (s.setByte k b).groups = s.groups := rfl
@[simp] theorem State.setByte_teams (s : State) (k : Nat) (b : Byte) : (s.setByte k b).teams = s.teams := rfl
@[simp] theorem State.setByte_grids (s : State) (k : Nat) (b : Byte) : (s.setByte k b).grids = s.grids := rfl
@[simp] theorem State.setByte_graphs (s : State) (k : Nat) (b : Byte) : (s.setByte k b).graphs = s.graphs := rfl
@[simp] theorem State.setByte_nodes (s : State) (k : Nat) (b : Byte) : (s.setByte k b).nodes = s.nodes := rfl
@[simp] theorem State.setByte_jobs (s : State) (k : Nat) (b : Byte) : (s.setByte k b).jobs = s.jobs := rfl
@[simp] theorem State.setByte_parts (s : State) (k : Nat) (b : Byte) : (s.setByte k b).parts = s.parts := rfl
@[simp] theorem State.setByte_cores (s : State) (k : Nat) (b : Byte) : (s.setByte k b).cores = s.cores := rfl
@[simp] theorem State.setByte_clusters (s : State) (k : Nat) (b : Byte) : (s.setByte k b).clusters = s.clusters := rfl
@[simp] theorem State.setByte_links (s : State) (k : Nat) (b : Byte) : (s.setByte k b).links = s.links := rfl
@[simp] theorem State.setByte_sectors (s : State) (k : Nat) (b : Byte) : (s.setByte k b).sectors = s.sectors := rfl
@[simp] theorem State.setByte_counters (s : State) (k : Nat) (b : Byte) : (s.setByte k b).counters = s.counters := rfl
@[simp] theorem State.setByte_held (s : State) (k : Nat) (b : Byte) : (s.setByte k b).held = s.held := rfl
@[simp] theorem State.setByte_past (s : State) (k : Nat) (b : Byte) : (s.setByte k b).past = s.past := rfl
@[simp] theorem State.setByte_afences (s : State) (k : Nat) (b : Byte) : (s.setByte k b).afences = s.afences := rfl
@[simp] theorem State.setByte_areas (s : State) (k : Nat) (b : Byte) : (s.setByte k b).areas = s.areas := rfl
@[simp] theorem State.setByte_portsDown (s : State) (k : Nat) (b : Byte) : (s.setByte k b).portsDown = s.portsDown := rfl
@[simp] theorem State.setByte_sent (s : State) (k : Nat) (b : Byte) : (s.setByte k b).sent = s.sent := rfl
@[simp] theorem State.setByte_time (s : State) (k : Nat) (b : Byte) : (s.setByte k b).time = s.time := rfl
@[simp] theorem State.setByte_power (s : State) (k : Nat) (b : Byte) : (s.setByte k b).power = s.power := rfl
@[simp] theorem State.setByte_boot (s : State) (k : Nat) (b : Byte) : (s.setByte k b).boot = s.boot := rfl
@[simp] theorem State.setByte_card (s : State) (k : Nat) (b : Byte) : (s.setByte k b).card = s.card := rfl
@[simp] theorem State.setByte_nextTeam (s : State) (k : Nat) (b : Byte) : (s.setByte k b).nextTeam = s.nextTeam := rfl
@[simp] theorem State.setByte_nextJob (s : State) (k : Nat) (b : Byte) : (s.setByte k b).nextJob = s.nextJob := rfl
@[simp] theorem State.setByte_nextOrder (s : State) (k : Nat) (b : Byte) : (s.setByte k b).nextOrder = s.nextOrder := rfl
@[simp] theorem State.setByte_focus (s : State) (k : Nat) (b : Byte) : (s.setByte k b).focus = s.focus := rfl
@[simp] theorem State.setByte_word (s : State) (k : Nat) (b : Byte) : (s.setByte k b).word = s.word := rfl
@[simp] theorem State.setByte_schedule (s : State) (k : Nat) (b : Byte) : (s.setByte k b).schedule = s.schedule := rfl
@[simp] theorem State.setByte_tick (s : State) (k : Nat) (b : Byte) : (s.setByte k b).tick = s.tick := rfl
@[simp] theorem State.setByte_choices (s : State) (k : Nat) (b : Byte) : (s.setByte k b).choices = s.choices := rfl

theorem State.setByte_byte (s : State) (k : Nat) (b : Byte) (j : Nat) : (s.setByte k b).byte j = if j = k then b else s.byte j :=
  kget_kset _ _ _ _ _
theorem State.addCounter_counter (s : State) (c i n d j : Nat) :
    (s.addCounter c i n).counter d j
      = if counterKey d j = counterKey c i then s.counter c i + BitVec.ofNat 64 n else s.counter d j := kget_kset _ _ _ _ _
@[simp] theorem State.addCounter_byte (s : State) (c i n k : Nat) : (s.addCounter c i n).byte k = s.byte k := rfl

/-! ## The issuing group -/

@[simp] theorem State.setMe_focus (s : State) (g : Group) : (s.setMe g).focus = s.focus := rfl
@[simp] theorem State.setMe_me (s : State) (g : Group) : (s.setMe g).me = g := State.setGrp_grp_same _ _ _
theorem State.setMe_grp (s : State) (g : Group) (j : Nat) : (s.setMe g).grp j = if j = s.focus then g else s.grp j :=
  State.setGrp_grp _ _ _ _
theorem State.setMe_grp_ne (s : State) (g : Group) {j : Nat} (h : j ≠ s.focus) : (s.setMe g).grp j = s.grp j :=
  State.setGrp_grp_ne _ _ h
@[simp] theorem State.setMe_mem (s : State) (g : Group) : (s.setMe g).mem = s.mem := rfl
@[simp] theorem State.setMe_bad (s : State) (g : Group) : (s.setMe g).bad = s.bad := rfl
@[simp] theorem State.setMe_teams (s : State) (g : Group) : (s.setMe g).teams = s.teams := rfl
@[simp] theorem State.setMe_grids (s : State) (g : Group) : (s.setMe g).grids = s.grids := rfl
@[simp] theorem State.setMe_graphs (s : State) (g : Group) : (s.setMe g).graphs = s.graphs := rfl
@[simp] theorem State.setMe_nodes (s : State) (g : Group) : (s.setMe g).nodes = s.nodes := rfl
@[simp] theorem State.setMe_jobs (s : State) (g : Group) : (s.setMe g).jobs = s.jobs := rfl
@[simp] theorem State.setMe_parts (s : State) (g : Group) : (s.setMe g).parts = s.parts := rfl
@[simp] theorem State.setMe_cores (s : State) (g : Group) : (s.setMe g).cores = s.cores := rfl
@[simp] theorem State.setMe_clusters (s : State) (g : Group) : (s.setMe g).clusters = s.clusters := rfl
@[simp] theorem State.setMe_links (s : State) (g : Group) : (s.setMe g).links = s.links := rfl
@[simp] theorem State.setMe_sectors (s : State) (g : Group) : (s.setMe g).sectors = s.sectors := rfl
@[simp] theorem State.setMe_counters (s : State) (g : Group) : (s.setMe g).counters = s.counters := rfl
@[simp] theorem State.setMe_held (s : State) (g : Group) : (s.setMe g).held = s.held := rfl
@[simp] theorem State.setMe_past (s : State) (g : Group) : (s.setMe g).past = s.past := rfl
@[simp] theorem State.setMe_afences (s : State) (g : Group) : (s.setMe g).afences = s.afences := rfl
@[simp] theorem State.setMe_areas (s : State) (g : Group) : (s.setMe g).areas = s.areas := rfl
@[simp] theorem State.setMe_portsDown (s : State) (g : Group) : (s.setMe g).portsDown = s.portsDown := rfl
@[simp] theorem State.setMe_sent (s : State) (g : Group) : (s.setMe g).sent = s.sent := rfl
@[simp] theorem State.setMe_time (s : State) (g : Group) : (s.setMe g).time = s.time := rfl
@[simp] theorem State.setMe_power (s : State) (g : Group) : (s.setMe g).power = s.power := rfl
@[simp] theorem State.setMe_boot (s : State) (g : Group) : (s.setMe g).boot = s.boot := rfl
@[simp] theorem State.setMe_card (s : State) (g : Group) : (s.setMe g).card = s.card := rfl
@[simp] theorem State.setMe_nextTeam (s : State) (g : Group) : (s.setMe g).nextTeam = s.nextTeam := rfl
@[simp] theorem State.setMe_nextJob (s : State) (g : Group) : (s.setMe g).nextJob = s.nextJob := rfl
@[simp] theorem State.setMe_nextOrder (s : State) (g : Group) : (s.setMe g).nextOrder = s.nextOrder := rfl
@[simp] theorem State.setMe_word (s : State) (g : Group) : (s.setMe g).word = s.word := rfl
@[simp] theorem State.setMe_schedule (s : State) (g : Group) : (s.setMe g).schedule = s.schedule := rfl
@[simp] theorem State.setMe_tick (s : State) (g : Group) : (s.setMe g).tick = s.tick := rfl
@[simp] theorem State.setMe_choices (s : State) (g : Group) : (s.setMe g).choices = s.choices := rfl
@[simp] theorem State.setMe_team (s : State) (g : Group) (j : Nat) : (s.setMe g).team j = s.team j := rfl
@[simp] theorem State.setMe_grid (s : State) (g : Group) (j : Nat) : (s.setMe g).grid j = s.grid j := rfl
@[simp] theorem State.setMe_core (s : State) (g : Group) (j : Nat) : (s.setMe g).core j = s.core j := rfl
@[simp] theorem State.setMe_job (s : State) (g : Group) (j : Nat) : (s.setMe g).job j = s.job j := rfl
@[simp] theorem State.setMe_node (s : State) (g : Group) (j : Nat) : (s.setMe g).node j = s.node j := rfl
@[simp] theorem State.setMe_graph (s : State) (g : Group) (j : Nat) : (s.setMe g).graph j = s.graph j := rfl
@[simp] theorem State.setMe_cluster (s : State) (g : Group) (j : Nat) : (s.setMe g).cluster j = s.cluster j := rfl
@[simp] theorem State.setMe_link (s : State) (g : Group) (j : Nat) : (s.setMe g).link j = s.link j := rfl
@[simp] theorem State.setMe_part (s : State) (g : Group) (j : Nat) : (s.setMe g).part j = s.part j := rfl
@[simp] theorem State.setMe_sector (s : State) (g : Group) (j : Nat) : (s.setMe g).sector j = s.sector j := rfl
@[simp] theorem State.setTeam_me (s : State) (k : Nat) (x : Team) : (s.setTeam k x).me = s.me := rfl
@[simp] theorem State.setGrid_me (s : State) (k : Nat) (x : Grid) : (s.setGrid k x).me = s.me := rfl
@[simp] theorem State.setCore_me (s : State) (k : Nat) (x : Core) : (s.setCore k x).me = s.me := rfl
@[simp] theorem State.setJob_me (s : State) (k : Nat) (x : Job) : (s.setJob k x).me = s.me := rfl
@[simp] theorem State.setNode_me (s : State) (k : Nat) (x : Node) : (s.setNode k x).me = s.me := rfl
@[simp] theorem State.setGraph_me (s : State) (k : Nat) (x : Graph) : (s.setGraph k x).me = s.me := rfl
@[simp] theorem State.setCluster_me (s : State) (k : Nat) (x : Cluster) : (s.setCluster k x).me = s.me := rfl
@[simp] theorem State.setLink_me (s : State) (k : Nat) (x : Link) : (s.setLink k x).me = s.me := rfl
@[simp] theorem State.setPart_me (s : State) (k : Nat) (x : Partition) : (s.setPart k x).me = s.me := rfl
@[simp] theorem State.setSector_me (s : State) (k : Nat) (x : Sector) : (s.setSector k x).me = s.me := rfl

theorem State.setGrp_me (s : State) (k : Nat) (g : Group) : (s.setGrp k g).me = if s.focus = k then g else s.me :=
  State.setGrp_grp _ _ _ _

/-! ## Updates of a group -/

@[simp] theorem Group.vwrite_team (g : Group) (r l : Nat) (x : Word) : (g.vwrite r l x).team = g.team := rfl
@[simp] theorem Group.vwrite_index (g : Group) (r l : Nat) (x : Word) : (g.vwrite r l x).index = g.index := rfl
@[simp] theorem Group.vwrite_role (g : Group) (r l : Nat) (x : Word) : (g.vwrite r l x).role = g.role := rfl
@[simp] theorem Group.vwrite_gran (g : Group) (r l : Nat) (x : Word) : (g.vwrite r l x).gran = g.gran := rfl
@[simp] theorem Group.vwrite_granules (g : Group) (r l : Nat) (x : Word) : (g.vwrite r l x).granules = g.granules := rfl
@[simp] theorem Group.vwrite_core (g : Group) (r l : Nat) (x : Word) : (g.vwrite r l x).core = g.core := rfl
@[simp] theorem Group.vwrite_slot (g : Group) (r l : Nat) (x : Word) : (g.vwrite r l x).slot = g.slot := rfl
@[simp] theorem Group.vwrite_pvbase (g : Group) (r l : Nat) (x : Word) : (g.vwrite r l x).pvbase = g.pvbase := rfl
@[simp] theorem Group.vwrite_threads (g : Group) (r l : Nat) (x : Word) : (g.vwrite r l x).threads = g.threads := rfl
@[simp] theorem Group.vwrite_cur (g : Group) (r l : Nat) (x : Word) : (g.vwrite r l x).cur = g.cur := rfl
@[simp] theorem Group.vwrite_s (g : Group) (r l : Nat) (x : Word) : (g.vwrite r l x).s = g.s := rfl
@[simp] theorem Group.vwrite_flags (g : Group) (r l : Nat) (x : Word) : (g.vwrite r l x).flags = g.flags := rfl
@[simp] theorem Group.vwrite_flagen (g : Group) (r l : Nat) (x : Word) : (g.vwrite r l x).flagen = g.flagen := rfl
@[simp] theorem Group.vwrite_amax (g : Group) (r l : Nat) (x : Word) : (g.vwrite r l x).amax = g.amax := rfl
@[simp] theorem Group.vwrite_nancnt (g : Group) (r l : Nat) (x : Word) : (g.vwrite r l x).nancnt = g.nancnt := rfl
@[simp] theorem Group.vwrite_satcnt (g : Group) (r l : Nat) (x : Word) : (g.vwrite r l x).satcnt = g.satcnt := rfl
@[simp] theorem Group.vwrite_evpend (g : Group) (r l : Nat) (x : Word) : (g.vwrite r l x).evpend = g.evpend := rfl
@[simp] theorem Group.vwrite_evmask (g : Group) (r l : Nat) (x : Word) : (g.vwrite r l x).evmask = g.evmask := rfl
@[simp] theorem Group.vwrite_gang (g : Group) (r l : Nat) (x : Word) : (g.vwrite r l x).gang = g.gang := rfl
@[simp] theorem Group.vwrite_latch (g : Group) (r l : Nat) (x : Word) : (g.vwrite r l x).latch = g.latch := rfl
@[simp] theorem Group.vwrite_pending (g : Group) (r l : Nat) (x : Word) : (g.vwrite r l x).pending = g.pending := rfl
@[simp] theorem Group.vwrite_arrival (g : Group) (r l : Nat) (x : Word) : (g.vwrite r l x).arrival = g.arrival := rfl
@[simp] theorem Group.vwrite_replay (g : Group) (r l : Nat) (x : Word) : (g.vwrite r l x).replay = g.replay := rfl
@[simp] theorem Group.vwrite_raised (g : Group) (r l : Nat) (x : Word) : (g.vwrite r l x).raised = g.raised := rfl
@[simp] theorem Group.vwrite_divert (g : Group) (r l : Nat) (x : Word) : (g.vwrite r l x).divert = g.divert := rfl
@[simp] theorem Group.vwrite_waits (g : Group) (r l : Nat) (x : Word) : (g.vwrite r l x).waits = g.waits := rfl
@[simp] theorem Group.vwrite_fenceDev (g : Group) (r l : Nat) (x : Word) : (g.vwrite r l x).fenceDev = g.fenceDev := rfl
@[simp] theorem Group.vwrite_fenceSys (g : Group) (r l : Nat) (x : Word) : (g.vwrite r l x).fenceSys = g.fenceSys := rfl
@[simp] theorem Group.vwrite_placed (g : Group) (r l : Nat) (x : Word) : (g.vwrite r l x).placed = g.placed := rfl
@[simp] theorem Group.vwrite_areads (g : Group) (r l : Nat) (x : Word) : (g.vwrite r l x).areads = g.areads := rfl
@[simp] theorem Group.vwrite_reads (g : Group) (r l : Nat) (x : Word) : (g.vwrite r l x).reads = g.reads := rfl
@[simp] theorem Group.vwrite_status (g : Group) (r l : Nat) (x : Word) : (g.vwrite r l x).status = g.status := rfl
@[simp] theorem Group.swrite_team (g : Group) (n : Nat) (x : Word) : (g.swrite n x).team = g.team := rfl
@[simp] theorem Group.swrite_index (g : Group) (n : Nat) (x : Word) : (g.swrite n x).index = g.index := rfl
@[simp] theorem Group.swrite_role (g : Group) (n : Nat) (x : Word) : (g.swrite n x).role = g.role := rfl
@[simp] theorem Group.swrite_gran (g : Group) (n : Nat) (x : Word) : (g.swrite n x).gran = g.gran := rfl
@[simp] theorem Group.swrite_granules (g : Group) (n : Nat) (x : Word) : (g.swrite n x).granules = g.granules := rfl
@[simp] theorem Group.swrite_core (g : Group) (n : Nat) (x : Word) : (g.swrite n x).core = g.core := rfl
@[simp] theorem Group.swrite_slot (g : Group) (n : Nat) (x : Word) : (g.swrite n x).slot = g.slot := rfl
@[simp] theorem Group.swrite_pvbase (g : Group) (n : Nat) (x : Word) : (g.swrite n x).pvbase = g.pvbase := rfl
@[simp] theorem Group.swrite_threads (g : Group) (n : Nat) (x : Word) : (g.swrite n x).threads = g.threads := rfl
@[simp] theorem Group.swrite_cur (g : Group) (n : Nat) (x : Word) : (g.swrite n x).cur = g.cur := rfl
@[simp] theorem Group.swrite_v (g : Group) (n : Nat) (x : Word) : (g.swrite n x).v = g.v := rfl
@[simp] theorem Group.swrite_dead (g : Group) (n : Nat) (x : Word) : (g.swrite n x).dead = g.dead := rfl
@[simp] theorem Group.swrite_flags (g : Group) (n : Nat) (x : Word) : (g.swrite n x).flags = g.flags := rfl
@[simp] theorem Group.swrite_flagen (g : Group) (n : Nat) (x : Word) : (g.swrite n x).flagen = g.flagen := rfl
@[simp] theorem Group.swrite_amax (g : Group) (n : Nat) (x : Word) : (g.swrite n x).amax = g.amax := rfl
@[simp] theorem Group.swrite_nancnt (g : Group) (n : Nat) (x : Word) : (g.swrite n x).nancnt = g.nancnt := rfl
@[simp] theorem Group.swrite_satcnt (g : Group) (n : Nat) (x : Word) : (g.swrite n x).satcnt = g.satcnt := rfl
@[simp] theorem Group.swrite_evpend (g : Group) (n : Nat) (x : Word) : (g.swrite n x).evpend = g.evpend := rfl
@[simp] theorem Group.swrite_evmask (g : Group) (n : Nat) (x : Word) : (g.swrite n x).evmask = g.evmask := rfl
@[simp] theorem Group.swrite_gang (g : Group) (n : Nat) (x : Word) : (g.swrite n x).gang = g.gang := rfl
@[simp] theorem Group.swrite_latch (g : Group) (n : Nat) (x : Word) : (g.swrite n x).latch = g.latch := rfl
@[simp] theorem Group.swrite_pending (g : Group) (n : Nat) (x : Word) : (g.swrite n x).pending = g.pending := rfl
@[simp] theorem Group.swrite_arrival (g : Group) (n : Nat) (x : Word) : (g.swrite n x).arrival = g.arrival := rfl
@[simp] theorem Group.swrite_replay (g : Group) (n : Nat) (x : Word) : (g.swrite n x).replay = g.replay := rfl
@[simp] theorem Group.swrite_raised (g : Group) (n : Nat) (x : Word) : (g.swrite n x).raised = g.raised := rfl
@[simp] theorem Group.swrite_divert (g : Group) (n : Nat) (x : Word) : (g.swrite n x).divert = g.divert := rfl
@[simp] theorem Group.swrite_waits (g : Group) (n : Nat) (x : Word) : (g.swrite n x).waits = g.waits := rfl
@[simp] theorem Group.swrite_fenceDev (g : Group) (n : Nat) (x : Word) : (g.swrite n x).fenceDev = g.fenceDev := rfl
@[simp] theorem Group.swrite_fenceSys (g : Group) (n : Nat) (x : Word) : (g.swrite n x).fenceSys = g.fenceSys := rfl
@[simp] theorem Group.swrite_placed (g : Group) (n : Nat) (x : Word) : (g.swrite n x).placed = g.placed := rfl
@[simp] theorem Group.swrite_areads (g : Group) (n : Nat) (x : Word) : (g.swrite n x).areads = g.areads := rfl
@[simp] theorem Group.swrite_reads (g : Group) (n : Nat) (x : Word) : (g.swrite n x).reads = g.reads := rfl
@[simp] theorem Group.swrite_status (g : Group) (n : Nat) (x : Word) : (g.swrite n x).status = g.status := rfl
@[simp] theorem Group.orFlags_team (g : Group) (f : BitVec 32) : (g.orFlags f).team = g.team := rfl
@[simp] theorem Group.orFlags_index (g : Group) (f : BitVec 32) : (g.orFlags f).index = g.index := rfl
@[simp] theorem Group.orFlags_role (g : Group) (f : BitVec 32) : (g.orFlags f).role = g.role := rfl
@[simp] theorem Group.orFlags_gran (g : Group) (f : BitVec 32) : (g.orFlags f).gran = g.gran := rfl
@[simp] theorem Group.orFlags_granules (g : Group) (f : BitVec 32) : (g.orFlags f).granules = g.granules := rfl
@[simp] theorem Group.orFlags_core (g : Group) (f : BitVec 32) : (g.orFlags f).core = g.core := rfl
@[simp] theorem Group.orFlags_slot (g : Group) (f : BitVec 32) : (g.orFlags f).slot = g.slot := rfl
@[simp] theorem Group.orFlags_pvbase (g : Group) (f : BitVec 32) : (g.orFlags f).pvbase = g.pvbase := rfl
@[simp] theorem Group.orFlags_threads (g : Group) (f : BitVec 32) : (g.orFlags f).threads = g.threads := rfl
@[simp] theorem Group.orFlags_cur (g : Group) (f : BitVec 32) : (g.orFlags f).cur = g.cur := rfl
@[simp] theorem Group.orFlags_v (g : Group) (f : BitVec 32) : (g.orFlags f).v = g.v := rfl
@[simp] theorem Group.orFlags_dead (g : Group) (f : BitVec 32) : (g.orFlags f).dead = g.dead := rfl
@[simp] theorem Group.orFlags_s (g : Group) (f : BitVec 32) : (g.orFlags f).s = g.s := rfl
@[simp] theorem Group.orFlags_flagen (g : Group) (f : BitVec 32) : (g.orFlags f).flagen = g.flagen := rfl
@[simp] theorem Group.orFlags_amax (g : Group) (f : BitVec 32) : (g.orFlags f).amax = g.amax := rfl
@[simp] theorem Group.orFlags_nancnt (g : Group) (f : BitVec 32) : (g.orFlags f).nancnt = g.nancnt := rfl
@[simp] theorem Group.orFlags_satcnt (g : Group) (f : BitVec 32) : (g.orFlags f).satcnt = g.satcnt := rfl
@[simp] theorem Group.orFlags_evpend (g : Group) (f : BitVec 32) : (g.orFlags f).evpend = g.evpend := rfl
@[simp] theorem Group.orFlags_evmask (g : Group) (f : BitVec 32) : (g.orFlags f).evmask = g.evmask := rfl
@[simp] theorem Group.orFlags_gang (g : Group) (f : BitVec 32) : (g.orFlags f).gang = g.gang := rfl
@[simp] theorem Group.orFlags_latch (g : Group) (f : BitVec 32) : (g.orFlags f).latch = g.latch := rfl
@[simp] theorem Group.orFlags_pending (g : Group) (f : BitVec 32) : (g.orFlags f).pending = g.pending := rfl
@[simp] theorem Group.orFlags_arrival (g : Group) (f : BitVec 32) : (g.orFlags f).arrival = g.arrival := rfl
@[simp] theorem Group.orFlags_replay (g : Group) (f : BitVec 32) : (g.orFlags f).replay = g.replay := rfl
@[simp] theorem Group.orFlags_raised (g : Group) (f : BitVec 32) : (g.orFlags f).raised = g.raised := rfl
@[simp] theorem Group.orFlags_divert (g : Group) (f : BitVec 32) : (g.orFlags f).divert = g.divert := rfl
@[simp] theorem Group.orFlags_waits (g : Group) (f : BitVec 32) : (g.orFlags f).waits = g.waits := rfl
@[simp] theorem Group.orFlags_fenceDev (g : Group) (f : BitVec 32) : (g.orFlags f).fenceDev = g.fenceDev := rfl
@[simp] theorem Group.orFlags_fenceSys (g : Group) (f : BitVec 32) : (g.orFlags f).fenceSys = g.fenceSys := rfl
@[simp] theorem Group.orFlags_placed (g : Group) (f : BitVec 32) : (g.orFlags f).placed = g.placed := rfl
@[simp] theorem Group.orFlags_areads (g : Group) (f : BitVec 32) : (g.orFlags f).areads = g.areads := rfl
@[simp] theorem Group.orFlags_reads (g : Group) (f : BitVec 32) : (g.orFlags f).reads = g.reads := rfl
@[simp] theorem Group.orFlags_status (g : Group) (f : BitVec 32) : (g.orFlags f).status = g.status := rfl
@[simp] theorem Group.mapThr_team (g : Group) (f : Nat → Thread → Thread) : (g.mapThr f).team = g.team := rfl
@[simp] theorem Group.mapThr_index (g : Group) (f : Nat → Thread → Thread) : (g.mapThr f).index = g.index := rfl
@[simp] theorem Group.mapThr_role (g : Group) (f : Nat → Thread → Thread) : (g.mapThr f).role = g.role := rfl
@[simp] theorem Group.mapThr_gran (g : Group) (f : Nat → Thread → Thread) : (g.mapThr f).gran = g.gran := rfl
@[simp] theorem Group.mapThr_granules (g : Group) (f : Nat → Thread → Thread) : (g.mapThr f).granules = g.granules := rfl
@[simp] theorem Group.mapThr_core (g : Group) (f : Nat → Thread → Thread) : (g.mapThr f).core = g.core := rfl
@[simp] theorem Group.mapThr_slot (g : Group) (f : Nat → Thread → Thread) : (g.mapThr f).slot = g.slot := rfl
@[simp] theorem Group.mapThr_pvbase (g : Group) (f : Nat → Thread → Thread) : (g.mapThr f).pvbase = g.pvbase := rfl
@[simp] theorem Group.mapThr_cur (g : Group) (f : Nat → Thread → Thread) : (g.mapThr f).cur = g.cur := rfl
@[simp] theorem Group.mapThr_v (g : Group) (f : Nat → Thread → Thread) : (g.mapThr f).v = g.v := rfl
@[simp] theorem Group.mapThr_dead (g : Group) (f : Nat → Thread → Thread) : (g.mapThr f).dead = g.dead := rfl
@[simp] theorem Group.mapThr_s (g : Group) (f : Nat → Thread → Thread) : (g.mapThr f).s = g.s := rfl
@[simp] theorem Group.mapThr_flags (g : Group) (f : Nat → Thread → Thread) : (g.mapThr f).flags = g.flags := rfl
@[simp] theorem Group.mapThr_flagen (g : Group) (f : Nat → Thread → Thread) : (g.mapThr f).flagen = g.flagen := rfl
@[simp] theorem Group.mapThr_amax (g : Group) (f : Nat → Thread → Thread) : (g.mapThr f).amax = g.amax := rfl
@[simp] theorem Group.mapThr_nancnt (g : Group) (f : Nat → Thread → Thread) : (g.mapThr f).nancnt = g.nancnt := rfl
@[simp] theorem Group.mapThr_satcnt (g : Group) (f : Nat → Thread → Thread) : (g.mapThr f).satcnt = g.satcnt := rfl
@[simp] theorem Group.mapThr_evpend (g : Group) (f : Nat → Thread → Thread) : (g.mapThr f).evpend = g.evpend := rfl
@[simp] theorem Group.mapThr_evmask (g : Group) (f : Nat → Thread → Thread) : (g.mapThr f).evmask = g.evmask := rfl
@[simp] theorem Group.mapThr_gang (g : Group) (f : Nat → Thread → Thread) : (g.mapThr f).gang = g.gang := rfl
@[simp] theorem Group.mapThr_latch (g : Group) (f : Nat → Thread → Thread) : (g.mapThr f).latch = g.latch := rfl
@[simp] theorem Group.mapThr_pending (g : Group) (f : Nat → Thread → Thread) : (g.mapThr f).pending = g.pending := rfl
@[simp] theorem Group.mapThr_arrival (g : Group) (f : Nat → Thread → Thread) : (g.mapThr f).arrival = g.arrival := rfl
@[simp] theorem Group.mapThr_replay (g : Group) (f : Nat → Thread → Thread) : (g.mapThr f).replay = g.replay := rfl
@[simp] theorem Group.mapThr_raised (g : Group) (f : Nat → Thread → Thread) : (g.mapThr f).raised = g.raised := rfl
@[simp] theorem Group.mapThr_divert (g : Group) (f : Nat → Thread → Thread) : (g.mapThr f).divert = g.divert := rfl
@[simp] theorem Group.mapThr_waits (g : Group) (f : Nat → Thread → Thread) : (g.mapThr f).waits = g.waits := rfl
@[simp] theorem Group.mapThr_fenceDev (g : Group) (f : Nat → Thread → Thread) : (g.mapThr f).fenceDev = g.fenceDev := rfl
@[simp] theorem Group.mapThr_fenceSys (g : Group) (f : Nat → Thread → Thread) : (g.mapThr f).fenceSys = g.fenceSys := rfl
@[simp] theorem Group.mapThr_placed (g : Group) (f : Nat → Thread → Thread) : (g.mapThr f).placed = g.placed := rfl
@[simp] theorem Group.mapThr_areads (g : Group) (f : Nat → Thread → Thread) : (g.mapThr f).areads = g.areads := rfl
@[simp] theorem Group.mapThr_reads (g : Group) (f : Nat → Thread → Thread) : (g.mapThr f).reads = g.reads := rfl
@[simp] theorem Group.mapThr_status (g : Group) (f : Nat → Thread → Thread) : (g.mapThr f).status = g.status := rfl
@[simp] theorem Group.jump_team (g : Group) (ls : List Nat) (f : Nat → Word) : (g.jump ls f).team = g.team := rfl
@[simp] theorem Group.jump_index (g : Group) (ls : List Nat) (f : Nat → Word) : (g.jump ls f).index = g.index := rfl
@[simp] theorem Group.jump_role (g : Group) (ls : List Nat) (f : Nat → Word) : (g.jump ls f).role = g.role := rfl
@[simp] theorem Group.jump_gran (g : Group) (ls : List Nat) (f : Nat → Word) : (g.jump ls f).gran = g.gran := rfl
@[simp] theorem Group.jump_granules (g : Group) (ls : List Nat) (f : Nat → Word) : (g.jump ls f).granules = g.granules := rfl
@[simp] theorem Group.jump_core (g : Group) (ls : List Nat) (f : Nat → Word) : (g.jump ls f).core = g.core := rfl
@[simp] theorem Group.jump_slot (g : Group) (ls : List Nat) (f : Nat → Word) : (g.jump ls f).slot = g.slot := rfl
@[simp] theorem Group.jump_pvbase (g : Group) (ls : List Nat) (f : Nat → Word) : (g.jump ls f).pvbase = g.pvbase := rfl
@[simp] theorem Group.jump_cur (g : Group) (ls : List Nat) (f : Nat → Word) : (g.jump ls f).cur = g.cur := rfl
@[simp] theorem Group.jump_v (g : Group) (ls : List Nat) (f : Nat → Word) : (g.jump ls f).v = g.v := rfl
@[simp] theorem Group.jump_dead (g : Group) (ls : List Nat) (f : Nat → Word) : (g.jump ls f).dead = g.dead := rfl
@[simp] theorem Group.jump_s (g : Group) (ls : List Nat) (f : Nat → Word) : (g.jump ls f).s = g.s := rfl
@[simp] theorem Group.jump_flags (g : Group) (ls : List Nat) (f : Nat → Word) : (g.jump ls f).flags = g.flags := rfl
@[simp] theorem Group.jump_flagen (g : Group) (ls : List Nat) (f : Nat → Word) : (g.jump ls f).flagen = g.flagen := rfl
@[simp] theorem Group.jump_amax (g : Group) (ls : List Nat) (f : Nat → Word) : (g.jump ls f).amax = g.amax := rfl
@[simp] theorem Group.jump_nancnt (g : Group) (ls : List Nat) (f : Nat → Word) : (g.jump ls f).nancnt = g.nancnt := rfl
@[simp] theorem Group.jump_satcnt (g : Group) (ls : List Nat) (f : Nat → Word) : (g.jump ls f).satcnt = g.satcnt := rfl
@[simp] theorem Group.jump_evpend (g : Group) (ls : List Nat) (f : Nat → Word) : (g.jump ls f).evpend = g.evpend := rfl
@[simp] theorem Group.jump_evmask (g : Group) (ls : List Nat) (f : Nat → Word) : (g.jump ls f).evmask = g.evmask := rfl
@[simp] theorem Group.jump_gang (g : Group) (ls : List Nat) (f : Nat → Word) : (g.jump ls f).gang = g.gang := rfl
@[simp] theorem Group.jump_latch (g : Group) (ls : List Nat) (f : Nat → Word) : (g.jump ls f).latch = g.latch := rfl
@[simp] theorem Group.jump_pending (g : Group) (ls : List Nat) (f : Nat → Word) : (g.jump ls f).pending = g.pending := rfl
@[simp] theorem Group.jump_arrival (g : Group) (ls : List Nat) (f : Nat → Word) : (g.jump ls f).arrival = g.arrival := rfl
@[simp] theorem Group.jump_replay (g : Group) (ls : List Nat) (f : Nat → Word) : (g.jump ls f).replay = g.replay := rfl
@[simp] theorem Group.jump_raised (g : Group) (ls : List Nat) (f : Nat → Word) : (g.jump ls f).raised = g.raised := rfl
@[simp] theorem Group.jump_divert (g : Group) (ls : List Nat) (f : Nat → Word) : (g.jump ls f).divert = g.divert := rfl
@[simp] theorem Group.jump_waits (g : Group) (ls : List Nat) (f : Nat → Word) : (g.jump ls f).waits = g.waits := rfl
@[simp] theorem Group.jump_fenceDev (g : Group) (ls : List Nat) (f : Nat → Word) : (g.jump ls f).fenceDev = g.fenceDev := rfl
@[simp] theorem Group.jump_fenceSys (g : Group) (ls : List Nat) (f : Nat → Word) : (g.jump ls f).fenceSys = g.fenceSys := rfl
@[simp] theorem Group.jump_placed (g : Group) (ls : List Nat) (f : Nat → Word) : (g.jump ls f).placed = g.placed := rfl
@[simp] theorem Group.jump_areads (g : Group) (ls : List Nat) (f : Nat → Word) : (g.jump ls f).areads = g.areads := rfl
@[simp] theorem Group.jump_reads (g : Group) (ls : List Nat) (f : Nat → Word) : (g.jump ls f).reads = g.reads := rfl
@[simp] theorem Group.jump_status (g : Group) (ls : List Nat) (f : Nat → Word) : (g.jump ls f).status = g.status := rfl
@[simp] theorem Group.advance_team (g : Group) (ls : List Nat) : (g.advance ls).team = g.team := rfl
@[simp] theorem Group.advance_index (g : Group) (ls : List Nat) : (g.advance ls).index = g.index := rfl
@[simp] theorem Group.advance_role (g : Group) (ls : List Nat) : (g.advance ls).role = g.role := rfl
@[simp] theorem Group.advance_gran (g : Group) (ls : List Nat) : (g.advance ls).gran = g.gran := rfl
@[simp] theorem Group.advance_granules (g : Group) (ls : List Nat) : (g.advance ls).granules = g.granules := rfl
@[simp] theorem Group.advance_core (g : Group) (ls : List Nat) : (g.advance ls).core = g.core := rfl
@[simp] theorem Group.advance_slot (g : Group) (ls : List Nat) : (g.advance ls).slot = g.slot := rfl
@[simp] theorem Group.advance_pvbase (g : Group) (ls : List Nat) : (g.advance ls).pvbase = g.pvbase := rfl
@[simp] theorem Group.advance_cur (g : Group) (ls : List Nat) : (g.advance ls).cur = g.cur := rfl
@[simp] theorem Group.advance_v (g : Group) (ls : List Nat) : (g.advance ls).v = g.v := rfl
@[simp] theorem Group.advance_dead (g : Group) (ls : List Nat) : (g.advance ls).dead = g.dead := rfl
@[simp] theorem Group.advance_s (g : Group) (ls : List Nat) : (g.advance ls).s = g.s := rfl
@[simp] theorem Group.advance_flags (g : Group) (ls : List Nat) : (g.advance ls).flags = g.flags := rfl
@[simp] theorem Group.advance_flagen (g : Group) (ls : List Nat) : (g.advance ls).flagen = g.flagen := rfl
@[simp] theorem Group.advance_amax (g : Group) (ls : List Nat) : (g.advance ls).amax = g.amax := rfl
@[simp] theorem Group.advance_nancnt (g : Group) (ls : List Nat) : (g.advance ls).nancnt = g.nancnt := rfl
@[simp] theorem Group.advance_satcnt (g : Group) (ls : List Nat) : (g.advance ls).satcnt = g.satcnt := rfl
@[simp] theorem Group.advance_evpend (g : Group) (ls : List Nat) : (g.advance ls).evpend = g.evpend := rfl
@[simp] theorem Group.advance_evmask (g : Group) (ls : List Nat) : (g.advance ls).evmask = g.evmask := rfl
@[simp] theorem Group.advance_gang (g : Group) (ls : List Nat) : (g.advance ls).gang = g.gang := rfl
@[simp] theorem Group.advance_latch (g : Group) (ls : List Nat) : (g.advance ls).latch = g.latch := rfl
@[simp] theorem Group.advance_pending (g : Group) (ls : List Nat) : (g.advance ls).pending = g.pending := rfl
@[simp] theorem Group.advance_arrival (g : Group) (ls : List Nat) : (g.advance ls).arrival = g.arrival := rfl
@[simp] theorem Group.advance_replay (g : Group) (ls : List Nat) : (g.advance ls).replay = g.replay := rfl
@[simp] theorem Group.advance_raised (g : Group) (ls : List Nat) : (g.advance ls).raised = g.raised := rfl
@[simp] theorem Group.advance_divert (g : Group) (ls : List Nat) : (g.advance ls).divert = g.divert := rfl
@[simp] theorem Group.advance_waits (g : Group) (ls : List Nat) : (g.advance ls).waits = g.waits := rfl
@[simp] theorem Group.advance_fenceDev (g : Group) (ls : List Nat) : (g.advance ls).fenceDev = g.fenceDev := rfl
@[simp] theorem Group.advance_fenceSys (g : Group) (ls : List Nat) : (g.advance ls).fenceSys = g.fenceSys := rfl
@[simp] theorem Group.advance_placed (g : Group) (ls : List Nat) : (g.advance ls).placed = g.placed := rfl
@[simp] theorem Group.advance_areads (g : Group) (ls : List Nat) : (g.advance ls).areads = g.areads := rfl
@[simp] theorem Group.advance_reads (g : Group) (ls : List Nat) : (g.advance ls).reads = g.reads := rfl
@[simp] theorem Group.advance_status (g : Group) (ls : List Nat) : (g.advance ls).status = g.status := rfl
@[simp] theorem Group.arrive_team (g : Group) (ls : List Nat) : (g.arrive ls).team = g.team := rfl
@[simp] theorem Group.arrive_index (g : Group) (ls : List Nat) : (g.arrive ls).index = g.index := rfl
@[simp] theorem Group.arrive_role (g : Group) (ls : List Nat) : (g.arrive ls).role = g.role := rfl
@[simp] theorem Group.arrive_gran (g : Group) (ls : List Nat) : (g.arrive ls).gran = g.gran := rfl
@[simp] theorem Group.arrive_granules (g : Group) (ls : List Nat) : (g.arrive ls).granules = g.granules := rfl
@[simp] theorem Group.arrive_core (g : Group) (ls : List Nat) : (g.arrive ls).core = g.core := rfl
@[simp] theorem Group.arrive_slot (g : Group) (ls : List Nat) : (g.arrive ls).slot = g.slot := rfl
@[simp] theorem Group.arrive_pvbase (g : Group) (ls : List Nat) : (g.arrive ls).pvbase = g.pvbase := rfl
@[simp] theorem Group.arrive_cur (g : Group) (ls : List Nat) : (g.arrive ls).cur = g.cur := rfl
@[simp] theorem Group.arrive_v (g : Group) (ls : List Nat) : (g.arrive ls).v = g.v := rfl
@[simp] theorem Group.arrive_dead (g : Group) (ls : List Nat) : (g.arrive ls).dead = g.dead := rfl
@[simp] theorem Group.arrive_s (g : Group) (ls : List Nat) : (g.arrive ls).s = g.s := rfl
@[simp] theorem Group.arrive_flags (g : Group) (ls : List Nat) : (g.arrive ls).flags = g.flags := rfl
@[simp] theorem Group.arrive_flagen (g : Group) (ls : List Nat) : (g.arrive ls).flagen = g.flagen := rfl
@[simp] theorem Group.arrive_amax (g : Group) (ls : List Nat) : (g.arrive ls).amax = g.amax := rfl
@[simp] theorem Group.arrive_nancnt (g : Group) (ls : List Nat) : (g.arrive ls).nancnt = g.nancnt := rfl
@[simp] theorem Group.arrive_satcnt (g : Group) (ls : List Nat) : (g.arrive ls).satcnt = g.satcnt := rfl
@[simp] theorem Group.arrive_evpend (g : Group) (ls : List Nat) : (g.arrive ls).evpend = g.evpend := rfl
@[simp] theorem Group.arrive_evmask (g : Group) (ls : List Nat) : (g.arrive ls).evmask = g.evmask := rfl
@[simp] theorem Group.arrive_gang (g : Group) (ls : List Nat) : (g.arrive ls).gang = g.gang := rfl
@[simp] theorem Group.arrive_latch (g : Group) (ls : List Nat) : (g.arrive ls).latch = g.latch := rfl
@[simp] theorem Group.arrive_pending (g : Group) (ls : List Nat) : (g.arrive ls).pending = g.pending := rfl
@[simp] theorem Group.arrive_arrival (g : Group) (ls : List Nat) : (g.arrive ls).arrival = g.arrival := rfl
@[simp] theorem Group.arrive_replay (g : Group) (ls : List Nat) : (g.arrive ls).replay = g.replay := rfl
@[simp] theorem Group.arrive_raised (g : Group) (ls : List Nat) : (g.arrive ls).raised = g.raised := rfl
@[simp] theorem Group.arrive_divert (g : Group) (ls : List Nat) : (g.arrive ls).divert = g.divert := rfl
@[simp] theorem Group.arrive_waits (g : Group) (ls : List Nat) : (g.arrive ls).waits = g.waits := rfl
@[simp] theorem Group.arrive_fenceDev (g : Group) (ls : List Nat) : (g.arrive ls).fenceDev = g.fenceDev := rfl
@[simp] theorem Group.arrive_fenceSys (g : Group) (ls : List Nat) : (g.arrive ls).fenceSys = g.fenceSys := rfl
@[simp] theorem Group.arrive_placed (g : Group) (ls : List Nat) : (g.arrive ls).placed = g.placed := rfl
@[simp] theorem Group.arrive_areads (g : Group) (ls : List Nat) : (g.arrive ls).areads = g.areads := rfl
@[simp] theorem Group.arrive_reads (g : Group) (ls : List Nat) : (g.arrive ls).reads = g.reads := rfl
@[simp] theorem Group.arrive_status (g : Group) (ls : List Nat) : (g.arrive ls).status = g.status := rfl
@[simp] theorem Group.setStatus_team (g : Group) (ls : List Nat) (q : Fin 8) (b : Bool) : (g.setStatus ls q b).team = g.team := rfl
@[simp] theorem Group.setStatus_index (g : Group) (ls : List Nat) (q : Fin 8) (b : Bool) : (g.setStatus ls q b).index = g.index := rfl
@[simp] theorem Group.setStatus_role (g : Group) (ls : List Nat) (q : Fin 8) (b : Bool) : (g.setStatus ls q b).role = g.role := rfl
@[simp] theorem Group.setStatus_gran (g : Group) (ls : List Nat) (q : Fin 8) (b : Bool) : (g.setStatus ls q b).gran = g.gran := rfl
@[simp] theorem Group.setStatus_granules (g : Group) (ls : List Nat) (q : Fin 8) (b : Bool) : (g.setStatus ls q b).granules = g.granules := rfl
@[simp] theorem Group.setStatus_core (g : Group) (ls : List Nat) (q : Fin 8) (b : Bool) : (g.setStatus ls q b).core = g.core := rfl
@[simp] theorem Group.setStatus_slot (g : Group) (ls : List Nat) (q : Fin 8) (b : Bool) : (g.setStatus ls q b).slot = g.slot := rfl
@[simp] theorem Group.setStatus_pvbase (g : Group) (ls : List Nat) (q : Fin 8) (b : Bool) : (g.setStatus ls q b).pvbase = g.pvbase := rfl
@[simp] theorem Group.setStatus_cur (g : Group) (ls : List Nat) (q : Fin 8) (b : Bool) : (g.setStatus ls q b).cur = g.cur := rfl
@[simp] theorem Group.setStatus_v (g : Group) (ls : List Nat) (q : Fin 8) (b : Bool) : (g.setStatus ls q b).v = g.v := rfl
@[simp] theorem Group.setStatus_dead (g : Group) (ls : List Nat) (q : Fin 8) (b : Bool) : (g.setStatus ls q b).dead = g.dead := rfl
@[simp] theorem Group.setStatus_s (g : Group) (ls : List Nat) (q : Fin 8) (b : Bool) : (g.setStatus ls q b).s = g.s := rfl
@[simp] theorem Group.setStatus_flags (g : Group) (ls : List Nat) (q : Fin 8) (b : Bool) : (g.setStatus ls q b).flags = g.flags := rfl
@[simp] theorem Group.setStatus_flagen (g : Group) (ls : List Nat) (q : Fin 8) (b : Bool) : (g.setStatus ls q b).flagen = g.flagen := rfl
@[simp] theorem Group.setStatus_amax (g : Group) (ls : List Nat) (q : Fin 8) (b : Bool) : (g.setStatus ls q b).amax = g.amax := rfl
@[simp] theorem Group.setStatus_nancnt (g : Group) (ls : List Nat) (q : Fin 8) (b : Bool) : (g.setStatus ls q b).nancnt = g.nancnt := rfl
@[simp] theorem Group.setStatus_satcnt (g : Group) (ls : List Nat) (q : Fin 8) (b : Bool) : (g.setStatus ls q b).satcnt = g.satcnt := rfl
@[simp] theorem Group.setStatus_evpend (g : Group) (ls : List Nat) (q : Fin 8) (b : Bool) : (g.setStatus ls q b).evpend = g.evpend := rfl
@[simp] theorem Group.setStatus_evmask (g : Group) (ls : List Nat) (q : Fin 8) (b : Bool) : (g.setStatus ls q b).evmask = g.evmask := rfl
@[simp] theorem Group.setStatus_gang (g : Group) (ls : List Nat) (q : Fin 8) (b : Bool) : (g.setStatus ls q b).gang = g.gang := rfl
@[simp] theorem Group.setStatus_latch (g : Group) (ls : List Nat) (q : Fin 8) (b : Bool) : (g.setStatus ls q b).latch = g.latch := rfl
@[simp] theorem Group.setStatus_pending (g : Group) (ls : List Nat) (q : Fin 8) (b : Bool) : (g.setStatus ls q b).pending = g.pending := rfl
@[simp] theorem Group.setStatus_arrival (g : Group) (ls : List Nat) (q : Fin 8) (b : Bool) : (g.setStatus ls q b).arrival = g.arrival := rfl
@[simp] theorem Group.setStatus_replay (g : Group) (ls : List Nat) (q : Fin 8) (b : Bool) : (g.setStatus ls q b).replay = g.replay := rfl
@[simp] theorem Group.setStatus_raised (g : Group) (ls : List Nat) (q : Fin 8) (b : Bool) : (g.setStatus ls q b).raised = g.raised := rfl
@[simp] theorem Group.setStatus_divert (g : Group) (ls : List Nat) (q : Fin 8) (b : Bool) : (g.setStatus ls q b).divert = g.divert := rfl
@[simp] theorem Group.setStatus_waits (g : Group) (ls : List Nat) (q : Fin 8) (b : Bool) : (g.setStatus ls q b).waits = g.waits := rfl
@[simp] theorem Group.setStatus_fenceDev (g : Group) (ls : List Nat) (q : Fin 8) (b : Bool) : (g.setStatus ls q b).fenceDev = g.fenceDev := rfl
@[simp] theorem Group.setStatus_fenceSys (g : Group) (ls : List Nat) (q : Fin 8) (b : Bool) : (g.setStatus ls q b).fenceSys = g.fenceSys := rfl
@[simp] theorem Group.setStatus_placed (g : Group) (ls : List Nat) (q : Fin 8) (b : Bool) : (g.setStatus ls q b).placed = g.placed := rfl
@[simp] theorem Group.setStatus_areads (g : Group) (ls : List Nat) (q : Fin 8) (b : Bool) : (g.setStatus ls q b).areads = g.areads := rfl
@[simp] theorem Group.setStatus_reads (g : Group) (ls : List Nat) (q : Fin 8) (b : Bool) : (g.setStatus ls q b).reads = g.reads := rfl
@[simp] theorem Group.setStatus_status (g : Group) (ls : List Nat) (q : Fin 8) (b : Bool) : (g.setStatus ls q b).status = g.status := rfl

end Sys2Proof.Machine
end

