-- ==== Sys2Proof/Laws/Frame.lean ====
section
/-!
SUPPORT. What the shared operations of an instruction change: threads, registers, flags; and the whole effect of an
instruction that works on registers only.
-/
namespace Sys2Proof.Machine

/-! ## Threads -/

theorem Group.thr_mapThr (g : Group) (f : Nat → Thread → Thread) (l : Nat) :
    (g.mapThr f).thr l = if l < g.threads.length then f l (g.thr l) else Thread.none := by
  unfold Group.thr Group.mapThr
  simp only [List.getD_eq_getElem?_getD, List.getElem?_mapIdx]
  by_cases h : l < g.threads.length <;> simp [h]

theorem Group.thr_past (g : Group) {l : Nat} (h : ¬ l < g.threads.length) : g.thr l = Thread.none := by
  simp [Group.thr, List.getD_eq_getElem?_getD, List.getElem?_eq_none (Nat.le_of_not_lt h)]

theorem Group.inSubset_lt {g : Group} {l : Nat} (h : g.inSubset l = true) : l < g.threads.length := by
  by_cases hl : l < g.threads.length
  · exact hl
  · rw [Group.inSubset, Group.thr_past g hl] at h; simp [Thread.none, Thread.runs] at h

theorem Group.mem_subset {g : Group} {l : Nat} : l ∈ g.subset ↔ l < 32 ∧ g.inSubset l = true := by
  simp [Group.subset, lanes]

theorem Group.mem_active {g : Group} {gd : Guard} {l : Nat} :
    l ∈ g.active gd ↔ l < 32 ∧ g.inSubset l = true ∧ guardTrue gd (g.thr l) = true := by
  simp [Group.active, lanes]

theorem Group.active_lt {g : Group} {gd : Guard} {l : Nat} (h : l ∈ g.active gd) : l < 32 := (Group.mem_active.mp h).1

theorem Group.active_subset {g : Group} {gd : Guard} {l : Nat} (h : l ∈ g.active gd) : l ∈ g.subset := by
  rw [Group.mem_active] at h; rw [Group.mem_subset]; exact ⟨h.1, h.2.1⟩

/-- What R20 to R22 leave of a thread besides `PC`, `MEET`, exit and predicates. -/
def SameBut (a b : Thread) : Prop := a.pc = b.pc ∧ a.meet = b.meet ∧ a.exited = b.exited ∧ a.preds = b.preds

theorem Group.thr_arrive (g : Group) (ls : List Nat) (l : Nat) : SameBut ((g.arrive ls).thr l) (g.thr l) := by
  unfold Group.arrive
  rw [Group.thr_mapThr]
  split
  · split <;> exact ⟨rfl, rfl, rfl, rfl⟩
  · rename_i h; rw [Group.thr_past g h]; exact ⟨rfl, rfl, rfl, rfl⟩

theorem Group.thr_release (g : Group) (l : Nat) : SameBut (g.release.thr l) (g.thr l) := by
  unfold Group.release
  split
  · exact ⟨rfl, rfl, rfl, rfl⟩
  · show SameBut ((g.mapThr _).thr l) _
    rw [Group.thr_mapThr]
    split
    · split <;> exact ⟨rfl, rfl, rfl, rfl⟩
    · rename_i h; rw [Group.thr_past g h]; exact ⟨rfl, rfl, rfl, rfl⟩

/-- Reconvergence moves no thread: it changes only who is held and which subset is current. -/
theorem Group.thr_finish (g : Group) (ls : List Nat) (rot : Bool) (l : Nat) : SameBut ((g.finish ls rot).thr l) (g.thr l) := by
  have ha : SameBut ((g.arrive ls).closeHeld.thr l) (g.thr l) := Group.thr_arrive g ls l
  unfold Group.finish
  dsimp only
  split
  · have hr := Group.thr_release (g.arrive ls).closeHeld l
    exact ⟨hr.1.trans ha.1, hr.2.1.trans ha.2.1, hr.2.2.1.trans ha.2.2.1, hr.2.2.2.trans ha.2.2.2⟩
  · split <;> exact ha

theorem Group.thr_closeHeld (g : Group) (l : Nat) : g.closeHeld.thr l = g.thr l := rfl

theorem Group.thr_advance (g : Group) (ls : List Nat) (l : Nat) :
    (g.advance ls).thr l = if l < g.threads.length ∧ l ∈ ls then { g.thr l with pc := (g.thr l).pc + 8 } else g.thr l := by
  unfold Group.advance
  rw [Group.thr_mapThr]
  by_cases h : l < g.threads.length
  · simp [h]
  · simp [h, Group.thr_past g h]

/-- The frame of reconvergence: threads, the current subset and the outstanding results of threads that become held. -/
theorem Group.finish_frame (g : Group) (ls : List Nat) (rot : Bool) :
    g.finish ls rot = { g with threads := (g.finish ls rot).threads, cur := (g.finish ls rot).cur,
                               pending := (g.finish ls rot).pending } := by
  unfold Group.finish Group.release
  dsimp only
  split
  · split <;> rfl
  · split <;> rfl

theorem Group.next_frame (g : Group) :
    g.next = { g with threads := g.next.threads, cur := g.next.cur, pending := g.next.pending } := by
  unfold Group.next
  rw [Group.finish_frame]; rfl

/-- What reconvergence does to threads that an instruction has moved (01 R20 to R22). -/
theorem Group.finish_reaches (g m : Group) (rot : Bool) (hc : m.cur = g.cur)
    (hh : ∀ l, l < 32 → (m.thr l).held = (g.thr l).held) :
    Reaches g (m.finish g.subset rot) m.pending rot (fun l => (m.thr l).pc) (fun l => (m.thr l).meet)
      fun l => (m.thr l).exited :=
  ⟨m, hc, rfl, rfl, rfl, rfl, fun l hl => ⟨rfl, rfl, rfl, hh l hl⟩⟩

theorem Group.next_reaches (g : Group) :
    Reaches g g.next g.pending false (nextPc g) (fun l => (g.thr l).meet) fun l => (g.thr l).exited := by
  refine ⟨g.advance g.subset, rfl, rfl, rfl, rfl, rfl, fun l hl => ?_⟩
  have h : (g.advance g.subset).thr l = if g.inSubset l then { g.thr l with pc := (g.thr l).pc + 8 } else g.thr l := by
    rw [Group.thr_advance]
    by_cases hs : g.inSubset l = true
    · rw [if_pos ⟨Group.inSubset_lt hs, Group.mem_subset.mpr ⟨hl, hs⟩⟩, if_pos hs]
    · rw [if_neg (fun c => hs (Group.mem_subset.mp c.2).2), if_neg hs]
  rw [h]
  unfold nextPc
  split <;> exact ⟨rfl, rfl, rfl, rfl⟩

theorem Group.next_went (g : Group) : WentOn g g.next := by
  have h : ∀ l, l < 32 → SameBut (g.next.thr l) (if g.inSubset l then { g.thr l with pc := (g.thr l).pc + 8 } else g.thr l) := by
    intro l hl
    have hf := Group.thr_finish (g.advance g.subset) g.subset false l
    rw [Group.thr_advance] at hf
    unfold Group.next
    by_cases hs : g.inSubset l = true
    · simp only [hs, if_true]
      rwa [if_pos ⟨Group.inSubset_lt hs, Group.mem_subset.mpr ⟨hl, hs⟩⟩] at hf
    · rw [if_neg hs]
      rwa [if_neg (fun c => hs (Group.mem_subset.mp c.2).2)] at hf
  refine ⟨?_, ?_, ?_, Group.next_reaches g⟩
  · intro l hl; rw [(h l hl).1]; unfold nextPc; split <;> rfl
  · intro l hl; rw [(h l hl).2.1]; split <;> rfl
  · intro l hl; rw [(h l hl).2.2.1]; split <;> rfl

theorem Group.next_preds (g : Group) : PredsKept g g.next := by
  intro l hl
  have hf := Group.thr_finish (g.advance g.subset) g.subset false l
  rw [Group.thr_advance] at hf
  unfold Group.next
  rw [hf.2.2.2]; split <;> rfl

/-- The part of a group that reconvergence reads. -/
def Group.course (g : Group) : Group := { Group.absent with threads := g.threads, cur := g.cur, pending := g.pending }

theorem Group.finish_course (g : Group) (ls : List Nat) (rot : Bool) :
    g.finish ls rot = { g with threads := (g.course.finish ls rot).threads, cur := (g.course.finish ls rot).cur,
                               pending := (g.course.finish ls rot).pending } := by
  unfold Group.finish
  dsimp only
  rw [show (g.course.arrive ls).closeHeld.runPcs = (g.arrive ls).closeHeld.runPcs from rfl]
  by_cases c : (g.arrive ls).closeHeld.runPcs = []
  · rw [if_pos c, if_pos c]
    unfold Group.release
    rw [show (g.course.arrive ls).closeHeld.heldPcs = (g.arrive ls).closeHeld.heldPcs from rfl]
    cases lowest (g.arrive ls).closeHeld.heldPcs <;> rfl
  · rw [if_neg c, if_neg c]
    rw [show (ls.find? fun l => ((g.course.arrive ls).closeHeld.thr l).runs)
      = ls.find? fun l => ((g.arrive ls).closeHeld.thr l).runs from rfl]
    cases ls.find? fun l => ((g.arrive ls).closeHeld.thr l).runs
    · rfl
    · cases rot <;> rfl

theorem Group.next_course (g : Group) :
    g.next = { g with threads := g.course.next.threads, cur := g.course.next.cur, pending := g.course.next.pending } := by
  unfold Group.next
  rw [Group.finish_course]; rfl

/-- Where a group goes on depends on its threads, its current subset and its outstanding results alone. -/
theorem Group.next_congr {g h : Group} (ht : h.threads = g.threads) (hc : h.cur = g.cur) (hp : h.pending = g.pending) :
    h.next = { h with threads := g.next.threads, cur := g.next.cur, pending := g.next.pending } := by
  rw [Group.next_course h, Group.next_course g, show h.course = g.course by simp [Group.course, ht, hc, hp]]

end Sys2Proof.Machine
end

