-- ==== Sys2Proof/Laws/Registers.lean ====
section
/-!
SUPPORT. Registers of a group: reading after writing and after a last-use mark; and the whole effect of an instruction that
works on registers only.
-/
namespace Sys2Proof.Machine

/-! ## One register -/

theorem vKey_inj {r l r' l' : Nat} (h : l < 32) (h' : l' < 32) : vKey r l = vKey r' l' ↔ r = r' ∧ l = l' := by
  unfold vKey; omega

theorem Group.vwrite_vread (g : Group) {r l r' l' : Nat} (x : Word) (h : l < 32) (h' : l' < 32) :
    (g.vwrite r l x).vread r' l' = if r' = r ∧ l' = l then x else g.vread r' l' := by
  unfold Group.vread Group.vwrite
  simp only [kget_kset, vKey_inj h' h]
  by_cases c : r' = r ∧ l' = l <;> simp [c]

@[simp] theorem Group.vwrite_sread (g : Group) (r l : Nat) (x : Word) (n : Nat) : (g.vwrite r l x).sread n = g.sread n := rfl

theorem Group.swrite_sread (g : Group) (n m : Nat) (x : Word) : (g.swrite n x).sread m = if m = n then x else g.sread m :=
  kget_kset _ _ _ _ _

@[simp] theorem Group.swrite_vread (g : Group) (n : Nat) (x : Word) (r l : Nat) : (g.swrite n x).vread r l = g.vread r l := rfl

/-- A fold of lane writes changes registers only. -/
theorem Group.foldl_vwrite_frame (r : Nat) (f : Nat → Word) (act : List Nat) (g : Group) :
    act.foldl (fun g l => g.vwrite r l (f l)) g =
      { g with v := (act.foldl (fun g l => g.vwrite r l (f l)) g).v, dead := (act.foldl (fun g l => g.vwrite r l (f l)) g).dead } := by
  induction act generalizing g with
  | nil => rfl
  | cons a t ih => rw [List.foldl_cons, ih]; rfl

theorem Group.foldl_vwrite_vread (r : Nat) (f : Nat → Word) (act : List Nat) (g : Group) (ha : ∀ l ∈ act, l < 32) {r' l' : Nat}
    (h' : l' < 32) :
    (act.foldl (fun g l => g.vwrite r l (f l)) g).vread r' l' = if r' = r ∧ l' ∈ act then f l' else g.vread r' l' := by
  induction act generalizing g with
  | nil => simp
  | cons a t ih =>
    rw [List.foldl_cons, ih _ fun l hl => ha l (List.mem_cons_of_mem _ hl), Group.vwrite_vread g _ (ha a (by simp)) h']
    by_cases hr : r' = r <;> by_cases hl : l' = a <;> by_cases ht : l' ∈ t <;> simp_all

/-! ## A destination -/

theorem Group.wr_frame (g : Group) (d : Opd) (act : List Nat) (f : Nat → Word) :
    g.wr d act f = { g with v := (g.wr d act f).v, dead := (g.wr d act f).dead, s := (g.wr d act f).s } := by
  unfold Group.wr
  split
  · rw [Group.foldl_vwrite_frame]
  · cases act <;> rfl
  · rfl

theorem Group.wr_vread (g : Group) (d : Opd) (act : List Nat) (f : Nat → Word) (ha : ∀ l ∈ act, l < 32) (r : Fin 320) {l : Nat}
    (h : l < 32) : (g.wr d act f).vread r l = (one d act f (.v r) l).getD (g.vread r l) := by
  unfold Group.wr one
  split
  · rename_i n
    rw [Group.foldl_vwrite_vread _ _ _ _ ha h]
    by_cases c : r = n ∧ l ∈ act
    · rw [if_pos ⟨congrArg Fin.val c.1, c.2⟩, if_pos ⟨by rw [c.1], c.2⟩]; rfl
    · rw [if_neg fun x => c ⟨Fin.ext x.1, x.2⟩, if_neg fun x => c ⟨by simpa using x.1, x.2⟩]; rfl
  · cases act <;> simp
  · simp

theorem Group.wr_sread (g : Group) (d : Opd) (act : List Nat) (f : Nat → Word) (n : Fin 64) :
    (g.wr d act f).sread n = (one d act f (.s n) (act.headD 0)).getD (g.sread n) := by
  unfold Group.wr one
  split
  · rw [Group.foldl_vwrite_frame]; simp [Group.sread]
  · rename_i m
    cases act with
    | nil => simp
    | cons a t =>
      simp only [List.headD_cons, List.mem_cons, true_or, and_true, Group.swrite_sread]
      by_cases c : n = m
      · simp [c]
      · rw [if_neg fun x => c (Fin.ext x), if_neg fun x => c (by simpa using x)]; rfl
  · simp

/-! ## Last-use marks -/

theorem Group.mark_frame (g : Group) (act : List Nat) (a : Src) : g.mark act a = { g with dead := (g.mark act a).dead } := by
  unfold Group.mark
  split
  · split <;> rfl
  · rfl

theorem kget_markAll (r : Nat) (act : List Nat) (m : KMap Bool) (ha : ∀ l ∈ act, l < 32) {r' l' : Nat} (h' : l' < 32) :
    kget false (act.foldl (fun m l => kset false m (vKey r l) true) m) (vKey r' l')
      = ((decide (r' = r) && act.contains l') || kget false m (vKey r' l')) := by
  induction act generalizing m with
  | nil => simp
  | cons a t ih =>
    rw [List.foldl_cons, ih _ fun l hl => ha l (List.mem_cons_of_mem _ hl), kget_kset]
    simp only [vKey_inj h' (ha a (by simp))]
    by_cases hr : r' = r <;> by_cases hl : l' = a <;> simp [hr, hl]

theorem Group.mark_vread (g : Group) (act : List Nat) (a : Src) (ha : ∀ l ∈ act, l < 32) (r : Fin 320) {l : Nat} (h : l < 32) :
    (g.mark act a).vread r l = if dies [a] act r l then poison else g.vread r l := by
  obtain ⟨o, last, keep⟩ := a
  unfold Group.mark dies
  cases o with
  | v n =>
    cases last with
    | false => simp
    | true =>
      unfold Group.vread
      simp only [if_true, kget_markAll _ _ _ ha h]
      by_cases hr : n = r
      · subst hr; by_cases hl : l ∈ act <;> simp [hl]
      · have hr' : ¬ (r : Nat) = n := fun e => hr (Fin.ext e.symm)
        simp [hr, hr']
  | s n => simp
  | zero => simp

@[simp] theorem Group.mark_sread (g : Group) (act : List Nat) (a : Src) (n : Nat) : (g.mark act a).sread n = g.sread n := by
  rw [Group.mark_frame]; rfl

theorem ite_dies {α : Type} (c x y : Bool) (p q : α) :
    (if (c && y) = true then p else if (c && x) = true then p else q) = if (c && (x || y)) = true then p else q := by
  cases c <;> cases x <;> cases y <;> rfl

theorem Group.marks_frame (g : Group) (act : List Nat) (srcs : List Src) :
    g.marks act srcs = { g with dead := (g.marks act srcs).dead } := by
  unfold Group.marks
  induction srcs generalizing g with
  | nil => rfl
  | cons a t ih => rw [List.foldl_cons, ih, Group.mark_frame]

theorem Group.marks_vread (g : Group) (act : List Nat) (srcs : List Src) (ha : ∀ l ∈ act, l < 32) (r : Fin 320) {l : Nat}
    (h : l < 32) : (g.marks act srcs).vread r l = if dies srcs act r l then poison else g.vread r l := by
  unfold Group.marks
  induction srcs generalizing g with
  | nil => simp [dies]
  | cons a t ih =>
    rw [List.foldl_cons, ih, Group.mark_vread _ _ _ ha r h]
    simp only [dies, List.any_cons, List.any_nil, Bool.or_false]
    exact ite_dies _ _ _ _ _

@[simp] theorem Group.marks_sread (g : Group) (act : List Nat) (srcs : List Src) (n : Nat) :
    (g.marks act srcs).sread n = g.sread n := by rw [Group.marks_frame]; rfl

/-- Marks, then a destination: what every register reads. -/
theorem Group.marks_wr_regs (g : Group) (d : Opd) (srcs : List Src) (act : List Nat) (f : Nat → Word) (ha : ∀ l ∈ act, l < 32) :
    RegsBy g ((g.marks act srcs).wr d act f) (one d act f) srcs act where
  v r l h := by rw [Group.wr_vread _ _ _ _ ha r h, Group.marks_vread _ _ _ ha r h]
  s n := by rw [Group.wr_sread, Group.marks_sread]

/-! ## The aged group -/

theorem Group.land_frame (g : Group) (p : Pending) : g.land p = { g with v := (g.land p).v, dead := (g.land p).dead, s := (g.land p).s } := by
  unfold Group.land
  split <;> rfl

theorem Group.foldl_land_frame (ps : List Pending) (g : Group) :
    ps.foldl Group.land g = { g with v := (ps.foldl Group.land g).v, dead := (ps.foldl Group.land g).dead, s := (ps.foldl Group.land g).s } := by
  induction ps generalizing g with
  | nil => rfl
  | cons a t ih => rw [List.foldl_cons, ih, Group.land_frame]

/-- Completing outstanding writes changes registers and the list of those writes. -/
theorem Group.complete_frame (g : Group) (q : Pending → Bool) :
    g.complete q = { g with v := (g.complete q).v, dead := (g.complete q).dead, s := (g.complete q).s, pending := g.pending.filter fun p => !q p } := by
  unfold Group.complete
  rw [Group.foldl_land_frame]

theorem Group.closeWindows_frame (g : Group) :
    g.closeWindows = { g with v := g.closeWindows.v, dead := g.closeWindows.dead, s := g.closeWindows.s, pending := [] } := by
  have h := Group.complete_frame g fun _ => true
  rwa [show (g.pending.filter fun p => !(fun _ => true) p) = [] by simp] at h

theorem Group.age_frame (g : Group) :
    g.age = { g with v := g.age.v, dead := g.age.dead, s := g.age.s, pending := g.age.pending, waits := none,
                      reads := g.reads + 1 } := by
  unfold Group.age
  dsimp only
  rw [Group.complete_frame]

theorem Group.age_has (g : Group) (o : Opd) : g.age.has o = g.has o := by
  rw [Group.age_frame]; rfl

@[simp] theorem Group.age_role (g : Group) : g.age.role = g.role := by rw [Group.age_frame]
@[simp] theorem Group.age_threads (g : Group) : g.age.threads = g.threads := by rw [Group.age_frame]
@[simp] theorem Group.age_cur (g : Group) : g.age.cur = g.cur := by rw [Group.age_frame]

theorem State.act_lt {s : State} {gd : Guard} {l : Nat} (h : l ∈ s.act gd) : l < 32 := Group.active_lt h

/-! ## Issue -/

/-- What a ready instruction does is its own effect on the aged group. -/
theorem State.issue_ready {s : State} {role : Role → Bool} {ops : List Opd} (h : s.ReadyAs role ops) (k : State → State) :
    s.issue role ops k = k (s.setMe s.seen) := by
  unfold State.issue
  rw [if_pos h.ready.issue]
  have h1 : ops.all (s.setMe s.me.age).me.has = true := by
    rw [List.all_eq_true]
    intro o ho
    rw [State.setMe_me, Group.age_has]
    exact h.ready.regs o ho
  dsimp only
  rw [h1, State.setMe_me, Group.age_role, h.role]
  rfl

theorem State.Ready.any {s : State} {ops : List Opd} (h : s.Ready ops) : s.ReadyAs anyRole ops := ⟨h, rfl⟩

/-- Only the group changes. -/
theorem onlyGroup_setMe (s : State) (g h : Group) : OnlyGroup s ((s.setMe g).setMe h) := by
  refine ⟨rfl, fun k hk => ?_⟩
  rw [State.setMe_grp_ne _ _ (show k ≠ (s.setMe g).focus from hk), State.setMe_grp_ne _ _ hk]

/-- An instruction whose effect is on its own group: registers, `FLAGS`, and what `b` says. -/
theorem regStep_simple {s : State} {gd : Guard} {ops : List Opd} {body : List Nat → Group → Group} (h : s.Ready ops) {b : Group}
    {new : Opd → Nat → Option Word} {srcs : List Src} {fl : BitVec 32}
    (hb : GroupRest b (body (s.act gd) s.seen)) (ht : (body (s.act gd) s.seen).threads = s.seen.threads)
    (hc : (body (s.act gd) s.seen).cur = s.seen.cur) (hp : (body (s.act gd) s.seen).pending = s.seen.pending)
    (hq : b.pending = s.seen.pending) (hr : RegsBy s.seen (body (s.act gd) s.seen) new srcs (s.act gd))
    (hf : (body (s.act gd) s.seen).flags = s.seen.flags ||| fl) : RegEffect s (s.simple gd ops body) b new srcs (s.act gd) fl := by
  have e : s.simple gd ops body = (s.setMe s.seen).setMe (body (s.act gd) s.seen).next := by
    unfold State.simple
    rw [State.issue_ready h.any]
    simp only [State.setMe_me]
    rfl
  have hn := Group.next_congr ht hc hp
  rw [e]
  have hme : ((s.setMe s.seen).setMe (body (s.act gd) s.seen).next).me =
      { body (s.act gd) s.seen with threads := s.seen.next.threads, cur := s.seen.next.cur,
                                    pending := s.seen.next.pending } := by rw [State.setMe_me, hn]
  constructor
  · exact onlyGroup_setMe _ _ _
  · rw [hme]; unfold GroupRest at *; rw [hb]
  · rw [hme, hq]
    exact ⟨(Group.next_went s.seen).pc, (Group.next_went s.seen).meet, (Group.next_went s.seen).exited, Group.next_reaches s.seen⟩
  · rw [hme]; exact Group.next_preds s.seen
  · rw [hme]; exact ⟨hr.v, hr.s⟩
  · rw [hme]; exact hf

/-- The frame of a delivery. -/
theorem Group.deliver_effect (g : Group) (d : Opd) (srcs : List Src) (act : List Nat) (f : Nat → Word × BitVec 32)
    (ha : ∀ l ∈ act, l < 32) :
    GroupRest g (g.deliver d srcs act f) ∧ (g.deliver d srcs act f).threads = g.threads ∧ (g.deliver d srcs act f).cur = g.cur
      ∧ RegsBy g (g.deliver d srcs act f) (one d act fun l => (f l).1) srcs act
      ∧ (g.deliver d srcs act f).pending = g.pending ∧ (g.deliver d srcs act f).flags = g.flags ||| gather act fun l => (f l).2 := by
  have hr := Group.marks_wr_regs g d srcs act (fun l => (f l).1) ha
  unfold Group.deliver
  refine ⟨?_, ?_, ?_, ⟨hr.v, hr.s⟩, ?_, ?_⟩
  · unfold GroupRest; rw [Group.wr_frame, Group.marks_frame]; rfl
  all_goals rw [Group.wr_frame, Group.marks_frame]; rfl

/-- An instruction that delivers results to one destination. -/
theorem regStep_deliver {s : State} {gd : Guard} {ops : List Opd} {d : Opd} {srcs : List Src}
    {f : List Nat → Group → Nat → Word × BitVec 32} (h : s.Ready ops) :
    RegEffect s (s.simple gd ops fun act g => g.deliver d srcs act (f act g)) s.seen (one d (s.act gd) fun l => (f (s.act gd) s.seen l).1)
      srcs (s.act gd) (gather (s.act gd) fun l => (f (s.act gd) s.seen l).2) := by
  have e := Group.deliver_effect s.seen d srcs (s.act gd) (f (s.act gd) s.seen) fun l => State.act_lt
  exact regStep_simple h e.1 e.2.1 e.2.2.1 e.2.2.2.2.1 rfl e.2.2.2.1 e.2.2.2.2.2

/-- A lane-by-lane instruction: its whole effect. -/
theorem regStep_lanewise {i : Instr} {s : State} {gd : Guard} {d : Opd} {srcs : List Src} {f : List Word → Word × BitVec 32}
    (hi : exec i s = .next (s.lanewise gd d srcs f)) (h : s.Ready (d :: srcs.map Src.r)) :
    RegStep i s gd d srcs (fun l => (f (srcs.map fun a => s.seen.rd a.r l)).1)
      (gather (s.act gd) fun l => (f (srcs.map fun a => s.seen.rd a.r l)).2) := by
  refine ⟨s.lanewise gd d srcs f, hi, ?_⟩
  have e := regStep_deliver (s := s) (gd := gd) (ops := d :: srcs.map Src.r) (d := d) (srcs := srcs)
    (f := fun _ g l => f (srcs.map fun a => g.rd a.r l)) h
  exact e

end Sys2Proof.Machine
end

