-- ==== Sys2Proof/Laws/Elements.lean ====
section
/-!
SUPPORT. Sub-elements of a lane: reading one after writing one, and the lanes that an element-wise operation builds.
-/
namespace Sys2Proof.Machine

theorem elem_testBit (x : Word) (i w j : Nat) : (elem x i w).testBit j = (decide (j < w) && x.getLsbD (i * w + j)) := by
  unfold elem
  rw [Nat.testBit_mod_two_pow, Nat.testBit_div_two_pow, BitVec.testBit_toNat]
  congr 2; omega

theorem elem_lt (x : Word) (i w : Nat) : elem x i w < 2 ^ w := Nat.mod_lt _ (Nat.two_pow_pos w)

theorem mul_two_pow_testBit (y n j : Nat) : (y * 2 ^ n).testBit j = (decide (n ≤ j) && y.testBit (j - n)) := by
  rw [Nat.mul_comm, Nat.testBit_two_pow_mul]

/-- Reading sub-element `k` after writing sub-element `i`. -/
theorem elem_put (x : Word) {i k w : Nat} (y : Nat) (hi : (i + 1) * w ≤ 64) (hk : (k + 1) * w ≤ 64) :
    elem (put x i w y) k w = if k = i then y % 2 ^ w else elem x k w := by
  apply Nat.eq_of_testBit_eq
  intro j
  rw [elem_testBit]
  by_cases hj : j < w
  · have h64 : k * w + j < 64 := by have := Nat.succ_mul k w; simp only [Nat.succ_eq_add_one] at this; omega
    have hi' : i * w + w ≤ 64 := by have := Nat.succ_mul i w; simp only [Nat.succ_eq_add_one] at this; omega
    simp only [put, BitVec.getLsbD_or, BitVec.getLsbD_and, BitVec.getLsbD_not, BitVec.getLsbD_ofNat, mul_two_pow_testBit,
      Nat.testBit_two_pow_sub_one, Nat.testBit_mod_two_pow, hj, h64, decide_true, Bool.true_and]
    by_cases hki : k = i
    · subst hki
      have e : k * w + j - k * w = j := by omega
      simp [e, hj, Nat.testBit_mod_two_pow]
    · rw [if_neg hki, elem_testBit]
      have far : ¬ (i * w ≤ k * w + j ∧ k * w + j - i * w < w) := by
        intro c
        rcases Nat.lt_or_gt_of_ne hki with h | h
        · have : (k + 1) * w ≤ i * w := Nat.mul_le_mul_right w h
          rw [Nat.succ_mul] at this; omega
        · have : (i + 1) * w ≤ k * w := Nat.mul_le_mul_right w h
          rw [Nat.succ_mul] at this; omega
      by_cases h1 : i * w ≤ k * w + j
      · have h2 : ¬ (k * w + j - i * w < w) := fun h => far ⟨h1, h⟩
        simp [h1, h2, hj]
      · simp [h1, hj]
  · have hf : ∀ z, z < 2 ^ w → z.testBit j = false := fun z hz =>
      Nat.testBit_lt_two_pow (Nat.lt_of_lt_of_le hz (Nat.pow_le_pow_right (by omega) (by omega)))
    simp only [hj, decide_false, Bool.false_and]
    split
    · exact (hf _ (Nat.mod_lt _ (Nat.two_pow_pos w))).symm
    · exact (hf _ (elem_lt _ _ _)).symm

/-- The fold behind `elems`. -/
theorem elem_foldl_put {w : Nat} (f : Nat → Nat) (n : Nat) (hn : n * w ≤ 64) (x : Word) {k : Nat} (hk : (k + 1) * w ≤ 64) :
    elem ((List.range n).foldl (fun x i => put x i w (f i)) x) k w = if k < n then f k % 2 ^ w else elem x k w := by
  induction n with
  | zero => simp
  | succ n ih =>
    rw [List.range_succ, List.foldl_append, List.foldl_cons, List.foldl_nil, elem_put _ _ hn hk,
      ih (Nat.le_trans (Nat.mul_le_mul_right w (Nat.le_succ n)) hn)]
    by_cases h : k = n
    · subst h; simp
    · have : (k < n + 1) = (k < n) := by simp; omega
      simp [h, this]

theorem mul_le_of_lt_div {k w : Nat} (h : k < 64 / w) : (k + 1) * w ≤ 64 := by
  have := Nat.mul_le_mul_right w (show k + 1 ≤ 64 / w from h)
  exact Nat.le_trans this (Nat.div_mul_le_self 64 w)

theorem elem_elems0 (w : Nat) (f : Nat → Nat) {k : Nat} (hk : k < 64 / w) : elem (elems0 w f) k w = f k % 2 ^ w := by
  unfold elems0
  rw [elem_foldl_put f _ (Nat.div_mul_le_self 64 w) 0 (mul_le_of_lt_div hk), if_pos hk]

theorem elems_eq (w : Nat) (f : Nat → Nat × BitVec 32) :
    elems w f = (elems0 w fun k => (f k).1, orAll (64 / w) fun k => (f k).2) := by
  unfold elems elems0 orAll
  generalize (List.range (64 / w)) = l
  suffices h : ∀ (x : Word) (m : BitVec 32), l.foldl (fun acc i => (put acc.1 i w (f i).1, acc.2 ||| (f i).2)) (x, m)
      = (l.foldl (fun x i => put x i w (f i).1) x, l.foldl (fun m k => m ||| (f k).2) m) from h _ _
  induction l with
  | nil => intro x m; rfl
  | cons a t ih => intro x m; exact ih _ _

theorem elem_elems (w : Nat) (f : Nat → Nat × BitVec 32) {k : Nat} (hk : k < 64 / w) :
    elem (elems w f).1 k w = (f k).1 % 2 ^ w := by
  rw [elems_eq]; exact elem_elems0 w _ hk

theorem orAll_zero (n : Nat) : (orAll n fun _ => 0) = 0 := by
  unfold orAll
  generalize List.range n = l
  suffices h : ∀ m : BitVec 32, l.foldl (fun m _ => m ||| 0) m = m from h 0
  induction l with
  | nil => intro m; rfl
  | cons a t ih => intro m; rw [List.foldl_cons, ih]; simp

theorem elem_mod_two_pow {x : Word} {k w : Nat} : elem x k w % 2 ^ w = elem x k w := Nat.mod_eq_of_lt (elem_lt x k w)

/-- An element-wise instruction. -/
theorem elemStep_lanewise {i : Instr} {s : State} {gd : Guard} {d : Opd} {srcs : List Src} {f : List Word → Word × BitVec 32}
    (w : Nat) (e : Nat → Nat → Nat × BitVec 32) (hi : exec i s = .next (s.lanewise gd d srcs f))
    (he : ∀ l, f (srcs.map fun a => s.seen.rd a.r l) = elems w (e l)) (h : s.Ready (d :: srcs.map Src.r)) :
    ElemStep i s gd d srcs w e := by
  refine ⟨fun l => (f (srcs.map fun a => s.seen.rd a.r l)).1, ?_, ?_⟩
  · have r := regStep_lanewise hi h
    rwa [show (fun l => (f (srcs.map fun a => s.seen.rd a.r l)).2) = fun l => orAll (64 / w) fun k => (e l k).2 from
      funext fun l => by rw [he l, elems_eq]] at r
  · intro l _ k hk
    dsimp only
    rw [he l]
    exact elem_elems w _ hk

/-- The same without flags. -/
theorem elemStep0_lanewise {i : Instr} {s : State} {gd : Guard} {d : Opd} {srcs : List Src} {f : List Word → Word}
    (w : Nat) (e : Nat → Nat → Nat) (hi : exec i s = .next (s.lanewise0 gd d srcs f))
    (he : ∀ l, f (srcs.map fun a => s.seen.rd a.r l) = elems0 w (e l)) (h : s.Ready (d :: srcs.map Src.r)) :
    ElemStep0 i s gd d srcs w e := by
  refine elemStep_lanewise w _ hi (fun l => ?_) h
  rw [elems_eq]
  dsimp only
  rw [he l, orAll_zero]

/-! ## Immediates (09 R118, 11 R145) -/

theorem elem_immElems (w : IWidth) (imm : BitVec 22) {k : Nat} (hk : k < 64 / w.bits) :
    elem (immElems w imm) k w.bits = elem (immWord imm) 0 w.bits := by
  unfold immElems
  rw [elem_elems0 _ _ hk, elem_mod_two_pow]

theorem elem_immFloat (t : FType) (imm : BitVec 22) {k : Nat} (hk : k < 64 / t.fmt.width) :
    elem (immFloat t imm) k t.fmt.width = t.imm imm % 2 ^ t.fmt.width := by
  unfold immFloat
  rw [elem_elems0 _ _ hk]

/-- `elems` looks only at the sub-elements that exist. -/
theorem elems_congr (w : Nat) {f g : Nat → Nat × BitVec 32} (h : ∀ k, k < 64 / w → f k = g k) : elems w f = elems w g := by
  unfold elems
  have : ∀ (l : List Nat) (p : Word × BitVec 32), (∀ k ∈ l, k < 64 / w) →
      l.foldl (fun acc i => (put acc.1 i w (f i).1, acc.2 ||| (f i).2)) p
        = l.foldl (fun acc i => (put acc.1 i w (g i).1, acc.2 ||| (g i).2)) p := by
    intro l
    induction l with
    | nil => intro p _; rfl
    | cons a t ih =>
      intro p hl
      simp only [List.foldl_cons]
      rw [h a (hl a (by simp))]
      exact ih _ fun k hk => hl k (by simp [hk])
  exact this _ _ fun k hk => List.mem_range.mp hk

theorem elems0_congr (w : Nat) {f g : Nat → Nat} (h : ∀ k, k < 64 / w → f k = g k) : elems0 w f = elems0 w g := by
  have := elems_congr w (f := fun k => (f k, 0)) (g := fun k => (g k, 0)) fun k hk => by rw [h k hk]
  rw [elems_eq, elems_eq] at this
  exact (Prod.mk.inj this).1

end Sys2Proof.Machine
end

