-- ==== Sys2Proof/Laws/Encoding.lean ====
section
/-!
SUPPORT. Decoding a field, a modifier group or a class layout gives back what was encoded.
-/
set_option linter.unusedSimpArgs false
namespace Sys2Proof

/-! ## The Except monad of the decoder -/

@[simp] theorem parse_ok_bind {α β : Type} (x : α) (f : α → Parse β) : ((Except.ok x : Parse α) >>= f) = f x := rfl

@[simp] theorem need_true (n : Nat) : need n true = .ok () := rfl

@[simp] theorem field_some {α : Type} (x : α) : field (some x) = .ok x := rfl

/-! ## Bits of joined fields -/

theorem bits_above {m n : Nat} (x : BitVec m) (y : BitVec n) (k j : Nat) (h : n ≤ k) :
    (x.append y).extractLsb' k j = x.extractLsb' (k - n) j := by
  ext i hi
  rw [show x.append y = x ++ y from rfl]
  simp only [BitVec.getElem_extractLsb', BitVec.getLsbD_append]
  rw [if_neg (by omega), show k + i - n = k - n + i by omega]

theorem bits_below {m n : Nat} (x : BitVec m) (y : BitVec n) (k j : Nat) (h : k + j ≤ n) :
    (x.append y).extractLsb' k j = y.extractLsb' k j := by
  ext i hi
  rw [show x.append y = x ++ y from rfl]
  simp only [BitVec.getElem_extractLsb', BitVec.getLsbD_append]
  rw [if_pos (by omega)]

theorem bits_all {n : Nat} (x : BitVec n) : x.extractLsb' 0 n = x := by
  ext i hi
  simp

theorem bit_above {m n : Nat} (x : BitVec m) (y : BitVec n) (k : Nat) (h : n ≤ k) :
    (x.append y).getLsbD k = x.getLsbD (k - n) := by
  rw [show x.append y = x ++ y from rfl, BitVec.getLsbD_append, if_neg (by omega)]

theorem bit_below {m n : Nat} (x : BitVec m) (y : BitVec n) (k : Nat) (h : k < n) :
    (x.append y).getLsbD k = y.getLsbD k := by
  rw [show x.append y = x ++ y from rfl, BitVec.getLsbD_append, if_pos h]

/-! ## Class layouts -/

theorem FieldsA.split_pack (f : FieldsA) : FieldsA.split f.pack = f := by
  let x := ((((((f.d.append f.a).append f.b).append f.c).append f.ha).append f.hb).append f.hc).append f.m
  show (⟨BitVec.extractLsb' 39 9 x, BitVec.extractLsb' 30 9 x, BitVec.extractLsb' 21 9 x, BitVec.extractLsb' 12 9 x,
    BitVec.extractLsb' 10 2 x, BitVec.extractLsb' 8 2 x, BitVec.extractLsb' 6 2 x, BitVec.extractLsb' 0 6 x⟩ : FieldsA) = f
  simp only [x, bits_above, bits_below, bits_all, Nat.reduceAdd, Nat.reduceLeDiff, Nat.reduceSub, Nat.le_refl, Nat.sub_self]

theorem FieldsB.split_pack (f : FieldsB) : FieldsB.split f.pack = f := by
  let x := (((f.d.append f.a).append f.ha).append f.imm).append f.m
  show (⟨BitVec.extractLsb' 39 9 x, BitVec.extractLsb' 30 9 x, BitVec.extractLsb' 28 2 x, BitVec.extractLsb' 6 22 x,
    BitVec.extractLsb' 0 6 x⟩ : FieldsB) = f
  simp only [x, bits_above, bits_below, bits_all, Nat.reduceAdd, Nat.reduceLeDiff, Nat.reduceSub, Nat.le_refl, Nat.sub_self]

theorem FieldsM.split_pack (f : FieldsM) : FieldsM.split f.pack = f := by
  let x := ((((((f.d.append f.base).append f.x).append f.hb).append f.hx).append f.la).append f.sc).append f.off
  show (⟨BitVec.extractLsb' 39 9 x, BitVec.extractLsb' 30 9 x, BitVec.extractLsb' 21 9 x, BitVec.extractLsb' 19 2 x,
    BitVec.extractLsb' 17 2 x, BitVec.extractLsb' 13 4 x, BitVec.extractLsb' 11 2 x, BitVec.extractLsb' 0 11 x⟩ : FieldsM) = f
  simp only [x, bits_above, bits_below, bits_all, Nat.reduceAdd, Nat.reduceLeDiff, Nat.reduceSub, Nat.le_refl, Nat.sub_self]

theorem FieldsX.split_pack (f : FieldsX) : FieldsX.split f.pack = f := by
  let x := ((((f.d.append f.a).append f.b).append f.c).append f.la).append f.m
  show (⟨BitVec.extractLsb' 39 9 x, BitVec.extractLsb' 30 9 x, BitVec.extractLsb' 21 9 x, BitVec.extractLsb' 12 9 x,
    BitVec.extractLsb' 8 4 x, BitVec.extractLsb' 0 8 x⟩ : FieldsX) = f
  simp only [x, bits_above, bits_below, bits_all, Nat.reduceAdd, Nat.reduceLeDiff, Nat.reduceSub, Nat.le_refl, Nat.sub_self]

theorem FieldsC.split_pack (f : FieldsC) : FieldsC.split f.pack = f := by
  let x := (f.reg.append f.cm).append f.off
  show (⟨BitVec.extractLsb' 39 9 x, BitVec.extractLsb' 36 3 x, BitVec.extractLsb' 0 36 x⟩ : FieldsC) = f
  simp only [x, bits_above, bits_below, bits_all, Nat.reduceAdd, Nat.reduceLeDiff, Nat.reduceSub, Nat.le_refl, Nat.sub_self]

theorem FieldsS.split_pack (f : FieldsS) : FieldsS.split f.pack = f := by
  let x := (((f.d.append f.a).append f.b).append f.la).append f.imm
  show (⟨BitVec.extractLsb' 39 9 x, BitVec.extractLsb' 30 9 x, BitVec.extractLsb' 21 9 x, BitVec.extractLsb' 17 4 x,
    BitVec.extractLsb' 0 17 x⟩ : FieldsS) = f
  simp only [x, bits_above, bits_below, bits_all, Nat.reduceAdd, Nat.reduceLeDiff, Nat.reduceSub, Nat.le_refl, Nat.sub_self]

theorem FieldsI.split_pack (f : FieldsI) : FieldsI.split f.pack = f := by
  let x := ((f.d.append f.mode).append f.z).append f.imm
  show (⟨BitVec.extractLsb' 39 9 x, BitVec.extractLsb' 36 3 x, BitVec.extractLsb' 32 4 x, BitVec.extractLsb' 0 32 x⟩ : FieldsI) = f
  simp only [x, bits_above, bits_below, bits_all, Nat.reduceAdd, Nat.reduceLeDiff, Nat.reduceSub, Nat.le_refl, Nat.sub_self]

theorem FieldsH.split_pack (f : FieldsH) : FieldsH.split f.pack = f := by
  let x := (((((f.op.append f.bank).append f.d).append f.a).append f.hd).append f.ha).append f.m
  show (⟨BitVec.extractLsb' 23 8 x, BitVec.extractLsb' 20 3 x, BitVec.extractLsb' 14 6 x, BitVec.extractLsb' 8 6 x,
    BitVec.extractLsb' 6 2 x, BitVec.extractLsb' 4 2 x, BitVec.extractLsb' 0 4 x⟩ : FieldsH) = f
  simp only [x, bits_above, bits_below, bits_all, Nat.reduceAdd, Nat.reduceLeDiff, Nat.reduceSub, Nat.le_refl, Nat.sub_self]

/-- The header of a full word. -/
theorem decodeWord_packFull (c : BitVec 3) (op : BitVec 8) (g : BitVec 4) (b : BitVec 48) :
    decodeWord (packFull c op g b) =
      match c with
      | 0 => decodeRow (rowA op) g (FieldsA.split b)
      | 1 => decodeRow (rowB op) g (FieldsB.split b)
      | 2 => decodeRow (rowM op) g (FieldsM.split b)
      | 3 => decodeRow (rowX op) g (FieldsX.split b)
      | 4 => decodeRow (rowC op) g (FieldsC.split b)
      | 5 => decodeRow (rowS op) g (FieldsS.split b)
      | 6 => decodeRow (rowI op) g (FieldsI.split b)
      | _ => .error 2 := by
  unfold decodeWord
  let x := ((((0#1).append c).append op).append g).append b
  have h63 : (packFull c op g b).getLsbD 63 = false := by
    show x.getLsbD 63 = false
    simp only [x, bit_above, Nat.reduceAdd, Nat.reduceLeDiff, Nat.reduceSub]; rfl
  have hop : (packFull c op g b).extractLsb' 52 8 = op := by
    show x.extractLsb' 52 8 = op
    simp only [x, bits_above, bits_below, bits_all, Nat.reduceAdd, Nat.reduceLeDiff, Nat.reduceSub, Nat.le_refl, Nat.sub_self]
  have hg : (packFull c op g b).extractLsb' 48 4 = g := by
    show x.extractLsb' 48 4 = g
    simp only [x, bits_above, bits_below, bits_all, Nat.reduceAdd, Nat.reduceLeDiff, Nat.reduceSub, Nat.le_refl, Nat.sub_self]
  have hb : (packFull c op g b).extractLsb' 0 48 = b := by
    show x.extractLsb' 0 48 = b
    simp only [x, Nat.reduceAdd, Nat.reduceLeDiff, Nat.reduceSub, Nat.le_refl, Nat.sub_self, bits_below, bits_all]
  have hc : (packFull c op g b).extractLsb' 60 3 = c := by
    show x.extractLsb' 60 3 = c
    simp only [x, bits_above, bits_below, bits_all, Nat.reduceAdd, Nat.reduceLeDiff, Nat.reduceSub, Nat.le_refl, Nat.sub_self]
  rw [h63, hop, hg, hb, hc]
  rfl

/-! ## Guards and operands -/

theorem Guard.toBits_ne {g : Guard} (h : g.wf = true) : (g.toBits == 0b1111#4) = false := by
  obtain ⟨n, p⟩ := g
  revert h; revert n p; decide

theorem Guard.ofBits_toBits (g : Guard) : Guard.ofBits g.toBits = g := by
  obtain ⟨n, p⟩ := g
  revert n p; decide

/-- A row of an opcode map under a well-formed guard. -/
theorem decodeRow_some {φ : Type} {p : Guard → φ → Parse Instr} {g : Guard} {f : φ} (h : g.wf = true) :
    decodeRow (some p) g.toBits f = p g f := by
  simp [decodeRow, Guard.toBits_ne h, Guard.ofBits_toBits]

theorem Opd.ofField_v (f : BitVec 9) (k : Fin 320) (h : f.toNat = k.val) : Opd.ofField f = some (.v k) := by
  have hk : f.toNat < 320 := h ▸ k.isLt
  rw [Opd.ofField, dif_pos hk]
  exact congrArg (fun x => some (Opd.v x)) (Fin.ext h)

theorem Opd.ofField_s (f : BitVec 9) (k : Fin 64) (h : f.toNat = 320 + k.val) : Opd.ofField f = some (.s k) := by
  have hk : f.toNat - 320 < 64 := by have := k.isLt; omega
  rw [Opd.ofField, dif_neg (by omega), dif_pos hk]
  exact congrArg (fun x => some (Opd.s x)) (Fin.ext (by show f.toNat - 320 = k.val; omega))

theorem Opd.ofField_toField (o : Opd) : Opd.ofField o.toField = some o := by
  cases o with
  | v n => exact Opd.ofField_v _ n (by show (BitVec.ofNat 9 n.val).toNat = _; have := n.isLt; simp; omega)
  | s n => exact Opd.ofField_s _ n (by show (BitVec.ofNat 9 (320 + n.val)).toNat = _; have := n.isLt; simp; omega)
  | zero => decide

@[simp] theorem opd_toField (o : Opd) : opd o.toField = .ok o := by simp [opd, Opd.ofField_toField]

theorem opdIn_toField {p : Opd → Bool} {o : Opd} (h : p o = true) : opdIn p o.toField = .ok o := by
  simp [opdIn, Opd.ofField_toField, h]

theorem hint_bits : ∀ l k : Bool, (l && k) = false → (BitVec.ofBool l ++ BitVec.ofBool k != 3#2) = true := by decide

theorem hint_last : ∀ l k : Bool, (BitVec.ofBool l ++ BitVec.ofBool k).getLsbD 1 = l := by decide

theorem hint_keep : ∀ l k : Bool, (BitVec.ofBool l ++ BitVec.ofBool k).getLsbD 0 = k := by decide

theorem hintOk_hints {s : Src} (h : s.wf = true) : hintOk s.hints = .ok () := by
  have hb := hint_bits s.last s.keep (by simpa only [Src.wf, Bool.not_eq_true'] using h)
  show need 5 (BitVec.ofBool s.last ++ BitVec.ofBool s.keep != 3#2) = _
  rw [hb]; rfl

theorem mkSrc_hints (s : Src) : mkSrc s.r s.hints = s := by
  show Src.mk s.r ((BitVec.ofBool s.last ++ BitVec.ofBool s.keep).getLsbD 1)
    ((BitVec.ofBool s.last ++ BitVec.ofBool s.keep).getLsbD 0) = s
  rw [hint_last, hint_keep]

/-! ## Modifiers -/

theorem IntMod.parse_bits (m : IntMod) : IntMod.parse m.bits = .ok m := by
  obtain ⟨w, u, s⟩ := m; cases w <;> cases u <;> cases s <;> rfl

theorem parseWU_bits (w : IWidth) (u : Bool) : parseWU (bitsWU (w, u)) = .ok (w, u) := by
  cases w <;> cases u <;> rfl

theorem parseWSat_bits (w : IWidth) (u : Bool) : parseWSat (bitsWSat (w, u)) = .ok (w, u) := by
  cases w <;> cases u <;> rfl

theorem parseW_bits (w : IWidth) : parseW (bitsW w) = .ok w := by
  cases w <;> rfl

theorem parseCo_bits (w : IWidth) (u : Bool) : parseCo (bitsCo (w, u)) = .ok (w, u) := by
  cases w <;> cases u <;> rfl

theorem parseNone_bits : parseNone 0 = .ok () := rfl

theorem FloatMod.parse_bits (m : FloatMod) : FloatMod.parse m.bits = .ok m := by
  obtain ⟨t, r, s⟩ := m; cases t <;> cases r <;> cases s <;> rfl

theorem parseT_bits (t : FType) : parseT (bitsT t) = .ok t := by
  cases t <;> rfl

theorem parseFrnd_bits (t : FType) (r : RMode) : parseFrnd (bitsFrnd (t, r)) = .ok (t, r) := by
  cases t <;> cases r <;> rfl

theorem parseIcmp_bits (w : IWidth) (u : Bool) (c : ICond) : parseIcmp (bitsIcmp (w, u, c)) = .ok (w, u, c) := by
  cases w <;> cases u <;> cases c <;> rfl

theorem parseFcmp_bits (t : FType) (c : FCond) : parseFcmp (bitsFcmp (t, c)) = .ok (t, c) := by
  cases t <;> cases c <;> rfl

theorem parseUnpack_bits (k : UnpackKind) : parseKind UnpackKind.ofBits (bitsKind k.toBits) = .ok k := by
  cases k <;> rfl

theorem parsePack_bits (k : PackKind) : parseKind PackKind.ofBits (bitsKind k.toBits) = .ok k := by
  cases k <;> rfl

theorem parseBit0_bits (b : Bool) : parseBit0 (bitsBit0 b) = .ok b := by
  cases b <;> rfl

theorem parseShfl_bits (w : IWidth) (m : ShflMode) : parseShfl (bitsShfl (w, m)) = .ok (w, m) := by
  cases w <;> cases m <;> rfl

theorem parseVote_bits (m : VoteMode) : parseMode2 VoteMode.ofBits (bitsMode2 m.toBits) = .ok m := by
  cases m <;> rfl

theorem parseBallot_bits (m : BallotMode) : parseMode2 BallotMode.ofBits (bitsMode2 m.toBits) = .ok m := by
  cases m <;> rfl

theorem parseRed_bits (op : RedOp) (t : RedType) (h : redOk op t = true) : parseRed (bitsRed (op, t)) = .ok (op, t) := by
  cases op <;> cases t <;> first | rfl | (exact absurd h (by decide))

theorem parseSel_bits (n : Bool) (q : Fin 8) : parseSel (bitsSel (n, q)) = .ok (n, q) := by
  have h : ∀ n : Bool, ∀ q : Fin 8, ((bitsSel (n, q)).extractLsb' 4 2 == 0) = true ∧ ((bitsSel (n, q)).getLsbD 3, predOf ((bitsSel (n, q)).extractLsb' 0 3)) = (n, q) := by decide
  simp only [parseSel, (h n q).1, (h n q).2, need_true, parse_ok_bind]

theorem parseLea_bits (f : LeaForm) (q : Fin 8) : parseLea (bitsLea (f, q)) = .ok (f, q) := by
  have h : ∀ q : Fin 8, predOf ((bitsLea (f, q)).extractLsb' 0 3) = q := by cases f <;> decide
  have h2 : ∀ q : Fin 8, LeaForm.ofBits ((bitsLea (f, q)).extractLsb' 3 3) = some f := by cases f <;> decide
  simp only [parseLea, h, h2, field_some, parse_ok_bind]

theorem PredDst.parse_bits (p : PredDst) (h : p.wf = true) : PredDst.parse p.bits = .ok p := by
  obtain ⟨t, a, b⟩ := p
  have h1 : ∀ a b : Fin 8, Combine.ofBits ((PredDst.bits ⟨t, a, b⟩).extractLsb' 6 3) = some t := by cases t <;> decide
  have h2 : ∀ a b : Fin 8, predOf ((PredDst.bits ⟨t, a, b⟩).extractLsb' 3 3) = a := by cases t <;> decide
  have h3 : ∀ a b : Fin 8, predOf ((PredDst.bits ⟨t, a, b⟩).extractLsb' 0 3) = b := by cases t <;> decide
  simp only [PredDst.parse, h1, h2, h3, field_some, parse_ok_bind, h, need_true]

/-! ## Rows -/

theorem decodeWord_packA (op : BitVec 8) (g : Guard) (f : FieldsA) :
    decodeWord (packA op g f) = decodeRow (rowA op) g.toBits f := by
  rw [packA, decodeWord_packFull]
  show decodeRow (rowA op) g.toBits (FieldsA.split f.pack) = _
  rw [FieldsA.split_pack]

/-- A listed opcode of class A under a well-formed guard. -/
theorem decode_rowA {op : BitVec 8} {p : Guard → FieldsA → Parse Instr} (hr : rowA op = some p) {g : Guard}
    (hg : g.wf = true) (f : FieldsA) : decodeWord (packA op g f) = p g f := by
  rw [decodeWord_packA, hr, decodeRow_some hg]

theorem decodeWord_packB (op : BitVec 8) (g : Guard) (f : FieldsB) :
    decodeWord (packB op g f) = decodeRow (rowB op) g.toBits f := by
  rw [packB, decodeWord_packFull]
  show decodeRow (rowB op) g.toBits (FieldsB.split f.pack) = _
  rw [FieldsB.split_pack]

/-- A listed opcode of class B under a well-formed guard. -/
theorem decode_rowB {op : BitVec 8} {p : Guard → FieldsB → Parse Instr} (hr : rowB op = some p) {g : Guard}
    (hg : g.wf = true) (f : FieldsB) : decodeWord (packB op g f) = p g f := by
  rw [decodeWord_packB, hr, decodeRow_some hg]

theorem decodeWord_packM (op : BitVec 8) (g : Guard) (f : FieldsM) :
    decodeWord (packM op g f) = decodeRow (rowM op) g.toBits f := by
  rw [packM, decodeWord_packFull]
  show decodeRow (rowM op) g.toBits (FieldsM.split f.pack) = _
  rw [FieldsM.split_pack]

/-- A listed opcode of class M under a well-formed guard. -/
theorem decode_rowM {op : BitVec 8} {p : Guard → FieldsM → Parse Instr} (hr : rowM op = some p) {g : Guard}
    (hg : g.wf = true) (f : FieldsM) : decodeWord (packM op g f) = p g f := by
  rw [decodeWord_packM, hr, decodeRow_some hg]

theorem decodeWord_packX (op : BitVec 8) (g : Guard) (f : FieldsX) :
    decodeWord (packX op g f) = decodeRow (rowX op) g.toBits f := by
  rw [packX, decodeWord_packFull]
  show decodeRow (rowX op) g.toBits (FieldsX.split f.pack) = _
  rw [FieldsX.split_pack]

/-- A listed opcode of class X under a well-formed guard. -/
theorem decode_rowX {op : BitVec 8} {p : Guard → FieldsX → Parse Instr} (hr : rowX op = some p) {g : Guard}
    (hg : g.wf = true) (f : FieldsX) : decodeWord (packX op g f) = p g f := by
  rw [decodeWord_packX, hr, decodeRow_some hg]

theorem decodeWord_packC (op : BitVec 8) (g : Guard) (f : FieldsC) :
    decodeWord (packC op g f) = decodeRow (rowC op) g.toBits f := by
  rw [packC, decodeWord_packFull]
  show decodeRow (rowC op) g.toBits (FieldsC.split f.pack) = _
  rw [FieldsC.split_pack]

/-- A listed opcode of class C under a well-formed guard. -/
theorem decode_rowC {op : BitVec 8} {p : Guard → FieldsC → Parse Instr} (hr : rowC op = some p) {g : Guard}
    (hg : g.wf = true) (f : FieldsC) : decodeWord (packC op g f) = p g f := by
  rw [decodeWord_packC, hr, decodeRow_some hg]

theorem decodeWord_packS (op : BitVec 8) (g : Guard) (f : FieldsS) :
    decodeWord (packS op g f) = decodeRow (rowS op) g.toBits f := by
  rw [packS, decodeWord_packFull]
  show decodeRow (rowS op) g.toBits (FieldsS.split f.pack) = _
  rw [FieldsS.split_pack]

/-- A listed opcode of class S under a well-formed guard. -/
theorem decode_rowS {op : BitVec 8} {p : Guard → FieldsS → Parse Instr} (hr : rowS op = some p) {g : Guard}
    (hg : g.wf = true) (f : FieldsS) : decodeWord (packS op g f) = p g f := by
  rw [decodeWord_packS, hr, decodeRow_some hg]

theorem decodeWord_packI (op : BitVec 8) (g : Guard) (f : FieldsI) :
    decodeWord (packI op g f) = decodeRow (rowI op) g.toBits f := by
  rw [packI, decodeWord_packFull]
  show decodeRow (rowI op) g.toBits (FieldsI.split f.pack) = _
  rw [FieldsI.split_pack]

/-- A listed opcode of class I under a well-formed guard. -/
theorem decode_rowI {op : BitVec 8} {p : Guard → FieldsI → Parse Instr} (hr : rowI op = some p) {g : Guard}
    (hg : g.wf = true) (f : FieldsI) : decodeWord (packI op g f) = p g f := by
  rw [decodeWord_packI, hr, decodeRow_some hg]

/-! ## Shapes of classes A, B and S -/

@[simp] theorem unusedOk_none : unusedOk 511 0 = .ok () := rfl

@[simp] theorem unused9_none : unused9 511 = .ok () := rfl

@[simp] theorem noLa_zero : noLa 0 = .ok () := rfl

theorem shapeDA_enc {μ : Type} {pm : BitVec 6 → Parse μ} {mk : μ → Opd → Src → Instr} {mb : BitVec 6} {m : μ}
    (hm : pm mb = .ok m) (d : Opd) {a : Src} (ha : a.wf = true) :
    shapeDA pm mk { d := d.toField, a := a.r.toField, b := 511, c := 511, ha := a.hints, hb := 0, hc := 0, m := mb }
      = .ok (mk m d a) := by
  simp only [shapeDA, hm, hintOk_hints ha, unusedOk_none, opd_toField, parse_ok_bind, mkSrc_hints]

theorem shapeDAB_enc {μ : Type} {pm : BitVec 6 → Parse μ} {mk : μ → Opd → Src → Src → Instr} {mb : BitVec 6} {m : μ}
    (hm : pm mb = .ok m) (d : Opd) {a b : Src} (ha : a.wf = true) (hb : b.wf = true) :
    shapeDAB pm mk { d := d.toField, a := a.r.toField, b := b.r.toField, c := 511, ha := a.hints, hb := b.hints,
                     hc := 0, m := mb } = .ok (mk m d a b) := by
  simp only [shapeDAB, hm, hintOk_hints ha, hintOk_hints hb, unusedOk_none, opd_toField, parse_ok_bind, mkSrc_hints]

theorem shapeDABC_enc {μ : Type} {pm : BitVec 6 → Parse μ} {mk : μ → Opd → Src → Src → Src → Instr} {mb : BitVec 6}
    {m : μ} (hm : pm mb = .ok m) (d : Opd) {a b c : Src} (ha : a.wf = true) (hb : b.wf = true) (hc : c.wf = true) :
    shapeDABC pm mk { d := d.toField, a := a.r.toField, b := b.r.toField, c := c.r.toField, ha := a.hints,
                      hb := b.hints, hc := c.hints, m := mb } = .ok (mk m d a b c) := by
  simp only [shapeDABC, hm, hintOk_hints ha, hintOk_hints hb, hintOk_hints hc, opd_toField, parse_ok_bind, mkSrc_hints]

theorem shapeCmp_enc {μ : Type} {pm : BitVec 6 → Parse μ} {mk : μ → PredDst → Src → Src → Instr} {mb : BitVec 6} {m : μ}
    (hm : pm mb = .ok m) {pd : PredDst} (hp : pd.wf = true) {a b : Src} (ha : a.wf = true) (hb : b.wf = true) :
    shapeCmp pm mk { d := pd.bits, a := a.r.toField, b := b.r.toField, c := 511, ha := a.hints, hb := b.hints,
                     hc := 0, m := mb } = .ok (mk m pd a b) := by
  simp only [shapeCmp, hm, PredDst.parse_bits pd hp, hintOk_hints ha, hintOk_hints hb, unusedOk_none, opd_toField,
    parse_ok_bind, mkSrc_hints]

theorem shapeImm_enc {μ ι : Type} {pm : BitVec 6 → Parse μ} {pi : μ → BitVec 22 → Parse ι}
    {mk : μ → Opd → Src → ι → Instr} {mb : BitVec 6} {m : μ} (hm : pm mb = .ok m) {x : BitVec 22} {i : ι}
    (hi : pi m x = .ok i) (d : Opd) {a : Src} (ha : a.wf = true) :
    shapeImm pm pi mk { d := d.toField, a := a.r.toField, ha := a.hints, imm := x, m := mb } = .ok (mk m d a i) := by
  simp only [shapeImm, hm, hi, hintOk_hints ha, opd_toField, parse_ok_bind, mkSrc_hints]

theorem shapeCmpImm_enc {μ : Type} {pm : BitVec 6 → Parse μ} {pi : μ → BitVec 22 → Parse (BitVec 22)}
    {mk : μ → PredDst → Src → BitVec 22 → Instr} {mb : BitVec 6} {m : μ} (hm : pm mb = .ok m) {x i : BitVec 22}
    (hi : pi m x = .ok i) {pd : PredDst} (hp : pd.wf = true) {a : Src} (ha : a.wf = true) :
    shapeCmpImm pm pi mk { d := pd.bits, a := a.r.toField, ha := a.hints, imm := x, m := mb } = .ok (mk m pd a i) := by
  simp only [shapeCmpImm, hm, hi, PredDst.parse_bits pd hp, hintOk_hints ha, opd_toField, parse_ok_bind, mkSrc_hints]

theorem immAny_enc {μ : Type} (m : μ) (x : BitVec 22) : immAny m x = .ok x := rfl

theorem immFloat_enc {t : FType} {x : BitVec 22} (h : fimmOk t x = true) : immFloat t x = .ok x := by
  simp only [immFloat, h, need_true, parse_ok_bind]

theorem low_above {n m : Nat} (x : BitVec n) : (x.setWidth 22).extractLsb' n m = 0 := by
  ext i hi
  simp

theorem low_below {n : Nat} (x : BitVec n) (h : n ≤ 22) : (x.setWidth 22).extractLsb' 0 n = x := by
  apply BitVec.eq_of_toNat_eq
  have hx := x.isLt
  have hp : 2 ^ n ≤ 2 ^ 22 := Nat.pow_le_pow_right (by omega) h
  simp only [BitVec.extractLsb'_toNat, BitVec.toNat_setWidth, Nat.shiftRight_zero]
  rw [Nat.mod_eq_of_lt (a := x.toNat) (by omega), Nat.mod_eq_of_lt hx]

theorem immLow_enc {μ : Type} {n : Nat} (h : n ≤ 22) (m : μ) (x : BitVec n) : immLow n m (imm22Low x) = .ok x := by
  simp only [immLow, imm22Low, low_above, low_below x h, beq_self_eq_true, need_true, parse_ok_bind]

theorem immBfx_enc {μ : Type} (m : μ) (pos : BitVec 6) (len : Fin 65) :
    immBfx m (0#9 ++ BitVec.ofNat 7 len.val ++ pos) = .ok (pos, len) := by
  have h1 : (0#9 ++ BitVec.ofNat 7 len.val ++ pos).extractLsb' 13 9 = 0#9 := by
    show (((0#9).append (BitVec.ofNat 7 len.val)).append pos).extractLsb' 13 9 = _
    simp only [bits_above, bits_all, Nat.reduceLeDiff, Nat.reduceSub, Nat.le_refl, Nat.sub_self]
  have h2 : (0#9 ++ BitVec.ofNat 7 len.val ++ pos).extractLsb' 6 7 = BitVec.ofNat 7 len.val := by
    show (((0#9).append (BitVec.ofNat 7 len.val)).append pos).extractLsb' 6 7 = _
    simp only [bits_above, bits_below, bits_all, Nat.reduceAdd, Nat.reduceLeDiff, Nat.reduceSub, Nat.le_refl, Nat.sub_self]
  have h3 : (0#9 ++ BitVec.ofNat 7 len.val ++ pos).extractLsb' 0 6 = pos := by
    show (((0#9).append (BitVec.ofNat 7 len.val)).append pos).extractLsb' 0 6 = _
    simp only [bits_below, bits_all, Nat.reduceAdd, Nat.reduceLeDiff, Nat.le_refl]
  have hl : (BitVec.ofNat 7 len.val).toNat = len.val := by have := len.isLt; simp; omega
  simp only [immBfx, h1, h2, h3, hl, len.isLt, dif_pos]
  rfl

/-- A field of class S: one that is used accepts its operand, one that is not holds 511. -/
def SlotOk (p : Option (Opd → Bool)) (o : Opd) : Prop :=
  match p with
  | some q => q o = true
  | none => o = .zero

theorem SlotOk.used {p : Option (Opd → Bool)} {o : Opd} (h : SlotOk p o) : (p.isSome || o.toField == 511) = true := by
  cases p with
  | none => rw [show o = .zero from h]; rfl
  | some q => rfl

theorem SlotOk.read {p : Option (Opd → Bool)} {o : Opd} (h : SlotOk p o) :
    opdIn (p.getD Opd.isZero) o.toField = .ok o := by
  cases p with
  | none => rw [show o = .zero from h]; rfl
  | some q => exact opdIn_toField h

theorem shapeS_enc {ι : Type} {pd pa pb : Option (Opd → Bool)} {pi : BitVec 17 → Parse ι}
    {mk : ι → Opd → Opd → Opd → Instr} {x : BitVec 17} {i : ι} (hi : pi x = .ok i) {d a b : Opd} (hd : SlotOk pd d)
    (ha : SlotOk pa a) (hb : SlotOk pb b) :
    shapeS pd pa pb pi mk { d := d.toField, a := a.toField, b := b.toField, la := 0, imm := x } = .ok (mk i d a b) := by
  simp only [shapeS, hi, noLa_zero, hd.used, ha.used, hb.used, hd.read, ha.read, hb.read, Bool.and_self, need_true,
    parse_ok_bind]

theorem shapeJob_enc {pd pa pb pc : Opd → Bool} {mk : Opd → Opd → Opd → Opd → Instr} {d a b c : Opd} {m : BitVec 8}
    {mods : Bool} (hm : mods = true) (hd : pd d = true) (ha : pa a = true) (hb : pb b = true) (hc : pc c = true) :
    shapeJob pd pa pb pc mods mk { d := d.toField, a := a.toField, b := b.toField, c := c.toField, la := 0, m := m }
      = .ok (mk d a b c) := by
  simp only [shapeJob, hm, noLa_zero, opdIn_toField hd, opdIn_toField ha, opdIn_toField hb, opdIn_toField hc,
    need_true, parse_ok_bind]

/-! ## Single fields -/

theorem la4_ofFin16 (n : Fin 16) : la4 (ofFin16 n) = n := rfl

theorem noLa_fin : noLa (ofFin16 0) = .ok () := rfl

theorem unused9_zero : unused9 Opd.zero.toField = .ok () := rfl

theorem zero_field : Opd.zero.toField = 511 := rfl

theorem fence_unused : unusedOk Src.unused.r.toField Src.unused.hints = .ok () := rfl

theorem scope_bits (s : Scope) : Scope.ofBits s.toBits = s := by cases s <;> rfl

theorem scope_core : (Scope.core.toBits == 0) = true := rfl

theorem isZero_eq {o : Opd} (h : o.isZero = true) : o = .zero := by
  cases o <;> first | rfl | cases h

theorem row_ld (spc : Space) (sz : Size) (b : Bool) : rowM (ldstOp 0 spc sz b) = some (shapeLd spc sz b) := by
  cases spc <;> cases sz <;> cases b <;> rfl

theorem row_st (spc : Space) (sz : Size) (b : Bool) : rowM (ldstOp 1 spc sz b) = some (shapeSt spc sz b) := by
  cases spc <;> cases sz <;> cases b <;> rfl

theorem row_atom (k : OrdKind) (spc : Space4) (sz : ASize) : rowM (atomOpc 4 k spc sz) = some (shapeAtom k spc sz) := by
  cases k <;> cases spc <;> cases sz <;> rfl

theorem row_cas (k : OrdKind) (spc : Space4) (sz : ASize) : rowM (atomOpc 5 k spc sz) = some (shapeCas k spc sz) := by
  cases k <;> cases spc <;> cases sz <;> rfl

theorem ofPred_predOf (p : Fin 8) : predOf (ofPred p) = p := rfl

theorem pset_enc (g : Guard) (pd pa pb : Fin 8) (lut : BitVec 4) :
    shapePset g ⟨0#6 ++ ofPred pd, 0#6 ++ ofPred pa, 0#6 ++ ofPred pb, 511, 0, 0, 0, 0#2 ++ lut⟩
      = .ok (.pset g pd pa pb lut) := by
  have h1 : ∀ q : Fin 8, (0#6 ++ ofPred q).extractLsb' 3 6 = 0 := by decide
  have h2 : ∀ q : Fin 8, predOf ((0#6 ++ ofPred q).extractLsb' 0 3) = q := by decide
  have h3 : (0#2 ++ lut).extractLsb' 4 2 = 0#2 := by
    show ((0#2).append lut).extractLsb' 4 2 = _
    simp only [bits_above, bits_all, Nat.le_refl, Nat.sub_self]
  have h4 : (0#2 ++ lut).extractLsb' 0 4 = lut := by
    show ((0#2).append lut).extractLsb' 0 4 = _
    simp only [bits_below, bits_all, Nat.reduceAdd, Nat.le_refl]
  simp only [shapePset, h1, h2, h3, h4, beq_self_eq_true, Bool.and_self, need_true, parse_ok_bind]
  rfl

theorem cvt_enc (g : Guard) {src dst : Fmt} {part : Fin 8} (rm : RMode) (sat amax : Bool) (d : Opd) {a : Src}
    (ha : a.wf = true) (hp : decide (part.val < cvtRatio src dst) = true) (hr : roundOk dst rm = true) :
    shapeCvt g ⟨d.toField, a.r.toField, (src.toBits ++ dst.toBits ++ 0#5 ++ ofPred part).extractLsb' 9 9,
      (src.toBits ++ dst.toBits ++ 0#5 ++ ofPred part).extractLsb' 0 9, a.hints, 0, 0,
      0#2 ++ rm.toBits ++ BitVec.ofBool sat ++ BitVec.ofBool amax⟩ = .ok (.cvt g src dst part rm sat amax d a) := by
  have hbc : ∀ x : BitVec 18, x.extractLsb' 9 9 ++ x.extractLsb' 0 9 = x := by
    intro x
    ext i hi
    simp only [BitVec.getElem_append, BitVec.getElem_extractLsb']
    split
    · simp [BitVec.getLsbD_eq_getElem hi]
    · rw [show 9 + (i - 9) = i by omega, BitVec.getLsbD_eq_getElem hi]
  have h1 : (src.toBits ++ dst.toBits ++ 0#5 ++ ofPred part).extractLsb' 13 5 = src.toBits := by
    show (((src.toBits.append dst.toBits).append 0#5).append (ofPred part)).extractLsb' 13 5 = _
    simp only [bits_above, bits_below, bits_all, Nat.reduceAdd, Nat.reduceLeDiff, Nat.reduceSub, Nat.le_refl, Nat.sub_self]
  have h2 : (src.toBits ++ dst.toBits ++ 0#5 ++ ofPred part).extractLsb' 8 5 = dst.toBits := by
    show (((src.toBits.append dst.toBits).append 0#5).append (ofPred part)).extractLsb' 8 5 = _
    simp only [bits_above, bits_below, bits_all, Nat.reduceAdd, Nat.reduceLeDiff, Nat.reduceSub, Nat.le_refl, Nat.sub_self]
  have h3 : (src.toBits ++ dst.toBits ++ 0#5 ++ ofPred part).extractLsb' 3 5 = 0#5 := by
    show (((src.toBits.append dst.toBits).append 0#5).append (ofPred part)).extractLsb' 3 5 = _
    simp only [bits_above, bits_below, bits_all, Nat.reduceAdd, Nat.reduceLeDiff, Nat.reduceSub, Nat.le_refl, Nat.sub_self]
  have h4 : (src.toBits ++ dst.toBits ++ 0#5 ++ ofPred part).extractLsb' 0 3 = ofPred part := by
    show (((src.toBits.append dst.toBits).append 0#5).append (ofPred part)).extractLsb' 0 3 = _
    simp only [bits_below, bits_all, Nat.reduceAdd, Nat.reduceLeDiff, Nat.le_refl]
  have m1 : ((0#2 ++ rm.toBits ++ BitVec.ofBool sat ++ BitVec.ofBool amax).extractLsb' 4 2 == 0) = true := by
    cases rm <;> cases sat <;> cases amax <;> rfl
  have m2 : RMode.ofBits ((0#2 ++ rm.toBits ++ BitVec.ofBool sat ++ BitVec.ofBool amax).extractLsb' 2 2) = rm := by
    cases rm <;> cases sat <;> cases amax <;> rfl
  have m3 : (0#2 ++ rm.toBits ++ BitVec.ofBool sat ++ BitVec.ofBool amax).getLsbD 1 = sat := by
    cases rm <;> cases sat <;> cases amax <;> rfl
  have m4 : (0#2 ++ rm.toBits ++ BitVec.ofBool sat ++ BitVec.ofBool amax).getLsbD 0 = amax := by
    cases rm <;> cases sat <;> cases amax <;> rfl
  have f : ∀ t : Fmt, Fmt.ofBits t.toBits = some t := by intro t; cases t <;> rfl
  simp only [shapeCvt, hbc, h1, h2, h3, h4, f, m1, m2, m3, m4, ofPred_predOf, hp, hr, hintOk_hints ha, opd_toField,
    mkSrc_hints, beq_self_eq_true, Bool.and_self, need_true, field_some, parse_ok_bind]
  rfl

/-! ## Tensor accesses -/

theorem tensorOff_zero : ∀ hi : Bool, ∀ q0 cnt : Fin 16, ((tensorOff hi q0 cnt).extractLsb' 0 2 == 0) = true := by decide

theorem tensorOff_q0 : ∀ hi : Bool, ∀ q0 cnt : Fin 16, la4 ((tensorOff hi q0 cnt).extractLsb' 7 4) = q0 := by decide

theorem tensorOff_cnt : ∀ hi : Bool, ∀ q0 cnt : Fin 16, la4 ((tensorOff hi q0 cnt).extractLsb' 3 4) = cnt := by decide

theorem tensorOff_hi : ∀ hi : Bool, ∀ q0 cnt : Fin 16, (tensorOff hi q0 cnt).getLsbD 2 = hi := by decide

theorem tensor_enc {la sealing : Bool} {mk : Guard → Bool → Fin 16 → Fin 16 → Scope → Fin 16 → Opd → Src → Src → Instr}
    (g : Guard) {hi : Bool} {q0 cnt l : Fin 16} (sc : Scope) {d : Opd} {base x : Src}
    (h : tensorOk d base x q0 cnt = true) (hl : (la || ofFin16 l == 0) = true)
    (hs : (!sealing || q0.val + cnt.val == 15) = true) :
    shapeTensor la sealing mk g
      { d := d.toField, base := base.r.toField, x := x.r.toField, hb := base.hints, hx := x.hints, la := ofFin16 l,
        sc := sc.toBits, off := tensorOff hi q0 cnt } = .ok (mk g hi q0 cnt sc l d base x) := by
  simp only [tensorOk, Bool.and_eq_true] at h
  obtain ⟨⟨⟨⟨⟨hd, hb⟩, hx⟩, wb⟩, wx⟩, hq⟩ := h
  simp only [shapeTensor, tensorOff_zero, tensorOff_q0, tensorOff_cnt, tensorOff_hi, hl, hs, hq, opdIn_toField hd,
    opdIn_toField hb, opdIn_toField hx, hintOk_hints wb, hintOk_hints wx, la4_ofFin16, scope_bits, mkSrc_hints,
    Bool.and_self, need_true, parse_ok_bind]

/-! ## Immediates of class S -/

theorem immBar_enc (arr : Bool) (count : BitVec 9) (id : Fin 16) :
    immBar (BitVec.ofBool arr ++ 0#3 ++ count ++ ofFin16 id) = .ok (arr, count, id) := by
  have h1 : (BitVec.ofBool arr ++ 0#3 ++ count ++ ofFin16 id).extractLsb' 13 3 = 0#3 := by
    show ((((BitVec.ofBool arr).append 0#3).append count).append (ofFin16 id)).extractLsb' 13 3 = _
    simp only [bits_above, bits_below, bits_all, Nat.reduceAdd, Nat.reduceLeDiff, Nat.reduceSub, Nat.le_refl, Nat.sub_self]
  have h2 : (BitVec.ofBool arr ++ 0#3 ++ count ++ ofFin16 id).getLsbD 16 = arr := by
    show ((((BitVec.ofBool arr).append 0#3).append count).append (ofFin16 id)).getLsbD 16 = _
    simp only [bit_above, Nat.reduceAdd, Nat.reduceLeDiff, Nat.reduceSub]
    cases arr <;> rfl
  have h3 : (BitVec.ofBool arr ++ 0#3 ++ count ++ ofFin16 id).extractLsb' 4 9 = count := by
    show ((((BitVec.ofBool arr).append 0#3).append count).append (ofFin16 id)).extractLsb' 4 9 = _
    simp only [bits_above, bits_below, bits_all, Nat.reduceAdd, Nat.reduceLeDiff, Nat.reduceSub, Nat.le_refl, Nat.sub_self]
  have h4 : (BitVec.ofBool arr ++ 0#3 ++ count ++ ofFin16 id).extractLsb' 0 4 = ofFin16 id := by
    show ((((BitVec.ofBool arr).append 0#3).append count).append (ofFin16 id)).extractLsb' 0 4 = _
    simp only [bits_below, bits_all, Nat.reduceAdd, Nat.reduceLeDiff, Nat.le_refl]
  simp only [immBar, h1, h2, h3, h4, la4_ofFin16, beq_self_eq_true, need_true, parse_ok_bind]
  rfl

theorem immCbar_enc (arr : Bool) {count : BitVec 9} (id : Fin 8) (hc : (count != 0) = true) :
    immCbar (BitVec.ofBool arr ++ 0#3 ++ count ++ 0#1 ++ ofPred id) = .ok (arr, count, id) := by
  have h1 : (BitVec.ofBool arr ++ 0#3 ++ count ++ 0#1 ++ ofPred id).extractLsb' 13 3 = 0#3 := by
    show (((((BitVec.ofBool arr).append 0#3).append count).append 0#1).append (ofPred id)).extractLsb' 13 3 = _
    simp only [bits_above, bits_below, bits_all, Nat.reduceAdd, Nat.reduceLeDiff, Nat.reduceSub, Nat.le_refl, Nat.sub_self]
  have h2 : (BitVec.ofBool arr ++ 0#3 ++ count ++ 0#1 ++ ofPred id).getLsbD 16 = arr := by
    show (((((BitVec.ofBool arr).append 0#3).append count).append 0#1).append (ofPred id)).getLsbD 16 = _
    simp only [bit_above, Nat.reduceAdd, Nat.reduceLeDiff, Nat.reduceSub]
    cases arr <;> rfl
  have h3 : (BitVec.ofBool arr ++ 0#3 ++ count ++ 0#1 ++ ofPred id).extractLsb' 4 9 = count := by
    show (((((BitVec.ofBool arr).append 0#3).append count).append 0#1).append (ofPred id)).extractLsb' 4 9 = _
    simp only [bits_above, bits_below, bits_all, Nat.reduceAdd, Nat.reduceLeDiff, Nat.reduceSub, Nat.le_refl, Nat.sub_self]
  have h4 : (BitVec.ofBool arr ++ 0#3 ++ count ++ 0#1 ++ ofPred id).extractLsb' 0 3 = ofPred id := by
    show (((((BitVec.ofBool arr).append 0#3).append count).append 0#1).append (ofPred id)).extractLsb' 0 3 = _
    simp only [bits_below, bits_all, Nat.reduceAdd, Nat.reduceLeDiff, Nat.le_refl]
  have h5 : (BitVec.ofBool arr ++ 0#3 ++ count ++ 0#1 ++ ofPred id).getLsbD 3 = false := by
    show (((((BitVec.ofBool arr).append 0#3).append count).append 0#1).append (ofPred id)).getLsbD 3 = _
    simp only [bit_above, bit_below, Nat.reduceAdd, Nat.reduceLeDiff, Nat.reduceSub, Nat.reduceLT, Nat.le_refl, Nat.sub_self]
    rfl
  simp only [immCbar, h1, h2, h3, h4, h5, hc, ofPred_predOf, beq_self_eq_true, Bool.and_self, need_true, parse_ok_bind]
  rfl

theorem immPred_enc (q : Fin 8) : immPred (0#14 ++ ofPred q) = .ok q := by
  have h1 : ∀ q : Fin 8, ((0#14 ++ ofPred q).extractLsb' 3 14 == 0) = true := by decide
  have h2 : ∀ q : Fin 8, predOf ((0#14 ++ ofPred q).extractLsb' 0 3) = q := by decide
  simp only [immPred, h1, h2, need_true, parse_ok_bind]

theorem immGran_enc (k : Fin 32) (hk : (k.val != 0) = true) : immGran (0#12 ++ BitVec.ofFin (w := 5) k) = .ok k := by
  have h1 : ∀ k : Fin 32, (k.val != 0) = true → ((0#12 ++ BitVec.ofFin (w := 5) k).extractLsb' 5 12 == 0
      && (0#12 ++ BitVec.ofFin (w := 5) k).extractLsb' 0 5 != 0) = true := by decide
  have h2 : ∀ k : Fin 32, ((0#12 ++ BitVec.ofFin (w := 5) k).extractLsb' 0 5).toFin = k := by decide
  simp only [immGran, h1 k hk, h2, need_true, parse_ok_bind]

theorem immHalves_enc (k : Fin 4) (hk : (k.val != 0) = true) (h3 : (k.val != 3) = true) :
    immHalves (0#15 ++ BitVec.ofFin (w := 2) k) = .ok k := by
  have h1 : ∀ k : Fin 4, (k.val != 0) = true → (k.val != 3) = true →
      ((0#15 ++ BitVec.ofFin (w := 2) k).extractLsb' 2 15 == 0
      && (0#15 ++ BitVec.ofFin (w := 2) k).extractLsb' 0 2 != 0
      && (0#15 ++ BitVec.ofFin (w := 2) k).extractLsb' 0 2 != 3) = true := by decide
  have h2 : ∀ k : Fin 4, ((0#15 ++ BitVec.ofFin (w := 2) k).extractLsb' 0 2).toFin = k := by decide
  simp only [immHalves, h1 k hk h3, h2, need_true, parse_ok_bind]

theorem immFlag_enc (b : Bool) : immFlag (0#16 ++ BitVec.ofBool b) = .ok b := by cases b <;> rfl

theorem immSysReg_enc (r : SysReg) : immSysReg (0#7 ++ r.toBits) = .ok r := by cases r <;> rfl

theorem ringwait_it (g : Guard) (r : Fin 8) (a : Opd) :
    shapeRingwait g { d := Opd.zero.toField, a := a.toField, b := Opd.zero.toField, la := 0,
                      imm := 0#8 ++ 1#1 ++ 0#5 ++ ofPred r } = .ok (.ringwait g r (.it a)) := by
  have h1 : ∀ r : Fin 8, ((0#8 ++ 1#1 ++ 0#5 ++ ofPred r).extractLsb' 9 8 == 0) = true := by decide
  have h2 : ∀ r : Fin 8, predOf ((0#8 ++ 1#1 ++ 0#5 ++ ofPred r).extractLsb' 0 3) = r := by decide
  have h3 : ∀ r : Fin 8, (0#8 ++ 1#1 ++ 0#5 ++ ofPred r).getLsbD 8 = true := by decide
  have h4 : ∀ r : Fin 8, ((0#8 ++ 1#1 ++ 0#5 ++ ofPred r).extractLsb' 3 5 == 0) = true := by decide
  simp only [shapeRingwait, h1, h2, h3, h4, noLa_zero, zero_field, opd_toField, beq_self_eq_true, Bool.and_self,
    need_true, parse_ok_bind, if_true]

theorem ringrel_it (g : Guard) (r : Fin 8) (a : Opd) :
    shapeRingrel g { d := Opd.zero.toField, a := a.toField, b := Opd.zero.toField, la := 0,
                     imm := 0#8 ++ 1#1 ++ 0#5 ++ ofPred r } = .ok (.ringrel g r (.it a)) := by
  have h1 : ∀ r : Fin 8, ((0#8 ++ 1#1 ++ 0#5 ++ ofPred r).extractLsb' 9 8 == 0) = true := by decide
  have h2 : ∀ r : Fin 8, predOf ((0#8 ++ 1#1 ++ 0#5 ++ ofPred r).extractLsb' 0 3) = r := by decide
  have h3 : ∀ r : Fin 8, (0#8 ++ 1#1 ++ 0#5 ++ ofPred r).getLsbD 8 = true := by decide
  have h4 : ∀ r : Fin 8, ((0#8 ++ 1#1 ++ 0#5 ++ ofPred r).extractLsb' 3 5 == 0) = true := by decide
  have h5 : ∀ r : Fin 8, (0#8 ++ 1#1 ++ 0#5 ++ ofPred r).getLsbD 7 = false := by decide
  simp only [shapeRingrel, h1, h2, h3, h4, h5, noLa_zero, zero_field, opd_toField, beq_self_eq_true, Bool.and_self,
    need_true, parse_ok_bind, if_true]

theorem valid_bit (g : Guard) (n : BitVec 6) :
    shapeValid g { d := Opd.zero.toField, a := Opd.zero.toField, b := Opd.zero.toField, la := 0,
                   imm := 0#10 ++ 1#1 ++ n } = .ok (.valid g (.bit n)) := by
  have h1 : (0#10 ++ 1#1 ++ n).extractLsb' 7 10 = 0#10 := by
    show (((0#10).append 1#1).append n).extractLsb' 7 10 = _
    simp only [bits_above, bits_all, Nat.reduceAdd, Nat.reduceLeDiff, Nat.reduceSub, Nat.le_refl, Nat.sub_self]
  have h2 : (0#10 ++ 1#1 ++ n).getLsbD 6 = true := by
    show (((0#10).append 1#1).append n).getLsbD 6 = _
    simp only [bit_above, Nat.le_refl, Nat.sub_self]; rfl
  have h3 : (0#10 ++ 1#1 ++ n).extractLsb' 0 6 = n := by
    show (((0#10).append 1#1).append n).extractLsb' 0 6 = _
    simp only [bits_below, bits_all, Nat.reduceAdd, Nat.le_refl]
  simp only [shapeValid, h1, h2, h3, noLa_zero, zero_field, unused9_none, beq_self_eq_true, Bool.and_self, need_true,
    parse_ok_bind, if_true]
  rfl

theorem valid_reg (g : Guard) (a : Opd) :
    shapeValid g { d := Opd.zero.toField, a := a.toField, b := Opd.zero.toField, la := 0, imm := 0 }
      = .ok (.valid g (.reg a)) := by
  have h1 : ((0 : BitVec 17).extractLsb' 7 10 == 0) = true := rfl
  have h2 : (0 : BitVec 17).getLsbD 6 = false := rfl
  have h3 : ((0 : BitVec 17).extractLsb' 0 6 == 0) = true := rfl
  simp only [shapeValid, h1, h2, h3, noLa_zero, zero_field, opd_toField, beq_self_eq_true, Bool.and_self, need_true,
    parse_ok_bind, Bool.false_eq_true, if_false]

/-! ## Paired words -/

theorem rowH_bits (op : HalfOp) : (rowH op.opcode).bind (fun p => (p op.bits).toOption) = some op := by
  cases op with
  | iadd w s => cases w <;> cases s <;> rfl
  | isub w s => cases w <;> cases s <;> rfl
  | imul w => cases w <;> rfl
  | imin w u => cases w <;> cases u <;> rfl
  | imax w u => cases w <;> cases u <;> rfl
  | shl w => cases w <;> rfl
  | shr w => cases w <;> rfl
  | shra w => cases w <;> rfl
  | and => rfl
  | or => rfl
  | xor => rfl
  | andn => rfl
  | mov => rfl
  | fadd t rm => cases t <;> cases rm <;> rfl
  | fsub t rm => cases t <;> cases rm <;> rfl
  | fmul t rm => cases t <;> cases rm <;> rfl
  | fmin t => cases t <;> rfl
  | fmax t => cases t <;> rfl

theorem rowH_some (op : HalfOp) : ∃ p, rowH op.opcode = some p ∧ p op.bits = .ok op := by
  have h := rowH_bits op
  cases hr : rowH op.opcode with
  | none => rw [hr] at h; cases h
  | some p =>
    rw [hr] at h
    refine ⟨p, rfl, ?_⟩
    simp only [Option.bind_some] at h
    cases hp : p op.bits with
    | error n => rw [hp] at h; cases h
    | ok x => rw [hp] at h; cases h; rfl

theorem opcode_ne_nop (op : HalfOp) : (op.opcode == 0xFF#8) = false := by cases op <;> rfl

theorem parseHalf_fields {h : Half} (hw : h.wf = true) : parseHalf h.fields = .ok h := by
  cases h with
  | nop => rfl
  | op b =>
    obtain ⟨op, bank, d, a, ld, kd, la, ka⟩ := b
    obtain ⟨p, hp, hb⟩ := rowH_some op
    have hbank : ∀ n : Fin 6, bankOf (BitVec.ofNat 3 n.val) = some n := by decide
    have hn := hw
    simp only [Half.wf, HalfBody.wf, Bool.and_eq_true, Bool.not_eq_true'] at hn
    have h1 := hint_bits ld kd hn.1
    have h2 := hint_bits la ka hn.2
    have h3 : parseHalf (Half.op ⟨op, bank, d, a, ld, kd, la, ka⟩).fields
        = parseHalfBody p (Half.op ⟨op, bank, d, a, ld, kd, la, ka⟩).fields := by
      rw [parseHalf, show ((Half.op ⟨op, bank, d, a, ld, kd, la, ka⟩).fields.op == 0xFF) = false from opcode_ne_nop op,
        show rowH (Half.op ⟨op, bank, d, a, ld, kd, la, ka⟩).fields.op = some p from hp]
      rfl
    have k1 : hintOk (BitVec.ofBool ld ++ BitVec.ofBool kd) = .ok () := by
      show need 5 (_ != 3#2) = _
      rw [h1]; rfl
    have k2 : hintOk (BitVec.ofBool la ++ BitVec.ofBool ka) = .ok () := by
      show need 5 (_ != 3#2) = _
      rw [h2]; rfl
    rw [h3]
    simp only [Half.fields, parseHalfBody, hb, hbank, k1, k2, hint_last, hint_keep, field_some, need_true, parse_ok_bind]

theorem halfListed_fields (h : Half) : halfListed h.fields = true := by
  cases h with
  | nop => rfl
  | op b =>
    obtain ⟨p, hp, _⟩ := rowH_some b.op
    simp only [Half.fields, halfListed, hp, Option.isSome_some, Bool.or_true]

theorem pairedWord_enc {h0 h1 : Half} (w0 : h0.wf = true) (w1 : h1.wf = true) :
    decodeWord (packPair h0.fields.pack h1.fields.pack) = .ok (.pairedWord h0 h1) := by
  have p63 : ∀ x y : BitVec 31, (packPair x y).getLsbD 63 = true := by
    intro x y
    show ((((1#1).append x).append 0#1).append y).getLsbD 63 = _
    simp only [bit_above, Nat.reduceAdd, Nat.reduceLeDiff, Nat.reduceSub]; rfl
  have p31 : ∀ x y : BitVec 31, (packPair x y).getLsbD 31 = false := by
    intro x y
    show ((((1#1).append x).append 0#1).append y).getLsbD 31 = _
    simp only [bit_above, bit_below, Nat.le_refl, Nat.sub_self, Nat.lt_one_iff]; rfl
  have q0 : ∀ x y : BitVec 31, (packPair x y).extractLsb' 32 31 = x := by
    intro x y
    show ((((1#1).append x).append 0#1).append y).extractLsb' 32 31 = _
    simp only [bits_above, bits_below, bits_all, Nat.reduceAdd, Nat.reduceLeDiff, Nat.reduceSub, Nat.le_refl, Nat.sub_self]
  have q1 : ∀ x y : BitVec 31, (packPair x y).extractLsb' 0 31 = y := by
    intro x y
    show ((((1#1).append x).append 0#1).append y).extractLsb' 0 31 = _
    simp only [bits_below, bits_all, Nat.reduceAdd, Nat.le_refl]
  rw [decodeWord, if_pos (p63 _ _)]
  simp only [decodePair, p31, q0, q1, FieldsH.split_pack, halfListed_fields, parseHalf_fields w0, parseHalf_fields w1,
    beq_self_eq_true, need_true, parse_ok_bind]

end Sys2Proof
end

