-- ==== Sys2Proof/Laws/Tier.lean ====
section
/-!
SUPPORT. The LPDDR6 sector cache (23 R320 to R322) as software sees it: a lookup moves bytes and changes no byte of memory.
-/
namespace Sys2Proof.Machine

/-! ## Copied ranges -/

theorem kget_filter {α : Type} (d : α) (m : KMap α) (p : Nat → Bool) (k : Nat) :
    kget d (m.filter fun e => p e.1) k = if p k = true then kget d m k else d := by
  induction m with
  | nil => simp [kget]
  | cons e r ih =>
    obtain ⟨k', y⟩ := e
    simp only [List.filter]
    by_cases h : p k' = true
    · simp only [h, kget, ih]
      by_cases hk : k = k'
      · subst hk; simp [h]
      · simp [hk]
    · simp only [h, kget]
      rw [ih]
      by_cases hk : k = k'
      · subst hk; simp [h]
      · simp [hk]

theorem kget_absent {α : Type} (d : α) (m : KMap α) (k : Nat) (h : ∀ e ∈ m, e.1 ≠ k) : kget d m k = d := by
  induction m with
  | nil => rfl
  | cons e r ih =>
    obtain ⟨k', y⟩ := e
    simp only [kget]
    rw [if_neg fun c => h (k', y) (by simp) c.symm]
    exact ih fun e he => h e (by simp [he])

/-- Two tables without a common key. -/
theorem kget_append_left {α : Type} (d : α) (m n : KMap α) (k : Nat) (h : ∀ e ∈ n, e.1 ≠ k) : kget d (m ++ n) k = kget d m k := by
  induction m with
  | nil => exact kget_absent d n k h
  | cons e r ih => obtain ⟨k', y⟩ := e; simp only [List.cons_append, kget, ih]

theorem kget_append_right {α : Type} (d : α) (m n : KMap α) (k : Nat) (h : ∀ e ∈ m, e.1 ≠ k) : kget d (m ++ n) k = kget d n k := by
  induction m with
  | nil => rfl
  | cons e r ih =>
    obtain ⟨k', y⟩ := e
    simp only [List.cons_append, kget]
    rw [if_neg fun c => h (k', y) (by simp) c.symm]
    exact ih fun e he => h e (by simp [he])

theorem kget_shift {α : Type} (d : α) (m : KMap α) (src dst k : Nat) (hs : ∀ e ∈ m, src ≤ e.1) (hk : dst ≤ k) :
    kget d (m.map fun e => (e.1 - src + dst, e.2)) k = kget d m (k - dst + src) := by
  induction m with
  | nil => rfl
  | cons e r ih =>
    obtain ⟨k', y⟩ := e
    simp only [List.map_cons, kget]
    have := hs (k', y) (by simp)
    dsimp only at this
    rw [ih fun e he => hs e (by simp [he])]
    by_cases h : k = k' - src + dst
    · rw [if_pos h, if_pos (by omega)]
    · rw [if_neg h, if_neg (by omega)]

/-- Reading after copying a range. -/
theorem kget_kcopy {α : Type} (d : α) (m : KMap α) (src dst n k : Nat) :
    kget d (kcopy m src dst n) k = if dst ≤ k ∧ k < dst + n then kget d m (k - dst + src) else kget d m k := by
  unfold kcopy
  have hsl : ∀ e ∈ kslice m src (src + n), src ≤ e.1 ∧ e.1 < src + n := fun e he => by simpa [kslice] using (List.mem_filter.mp he).2
  have hmv : ∀ e ∈ (kslice m src (src + n)).map (fun e => (e.1 - src + dst, e.2)), dst ≤ e.1 ∧ e.1 < dst + n := by
    intro e he
    obtain ⟨x, hx, rfl⟩ := List.mem_map.mp he
    have := hsl x hx
    dsimp only; omega
  have hlo : ∀ e ∈ (m.filter fun e => e.1 < dst), e.1 < dst := fun e he => by simpa using (List.mem_filter.mp he).2
  have hhi : ∀ e ∈ (m.filter fun e => dst + n ≤ e.1), dst + n ≤ e.1 := fun e he => by simpa using (List.mem_filter.mp he).2
  dsimp only
  by_cases h1 : k < dst
  · rw [List.append_assoc, kget_append_left _ _ _ _ fun e he => by
      rcases List.mem_append.mp he with he | he
      · have := hmv e he; omega
      · have := hhi e he; omega]
    rw [if_neg (by omega)]
    have := kget_filter d m (fun x => decide (x < dst)) k
    simpa [h1] using this
  · by_cases h2 : k < dst + n
    · rw [kget_append_left _ _ _ _ fun e he => by have := hhi e he; omega,
        kget_append_right _ _ _ _ fun e he => by have := hlo e he; omega, if_pos ⟨by omega, h2⟩,
        kget_shift _ _ _ _ _ (fun e he => (hsl e he).1) (by omega)]
      have := kget_filter d m (fun x => decide (src ≤ x) && decide (x < src + n)) (k - dst + src)
      rw [if_pos (by simp; omega)] at this
      exact this
    · rw [kget_append_right _ _ _ _ fun e he => by
        rcases List.mem_append.mp he with he | he
        · have := hlo e he; omega
        · have := hmv e he; omega]
      rw [if_neg (by omega)]
      have := kget_filter d m (fun x => decide (dst + n ≤ x)) k
      simpa [Nat.le_of_not_lt h2] using this

theorem State.moveBytes_byte (s : State) (src dst n k : Nat) :
    (s.moveBytes src dst n).byte k = if dst ≤ k ∧ k < dst + n then s.byte (k - dst + src) else s.byte k := kget_kcopy _ _ _ _ _ _

/-! ## Where bytes lie -/

theorem mem_of_kget {α : Type} {d : α} {m : KMap α} {k : Nat} (h : kget d m k ≠ d) : (k, kget d m k) ∈ m := by
  induction m with
  | nil => simp [kget] at h
  | cons e r ih =>
    obtain ⟨k', y⟩ := e
    simp only [kget] at *
    split
    · simp_all
    · simp_all

theorem State.sector_ok {s : State} (h : s.tierOk) {i : Nat} (hv : (s.sector i).valid = true) :
    (s.sector i).saddr % s.sectorCount = i ∧ (s.sector i).saddr < 2 ^ 30 :=
  h i _ (mem_of_kget fun e => by rw [State.sector, e] at hv; simp [Sector.reset] at hv) hv

theorem State.backing_lpddr {s : State} {p : Nat} (h : s.backing p = .lpddr) : p - 0x10000000000 < 2 ^ 41 := by
  unfold State.backing at h
  split at h
  · cases h
  · split at h
    · rename_i hp
      simp only [Bool.and_eq_true, decide_eq_true_eq] at hp
      omega
    · split at h <;> cases h

/-- A valid sector of its own index. -/
theorem State.tierOk_setSector {s u : State} (h : s.tierOk) (hs : u.sectors = s.sectors) (hc : u.sectorCount = s.sectorCount)
    {i : Nat} {x : Sector} (hx : x.valid = true → x.saddr % s.sectorCount = i ∧ x.saddr < 2 ^ 30) : (u.setSector i x).tierOk := by
  intro j y hy hv
  have e : (u.setSector i x).sectorCount = s.sectorCount := hc
  rw [e]
  unfold State.setSector at hy
  dsimp only at hy
  rw [hs] at hy
  rcases mem_kset hy with hy | hy
  · exact h j y hy hv
  · cases hy; exact hx hv


/-- The carve-out is one of four sizes. -/
theorem State.carve_cases {s : State} (h : s.boot.c ≤ 3) :
    s.carve = 0 ∨ s.carve = 2 ^ 36 ∨ s.carve = 2 ^ 37 ∨ s.carve = 2 ^ 38 := by
  unfold State.carve carveBytes
  have : s.boot.c = 0 ∨ s.boot.c = 1 ∨ s.boot.c = 2 ∨ s.boot.c = 3 := by omega
  rcases this with h | h | h | h <;> rw [h] <;> decide

/-- An LPDDR6 byte. -/
def lpByte (p : Nat) : Prop := 0x10000000000 ≤ p ∧ p < 0x30000000000

theorem State.backing_lpddr_iff {s : State} (h : s.boot.c ≤ 3) (p : Nat) : s.backing p = .lpddr ↔ lpByte p := by
  have hc : s.carve ≤ hbmTop := by rcases s.carve_cases h with c | c | c | c <;> rw [c] <;> decide
  unfold State.backing lpByte
  have ht : hbmTop = 0xC000000000 := rfl
  constructor
  · intro hb
    split at hb
    · cases hb
    · split at hb
      · rename_i h2; simpa using h2
      · split at hb <;> cases hb
  · intro hb
    rw [if_neg (by omega), if_pos (by simpa using hb)]

/-- A byte of memory outside the LPDDR6 tier is outside the sectors too. -/
theorem State.isMem_far {s : State} {p : Nat} (hp : s.isMem p) :
    lpByte p ∨ p < hbmTop - s.carve ∨ 0x30000000000 ≤ p := by
  have ht : hbmTop = 0xC000000000 := rfl
  unfold State.isMem State.backing at hp
  unfold lpByte
  rcases hp with hp | hp
  · split at hp
    · omega
    · split at hp
      · rename_i h2; left; simpa using h2
      · split at hp
        · rename_i h3; simp at h3; omega
        · exact absurd rfl hp
  · omega

/-- The sector cache is in order. -/
structure State.CacheOk (s : State) : Prop where
  tier : s.tierOk
  code : s.boot.c ≤ 3
  copies : s.copiesAgree

theorem State.Sound.cache {s : State} (h : s.Sound) : s.CacheOk := ⟨h.tier, h.boot.2.2, h.copies⟩

theorem State.carve_eq_count {s : State} (h : s.boot.c ≤ 3) : s.carve = 2048 * s.sectorCount ∧ s.carve ≤ hbmTop := by
  unfold State.sectorCount
  rcases s.carve_cases h with c | c | c | c <;> rw [c] <;> decide

/-- A sector's bytes lie in the carve-out. -/
theorem State.sectorBase_range {s : State} (h : s.boot.c ≤ 3) {i : Nat} (hi : i < s.sectorCount) :
    hbmTop - s.carve ≤ s.sectorBase i ∧ s.sectorBase i + 2048 ≤ hbmTop := by
  have hc := State.carve_eq_count h
  unfold State.sectorBase
  omega

theorem State.homeKey_not_lp {s : State} (h : s.boot.c ≤ 3) {p : Nat} (hp : ¬ lpByte p) : s.homeKey p = p := by
  unfold State.homeKey
  dsimp only
  rw [if_neg fun c => hp ((State.backing_lpddr_iff h p).mp c.1)]

/-- The home of an LPDDR6 byte. -/
theorem State.homeKey_lp {s : State} (h : s.boot.c ≤ 3) (hn : s.sectorCount ≠ 0) {p : Nat} (hp : lpByte p) :
    s.homeKey p = if (s.sector ((p - 0x10000000000) / 2048 % s.sectorCount)).valid = true
        ∧ (s.sector ((p - 0x10000000000) / 2048 % s.sectorCount)).saddr = (p - 0x10000000000) / 2048
      then s.sectorBase ((p - 0x10000000000) / 2048 % s.sectorCount) + (p - 0x10000000000) % 2048 else p := by
  unfold State.homeKey
  dsimp only
  simp only [(State.backing_lpddr_iff h p).mpr hp, hn, ne_eq, not_false_eq_true, true_and]

/-- What a lookup may change: nothing that software sees. -/
structure Serves (s t : State) : Prop where
  only : t = { s with mem := t.mem, bad := t.bad, sectors := t.sectors, counters := t.counters }
  cache : s.CacheOk → t.CacheOk
  same : s.CacheOk → ∀ p, s.isMem p → t.memByte p = s.memByte p

theorem Serves.refl (s : State) : Serves s s := ⟨rfl, id, fun _ _ _ => rfl⟩

theorem Serves.boot {s t : State} (h : Serves s t) : t.boot = s.boot := by rw [h.only]

theorem Serves.isMem {s t : State} (h : Serves s t) (p : Nat) : t.isMem p ↔ s.isMem p := by
  unfold State.isMem State.backing State.carve; rw [h.boot]

theorem Serves.trans {s t u : State} (h : Serves s t) (k : Serves t u) : Serves s u := by
  refine ⟨?_, fun c => k.cache (h.cache c), fun c p hp => ?_⟩
  · have e1 := h.only
    have e2 := k.only
    rw [e2, e1]
  · rw [k.same (h.cache c) p ((h.isMem p).mpr hp), h.same c p hp]

/-! ## A lookup (R321) -/

/-- Only the store, the sectors and the counters differ. -/
def OnlyTier (s t : State) : Prop :=
  t = { s with mem := t.mem, bad := t.bad, sectors := t.sectors, counters := t.counters }

theorem OnlyTier.refl (s : State) : OnlyTier s s := rfl

theorem OnlyTier.trans {s t u : State} (h : OnlyTier s t) (k : OnlyTier t u) : OnlyTier s u := by
  unfold OnlyTier at *; rw [k, h]

theorem onlyTier_addCounter (s : State) (c i n : Nat) : OnlyTier s (s.addCounter c i n) := by
  unfold OnlyTier State.addCounter; rfl

theorem onlyTier_countHbm (s : State) (a n : Nat) (w : Bool) : OnlyTier s (s.countHbm a n w) := onlyTier_addCounter _ _ _ _
theorem onlyTier_countLp (s : State) (a n : Nat) (w : Bool) : OnlyTier s (s.countLp a n w) := onlyTier_addCounter _ _ _ _

@[simp] theorem State.countHbm_byte (s : State) (a n : Nat) (w : Bool) (k : Nat) : (s.countHbm a n w).byte k = s.byte k := rfl
@[simp] theorem State.countLp_byte (s : State) (a n : Nat) (w : Bool) (k : Nat) : (s.countLp a n w).byte k = s.byte k := rfl

theorem onlyTier_moveBytes (s : State) (a b n : Nat) : OnlyTier s (s.moveBytes a b n) := by
  unfold OnlyTier State.moveBytes; rfl

theorem onlyTier_setSector (s : State) (i : Nat) (x : Sector) : OnlyTier s (s.setSector i x) := by
  unfold OnlyTier State.setSector; rfl

/-- Bytes of the store after the victim of a sector has been written back. -/
theorem State.evictSector_byte (s : State) (i : Nat) (x : Sector) (k : Nat) :
    (s.evictSector i x).byte k =
      if (x.valid = true ∧ x.dirty = true) ∧ lpKey (x.saddr * 2048) ≤ k ∧ k < lpKey (x.saddr * 2048) + 2048
      then s.byte (k - lpKey (x.saddr * 2048) + s.sectorBase i) else s.byte k := by
  unfold State.evictSector
  by_cases h : x.valid = true ∧ x.dirty = true
  · rw [if_pos (by simp [h])]
    rw [State.countLp_byte, State.countHbm_byte, State.addCounter_byte, State.moveBytes_byte]
    simp [h]
  · rw [if_neg (by simpa using h)]
    simp [h]

theorem State.evictSector_sectors (s : State) (i : Nat) (x : Sector) : (s.evictSector i x).sectors = s.sectors := by
  unfold State.evictSector; split <;> rfl

theorem State.evictSector_boot (s : State) (i : Nat) (x : Sector) : (s.evictSector i x).boot = s.boot := by
  unfold State.evictSector; split <;> rfl

theorem onlyTier_evictSector (s : State) (i : Nat) (x : Sector) : OnlyTier s (s.evictSector i x) := by
  unfold State.evictSector
  split
  · exact (((onlyTier_moveBytes _ _ _ _).trans (onlyTier_addCounter _ _ _ _)).trans (onlyTier_countHbm _ _ _ _)).trans
      (onlyTier_countLp _ _ _ _)
  · exact onlyTier_addCounter _ _ _ _

theorem State.sectorCount_boot {s t : State} (h : t.boot = s.boot) : t.sectorCount = s.sectorCount := by
  unfold State.sectorCount State.carve; rw [h]

/-- The state after a hit. -/
def State.hit (s : State) (i : Nat) (write : Bool) : State :=
  (s.addCounter 1 0 1).setSector i { s.sector i with dirty := (s.sector i).dirty || write }

/-- The state after a miss of the LPDDR6 address `a`. -/
def State.miss (s : State) (i a : Nat) (write : Bool) : State :=
  let s1 := s.evictSector i (s.sector i)
  (((s1.moveBytes (lpKey (a / 2048 * 2048)) (s1.sectorBase i) 2048).countLp a 2048 false).countHbm (s1.sectorBase i) 2048
    true).setSector i { saddr := a / 2048, valid := true, dirty := write, unknown := false }

theorem State.lookup_eq (s : State) (a : Nat) (write : Bool) :
    s.lookup a write =
      if (s.sector (a / 2048 % s.sectorCount)).unknown then (s.addCounter (1 + Config.member [s.tick, a] % 3) 0 1, false)
      else if (s.sector (a / 2048 % s.sectorCount)).valid && (s.sector (a / 2048 % s.sectorCount)).saddr == a / 2048 then
        (s.hit (a / 2048 % s.sectorCount) write, true)
      else (s.miss (a / 2048 % s.sectorCount) a write, true) := rfl

theorem State.hit_sector (s : State) (i : Nat) (write : Bool) (j : Nat) :
    (s.hit i write).sector j = if j = i then { s.sector i with dirty := (s.sector i).dirty || write } else s.sector j := by
  unfold State.hit; rw [State.setSector_sector]; rfl

theorem serves_hit (s : State) (i : Nat) (write : Bool) : Serves s (s.hit i write) := by
  have hv : ∀ j, ((s.hit i write).sector j).valid = (s.sector j).valid ∧ ((s.hit i write).sector j).saddr = (s.sector j).saddr := by
    intro j
    rw [State.hit_sector]
    split
    · rename_i h; subst h; exact ⟨rfl, rfl⟩
    · exact ⟨rfl, rfl⟩
  have hh : ∀ p, (s.hit i write).homeKey p = s.homeKey p := by
    intro p
    unfold State.homeKey
    dsimp only
    rw [show (s.hit i write).sectorCount = s.sectorCount from rfl, (hv _).1, (hv _).2]
    rfl
  refine ⟨rfl, fun h => ?_, fun h p _ => ?_⟩
  · refine ⟨?_, h.code, fun hn j hj hd o ho => ?_⟩
    · exact State.tierOk_setSector h.tier rfl rfl fun hvv => State.sector_ok h.tier hvv
    · have e := h.copies hn j
      rw [(hv j).1] at hj
      rw [(hv j).2]
      refine e hj ?_ o ho
      rw [State.hit_sector] at hd
      split at hd
      · rename_i hji; subst hji; cases hx : (s.sector j).dirty
        · rfl
        · rw [hx] at hd; simp at hd
      · exact hd
  · unfold State.memByte; rw [hh]; rfl

theorem State.miss_sector (s : State) (i a : Nat) (write : Bool) (j : Nat) :
    (s.miss i a write).sector j =
      if j = i then { saddr := a / 2048, valid := true, dirty := write, unknown := false } else s.sector j := by
  unfold State.miss
  dsimp only
  rw [State.setSector_sector]
  split
  · rfl
  · show kget _ (s.evictSector i (s.sector i)).sectors j = _
    rw [State.evictSector_sectors]; rfl

theorem State.miss_boot (s : State) (i a : Nat) (write : Bool) : (s.miss i a write).boot = s.boot := by
  show (s.evictSector i (s.sector i)).boot = _
  exact State.evictSector_boot _ _ _

theorem State.miss_count (s : State) (i a : Nat) (write : Bool) : (s.miss i a write).sectorCount = s.sectorCount := by
  exact State.sectorCount_boot (State.miss_boot s i a write)

theorem State.miss_base (s : State) (i a : Nat) (write : Bool) (j : Nat) : (s.miss i a write).sectorBase j = s.sectorBase j := by
  unfold State.sectorBase State.carve; rw [State.miss_boot]

theorem State.evictSector_base (s : State) (i : Nat) (x : Sector) (j : Nat) : (s.evictSector i x).sectorBase j = s.sectorBase j := by
  unfold State.sectorBase State.carve; rw [State.evictSector_boot]

theorem State.miss_byte (s : State) (i a : Nat) (write : Bool) (k : Nat) :
    (s.miss i a write).byte k =
      if s.sectorBase i ≤ k ∧ k < s.sectorBase i + 2048
      then (s.evictSector i (s.sector i)).byte (k - s.sectorBase i + lpKey (a / 2048 * 2048))
      else (s.evictSector i (s.sector i)).byte k := by
  unfold State.miss
  dsimp only
  rw [State.setSector_byte, State.countHbm_byte, State.countLp_byte, State.moveBytes_byte, State.evictSector_base]

theorem State.onlyTier_miss (s : State) (i a : Nat) (write : Bool) : OnlyTier s (s.miss i a write) := by
  unfold State.miss
  dsimp only
  exact ((((onlyTier_evictSector _ _ _).trans (onlyTier_moveBytes _ _ _ _)).trans (onlyTier_countLp _ _ _ _)).trans
    (onlyTier_countHbm _ _ _ _)).trans (onlyTier_setSector _ _ _)

/-- A miss changes no byte of memory: the victim goes home, and the new sector is a copy. -/
theorem serves_miss (s : State) (a : Nat) (write : Bool) (ha : a < 2 ^ 41) (hn : s.sectorCount ≠ 0)
    (hm : ¬ ((s.sector (a / 2048 % s.sectorCount)).valid = true ∧ (s.sector (a / 2048 % s.sectorCount)).saddr = a / 2048)) :
    Serves s (s.miss (a / 2048 % s.sectorCount) a write) := by
  generalize hi : a / 2048 % s.sectorCount = i at hm
  have hin : i < s.sectorCount := by rw [← hi]; exact Nat.mod_lt _ (Nat.pos_of_ne_zero hn)
  have htop : hbmTop = 0xC000000000 := rfl
  have hlp : ∀ x, lpKey x = 0x10000000000 + x := fun _ => rfl
  have hbyte : ∀ k, s.CacheOk → ¬ (hbmTop - s.carve ≤ k ∧ k < hbmTop) → ¬ lpByte k →
      (s.miss i a write).byte k = s.byte k := by
    intro k h h1 h2
    have hr := State.sectorBase_range h.code hin
    rw [State.miss_byte, if_neg (by omega), State.evictSector_byte, if_neg]
    intro ⟨⟨hv, _⟩, h3, h4⟩
    have := (State.sector_ok h.tier hv).2
    unfold lpByte at h2
    rw [hlp] at h3 h4
    omega
  have hsect : ∀ j o, s.CacheOk → j < s.sectorCount → o < 2048 → j ≠ i →
      (s.miss i a write).byte (s.sectorBase j + o) = s.byte (s.sectorBase j + o) := by
    intro j o h hj ho hji
    have hr := State.sectorBase_range h.code hj
    have hb : ∀ n, s.sectorBase n = hbmTop - s.carve + 2048 * n := fun _ => rfl
    rw [State.miss_byte, if_neg (by rw [hb, hb]; omega), State.evictSector_byte, if_neg]
    intro ⟨_, h3, _⟩
    rw [hlp] at h3
    omega
  have hlpb : ∀ p, s.CacheOk → lpByte p → (s.miss i a write).byte p =
      if (s.sector i).valid = true ∧ (s.sector i).dirty = true ∧ (s.sector i).saddr = (p - 0x10000000000) / 2048
      then s.byte (s.sectorBase i + (p - 0x10000000000) % 2048) else s.byte p := by
    intro p h hp
    have hr := State.sectorBase_range h.code hin
    unfold lpByte at hp
    rw [State.miss_byte, if_neg (by omega), State.evictSector_byte]
    by_cases hv : (s.sector i).valid = true ∧ (s.sector i).dirty = true
    · by_cases hs : (s.sector i).saddr = (p - 0x10000000000) / 2048
      · rw [if_pos ⟨hv, by rw [hlp]; omega⟩, if_pos ⟨hv.1, hv.2, hs⟩]
        exact congrArg s.byte (by rw [hlp]; omega)
      · rw [if_neg fun c => hs (by have := c.2; rw [hlp] at this; omega), if_neg fun c => hs c.2.2]
    · rw [if_neg fun c => hv c.1, if_neg fun c => hv ⟨c.1, c.2.1⟩]
  have hnew : ∀ o, s.CacheOk → o < 2048 →
      (s.miss i a write).byte (s.sectorBase i + o) = s.byte (lpKey (a / 2048 * 2048) + o) := by
    intro o h ho
    rw [State.miss_byte, if_pos (by omega), State.evictSector_byte, if_neg]
    · exact congrArg s.byte (by omega)
    · intro ⟨⟨hv, _⟩, h3, h4⟩
      rw [hlp, hlp] at h3 h4
      exact hm ⟨hv, by omega⟩
  refine ⟨State.onlyTier_miss _ _ _ _, fun h => ?_, fun h p hp => ?_⟩
  · refine ⟨?_, by rw [State.miss_boot]; exact h.code, fun _ j hj hd o ho => ?_⟩
    · unfold State.miss
      dsimp only
      refine State.tierOk_setSector (s := s) h.tier ?_ ?_ fun _ => ⟨hi, ?_⟩
      · exact State.evictSector_sectors s i (s.sector i)
      · exact State.sectorCount_boot (State.evictSector_boot s i (s.sector i))
      · show a / 2048 < 2 ^ 30
        omega
    · rw [State.miss_sector] at hj hd ⊢
      rw [State.miss_base]
      by_cases hji : j = i
      · subst hji
        simp only [if_true] at hd ⊢
        rw [hnew o h ho, hlpb _ h (by unfold lpByte; rw [hlp]; omega), if_neg]
        intro ⟨hv, _, hs⟩
        rw [hlp] at hs
        exact hm ⟨hv, by omega⟩
      · rw [if_neg hji] at hj hd ⊢
        have hok := State.sector_ok h.tier hj
        have hjn : j < s.sectorCount := by rw [← hok.1]; exact Nat.mod_lt _ (Nat.pos_of_ne_zero hn)
        rw [hsect j o h hjn ho hji, hlpb _ h (by unfold lpByte; rw [hlp]; omega), if_neg]
        · exact h.copies hn j hj hd o ho
        · intro ⟨hv, _, hs⟩
          have hik := (State.sector_ok h.tier hv).1
          rw [hlp] at hs
          have : (s.sector i).saddr = (s.sector j).saddr := by omega
          rw [this, hok.1] at hik
          exact hji hik
  · unfold State.memByte
    have hcode' : (s.miss i a write).boot.c ≤ 3 := by rw [State.miss_boot]; exact h.code
    by_cases hl : lpByte p
    · rw [State.homeKey_lp hcode' (by rw [State.miss_count]; exact hn) hl, State.homeKey_lp h.code hn hl, State.miss_count,
        State.miss_sector, State.miss_base]
      generalize hap : p - 0x10000000000 = ap
      have hp' : p = lpKey ap := by unfold lpByte at hl; rw [hlp]; omega
      by_cases hji : ap / 2048 % s.sectorCount = i
      · rw [hji, if_pos rfl]
        dsimp only
        by_cases hs : a / 2048 = ap / 2048
        · rw [if_pos ⟨rfl, hs⟩, hnew _ h (Nat.mod_lt _ (by decide)), if_neg (by rw [← hs]; exact hm)]
          exact congrArg s.byte (by rw [hp', hlp, hlp]; omega)
        · rw [if_neg fun c => hs c.2, hlpb p h hl, hap]
          by_cases hv : (s.sector i).valid = true ∧ (s.sector i).saddr = ap / 2048
          · rw [if_pos hv]
            by_cases hd : (s.sector i).dirty = true
            · rw [if_pos ⟨hv.1, hd, hv.2⟩]
            · rw [if_neg fun c => hd c.2.1, h.copies hn i hv.1 (by simpa using hd) _ (Nat.mod_lt ap (by decide)), hv.2]
              exact congrArg s.byte (by rw [hp', hlp, hlp]; omega)
          · rw [if_neg hv, if_neg fun c => hv ⟨c.1, c.2.2⟩]
      · rw [if_neg hji]
        have hjn : ap / 2048 % s.sectorCount < s.sectorCount := Nat.mod_lt _ (Nat.pos_of_ne_zero hn)
        by_cases hv : (s.sector (ap / 2048 % s.sectorCount)).valid = true
            ∧ (s.sector (ap / 2048 % s.sectorCount)).saddr = ap / 2048
        · rw [if_pos hv, hsect _ _ h hjn (Nat.mod_lt _ (by decide)) hji]
        · rw [if_neg hv, hlpb p h hl, if_neg]
          intro ⟨hvi, _, hs⟩
          rw [hap] at hs
          have := (State.sector_ok h.tier hvi).1
          rw [hs] at this
          exact hji this
    · rw [State.homeKey_not_lp hcode' hl, State.homeKey_not_lp h.code hl]
      refine hbyte p h ?_ hl
      rcases State.isMem_far hp with c | c | c
      · exact absurd c hl
      · omega
      · omega

theorem Serves.counter {s : State} (c i n : Nat) : Serves s (s.addCounter c i n) :=
  ⟨rfl, fun h => ⟨h.tier, h.code, h.copies⟩, fun _ _ _ => rfl⟩

theorem Serves.countHbm {s : State} (a n : Nat) (w : Bool) : Serves s (s.countHbm a n w) := Serves.counter _ _ _
theorem Serves.countLp {s : State} (a n : Nat) (w : Bool) : Serves s (s.countLp a n w) := Serves.counter _ _ _

theorem serves_lookup (s : State) (a : Nat) (write : Bool) (ha : a < 2 ^ 41) (hn : s.sectorCount ≠ 0) :
    Serves s (s.lookup a write).1 := by
  rw [State.lookup_eq]
  split
  · exact Serves.counter _ _ _
  · split
    · exact serves_hit s _ _
    · rename_i h
      exact serves_miss s a write ha hn (by simpa using h)

/-! ## Stores -/

/-- Byte `k` of the store can be written without making a clean sector stale. -/
def State.Loose (s : State) (k : Nat) : Prop :=
  s.sectorCount = 0 ∨ 2 ^ 51 ≤ k ∨ k < hbmTop - s.carve
    ∨ ∃ i o, i < s.sectorCount ∧ o < 2048 ∧ (s.sector i).dirty = true ∧ k = s.sectorBase i + o

theorem State.CacheOk.setByte {s : State} (h : s.CacheOk) {k : Nat} (hk : s.Loose k) (b : Byte) : (s.setByte k b).CacheOk := by
  refine ⟨h.tier, h.code, fun hn i hv hd o ho => ?_⟩
  have hok := State.sector_ok h.tier hv
  have hin : i < s.sectorCount := by rw [← hok.1]; exact Nat.mod_lt _ (Nat.pos_of_ne_zero hn)
  have hr := State.sectorBase_range h.code hin
  have ht : hbmTop = 0xC000000000 := rfl
  have hlp : ∀ x, lpKey x = 0x10000000000 + x := fun _ => rfl
  have hb : ∀ n, s.sectorBase n = hbmTop - s.carve + 2048 * n := fun _ => rfl
  have hs := hok.2
  have e := h.copies hn i hv hd o ho
  have hd' : (s.sector i).dirty = false := hd
  have hne : s.sectorBase i + o ≠ k ∧ lpKey ((s.sector i).saddr * 2048) + o ≠ k := by
    rcases hk with c | c | c | ⟨j, p, hj, hp, hdj, c⟩
    · exact absurd c hn
    · rw [hlp]; omega
    · rw [hlp]; omega
    · rw [hlp]
      have hrj := State.sectorBase_range h.code hj
      have hji : i ≠ j := fun e => by subst e; rw [hd'] at hdj; cases hdj
      rw [hb] at c
      rw [hb] at *
      omega
  change (s.setByte k b).byte (s.sectorBase i + o) = (s.setByte k b).byte (lpKey ((s.sector i).saddr * 2048) + o)
  rw [State.setByte_byte, State.setByte_byte, if_neg hne.1, if_neg hne.2]
  exact e

theorem State.CacheOk.setBytes {s : State} (h : s.CacheOk) {k : Nat} {bs : List Byte}
    (hk : ∀ j, j < bs.length → s.Loose (k + j)) : (s.setBytes k bs).CacheOk := by
  induction bs generalizing s k with
  | nil => exact h
  | cons b r ih =>
    refine ih (h.setByte (hk 0 (by simp)) b) fun j hj => ?_
    have := hk (j + 1) (by simpa using hj)
    rwa [show k + (j + 1) = k + 1 + j by omega] at this

theorem State.setBytes_byte (s : State) (k : Nat) (bs : List Byte) (j : Nat) :
    (s.setBytes k bs).byte j = if k ≤ j then (bs[j - k]?).getD (s.byte j) else s.byte j := by
  induction bs generalizing s k with
  | nil => simp [State.setBytes]
  | cons b r ih =>
    rw [State.setBytes, ih, State.setByte_byte]
    by_cases h1 : k + 1 ≤ j
    · rw [if_neg (show ¬ j = k by omega), if_pos h1, if_pos (show k ≤ j by omega), show j - k = (j - (k + 1)) + 1 by omega, List.getElem?_cons_succ]
    · rw [if_neg h1]
      by_cases h2 : j = k
      · subst h2; simp
      · rw [if_neg h2, if_neg (by omega)]

theorem State.setBytes_homeKey (s : State) (k : Nat) (bs : List Byte) (p : Nat) : (s.setBytes k bs).homeKey p = s.homeKey p := by
  induction bs generalizing s k with
  | nil => rfl
  | cons b r ih => rw [State.setBytes, ih]; rfl

theorem State.setBytes_only (s : State) (k : Nat) (bs : List Byte) : OnlyTier s (s.setBytes k bs) := by
  induction bs generalizing s k with
  | nil => exact OnlyTier.refl s
  | cons b r ih =>
    refine OnlyTier.trans (t := s.setByte k b) ?_ (ih _ _)
    unfold OnlyTier State.setByte; rfl

/-- Two bytes of memory never share a place. -/
theorem State.homeKey_inj {s : State} (h : s.CacheOk) {p q : Nat} (hp : s.isMem p) (hq : s.isMem q)
    (e : s.homeKey p = s.homeKey q) : p = q := by
  have ht : hbmTop = 0xC000000000 := rfl
  have hb : ∀ n, s.sectorBase n = hbmTop - s.carve + 2048 * n := fun _ => rfl
  by_cases hn : s.sectorCount = 0
  · have key : ∀ x, s.homeKey x = x := by
      intro x
      unfold State.homeKey
      dsimp only
      rw [if_neg fun c => c.2.1 hn]
    rwa [key, key] at e
  · have place : ∀ x, s.isMem x → (s.homeKey x = x ∧ (x < hbmTop - s.carve ∨ hbmTop ≤ x)) ∨
        (lpByte x ∧ (x - 0x10000000000) / 2048 % s.sectorCount < s.sectorCount
          ∧ (s.sector ((x - 0x10000000000) / 2048 % s.sectorCount)).saddr = (x - 0x10000000000) / 2048
          ∧ s.homeKey x = s.sectorBase ((x - 0x10000000000) / 2048 % s.sectorCount) + (x - 0x10000000000) % 2048) := by
      intro x hx
      by_cases hl : lpByte x
      · have hl' := hl
        unfold lpByte at hl'
        rw [State.homeKey_lp h.code hn hl]
        split
        · rename_i c
          exact .inr ⟨hl, Nat.mod_lt _ (Nat.pos_of_ne_zero hn), c.2, rfl⟩
        · exact .inl ⟨rfl, .inr (by omega)⟩
      · rw [State.homeKey_not_lp h.code hl]
        refine .inl ⟨rfl, ?_⟩
        rcases State.isMem_far hx with c | c | c
        · exact absurd c hl
        · exact .inl c
        · exact .inr (by omega)
    rcases place p hp with ⟨e1, f1⟩ | ⟨l1, b1, s1, e1⟩ <;> rcases place q hq with ⟨e2, f2⟩ | ⟨l2, b2, s2, e2⟩
    · rwa [e1, e2] at e
    · have := State.sectorBase_range h.code b2
      rw [e1, e2] at e
      omega
    · have := State.sectorBase_range h.code b1
      rw [e1, e2] at e
      omega
    · rw [e1, e2, hb, hb] at e
      have hij : (p - 0x10000000000) / 2048 % s.sectorCount = (q - 0x10000000000) / 2048 % s.sectorCount := by omega
      rw [hij, s2] at s1
      unfold lpByte at l1 l2
      omega

/-- What a write may change: the bytes of `W`. -/
structure Wrote (s t : State) (W : Nat → Prop) : Prop where
  only : OnlyTier s t
  cache : s.CacheOk → t.CacheOk
  same : s.CacheOk → ∀ p, s.isMem p → ¬ W p → t.memByte p = s.memByte p

theorem Serves.wrote {s t : State} (h : Serves s t) (W : Nat → Prop) : Wrote s t W :=
  ⟨h.only, h.cache, fun c p hp _ => h.same c p hp⟩

theorem OnlyTier.isMem {s t : State} (h : OnlyTier s t) (p : Nat) : t.isMem p ↔ s.isMem p := by
  have : t.boot = s.boot := by unfold OnlyTier at h; rw [h]
  unfold State.isMem State.backing State.carve; rw [this]

theorem Wrote.trans {s t u : State} {W : Nat → Prop} (h : Wrote s t W) (k : Wrote t u W) : Wrote s u W :=
  ⟨h.only.trans k.only, fun c => k.cache (h.cache c), fun c p hp hw => by
    rw [k.same (h.cache c) p ((h.only.isMem p).mpr hp) hw, h.same c p hp hw]⟩

theorem Wrote.mono {s t : State} {V W : Nat → Prop} (h : Wrote s t V) (hv : ∀ p, V p → W p) : Wrote s t W :=
  ⟨h.only, h.cache, fun c p hp hw => h.same c p hp fun v => hw (hv p v)⟩

/-! ## One request -/

/-- What a request answers: the place of every byte it covers, which a write may change. -/
structure Request (s t : State) (p n : Nat) (write : Bool) (k : Nat) : Prop where
  mem : s.CacheOk → p % 256 + n ≤ 256 → ∀ j, j < n → s.isMem (p + j)
  home : s.CacheOk → p % 256 + n ≤ 256 → ∀ j, j < n → t.homeKey (p + j) = k + j
  loose : s.CacheOk → p % 256 + n ≤ 256 → write = true → ∀ j, j < n → t.Loose (k + j)

theorem State.lookup_serves (s : State) (p n : Nat) (write : Bool) (hb : s.backing p = .lpddr) (hn : s.sectorCount ≠ 0)
    (hok : (s.lookup (p - 0x10000000000) write).2 = true) :
    Request s (s.lookup (p - 0x10000000000) write).1 p n write
      (s.sectorBase ((p - 0x10000000000) / 2048 % s.sectorCount) + (p - 0x10000000000) % 2048) := by
  have hsv := serves_lookup s (p - 0x10000000000) write (State.backing_lpddr hb) hn
  have hx : ∀ t, t = (s.lookup (p - 0x10000000000) write).1 → t.sectorCount = s.sectorCount ∧ (∀ i, t.sectorBase i = s.sectorBase i) := by
    intro t ht
    rw [← ht] at hsv
    have e := hsv.boot
    refine ⟨?_, fun i => ?_⟩
    · unfold State.sectorCount State.carve; rw [e]
    · unfold State.sectorBase State.carve; rw [e]
  generalize hi : (p - 0x10000000000) / 2048 % s.sectorCount = i
  have hst : ((s.lookup (p - 0x10000000000) write).1.sector i).valid = true
      ∧ ((s.lookup (p - 0x10000000000) write).1.sector i).saddr = (p - 0x10000000000) / 2048
      ∧ (write = true → ((s.lookup (p - 0x10000000000) write).1.sector i).dirty = true) := by
    rw [State.lookup_eq, hi] at hok ⊢
    split at hok
    · cases hok
    · rename_i hu
      rw [if_neg hu]
      split
      · rename_i hh
        rw [Bool.and_eq_true, beq_iff_eq] at hh
        dsimp only
        rw [State.hit_sector, if_pos rfl]
        exact ⟨hh.1, hh.2, fun hw => by simp [hw]⟩
      · dsimp only
        rw [State.miss_sector, if_pos rfl]
        exact ⟨rfl, rfl, id⟩
  generalize ht : (s.lookup (p - 0x10000000000) write).1 = t at *
  obtain ⟨hc, hbase⟩ := hx t rfl
  have hin : i < s.sectorCount := by rw [← hi]; exact Nat.mod_lt _ (Nat.pos_of_ne_zero hn)
  have hl : s.CacheOk → lpByte p := fun h => (State.backing_lpddr_iff h.code p).mp hb
  have hlj : s.CacheOk → p % 256 + n ≤ 256 → ∀ j, j < n → lpByte (p + j) := by
    intro h hp j hj
    have := hl h
    unfold lpByte at this ⊢
    omega
  refine ⟨fun h hp j hj => ?_, fun h hp j hj => ?_, fun h hp hw j hj => ?_⟩
  · left
    rw [(State.backing_lpddr_iff h.code _).mpr (hlj h hp j hj)]
    decide
  · have hlp := hlj h hp j hj
    have hl0 := hl h
    rw [State.homeKey_lp (by rw [hsv.boot]; exact h.code) (by rw [hc]; exact hn) hlp, hc]
    unfold lpByte at hlp hl0
    have hd : (p + j - 0x10000000000) / 2048 = (p - 0x10000000000) / 2048 := by omega
    rw [hd, hi, if_pos ⟨hst.1, hst.2.1⟩, hbase]
    omega
  · have hl0 := hl h
    unfold lpByte at hl0
    exact .inr (.inr (.inr ⟨i, (p - 0x10000000000) % 2048 + j, by rw [hc]; exact hin, by omega, hst.2.2 hw, by rw [hbase]; omega⟩))

theorem serves_request (s : State) (p n : Nat) (write : Bool) : Serves s (s.request p n write).1 := by
  unfold State.request
  split
  · rename_i hb
    dsimp only
    split
    · exact Serves.counter _ _ _
    · rename_i hn
      split
      · exact (serves_lookup s _ write (State.backing_lpddr hb) hn).trans (Serves.countHbm _ _ _)
      · exact serves_lookup s _ write (State.backing_lpddr hb) hn
  · split <;> exact Serves.refl s
  · exact Serves.countHbm _ _ _
  · exact Serves.refl s

theorem State.request_some {s : State} {p n k : Nat} {write : Bool} (hk : (s.request p n write).2 = some k) :
    Request s (s.request p n write).1 p n write k := by
  have ht : hbmTop = 0xC000000000 := rfl
  have plain : ∀ t : State, t.boot = s.boot → t.sectors = s.sectors → (s.CacheOk → p % 256 + n ≤ 256 → ∀ j, j < n →
      s.isMem (p + j) ∧ t.homeKey (p + j) = p + j ∧ t.Loose (p + j)) → Request s t p n write p := fun t _ _ h =>
    ⟨fun a b j c => (h a b j c).1, fun a b j c => (h a b j c).2.1, fun a b _ j c => (h a b j c).2.2⟩
  unfold State.request at hk ⊢
  split at hk
  · rename_i hb
    dsimp only at hk ⊢
    split at hk
    · rename_i hn
      rw [if_pos hn]
      cases hk
      refine plain _ rfl rfl fun h hp j hj => ?_
      have hl := (State.backing_lpddr_iff h.code p).mp hb
      have hlj : lpByte (p + j) := by unfold lpByte at hl ⊢; omega
      refine ⟨.inl (by rw [(State.backing_lpddr_iff h.code _).mpr hlj]; decide), ?_, .inl hn⟩
      unfold State.homeKey
      dsimp only
      rw [if_neg fun c => c.2.1 hn]
    · rename_i hn
      rw [if_neg hn]
      split at hk
      · rename_i hok
        rw [if_pos hok, ← Option.some.inj hk]
        have q := State.lookup_serves s p n write hb hn hok
        exact ⟨q.mem, q.home, q.loose⟩
      · cases hk
  · rename_i hb
    split at hk
    · rename_i hl
      rw [if_pos hl]
      cases hk
      refine plain _ rfl rfl fun h hp j hj => ?_
      rw [Bool.and_eq_true, decide_eq_true_eq] at hl
      have hr : 0x8000000000000 ≤ p ∧ p < 0xFFFFFFFFFFFFF := by
        unfold State.backing at hb
        split at hb
        · cases hb
        · split at hb
          · cases hb
          · split at hb
            · rename_i h3; simpa using h3
            · cases hb
      have hc := (State.carve_eq_count h.code).2
      refine ⟨.inl ?_, State.homeKey_not_lp h.code (by unfold lpByte; omega), .inr (.inl (by omega))⟩
      unfold State.backing
      rw [if_neg (by omega), if_neg (by simp; omega), if_pos (by simp; omega)]
      decide
    · cases hk
  · rename_i hb
    cases hk
    refine plain _ rfl rfl fun h hp j hj => ?_
    have hr : p < hbmTop - s.carve := by
      unfold State.backing at hb
      split at hb
      · assumption
      · split at hb
        · cases hb
        · split at hb <;> cases hb
    have hm : (hbmTop - s.carve) % 256 = 0 := by rcases s.carve_cases h.code with c | c | c | c <;> rw [c] <;> decide
    have hr' : p + j < hbmTop - s.carve := by omega
    refine ⟨.inl ?_, State.homeKey_not_lp h.code (by unfold lpByte; omega), .inr (.inr (.inl hr'))⟩
    unfold State.backing
    rw [if_pos hr']
    decide
  · cases hk

/-! ## Physical ranges -/

/-- The pieces run from `a` to `e` without a gap, each within one unit of `g` bytes. -/
def Chain (g : Nat) : Nat → List (Nat × Nat) → Nat → Prop
  | a, [], e => a = e
  | a, (x, n) :: r, e => x = a ∧ a % g + n ≤ g ∧ Chain g (a + n) r e

theorem chain_le {g : Nat} {a e : Nat} {l : List (Nat × Nat)} (h : Chain g a l e) : a ≤ e := by
  induction l generalizing a with
  | nil => exact Nat.le_of_eq h
  | cons x r ih => obtain ⟨x, n⟩ := x; have := ih h.2.2; omega

theorem chain_pieces (g p n : Nat) (hg : 0 < g) : Chain g p (pieces g p n) (p + n) := by
  unfold pieces
  split
  · rename_i h; exact h.symm ▸ rfl
  · rename_i h
    have hle : p / g ≤ (p + n - 1) / g := Nat.div_le_div_right (by omega)
    have key : ∀ m i, i + m = (p + n - 1) / g - p / g + 1 → 0 < m →
        Chain g (max p ((p / g + i) * g)) ((List.range' i m).map fun i =>
          (max p ((p / g + i) * g), min (p + n) ((p / g + i + 1) * g) - max p ((p / g + i) * g))) (p + n) := by
      intro m
      induction m with
      | zero => intro i _ h0; omega
      | succ m ih =>
        intro i hi _
        simp only [List.range'_succ, List.map_cons]
        have h1 : (p / g + i) * g ≤ p + n - 1 := Nat.le_trans (Nat.mul_le_mul_right g (by omega)) (Nat.div_mul_le_self _ _)
        have h2 : p / g * g ≤ p := Nat.div_mul_le_self _ _
        have h3 : p < (p / g + 1) * g := by have := Nat.lt_div_mul_add hg (a := p); rw [Nat.add_mul]; omega
        have h4 : (p / g + 1) * g ≤ (p / g + i + 1) * g := Nat.mul_le_mul_right g (by omega)
        have h5 : (p / g + i + 1) * g = (p / g + i) * g + g := by rw [Nat.add_mul]; omega
        have hmod : max p ((p / g + i) * g) % g + (min (p + n) ((p / g + i + 1) * g) - max p ((p / g + i) * g)) ≤ g := by
          by_cases hi0 : i = 0
          · subst hi0
            simp only [Nat.add_zero] at *
            rw [Nat.max_eq_left h2]
            have := Nat.mod_add_div p g
            rw [Nat.mul_comm] at this
            omega
          · have h6 : (p / g + 1) * g ≤ (p / g + i) * g := Nat.mul_le_mul_right g (by omega)
            rw [Nat.max_eq_right (by omega), Nat.mul_mod_left]
            omega
        refine ⟨rfl, hmod, ?_⟩
        rcases Nat.eq_zero_or_pos m with hm | hm
        · subst hm
          have h7 : p + n ≤ (p / g + i + 1) * g := by
            have h8 : p / g + i = (p + n - 1) / g := by omega
            have h9 := Nat.lt_div_mul_add hg (a := p + n - 1)
            rw [← h8] at h9
            omega
          show _ + _ = p + n
          rw [Nat.min_eq_left h7]
          omega
        · have h7 : (p / g + i + 1) * g ≤ p + n - 1 :=
            Nat.le_trans (Nat.mul_le_mul_right g (by omega)) (Nat.div_mul_le_self _ _)
          have e := ih (i + 1) (by omega) hm
          have h8 : (p / g + (i + 1)) * g = (p / g + i + 1) * g := by rw [Nat.add_assoc]
          rw [h8, Nat.max_eq_right (by omega)] at e
          rw [Nat.min_eq_right (by omega), show max p ((p / g + i) * g) + ((p / g + i + 1) * g - max p ((p / g + i) * g))
            = (p / g + i + 1) * g by omega]
          exact e
    have e := key _ 0 (Nat.zero_add _) (by omega)
    rw [Nat.add_zero, Nat.max_eq_left (Nat.div_mul_le_self _ _)] at e
    rw [List.range_eq_range']
    exact e

/-- Every byte of [a, e) is a byte of memory, and `bs` is what they read as. -/
def Reads (s : State) (a : Nat) (bs : List Byte) : Prop :=
  ∀ j, j < bs.length → s.isMem (a + j) ∧ bs[j]? = some (s.memByte (a + j))

theorem State.bytes_length (s : State) (k n : Nat) : (s.bytes k n).length = n := by simp [State.bytes]

theorem State.bytes_get (s : State) (k n j : Nat) (hj : j < n) : (s.bytes k n)[j]? = some (s.byte (k + j)) := by
  simp [State.bytes, hj]

theorem serves_physRead (s : State) (p n : Nat) : Serves s (s.physRead p n).1 := by
  unfold State.physRead
  generalize pieces 256 p n = l
  suffices h : ∀ acc : State × Option (List Byte), Serves s acc.1 → Serves s (l.foldl (fun acc pc =>
      let r := acc.1.request pc.1 pc.2 false
      match acc.2, r.2 with
      | some bs, some k => if r.1.isBad k pc.2 then (r.1, none) else (r.1, some (bs ++ r.1.bytes k pc.2))
      | _, _ => (r.1, none)) acc).1 from h _ (Serves.refl s)
  induction l with
  | nil => intro acc h; exact h
  | cons x r ih =>
    intro acc h
    refine ih _ ?_
    have := h.trans (serves_request acc.1 x.1 x.2 false)
    dsimp only
    split
    · split <;> exact this
    · exact this

/-- A physical read answers the bytes of memory (23 R319, R321). -/
theorem physRead_reads {s : State} (hc : s.CacheOk) {p n : Nat} {bs : List Byte} (h : (s.physRead p n).2 = some bs) :
    bs.length = n ∧ Reads s p bs := by
  unfold State.physRead at h
  have hch := chain_pieces 256 p n (by decide)
  revert hch h
  generalize pieces 256 p n = l
  suffices key : ∀ (l : List (Nat × Nat)) (acc : State × Option (List Byte)) (a : Nat), Serves s acc.1 → Chain 256 a l (p + n) →
      (∀ xs, acc.2 = some xs → p + xs.length = a ∧ Reads s p xs) →
      ∀ bs, (l.foldl (fun acc pc =>
        let r := acc.1.request pc.1 pc.2 false
        match acc.2, r.2 with
        | some bs, some k => if r.1.isBad k pc.2 then (r.1, none) else (r.1, some (bs ++ r.1.bytes k pc.2))
        | _, _ => (r.1, none)) acc).2 = some bs → bs.length = n ∧ Reads s p bs from
    fun h hch => key l (s, some []) p (Serves.refl s) hch (fun xs hx => by
      cases hx; exact ⟨rfl, fun j hj => absurd hj (Nat.not_lt_zero _)⟩) bs h
  intro l
  induction l with
  | nil =>
    intro acc a hs hch hx bs hb
    obtain ⟨h1, h2⟩ := hx bs hb
    exact ⟨by have : a = p + n := hch; omega, h2⟩
  | cons x r ih =>
    obtain ⟨x, m⟩ := x
    intro acc a hs hch hx bs hb
    obtain ⟨rfl, hm, hch⟩ := hch
    refine ih _ (x + m) ?_ hch ?_ bs hb
    · have := hs.trans (serves_request acc.1 x m false)
      dsimp only
      split
      · split <;> exact this
      · exact this
    · intro xs hxs
      dsimp only at hxs
      split at hxs
      · rename_i ys k hy hk
        obtain ⟨h1, h2⟩ := hx ys hy
        have hrq := State.request_some hk
        have hsr := serves_request acc.1 x m false
        split at hxs
        · cases hxs
        · obtain rfl := Option.some.inj hxs
          refine ⟨by rw [List.length_append, State.bytes_length]; omega, fun j hj => ?_⟩
          rw [List.length_append, State.bytes_length] at hj
          by_cases hjy : j < ys.length
          · rw [List.getElem?_append_left hjy]; exact h2 j hjy
          · rw [List.getElem?_append_right (Nat.le_of_not_lt hjy), State.bytes_get _ _ _ _ (by omega)]
            have hpj : p + j = x + (j - ys.length) := by omega
            have hmem := hrq.mem (hs.cache hc) hm (j - ys.length) (by omega)
            have hhome := hrq.home (hs.cache hc) hm (j - ys.length) (by omega)
            rw [hpj]
            have hmem' := (hs.isMem _).mp hmem
            refine ⟨hmem', ?_⟩
            rw [← hs.same hc _ hmem', ← hsr.same (hs.cache hc) _ hmem]
            unfold State.memByte
            rw [hhome]
      · cases hxs

/-- A store at the place of some bytes of memory. -/
theorem setBytes_wrote {s : State} (h : s.CacheOk) {k q : Nat} {bs : List Byte} (hmem : ∀ j, j < bs.length → s.isMem (q + j))
    (hhome : ∀ j, j < bs.length → s.homeKey (q + j) = k + j) :
    (∀ p, s.isMem p → ¬ (q ≤ p ∧ p < q + bs.length) → (s.setBytes k bs).memByte p = s.memByte p)
      ∧ ∀ j, j < bs.length → bs[j]? = some ((s.setBytes k bs).memByte (q + j)) := by
  refine ⟨fun p hp hw => ?_, fun j hj => ?_⟩
  · unfold State.memByte
    rw [State.setBytes_homeKey, State.setBytes_byte]
    split
    · rename_i hk
      cases hx : bs[s.homeKey p - k]? with
      | none => rfl
      | some b =>
        exfalso
        have hlt : s.homeKey p - k < bs.length := by
          rcases Nat.lt_or_ge (s.homeKey p - k) bs.length with c | c
          · exact c
          · rw [List.getElem?_eq_none c] at hx; cases hx
        have e := hhome _ hlt
        have := State.homeKey_inj h hp (hmem _ hlt) (by rw [e]; omega)
        exact hw (by omega)
    · rfl
  · unfold State.memByte
    rw [State.setBytes_homeKey, State.setBytes_byte, hhome j hj, if_pos (Nat.le_add_right _ _), Nat.add_sub_cancel_left,
      List.getElem?_eq_getElem hj]
    rfl

/-- A physical write changes its own bytes only, and when it succeeds they read as written (23 R319, R321). -/
theorem physWrite_wrote (s : State) (p : Nat) (bs : List Byte) :
    Wrote s (s.physWrite p bs).1 (fun q => p ≤ q ∧ q < p + bs.length)
      ∧ (s.CacheOk → (s.physWrite p bs).2 = true → Reads (s.physWrite p bs).1 p bs) := by
  unfold State.physWrite
  have hch := chain_pieces 256 p bs.length (by decide)
  revert hch
  generalize pieces 256 p bs.length = l
  suffices key : ∀ (l : List (Nat × Nat)) (acc : State × Bool) (a : Nat), p ≤ a →
      Wrote s acc.1 (fun q => p ≤ q ∧ q < p + bs.length) → Chain 256 a l (p + bs.length) →
      (s.CacheOk → acc.2 = true → ∀ j, p + j < a → s.isMem (p + j) ∧ bs[j]? = some (acc.1.memByte (p + j))) →
      ∀ u, u = l.foldl (fun acc pc =>
        let r := acc.1.request pc.1 pc.2 true
        match r.2 with
        | some k => (r.1.setBytes k ((bs.drop (pc.1 - p)).take pc.2), acc.2)
        | none => (r.1, false)) acc →
      Wrote s u.1 (fun q => p ≤ q ∧ q < p + bs.length)
        ∧ (s.CacheOk → u.2 = true → ∀ j, p + j < p + bs.length → s.isMem (p + j) ∧ bs[j]? = some (u.1.memByte (p + j))) by
    intro hch
    obtain ⟨h1, h2⟩ := key l (s, true) p (Nat.le_refl _) ((Serves.refl s).wrote _) hch (fun _ _ j hj => by omega) _ rfl
    refine ⟨h1, fun hc ht j hj => ?_⟩
    obtain ⟨h3, h4⟩ := h2 hc ht j (by omega)
    exact ⟨(h1.only.isMem _).mpr h3, h4⟩
  intro l
  induction l with
  | nil =>
    rintro acc a _ hw hch hx u rfl
    have : a = p + bs.length := hch
    subst this
    exact ⟨hw, hx⟩
  | cons x r ih =>
    obtain ⟨x, m⟩ := x
    intro acc a ha hw hch hx u hu
    obtain ⟨rfl, hm, hch⟩ := hch
    have hle := chain_le hch
    have hsr := serves_request acc.1 x m true
    have hxb : ∀ k, (acc.1.request x m true).2 = some k →
        Wrote acc.1 ((acc.1.request x m true).1.setBytes k ((bs.drop (x - p)).take m)) (fun q => x ≤ q ∧ q < x + m)
          ∧ (acc.1.CacheOk → ∀ j, j < m → bs[x - p + j]? =
              some (((acc.1.request x m true).1.setBytes k ((bs.drop (x - p)).take m)).memByte (x + j))) := by
      intro k hk
      have hrq := State.request_some hk
      have hlen : ((bs.drop (x - p)).take m).length = m := by simp; omega
      have e := fun c : acc.1.CacheOk => setBytes_wrote (hsr.cache c) (k := k) (q := x) (bs := (bs.drop (x - p)).take m)
        (by rw [hlen]; exact fun j hj => (hsr.isMem _).mpr (hrq.mem c hm j hj)) (by rw [hlen]; exact hrq.home c hm)
      rw [hlen] at e
      refine ⟨⟨OnlyTier.trans hsr.only (State.setBytes_only _ _ _), fun c => (hsr.cache c).setBytes ?_, fun c q hq hw => ?_⟩,
        fun c j hj => ?_⟩
      · rw [hlen]; exact hrq.loose c hm rfl
      · rw [(e c).1 q ((hsr.isMem _).mpr hq) hw, hsr.same c q hq]
      · rw [← (e c).2 j hj, List.getElem?_take, if_pos hj, List.getElem?_drop]
    refine ih _ (x + m) (by omega) ?_ hch ?_ u hu
    · dsimp only
      split
      · rename_i k hk
        exact hw.trans ((hxb k hk).1.mono fun q hq => by omega)
      · exact hw.trans (hsr.wrote _)
    · intro hc ht j hj
      dsimp only at ht ⊢
      split at ht
      · rename_i k hk
        obtain ⟨h1, h2⟩ := hxb k hk
        by_cases hjx : p + j < x
        · obtain ⟨h3, h4⟩ := hx hc ht j hjx
          refine ⟨h3, ?_⟩
          dsimp only
          rw [h1.same (hw.cache hc) _ ((hw.only.isMem _).mpr h3) (by omega)]
          exact h4
        · have e := h2 (hw.cache hc) (p + j - x) (by omega)
          rw [show x - p + (p + j - x) = j by omega, show x + (p + j - x) = p + j by omega] at e
          refine ⟨?_, e⟩
          have := (State.request_some hk).mem (hw.cache hc) hm (p + j - x) (by omega)
          rw [show x + (p + j - x) = p + j by omega] at this
          exact (hw.only.isMem _).mp this
      · cases ht

theorem State.carve_only {s t : State} (h : OnlyTier s t) : t.carve = s.carve := by rw [h]; rfl

/-- A write that ends below the sectors' part of HBM4E succeeds (23 R318, R319). -/
theorem physWrite_hbm (s : State) (p : Nat) (bs : List Byte) (h : p + bs.length < hbmTop - s.carve) : (s.physWrite p bs).2 = true := by
  unfold State.physWrite
  have hch := chain_pieces 256 p bs.length (by decide)
  generalize pieces 256 p bs.length = l at hch
  suffices key : ∀ (l : List (Nat × Nat)) (acc : State × Bool) (a : Nat), acc.1.carve = s.carve → acc.2 = true →
      Chain 256 a l (p + bs.length) → (l.foldl (fun acc pc =>
        let r := acc.1.request pc.1 pc.2 true
        match r.2 with
        | some k => (r.1.setBytes k ((bs.drop (pc.1 - p)).take pc.2), acc.2)
        | none => (r.1, false)) acc).2 = true from key l _ p rfl rfl hch
  intro l
  induction l with
  | nil => exact fun _ _ _ h _ => h
  | cons x r ih =>
    intro acc a hc ht hl
    obtain ⟨x, n⟩ := x
    obtain ⟨rfl, _, hl⟩ := hl
    have hlt : x < hbmTop - acc.1.carve := by have := chain_le hl; omega
    have hq : acc.1.request x n true = (acc.1.countHbm x n true, some x) := by
      simp [State.request, State.backing, hlt]
    refine ih _ (x + n) ?_ ?_ hl
    · simp only [hq]
      exact (State.carve_only (State.setBytes_only _ _ _)).trans hc
    · simpa only [hq] using ht
end Sys2Proof.Machine
end

