-- ==== Sys2Proof/Laws/Keeps.lean ====
section
/-!
SUPPORT. What every operation of the model leaves alone: the bring-up state, the power state and the time base; and what it
keeps: memory in canonical form, the sectors at their own index, and a clean sector equal to the device. `Keeps z s` says so of a state `s` reached from `z`.
-/
namespace Sys2Proof.Machine

structure Keeps (z s : State) : Prop where
  boot : s.boot = z.boot
  power : s.power = z.power
  time : s.time = z.time
  mem : Memory.wf z.mem = true → Memory.wf s.mem = true
  tier : z.tierOk → s.tierOk
  copies : z.CacheOk → s.copiesAgree

/-- `copiesAgree` of its three parts. -/
def CopiesAgree (mem : List Host.Cell) (sectors : KMap Sector) (carve : Nat) : Prop :=
  carve / 2048 ≠ 0 → ∀ i, (kget Sector.reset sectors i).valid = true → (kget Sector.reset sectors i).dirty = false →
    ∀ o, o < 2048 → kget (0 : Byte) mem (hbmTop - carve + 2048 * i + o)
      = kget (0 : Byte) mem (lpKey ((kget Sector.reset sectors i).saddr * 2048) + o)

/-- The same of the six fields by themselves. -/
structure KeepsCore (z : State) (m : List Host.Cell) (sectors : KMap Sector) (time : TimeState) (power : PowerState)
    (boot : BootState) : Prop where
  boot : boot = z.boot
  power : power = z.power
  time : time = z.time
  mem : Memory.wf z.mem = true → Memory.wf m = true
  tier : z.tierOk → ∀ i x, (i, x) ∈ sectors → x.valid = true → x.saddr % z.sectorCount = i ∧ x.saddr < 2 ^ 30
  copies : z.CacheOk → CopiesAgree m sectors z.carve

theorem Keeps.carve {z s : State} (h : Keeps z s) : s.carve = z.carve := by unfold State.carve; rw [h.boot]

theorem Keeps.cache {z s : State} (h : Keeps z s) (c : z.CacheOk) : s.CacheOk :=
  ⟨h.tier c.tier, by rw [h.boot]; exact c.code, h.copies c⟩

theorem Keeps.core {z s : State} (h : Keeps z s) : KeepsCore z s.mem s.sectors s.time s.power s.boot :=
  ⟨h.boot, h.power, h.time, h.mem, fun ht i x hx hv => by
    have := h.tier ht i x hx hv
    rwa [show s.sectorCount = z.sectorCount by simp [State.sectorCount, State.carve, h.boot]] at this,
    fun c => by rw [← h.carve]; exact h.copies c⟩

/-- A change of the store above every sector and every LPDDR6 byte. -/
theorem CopiesAgree.far {m n : List Host.Cell} {x : KMap Sector} {c : Nat} (h : CopiesAgree m x c)
    (hx : ∀ i, c / 2048 ≠ 0 → (kget Sector.reset x i).valid = true → i < c / 2048 ∧ (kget Sector.reset x i).saddr < 2 ^ 30)
    (hc : c ≤ hbmTop) (hmn : ∀ k, k < 2 ^ 51 → kget (0 : Byte) n k = kget (0 : Byte) m k) : CopiesAgree n x c := by
  intro hn i hv hd o ho
  have ht : hbmTop = 0xC000000000 := rfl
  have hlp : ∀ x, lpKey x = 0x10000000000 + x := fun _ => rfl
  obtain ⟨h1, h2⟩ := hx i hn hv
  rw [hmn _ (by omega), hmn _ (by rw [hlp]; omega)]
  exact h hn i hv hd o ho

theorem Keeps.far {z s : State} (h : Keeps z s) (c : z.CacheOk) {n : List Host.Cell}
    (hmn : ∀ k, k < 2 ^ 51 → kget (0 : Byte) n k = kget (0 : Byte) s.mem k) : CopiesAgree n s.sectors z.carve := by
  have hc := (h.cache c)
  refine (h.core.copies c).far (fun i hn hv => ?_) ?_ hmn
  · have := State.sector_ok hc.tier hv
    rw [State.sectorCount, h.carve] at this
    exact ⟨by rw [← this.1]; exact Nat.mod_lt _ (Nat.pos_of_ne_zero hn), this.2⟩
  · rw [← h.carve]; exact (State.carve_eq_count hc.code).2

/-- Memory loses a range of cells. -/
theorem Keeps.coreCut {z s : State} (h : Keeps z s) {lo hi : Nat} (hlo : 2 ^ 51 ≤ lo) :
    KeepsCore z (kcut s.mem lo hi) s.sectors s.time s.power s.boot :=
  ⟨h.boot, h.power, h.time, fun x => kwf_kcut _ _ (h.mem x), h.core.tier, fun c => h.far c fun k hk => by
    have := kget_filter (0 : Byte) s.mem (fun x => !(decide (lo ≤ x) && decide (x < hi))) k
    unfold kcut
    rw [this, if_pos (by simp; omega)]⟩

theorem KeepsCore.keeps {z s : State} (h : KeepsCore z s.mem s.sectors s.time s.power s.boot) : Keeps z s :=
  ⟨h.boot, h.power, h.time, h.mem, fun ht i x hx hv => by
    have := h.tier ht i x hx hv
    rwa [show s.sectorCount = z.sectorCount by simp [State.sectorCount, State.carve, h.boot]],
    fun c => by
      have e : s.carve = z.carve := by unfold State.carve; rw [h.boot]
      have := h.copies c
      rw [← e] at this
      exact this⟩

/-- A state given field by field. -/
theorem keeps_mk {z : State} {mem : List Host.Cell} {bad : List Nat} {groups : KMap Group} {teams : KMap Team}
    {grids : KMap Grid} {graphs : KMap Graph} {nodes : KMap Node} {jobs : KMap Job} {parts : KMap Partition}
    {cores : KMap Core} {clusters : KMap Cluster} {links : KMap Link} {sectors : KMap Sector} {counters : KMap Word}
    {held : List Held} {past : List Past} {afences : List AliasFence} {areas : List MergeArea} {portsDown : BitVec 16}
    {sent : List Sent} {time : TimeState} {power : PowerState} {boot : BootState} {card : CardState} {nextTeam nextJob nextOrder focus : Nat} {word : Word} {schedule : List Turn}
    {tick choices : Nat} :
    Keeps z { mem := mem, bad := bad, groups := groups, teams := teams, grids := grids, graphs := graphs, nodes := nodes,
              jobs := jobs, parts := parts, cores := cores, clusters := clusters, links := links, sectors := sectors,
              counters := counters, held := held, past := past, afences := afences, areas := areas,
              portsDown := portsDown, sent := sent, time := time, power := power, boot := boot, card := card, nextTeam := nextTeam, nextJob := nextJob, nextOrder := nextOrder, focus := focus,
              word := word, schedule := schedule, tick := tick, choices := choices }
      ↔ KeepsCore z mem sectors time power boot :=
  ⟨fun h => h.core, fun h => KeepsCore.keeps h⟩

namespace Keeps

theorem refl (z : State) : Keeps z z := ⟨rfl, rfl, rfl, id, id, fun c => c.copies⟩

/-- A change of the store above the sectors and LPDDR6 that keeps the canonical form. -/
theorem store {z s : State} (h : Keeps z s) {m : List Host.Cell} {b : List Nat}
    (hm : Memory.wf s.mem = true → Memory.wf m = true)
    (hf : ∀ k, k < 2 ^ 51 → kget (0 : Byte) m k = kget (0 : Byte) s.mem k) : Keeps z { s with mem := m, bad := b } :=
  keeps_mk.2 ⟨h.boot, h.power, h.time, fun x => hm (h.mem x), h.core.tier, fun c => h.far c hf⟩

theorem foldl {z : State} {β : Type} {f : State → β → State} {l : List β} {s : State} (h : Keeps z s)
    (hf : ∀ u b, Keeps z u → Keeps z (f u b)) : Keeps z (l.foldl f s) := by
  induction l generalizing s with
  | nil => exact h
  | cons b r ih => exact ih (hf s b h)

/-- A fold that carries a value beside the state. -/
theorem foldlFst {z : State} {β γ : Type} {f : State × γ → β → State × γ} {l : List β} {p : State × γ} (h : Keeps z p.1)
    (hf : ∀ q b, Keeps z q.1 → Keeps z (f q b).1) : Keeps z (l.foldl f p).1 := by
  induction l generalizing p with
  | nil => exact h
  | cons b r ih => exact ih (hf p b h)

end Keeps

theorem Memory.wf_kset {m : List Host.Cell} (k : Nat) (b : Byte) (h : Memory.wf m = true) : Memory.wf (kset 0 m k b) = true :=
  kwf_kset k b h

theorem keeps_setByte {z s : State} (h : Keeps z s) {k : Nat} {b : Byte} (hk : s.CacheOk → s.Loose k) : Keeps z (s.setByte k b) :=
  ⟨h.boot, h.power, h.time, fun x => Memory.wf_kset _ _ (h.mem x), h.tier, fun c => ((h.cache c).setByte (hk (h.cache c)) b).copies⟩

theorem State.setBytes_wf (s : State) (k : Nat) (bs : List Byte) (h : Memory.wf s.mem = true) :
    Memory.wf (s.setBytes k bs).mem = true := by
  induction bs generalizing s k with
  | nil => exact h
  | cons b r ih => exact ih _ _ (Memory.wf_kset _ _ h)

theorem State.setBytes_tier (s : State) (k : Nat) (bs : List Byte) (h : s.tierOk) : (s.setBytes k bs).tierOk := by
  induction bs generalizing s k with
  | nil => exact h
  | cons b r ih => exact ih (s.setByte k b) (k + 1) h

theorem keeps_setSector {z s : State} (h : Keeps z s) {i : Nat} {x : Sector}
    (hx : z.tierOk → x.valid = true → x.saddr % s.sectorCount = i ∧ x.saddr < 2 ^ 30) 
    (hc : s.CacheOk → x.valid = true → x.dirty = false → (s.sector i).valid = true ∧ (s.sector i).dirty = false ∧ x.saddr = (s.sector i).saddr) :
    Keeps z (s.setSector i x) := by
  refine ⟨h.boot, h.power, h.time, h.mem, fun ht j y hy hv => ?_, fun c hn j hv hd o ho => ?_⟩
  · rcases mem_kset hy with hy | hy
    · exact h.tier ht j y hy hv
    · cases hy; exact hx ht hv
  · have e := (h.cache c).copies hn
    rw [State.setSector_sector] at hv hd ⊢
    by_cases hj : j = i
    · rw [if_pos hj] at hv hd ⊢
      obtain ⟨h1, h2, h3⟩ := hc (h.cache c) hv hd
      rw [h3]
      subst hj
      exact e j h1 h2 o ho
    · rw [if_neg hj] at hv hd ⊢
      exact e j hv hd o ho

theorem keeps_addCounter {z s : State} (h : Keeps z s) {c i n : Nat} : Keeps z (s.addCounter c i n) := keeps_mk.2 h.core

theorem State.sectorCount_eq {z s : State} (h : Keeps z s) : s.sectorCount = z.sectorCount := by
  simp [State.sectorCount, State.carve, h.boot]

/-- An operation on the tier alone that keeps the canonical form. -/
theorem Keeps.tierOnly {z s t : State} (h : Keeps z s) (ho : OnlyTier s t) (hm : Memory.wf s.mem = true → Memory.wf t.mem = true)
    (ht : s.tierOk → t.tierOk) (hc : s.CacheOk → t.CacheOk) : Keeps z t := by
  unfold OnlyTier at ho
  refine ⟨?_, ?_, ?_, fun x => hm (h.mem x), fun x => ht (h.tier x), fun c => (hc (h.cache c)).copies⟩
  · rw [ho]; exact h.boot
  · rw [ho]; exact h.power
  · rw [ho]; exact h.time

theorem keeps_setBytes {z s : State} (h : Keeps z s) {k : Nat} {bs : List Byte}
    (hk : s.CacheOk → ∀ j, j < bs.length → s.Loose (k + j)) : Keeps z (s.setBytes k bs) :=
  h.tierOnly (s.setBytes_only k bs) (s.setBytes_wf k bs) (s.setBytes_tier k bs) fun c => c.setBytes (hk c)

/-- Bytes of host memory, a scratchpad or the chip scratchpad. -/
theorem keeps_setFar {z s : State} (h : Keeps z s) {k : Nat} {bs : List Byte} (hk : 2 ^ 51 ≤ k) : Keeps z (s.setBytes k bs) :=
  keeps_setBytes h fun _ _ _ => .inr (.inl (Nat.le_trans hk (Nat.le_add_right _ _)))

/-! ## Physical accesses -/

theorem State.evictSector_wf (s : State) (i : Nat) (x : Sector) (h : Memory.wf s.mem = true) :
    Memory.wf (s.evictSector i x).mem = true := by
  unfold State.evictSector
  split
  · exact kwf_kcopy _ _ _ h
  · exact h

theorem State.miss_wf (s : State) (i a : Nat) (w : Bool) (h : Memory.wf s.mem = true) : Memory.wf (s.miss i a w).mem = true := by
  unfold State.miss
  dsimp only
  exact kwf_kcopy _ _ _ (State.evictSector_wf _ _ _ h)

theorem State.lookup_wf (s : State) (a : Nat) (w : Bool) (h : Memory.wf s.mem = true) : Memory.wf (s.lookup a w).1.mem = true := by
  rw [State.lookup_eq]
  split
  · exact h
  · split
    · exact h
    · exact State.miss_wf _ _ _ _ h

theorem State.lookup_tier (s : State) (a : Nat) (w : Bool) (ha : a < 2 ^ 41) (h : s.tierOk) : (s.lookup a w).1.tierOk := by
  rw [State.lookup_eq]
  split
  · exact h
  · split
    · exact State.tierOk_setSector h rfl rfl fun hv => State.sector_ok h hv
    · generalize hi : a / 2048 % s.sectorCount = i
      unfold State.miss
      dsimp only
      refine State.tierOk_setSector (s := s) h ?_ ?_ fun _ => ⟨hi, ?_⟩
      · exact State.evictSector_sectors s i (s.sector i)
      · exact State.sectorCount_boot (State.evictSector_boot s i (s.sector i))
      · show a / 2048 < 2 ^ 30
        omega

theorem State.request_wf (s : State) (p n : Nat) (w : Bool) (h : Memory.wf s.mem = true) :
    Memory.wf (s.request p n w).1.mem = true := by
  unfold State.request
  split
  · dsimp only
    split
    · exact h
    · split <;> exact State.lookup_wf _ _ _ h
  · split <;> exact h
  · exact h
  · exact h

theorem State.request_tier (s : State) (p n : Nat) (w : Bool) (h : s.tierOk) : (s.request p n w).1.tierOk := by
  unfold State.request
  split
  · rename_i hb
    dsimp only
    split
    · exact h
    · split <;> exact State.lookup_tier _ _ _ (State.backing_lpddr hb) h
  · split <;> exact h
  · exact h
  · exact h

theorem keeps_request {z s : State} (h : Keeps z s) {p n : Nat} {w : Bool} : Keeps z (s.request p n w).1 :=
  h.tierOnly (serves_request s p n w).only (s.request_wf p n w) (s.request_tier p n w) (serves_request s p n w).cache

theorem keeps_physRead {z s : State} (h : Keeps z s) {p n : Nat} : Keeps z (s.physRead p n).1 := by
  unfold State.physRead
  refine Keeps.foldlFst h fun q b hq => ?_
  dsimp only
  split
  · split <;> exact keeps_request hq
  · exact keeps_request hq

theorem foldlFst {α β γ : Type} {P : α → Prop} {f : α × γ → β → α × γ} {l : List β} {p : α × γ} (h : P p.1)
    (hf : ∀ q b, P q.1 → P (f q b).1) : P (l.foldl f p).1 := by
  induction l generalizing p with
  | nil => exact h
  | cons b r ih => exact ih (hf p b h)

theorem State.physWrite_wf (s : State) (p : Nat) (bs : List Byte) (h : Memory.wf s.mem = true) :
    Memory.wf (s.physWrite p bs).1.mem = true := by
  unfold State.physWrite
  refine foldlFst (P := fun u : State => Memory.wf u.mem = true) h fun q b hq => ?_
  dsimp only
  split
  · exact State.setBytes_wf _ _ _ (State.request_wf _ _ _ _ hq)
  · exact State.request_wf _ _ _ _ hq

theorem State.physWrite_tier (s : State) (p : Nat) (bs : List Byte) (h : s.tierOk) : (s.physWrite p bs).1.tierOk := by
  unfold State.physWrite
  refine foldlFst (P := State.tierOk) h fun q b hq => ?_
  dsimp only
  split
  · exact State.setBytes_tier _ _ _ (State.request_tier _ _ _ _ hq)
  · exact State.request_tier _ _ _ _ hq

theorem keeps_physWrite {z s : State} (h : Keeps z s) {p : Nat} {bs : List Byte} : Keeps z (s.physWrite p bs).1 :=
  h.tierOnly (physWrite_wrote s p bs).1.only (s.physWrite_wf p bs) (s.physWrite_tier p bs) (physWrite_wrote s p bs).1.cache

end Sys2Proof.Machine
end

