-- ==== Sys2Proof/Laws/KeepsOps.lean ====
section
/-!
SUPPORT. `Keeps` for the operations of Phys, Ops, Events, Life.
-/
set_option linter.unusedSimpArgs false
namespace Sys2Proof.Machine

theorem keeps_countHbm {z0 : State} {s : State} {a n : Nat} {write : Bool} (hs : Keeps z0 s) :
    Keeps z0 (State.countHbm s a n write) := by
  unfold State.countHbm
  try dsimp only
  repeat' (first | with_reducible assumption | with_reducible apply keeps_addCounter | (simp only [keeps_mk]; with_reducible apply Keeps.core) | (intro; try dsimp only) | split | dsimp only | contradiction)

theorem keeps_countLp {z0 : State} {s : State} {a n : Nat} {write : Bool} (hs : Keeps z0 s) :
    Keeps z0 (State.countLp s a n write) := by
  unfold State.countLp
  try dsimp only
  repeat' (first | with_reducible assumption | with_reducible apply keeps_addCounter | (simp only [keeps_mk]; with_reducible apply Keeps.core) | (intro; try dsimp only) | split | dsimp only | contradiction)

theorem keeps_hostLevels {z0 : State} {ipa : Nat} {ls : List Level} {s : State} {t : Nat} (hs : Keeps z0 s) :
    Keeps z0 (hostLevels ipa ls s t).1 := by
  induction ls generalizing s t with
  | nil => exact hs
  | cons l r ih =>
    unfold hostLevels
    dsimp only
    repeat' (first | assumption | with_reducible apply ih | with_reducible apply keeps_physRead | split)

theorem keeps_hostWalk {z0 : State} {s : State} {root : Word} {ipa : Nat} (hs : Keeps z0 s) :
    Keeps z0 (hostWalk s root ipa).1 := by
  unfold hostWalk
  try dsimp only
  repeat' (first | with_reducible assumption | with_reducible apply keeps_hostLevels | (simp only [keeps_mk]; with_reducible apply Keeps.core) | (intro; try dsimp only) | split | dsimp only | contradiction)

theorem keeps_partLevels {z0 : State} {hsroot : Word} {va : Nat} {ls : List Level} {s : State} {t : Nat} (hs : Keeps z0 s) :
    Keeps z0 (partLevels hsroot va ls s t).1 := by
  induction ls generalizing s t with
  | nil => exact hs
  | cons l r ih =>
    unfold partLevels
    dsimp only
    repeat' (first | assumption | with_reducible apply ih | with_reducible apply keeps_physRead |
      with_reducible apply keeps_hostWalk | split)

theorem keeps_partWalk {z0 : State} {s : State} {ptroot hsroot : Word} {va : Nat} (hs : Keeps z0 s) :
    Keeps z0 (partWalk s ptroot hsroot va).1 := by
  unfold partWalk
  try dsimp only
  repeat' (first | with_reducible assumption | with_reducible apply keeps_partLevels | (simp only [keeps_mk]; with_reducible apply Keeps.core) | (intro; try dsimp only) | split | dsimp only | contradiction)

theorem keeps_setPart {z0 : State} {s : State} {p : Nat} {x : Partition} (hs : Keeps z0 s) :
    Keeps z0 (State.setPart s p x) := by
  unfold State.setPart
  try dsimp only
  repeat' (first | with_reducible assumption | (simp only [keeps_mk]; with_reducible apply Keeps.core) | (intro; try dsimp only) | split | dsimp only | contradiction)

theorem keeps_walk {z0 : State} {s : State} {core part : Nat} {n : Need} {va : Nat} (hs : Keeps z0 s) :
    Keeps z0 (State.walk s core part n va).1 := by
  unfold State.walk
  try dsimp only
  repeat' (first | with_reducible assumption | with_reducible apply keeps_hostWalk | with_reducible apply keeps_partWalk | (simp only [keeps_mk]; with_reducible apply Keeps.core) | (intro; try dsimp only) | split | dsimp only | contradiction)

theorem keeps_countWalk {z0 : State} {s : State} {core : Nat} (hs : Keeps z0 s) :
    Keeps z0 (State.countWalk s core) := by
  unfold State.countWalk
  try dsimp only
  repeat' (first | with_reducible assumption | with_reducible apply keeps_addCounter | (simp only [keeps_mk]; with_reducible apply Keeps.core) | (intro; try dsimp only) | split | dsimp only | contradiction)

theorem keeps_translate {z0 : State} {s : State} {core part : Nat} {n : Need} {va : Nat} (hs : Keeps z0 s) :
    Keeps z0 (State.translate s core part n va).1 := by
  unfold State.translate
  try dsimp only
  repeat' (first | with_reducible assumption | with_reducible apply keeps_countWalk | with_reducible apply keeps_walk | (simp only [keeps_mk]; with_reducible apply Keeps.core) | (intro; try dsimp only) | split | dsimp only | contradiction)

theorem keeps_translateRange {z0 : State} {s : State} {core part : Nat} {n : Need} {va len : Nat} (hs : Keeps z0 s) :
    Keeps z0 (State.translateRange s core part n va len).1 := by
  unfold State.translateRange
  try dsimp only
  repeat' (first | with_reducible assumption | with_reducible apply keeps_translate | with_reducible apply Keeps.foldl | with_reducible apply Keeps.foldlFst | (simp only [keeps_mk]; with_reducible apply Keeps.core) | (intro; try dsimp only) | split | dsimp only | contradiction)

theorem keeps_tryRange {z0 : State} {s : State} {p n : Nat} {write : Bool} (hs : Keeps z0 s) :
    Keeps z0 (State.tryRange s p n write) := by
  unfold State.tryRange
  exact Keeps.foldl hs fun u b hu => keeps_request hu

theorem keeps_remember {z0 : State} {s : State} {w : Writer} {va whole : Option Nat} {ks : List Nat} (hs : Keeps z0 s) :
    Keeps z0 (State.remember s w va ks whole) := by
  unfold State.remember
  try dsimp only
  repeat' (first | with_reducible assumption | (simp only [keeps_mk]; with_reducible apply Keeps.core) | (intro; try dsimp only) | split | dsimp only | contradiction)

theorem keeps_readPieces {z0 : State} {v : Option View} {va : Nat} {ws : List (Where × Nat)} {s : State} (hs : Keeps z0 s) :
    Keeps z0 (s.readPieces v va ws).1 := by
  induction ws generalizing s va with
  | nil => exact hs
  | cons w r ih =>
    unfold State.readPieces
    dsimp only
    repeat' (first | assumption | with_reducible apply ih | with_reducible apply keeps_physRead | split)

theorem keeps_vread {z0 : State} {s : State} {core part : Nat} {va len : Nat} {w : Option View} (hs : Keeps z0 s) :
    Keeps z0 (State.vread s core part va len w).1 := by
  unfold State.vread
  try dsimp only
  repeat' (first | with_reducible assumption | with_reducible apply keeps_translateRange | with_reducible apply keeps_readPieces | (simp only [keeps_mk]; with_reducible apply Keeps.core) | (intro; try dsimp only) | split | dsimp only | contradiction)

theorem keeps_writePieces {z0 : State} {s : State} {ws : List (Where × Nat)} {bs : List Byte} (hs : Keeps z0 s) :
    Keeps z0 (State.writePieces s ws bs).1 := by
  unfold State.writePieces
  try dsimp only
  repeat' (first | with_reducible assumption | with_reducible apply keeps_physWrite | with_reducible apply Keeps.foldl | with_reducible apply Keeps.foldlFst | (simp only [keeps_mk]; with_reducible apply Keeps.core) | (intro; try dsimp only) | split | dsimp only | contradiction)

theorem keeps_vwrite {z0 : State} {s : State} {core part : Nat} {va : Nat} {bs : List Byte} (hs : Keeps z0 s) :
    Keeps z0 (State.vwrite s core part va bs).1 := by
  unfold State.vwrite
  try dsimp only
  repeat' (first | with_reducible assumption | with_reducible apply keeps_translateRange | with_reducible apply keeps_writePieces | (simp only [keeps_mk]; with_reducible apply Keeps.core) | (intro; try dsimp only) | split | dsimp only | contradiction)

theorem keeps_setGrp {z0 : State} {s : State} {k : Nat} {g : Group} (hs : Keeps z0 s) :
    Keeps z0 (State.setGrp s k g) := by
  unfold State.setGrp
  try dsimp only
  repeat' (first | with_reducible assumption | (simp only [keeps_mk]; with_reducible apply Keeps.core) | (intro; try dsimp only) | split | dsimp only | contradiction)

theorem keeps_setMe {z0 : State} {s : State} {g : Group} (hs : Keeps z0 s) :
    Keeps z0 (State.setMe s g) := by
  unfold State.setMe
  try dsimp only
  repeat' (first | with_reducible assumption | with_reducible apply keeps_setGrp | (simp only [keeps_mk]; with_reducible apply Keeps.core) | (intro; try dsimp only) | split | dsimp only | contradiction)

theorem keeps_setTeam {z0 : State} {s : State} {k : Nat} {t : Team} (hs : Keeps z0 s) :
    Keeps z0 (State.setTeam s k t) := by
  unfold State.setTeam
  try dsimp only
  repeat' (first | with_reducible assumption | (simp only [keeps_mk]; with_reducible apply Keeps.core) | (intro; try dsimp only) | split | dsimp only | contradiction)

theorem keeps_setGrid {z0 : State} {s : State} {k : Nat} {x : Grid} (hs : Keeps z0 s) :
    Keeps z0 (State.setGrid s k x) := by
  unfold State.setGrid
  try dsimp only
  repeat' (first | with_reducible assumption | (simp only [keeps_mk]; with_reducible apply Keeps.core) | (intro; try dsimp only) | split | dsimp only | contradiction)

theorem keeps_setCore {z0 : State} {s : State} {k : Nat} {x : Core} (hs : Keeps z0 s) :
    Keeps z0 (State.setCore s k x) := by
  unfold State.setCore
  try dsimp only
  repeat' (first | with_reducible assumption | (simp only [keeps_mk]; with_reducible apply Keeps.core) | (intro; try dsimp only) | split | dsimp only | contradiction)

theorem keeps_setJob {z0 : State} {s : State} {k : Nat} {x : Job} (hs : Keeps z0 s) :
    Keeps z0 (State.setJob s k x) := by
  unfold State.setJob
  try dsimp only
  repeat' (first | with_reducible assumption | (simp only [keeps_mk]; with_reducible apply Keeps.core) | (intro; try dsimp only) | split | dsimp only | contradiction)

theorem keeps_setNode {z0 : State} {s : State} {k : Nat} {x : Node} (hs : Keeps z0 s) :
    Keeps z0 (State.setNode s k x) := by
  unfold State.setNode
  try dsimp only
  repeat' (first | with_reducible assumption | (simp only [keeps_mk]; with_reducible apply Keeps.core) | (intro; try dsimp only) | split | dsimp only | contradiction)

theorem keeps_setGraph {z0 : State} {s : State} {k : Nat} {x : Graph} (hs : Keeps z0 s) :
    Keeps z0 (State.setGraph s k x) := by
  unfold State.setGraph
  try dsimp only
  repeat' (first | with_reducible assumption | (simp only [keeps_mk]; with_reducible apply Keeps.core) | (intro; try dsimp only) | split | dsimp only | contradiction)

theorem keeps_setCluster {z0 : State} {s : State} {k : Nat} {x : Cluster} (hs : Keeps z0 s) :
    Keeps z0 (State.setCluster s k x) := by
  unfold State.setCluster
  try dsimp only
  repeat' (first | with_reducible assumption | (simp only [keeps_mk]; with_reducible apply Keeps.core) | (intro; try dsimp only) | split | dsimp only | contradiction)

theorem keeps_setLink {z0 : State} {s : State} {k : Nat} {x : Link} (hs : Keeps z0 s) :
    Keeps z0 (State.setLink s k x) := by
  unfold State.setLink
  try dsimp only
  repeat' (first | with_reducible assumption | (simp only [keeps_mk]; with_reducible apply Keeps.core) | (intro; try dsimp only) | split | dsimp only | contradiction)

theorem keeps_choose {z0 : State} {s : State} (hs : Keeps z0 s) :
    Keeps z0 (State.choose s).1 := by
  unfold State.choose
  try dsimp only
  repeat' (first | with_reducible assumption | (simp only [keeps_mk]; with_reducible apply Keeps.core) | (intro; try dsimp only) | split | dsimp only | contradiction)

theorem keeps_irq {z0 : State} {s : State} {n : Nat} (hs : Keeps z0 s) :
    Keeps z0 (State.irq s n) := by
  unfold State.irq
  try dsimp only
  repeat' (first | with_reducible assumption | (simp only [keeps_mk]; with_reducible apply Keeps.core) | (intro; try dsimp only) | split | dsimp only | contradiction)

theorem keeps_sendUp {z0 : State} {s : State} {n kind grid arg0 arg1 : Nat} (hs : Keeps z0 s) :
    Keeps z0 (State.sendUp s n kind grid arg0 arg1) := by
  unfold State.sendUp
  try dsimp only
  repeat' (first | with_reducible assumption | with_reducible apply keeps_setLink | (simp only [keeps_mk]; with_reducible apply Keeps.core) | (intro; try dsimp only) | split | dsimp only | contradiction)

theorem keeps_sendDown {z0 : State} {s : State} {n kind grid arg0 arg1 : Nat} (hs : Keeps z0 s) :
    Keeps z0 (State.sendDown s n kind grid arg0 arg1) := by
  unfold State.sendDown
  try dsimp only
  repeat' (first | with_reducible assumption | with_reducible apply keeps_setLink | (simp only [keeps_mk]; with_reducible apply Keeps.core) | (intro; try dsimp only) | split | dsimp only | contradiction)

theorem keeps_writeRecord {z0 : State} {s : State} {part : Nat} {host : Bool} {r : Record} (hs : Keeps z0 s) :
    Keeps z0 (State.writeRecord s part host r).1 := by
  unfold State.writeRecord
  try dsimp only
  repeat' (first | with_reducible assumption | with_reducible apply keeps_physWrite | with_reducible apply keeps_setPart | with_reducible apply keeps_setJob | with_reducible apply keeps_sendUp | with_reducible apply keeps_irq | (simp only [keeps_mk]; with_reducible apply Keeps.core) | (intro; try dsimp only) | split | dsimp only | contradiction)

theorem keeps_post {z0 : State} {s : State} {part : Nat} {host : Bool} {r : Record} (hs : Keeps z0 s) :
    Keeps z0 (State.post s part host r) := by
  unfold State.post
  try dsimp only
  repeat' (first | with_reducible assumption | with_reducible apply keeps_writeRecord | with_reducible apply keeps_setPart | (simp only [keeps_mk]; with_reducible apply Keeps.core) | (intro; try dsimp only) | split | dsimp only | contradiction)

theorem keeps_trapGroup {z0 : State} {s : State} {k : Nat} {pc word cause : Word} (hs : Keeps z0 s) :
    Keeps z0 (State.trapGroup s k pc word cause) := by
  unfold State.trapGroup
  try dsimp only
  repeat' (first | with_reducible assumption | with_reducible apply keeps_setGrp | with_reducible apply keeps_post | (simp only [keeps_mk]; with_reducible apply Keeps.core) | (intro; try dsimp only) | split | dsimp only | contradiction)

theorem keeps_trap {z0 : State} {s : State} {c : Cause} {order : Nat} {half : Nat} {flags : Nat} (hs : Keeps z0 s) :
    Keeps z0 (State.trap s c order half flags) := by
  unfold State.trap
  try dsimp only
  repeat' (first | with_reducible assumption | with_reducible apply keeps_trapGroup | (simp only [keeps_mk]; with_reducible apply Keeps.core) | (intro; try dsimp only) | split | dsimp only | contradiction)

theorem keeps_parkFault {z0 : State} {s : State} {k : Nat} {gang : List Nat} {r : Record} (hs : Keeps z0 s) :
    Keeps z0 (State.parkFault s k gang r) := by
  unfold State.parkFault
  try dsimp only
  repeat' (first | with_reducible assumption | with_reducible apply keeps_setGrp | with_reducible apply keeps_post | (simp only [keeps_mk]; with_reducible apply Keeps.core) | (intro; try dsimp only) | split | dsimp only | contradiction)

theorem keeps_memFaultAt {z0 : State} {s : State} {f : MemFault} {pc : Word} (hs : Keeps z0 s) :
    Keeps z0 (State.memFaultAt s f pc) := by
  unfold State.memFaultAt
  try dsimp only
  repeat' (first | with_reducible assumption | with_reducible apply keeps_parkFault | (simp only [keeps_mk]; with_reducible apply Keeps.core) | (intro; try dsimp only) | split | dsimp only | contradiction)

theorem keeps_memFault {z0 : State} {s : State} {f : MemFault} (hs : Keeps z0 s) :
    Keeps z0 (State.memFault s f) := by
  unfold State.memFault
  try dsimp only
  repeat' (first | with_reducible assumption | with_reducible apply keeps_memFaultAt | (simp only [keeps_mk]; with_reducible apply Keeps.core) | (intro; try dsimp only) | split | dsimp only | contradiction)

theorem keeps_dropGrow {z0 : State} {s : State} {cores : List Nat} {k : Nat} (hs : Keeps z0 s) :
    Keeps z0 (State.dropGrow s cores k) := by
  unfold State.dropGrow
  try dsimp only
  repeat' (first | with_reducible assumption | with_reducible apply keeps_setCore | with_reducible apply Keeps.foldl | with_reducible apply Keeps.foldlFst | (simp only [keeps_mk]; with_reducible apply Keeps.core) | (intro; try dsimp only) | split | dsimp only | contradiction)

theorem keeps_endGroup {z0 : State} {s : State} {k : Nat} (hs : Keeps z0 s) :
    Keeps z0 (State.endGroup s k) := by
  unfold State.endGroup
  try dsimp only
  repeat' (first | with_reducible assumption | with_reducible apply keeps_dropGrow | with_reducible apply keeps_setCore | with_reducible apply keeps_setGrp | (simp only [keeps_mk]; with_reducible apply Keeps.core) | (intro; try dsimp only) | split | dsimp only | contradiction)

theorem keeps_divertGroup {z0 : State} {s : State} {k : Nat} (hs : Keeps z0 s) :
    Keeps z0 (State.divertGroup s k) := by
  unfold State.divertGroup
  try dsimp only
  repeat' (first | with_reducible assumption | with_reducible apply keeps_endGroup | with_reducible apply keeps_setGrp | (simp only [keeps_mk]; with_reducible apply Keeps.core) | (intro; try dsimp only) | split | dsimp only | contradiction)

theorem keeps_wakeGroup {z0 : State} {s : State} {k : Nat} {g : Group} (hs : Keeps z0 s) :
    Keeps z0 (State.wakeGroup s k g) := by
  unfold State.wakeGroup
  try dsimp only
  repeat' (first | with_reducible assumption | with_reducible apply keeps_divertGroup | with_reducible apply keeps_setGrp | (simp only [keeps_mk]; with_reducible apply Keeps.core) | (intro; try dsimp only) | split | dsimp only | contradiction)

theorem keeps_issue {z0 : State} {s : State} {role : Role → Bool} {ops : List Opd} {k : State → State} (hs : Keeps z0 s) (hk : ∀ u, Keeps z0 u → Keeps z0 (k u)) :
    Keeps z0 (State.issue s role ops k) := by
  unfold State.issue
  try dsimp only
  repeat' (first | with_reducible assumption | with_reducible apply hk | with_reducible apply keeps_setMe | with_reducible apply keeps_trap | (simp only [keeps_mk]; with_reducible apply Keeps.core) | (intro; try dsimp only) | split | dsimp only | contradiction)

theorem keeps_issueRun {z0 : State} {s : State} {role : Role → Bool} {ops : List Opd} {runs : List (Opd × Nat)} {k : State → State} (hs : Keeps z0 s) (hk : ∀ u, Keeps z0 u → Keeps z0 (k u)) :
    Keeps z0 (State.issueRun s role ops runs k) := by
  unfold State.issueRun
  try dsimp only
  repeat' (first | with_reducible assumption | with_reducible apply hk | with_reducible apply keeps_setMe | with_reducible apply keeps_trap | (simp only [keeps_mk]; with_reducible apply Keeps.core) | (intro; try dsimp only) | split | dsimp only | contradiction)

theorem keeps_commit {z0 : State} {s : State} (hs : Keeps z0 s) :
    Keeps z0 (State.commit s) := by
  unfold State.commit
  try dsimp only
  repeat' (first | with_reducible assumption | with_reducible apply keeps_setMe | (simp only [keeps_mk]; with_reducible apply Keeps.core) | (intro; try dsimp only) | split | dsimp only | contradiction)

theorem keeps_simple {z0 : State} {s : State} {gd : Guard} {ops : List Opd} {body : List Nat → Group → Group} (hs : Keeps z0 s) :
    Keeps z0 (State.simple s gd ops body) := by
  unfold State.simple
  try dsimp only
  repeat' (first | with_reducible assumption | with_reducible apply keeps_setMe | with_reducible apply keeps_issue | (simp only [keeps_mk]; with_reducible apply Keeps.core) | (intro; try dsimp only) | split | dsimp only | contradiction)

theorem keeps_refreshWake {z0 : State} {s : State} {tk : Nat} (hs : Keeps z0 s) :
    Keeps z0 (State.refreshWake s tk) := by
  unfold State.refreshWake
  try dsimp only
  repeat' (first | with_reducible assumption | with_reducible apply keeps_physWrite | (simp only [keeps_mk]; with_reducible apply Keeps.core) | (intro; try dsimp only) | split | dsimp only | contradiction)

theorem keeps_raiseEvent {z0 : State} {s : State} {k bit : Nat} (hs : Keeps z0 s) :
    Keeps z0 (State.raiseEvent s k bit) := by
  unfold State.raiseEvent
  try dsimp only
  repeat' (first | with_reducible assumption | with_reducible apply keeps_refreshWake | with_reducible apply keeps_setGrp | (simp only [keeps_mk]; with_reducible apply Keeps.core) | (intro; try dsimp only) | split | dsimp only | contradiction)

theorem keeps_raiseAll {z0 : State} {s : State} {ks : List Nat} {bit : Nat} (hs : Keeps z0 s) :
    Keeps z0 (State.raiseAll s ks bit) := by
  unfold State.raiseAll
  try dsimp only
  repeat' (first | with_reducible assumption | with_reducible apply keeps_raiseEvent | with_reducible apply Keeps.foldl | with_reducible apply Keeps.foldlFst | (simp only [keeps_mk]; with_reducible apply Keeps.core) | (intro; try dsimp only) | split | dsimp only | contradiction)

theorem keeps_unblock {z0 : State} {s : State} {k : Nat} (hs : Keeps z0 s) :
    Keeps z0 (State.unblock s k) := by
  unfold State.unblock
  try dsimp only
  repeat' (first | with_reducible assumption | with_reducible apply keeps_refreshWake | with_reducible apply keeps_wakeGroup | (simp only [keeps_mk]; with_reducible apply Keeps.core) | (intro; try dsimp only) | split | dsimp only | contradiction)

theorem keeps_release {z0 : State} {s : State} {ks : List Nat} {w : Wait} (hs : Keeps z0 s) :
    Keeps z0 (State.release s ks w) := by
  unfold State.release
  try dsimp only
  repeat' (first | with_reducible assumption | with_reducible apply keeps_unblock | with_reducible apply Keeps.foldl | with_reducible apply Keeps.foldlFst | (simp only [keeps_mk]; with_reducible apply Keeps.core) | (intro; try dsimp only) | split | dsimp only | contradiction)

theorem keeps_teamBarrier {z0 : State} {s : State} {tk id : Nat} {count : Option Nat} (hs : Keeps z0 s) :
    Keeps z0 (State.teamBarrier s tk id count) := by
  unfold State.teamBarrier
  try dsimp only
  repeat' (first | with_reducible assumption | with_reducible apply keeps_raiseAll | with_reducible apply keeps_setTeam | with_reducible apply keeps_release | (simp only [keeps_mk]; with_reducible apply Keeps.core) | (intro; try dsimp only) | split | dsimp only | contradiction)

theorem keeps_clusterBarrier {z0 : State} {s : State} {grid cluster id : Nat} {count : Option Nat} (hs : Keeps z0 s) :
    Keeps z0 (State.clusterBarrier s grid cluster id count) := by
  unfold State.clusterBarrier
  try dsimp only
  repeat' (first | with_reducible assumption | with_reducible apply keeps_raiseAll | with_reducible apply keeps_setGrid | with_reducible apply keeps_release | (simp only [keeps_mk]; with_reducible apply Keeps.core) | (intro; try dsimp only) | split | dsimp only | contradiction)

theorem keeps_bind {z0 : State} {s : State} {k : Nat} (hs : Keeps z0 s) :
    Keeps z0 (State.bind s k) := by
  unfold State.bind
  try dsimp only
  repeat' (first | with_reducible assumption | with_reducible apply keeps_setCore | (simp only [keeps_mk]; with_reducible apply Keeps.core) | (intro; try dsimp only) | split | dsimp only | contradiction)

theorem keeps_unbind {z0 : State} {s : State} {k : Nat} (hs : Keeps z0 s) :
    Keeps z0 (State.unbind s k) := by
  unfold State.unbind
  try dsimp only
  repeat' (first | with_reducible assumption | with_reducible apply keeps_setCore | (simp only [keeps_mk]; with_reducible apply Keeps.core) | (intro; try dsimp only) | split | dsimp only | contradiction)

theorem keeps_unseat {z0 : State} {s : State} {k : Nat} (hs : Keeps z0 s) :
    Keeps z0 (State.unseat s k) := by
  unfold State.unseat
  try dsimp only
  repeat' (first | with_reducible assumption | with_reducible apply keeps_setGrp | with_reducible apply keeps_unbind | (simp only [keeps_mk]; with_reducible apply Keeps.core) | (intro; try dsimp only) | split | dsimp only | contradiction)

theorem keeps_evict {z0 : State} {s : State} {tk : Nat} (hs : Keeps z0 s) :
    Keeps z0 (State.evict s tk) := by
  unfold State.evict
  try dsimp only
  repeat' (first | with_reducible assumption | with_reducible apply keeps_physWrite | with_reducible apply keeps_dropGrow | with_reducible apply keeps_setTeam | with_reducible apply keeps_unseat | with_reducible apply Keeps.foldl | with_reducible apply Keeps.foldlFst | (simp only [keeps_mk]; with_reducible apply Keeps.core) | (intro; try dsimp only) | split | dsimp only | contradiction)

theorem keeps_growGive {z0 : State} {s : State} {k : Nat} {acc : Bool} {n : Nat} (hs : Keeps z0 s) :
    Keeps z0 (State.growGive s k acc n) := by
  unfold State.growGive
  try dsimp only
  repeat' (first | with_reducible assumption | with_reducible apply keeps_setTeam | with_reducible apply keeps_setGrp | (simp only [keeps_mk]; with_reducible apply Keeps.core) | (intro; try dsimp only) | split | dsimp only | contradiction)

theorem keeps_growServe {z0 : State} {s : State} {r : GrowReq} (hs : Keeps z0 s) :
    Keeps z0 (State.growServe s r) := by
  unfold State.growServe
  try dsimp only
  repeat' (first | with_reducible assumption | with_reducible apply keeps_dropGrow | with_reducible apply keeps_growGive | with_reducible apply keeps_unblock | (simp only [keeps_mk]; with_reducible apply Keeps.core) | (intro; try dsimp only) | split | dsimp only | contradiction)

theorem keeps_growGrant {z0 : State} {s : State} {core : Nat} {acc : Bool} (hs : Keeps z0 s) :
    Keeps z0 (State.growGrant s core acc) := by
  unfold State.growGrant
  try dsimp only
  repeat' (first | with_reducible assumption | with_reducible apply keeps_growServe | (simp only [keeps_mk]; with_reducible apply Keeps.core) | (intro; try dsimp only) | split | dsimp only | contradiction)

theorem keeps_growEvict {z0 : State} {n c : Nat} {s : State} (hs : Keeps z0 s) : Keeps z0 (s.growEvict n c) := by
  induction n generalizing c s with
  | zero => exact hs
  | succ n ih =>
    unfold State.growEvict
    dsimp only
    repeat' (first | assumption | with_reducible apply ih | with_reducible apply keeps_growServe |
      with_reducible apply keeps_evict | split)

theorem keeps_growRelief {z0 : State} {s : State} {core : Nat} (hs : Keeps z0 s) :
    Keeps z0 (State.growRelief s core) := by
  unfold State.growRelief
  try dsimp only
  repeat' (first | with_reducible assumption | with_reducible apply keeps_growGrant | with_reducible apply keeps_growEvict | (simp only [keeps_mk]; with_reducible apply Keeps.core) | (intro; try dsimp only) | split | dsimp only | contradiction)

theorem keeps_growCheck {z0 : State} {s : State} {cores : List Nat} (hs : Keeps z0 s) :
    Keeps z0 (State.growCheck s cores) := by
  unfold State.growCheck
  try dsimp only
  repeat' (first | with_reducible assumption | with_reducible apply keeps_growRelief | with_reducible apply Keeps.foldl | with_reducible apply Keeps.foldlFst | (simp only [keeps_mk]; with_reducible apply Keeps.core) | (intro; try dsimp only) | split | dsimp only | contradiction)

theorem keeps_machineCheck {z0 : State} {s : State} {tk core unit : Nat} (hs : Keeps z0 s) :
    Keeps z0 (State.machineCheck s tk core unit) := by
  unfold State.machineCheck
  try dsimp only
  repeat' (first | with_reducible assumption | with_reducible apply keeps_endGroup | with_reducible apply keeps_setTeam | with_reducible apply keeps_setGrid | with_reducible apply keeps_post | with_reducible apply Keeps.foldl | with_reducible apply Keeps.foldlFst | (simp only [keeps_mk]; with_reducible apply Keeps.core) | (intro; try dsimp only) | split | dsimp only | contradiction)

theorem kget_foldl_kset {l : List (Nat × Byte)} {m : List Host.Cell} {k : Nat} (h : ∀ e ∈ l, e.1 ≠ k) :
    kget (0 : Byte) (l.foldl (fun m e => kset 0 m e.1 e.2) m) k = kget 0 m k := by
  induction l generalizing m with
  | nil => rfl
  | cons e r ih =>
    rw [List.foldl_cons, ih fun x hx => h x (by simp [hx]), kget_kset_ne]
    exact fun c => h e (by simp) c.symm

theorem keeps_spReturn {z0 s : State} {tk : Nat} (hs : Keeps z0 s) : Keeps z0 (s.spReturn tk) := by
  unfold State.spReturn
  refine Keeps.foldl hs fun u b hu => ?_
  dsimp only
  generalize hlo : spKey b _ = lo
  generalize spKey b _ = hi
  have hl : 2 ^ 51 ≤ lo := by rw [← hlo]; unfold spKey; omega
  refine keeps_mk.2 ⟨hu.boot, hu.power, hu.time, fun x => kwf_foldl_kset _ (kwf_kcut _ _ (hu.mem x)), hu.core.tier,
    fun c => hu.far c fun k hk => ?_⟩
  rw [kget_foldl_kset, kcut]
  · have := kget_filter (0 : Byte) u.mem (fun x => !(decide (lo ≤ x) && decide (x < hi))) k
    rw [this, if_pos (by simp; omega)]
  · intro e he
    have := (List.mem_filter.mp he).2
    simp at this
    omega

theorem keeps_reslot {z0 : State} {s : State} {k : Nat} (hs : Keeps z0 s) :
    Keeps z0 (State.reslot s k) := by
  unfold State.reslot
  try dsimp only
  repeat' (first | with_reducible assumption | with_reducible apply keeps_setGrp | with_reducible apply keeps_bind | (simp only [keeps_mk]; with_reducible apply Keeps.core) | (intro; try dsimp only) | split | dsimp only | contradiction)

theorem keeps_reslotAll {z0 : State} {s : State} {ks : List Nat} (hs : Keeps z0 s) :
    Keeps z0 (State.reslotAll s ks) := by
  unfold State.reslotAll
  try dsimp only
  repeat' (first | with_reducible assumption | with_reducible apply keeps_reslot | with_reducible apply Keeps.foldl | with_reducible apply Keeps.foldlFst | (simp only [keeps_mk]; with_reducible apply Keeps.core) | (intro; try dsimp only) | split | dsimp only | contradiction)

theorem keeps_resumeSaved {z0 : State} {s : State} {k : Nat} (hs : Keeps z0 s) :
    Keeps z0 (State.resumeSaved s k) := by
  unfold State.resumeSaved
  try dsimp only
  repeat' (first | with_reducible assumption | with_reducible apply keeps_divertGroup | with_reducible apply keeps_growGive | with_reducible apply keeps_unblock | with_reducible apply keeps_setGrp | (simp only [keeps_mk]; with_reducible apply Keeps.core) | (intro; try dsimp only) | split | dsimp only | contradiction)

theorem keeps_restore {z0 : State} {s : State} {tk : Nat} (hs : Keeps z0 s) :
    Keeps z0 (State.restore s tk) := by
  unfold State.restore
  try dsimp only
  repeat' (first | with_reducible assumption | with_reducible apply keeps_machineCheck | with_reducible apply keeps_resumeSaved | with_reducible apply keeps_reslotAll | with_reducible apply keeps_spReturn | with_reducible apply keeps_setTeam | with_reducible apply Keeps.foldl | with_reducible apply Keeps.foldlFst | (simp only [keeps_mk]; with_reducible apply Keeps.core) | (intro; try dsimp only) | split | dsimp only | contradiction)

end Sys2Proof.Machine
end

