-- ==== Sys2Proof/Laws/KeepsInstr.lean ====
section
/-!
SUPPORT. `Keeps` for the operations of Operands, VectorInt, VectorFloat, Convert, CrossLane, Pair, Sync, MemoryInstr, Control, System.
-/
set_option linter.unusedSimpArgs false
namespace Sys2Proof.Machine

theorem keeps_lanewise {z0 : State} {s : State} {gd : Guard} {d : Opd} {srcs : List Src} {f : List Word → Word × BitVec 32} (hs : Keeps z0 s) :
    Keeps z0 (State.lanewise s gd d srcs f) := by
  unfold State.lanewise
  try dsimp only
  repeat' (first | with_reducible assumption | with_reducible apply keeps_simple | (simp only [keeps_mk]; with_reducible apply Keeps.core) | (intro; try dsimp only) | split | dsimp only | contradiction)

theorem keeps_lanewise0 {z0 : State} {s : State} {gd : Guard} {d : Opd} {srcs : List Src} {f : List Word → Word} (hs : Keeps z0 s) :
    Keeps z0 (State.lanewise0 s gd d srcs f) := by
  unfold State.lanewise0
  try dsimp only
  repeat' (first | with_reducible assumption | with_reducible apply keeps_lanewise | (simp only [keeps_mk]; with_reducible apply Keeps.core) | (intro; try dsimp only) | split | dsimp only | contradiction)

theorem keeps_compare {z0 : State} {s : State} {gd : Guard} {pd : PredDst} {srcs : List Src} {test : List Word → Bool × BitVec 32} (hs : Keeps z0 s) :
    Keeps z0 (State.compare s gd pd srcs test) := by
  unfold State.compare
  try dsimp only
  repeat' (first | with_reducible assumption | with_reducible apply keeps_simple | (simp only [keeps_mk]; with_reducible apply Keeps.core) | (intro; try dsimp only) | split | dsimp only | contradiction)

theorem keeps_int2 {z0 : State} {s : State} {g : Guard} {m : IntMod} {d : Opd} {a b : Src} {f : Int → Int → Int} (hs : Keeps z0 s) :
    Keeps z0 (State.int2 s g m d a b f) := by
  unfold State.int2
  try dsimp only
  repeat' (first | with_reducible assumption | with_reducible apply keeps_lanewise | (simp only [keeps_mk]; with_reducible apply Keeps.core) | (intro; try dsimp only) | split | dsimp only | contradiction)

theorem keeps_int2Imm {z0 : State} {s : State} {g : Guard} {m : IntMod} {d : Opd} {a : Src} {imm : BitVec 22} {f : Int → Int → Int} (hs : Keeps z0 s) :
    Keeps z0 (State.int2Imm s g m d a imm f) := by
  unfold State.int2Imm
  try dsimp only
  repeat' (first | with_reducible assumption | with_reducible apply keeps_lanewise | (simp only [keeps_mk]; with_reducible apply Keeps.core) | (intro; try dsimp only) | split | dsimp only | contradiction)

theorem keeps_execIadd {z0 : State} {g : Guard} {m : IntMod} {d : Opd} {a b : Src} {s : State} (hs : Keeps z0 s) :
    ∀ t9, (execIadd g m d a b s) = .next t9 → Keeps z0 t9 := by
  unfold execIadd
  intro t9
  try dsimp only
  repeat' (first | with_reducible assumption | with_reducible apply keeps_int2 | (simp only [keeps_mk]; with_reducible apply Keeps.core) | (intro h9; obtain rfl := Host.Outcome.next.inj h9; try dsimp only) | split | (intro; try dsimp only) | dsimp only | contradiction)

theorem keeps_execIaddImm {z0 : State} {g : Guard} {m : IntMod} {d : Opd} {a : Src} {imm : BitVec 22} {s : State} (hs : Keeps z0 s) :
    ∀ t9, (execIaddImm g m d a imm s) = .next t9 → Keeps z0 t9 := by
  unfold execIaddImm
  intro t9
  try dsimp only
  repeat' (first | with_reducible assumption | with_reducible apply keeps_int2Imm | (simp only [keeps_mk]; with_reducible apply Keeps.core) | (intro h9; obtain rfl := Host.Outcome.next.inj h9; try dsimp only) | split | (intro; try dsimp only) | dsimp only | contradiction)

theorem keeps_execIsub {z0 : State} {g : Guard} {m : IntMod} {d : Opd} {a b : Src} {s : State} (hs : Keeps z0 s) :
    ∀ t9, (execIsub g m d a b s) = .next t9 → Keeps z0 t9 := by
  unfold execIsub
  intro t9
  try dsimp only
  repeat' (first | with_reducible assumption | with_reducible apply keeps_int2 | (simp only [keeps_mk]; with_reducible apply Keeps.core) | (intro h9; obtain rfl := Host.Outcome.next.inj h9; try dsimp only) | split | (intro; try dsimp only) | dsimp only | contradiction)

theorem keeps_execIsubImm {z0 : State} {g : Guard} {m : IntMod} {d : Opd} {a : Src} {imm : BitVec 22} {s : State} (hs : Keeps z0 s) :
    ∀ t9, (execIsubImm g m d a imm s) = .next t9 → Keeps z0 t9 := by
  unfold execIsubImm
  intro t9
  try dsimp only
  repeat' (first | with_reducible assumption | with_reducible apply keeps_int2Imm | (simp only [keeps_mk]; with_reducible apply Keeps.core) | (intro h9; obtain rfl := Host.Outcome.next.inj h9; try dsimp only) | split | (intro; try dsimp only) | dsimp only | contradiction)

theorem keeps_execIaddc {z0 : State} {g : Guard} {w : IWidth} {co : Bool} {d : Opd} {a b c : Src} {s : State} (hs : Keeps z0 s) :
    ∀ t9, (execIaddc g w co d a b c s) = .next t9 → Keeps z0 t9 := by
  unfold execIaddc
  intro t9
  try dsimp only
  repeat' (first | with_reducible assumption | with_reducible apply keeps_lanewise0 | (simp only [keeps_mk]; with_reducible apply Keeps.core) | (intro h9; obtain rfl := Host.Outcome.next.inj h9; try dsimp only) | split | (intro; try dsimp only) | dsimp only | contradiction)

theorem keeps_execImul {z0 : State} {g : Guard} {m : IntMod} {d : Opd} {a b : Src} {s : State} (hs : Keeps z0 s) :
    ∀ t9, (execImul g m d a b s) = .next t9 → Keeps z0 t9 := by
  unfold execImul
  intro t9
  try dsimp only
  repeat' (first | with_reducible assumption | with_reducible apply keeps_int2 | (simp only [keeps_mk]; with_reducible apply Keeps.core) | (intro h9; obtain rfl := Host.Outcome.next.inj h9; try dsimp only) | split | (intro; try dsimp only) | dsimp only | contradiction)

theorem keeps_execImulImm {z0 : State} {g : Guard} {m : IntMod} {d : Opd} {a : Src} {imm : BitVec 22} {s : State} (hs : Keeps z0 s) :
    ∀ t9, (execImulImm g m d a imm s) = .next t9 → Keeps z0 t9 := by
  unfold execImulImm
  intro t9
  try dsimp only
  repeat' (first | with_reducible assumption | with_reducible apply keeps_int2Imm | (simp only [keeps_mk]; with_reducible apply Keeps.core) | (intro h9; obtain rfl := Host.Outcome.next.inj h9; try dsimp only) | split | (intro; try dsimp only) | dsimp only | contradiction)

theorem keeps_execImulhi {z0 : State} {g : Guard} {w : IWidth} {u : Bool} {d : Opd} {a b : Src} {s : State} (hs : Keeps z0 s) :
    ∀ t9, (execImulhi g w u d a b s) = .next t9 → Keeps z0 t9 := by
  unfold execImulhi
  intro t9
  try dsimp only
  repeat' (first | with_reducible assumption | with_reducible apply keeps_int2 | (simp only [keeps_mk]; with_reducible apply Keeps.core) | (intro h9; obtain rfl := Host.Outcome.next.inj h9; try dsimp only) | split | (intro; try dsimp only) | dsimp only | contradiction)

theorem keeps_execImad {z0 : State} {g : Guard} {m : IntMod} {d : Opd} {a b c : Src} {s : State} (hs : Keeps z0 s) :
    ∀ t9, (execImad g m d a b c s) = .next t9 → Keeps z0 t9 := by
  unfold execImad
  intro t9
  try dsimp only
  repeat' (first | with_reducible assumption | with_reducible apply keeps_lanewise | (simp only [keeps_mk]; with_reducible apply Keeps.core) | (intro h9; obtain rfl := Host.Outcome.next.inj h9; try dsimp only) | split | (intro; try dsimp only) | dsimp only | contradiction)

theorem keeps_execImin {z0 : State} {g : Guard} {w : IWidth} {u : Bool} {d : Opd} {a b : Src} {s : State} (hs : Keeps z0 s) :
    ∀ t9, (execImin g w u d a b s) = .next t9 → Keeps z0 t9 := by
  unfold execImin
  intro t9
  try dsimp only
  repeat' (first | with_reducible assumption | with_reducible apply keeps_int2 | (simp only [keeps_mk]; with_reducible apply Keeps.core) | (intro h9; obtain rfl := Host.Outcome.next.inj h9; try dsimp only) | split | (intro; try dsimp only) | dsimp only | contradiction)

theorem keeps_execIminImm {z0 : State} {g : Guard} {w : IWidth} {u : Bool} {d : Opd} {a : Src} {imm : BitVec 22} {s : State} (hs : Keeps z0 s) :
    ∀ t9, (execIminImm g w u d a imm s) = .next t9 → Keeps z0 t9 := by
  unfold execIminImm
  intro t9
  try dsimp only
  repeat' (first | with_reducible assumption | with_reducible apply keeps_int2Imm | (simp only [keeps_mk]; with_reducible apply Keeps.core) | (intro h9; obtain rfl := Host.Outcome.next.inj h9; try dsimp only) | split | (intro; try dsimp only) | dsimp only | contradiction)

theorem keeps_execImax {z0 : State} {g : Guard} {w : IWidth} {u : Bool} {d : Opd} {a b : Src} {s : State} (hs : Keeps z0 s) :
    ∀ t9, (execImax g w u d a b s) = .next t9 → Keeps z0 t9 := by
  unfold execImax
  intro t9
  try dsimp only
  repeat' (first | with_reducible assumption | with_reducible apply keeps_int2 | (simp only [keeps_mk]; with_reducible apply Keeps.core) | (intro h9; obtain rfl := Host.Outcome.next.inj h9; try dsimp only) | split | (intro; try dsimp only) | dsimp only | contradiction)

theorem keeps_execImaxImm {z0 : State} {g : Guard} {w : IWidth} {u : Bool} {d : Opd} {a : Src} {imm : BitVec 22} {s : State} (hs : Keeps z0 s) :
    ∀ t9, (execImaxImm g w u d a imm s) = .next t9 → Keeps z0 t9 := by
  unfold execImaxImm
  intro t9
  try dsimp only
  repeat' (first | with_reducible assumption | with_reducible apply keeps_int2Imm | (simp only [keeps_mk]; with_reducible apply Keeps.core) | (intro h9; obtain rfl := Host.Outcome.next.inj h9; try dsimp only) | split | (intro; try dsimp only) | dsimp only | contradiction)

theorem keeps_execIabs {z0 : State} {g : Guard} {w : IWidth} {sat : Bool} {d : Opd} {a : Src} {s : State} (hs : Keeps z0 s) :
    ∀ t9, (execIabs g w sat d a s) = .next t9 → Keeps z0 t9 := by
  unfold execIabs
  intro t9
  try dsimp only
  repeat' (first | with_reducible assumption | with_reducible apply keeps_lanewise | (simp only [keeps_mk]; with_reducible apply Keeps.core) | (intro h9; obtain rfl := Host.Outcome.next.inj h9; try dsimp only) | split | (intro; try dsimp only) | dsimp only | contradiction)

theorem keeps_shift {z0 : State} {s : State} {g : Guard} {w : IWidth} {d : Opd} {a b : Src} {f : Nat → Nat → Nat → Nat} (hs : Keeps z0 s) :
    Keeps z0 (State.shift s g w d a b f) := by
  unfold State.shift
  try dsimp only
  repeat' (first | with_reducible assumption | with_reducible apply keeps_lanewise0 | (simp only [keeps_mk]; with_reducible apply Keeps.core) | (intro; try dsimp only) | split | dsimp only | contradiction)

theorem keeps_shiftImm {z0 : State} {s : State} {g : Guard} {w : IWidth} {d : Opd} {a : Src} {n : BitVec 6} {f : Nat → Nat → Nat → Nat} (hs : Keeps z0 s) :
    Keeps z0 (State.shiftImm s g w d a n f) := by
  unfold State.shiftImm
  try dsimp only
  repeat' (first | with_reducible assumption | with_reducible apply keeps_lanewise0 | (simp only [keeps_mk]; with_reducible apply Keeps.core) | (intro; try dsimp only) | split | dsimp only | contradiction)

theorem keeps_execShl {z0 : State} {g : Guard} {w : IWidth} {d : Opd} {a b : Src} {s : State} (hs : Keeps z0 s) :
    ∀ t9, (execShl g w d a b s) = .next t9 → Keeps z0 t9 := by
  unfold execShl
  intro t9
  try dsimp only
  repeat' (first | with_reducible assumption | with_reducible apply keeps_shift | (simp only [keeps_mk]; with_reducible apply Keeps.core) | (intro h9; obtain rfl := Host.Outcome.next.inj h9; try dsimp only) | split | (intro; try dsimp only) | dsimp only | contradiction)

theorem keeps_execShlImm {z0 : State} {g : Guard} {w : IWidth} {d : Opd} {a : Src} {n : BitVec 6} {s : State} (hs : Keeps z0 s) :
    ∀ t9, (execShlImm g w d a n s) = .next t9 → Keeps z0 t9 := by
  unfold execShlImm
  intro t9
  try dsimp only
  repeat' (first | with_reducible assumption | with_reducible apply keeps_shiftImm | (simp only [keeps_mk]; with_reducible apply Keeps.core) | (intro h9; obtain rfl := Host.Outcome.next.inj h9; try dsimp only) | split | (intro; try dsimp only) | dsimp only | contradiction)

theorem keeps_execShr {z0 : State} {g : Guard} {w : IWidth} {d : Opd} {a b : Src} {s : State} (hs : Keeps z0 s) :
    ∀ t9, (execShr g w d a b s) = .next t9 → Keeps z0 t9 := by
  unfold execShr
  intro t9
  try dsimp only
  repeat' (first | with_reducible assumption | with_reducible apply keeps_shift | (simp only [keeps_mk]; with_reducible apply Keeps.core) | (intro h9; obtain rfl := Host.Outcome.next.inj h9; try dsimp only) | split | (intro; try dsimp only) | dsimp only | contradiction)

theorem keeps_execShrImm {z0 : State} {g : Guard} {w : IWidth} {d : Opd} {a : Src} {n : BitVec 6} {s : State} (hs : Keeps z0 s) :
    ∀ t9, (execShrImm g w d a n s) = .next t9 → Keeps z0 t9 := by
  unfold execShrImm
  intro t9
  try dsimp only
  repeat' (first | with_reducible assumption | with_reducible apply keeps_shiftImm | (simp only [keeps_mk]; with_reducible apply Keeps.core) | (intro h9; obtain rfl := Host.Outcome.next.inj h9; try dsimp only) | split | (intro; try dsimp only) | dsimp only | contradiction)

theorem keeps_execShra {z0 : State} {g : Guard} {w : IWidth} {d : Opd} {a b : Src} {s : State} (hs : Keeps z0 s) :
    ∀ t9, (execShra g w d a b s) = .next t9 → Keeps z0 t9 := by
  unfold execShra
  intro t9
  try dsimp only
  repeat' (first | with_reducible assumption | with_reducible apply keeps_shift | (simp only [keeps_mk]; with_reducible apply Keeps.core) | (intro h9; obtain rfl := Host.Outcome.next.inj h9; try dsimp only) | split | (intro; try dsimp only) | dsimp only | contradiction)

theorem keeps_execShraImm {z0 : State} {g : Guard} {w : IWidth} {d : Opd} {a : Src} {n : BitVec 6} {s : State} (hs : Keeps z0 s) :
    ∀ t9, (execShraImm g w d a n s) = .next t9 → Keeps z0 t9 := by
  unfold execShraImm
  intro t9
  try dsimp only
  repeat' (first | with_reducible assumption | with_reducible apply keeps_shiftImm | (simp only [keeps_mk]; with_reducible apply Keeps.core) | (intro h9; obtain rfl := Host.Outcome.next.inj h9; try dsimp only) | split | (intro; try dsimp only) | dsimp only | contradiction)

theorem keeps_execRotl {z0 : State} {g : Guard} {w : IWidth} {d : Opd} {a b : Src} {s : State} (hs : Keeps z0 s) :
    ∀ t9, (execRotl g w d a b s) = .next t9 → Keeps z0 t9 := by
  unfold execRotl
  intro t9
  try dsimp only
  repeat' (first | with_reducible assumption | with_reducible apply keeps_shift | (simp only [keeps_mk]; with_reducible apply Keeps.core) | (intro h9; obtain rfl := Host.Outcome.next.inj h9; try dsimp only) | split | (intro; try dsimp only) | dsimp only | contradiction)

theorem keeps_execRotlImm {z0 : State} {g : Guard} {w : IWidth} {d : Opd} {a : Src} {n : BitVec 6} {s : State} (hs : Keeps z0 s) :
    ∀ t9, (execRotlImm g w d a n s) = .next t9 → Keeps z0 t9 := by
  unfold execRotlImm
  intro t9
  try dsimp only
  repeat' (first | with_reducible assumption | with_reducible apply keeps_shiftImm | (simp only [keeps_mk]; with_reducible apply Keeps.core) | (intro h9; obtain rfl := Host.Outcome.next.inj h9; try dsimp only) | split | (intro; try dsimp only) | dsimp only | contradiction)

theorem keeps_execBfx {z0 : State} {g : Guard} {w : IWidth} {u : Bool} {d : Opd} {a b : Src} {s : State} (hs : Keeps z0 s) :
    ∀ t9, (execBfx g w u d a b s) = .next t9 → Keeps z0 t9 := by
  unfold execBfx
  intro t9
  try dsimp only
  repeat' (first | with_reducible assumption | with_reducible apply keeps_lanewise0 | (simp only [keeps_mk]; with_reducible apply Keeps.core) | (intro h9; obtain rfl := Host.Outcome.next.inj h9; try dsimp only) | split | (intro; try dsimp only) | dsimp only | contradiction)

theorem keeps_execBfxImm {z0 : State} {g : Guard} {w : IWidth} {u : Bool} {d : Opd} {a : Src} {pos : BitVec 6} {len : Fin 65} {s : State} (hs : Keeps z0 s) :
    ∀ t9, (execBfxImm g w u d a pos len s) = .next t9 → Keeps z0 t9 := by
  unfold execBfxImm
  intro t9
  try dsimp only
  repeat' (first | with_reducible assumption | with_reducible apply keeps_lanewise0 | (simp only [keeps_mk]; with_reducible apply Keeps.core) | (intro h9; obtain rfl := Host.Outcome.next.inj h9; try dsimp only) | split | (intro; try dsimp only) | dsimp only | contradiction)

theorem keeps_execBfi {z0 : State} {g : Guard} {w : IWidth} {d : Opd} {a b c : Src} {s : State} (hs : Keeps z0 s) :
    ∀ t9, (execBfi g w d a b c s) = .next t9 → Keeps z0 t9 := by
  unfold execBfi
  intro t9
  try dsimp only
  repeat' (first | with_reducible assumption | with_reducible apply keeps_lanewise0 | (simp only [keeps_mk]; with_reducible apply Keeps.core) | (intro h9; obtain rfl := Host.Outcome.next.inj h9; try dsimp only) | split | (intro; try dsimp only) | dsimp only | contradiction)

theorem keeps_execPopc {z0 : State} {g : Guard} {w : IWidth} {d : Opd} {a : Src} {s : State} (hs : Keeps z0 s) :
    ∀ t9, (execPopc g w d a s) = .next t9 → Keeps z0 t9 := by
  unfold execPopc
  intro t9
  try dsimp only
  repeat' (first | with_reducible assumption | with_reducible apply keeps_lanewise0 | (simp only [keeps_mk]; with_reducible apply Keeps.core) | (intro h9; obtain rfl := Host.Outcome.next.inj h9; try dsimp only) | split | (intro; try dsimp only) | dsimp only | contradiction)

theorem keeps_execClz {z0 : State} {g : Guard} {w : IWidth} {d : Opd} {a : Src} {s : State} (hs : Keeps z0 s) :
    ∀ t9, (execClz g w d a s) = .next t9 → Keeps z0 t9 := by
  unfold execClz
  intro t9
  try dsimp only
  repeat' (first | with_reducible assumption | with_reducible apply keeps_lanewise0 | (simp only [keeps_mk]; with_reducible apply Keeps.core) | (intro h9; obtain rfl := Host.Outcome.next.inj h9; try dsimp only) | split | (intro; try dsimp only) | dsimp only | contradiction)

theorem keeps_execBrev {z0 : State} {g : Guard} {w : IWidth} {d : Opd} {a : Src} {s : State} (hs : Keeps z0 s) :
    ∀ t9, (execBrev g w d a s) = .next t9 → Keeps z0 t9 := by
  unfold execBrev
  intro t9
  try dsimp only
  repeat' (first | with_reducible assumption | with_reducible apply keeps_lanewise0 | (simp only [keeps_mk]; with_reducible apply Keeps.core) | (intro h9; obtain rfl := Host.Outcome.next.inj h9; try dsimp only) | split | (intro; try dsimp only) | dsimp only | contradiction)

theorem keeps_execAnd {z0 : State} {g : Guard} {d : Opd} {a b : Src} {s : State} (hs : Keeps z0 s) :
    ∀ t9, (execAnd g d a b s) = .next t9 → Keeps z0 t9 := by
  unfold execAnd
  intro t9
  try dsimp only
  repeat' (first | with_reducible assumption | with_reducible apply keeps_lanewise0 | (simp only [keeps_mk]; with_reducible apply Keeps.core) | (intro h9; obtain rfl := Host.Outcome.next.inj h9; try dsimp only) | split | (intro; try dsimp only) | dsimp only | contradiction)

theorem keeps_execAndImm {z0 : State} {g : Guard} {d : Opd} {a : Src} {imm : BitVec 22} {s : State} (hs : Keeps z0 s) :
    ∀ t9, (execAndImm g d a imm s) = .next t9 → Keeps z0 t9 := by
  unfold execAndImm
  intro t9
  try dsimp only
  repeat' (first | with_reducible assumption | with_reducible apply keeps_lanewise0 | (simp only [keeps_mk]; with_reducible apply Keeps.core) | (intro h9; obtain rfl := Host.Outcome.next.inj h9; try dsimp only) | split | (intro; try dsimp only) | dsimp only | contradiction)

theorem keeps_execOr {z0 : State} {g : Guard} {d : Opd} {a b : Src} {s : State} (hs : Keeps z0 s) :
    ∀ t9, (execOr g d a b s) = .next t9 → Keeps z0 t9 := by
  unfold execOr
  intro t9
  try dsimp only
  repeat' (first | with_reducible assumption | with_reducible apply keeps_lanewise0 | (simp only [keeps_mk]; with_reducible apply Keeps.core) | (intro h9; obtain rfl := Host.Outcome.next.inj h9; try dsimp only) | split | (intro; try dsimp only) | dsimp only | contradiction)

theorem keeps_execOrImm {z0 : State} {g : Guard} {d : Opd} {a : Src} {imm : BitVec 22} {s : State} (hs : Keeps z0 s) :
    ∀ t9, (execOrImm g d a imm s) = .next t9 → Keeps z0 t9 := by
  unfold execOrImm
  intro t9
  try dsimp only
  repeat' (first | with_reducible assumption | with_reducible apply keeps_lanewise0 | (simp only [keeps_mk]; with_reducible apply Keeps.core) | (intro h9; obtain rfl := Host.Outcome.next.inj h9; try dsimp only) | split | (intro; try dsimp only) | dsimp only | contradiction)

theorem keeps_execXor {z0 : State} {g : Guard} {d : Opd} {a b : Src} {s : State} (hs : Keeps z0 s) :
    ∀ t9, (execXor g d a b s) = .next t9 → Keeps z0 t9 := by
  unfold execXor
  intro t9
  try dsimp only
  repeat' (first | with_reducible assumption | with_reducible apply keeps_lanewise0 | (simp only [keeps_mk]; with_reducible apply Keeps.core) | (intro h9; obtain rfl := Host.Outcome.next.inj h9; try dsimp only) | split | (intro; try dsimp only) | dsimp only | contradiction)

theorem keeps_execXorImm {z0 : State} {g : Guard} {d : Opd} {a : Src} {imm : BitVec 22} {s : State} (hs : Keeps z0 s) :
    ∀ t9, (execXorImm g d a imm s) = .next t9 → Keeps z0 t9 := by
  unfold execXorImm
  intro t9
  try dsimp only
  repeat' (first | with_reducible assumption | with_reducible apply keeps_lanewise0 | (simp only [keeps_mk]; with_reducible apply Keeps.core) | (intro h9; obtain rfl := Host.Outcome.next.inj h9; try dsimp only) | split | (intro; try dsimp only) | dsimp only | contradiction)

theorem keeps_execAndn {z0 : State} {g : Guard} {d : Opd} {a b : Src} {s : State} (hs : Keeps z0 s) :
    ∀ t9, (execAndn g d a b s) = .next t9 → Keeps z0 t9 := by
  unfold execAndn
  intro t9
  try dsimp only
  repeat' (first | with_reducible assumption | with_reducible apply keeps_lanewise0 | (simp only [keeps_mk]; with_reducible apply Keeps.core) | (intro h9; obtain rfl := Host.Outcome.next.inj h9; try dsimp only) | split | (intro; try dsimp only) | dsimp only | contradiction)

theorem keeps_execAndnImm {z0 : State} {g : Guard} {d : Opd} {a : Src} {imm : BitVec 22} {s : State} (hs : Keeps z0 s) :
    ∀ t9, (execAndnImm g d a imm s) = .next t9 → Keeps z0 t9 := by
  unfold execAndnImm
  intro t9
  try dsimp only
  repeat' (first | with_reducible assumption | with_reducible apply keeps_lanewise0 | (simp only [keeps_mk]; with_reducible apply Keeps.core) | (intro h9; obtain rfl := Host.Outcome.next.inj h9; try dsimp only) | split | (intro; try dsimp only) | dsimp only | contradiction)

theorem keeps_execMov {z0 : State} {g : Guard} {d : Opd} {a : Src} {s : State} (hs : Keeps z0 s) :
    ∀ t9, (execMov g d a s) = .next t9 → Keeps z0 t9 := by
  unfold execMov
  intro t9
  try dsimp only
  repeat' (first | with_reducible assumption | with_reducible apply keeps_lanewise0 | (simp only [keeps_mk]; with_reducible apply Keeps.core) | (intro h9; obtain rfl := Host.Outcome.next.inj h9; try dsimp only) | split | (intro; try dsimp only) | dsimp only | contradiction)

theorem keeps_execSel {z0 : State} {g : Guard} {neg : Bool} {q : Fin 8} {d : Opd} {a b : Src} {s : State} (hs : Keeps z0 s) :
    ∀ t9, (execSel g neg q d a b s) = .next t9 → Keeps z0 t9 := by
  unfold execSel
  intro t9
  try dsimp only
  repeat' (first | with_reducible assumption | with_reducible apply keeps_simple | (simp only [keeps_mk]; with_reducible apply Keeps.core) | (intro h9; obtain rfl := Host.Outcome.next.inj h9; try dsimp only) | split | (intro; try dsimp only) | dsimp only | contradiction)

theorem keeps_execLea {z0 : State} {g : Guard} {f : LeaForm} {sh : Fin 8} {d : Opd} {a b : Src} {s : State} (hs : Keeps z0 s) :
    ∀ t9, (execLea g f sh d a b s) = .next t9 → Keeps z0 t9 := by
  unfold execLea
  intro t9
  try dsimp only
  repeat' (first | with_reducible assumption | with_reducible apply keeps_lanewise0 | (simp only [keeps_mk]; with_reducible apply Keeps.core) | (intro h9; obtain rfl := Host.Outcome.next.inj h9; try dsimp only) | split | (intro; try dsimp only) | dsimp only | contradiction)

theorem keeps_execLeaImm {z0 : State} {g : Guard} {f : LeaForm} {sh : Fin 8} {d : Opd} {a : Src} {imm : BitVec 22} {s : State} (hs : Keeps z0 s) :
    ∀ t9, (execLeaImm g f sh d a imm s) = .next t9 → Keeps z0 t9 := by
  unfold execLeaImm
  intro t9
  try dsimp only
  repeat' (first | with_reducible assumption | with_reducible apply keeps_lanewise0 | (simp only [keeps_mk]; with_reducible apply Keeps.core) | (intro h9; obtain rfl := Host.Outcome.next.inj h9; try dsimp only) | split | (intro; try dsimp only) | dsimp only | contradiction)

theorem keeps_execMovi {z0 : State} {g : Guard} {mode : MoviMode} {d : Opd} {imm : BitVec 32} {s : State} (hs : Keeps z0 s) :
    ∀ t9, (execMovi g mode d imm s) = .next t9 → Keeps z0 t9 := by
  unfold execMovi
  intro t9
  try dsimp only
  repeat' (first | with_reducible assumption | with_reducible apply keeps_simple | (simp only [keeps_mk]; with_reducible apply Keeps.core) | (intro h9; obtain rfl := Host.Outcome.next.inj h9; try dsimp only) | split | (intro; try dsimp only) | dsimp only | contradiction)

theorem keeps_execIcmp {z0 : State} {g : Guard} {w : IWidth} {u : Bool} {cond : ICond} {pd : PredDst} {a b : Src} {s : State} (hs : Keeps z0 s) :
    ∀ t9, (execIcmp g w u cond pd a b s) = .next t9 → Keeps z0 t9 := by
  unfold execIcmp
  intro t9
  try dsimp only
  repeat' (first | with_reducible assumption | with_reducible apply keeps_compare | (simp only [keeps_mk]; with_reducible apply Keeps.core) | (intro h9; obtain rfl := Host.Outcome.next.inj h9; try dsimp only) | split | (intro; try dsimp only) | dsimp only | contradiction)

theorem keeps_execIcmpImm {z0 : State} {g : Guard} {w : IWidth} {u : Bool} {cond : ICond} {pd : PredDst} {a : Src} {imm : BitVec 22} {s : State} (hs : Keeps z0 s) :
    ∀ t9, (execIcmpImm g w u cond pd a imm s) = .next t9 → Keeps z0 t9 := by
  unfold execIcmpImm
  intro t9
  try dsimp only
  repeat' (first | with_reducible assumption | with_reducible apply keeps_compare | (simp only [keeps_mk]; with_reducible apply Keeps.core) | (intro h9; obtain rfl := Host.Outcome.next.inj h9; try dsimp only) | split | (intro; try dsimp only) | dsimp only | contradiction)

theorem keeps_execPset {z0 : State} {g : Guard} {pd pa pb : Fin 8} {lut : BitVec 4} {s : State} (hs : Keeps z0 s) :
    ∀ t9, (execPset g pd pa pb lut s) = .next t9 → Keeps z0 t9 := by
  unfold execPset
  intro t9
  try dsimp only
  repeat' (first | with_reducible assumption | with_reducible apply keeps_simple | (simp only [keeps_mk]; with_reducible apply Keeps.core) | (intro h9; obtain rfl := Host.Outcome.next.inj h9; try dsimp only) | split | (intro; try dsimp only) | dsimp only | contradiction)

theorem keeps_execPmov {z0 : State} {g : Guard} {dir : PmovDir} {s : State} (hs : Keeps z0 s) :
    ∀ t9, (execPmov g dir s) = .next t9 → Keeps z0 t9 := by
  unfold execPmov
  intro t9
  try dsimp only
  repeat' (first | with_reducible assumption | with_reducible apply keeps_simple | (simp only [keeps_mk]; with_reducible apply Keeps.core) | (intro h9; obtain rfl := Host.Outcome.next.inj h9; try dsimp only) | split | (intro; try dsimp only) | dsimp only | contradiction)

theorem keeps_float2 {z0 : State} {s : State} {g : Guard} {t : FType} {d : Opd} {a b : Src} {f : Fmt → Nat → Nat → Nat × BitVec 32} (hs : Keeps z0 s) :
    Keeps z0 (State.float2 s g t d a b f) := by
  unfold State.float2
  try dsimp only
  repeat' (first | with_reducible assumption | with_reducible apply keeps_lanewise | (simp only [keeps_mk]; with_reducible apply Keeps.core) | (intro; try dsimp only) | split | dsimp only | contradiction)

theorem keeps_float2Imm {z0 : State} {s : State} {g : Guard} {t : FType} {d : Opd} {a : Src} {imm : BitVec 22} {f : Fmt → Nat → Nat → Nat × BitVec 32} (hs : Keeps z0 s) :
    Keeps z0 (State.float2Imm s g t d a imm f) := by
  unfold State.float2Imm
  try dsimp only
  repeat' (first | with_reducible assumption | with_reducible apply keeps_lanewise | (simp only [keeps_mk]; with_reducible apply Keeps.core) | (intro; try dsimp only) | split | dsimp only | contradiction)

theorem keeps_execFadd {z0 : State} {g : Guard} {m : FloatMod} {d : Opd} {a b : Src} {s : State} (hs : Keeps z0 s) :
    ∀ t9, (execFadd g m d a b s) = .next t9 → Keeps z0 t9 := by
  unfold execFadd
  intro t9
  try dsimp only
  repeat' (first | with_reducible assumption | with_reducible apply keeps_float2 | (simp only [keeps_mk]; with_reducible apply Keeps.core) | (intro h9; obtain rfl := Host.Outcome.next.inj h9; try dsimp only) | split | (intro; try dsimp only) | dsimp only | contradiction)

theorem keeps_execFaddImm {z0 : State} {g : Guard} {m : FloatMod} {d : Opd} {a : Src} {imm : BitVec 22} {s : State} (hs : Keeps z0 s) :
    ∀ t9, (execFaddImm g m d a imm s) = .next t9 → Keeps z0 t9 := by
  unfold execFaddImm
  intro t9
  try dsimp only
  repeat' (first | with_reducible assumption | with_reducible apply keeps_float2Imm | (simp only [keeps_mk]; with_reducible apply Keeps.core) | (intro h9; obtain rfl := Host.Outcome.next.inj h9; try dsimp only) | split | (intro; try dsimp only) | dsimp only | contradiction)

theorem keeps_execFsub {z0 : State} {g : Guard} {m : FloatMod} {d : Opd} {a b : Src} {s : State} (hs : Keeps z0 s) :
    ∀ t9, (execFsub g m d a b s) = .next t9 → Keeps z0 t9 := by
  unfold execFsub
  intro t9
  try dsimp only
  repeat' (first | with_reducible assumption | with_reducible apply keeps_float2 | (simp only [keeps_mk]; with_reducible apply Keeps.core) | (intro h9; obtain rfl := Host.Outcome.next.inj h9; try dsimp only) | split | (intro; try dsimp only) | dsimp only | contradiction)

theorem keeps_execFmul {z0 : State} {g : Guard} {m : FloatMod} {d : Opd} {a b : Src} {s : State} (hs : Keeps z0 s) :
    ∀ t9, (execFmul g m d a b s) = .next t9 → Keeps z0 t9 := by
  unfold execFmul
  intro t9
  try dsimp only
  repeat' (first | with_reducible assumption | with_reducible apply keeps_float2 | (simp only [keeps_mk]; with_reducible apply Keeps.core) | (intro h9; obtain rfl := Host.Outcome.next.inj h9; try dsimp only) | split | (intro; try dsimp only) | dsimp only | contradiction)

theorem keeps_execFmulImm {z0 : State} {g : Guard} {m : FloatMod} {d : Opd} {a : Src} {imm : BitVec 22} {s : State} (hs : Keeps z0 s) :
    ∀ t9, (execFmulImm g m d a imm s) = .next t9 → Keeps z0 t9 := by
  unfold execFmulImm
  intro t9
  try dsimp only
  repeat' (first | with_reducible assumption | with_reducible apply keeps_float2Imm | (simp only [keeps_mk]; with_reducible apply Keeps.core) | (intro h9; obtain rfl := Host.Outcome.next.inj h9; try dsimp only) | split | (intro; try dsimp only) | dsimp only | contradiction)

theorem keeps_execFfma {z0 : State} {g : Guard} {m : FloatMod} {d : Opd} {a b c : Src} {s : State} (hs : Keeps z0 s) :
    ∀ t9, (execFfma g m d a b c s) = .next t9 → Keeps z0 t9 := by
  unfold execFfma
  intro t9
  try dsimp only
  repeat' (first | with_reducible assumption | with_reducible apply keeps_lanewise | (simp only [keeps_mk]; with_reducible apply Keeps.core) | (intro h9; obtain rfl := Host.Outcome.next.inj h9; try dsimp only) | split | (intro; try dsimp only) | dsimp only | contradiction)

theorem keeps_execFmin {z0 : State} {g : Guard} {t : FType} {d : Opd} {a b : Src} {s : State} (hs : Keeps z0 s) :
    ∀ t9, (execFmin g t d a b s) = .next t9 → Keeps z0 t9 := by
  unfold execFmin
  intro t9
  try dsimp only
  repeat' (first | with_reducible assumption | with_reducible apply keeps_float2 | (simp only [keeps_mk]; with_reducible apply Keeps.core) | (intro h9; obtain rfl := Host.Outcome.next.inj h9; try dsimp only) | split | (intro; try dsimp only) | dsimp only | contradiction)

theorem keeps_execFminImm {z0 : State} {g : Guard} {t : FType} {d : Opd} {a : Src} {imm : BitVec 22} {s : State} (hs : Keeps z0 s) :
    ∀ t9, (execFminImm g t d a imm s) = .next t9 → Keeps z0 t9 := by
  unfold execFminImm
  intro t9
  try dsimp only
  repeat' (first | with_reducible assumption | with_reducible apply keeps_float2Imm | (simp only [keeps_mk]; with_reducible apply Keeps.core) | (intro h9; obtain rfl := Host.Outcome.next.inj h9; try dsimp only) | split | (intro; try dsimp only) | dsimp only | contradiction)

theorem keeps_execFmax {z0 : State} {g : Guard} {t : FType} {d : Opd} {a b : Src} {s : State} (hs : Keeps z0 s) :
    ∀ t9, (execFmax g t d a b s) = .next t9 → Keeps z0 t9 := by
  unfold execFmax
  intro t9
  try dsimp only
  repeat' (first | with_reducible assumption | with_reducible apply keeps_float2 | (simp only [keeps_mk]; with_reducible apply Keeps.core) | (intro h9; obtain rfl := Host.Outcome.next.inj h9; try dsimp only) | split | (intro; try dsimp only) | dsimp only | contradiction)

theorem keeps_execFmaxImm {z0 : State} {g : Guard} {t : FType} {d : Opd} {a : Src} {imm : BitVec 22} {s : State} (hs : Keeps z0 s) :
    ∀ t9, (execFmaxImm g t d a imm s) = .next t9 → Keeps z0 t9 := by
  unfold execFmaxImm
  intro t9
  try dsimp only
  repeat' (first | with_reducible assumption | with_reducible apply keeps_float2Imm | (simp only [keeps_mk]; with_reducible apply Keeps.core) | (intro h9; obtain rfl := Host.Outcome.next.inj h9; try dsimp only) | split | (intro; try dsimp only) | dsimp only | contradiction)

theorem keeps_execFminm {z0 : State} {g : Guard} {t : FType} {d : Opd} {a b : Src} {s : State} (hs : Keeps z0 s) :
    ∀ t9, (execFminm g t d a b s) = .next t9 → Keeps z0 t9 := by
  unfold execFminm
  intro t9
  try dsimp only
  repeat' (first | with_reducible assumption | with_reducible apply keeps_float2 | (simp only [keeps_mk]; with_reducible apply Keeps.core) | (intro h9; obtain rfl := Host.Outcome.next.inj h9; try dsimp only) | split | (intro; try dsimp only) | dsimp only | contradiction)

theorem keeps_execFmaxm {z0 : State} {g : Guard} {t : FType} {d : Opd} {a b : Src} {s : State} (hs : Keeps z0 s) :
    ∀ t9, (execFmaxm g t d a b s) = .next t9 → Keeps z0 t9 := by
  unfold execFmaxm
  intro t9
  try dsimp only
  repeat' (first | with_reducible assumption | with_reducible apply keeps_float2 | (simp only [keeps_mk]; with_reducible apply Keeps.core) | (intro h9; obtain rfl := Host.Outcome.next.inj h9; try dsimp only) | split | (intro; try dsimp only) | dsimp only | contradiction)

theorem keeps_execFclamp {z0 : State} {g : Guard} {t : FType} {d : Opd} {a b c : Src} {s : State} (hs : Keeps z0 s) :
    ∀ t9, (execFclamp g t d a b c s) = .next t9 → Keeps z0 t9 := by
  unfold execFclamp
  intro t9
  try dsimp only
  repeat' (first | with_reducible assumption | with_reducible apply keeps_lanewise | (simp only [keeps_mk]; with_reducible apply Keeps.core) | (intro h9; obtain rfl := Host.Outcome.next.inj h9; try dsimp only) | split | (intro; try dsimp only) | dsimp only | contradiction)

theorem keeps_execFrnd {z0 : State} {g : Guard} {t : FType} {rm : RMode} {d : Opd} {a : Src} {s : State} (hs : Keeps z0 s) :
    ∀ t9, (execFrnd g t rm d a s) = .next t9 → Keeps z0 t9 := by
  unfold execFrnd
  intro t9
  try dsimp only
  repeat' (first | with_reducible assumption | with_reducible apply keeps_lanewise | (simp only [keeps_mk]; with_reducible apply Keeps.core) | (intro h9; obtain rfl := Host.Outcome.next.inj h9; try dsimp only) | split | (intro; try dsimp only) | dsimp only | contradiction)

theorem keeps_execFscale {z0 : State} {g : Guard} {m : FloatMod} {d : Opd} {a b : Src} {s : State} (hs : Keeps z0 s) :
    ∀ t9, (execFscale g m d a b s) = .next t9 → Keeps z0 t9 := by
  unfold execFscale
  intro t9
  try dsimp only
  repeat' (first | with_reducible assumption | with_reducible apply keeps_float2 | (simp only [keeps_mk]; with_reducible apply Keeps.core) | (intro h9; obtain rfl := Host.Outcome.next.inj h9; try dsimp only) | split | (intro; try dsimp only) | dsimp only | contradiction)

theorem keeps_execFcmp {z0 : State} {g : Guard} {t : FType} {cond : FCond} {pd : PredDst} {a b : Src} {s : State} (hs : Keeps z0 s) :
    ∀ t9, (execFcmp g t cond pd a b s) = .next t9 → Keeps z0 t9 := by
  unfold execFcmp
  intro t9
  try dsimp only
  repeat' (first | with_reducible assumption | with_reducible apply keeps_compare | (simp only [keeps_mk]; with_reducible apply Keeps.core) | (intro h9; obtain rfl := Host.Outcome.next.inj h9; try dsimp only) | split | (intro; try dsimp only) | dsimp only | contradiction)

theorem keeps_execFcmpImm {z0 : State} {g : Guard} {t : FType} {cond : FCond} {pd : PredDst} {a : Src} {imm : BitVec 22} {s : State} (hs : Keeps z0 s) :
    ∀ t9, (execFcmpImm g t cond pd a imm s) = .next t9 → Keeps z0 t9 := by
  unfold execFcmpImm
  intro t9
  try dsimp only
  repeat' (first | with_reducible assumption | with_reducible apply keeps_compare | (simp only [keeps_mk]; with_reducible apply Keeps.core) | (intro h9; obtain rfl := Host.Outcome.next.inj h9; try dsimp only) | split | (intro; try dsimp only) | dsimp only | contradiction)

theorem keeps_specFn {z0 : State} {s : State} {g : Guard} {d : Opd} {a : Src} {fn : SpecFn} (hs : Keeps z0 s) :
    Keeps z0 (State.specFn s g d a fn) := by
  unfold State.specFn
  try dsimp only
  repeat' (first | with_reducible assumption | with_reducible apply keeps_lanewise | (simp only [keeps_mk]; with_reducible apply Keeps.core) | (intro; try dsimp only) | split | dsimp only | contradiction)

theorem keeps_execRcp {z0 : State} {g : Guard} {d : Opd} {a : Src} {s : State} (hs : Keeps z0 s) :
    ∀ t9, (execRcp g d a s) = .next t9 → Keeps z0 t9 := by
  unfold execRcp
  intro t9
  try dsimp only
  repeat' (first | with_reducible assumption | with_reducible apply keeps_specFn | (simp only [keeps_mk]; with_reducible apply Keeps.core) | (intro h9; obtain rfl := Host.Outcome.next.inj h9; try dsimp only) | split | (intro; try dsimp only) | dsimp only | contradiction)

theorem keeps_execRsq {z0 : State} {g : Guard} {d : Opd} {a : Src} {s : State} (hs : Keeps z0 s) :
    ∀ t9, (execRsq g d a s) = .next t9 → Keeps z0 t9 := by
  unfold execRsq
  intro t9
  try dsimp only
  repeat' (first | with_reducible assumption | with_reducible apply keeps_specFn | (simp only [keeps_mk]; with_reducible apply Keeps.core) | (intro h9; obtain rfl := Host.Outcome.next.inj h9; try dsimp only) | split | (intro; try dsimp only) | dsimp only | contradiction)

theorem keeps_execSqrt {z0 : State} {g : Guard} {d : Opd} {a : Src} {s : State} (hs : Keeps z0 s) :
    ∀ t9, (execSqrt g d a s) = .next t9 → Keeps z0 t9 := by
  unfold execSqrt
  intro t9
  try dsimp only
  repeat' (first | with_reducible assumption | with_reducible apply keeps_specFn | (simp only [keeps_mk]; with_reducible apply Keeps.core) | (intro h9; obtain rfl := Host.Outcome.next.inj h9; try dsimp only) | split | (intro; try dsimp only) | dsimp only | contradiction)

theorem keeps_execEx2 {z0 : State} {g : Guard} {d : Opd} {a : Src} {s : State} (hs : Keeps z0 s) :
    ∀ t9, (execEx2 g d a s) = .next t9 → Keeps z0 t9 := by
  unfold execEx2
  intro t9
  try dsimp only
  repeat' (first | with_reducible assumption | with_reducible apply keeps_specFn | (simp only [keeps_mk]; with_reducible apply Keeps.core) | (intro h9; obtain rfl := Host.Outcome.next.inj h9; try dsimp only) | split | (intro; try dsimp only) | dsimp only | contradiction)

theorem keeps_execLg2 {z0 : State} {g : Guard} {d : Opd} {a : Src} {s : State} (hs : Keeps z0 s) :
    ∀ t9, (execLg2 g d a s) = .next t9 → Keeps z0 t9 := by
  unfold execLg2
  intro t9
  try dsimp only
  repeat' (first | with_reducible assumption | with_reducible apply keeps_specFn | (simp only [keeps_mk]; with_reducible apply Keeps.core) | (intro h9; obtain rfl := Host.Outcome.next.inj h9; try dsimp only) | split | (intro; try dsimp only) | dsimp only | contradiction)

theorem keeps_execSinpi {z0 : State} {g : Guard} {d : Opd} {a : Src} {s : State} (hs : Keeps z0 s) :
    ∀ t9, (execSinpi g d a s) = .next t9 → Keeps z0 t9 := by
  unfold execSinpi
  intro t9
  try dsimp only
  repeat' (first | with_reducible assumption | with_reducible apply keeps_specFn | (simp only [keeps_mk]; with_reducible apply Keeps.core) | (intro h9; obtain rfl := Host.Outcome.next.inj h9; try dsimp only) | split | (intro; try dsimp only) | dsimp only | contradiction)

theorem keeps_execCospi {z0 : State} {g : Guard} {d : Opd} {a : Src} {s : State} (hs : Keeps z0 s) :
    ∀ t9, (execCospi g d a s) = .next t9 → Keeps z0 t9 := by
  unfold execCospi
  intro t9
  try dsimp only
  repeat' (first | with_reducible assumption | with_reducible apply keeps_specFn | (simp only [keeps_mk]; with_reducible apply Keeps.core) | (intro h9; obtain rfl := Host.Outcome.next.inj h9; try dsimp only) | split | (intro; try dsimp only) | dsimp only | contradiction)

theorem keeps_execTanh {z0 : State} {g : Guard} {d : Opd} {a : Src} {s : State} (hs : Keeps z0 s) :
    ∀ t9, (execTanh g d a s) = .next t9 → Keeps z0 t9 := by
  unfold execTanh
  intro t9
  try dsimp only
  repeat' (first | with_reducible assumption | with_reducible apply keeps_specFn | (simp only [keeps_mk]; with_reducible apply Keeps.core) | (intro h9; obtain rfl := Host.Outcome.next.inj h9; try dsimp only) | split | (intro; try dsimp only) | dsimp only | contradiction)

theorem keeps_execCvt {z0 : State} {g : Guard} {src dst : Fmt} {part : Fin 8} {rm : RMode} {sat amax : Bool} {d : Opd} {a : Src} {s : State} (hs : Keeps z0 s) :
    ∀ t9, (execCvt g src dst part rm sat amax d a s) = .next t9 → Keeps z0 t9 := by
  unfold execCvt
  intro t9
  try dsimp only
  repeat' (first | with_reducible assumption | with_reducible apply keeps_simple | (simp only [keeps_mk]; with_reducible apply Keeps.core) | (intro h9; obtain rfl := Host.Outcome.next.inj h9; try dsimp only) | split | (intro; try dsimp only) | dsimp only | contradiction)

theorem keeps_execAmaxr {z0 : State} {g : Guard} {nr : Bool} {d : Opd} {s : State} (hs : Keeps z0 s) :
    ∀ t9, (execAmaxr g nr d s) = .next t9 → Keeps z0 t9 := by
  unfold execAmaxr
  intro t9
  try dsimp only
  repeat' (first | with_reducible assumption | with_reducible apply keeps_simple | (simp only [keeps_mk]; with_reducible apply Keeps.core) | (intro h9; obtain rfl := Host.Outcome.next.inj h9; try dsimp only) | split | (intro; try dsimp only) | dsimp only | contradiction)

theorem keeps_execPack {z0 : State} {g : Guard} {k : PackKind} {d : Opd} {a b : Src} {s : State} (hs : Keeps z0 s) :
    ∀ t9, (execPack g k d a b s) = .next t9 → Keeps z0 t9 := by
  unfold execPack
  intro t9
  try dsimp only
  repeat' (first | with_reducible assumption | with_reducible apply keeps_simple | (simp only [keeps_mk]; with_reducible apply Keeps.core) | (intro h9; obtain rfl := Host.Outcome.next.inj h9; try dsimp only) | split | (intro; try dsimp only) | dsimp only | contradiction)

theorem keeps_execUnpack {z0 : State} {g : Guard} {k : UnpackKind} {d : Opd} {a : Src} {s : State} (hs : Keeps z0 s) :
    ∀ t9, (execUnpack g k d a s) = .next t9 → Keeps z0 t9 := by
  unfold execUnpack
  intro t9
  try dsimp only
  repeat' (first | with_reducible assumption | with_reducible apply keeps_simple | (simp only [keeps_mk]; with_reducible apply Keeps.core) | (intro h9; obtain rfl := Host.Outcome.next.inj h9; try dsimp only) | split | (intro; try dsimp only) | dsimp only | contradiction)

theorem keeps_execMxscale {z0 : State} {g : Guard} {op : MxOp} {d : Opd} {a : Src} {s : State} (hs : Keeps z0 s) :
    ∀ t9, (execMxscale g op d a s) = .next t9 → Keeps z0 t9 := by
  unfold execMxscale
  intro t9
  try dsimp only
  repeat' (first | with_reducible assumption | with_reducible apply keeps_lanewise | (simp only [keeps_mk]; with_reducible apply Keeps.core) | (intro h9; obtain rfl := Host.Outcome.next.inj h9; try dsimp only) | split | (intro; try dsimp only) | dsimp only | contradiction)

theorem keeps_execShfl {z0 : State} {g : Guard} {w : IWidth} {mode : ShflMode} {d : Opd} {a b c : Src} {s : State} (hs : Keeps z0 s) :
    ∀ t9, (execShfl g w mode d a b c s) = .next t9 → Keeps z0 t9 := by
  unfold execShfl
  intro t9
  try dsimp only
  repeat' (first | with_reducible assumption | with_reducible apply keeps_simple | (simp only [keeps_mk]; with_reducible apply Keeps.core) | (intro h9; obtain rfl := Host.Outcome.next.inj h9; try dsimp only) | split | (intro; try dsimp only) | dsimp only | contradiction)

theorem keeps_execShflImm {z0 : State} {g : Guard} {w : IWidth} {mode : ShflMode} {d : Opd} {a : Src} {n : BitVec 9} {s : State} (hs : Keeps z0 s) :
    ∀ t9, (execShflImm g w mode d a n s) = .next t9 → Keeps z0 t9 := by
  unfold execShflImm
  intro t9
  try dsimp only
  repeat' (first | with_reducible assumption | with_reducible apply keeps_simple | (simp only [keeps_mk]; with_reducible apply Keeps.core) | (intro h9; obtain rfl := Host.Outcome.next.inj h9; try dsimp only) | split | (intro; try dsimp only) | dsimp only | contradiction)

theorem keeps_execBcast {z0 : State} {g : Guard} {w : IWidth} {d : Opd} {a b : Src} {s : State} (hs : Keeps z0 s) :
    ∀ t9, (execBcast g w d a b s) = .next t9 → Keeps z0 t9 := by
  unfold execBcast
  intro t9
  try dsimp only
  repeat' (first | with_reducible assumption | with_reducible apply keeps_simple | (simp only [keeps_mk]; with_reducible apply Keeps.core) | (intro h9; obtain rfl := Host.Outcome.next.inj h9; try dsimp only) | split | (intro; try dsimp only) | dsimp only | contradiction)

theorem keeps_execBcastImm {z0 : State} {g : Guard} {w : IWidth} {d : Opd} {a : Src} {k : BitVec 8} {s : State} (hs : Keeps z0 s) :
    ∀ t9, (execBcastImm g w d a k s) = .next t9 → Keeps z0 t9 := by
  unfold execBcastImm
  intro t9
  try dsimp only
  repeat' (first | with_reducible assumption | with_reducible apply keeps_simple | (simp only [keeps_mk]; with_reducible apply Keeps.core) | (intro h9; obtain rfl := Host.Outcome.next.inj h9; try dsimp only) | split | (intro; try dsimp only) | dsimp only | contradiction)

theorem keeps_execVote {z0 : State} {g : Guard} {mode : VoteMode} {v : Fin 8} {neg : Bool} {q : Fin 8} {d : Opd} {s : State} (hs : Keeps z0 s) :
    ∀ t9, (execVote g mode v neg q d s) = .next t9 → Keeps z0 t9 := by
  unfold execVote
  intro t9
  try dsimp only
  repeat' (first | with_reducible assumption | with_reducible apply keeps_simple | (simp only [keeps_mk]; with_reducible apply Keeps.core) | (intro h9; obtain rfl := Host.Outcome.next.inj h9; try dsimp only) | split | (intro; try dsimp only) | dsimp only | contradiction)

theorem keeps_execBallot {z0 : State} {g : Guard} {mode : BallotMode} {neg : Bool} {q : Fin 8} {d : Opd} {s : State} (hs : Keeps z0 s) :
    ∀ t9, (execBallot g mode neg q d s) = .next t9 → Keeps z0 t9 := by
  unfold execBallot
  intro t9
  try dsimp only
  repeat' (first | with_reducible assumption | with_reducible apply keeps_simple | (simp only [keeps_mk]; with_reducible apply Keeps.core) | (intro h9; obtain rfl := Host.Outcome.next.inj h9; try dsimp only) | split | (intro; try dsimp only) | dsimp only | contradiction)

theorem keeps_reduce {z0 : State} {s : State} {scan : Bool} {g : Guard} {op : RedOp} {t : RedType} {d : Opd} {a : Src} (hs : Keeps z0 s) :
    Keeps z0 (State.reduce s scan g op t d a) := by
  unfold State.reduce
  try dsimp only
  repeat' (first | with_reducible assumption | with_reducible apply keeps_simple | (simp only [keeps_mk]; with_reducible apply Keeps.core) | (intro; try dsimp only) | split | dsimp only | contradiction)

theorem keeps_execLreduce {z0 : State} {g : Guard} {op : RedOp} {t : RedType} {d : Opd} {a : Src} {s : State} (hs : Keeps z0 s) :
    ∀ t9, (execLreduce g op t d a s) = .next t9 → Keeps z0 t9 := by
  unfold execLreduce
  intro t9
  try dsimp only
  repeat' (first | with_reducible assumption | with_reducible apply keeps_reduce | (simp only [keeps_mk]; with_reducible apply Keeps.core) | (intro h9; obtain rfl := Host.Outcome.next.inj h9; try dsimp only) | split | (intro; try dsimp only) | dsimp only | contradiction)

theorem keeps_execLscan {z0 : State} {g : Guard} {op : RedOp} {t : RedType} {d : Opd} {a : Src} {s : State} (hs : Keeps z0 s) :
    ∀ t9, (execLscan g op t d a s) = .next t9 → Keeps z0 t9 := by
  unfold execLscan
  intro t9
  try dsimp only
  repeat' (first | with_reducible assumption | with_reducible apply keeps_reduce | (simp only [keeps_mk]; with_reducible apply Keeps.core) | (intro h9; obtain rfl := Host.Outcome.next.inj h9; try dsimp only) | split | (intro; try dsimp only) | dsimp only | contradiction)

theorem keeps_execPairedWord {z0 : State} {h0 h1 : Half} {s : State} (hs : Keeps z0 s) :
    ∀ t9, (execPairedWord h0 h1 s) = .next t9 → Keeps z0 t9 := by
  unfold execPairedWord
  intro t9
  try dsimp only
  repeat' (first | with_reducible assumption | with_reducible apply keeps_setMe | with_reducible apply keeps_trap | (simp only [keeps_mk]; with_reducible apply Keeps.core) | (intro h9; obtain rfl := Host.Outcome.next.inj h9; try dsimp only) | split | (intro; try dsimp only) | dsimp only | contradiction)

theorem keeps_groupLevel {z0 : State} {s : State} {role : Role → Bool} {gd : Guard} {ops : List Opd} {k : List Nat → State → State} (hs : Keeps z0 s) (hk : ∀ a u, Keeps z0 u → Keeps z0 (k a u)) :
    Keeps z0 (State.groupLevel s role gd ops k) := by
  unfold State.groupLevel
  try dsimp only
  repeat' (first | with_reducible assumption | with_reducible apply hk | with_reducible apply keeps_commit | with_reducible apply keeps_issue | (simp only [keeps_mk]; with_reducible apply Keeps.core) | (intro; try dsimp only) | split | dsimp only | contradiction)

theorem keeps_groupRun {z0 : State} {s : State} {role : Role → Bool} {gd : Guard} {ops : List Opd} {runs : List (Opd × Nat)} {k : List Nat → State → State} (hs : Keeps z0 s) (hk : ∀ a u, Keeps z0 u → Keeps z0 (k a u)) :
    Keeps z0 (State.groupRun s role gd ops runs k) := by
  unfold State.groupRun
  try dsimp only
  repeat' (first | with_reducible assumption | with_reducible apply hk | with_reducible apply keeps_issueRun | with_reducible apply keeps_commit | (simp only [keeps_mk]; with_reducible apply Keeps.core) | (intro; try dsimp only) | split | dsimp only | contradiction)

theorem keeps_blocking {z0 : State} {s : State} {role : Role → Bool} {gd : Guard} {ops : List Opd} {k : List Nat → State → State} (hs : Keeps z0 s) (hk : ∀ a u, Keeps z0 u → Keeps z0 (k a u)) :
    Keeps z0 (State.blocking s role gd ops k) := by
  unfold State.blocking
  try dsimp only
  repeat' (first | with_reducible assumption | with_reducible apply hk | with_reducible apply keeps_setMe | with_reducible apply keeps_issue | (simp only [keeps_mk]; with_reducible apply Keeps.core) | (intro; try dsimp only) | split | dsimp only | contradiction)

theorem keeps_block {z0 : State} {s : State} {w : Wait} (hs : Keeps z0 s) :
    Keeps z0 (State.block s w) := by
  unfold State.block
  try dsimp only
  repeat' (first | with_reducible assumption | with_reducible apply keeps_setMe | (simp only [keeps_mk]; with_reducible apply Keeps.core) | (intro; try dsimp only) | split | dsimp only | contradiction)

theorem keeps_passBlock {z0 : State} {s : State} (hs : Keeps z0 s) :
    Keeps z0 (State.passBlock s) := by
  unfold State.passBlock
  try dsimp only
  repeat' (first | with_reducible assumption | with_reducible apply keeps_setMe | (simp only [keeps_mk]; with_reducible apply Keeps.core) | (intro; try dsimp only) | split | dsimp only | contradiction)

theorem keeps_execBar {z0 : State} {g : Guard} {arr : Bool} {count : BitVec 9} {id : Fin 16} {s : State} (hs : Keeps z0 s) :
    ∀ t9, (execBar g arr count id s) = .next t9 → Keeps z0 t9 := by
  unfold execBar
  intro t9
  try dsimp only
  repeat' (first | with_reducible assumption | with_reducible apply keeps_teamBarrier | with_reducible apply keeps_groupLevel | with_reducible apply keeps_blocking | with_reducible apply keeps_commit | with_reducible apply keeps_block | (simp only [keeps_mk]; with_reducible apply Keeps.core) | (intro h9; obtain rfl := Host.Outcome.next.inj h9; try dsimp only) | split | (intro; try dsimp only) | dsimp only | contradiction)

theorem keeps_execCbar {z0 : State} {g : Guard} {arr : Bool} {count : BitVec 9} {id : Fin 8} {s : State} (hs : Keeps z0 s) :
    ∀ t9, (execCbar g arr count id s) = .next t9 → Keeps z0 t9 := by
  unfold execCbar
  intro t9
  try dsimp only
  repeat' (first | with_reducible assumption | with_reducible apply keeps_clusterBarrier | with_reducible apply keeps_groupLevel | with_reducible apply keeps_blocking | with_reducible apply keeps_commit | with_reducible apply keeps_block | (simp only [keeps_mk]; with_reducible apply Keeps.core) | (intro h9; obtain rfl := Host.Outcome.next.inj h9; try dsimp only) | split | (intro; try dsimp only) | dsimp only | contradiction)

theorem keeps_execWaitany {z0 : State} {g : Guard} {d a : Opd} {count : Fin 9} {s : State} (hs : Keeps z0 s) :
    ∀ t9, (execWaitany g d a count s) = .next t9 → Keeps z0 t9 := by
  unfold execWaitany
  intro t9
  try dsimp only
  repeat' (first | with_reducible assumption | with_reducible apply keeps_blocking | with_reducible apply keeps_setMe | with_reducible apply keeps_block | with_reducible apply keeps_trap | (simp only [keeps_mk]; with_reducible apply Keeps.core) | (intro h9; obtain rfl := Host.Outcome.next.inj h9; try dsimp only) | split | (intro; try dsimp only) | dsimp only | contradiction)

theorem keeps_execEvmask {z0 : State} {g : Guard} {op : EvOp} {hi : Bool} {a : Opd} {s : State} (hs : Keeps z0 s) :
    ∀ t9, (execEvmask g op hi a s) = .next t9 → Keeps z0 t9 := by
  unfold execEvmask
  intro t9
  try dsimp only
  repeat' (first | with_reducible assumption | with_reducible apply keeps_groupLevel | with_reducible apply keeps_setMe | (simp only [keeps_mk]; with_reducible apply Keeps.core) | (intro h9; obtain rfl := Host.Outcome.next.inj h9; try dsimp only) | split | (intro; try dsimp only) | dsimp only | contradiction)

theorem keeps_execEvread {z0 : State} {g : Guard} {mask clr hi : Bool} {d : Opd} {s : State} (hs : Keeps z0 s) :
    ∀ t9, (execEvread g mask clr hi d s) = .next t9 → Keeps z0 t9 := by
  unfold execEvread
  intro t9
  try dsimp only
  repeat' (first | with_reducible assumption | with_reducible apply keeps_groupLevel | with_reducible apply keeps_setMe | (simp only [keeps_mk]; with_reducible apply Keeps.core) | (intro h9; obtain rfl := Host.Outcome.next.inj h9; try dsimp only) | split | (intro; try dsimp only) | dsimp only | contradiction)

theorem keeps_setMailbox {z0 : State} {s : State} {core m : Nat} {x : Mailbox} (hs : Keeps z0 s) :
    Keeps z0 (State.setMailbox s core m x) := by
  unfold State.setMailbox
  try dsimp only
  repeat' (first | with_reducible assumption | with_reducible apply keeps_setCore | (simp only [keeps_mk]; with_reducible apply Keeps.core) | (intro; try dsimp only) | split | dsimp only | contradiction)

theorem keeps_execMbsend {z0 : State} {g : Guard} {q : Fin 8} {a b : Opd} {s : State} (hs : Keeps z0 s) :
    ∀ t9, (execMbsend g q a b s) = .next t9 → Keeps z0 t9 := by
  unfold execMbsend
  intro t9
  try dsimp only
  repeat' (first | with_reducible assumption | with_reducible apply keeps_groupLevel | with_reducible apply keeps_setMailbox | with_reducible apply keeps_memFault | with_reducible apply keeps_raiseAll | with_reducible apply keeps_setMe | (simp only [keeps_mk]; with_reducible apply Keeps.core) | (intro h9; obtain rfl := Host.Outcome.next.inj h9; try dsimp only) | split | (intro; try dsimp only) | dsimp only | contradiction)

theorem keeps_execMbrecv {z0 : State} {g : Guard} {q : Fin 8} {d a : Opd} {s : State} (hs : Keeps z0 s) :
    ∀ t9, (execMbrecv g q d a s) = .next t9 → Keeps z0 t9 := by
  unfold execMbrecv
  intro t9
  try dsimp only
  repeat' (first | with_reducible assumption | with_reducible apply keeps_groupLevel | with_reducible apply keeps_setMailbox | with_reducible apply keeps_setMe | (simp only [keeps_mk]; with_reducible apply Keeps.core) | (intro h9; obtain rfl := Host.Outcome.next.inj h9; try dsimp only) | split | (intro; try dsimp only) | dsimp only | contradiction)

theorem keeps_execRingwait {z0 : State} {g : Guard} {ring : Fin 8} {sel : RingSel} {s : State} (hs : Keeps z0 s) :
    ∀ t9, (execRingwait g ring sel s) = .next t9 → Keeps z0 t9 := by
  unfold execRingwait
  intro t9
  try dsimp only
  repeat' (first | with_reducible assumption | with_reducible apply keeps_passBlock | with_reducible apply keeps_blocking | with_reducible apply keeps_block | with_reducible apply keeps_trap | (simp only [keeps_mk]; with_reducible apply Keeps.core) | (intro h9; obtain rfl := Host.Outcome.next.inj h9; try dsimp only) | split | (intro; try dsimp only) | dsimp only | contradiction)

theorem keeps_execRingrel {z0 : State} {g : Guard} {ring : Fin 8} {sel : RingRelSel} {s : State} (hs : Keeps z0 s) :
    ∀ t9, (execRingrel g ring sel s) = .next t9 → Keeps z0 t9 := by
  unfold execRingrel
  intro t9
  try dsimp only
  repeat' (first | with_reducible assumption | with_reducible apply keeps_groupLevel | with_reducible apply keeps_setTeam | with_reducible apply keeps_commit | with_reducible apply keeps_trap | (simp only [keeps_mk]; with_reducible apply Keeps.core) | (intro h9; obtain rfl := Host.Outcome.next.inj h9; try dsimp only) | split | (intro; try dsimp only) | dsimp only | contradiction)

theorem keeps_askGrow {z0 : State} {s : State} {acc : Bool} {k : Nat} (hs : Keeps z0 s) :
    Keeps z0 (State.askGrow s acc k) := by
  unfold State.askGrow
  try dsimp only
  repeat' (first | with_reducible assumption | with_reducible apply keeps_growCheck | with_reducible apply keeps_passBlock | with_reducible apply keeps_growGive | with_reducible apply keeps_setCore | with_reducible apply keeps_block | with_reducible apply Keeps.foldl | with_reducible apply Keeps.foldlFst | (simp only [keeps_mk]; with_reducible apply Keeps.core) | (intro; try dsimp only) | split | dsimp only | contradiction)

theorem keeps_execReggrow {z0 : State} {g : Guard} {k : Fin 32} {s : State} (hs : Keeps z0 s) :
    ∀ t9, (execReggrow g k s) = .next t9 → Keeps z0 t9 := by
  unfold execReggrow
  intro t9
  try dsimp only
  repeat' (first | with_reducible assumption | with_reducible apply keeps_blocking | with_reducible apply keeps_askGrow | with_reducible apply keeps_trap | (simp only [keeps_mk]; with_reducible apply Keeps.core) | (intro h9; obtain rfl := Host.Outcome.next.inj h9; try dsimp only) | split | (intro; try dsimp only) | dsimp only | contradiction)

theorem keeps_execAccgrow {z0 : State} {g : Guard} {k : Fin 4} {s : State} (hs : Keeps z0 s) :
    ∀ t9, (execAccgrow g k s) = .next t9 → Keeps z0 t9 := by
  unfold execAccgrow
  intro t9
  try dsimp only
  repeat' (first | with_reducible assumption | with_reducible apply keeps_blocking | with_reducible apply keeps_askGrow | with_reducible apply keeps_trap | (simp only [keeps_mk]; with_reducible apply Keeps.core) | (intro h9; obtain rfl := Host.Outcome.next.inj h9; try dsimp only) | split | (intro; try dsimp only) | dsimp only | contradiction)

theorem keeps_growGrants {z0 : State} {core : Nat} {acc : Bool} {n : Nat} {s : State} (hs : Keeps z0 s) :
    Keeps z0 (s.growGrants core acc n) := by
  induction n generalizing s with
  | zero => exact hs
  | succ n ih =>
    unfold State.growGrants
    repeat' (first | assumption | split | apply ih (keeps_growServe hs))

theorem keeps_execRegshrink {z0 : State} {g : Guard} {k : Fin 32} {s : State} (hs : Keeps z0 s) :
    ∀ t9, (execRegshrink g k s) = .next t9 → Keeps z0 t9 := by
  unfold execRegshrink
  intro t9
  try dsimp only
  repeat' (first | with_reducible assumption | with_reducible apply keeps_growGrants | with_reducible apply keeps_groupLevel | with_reducible apply keeps_setMe | with_reducible apply keeps_trap | (simp only [keeps_mk]; with_reducible apply Keeps.core) | (intro h9; obtain rfl := Host.Outcome.next.inj h9; try dsimp only) | split | (intro; try dsimp only) | dsimp only | contradiction)

theorem keeps_execGrowGrant {z0 : State} {core : Nat} {acc : Bool} {s : State} (hs : Keeps z0 s) :
    ∀ t9, (execGrowGrant core acc s) = .next t9 → Keeps z0 t9 := by
  unfold execGrowGrant
  intro t9
  try dsimp only
  repeat' (first | with_reducible assumption | with_reducible apply keeps_growRelief | with_reducible apply keeps_growGrant | (simp only [keeps_mk]; with_reducible apply Keeps.core) | (intro h9; obtain rfl := Host.Outcome.next.inj h9; try dsimp only) | split | (intro; try dsimp only) | dsimp only | contradiction)

theorem keeps_laneAt {z0 : State} {s : State} {g : Group} {spc : Space} {l a n : Nat} {need : Need} (hs : Keeps z0 s) :
    Keeps z0 (State.laneAt s g spc l a n need).1 := by
  unfold State.laneAt
  try dsimp only
  repeat' (first | with_reducible assumption | with_reducible apply keeps_translate | (simp only [keeps_mk]; with_reducible apply Keeps.core) | (intro; try dsimp only) | split | dsimp only | contradiction)

/-- A key of a scratchpad or of the chip scratchpad. -/

theorem far_spKey (c a : Nat) : 2 ^ 52 ≤ spKey c a := by unfold spKey; omega

theorem far_chKey (o : Nat) : 2 ^ 52 ≤ chKey o := by unfold chKey; omega

theorem spAt_far {core lo n : Nat} {bs ks : List Nat} {r : List SbRange} (h : spAt core lo n bs = .cells ks r) :
    ∀ k ∈ ks, 2 ^ 52 ≤ k := by
  unfold spAt at h
  obtain ⟨rfl, rfl⟩ := LaneAt.cells.inj h
  intro k hk
  obtain ⟨a, -, rfl⟩ := List.mem_map.mp hk
  exact far_spKey _ _

theorem State.scratchAt_far {s : State} {g : Group} {o n : Nat} {ks : List Nat} {r : List SbRange}
    (h : s.scratchAt g o n = .cells ks r) : ∀ k ∈ ks, 2 ^ 52 ≤ k := by
  unfold State.scratchAt at h
  dsimp only at h
  split at h
  · exact spAt_far h
  · cases h

theorem State.sharedAt_far {s : State} {g : Group} {a n : Nat} {ks : List Nat} {r : List SbRange}
    (h : s.sharedAt g a n = .cells ks r) : ∀ k ∈ ks, 2 ^ 52 ≤ k := by
  unfold State.sharedAt at h
  dsimp only at h
  split at h
  · cases h
  · split at h
    · cases h
    · split at h
      · cases h
      · exact spAt_far h

theorem State.chipAt_far {s : State} {part o n : Nat} {ks : List Nat} {r : List SbRange}
    (h : s.chipAt part o n = .cells ks r) : ∀ k ∈ ks, 2 ^ 52 ≤ k := by
  unfold State.chipAt at h
  dsimp only at h
  split at h
  · obtain ⟨rfl, rfl⟩ := LaneAt.cells.inj h
    intro k hk
    obtain ⟨a, -, rfl⟩ := List.mem_map.mp hk
    exact far_chKey _
  · cases h

theorem State.privAt_far {s : State} {g : Group} {l o n : Nat} {ks : List Nat} {r : List SbRange}
    (h : s.privAt g l o n = .cells ks r) : ∀ k ∈ ks, 2 ^ 52 ≤ k := by
  unfold State.privAt at h
  dsimp only at h
  split at h
  · obtain ⟨rfl, rfl⟩ := LaneAt.cells.inj h
    intro k hk
    obtain ⟨a, -, rfl⟩ := List.mem_map.mp hk
    exact far_spKey _ _
  · cases h

/-- Cells that an access finds lie above physical memory. -/

theorem State.laneAt_far {s : State} {g : Group} {spc : Space} {l a n : Nat} {need : Need} {ks : List Nat} {r : List SbRange}
    (h : (s.laneAt g spc l a n need).2 = .cells ks r) : ∀ k ∈ ks, 2 ^ 52 ≤ k := by
  unfold State.laneAt at h
  split at h
  · cases h
  · split at h
    · cases h
    · split at h
      · exact State.privAt_far h
      · exact State.scratchAt_far h
      · exact State.sharedAt_far h
      · exact State.chipAt_far h
      · dsimp only at h
        split at h <;> cases h

theorem keeps_cellsWrite {z0 : State} {s : State} {ks : List Nat} {bs : List Byte} (hk : ∀ k ∈ ks, 2 ^ 52 ≤ k) (hs : Keeps z0 s) :
    Keeps z0 (State.cellsWrite s ks bs) := by
  unfold State.cellsWrite
  have hz : ∀ e ∈ ks.zip bs, 2 ^ 52 ≤ e.1 := fun e he => hk _ (List.of_mem_zip he).1
  revert hz
  generalize ks.zip bs = l
  intro hz
  induction l generalizing s with
  | nil => exact hs
  | cons e r ih =>
    exact ih (keeps_setByte hs fun _ => .inr (.inl (Nat.le_trans (by decide) (hz e (by simp)))))
      fun x hx => hz x (by simp [hx])

/-- Cells that lie above physical memory. -/
def LaneAt.far : LaneAt → Prop
  | .cells ks _ => ∀ k ∈ ks, 2 ^ 52 ≤ k
  | _ => True

theorem State.far_laneAt (s : State) (g : Group) (spc : Space) (l a n : Nat) (need : Need) : (s.laneAt g spc l a n need).2.far := by
  cases h : (s.laneAt g spc l a n need).2 with
  | cells ks r => exact State.laneAt_far h
  | _ => trivial

theorem State.far_placeLanes (s : State) (g : Group) (spc : Space) (n : Nat) (need : Need) (addr : Nat → Nat) (ls : List Nat) :
    ∀ e ∈ (s.placeLanes g spc n need addr ls).2, e.2.far := by
  induction ls generalizing s with
  | nil => intro e he; cases he
  | cons l r ih =>
    intro e he
    rcases List.mem_cons.mp he with rfl | he
    · exact State.far_laneAt ..
    · exact ih _ e he

theorem keeps_placeRead {z0 : State} {s : State} {x : LaneAt} {n : Nat} (hs : Keeps z0 s) : Keeps z0 (s.placeRead x n).1 := by
  unfold State.placeRead
  split
  · exact hs
  · exact hs
  · split <;> exact hs
  · dsimp only
    split <;> exact keeps_physRead hs

theorem keeps_placeWrite {z0 : State} {s : State} {x : LaneAt} {bs : List Byte} (hx : x.far) (hs : Keeps z0 s) :
    Keeps z0 (s.placeWrite x bs).1 := by
  unfold State.placeWrite
  split
  · exact hs
  · exact hs
  · exact keeps_cellsWrite hx (keeps_remember hs)
  · dsimp only
    split <;> exact keeps_physWrite (keeps_remember hs)

theorem keeps_placeLanes {z0 : State} {g : Group} {spc : Space} {n : Nat} {need : Need} {addr : Nat → Nat} {ls : List Nat} {s : State}
    (hs : Keeps z0 s) : Keeps z0 (s.placeLanes g spc n need addr ls).1 := by
  induction ls generalizing s with
  | nil => exact hs
  | cons l r ih => exact ih (keeps_laneAt hs)

theorem keeps_accessWaits {z0 : State} {s : State} {g : Group} {p : Bool} {ps : List (Nat × LaneAt)} (hs : Keeps z0 s) :
    ∀ t9, s.accessWaits g p ps = some t9 → Keeps z0 t9 := by
  unfold State.accessWaits
  intro t9
  split
  · intro h; obtain rfl := Option.some.inj h; split
    · exact keeps_setMe hs
    · exact hs
  · split
    · intro h; obtain rfl := Option.some.inj h; exact hs
    · intro h; cases h

theorem keeps_loadLanes {z0 : State} {n : Nat} {ps : List (Nat × LaneAt)} {s : State} (hs : Keeps z0 s) :
    Keeps z0 (s.loadLanes n ps).1 := by
  induction ps generalizing s with
  | nil => exact hs
  | cons e r ih =>
    unfold State.loadLanes
    dsimp only
    split <;> exact ih (keeps_placeRead hs)

theorem keeps_execLd {z0 : State} {g : Guard} {spc : Space} {sz : Size} {_acq : Bool} {_sc : Scope} {la : Fin 16} {d : Opd} {base x : Src} {off : BitVec 11} {s : State} (hs : Keeps z0 s) :
    ∀ t9, (execLd g spc sz _acq _sc la d base x off s) = .next t9 → Keeps z0 t9 := by
  unfold execLd
  intro t9
  try dsimp only
  repeat' (first | with_reducible assumption | with_reducible apply keeps_loadLanes | with_reducible apply keeps_placeLanes | with_reducible apply keeps_memFault | with_reducible apply keeps_laneAt | with_reducible apply keeps_setMe | with_reducible apply keeps_issue | (simp only [keeps_mk]; with_reducible apply Keeps.core) | (intro h9; obtain rfl := Host.Outcome.next.inj h9; try dsimp only) | split | (intro; try dsimp only) | dsimp only | contradiction | (refine keeps_accessWaits ?_ _ ‹_ = some _› <;> assumption))

theorem keeps_storeLanes {z0 : State} {s : State} {n : Nat} {data : Nat → Word} {ps : List (Nat × LaneAt)}
    (hp : ∀ e ∈ ps, e.2.far) (hs : Keeps z0 s) : Keeps z0 (s.storeLanes n data ps) := by
  unfold State.storeLanes
  induction ps generalizing s with
  | nil => exact hs
  | cons e r ih => exact ih (fun x hx => hp x (by simp [hx])) (keeps_placeWrite (hp e (by simp)) hs)

theorem keeps_triedLanes {z0 : State} {s : State} {n : Nat} {w : Bool} {ps : List (Nat × LaneAt)} {bad : List (Nat × Nat)}
    (hs : Keeps z0 s) : Keeps z0 (s.triedLanes n w ps bad) := by
  unfold State.triedLanes
  refine Keeps.foldl hs fun u b hu => ?_
  unfold LaneAt.tried
  split
  · exact keeps_tryRange hu
  · exact hu

theorem keeps_execSt {z0 : State} {g : Guard} {spc : Space} {sz : Size} {_rel : Bool} {_sc : Scope} {base data : Src} {off : BitVec 11} {s : State} (hs : Keeps z0 s) :
    ∀ t9, (execSt g spc sz _rel _sc base data off s) = .next t9 → Keeps z0 t9 := by
  unfold execSt
  intro t9
  try dsimp only
  repeat' (first | with_reducible assumption | with_reducible apply keeps_triedLanes | with_reducible apply keeps_storeLanes (State.far_placeLanes _ _ _ _ _ _ _) | with_reducible apply keeps_placeLanes | with_reducible apply keeps_memFault | with_reducible apply keeps_laneAt | with_reducible apply keeps_setMe | with_reducible apply keeps_issue | (simp only [keeps_mk]; with_reducible apply Keeps.core) | (intro h9; obtain rfl := Host.Outcome.next.inj h9; try dsimp only) | split | (intro; try dsimp only) | dsimp only | contradiction | (refine keeps_accessWaits ?_ _ ‹_ = some _› <;> assumption))

theorem keeps_rmwLane {z0 : State} {s : State} {n : Nat} {x : LaneAt} {f : Nat → Option Nat} (hx : x.far) (hs : Keeps z0 s) :
    Keeps z0 (s.rmwLane n x f).1 := by
  unfold State.rmwLane
  dsimp only
  split
  · exact keeps_placeWrite hx (keeps_placeRead hs)
  · exact keeps_placeRead hs

theorem keeps_rmwLanes {z0 : State} {n : Nat} {f : Nat → Nat → Option Nat} {ps : List (Nat × LaneAt)} {s : State}
    (hp : ∀ e ∈ ps, e.2.far) (hs : Keeps z0 s) : Keeps z0 (s.rmwLanes n f ps).1 := by
  induction ps generalizing s with
  | nil => exact hs
  | cons e r ih => exact ih (fun x hx => hp x (by simp [hx])) (keeps_rmwLane (hp e (by simp)) hs)

theorem keeps_atomic {z0 : State} {s : State} {g : Guard} {spc : Space} {n : Nat} {la : Nat} {d : Opd} {base x : Src} {off : Int} {f : Group → Nat → Nat → Option Nat} {fl : Group → Nat → Nat → BitVec 32} (hs : Keeps z0 s) :
    Keeps z0 (State.atomic s g spc n la d base x off f fl) := by
  unfold State.atomic
  try dsimp only
  repeat' (first | with_reducible assumption | with_reducible apply keeps_triedLanes | with_reducible apply keeps_memFault | with_reducible apply keeps_rmwLanes (State.far_placeLanes _ _ _ _ _ _ _) | with_reducible apply keeps_placeLanes | with_reducible apply keeps_laneAt | with_reducible apply keeps_setMe | with_reducible apply keeps_issue | with_reducible apply Keeps.foldl | with_reducible apply Keeps.foldlFst | (simp only [keeps_mk]; with_reducible apply Keeps.core) | (intro; try dsimp only) | split | dsimp only | contradiction | (refine keeps_accessWaits ?_ _ ‹_ = some _› <;> assumption))

theorem keeps_execAtom {z0 : State} {g : Guard} {op : AtomOp} {_k : OrdKind} {spc : Space4} {sz : ASize} {_sc : Scope} {la : Fin 16} {d : Opd} {base x : Src} {off : BitVec 7} {s : State} (hs : Keeps z0 s) :
    ∀ t9, (execAtom g op _k spc sz _sc la d base x off s) = .next t9 → Keeps z0 t9 := by
  unfold execAtom
  intro t9
  try dsimp only
  repeat' (first | with_reducible assumption | with_reducible apply keeps_atomic | (simp only [keeps_mk]; with_reducible apply Keeps.core) | (intro h9; obtain rfl := Host.Outcome.next.inj h9; try dsimp only) | split | (intro; try dsimp only) | dsimp only | contradiction)

theorem keeps_execCas {z0 : State} {g : Guard} {_k : OrdKind} {spc : Space4} {sz : ASize} {_sc : Scope} {la : Fin 16} {d : Opd} {base x : Src} {off : BitVec 7} {s : State} (hs : Keeps z0 s) :
    ∀ t9, (execCas g _k spc sz _sc la d base x off s) = .next t9 → Keeps z0 t9 := by
  unfold execCas
  intro t9
  try dsimp only
  repeat' (first | with_reducible assumption | with_reducible apply keeps_atomic | (simp only [keeps_mk]; with_reducible apply Keeps.core) | (intro h9; obtain rfl := Host.Outcome.next.inj h9; try dsimp only) | split | (intro; try dsimp only) | dsimp only | contradiction)

theorem keeps_execPrefG {z0 : State} {g : Guard} {_sc : Scope} {base x : Src} {_off : BitVec 11} {s : State} (hs : Keeps z0 s) :
    ∀ t9, (execPrefG g _sc base x _off s) = .next t9 → Keeps z0 t9 := by
  unfold execPrefG
  intro t9
  try dsimp only
  repeat' (first | with_reducible assumption | with_reducible apply keeps_simple | (simp only [keeps_mk]; with_reducible apply Keeps.core) | (intro h9; obtain rfl := Host.Outcome.next.inj h9; try dsimp only) | split | (intro; try dsimp only) | dsimp only | contradiction)

theorem keeps_execFenceAcq {z0 : State} {g : Guard} {_sc : Scope} {s : State} (hs : Keeps z0 s) :
    ∀ t9, (execFenceAcq g _sc s) = .next t9 → Keeps z0 t9 := by
  unfold execFenceAcq
  intro t9
  try dsimp only
  repeat' (first | with_reducible assumption | with_reducible apply keeps_simple | (simp only [keeps_mk]; with_reducible apply Keeps.core) | (intro h9; obtain rfl := Host.Outcome.next.inj h9; try dsimp only) | split | (intro; try dsimp only) | dsimp only | contradiction)

theorem keeps_execFenceRel {z0 : State} {g : Guard} {sc : Scope} {s : State} (hs : Keeps z0 s) :
    ∀ t9, (execFenceRel g sc s) = .next t9 → Keeps z0 t9 := by
  unfold execFenceRel
  intro t9
  try dsimp only
  repeat' (first | with_reducible assumption | with_reducible apply keeps_groupLevel | with_reducible apply keeps_setMe | (simp only [keeps_mk]; with_reducible apply Keeps.core) | (intro h9; obtain rfl := Host.Outcome.next.inj h9; try dsimp only) | split | (intro; try dsimp only) | dsimp only | contradiction)

theorem keeps_execFenceAr {z0 : State} {g : Guard} {sc : Scope} {s : State} (hs : Keeps z0 s) :
    ∀ t9, (execFenceAr g sc s) = .next t9 → Keeps z0 t9 := by
  unfold execFenceAr
  intro t9
  try dsimp only
  repeat' (first | with_reducible assumption | with_reducible apply keeps_groupLevel | with_reducible apply keeps_setMe | (simp only [keeps_mk]; with_reducible apply Keeps.core) | (intro h9; obtain rfl := Host.Outcome.next.inj h9; try dsimp only) | split | (intro; try dsimp only) | dsimp only | contradiction)

theorem keeps_execAfence {z0 : State} {g : Guard} {a b : Src} {s : State} (hs : Keeps z0 s) :
    ∀ t9, (execAfence g a b s) = .next t9 → Keeps z0 t9 := by
  unfold execAfence
  intro t9
  try dsimp only
  repeat' (first | with_reducible assumption | with_reducible apply keeps_groupLevel | with_reducible apply keeps_setMe | (simp only [keeps_mk]; with_reducible apply Keeps.core) | (intro h9; obtain rfl := Host.Outcome.next.inj h9; try dsimp only) | split | (intro; try dsimp only) | dsimp only | contradiction)

theorem keeps_execOfence {z0 : State} {g : Guard} {s : State} (hs : Keeps z0 s) :
    ∀ t9, (execOfence g s) = .next t9 → Keeps z0 t9 := by
  unfold execOfence
  intro t9
  try dsimp only
  repeat' (first | with_reducible assumption | with_reducible apply keeps_groupLevel | with_reducible apply keeps_setMe | (simp only [keeps_mk]; with_reducible apply Keeps.core) | (intro h9; obtain rfl := Host.Outcome.next.inj h9; try dsimp only) | split | (intro; try dsimp only) | dsimp only | contradiction)

theorem keeps_execTfence {z0 : State} {g : Guard} {s : State} (hs : Keeps z0 s) :
    ∀ t9, (execTfence g s) = .next t9 → Keeps z0 t9 := by
  unfold execTfence
  intro t9
  try dsimp only
  repeat' (first | with_reducible assumption | with_reducible apply keeps_groupLevel | with_reducible apply keeps_commit | with_reducible apply keeps_setMe | with_reducible apply keeps_trap | (simp only [keeps_mk]; with_reducible apply Keeps.core) | (intro h9; obtain rfl := Host.Outcome.next.inj h9; try dsimp only) | split | (intro; try dsimp only) | dsimp only | contradiction)

theorem keeps_control {z0 : State} {s : State} {gd : Guard} {ops : List Opd} {close : Bool} {body : List Nat → Group → Group → Group} (hs : Keeps z0 s) :
    Keeps z0 (State.control s gd ops close body) := by
  unfold State.control
  try dsimp only
  repeat' (first | with_reducible assumption | with_reducible apply keeps_setMe | with_reducible apply keeps_issue | (simp only [keeps_mk]; with_reducible apply Keeps.core) | (intro; try dsimp only) | split | dsimp only | contradiction)

theorem keeps_branchReg {z0 : State} {s : State} {gd : Guard} {r : Opd} {close : Bool} (hs : Keeps z0 s) :
    Keeps z0 (State.branchReg s gd r close) := by
  unfold State.branchReg
  try dsimp only
  repeat' (first | with_reducible assumption | with_reducible apply keeps_memFault | with_reducible apply keeps_setMe | with_reducible apply keeps_issue | (simp only [keeps_mk]; with_reducible apply Keeps.core) | (intro; try dsimp only) | split | dsimp only | contradiction)

theorem keeps_execBra {z0 : State} {g : Guard} {off : BitVec 36} {s : State} (hs : Keeps z0 s) :
    ∀ t9, (execBra g off s) = .next t9 → Keeps z0 t9 := by
  unfold execBra
  intro t9
  try dsimp only
  repeat' (first | with_reducible assumption | with_reducible apply keeps_control | (simp only [keeps_mk]; with_reducible apply Keeps.core) | (intro h9; obtain rfl := Host.Outcome.next.inj h9; try dsimp only) | split | (intro; try dsimp only) | dsimp only | contradiction)

theorem keeps_execBrx {z0 : State} {g : Guard} {r : Opd} {s : State} (hs : Keeps z0 s) :
    ∀ t9, (execBrx g r s) = .next t9 → Keeps z0 t9 := by
  unfold execBrx
  intro t9
  try dsimp only
  repeat' (first | with_reducible assumption | with_reducible apply keeps_branchReg | (simp only [keeps_mk]; with_reducible apply Keeps.core) | (intro h9; obtain rfl := Host.Outcome.next.inj h9; try dsimp only) | split | (intro; try dsimp only) | dsimp only | contradiction)

theorem keeps_execCall {z0 : State} {g : Guard} {link : Opd} {off : BitVec 36} {s : State} (hs : Keeps z0 s) :
    ∀ t9, (execCall g link off s) = .next t9 → Keeps z0 t9 := by
  unfold execCall
  intro t9
  try dsimp only
  repeat' (first | with_reducible assumption | with_reducible apply keeps_control | (simp only [keeps_mk]; with_reducible apply Keeps.core) | (intro h9; obtain rfl := Host.Outcome.next.inj h9; try dsimp only) | split | (intro; try dsimp only) | dsimp only | contradiction)

theorem keeps_execRet {z0 : State} {g : Guard} {r : Opd} {s : State} (hs : Keeps z0 s) :
    ∀ t9, (execRet g r s) = .next t9 → Keeps z0 t9 := by
  unfold execRet
  intro t9
  try dsimp only
  repeat' (first | with_reducible assumption | with_reducible apply keeps_branchReg | (simp only [keeps_mk]; with_reducible apply Keeps.core) | (intro h9; obtain rfl := Host.Outcome.next.inj h9; try dsimp only) | split | (intro; try dsimp only) | dsimp only | contradiction)

theorem keeps_execSetmeet {z0 : State} {g : Guard} {off : BitVec 36} {s : State} (hs : Keeps z0 s) :
    ∀ t9, (execSetmeet g off s) = .next t9 → Keeps z0 t9 := by
  unfold execSetmeet
  intro t9
  try dsimp only
  repeat' (first | with_reducible assumption | with_reducible apply keeps_control | (simp only [keeps_mk]; with_reducible apply Keeps.core) | (intro h9; obtain rfl := Host.Outcome.next.inj h9; try dsimp only) | split | (intro; try dsimp only) | dsimp only | contradiction)

theorem keeps_execSetmeetToken {z0 : State} {g : Guard} {tok : Opd} {s : State} (hs : Keeps z0 s) :
    ∀ t9, (execSetmeetToken g tok s) = .next t9 → Keeps z0 t9 := by
  unfold execSetmeetToken
  intro t9
  try dsimp only
  repeat' (first | with_reducible assumption | with_reducible apply keeps_control | (simp only [keeps_mk]; with_reducible apply Keeps.core) | (intro h9; obtain rfl := Host.Outcome.next.inj h9; try dsimp only) | split | (intro; try dsimp only) | dsimp only | contradiction)

theorem keeps_execSavemeet {z0 : State} {g : Guard} {tok : Opd} {s : State} (hs : Keeps z0 s) :
    ∀ t9, (execSavemeet g tok s) = .next t9 → Keeps z0 t9 := by
  unfold execSavemeet
  intro t9
  try dsimp only
  repeat' (first | with_reducible assumption | with_reducible apply keeps_control | (simp only [keeps_mk]; with_reducible apply Keeps.core) | (intro h9; obtain rfl := Host.Outcome.next.inj h9; try dsimp only) | split | (intro; try dsimp only) | dsimp only | contradiction)

theorem keeps_execYield {z0 : State} {g : Guard} {s : State} (hs : Keeps z0 s) :
    ∀ t9, (execYield g s) = .next t9 → Keeps z0 t9 := by
  unfold execYield
  intro t9
  try dsimp only
  repeat' (first | with_reducible assumption | with_reducible apply keeps_setMe | with_reducible apply keeps_issue | (simp only [keeps_mk]; with_reducible apply Keeps.core) | (intro h9; obtain rfl := Host.Outcome.next.inj h9; try dsimp only) | split | (intro; try dsimp only) | dsimp only | contradiction)

theorem keeps_execNop {z0 : State} {x0 : Guard} {s : State} (hs : Keeps z0 s) :
    ∀ t9, (execNop x0 s) = .next t9 → Keeps z0 t9 := by
  unfold execNop
  intro t9
  try dsimp only
  repeat' (first | with_reducible assumption | with_reducible apply keeps_commit | with_reducible apply keeps_issue | (simp only [keeps_mk]; with_reducible apply Keeps.core) | (intro h9; obtain rfl := Host.Outcome.next.inj h9; try dsimp only) | split | (intro; try dsimp only) | dsimp only | contradiction)

theorem keeps_execExit {z0 : State} {g : Guard} {s : State} (hs : Keeps z0 s) :
    ∀ t9, (execExit g s) = .next t9 → Keeps z0 t9 := by
  unfold execExit
  intro t9
  try dsimp only
  repeat' (first | with_reducible assumption | with_reducible apply keeps_growCheck | with_reducible apply keeps_endGroup | with_reducible apply keeps_setMe | with_reducible apply keeps_issue | (simp only [keeps_mk]; with_reducible apply Keeps.core) | (intro h9; obtain rfl := Host.Outcome.next.inj h9; try dsimp only) | split | (intro; try dsimp only) | dsimp only | contradiction)

theorem keeps_execInstructionFetchFault {z0 : State} {s : State} (hs : Keeps z0 s) :
    ∀ t9, (execInstructionFetchFault s) = .next t9 → Keeps z0 t9 := by
  unfold execInstructionFetchFault
  intro t9
  try dsimp only
  repeat' (first | with_reducible assumption | with_reducible apply keeps_memFault | (simp only [keeps_mk]; with_reducible apply Keeps.core) | (intro h9; obtain rfl := Host.Outcome.next.inj h9; try dsimp only) | split | (intro; try dsimp only) | dsimp only | contradiction)

theorem keeps_execTrap {z0 : State} {g : Guard} {d a b : Opd} {code : BitVec 17} {s : State} (hs : Keeps z0 s) :
    ∀ t9, (execTrap g d a b code s) = .next t9 → Keeps z0 t9 := by
  unfold execTrap
  intro t9
  try dsimp only
  repeat' (first | with_reducible assumption | with_reducible apply keeps_blocking | with_reducible apply keeps_setMe | with_reducible apply keeps_post | (simp only [keeps_mk]; with_reducible apply Keeps.core) | (intro h9; obtain rfl := Host.Outcome.next.inj h9; try dsimp only) | split | (intro; try dsimp only) | dsimp only | contradiction)

theorem keeps_execClock {z0 : State} {g : Guard} {cyc : Bool} {d : Opd} {s : State} (hs : Keeps z0 s) :
    ∀ t9, (execClock g cyc d s) = .next t9 → Keeps z0 t9 := by
  unfold execClock
  intro t9
  try dsimp only
  repeat' (first | with_reducible assumption | with_reducible apply keeps_groupLevel | with_reducible apply keeps_setMe | (simp only [keeps_mk]; with_reducible apply Keeps.core) | (intro h9; obtain rfl := Host.Outcome.next.inj h9; try dsimp only) | split | (intro; try dsimp only) | dsimp only | contradiction)

theorem keeps_validRead {z0 : State} {s : State} {core grid : Nat} (hs : Keeps z0 s) :
    Keeps z0 (State.validRead s core grid).1 := by
  unfold State.validRead
  try dsimp only
  repeat' (first | with_reducible assumption | with_reducible apply keeps_vread | (simp only [keeps_mk]; with_reducible apply Keeps.core) | (intro; try dsimp only) | split | dsimp only | contradiction)

theorem keeps_validOr {z0 : State} {s : State} {core grid : Nat} {v : Word} (hs : Keeps z0 s) :
    Keeps z0 (State.validOr s core grid v).1 := by
  unfold State.validOr
  try dsimp only
  repeat' (first | with_reducible assumption | with_reducible apply keeps_physWrite | with_reducible apply keeps_translate | with_reducible apply keeps_physRead | with_reducible apply keeps_setGrid | (simp only [keeps_mk]; with_reducible apply Keeps.core) | (intro; try dsimp only) | split | dsimp only | contradiction)

theorem keeps_execValid {z0 : State} {g : Guard} {f : ValidForm} {s : State} (hs : Keeps z0 s) :
    ∀ t9, (execValid g f s) = .next t9 → Keeps z0 t9 := by
  unfold execValid
  intro t9
  try dsimp only
  repeat' (first | with_reducible assumption | with_reducible apply keeps_groupLevel | with_reducible apply keeps_memFault | with_reducible apply keeps_validOr | with_reducible apply keeps_commit | (simp only [keeps_mk]; with_reducible apply Keeps.core) | (intro h9; obtain rfl := Host.Outcome.next.inj h9; try dsimp only) | split | (intro; try dsimp only) | dsimp only | contradiction)

theorem keeps_sysRead {z0 : State} {s : State} {r : SysReg} (hs : Keeps z0 s) :
    Keeps z0 (State.sysRead s r).1 := by
  unfold State.sysRead
  try dsimp only
  repeat' (first | with_reducible assumption | with_reducible apply keeps_validRead | (simp only [keeps_mk]; with_reducible apply Keeps.core) | (intro; try dsimp only) | split | dsimp only | contradiction)

theorem keeps_execSysrd {z0 : State} {g : Guard} {d : Opd} {r : SysReg} {s : State} (hs : Keeps z0 s) :
    ∀ t9, (execSysrd g d r s) = .next t9 → Keeps z0 t9 := by
  unfold execSysrd
  intro t9
  try dsimp only
  repeat' (first | with_reducible assumption | with_reducible apply keeps_groupLevel | with_reducible apply keeps_memFault | with_reducible apply keeps_sysRead | with_reducible apply keeps_setMe | (simp only [keeps_mk]; with_reducible apply Keeps.core) | (intro h9; obtain rfl := Host.Outcome.next.inj h9; try dsimp only) | split | (intro; try dsimp only) | dsimp only | contradiction)

theorem keeps_dropLines {z0 : State} {s : State} {part : Nat} (hs : Keeps z0 s) : Keeps z0 (s.dropLines part) := by
  unfold State.dropLines
  exact Keeps.foldl hs fun u b hu => keeps_setCluster hu

theorem keeps_execSyswr {z0 : State} {g : Guard} {r : SysReg} {a : Opd} {s : State} (hs : Keeps z0 s) :
    ∀ t9, (execSyswr g r a s) = .next t9 → Keeps z0 t9 := by
  unfold execSyswr
  intro t9
  try dsimp only
  repeat' (first | with_reducible assumption | with_reducible apply keeps_dropLines | with_reducible apply keeps_groupLevel | with_reducible apply keeps_setPart | with_reducible apply keeps_commit | with_reducible apply keeps_setMe | with_reducible apply keeps_trap | (simp only [keeps_mk]; with_reducible apply Keeps.core) | (intro h9; obtain rfl := Host.Outcome.next.inj h9; try dsimp only) | split | (intro; try dsimp only) | dsimp only | contradiction)

end Sys2Proof.Machine
end

