-- ==== Sys2Proof/Laws/KeepsMatrix.lean ====
section
/-!
SUPPORT. `Keeps` for the operations of Coded, Tensor, Matrix.
-/
set_option linter.unusedSimpArgs false
namespace Sys2Proof.Machine

theorem keeps_tensorRange {z0 : State} {s : State} {ag : Agent} {need : Need} {va n : Nat} {coded : Option Bool} {ctx : TileCtx} (hs : Keeps z0 s) :
    Keeps z0 (State.tensorRange s ag need va n coded ctx).1 := by
  unfold State.tensorRange
  try dsimp only
  repeat' (first | with_reducible assumption | with_reducible apply keeps_translateRange | (simp only [keeps_mk]; with_reducible apply Keeps.core) | (intro; try dsimp only) | split | dsimp only | contradiction)

theorem keeps_tensorRead {z0 : State} {s : State} {ag : Agent} {need : Need} {va n : Nat} {coded : Option Bool} {ctx : TileCtx} (hs : Keeps z0 s) :
    Keeps z0 (State.tensorRead s ag need va n coded ctx).1 := by
  unfold State.tensorRead
  try dsimp only
  repeat' (first | with_reducible assumption | with_reducible apply keeps_tensorRange | with_reducible apply keeps_readPieces | (simp only [keeps_mk]; with_reducible apply Keeps.core) | (intro; try dsimp only) | split | dsimp only | contradiction)

theorem keeps_rememberPieces {z0 : State} {s : State} {wr : Writer} {va : Nat} {ws : List (Where × Nat)} {whole : Option Nat} (hs : Keeps z0 s) :
    Keeps z0 (State.rememberPieces s wr va ws whole) := by
  unfold State.rememberPieces
  try dsimp only
  repeat' (first | with_reducible assumption | with_reducible apply keeps_remember | with_reducible apply Keeps.foldl | with_reducible apply Keeps.foldlFst | (simp only [keeps_mk]; with_reducible apply Keeps.core) | (intro; try dsimp only) | split | dsimp only | contradiction)

theorem keeps_tensorWrite {z0 : State} {s : State} {ag : Agent} {va n x : Nat} {coded : Option Bool} {ctx : TileCtx} (hs : Keeps z0 s) :
    Keeps z0 (State.tensorWrite s ag va n x coded ctx).1 := by
  unfold State.tensorWrite
  try dsimp only
  repeat' (first | with_reducible assumption | with_reducible apply keeps_writePieces | with_reducible apply keeps_rememberPieces | with_reducible apply keeps_tensorRange | (simp only [keeps_mk]; with_reducible apply Keeps.core) | (intro; try dsimp only) | split | dsimp only | contradiction)

theorem keeps_readDesc {z0 : State} {s : State} {ag : Agent} {binds : List (Nat × Word)} {addr : Word} {path : Nat} (hs : Keeps z0 s) :
    Keeps z0 (State.readDesc s ag binds addr path).1 := by
  unfold State.readDesc
  try dsimp only
  repeat' (first | with_reducible assumption | with_reducible apply keeps_tensorRead | (simp only [keeps_mk]; with_reducible apply Keeps.core) | (intro; try dsimp only) | split | dsimp only | contradiction)

theorem keeps_countLine {z0 : State} {s : State} {core : Nat} {hit : Bool} (hs : Keeps z0 s) :
    Keeps z0 (State.countLine s core hit) := by
  unfold State.countLine
  try dsimp only
  repeat' (first | with_reducible assumption | with_reducible apply keeps_addCounter | (simp only [keeps_mk]; with_reducible apply Keeps.core) | (intro; try dsimp only) | split | dsimp only | contradiction)

theorem keeps_holdLine {z0 : State} {s : State} {core part pa : Nat} (hs : Keeps z0 s) :
    Keeps z0 (State.holdLine s core part pa) := by
  unfold State.holdLine
  try dsimp only
  repeat' (first | with_reducible assumption | with_reducible apply keeps_setCluster | (simp only [keeps_mk]; with_reducible apply Keeps.core) | (intro; try dsimp only) | split | dsimp only | contradiction)

theorem keeps_fetchLine {z0 : State} {s : State} {ag : Agent} {la : Nat} {ws : List (Where × Nat)} (hs : Keeps z0 s) :
    Keeps z0 (State.fetchLine s ag la ws).1 := by
  unfold State.fetchLine
  try dsimp only
  repeat' (first | with_reducible assumption | with_reducible apply keeps_readPieces | with_reducible apply keeps_countLine | with_reducible apply keeps_holdLine | (simp only [keeps_mk]; with_reducible apply Keeps.core) | (intro; try dsimp only) | split | dsimp only | contradiction)

theorem keeps_readLine {z0 : State} {s : State} {ag : Agent} {p : Nat} {tile : Option Nat} {ctx : TileCtx} (hs : Keeps z0 s) :
    Keeps z0 (State.readLine s ag p tile ctx).1 := by
  unfold State.readLine
  try dsimp only
  repeat' (first | with_reducible assumption | with_reducible apply keeps_tensorRange | with_reducible apply keeps_fetchLine | (simp only [keeps_mk]; with_reducible apply Keeps.core) | (intro; try dsimp only) | split | dsimp only | contradiction)

theorem keeps_findSlot {z0 : State} {s : State} {ag : Agent} {d : Desc} {t : Nat} {ctx : TileCtx} (hs : Keeps z0 s) :
    Keeps z0 (s.findSlot ag d t ctx).1 := by
  unfold State.findSlot
  split
  · extract_lets -underBinder p ctx2 k
    have hk : Keeps z0 k.1 := keeps_tensorRange hs
    clear_value k
    split
    · exact hk
    · extract_lets -underBinder l
      have hl : Keeps z0 l.1 := keeps_readLine hk
      clear_value l
      split <;> exact hl
  · exact hs

theorem keeps_decodeTile {z0 : State} {s : State} {ag : Agent} {ct : Nat → Option CodeTable} {d : Desc} {c : Coord} {path : Nat} (hs : Keeps z0 s) :
    Keeps z0 (State.decodeTile s ag ct d c path).1 := by
  unfold State.decodeTile
  try dsimp only
  repeat' (first | with_reducible assumption | with_reducible apply keeps_tensorRead | with_reducible apply keeps_findSlot | (simp only [keeps_mk]; with_reducible apply Keeps.core) | (intro; try dsimp only) | split | dsimp only | contradiction)

theorem keeps_planWrite {z0 : State} {s : State} {ag : Agent} {va n x : Nat} {coded : Option Bool} {ctx : TileCtx} (hs : Keeps z0 s) :
    Keeps z0 (s.planWrite ag va n x coded ctx).1 := by
  unfold State.planWrite
  try dsimp only
  repeat' (first | with_reducible assumption | with_reducible apply keeps_tensorRange | split)

theorem keeps_planPlain {z0 : State} {s : State} {ag : Agent} {ct : Nat → Option CodeTable} {d : Desc} {t : Nat} {st : TileStore} {ctx : TileCtx} (hs : Keeps z0 s) :
    Keeps z0 (s.planPlain ag ct d t st ctx).1 := by
  unfold State.planPlain
  try dsimp only
  repeat' (first | with_reducible assumption | with_reducible apply keeps_tensorRange | with_reducible apply keeps_tensorRead | (simp only [keeps_mk]; with_reducible apply Keeps.core) | (intro; try dsimp only) | split | dsimp only | contradiction)

theorem keeps_planLine {z0 : State} {s : State} {ag : Agent} {p line : Nat} {ctx : TileCtx} (hs : Keeps z0 s) :
    Keeps z0 (s.planLine ag p line ctx).1 := by
  unfold State.planLine
  dsimp only
  split <;> exact keeps_planWrite hs

theorem keeps_planCoded {z0 : State} {s : State} {ag : Agent} {ct : Nat → Option CodeTable} {d : Desc} {t : Nat}
    {st : TileStore} {ctx : TileCtx} (hs : Keeps z0 s) : Keeps z0 (s.planCoded ag ct d t st ctx).1 := by
  unfold State.planCoded
  extract_lets -underBinder w big p i ctx2 k
  have hk : Keeps z0 k.1 := keeps_tensorRange hs
  clear_value k
  split
  · exact hk
  · extract_lets -underBinder l
    have hl : Keeps z0 l.1 := keeps_readLine hk
    clear_value l
    split
    · exact hl
    · extract_lets -underBinder start va ctx3 room span opened old
      split
      · exact hs
      · have ho : Keeps z0 old.1 := by
          show Keeps z0 (if opened = true then _ else _ : State × Except TFault Nat).1
          split
          · exact keeps_tensorRead hl
          · exact hl
        clear_value old
        split
        · exact ho
        · extract_lets -underBinder rows
          split
          · exact ho
          · extract_lets -underBinder x0 y y2 rec_ wr
            have hw : Keeps z0 wr.1 := keeps_planWrite ho
            clear_value wr
            split
            · exact hw
            · split
              · exact hw
              · extract_lets -underBinder line lw
                have hlw : Keeps z0 lw.1 := keeps_planLine hw
                clear_value lw
                split
                · exact hlw
                · exact keeps_mk.2 hlw.core

theorem keeps_storeCtx {z0 : State} {s : State} {ag : Agent} {d : Desc} {n : Nat} {ctx : TileCtx} (hs : Keeps z0 s) :
    Keeps z0 (s.storeCtx ag d n ctx).1 := by
  unfold State.storeCtx
  dsimp only
  repeat' (first | assumption | exact keeps_findSlot hs | split)

theorem keeps_planTile {z0 : State} {s : State} {ag : Agent} {ct : Nat → Option CodeTable} {d : Desc} {c : Coord} {st : TileStore} (hs : Keeps z0 s) :
    Keeps z0 (s.planTile ag ct d c st).1 := by
  unfold State.planTile
  try dsimp only
  repeat' (first | with_reducible assumption | with_reducible apply keeps_storeCtx | with_reducible apply keeps_planPlain | with_reducible apply keeps_planCoded | dsimp only | split)

theorem keeps_writeTile {z0 : State} {s : State} {xs : List TileWrite} (hs : Keeps z0 s) : Keeps z0 (s.writeTile xs).1 := by
  unfold State.writeTile
  dsimp only
  split
  · exact Keeps.foldlFst hs fun q b hq => keeps_writePieces (keeps_rememberPieces hq)
  · exact hs

theorem keeps_storeTile {z0 : State} {s : State} {ag : Agent} {ct : Nat → Option CodeTable} {d : Desc} {c : Coord} {st : TileStore} (hs : Keeps z0 s) :
    Keeps z0 (State.storeTile s ag ct d c st).1 := by
  unfold State.storeTile
  dsimp only
  split
  · exact keeps_planTile hs
  · exact keeps_writeTile (keeps_planTile hs)

theorem keeps_codedFault {z0 : State} {s0 s : State} {f : TFault} {space : Nat} {act : List Nat} (hs0 : Keeps z0 s0) (hs : Keeps z0 s) :
    Keeps z0 (State.codedFault s0 s f space act) := by
  unfold State.codedFault
  try dsimp only
  repeat' (first | with_reducible assumption | with_reducible apply keeps_parkFault | (simp only [keeps_mk]; with_reducible apply Keeps.core) | (intro; try dsimp only) | split | dsimp only | contradiction)

theorem keeps_runRead {z0 : State} {g : Group} {sp : Bool} {access a n : Nat} {s : State} (hs : Keeps z0 s) :
    Keeps z0 (s.runRead g sp access a n).1 := by
  unfold State.runRead
  split
  · repeat' (first | assumption | split)
  · split
    · exact hs
    · have h := keeps_tensorRead hs (ag := s.groupAgent g) (need := Need.read) (va := a) (n := n) (coded := none)
        (ctx := descCtx 0 0)
      generalize s.tensorRead (s.groupAgent g) Need.read a n none (descCtx 0 0) = r at *
      split
      · exact h
      · exact h

theorem State.scratchRun_far {s : State} {g : Group} {x o n : Nat} {ks : List Nat} (h : s.scratchRun g x o n = .ok ks) :
    ∀ k ∈ ks, 2 ^ 52 ≤ k := by
  unfold State.scratchRun at h
  split at h
  · rename_i h2
    split at h
    · cases h
    · cases h
      exact State.scratchAt_far h2
  · cases h

theorem keeps_runWrite {z0 : State} {s : State} {g : Group} {sp : Bool} {a n x : Nat} (hs : Keeps z0 s) :
    Keeps z0 (State.runWrite s g sp a n x).1 := by
  unfold State.runWrite
  try dsimp only
  repeat' (first | with_reducible assumption | with_reducible apply keeps_writeTile | with_reducible apply keeps_planWrite | with_reducible apply keeps_remember | with_reducible apply keeps_cellsWrite (State.scratchRun_far ‹_›) | (simp only [keeps_mk]; with_reducible apply Keeps.core) | (intro; try dsimp only) | split | dsimp only | contradiction)

theorem keeps_tileDesc {z0 : State} {s : State} {g : Group} {addr xy z : Word} {path : Nat} (hs : Keeps z0 s) :
    Keeps z0 (State.tileDesc s g addr xy z path).1 := by
  unfold State.tileDesc
  try dsimp only
  repeat' (first | with_reducible assumption | with_reducible apply keeps_readDesc | (simp only [keeps_mk]; with_reducible apply Keeps.core) | (intro; try dsimp only) | split | dsimp only | contradiction)

theorem keeps_slotTile {z0 : State} {s : State} {g : Group} {o t : Nat} {f : Fmt} {sp path : Nat} (hs : Keeps z0 s) :
    Keeps z0 (State.slotTile s g o t f sp path).1 := by
  unfold State.slotTile
  try dsimp only
  repeat' (first | with_reducible assumption | with_reducible apply keeps_runRead | (simp only [keeps_mk]; with_reducible apply Keeps.core) | (intro; try dsimp only) | split | dsimp only | contradiction)

theorem keeps_prefetch {z0 : State} {s : State} {g : Group} {addr : Word} {c : Coord} (hs : Keeps z0 s) :
    Keeps z0 (s.prefetch g addr c) := by
  unfold State.prefetch
  try dsimp only
  repeat' (first | with_reducible assumption | with_reducible apply keeps_holdLine | split | dsimp only)

theorem keeps_execPrefT {z0 : State} {g : Guard} {_sc : Scope} {base x : Src} {_k : BitVec 11} {s : State} (hs : Keeps z0 s) :
    ∀ t9, (execPrefT g _sc base x _k s) = .next t9 → Keeps z0 t9 := by
  unfold execPrefT
  intro t9
  try dsimp only
  repeat' (first | with_reducible assumption | with_reducible apply keeps_setMe | with_reducible apply keeps_prefetch | with_reducible apply keeps_groupLevel | (simp only [keeps_mk]; with_reducible apply Keeps.core) | (intro h9; obtain rfl := Host.Outcome.next.inj h9; try dsimp only) | split | (intro; try dsimp only) | dsimp only | contradiction)

theorem keeps_execLdt {z0 : State} {g : Guard} {hi : Bool} {q0 cnt : Fin 16} {_sc : Scope} {la : Fin 16} {d : Opd} {base x : Src} {s : State} (hs : Keeps z0 s) :
    ∀ t9, (execLdt g hi q0 cnt _sc la d base x s) = .next t9 → Keeps z0 t9 := by
  unfold execLdt
  intro t9
  try dsimp only
  repeat' (first | with_reducible assumption | with_reducible apply keeps_groupLevel | with_reducible apply keeps_decodeTile | with_reducible apply keeps_codedFault | with_reducible apply keeps_tileDesc | with_reducible apply keeps_setMe | with_reducible apply keeps_trap | (simp only [keeps_mk]; with_reducible apply Keeps.core) | (intro h9; obtain rfl := Host.Outcome.next.inj h9; try dsimp only) | split | (intro; try dsimp only) | dsimp only | contradiction)

theorem keeps_storeTensor {z0 : State} {s : State} {g : Guard} {hi : Bool} {q0 n : Nat} {d : Opd} {base x : Src} {sealing : Bool} (hs : Keeps z0 s) :
    Keeps z0 (State.storeTensor s g hi q0 n d base x sealing) := by
  unfold State.storeTensor
  try dsimp only
  repeat' (first | with_reducible assumption | with_reducible apply keeps_groupLevel | with_reducible apply keeps_codedFault | with_reducible apply keeps_storeTile | with_reducible apply keeps_tileDesc | with_reducible apply keeps_commit | with_reducible apply keeps_trap | (simp only [keeps_mk]; with_reducible apply Keeps.core) | (intro; try dsimp only) | split | dsimp only | contradiction)

theorem keeps_execStt {z0 : State} {g : Guard} {hi : Bool} {q0 cnt : Fin 16} {_sc : Scope} {d : Opd} {base x : Src} {s : State} (hs : Keeps z0 s) :
    ∀ t9, (execStt g hi q0 cnt _sc d base x s) = .next t9 → Keeps z0 t9 := by
  unfold execStt
  intro t9
  try dsimp only
  repeat' (first | with_reducible assumption | with_reducible apply keeps_storeTensor | (simp only [keeps_mk]; with_reducible apply Keeps.core) | (intro h9; obtain rfl := Host.Outcome.next.inj h9; try dsimp only) | split | (intro; try dsimp only) | dsimp only | contradiction)

theorem keeps_execSttSeal {z0 : State} {g : Guard} {hi : Bool} {q0 cnt : Fin 16} {_sc : Scope} {d : Opd} {base x : Src} {s : State} (hs : Keeps z0 s) :
    ∀ t9, (execSttSeal g hi q0 cnt _sc d base x s) = .next t9 → Keeps z0 t9 := by
  unfold execSttSeal
  intro t9
  try dsimp only
  repeat' (first | with_reducible assumption | with_reducible apply keeps_storeTensor | (simp only [keeps_mk]; with_reducible apply Keeps.core) | (intro h9; obtain rfl := Host.Outcome.next.inj h9; try dsimp only) | split | (intro; try dsimp only) | dsimp only | contradiction)

theorem keeps_execCtld {z0 : State} {g : Guard} {sp : Bool} {slot : Fin 16} {a : Opd} {s : State} (hs : Keeps z0 s) :
    ∀ t9, (execCtld g sp slot a s) = .next t9 → Keeps z0 t9 := by
  unfold execCtld
  intro t9
  try dsimp only
  repeat' (first | with_reducible assumption | with_reducible apply keeps_groupLevel | with_reducible apply keeps_codedFault | with_reducible apply keeps_parkFault | with_reducible apply keeps_setTeam | with_reducible apply keeps_runRead | with_reducible apply keeps_commit | (simp only [keeps_mk]; with_reducible apply Keeps.core) | (intro h9; obtain rfl := Host.Outcome.next.inj h9; try dsimp only) | split | (intro; try dsimp only) | dsimp only | contradiction)

theorem keeps_execCtst {z0 : State} {g : Guard} {sp : Bool} {slot : Fin 16} {d a : Opd} {s : State} (hs : Keeps z0 s) :
    ∀ t9, (execCtst g sp slot d a s) = .next t9 → Keeps z0 t9 := by
  unfold execCtst
  intro t9
  try dsimp only
  repeat' (first | with_reducible assumption | with_reducible apply keeps_groupLevel | with_reducible apply keeps_codedFault | with_reducible apply keeps_runWrite | with_reducible apply keeps_setMe | (simp only [keeps_mk]; with_reducible apply Keeps.core) | (intro h9; obtain rfl := Host.Outcome.next.inj h9; try dsimp only) | split | (intro; try dsimp only) | dsimp only | contradiction)

theorem keeps_decSource {z0 : State} {g : Group} {bt : Bool} {b c : Opd} {act : List Nat} {s : State} (hs : Keeps z0 s) :
    ∀ r, s.decSource g bt b c act = some r → Keeps z0 r.1 := by
  intro r
  unfold State.decSource
  dsimp only
  repeat' (first | (intro h9; obtain rfl := Option.some.inj h9; try dsimp only) | (intro h9; cases h9; done) | assumption |
    with_reducible apply keeps_decodeTile | with_reducible apply keeps_tileDesc | with_reducible apply keeps_slotTile | split)

theorem keeps_execDec {z0 : State} {g : Guard} {dst : DecDst} {sat bt : Bool} {la : Fin 16} {d b c : Opd} {s : State} (hs : Keeps z0 s) :
    ∀ t9, (execDec g dst sat bt la d b c s) = .next t9 → Keeps z0 t9 := by
  unfold execDec
  intro t9
  try dsimp only
  repeat' (first | with_reducible assumption | with_reducible apply keeps_codedFault | with_reducible apply keeps_groupRun | with_reducible apply keeps_setMe | with_reducible apply keeps_trap | (simp only [keeps_mk]; with_reducible apply Keeps.core) | (intro h9; obtain rfl := Host.Outcome.next.inj h9; try dsimp only) | split | (intro; try dsimp only) | dsimp only | contradiction | (refine keeps_decSource ?_ _ ‹_ = some _› <;> assumption))

theorem keeps_execEnc {z0 : State} {g : Guard} {fmt : Fmt} {slot : Fin 16} {la : Fin 16} {d a b c : Opd} {s : State} (hs : Keeps z0 s) :
    ∀ t9, (execEnc g fmt slot la d a b c s) = .next t9 → Keeps z0 t9 := by
  unfold execEnc
  intro t9
  try dsimp only
  repeat' (first | with_reducible assumption | with_reducible apply keeps_groupRun | with_reducible apply keeps_cellsWrite (State.scratchRun_far ‹_›) | with_reducible apply keeps_remember | with_reducible apply keeps_codedFault | with_reducible apply keeps_setMe | with_reducible apply keeps_trap | with_reducible apply Keeps.foldl | with_reducible apply Keeps.foldlFst | (simp only [keeps_mk]; with_reducible apply Keeps.core) | (intro h9; obtain rfl := Host.Outcome.next.inj h9; try dsimp only) | split | (intro; try dsimp only) | dsimp only | contradiction)

theorem keeps_execGangset {z0 : State} {g : Guard} {pair : Bool} {a : Opd} {s : State} (hs : Keeps z0 s) :
    ∀ t9, (execGangset g pair a s) = .next t9 → Keeps z0 t9 := by
  unfold execGangset
  intro t9
  try dsimp only
  repeat' (first | with_reducible assumption | with_reducible apply keeps_groupLevel | with_reducible apply keeps_setMe | with_reducible apply keeps_trap | (simp only [keeps_mk]; with_reducible apply Keeps.core) | (intro h9; obtain rfl := Host.Outcome.next.inj h9; try dsimp only) | split | (intro; try dsimp only) | dsimp only | contradiction)

theorem keeps_execMma {z0 : State} {g : Guard} {mode : MmaMode} {bt reuse : Bool} {_la : Fin 16} {d a b c : Opd} {s : State} (hs : Keeps z0 s) :
    ∀ t9, (execMma g mode bt reuse _la d a b c s) = .next t9 → Keeps z0 t9 := by
  unfold execMma
  intro t9
  try dsimp only
  repeat' (first | with_reducible assumption | with_reducible apply keeps_setMe | with_reducible apply keeps_issue | (simp only [keeps_mk]; with_reducible apply Keeps.core) | (intro h9; obtain rfl := Host.Outcome.next.inj h9; try dsimp only) | split | (intro; try dsimp only) | dsimp only | contradiction)

theorem keeps_btTiles {z0 : State} {g : Group} {fw : BitVec 32} {desc : Desc} {c : Coord} {ts : List Nat} {s : State}
    (hs : Keeps z0 s) : Keeps z0 (s.btTiles g fw desc c ts).1 := by
  induction ts generalizing s with
  | nil => exact hs
  | cons t r ih =>
    unfold State.btTiles
    dsimp only
    repeat' (first | assumption | with_reducible apply ih | with_reducible apply keeps_decodeTile | split)

theorem keeps_bspTiles {z0 : State} {g : Group} {fw : BitVec 32} {o : Nat} {ts : List Nat} {s : State}
    (hs : Keeps z0 s) : Keeps z0 (s.bspTiles g fw o ts).1 := by
  induction ts generalizing s with
  | nil => exact hs
  | cons t r ih =>
    unfold State.bspTiles
    dsimp only
    repeat' (first | assumption | with_reducible apply ih | with_reducible apply keeps_slotTile | split)

theorem keeps_readB {z0 : State} {s : State} {g : Group} {fw : BitVec 32} {bt : Bool} {bv xy z : Word} (hs : Keeps z0 s) :
    Keeps z0 (State.readB s g fw bt bv xy z).1 := by
  unfold State.readB
  try dsimp only
  repeat' (first | with_reducible assumption | with_reducible apply keeps_tileDesc | with_reducible apply keeps_bspTiles | with_reducible apply keeps_btTiles | (simp only [keeps_mk]; with_reducible apply Keeps.core) | (intro; try dsimp only) | split | dsimp only | contradiction)

theorem keeps_readBs {z0 : State} {xs : List Arrived} {fw : BitVec 32} {bt : Bool} {bv xy z : Word} {cs : List Nat} {s : State}
    (hs : Keeps z0 s) : Keeps z0 (s.readBs xs fw bt bv xy z cs).1 := by
  induction cs generalizing s with
  | nil => exact hs
  | cons c r ih =>
    unfold State.readBs
    dsimp only
    repeat' (first | assumption | with_reducible apply ih | with_reducible apply keeps_readB | split)

theorem keeps_trapAll {z0 : State} {s : State} {xs : List Arrived} {c : Cause} (hs : Keeps z0 s) :
    Keeps z0 (State.trapAll s xs c) := by
  unfold State.trapAll
  try dsimp only
  repeat' (first | with_reducible assumption | with_reducible apply keeps_trapGroup | with_reducible apply keeps_setGrp | with_reducible apply Keeps.foldl | with_reducible apply Keeps.foldlFst | (simp only [keeps_mk]; with_reducible apply Keeps.core) | (intro; try dsimp only) | split | dsimp only | contradiction)

theorem keeps_parkAll {z0 : State} {s : State} {xs : List Arrived} {r : Record} (hs : Keeps z0 s) :
    Keeps z0 (State.parkAll s xs r) := by
  unfold State.parkAll
  try dsimp only
  repeat' (first | with_reducible assumption | with_reducible apply keeps_setGrp | with_reducible apply keeps_post | with_reducible apply Keeps.foldl | with_reducible apply Keeps.foldlFst | (simp only [keeps_mk]; with_reducible apply Keeps.core) | (intro; try dsimp only) | split | dsimp only | contradiction)

theorem keeps_acceptMma {z0 : State} {s : State} {xs : List Arrived} {x0 : Arrived} {fw : BitVec 32} {as : List (List (List Word))} {cols : List (Nat × List (List BElem))} (hs : Keeps z0 s) :
    Keeps z0 (State.acceptMma s xs x0 fw as cols) := by
  unfold State.acceptMma
  try dsimp only
  repeat' (first | with_reducible assumption | with_reducible apply keeps_setTeam | with_reducible apply keeps_setGrp | with_reducible apply Keeps.foldl | with_reducible apply Keeps.foldlFst | (simp only [keeps_mk]; with_reducible apply Keeps.core) | (intro; try dsimp only) | split | dsimp only | contradiction)

theorem keeps_joint {z0 : State} {s : State} {xs : List Arrived} {x0 : Arrived} (hs : Keeps z0 s) :
    Keeps z0 (State.joint s xs x0) := by
  unfold State.joint
  try dsimp only
  repeat' (first | with_reducible assumption | with_reducible apply keeps_acceptMma | with_reducible apply keeps_trapAll | with_reducible apply keeps_parkAll | with_reducible apply keeps_setGrp | with_reducible apply keeps_readBs | with_reducible apply Keeps.foldl | with_reducible apply Keeps.foldlFst | (simp only [keeps_mk]; with_reducible apply Keeps.core) | (intro; try dsimp only) | split | dsimp only | contradiction)

theorem keeps_execJointMma {z0 : State} {group : Nat} {s : State} (hs : Keeps z0 s) :
    ∀ t9, (execJointMma group s) = .next t9 → Keeps z0 t9 := by
  unfold execJointMma
  intro t9
  try dsimp only
  repeat' (first | with_reducible assumption | with_reducible apply keeps_trapAll | with_reducible apply keeps_joint | (simp only [keeps_mk]; with_reducible apply Keeps.core) | (intro h9; obtain rfl := Host.Outcome.next.inj h9; try dsimp only) | split | (intro; try dsimp only) | dsimp only | contradiction)

theorem keeps_credit {z0 : State} {s : State} {k : Nat} {flags : BitVec 32} {nans : Nat} (hs : Keeps z0 s) :
    Keeps z0 (State.credit s k flags nans) := by
  unfold State.credit
  try dsimp only
  repeat' (first | with_reducible assumption | with_reducible apply keeps_setGrp | (simp only [keeps_mk]; with_reducible apply Keeps.core) | (intro; try dsimp only) | split | dsimp only | contradiction)

theorem keeps_commitMma {z0 : State} {s : State} {tk n : Nat} {o : MmaOp} (hs : Keeps z0 s) :
    Keeps z0 (State.commitMma s tk n o) := by
  unfold State.commitMma
  try dsimp only
  repeat' (first | with_reducible assumption | with_reducible apply keeps_setTeam | with_reducible apply keeps_credit | with_reducible apply Keeps.foldl | with_reducible apply Keeps.foldlFst | (simp only [keeps_mk]; with_reducible apply Keeps.core) | (intro; try dsimp only) | split | dsimp only | contradiction)

theorem keeps_execMmaCommit {z0 : State} {team n : Nat} {s : State} (hs : Keeps z0 s) :
    ∀ t9, (execMmaCommit team n s) = .next t9 → Keeps z0 t9 := by
  unfold execMmaCommit
  intro t9
  try dsimp only
  repeat' (first | with_reducible assumption | with_reducible apply keeps_commitMma | (simp only [keeps_mk]; with_reducible apply Keeps.core) | (intro h9; obtain rfl := Host.Outcome.next.inj h9; try dsimp only) | split | (intro; try dsimp only) | dsimp only | contradiction)

theorem keeps_commitAll {z0 : State} {s : State} {tk : Nat} (hs : Keeps z0 s) :
    Keeps z0 (State.commitAll s tk) := by
  unfold State.commitAll
  try dsimp only
  repeat' (first | with_reducible assumption | with_reducible apply keeps_commitMma | with_reducible apply Keeps.foldl | with_reducible apply Keeps.foldlFst | (simp only [keeps_mk]; with_reducible apply Keeps.core) | (intro; try dsimp only) | split | dsimp only | contradiction)

theorem keeps_amend {z0 : State} {s : State} {c : Credit} (hs : Keeps z0 s) : Keeps z0 (s.amend c) := by
  unfold State.amend
  dsimp only
  split
  · exact hs
  · exact keeps_setGrp hs

theorem keeps_execMmaw {z0 : State} {g : Guard} {s : State} (hs : Keeps z0 s) :
    ∀ t9, (execMmaw g s) = .next t9 → Keeps z0 t9 := by
  unfold execMmaw
  intro t9
  try dsimp only
  repeat' (first | with_reducible assumption | with_reducible apply keeps_amend | with_reducible apply Keeps.foldl | with_reducible apply keeps_groupLevel | with_reducible apply keeps_setTeam | with_reducible apply keeps_setMe | (simp only [keeps_mk]; with_reducible apply Keeps.core) | (intro h9; obtain rfl := Host.Outcome.next.inj h9; try dsimp only) | split | (intro; try dsimp only) | dsimp only | contradiction)

theorem keeps_accOp {z0 : State} {s : State} {g : Guard} {ops : List Opd} {a : Opd}
    {k : List Nat → AccAddr → State → State} (hs : Keeps z0 s) (hk : ∀ act w u, Keeps z0 u → Keeps z0 (k act w u)) :
    Keeps z0 (s.accOp g ops a k) := by
  unfold State.accOp
  dsimp only
  repeat' (first | assumption | with_reducible apply hk | with_reducible apply keeps_issue | with_reducible apply keeps_commit |
    with_reducible apply keeps_trap | split | (intro; try dsimp only))

theorem keeps_touchWrites {z0 : State} {s : State} {w : AccAddr} {ps : List (Nat × Nat)} {f : Nat → Nat → BitVec 32 → BitVec 32} (hs : Keeps z0 s) :
    Keeps z0 (State.touchWrites s w ps f) := by
  unfold State.touchWrites
  try dsimp only
  repeat' (first | with_reducible assumption | with_reducible apply keeps_setTeam | with_reducible apply Keeps.foldl | with_reducible apply Keeps.foldlFst | (simp only [keeps_mk]; with_reducible apply Keeps.core) | (intro; try dsimp only) | split | dsimp only | contradiction)

theorem keeps_touchReads {z0 : State} {s : State} {w : AccAddr} {ps : List (Nat × Nat)} (hs : Keeps z0 s) :
    Keeps z0 (State.touchReads s w ps).1 := by
  unfold State.touchReads
  try dsimp only
  repeat' (first | with_reducible assumption | with_reducible apply Keeps.foldl | with_reducible apply Keeps.foldlFst | (simp only [keeps_mk]; with_reducible apply Keeps.core) | (intro; try dsimp only) | split | dsimp only | contradiction)

theorem keeps_execAccz {z0 : State} {g : Guard} {a : Opd} {s : State} (hs : Keeps z0 s) :
    ∀ t9, (execAccz g a s) = .next t9 → Keeps z0 t9 := by
  unfold execAccz
  intro t9
  try dsimp only
  repeat' (first | with_reducible assumption | with_reducible apply keeps_touchWrites | with_reducible apply keeps_commit | with_reducible apply keeps_accOp | (simp only [keeps_mk]; with_reducible apply Keeps.core) | (intro h9; obtain rfl := Host.Outcome.next.inj h9; try dsimp only) | split | (intro; try dsimp only) | dsimp only | contradiction)

theorem keeps_execAccld {z0 : State} {g : Guard} {out : Bool} {d a : Opd} {s : State} (hs : Keeps z0 s) :
    ∀ t9, (execAccld g out d a s) = .next t9 → Keeps z0 t9 := by
  unfold execAccld
  intro t9
  try dsimp only
  repeat' (first | with_reducible assumption | with_reducible apply keeps_touchWrites | with_reducible apply keeps_touchReads | with_reducible apply keeps_commit | with_reducible apply keeps_setMe | with_reducible apply keeps_accOp | with_reducible apply keeps_trap | (simp only [keeps_mk]; with_reducible apply Keeps.core) | (intro h9; obtain rfl := Host.Outcome.next.inj h9; try dsimp only) | split | (intro; try dsimp only) | dsimp only | contradiction)

theorem keeps_execAccst {z0 : State} {g : Guard} {dst : Fmt} {srcInt sat : Bool} {rm : RMode} {d a : Opd} {s : State} (hs : Keeps z0 s) :
    ∀ t9, (execAccst g dst srcInt sat rm d a s) = .next t9 → Keeps z0 t9 := by
  unfold execAccst
  intro t9
  try dsimp only
  repeat' (first | with_reducible assumption | with_reducible apply keeps_touchReads | with_reducible apply keeps_setMe | with_reducible apply keeps_accOp | with_reducible apply keeps_trap | with_reducible apply Keeps.foldl | with_reducible apply Keeps.foldlFst | (simp only [keeps_mk]; with_reducible apply Keeps.core) | (intro h9; obtain rfl := Host.Outcome.next.inj h9; try dsimp only) | split | (intro; try dsimp only) | dsimp only | contradiction)

theorem keeps_execAccscl {z0 : State} {g : Guard} {a b : Opd} {s : State} (hs : Keeps z0 s) :
    ∀ t9, (execAccscl g a b s) = .next t9 → Keeps z0 t9 := by
  unfold execAccscl
  intro t9
  try dsimp only
  repeat' (first | with_reducible assumption | with_reducible apply keeps_setTeam | with_reducible apply keeps_setMe | with_reducible apply keeps_accOp | with_reducible apply Keeps.foldl | with_reducible apply Keeps.foldlFst | (simp only [keeps_mk]; with_reducible apply Keeps.core) | (intro h9; obtain rfl := Host.Outcome.next.inj h9; try dsimp only) | split | (intro; try dsimp only) | dsimp only | contradiction)

theorem keeps_piecesRead {z0 : State} {ps : List (Nat × Nat)} {s : State} (hs : Keeps z0 s) :
    Keeps z0 (s.piecesRead ps).1 := by
  induction ps generalizing s with
  | nil => exact hs
  | cons p r ih =>
    unfold State.piecesRead
    dsimp only
    split <;> exact ih (keeps_physRead hs)

theorem keeps_piecesWrite {z0 : State} {ps : List (Nat × Nat)} {bs : List Byte} {s : State} (hs : Keeps z0 s) :
    Keeps z0 (s.piecesWrite ps bs) := by
  induction ps generalizing s bs with
  | nil => exact hs
  | cons p r ih => exact ih (keeps_physWrite hs)

theorem keeps_openArea {z0 : State} {s : State} {o : MergeOp} {next : Nat} (hs : Keeps z0 s) :
    Keeps z0 (State.openArea s o next) := by
  unfold State.openArea
  try dsimp only
  repeat' (first | with_reducible assumption | (simp only [keeps_mk]; with_reducible apply Keeps.core) | (intro; try dsimp only) | split | dsimp only | contradiction)

theorem keeps_acceptMerge {z0 : State} {s : State} {w : AccAddr} {area : Word} {ws : List (Where × Nat)} {chunk next : Nat} (hs : Keeps z0 s) :
    Keeps z0 (State.acceptMerge s w area ws chunk next) := by
  unfold State.acceptMerge
  try dsimp only
  repeat' (first | with_reducible assumption | with_reducible apply keeps_touchReads | with_reducible apply keeps_openArea | with_reducible apply keeps_setTeam | with_reducible apply keeps_commit | (simp only [keeps_mk]; with_reducible apply Keeps.core) | (intro; try dsimp only) | split | dsimp only | contradiction)

theorem keeps_execAccmerge {z0 : State} {g : Guard} {_la : Fin 16} {a b c : Opd} {s : State} (hs : Keeps z0 s) :
    ∀ t9, (execAccmerge g _la a b c s) = .next t9 → Keeps z0 t9 := by
  unfold execAccmerge
  intro t9
  try dsimp only
  repeat' (first | with_reducible assumption | with_reducible apply keeps_translateRange | with_reducible apply keeps_acceptMerge | with_reducible apply keeps_piecesRead | with_reducible apply keeps_memFault | with_reducible apply keeps_commit | with_reducible apply keeps_accOp | with_reducible apply keeps_trap | (simp only [keeps_mk]; with_reducible apply Keeps.core) | (intro h9; obtain rfl := Host.Outcome.next.inj h9; try dsimp only) | split | (intro; try dsimp only) | dsimp only | contradiction)

theorem keeps_discardMerge {z0 : State} {s : State} {tk n : Nat} {o : MergeOp} (hs : Keeps z0 s) :
    Keeps z0 (State.discardMerge s tk n o) := by
  unfold State.discardMerge
  try dsimp only
  repeat' (first | with_reducible assumption | with_reducible apply keeps_physWrite | with_reducible apply keeps_physRead | with_reducible apply keeps_setTeam | (simp only [keeps_mk]; with_reducible apply Keeps.core) | (intro; try dsimp only) | split | dsimp only | contradiction)

theorem keeps_areaFolded {z0 : State} {s : State} {o : MergeOp} {last : Bool} (hs : Keeps z0 s) :
    Keeps z0 (State.areaFolded s o last) := by
  unfold State.areaFolded
  try dsimp only
  repeat' (first | with_reducible assumption | (simp only [keeps_mk]; with_reducible apply Keeps.core) | (intro; try dsimp only) | split | dsimp only | contradiction)

theorem keeps_discardPassed {z0 : State} {pa next n : Nat} {s : State} (hs : Keeps z0 s) :
    Keeps z0 (State.discardPassed pa next n s) := by
  induction n generalizing s with
  | zero => exact hs
  | succ n ih =>
    unfold State.discardPassed
    split
    · exact hs
    · exact ih (keeps_discardMerge hs)

theorem keeps_foldMerge {z0 : State} {s : State} {tk n : Nat} {o : MergeOp} {bs : List Byte} (hs : Keeps z0 s) :
    Keeps z0 (State.foldMerge s tk n o bs) := by
  unfold State.foldMerge
  try dsimp only
  repeat' (first | with_reducible assumption | with_reducible apply keeps_discardPassed | with_reducible apply keeps_piecesWrite | with_reducible apply keeps_areaFolded | with_reducible apply keeps_setTeam | with_reducible apply keeps_credit | with_reducible apply Keeps.foldl | with_reducible apply Keeps.foldlFst | (simp only [keeps_mk]; with_reducible apply Keeps.core) | (intro; try dsimp only) | split | dsimp only | contradiction)

theorem keeps_execAccmergeFold {z0 : State} {team n : Nat} {s : State} (hs : Keeps z0 s) :
    ∀ t9, (execAccmergeFold team n s) = .next t9 → Keeps z0 t9 := by
  unfold execAccmergeFold
  intro t9
  try dsimp only
  repeat' (first | with_reducible assumption | with_reducible apply keeps_discardMerge | with_reducible apply keeps_piecesRead | with_reducible apply keeps_foldMerge | (simp only [keeps_mk]; with_reducible apply Keeps.core) | (intro h9; obtain rfl := Host.Outcome.next.inj h9; try dsimp only) | split | (intro; try dsimp only) | dsimp only | contradiction)

/-! ## Merge areas written too early -/

/-- A byte that takes one value in every copy of it leaves every clean sector equal to the device. -/
theorem State.CacheOk.spoilByte {s : State} (h : s.CacheOk) (k : Nat) (b : Byte) : (s.spoilByte k b).CacheOk := by
  unfold State.spoilByte
  split
  · exact h
  · rename_i hb
    by_cases hl : lpByte k
    · refine ⟨h.tier, h.code, fun hn i hv hd o ho => ?_⟩
      have hok := State.sector_ok h.tier hv
      have hin : i < s.sectorCount := by rw [← hok.1]; exact Nat.mod_lt _ (Nat.pos_of_ne_zero hn)
      have hr := State.sectorBase_range h.code hin
      have ht : hbmTop = 0xC000000000 := rfl
      have hlp : ∀ x, lpKey x = 0x10000000000 + x := fun _ => rfl
      have hbase : ∀ n, s.sectorBase n = hbmTop - s.carve + 2048 * n := fun _ => rfl
      have e := h.copies hn i hv hd o ho
      have hk : 0x10000000000 ≤ k := hl.1
      change (((s.setByte (s.homeKey k) b).setByte k b).byte (s.sectorBase i + o))
        = ((s.setByte (s.homeKey k) b).setByte k b).byte (lpKey ((s.sector i).saddr * 2048) + o)
      simp only [State.setByte_byte]
      have hmod : (s.sector i).saddr % s.sectorCount = i := hok.1
      have hsa : (s.sector i).saddr < 2 ^ 30 := hok.2
      generalize hA : (s.sector i).saddr = A at *
      rw [hlp]
      rw [if_neg (show ¬ s.sectorBase i + o = k by omega)]
      by_cases hj : 0x10000000000 + A * 2048 + o = k
      · rw [if_pos hj]
        have h1 : (k - 0x10000000000) / 2048 = A := by omega
        have h2 : (k - 0x10000000000) % 2048 = o := by omega
        have hh : s.homeKey k = s.sectorBase i + o := by
          have hv' : (s.sector i).valid = true := hv
          rw [State.homeKey_lp h.code hn hl, h1, hmod, h2, if_pos ⟨hv', hA⟩]
        rw [if_pos hh.symm]
      · rw [if_neg hj]
        have hh : ¬ s.sectorBase i + o = s.homeKey k ∧ ¬ 0x10000000000 + A * 2048 + o = s.homeKey k := by
          rw [State.homeKey_lp h.code hn hl]
          generalize hm : (k - 0x10000000000) / 2048 % s.sectorCount = j
          have hjn : j < s.sectorCount := by rw [← hm]; exact Nat.mod_lt _ (Nat.pos_of_ne_zero hn)
          have hrj := State.sectorBase_range h.code hjn
          split
          · rename_i hc
            refine ⟨fun c => ?_, by omega⟩
            have hij : i = j ∧ o = (k - 0x10000000000) % 2048 := by
              rw [hbase, hbase] at c
              omega
            rw [← hij.1, hA] at hc
            omega
          · exact ⟨by omega, hj⟩
        rw [if_neg hh.1, if_neg hh.2]
        rw [hlp] at e
        exact e
    · rw [State.homeKey_not_lp h.code hl]
      have hloose : s.Loose k := by
        unfold State.backing at hb
        split at hb
        · rename_i c; exact .inr (.inr (.inl c))
        · split at hb
          · rename_i _ c
            refine absurd ?_ hl
            simp only [Bool.and_eq_true, decide_eq_true_eq] at c
            exact c
          · split at hb
            · rename_i _ _ c
              simp only [Bool.and_eq_true, decide_eq_true_eq] at c
              exact .inr (.inl (by omega))
            · exact absurd rfl hb
      exact (h.setByte hloose b).setByte hloose b

theorem keeps_spoilByte {z0 : State} {s : State} {k : Nat} {b : Byte} (hs : Keeps z0 s) : Keeps z0 (s.spoilByte k b) := by
  have hm : Memory.wf s.mem = true → Memory.wf (s.spoilByte k b).mem = true := fun h => by
    unfold State.spoilByte
    split
    · exact h
    · exact Memory.wf_kset _ _ (Memory.wf_kset _ _ h)
  have ho : (s.spoilByte k b).boot = s.boot ∧ (s.spoilByte k b).power = s.power ∧ (s.spoilByte k b).time = s.time
      ∧ (s.spoilByte k b).sectors = s.sectors := by
    unfold State.spoilByte
    split <;> exact ⟨rfl, rfl, rfl, rfl⟩
  refine ⟨ho.1.trans hs.boot, ho.2.1.trans hs.power, ho.2.2.1.trans hs.time, fun h => hm (hs.mem h), fun h => ?_,
    fun c => ((hs.cache c).spoilByte k b).copies⟩
  have ht := hs.tier h
  intro i x hx hv
  rw [ho.2.2.2] at hx
  have := ht i x hx hv
  rwa [show (s.spoilByte k b).sectorCount = s.sectorCount by simp [State.sectorCount, State.carve, ho.1]]

theorem keeps_settleAreas {z0 : State} {s : State} (hs : Keeps z0 s) : Keeps z0 s.settleAreas := by
  unfold State.settleAreas
  dsimp only
  split
  · exact hs
  · simp only [keeps_mk]
    refine Keeps.core (Keeps.foldl hs fun u a hu => ?_)
    unfold State.spoilArea
    exact Keeps.foldl hu fun v k hv => keeps_spoilByte hv

end Sys2Proof.Machine
end

