-- ==== Sys2Proof/Laws/KeepsJobs.lean ====
section
/-!
SUPPORT. `Keeps` for the operations of Jobs.
-/
set_option linter.unusedSimpArgs false
namespace Sys2Proof.Machine

theorem keeps_andThen {z0 : State} {ε α β : Type} {r : State × Except ε α} {f : State → α → State × Except ε β}
    (hr : Keeps z0 r.1) (hf : ∀ u x, Keeps z0 u → Keeps z0 (f u x).1) : Keeps z0 (andThen r f).1 := by
  unfold andThen
  split
  · exact hr
  · exact hf _ _ hr

theorem keeps_runAll {z0 : State} {ε α β : Type} {f : State → α → State × Except ε β} {xs : List α} {s : State}
    (hs : Keeps z0 s) (hf : ∀ u x, Keeps z0 u → Keeps z0 (f u x).1) : Keeps z0 (runAll f xs s).1 := by
  induction xs generalizing s with
  | nil => exact hs
  | cons x r ih =>
    exact keeps_andThen (hf _ _ hs) fun u y hu => keeps_andThen (ih hu) fun v ys hv => hv

theorem keeps_jobPart {z0 : State} {α : Type} {r : State × Except TFault α} (hr : Keeps z0 r.1) : Keeps z0 (jobPart r).1 := by
  unfold jobPart
  split <;> exact hr

theorem keeps_jobDescs {z0 : State} {s : State} {j : Job} (hs : Keeps z0 s) :
    Keeps z0 (State.jobDescs s j).1 := by
  unfold State.jobDescs
  try dsimp only
  repeat' (first | with_reducible assumption | with_reducible apply keeps_readDesc | (simp only [keeps_mk]; with_reducible apply Keeps.core) | (intro; try dsimp only) | split | dsimp only | contradiction)

theorem keeps_statusAt {z0 : State} {s : State} {j : Job} (hs : Keeps z0 s) :
    Keeps z0 (State.statusAt s j).1 := by
  unfold State.statusAt
  try dsimp only
  repeat' (first | with_reducible assumption | with_reducible apply keeps_translate | (simp only [keeps_mk]; with_reducible apply Keeps.core) | (intro; try dsimp only) | split | dsimp only | contradiction)

theorem keeps_jobRead {z0 : State} {s : State} {j : Job} {w : Option View} {spc : Space4} {addr n : Nat} (hs : Keeps z0 s) :
    Keeps z0 (s.jobRead j w spc addr n).1 := by
  unfold State.jobRead
  dsimp only
  split
  · repeat' (first | assumption | with_reducible apply keeps_readPieces | with_reducible apply keeps_translateRange | split)
  · split
    all_goals
      rename_i heq
      have h := congrArg Prod.fst heq
      try dsimp only at h
      try dsimp only
      rw [← h]
      refine keeps_runAll hs fun u p hu => ?_
      try dsimp only
      repeat' (first | assumption | split)

theorem State.jobAt_far {s : State} {j : Job} {spc : Space4} {a n : Nat} {ks : List Nat} {r : List SbRange}
    (h : s.jobAt j spc a n = .cells ks r) : ∀ k ∈ ks, 2 ^ 52 ≤ k := by
  unfold State.jobAt at h
  split at h
  · cases h
  · split at h
    · split at h
      · cases h
      · exact State.scratchAt_far h
    · exact State.sharedAt_far h
    · exact State.chipAt_far h

theorem keeps_jobWrite {z0 : State} {s : State} {j : Job} {spc : Space4} {addr : Nat} {bs : List Byte} (hs : Keeps z0 s) :
    Keeps z0 (State.jobWrite s j spc addr bs).1 := by
  unfold State.jobWrite
  try dsimp only
  repeat' (first | with_reducible assumption | with_reducible apply keeps_remember | with_reducible apply keeps_translateRange | with_reducible apply keeps_writePieces | with_reducible apply keeps_rememberPieces | with_reducible apply keeps_cellsWrite (State.jobAt_far ‹_›) | with_reducible apply keeps_andThen | with_reducible apply keeps_runAll | (simp only [keeps_mk]; with_reducible apply Keeps.core) | (intro; try dsimp only) | split | dsimp only | contradiction)

theorem keeps_jobIndex {z0 : State} {s : State} {j : Job} {w : Option View} {a : Nat} (hs : Keeps z0 s) :
    Keeps z0 (State.jobIndex s j w a).1 := by
  unfold State.jobIndex
  try dsimp only
  repeat' (first | with_reducible assumption | with_reducible apply keeps_andThen | with_reducible apply keeps_jobRead | (simp only [keeps_mk]; with_reducible apply Keeps.core) | (intro; try dsimp only) | split | dsimp only | contradiction)

theorem keeps_copyChunk {z0 : State} {s : State} {j : Job} (hs : Keeps z0 s) :
    Keeps z0 (State.copyChunk s j).1 := by
  unfold State.copyChunk
  try dsimp only
  repeat' (first | with_reducible assumption | with_reducible apply keeps_jobWrite | with_reducible apply keeps_andThen | with_reducible apply keeps_jobRead | with_reducible apply keeps_runAll | (simp only [keeps_mk]; with_reducible apply Keeps.core) | (intro; try dsimp only) | split | dsimp only | contradiction)

theorem keeps_gatherOne {z0 : State} {s : State} {j : Job} {q p : Nat} (hs : Keeps z0 s) :
    Keeps z0 (State.gatherOne s j q p).1 := by
  unfold State.gatherOne
  try dsimp only
  repeat' (first | with_reducible assumption | with_reducible apply keeps_jobWrite | with_reducible apply keeps_jobIndex | with_reducible apply keeps_andThen | with_reducible apply keeps_jobRead | (simp only [keeps_mk]; with_reducible apply Keeps.core) | (intro; try dsimp only) | split | dsimp only | contradiction)

theorem keeps_gatherChunk {z0 : State} {s : State} {j : Job} (hs : Keeps z0 s) :
    Keeps z0 (State.gatherChunk s j).1 := by
  unfold State.gatherChunk
  try dsimp only
  repeat' (first | with_reducible assumption | with_reducible apply keeps_gatherOne | with_reducible apply keeps_andThen | with_reducible apply keeps_runAll | (simp only [keeps_mk]; with_reducible apply Keeps.core) | (intro; try dsimp only) | split | dsimp only | contradiction)

theorem keeps_rowPointers {z0 : State} {s : State} {j : Job} (hs : Keeps z0 s) :
    Keeps z0 (State.rowPointers s j).1 := by
  unfold State.rowPointers
  try dsimp only
  repeat' (first | with_reducible assumption | with_reducible apply keeps_jobIndex | with_reducible apply keeps_runAll | (simp only [keeps_mk]; with_reducible apply Keeps.core) | (intro; try dsimp only) | split | dsimp only | contradiction)

theorem keeps_csrChunk {z0 : State} {s : State} {j : Job} (hs : Keeps z0 s) :
    Keeps z0 (State.csrChunk s j).1 := by
  unfold State.csrChunk
  try dsimp only
  repeat' (first | with_reducible assumption | with_reducible apply keeps_rowPointers | with_reducible apply keeps_gatherOne | with_reducible apply keeps_andThen | with_reducible apply keeps_runAll | (simp only [keeps_mk]; with_reducible apply Keeps.core) | (intro; try dsimp only) | split | dsimp only | contradiction)

theorem keeps_scatterOne {z0 : State} {s : State} {j : Job} {i : Nat} (hs : Keeps z0 s) :
    Keeps z0 (State.scatterOne s j i).1 := by
  unfold State.scatterOne
  try dsimp only
  repeat' (first | with_reducible assumption | with_reducible apply keeps_jobWrite | with_reducible apply keeps_jobIndex | with_reducible apply keeps_andThen | with_reducible apply keeps_jobRead | (simp only [keeps_mk]; with_reducible apply Keeps.core) | (intro; try dsimp only) | split | dsimp only | contradiction)

theorem keeps_scatterChunk {z0 : State} {s : State} {j : Job} (hs : Keeps z0 s) :
    Keeps z0 (State.scatterChunk s j).1 := by
  unfold State.scatterChunk
  try dsimp only
  repeat' (first | with_reducible assumption | with_reducible apply keeps_scatterOne | with_reducible apply keeps_andThen | with_reducible apply keeps_runAll | (simp only [keeps_mk]; with_reducible apply Keeps.core) | (intro; try dsimp only) | split | dsimp only | contradiction)

theorem keeps_xformLine {z0 : State} {s : State} {j : Job} {p line : Nat} {ctx : TileCtx} (hs : Keeps z0 s) :
    Keeps z0 (s.xformLine j p line ctx).1 := by
  unfold State.xformLine
  refine keeps_andThen (keeps_jobPart (keeps_planLine hs)) fun s1 x h1 => ?_
  dsimp only
  split
  · exact keeps_writePieces (keeps_rememberPieces h1)
  · exact h1

theorem keeps_xformWrite {z0 : State} {s : State} {j : Job} {t : Nat} {rec_ : Nat × Nat} (hs : Keeps z0 s) :
    Keeps z0 (s.xformWrite j t rec_).1 := by
  unfold State.xformWrite
  extract_lets -underBinder d ctx p ctx2
  split
  · refine keeps_andThen (keeps_jobPart (keeps_tensorRange hs)) fun u x hu => ?_
    refine keeps_andThen (keeps_jobPart (keeps_readLine hu)) fun v es hv => ?_
    extract_lets -underBinder st
    split
    · exact hv
    · refine keeps_andThen (keeps_jobPart (keeps_tensorWrite hv)) fun w x hw => ?_
      exact keeps_andThen (keeps_xformLine hw) fun y x hy => hy
  · exact keeps_andThen (keeps_jobPart (keeps_tensorWrite hs)) fun u x hu => hu

theorem keeps_xformTile {z0 : State} {s : State} {j : Job} {t : Nat} (hs : Keeps z0 s) :
    Keeps z0 (State.xformTile s j t).1 := by
  unfold State.xformTile
  try dsimp only
  repeat' (first | with_reducible assumption | with_reducible apply keeps_tensorRead | with_reducible apply keeps_xformWrite | with_reducible apply keeps_findSlot | with_reducible apply keeps_andThen | with_reducible apply keeps_jobPart | (simp only [keeps_mk]; with_reducible apply Keeps.core) | (intro; try dsimp only) | split | dsimp only | contradiction)

theorem keeps_xformTiles {z0 : State} {j : Job} {ts : List Nat} {s : State} (hs : Keeps z0 s) :
    Keeps z0 (s.xformTiles j ts).1 := by
  induction ts generalizing s with
  | nil => exact hs
  | cons t r ih =>
    refine keeps_andThen (keeps_xformTile hs) fun u x hu => ?_
    try dsimp only
    split
    · exact keeps_andThen (ih hu) fun v q hv => hv
    · exact hu

theorem keeps_xformChunk {z0 : State} {s : State} {j : Job} (hs : Keeps z0 s) :
    Keeps z0 (State.xformChunk s j).1 := by
  unfold State.xformChunk
  try dsimp only
  repeat' (first | with_reducible assumption | with_reducible apply keeps_xformTiles | (simp only [keeps_mk]; with_reducible apply Keeps.core) | (intro; try dsimp only) | split | dsimp only | contradiction)

theorem keeps_sendChunk {z0 : State} {s : State} {j : Job} (hs : Keeps z0 s) : Keeps z0 (s.sendChunk j).1 := by
  unfold State.sendChunk
  extract_lets -underBinder p t
  have ht : Keeps z0 t.1 := keeps_translateRange hs
  clear_value t
  split
  · exact ht
  · split
    · exact ht
    · refine keeps_andThen (keeps_jobPart (keeps_readLine ht)) fun u x hu => ?_
      refine keeps_andThen (keeps_jobRead hu) fun v y hv => ?_
      extract_lets -underBinder c st out
      have hc : Keeps z0 c.1 := keeps_choose hv
      clear_value c
      exact keeps_mk.2 hc.core

theorem keeps_castChunk {z0 : State} {s : State} {j : Job} (hs : Keeps z0 s) : Keeps z0 (s.castChunk j).1 := by
  unfold State.castChunk
  extract_lets -underBinder lo
  refine keeps_andThen (keeps_jobRead hs) fun u x hu => ?_
  extract_lets -underBinder out last members c d lost status
  have hc : Keeps z0 c.1 := keeps_choose (keeps_mk.2 hu.core)
  exact keeps_choose hc

theorem keeps_pushRecord {z0 : State} {s : State} {j : Job} {t : Nat} (hs : Keeps z0 s) :
    Keeps z0 (State.pushRecord s j t).1 := by
  unfold State.pushRecord
  try dsimp only
  repeat' (first | with_reducible assumption | with_reducible apply keeps_tensorRead | with_reducible apply keeps_findSlot | with_reducible apply keeps_andThen | with_reducible apply keeps_jobPart | (simp only [keeps_mk]; with_reducible apply Keeps.core) | (intro; try dsimp only) | split | dsimp only | contradiction)

theorem keeps_pushChunk {z0 : State} {s : State} {j : Job} (hs : Keeps z0 s) :
    Keeps z0 (State.pushChunk s j).1 := by
  unfold State.pushChunk
  try dsimp only
  repeat' (first | with_reducible assumption | with_reducible apply keeps_pushRecord | with_reducible apply keeps_jobWrite | with_reducible apply keeps_andThen | with_reducible apply keeps_runAll | (simp only [keeps_mk]; with_reducible apply Keeps.core) | (intro; try dsimp only) | split | dsimp only | contradiction)

theorem keeps_runChunk {z0 : State} {s : State} {j : Job} (hs : Keeps z0 s) :
    Keeps z0 (State.runChunk s j).1 := by
  unfold State.runChunk
  try dsimp only
  repeat' (first | with_reducible assumption | with_reducible apply keeps_scatterChunk | with_reducible apply keeps_gatherChunk | with_reducible apply keeps_xformChunk | with_reducible apply keeps_copyChunk | with_reducible apply keeps_sendChunk | with_reducible apply keeps_castChunk | with_reducible apply keeps_pushChunk | with_reducible apply keeps_csrChunk | (simp only [keeps_mk]; with_reducible apply Keeps.core) | (intro; try dsimp only) | split | dsimp only | contradiction)

theorem keeps_scrambleByte {z0 : State} {s : State} {j : Job} {spc : Space4} {a : Nat} (hs : Keeps z0 s) :
    Keeps z0 (State.scrambleByte s j spc a) := by
  unfold State.scrambleByte
  try dsimp only
  repeat' (first | with_reducible assumption | with_reducible apply keeps_jobWrite | (simp only [keeps_mk]; with_reducible apply Keeps.core) | (intro; try dsimp only) | split | dsimp only | contradiction)

theorem keeps_scramble {z0 : State} {s : State} {j : Job} (hs : Keeps z0 s) :
    Keeps z0 (State.scramble s j) := by
  unfold State.scramble
  try dsimp only
  repeat' (first | with_reducible assumption | with_reducible apply keeps_scrambleByte | with_reducible apply Keeps.foldl | with_reducible apply Keeps.foldlFst | (simp only [keeps_mk]; with_reducible apply Keeps.core) | (intro; try dsimp only) | split | dsimp only | contradiction)

end Sys2Proof.Machine
end

