-- ==== Sys2Proof/Laws/KeepsFront.lean ====
section
/-!
SUPPORT. `Keeps` for the operations of FrontEnd, Engines.
-/
set_option linter.unusedSimpArgs false
namespace Sys2Proof.Machine

theorem keeps_readBindings {z0 : State} {s : State} {part : Nat} {p : Packet} (hs : Keeps z0 s) :
    Keeps z0 (State.readBindings s part p).1 := by
  unfold State.readBindings
  try dsimp only
  repeat' (first | with_reducible assumption | with_reducible apply keeps_vread | with_reducible apply keeps_bind | (simp only [keeps_mk]; with_reducible apply Keeps.core) | (intro; try dsimp only) | split | dsimp only | contradiction)

theorem keeps_shapeCheck {z0 : State} {s : State} {part : Nat} {p : Packet} {node mayBeSys : Bool} (hs : Keeps z0 s) :
    Keeps z0 (State.shapeCheck s part p node mayBeSys).1 := by
  unfold State.shapeCheck
  try dsimp only
  repeat' (first | with_reducible assumption | with_reducible apply keeps_readBindings | (simp only [keeps_mk]; with_reducible apply Keeps.core) | (intro; try dsimp only) | split | dsimp only | contradiction)

theorem keeps_readPacket {z0 : State} {s : State} {core part : Nat} {a : Word} {w : Option View} (hs : Keeps z0 s) :
    Keeps z0 (State.readPacket s core part a w).1 := by
  unfold State.readPacket
  try dsimp only
  repeat' (first | with_reducible assumption | with_reducible apply keeps_vread | (simp only [keeps_mk]; with_reducible apply Keeps.core) | (intro; try dsimp only) | split | dsimp only | contradiction)

theorem keeps_frontFault {z0 : State} {s : State} {part access reason addr grid : Nat} (hs : Keeps z0 s) :
    Keeps z0 (State.frontFault s part access reason addr grid) := by
  unfold State.frontFault
  try dsimp only
  repeat' (first | with_reducible assumption | with_reducible apply keeps_post | (simp only [keeps_mk]; with_reducible apply Keeps.core) | (intro; try dsimp only) | split | dsimp only | contradiction)

theorem keeps_writeCompletion {z0 : State} {s : State} {part : Nat} {p : Packet} {c : Completion} (hs : Keeps z0 s) :
    Keeps z0 (State.writeCompletion s part p c) := by
  unfold State.writeCompletion
  try dsimp only
  repeat' (first | with_reducible assumption | with_reducible apply keeps_frontFault | with_reducible apply keeps_vwrite | (simp only [keeps_mk]; with_reducible apply Keeps.core) | (intro; try dsimp only) | split | dsimp only | contradiction)

theorem keeps_writeNodeCompletion {z0 : State} {s : State} {part : Nat} {p : Packet} {c : Completion} (hs : Keeps z0 s) :
    Keeps z0 (State.writeNodeCompletion s part p c) := by
  unfold State.writeNodeCompletion
  try dsimp only
  repeat' (first | with_reducible assumption | with_reducible apply keeps_writeCompletion | (simp only [keeps_mk]; with_reducible apply Keeps.core) | (intro; try dsimp only) | split | dsimp only | contradiction)

theorem keeps_addNotice {z0 : State} {s : State} {part : Nat} {p : Packet} {c : Completion} (hs : Keeps z0 s) :
    Keeps z0 (State.addNotice s part p c) := by
  unfold State.addNotice
  try dsimp only
  repeat' (first | with_reducible assumption | with_reducible apply keeps_setPart | (simp only [keeps_mk]; with_reducible apply Keeps.core) | (intro; try dsimp only) | split | dsimp only | contradiction)

theorem keeps_completePacket {z0 : State} {s : State} {part : Nat} {p : Packet} {c : Completion} (hs : Keeps z0 s) :
    Keeps z0 (State.completePacket s part p c) := by
  unfold State.completePacket
  try dsimp only
  repeat' (first | with_reducible assumption | with_reducible apply keeps_writeCompletion | with_reducible apply keeps_addNotice | (simp only [keeps_mk]; with_reducible apply Keeps.core) | (intro; try dsimp only) | split | dsimp only | contradiction)

theorem keeps_dropCheck {z0 : State} {s : State} {part : Nat} (hs : Keeps z0 s) :
    Keeps z0 (State.dropCheck s part) := by
  unfold State.dropCheck
  try dsimp only
  repeat' (first | with_reducible assumption | with_reducible apply keeps_setPart | (simp only [keeps_mk]; with_reducible apply Keeps.coreCut; rotate_left; exact Nat.le_trans (by decide) (far_chKey _)) | (simp only [keeps_mk]; with_reducible apply Keeps.core) | (intro; try dsimp only) | split | dsimp only | contradiction)

theorem keeps_execCompletionNotice {z0 : State} {part : Nat} {s : State} (hs : Keeps z0 s) :
    ∀ t9, (execCompletionNotice part s) = .next t9 → Keeps z0 t9 := by
  unfold execCompletionNotice
  intro t9
  try dsimp only
  repeat' (first | with_reducible assumption | with_reducible apply keeps_dropCheck | with_reducible apply keeps_setPart | with_reducible apply keeps_post | (simp only [keeps_mk]; with_reducible apply Keeps.core) | (intro h9; obtain rfl := Host.Outcome.next.inj h9; try dsimp only) | split | (intro; try dsimp only) | dsimp only | contradiction)

theorem keeps_newId {z0 : State} {s : State} {part : Nat} (hs : Keeps z0 s) :
    Keeps z0 (State.newId s part).1 := by
  unfold State.newId
  try dsimp only
  repeat' (first | with_reducible assumption | with_reducible apply keeps_setPart | (simp only [keeps_mk]; with_reducible apply Keeps.core) | (intro; try dsimp only) | split | dsimp only | contradiction)

theorem keeps_submit {z0 : State} {s : State} {part : Nat} {p : Packet} {priv : Bool} {parent : Option Nat} (hs : Keeps z0 s) :
    Keeps z0 (State.submit s part p priv parent).1 := by
  unfold State.submit
  try dsimp only
  repeat' (first | with_reducible assumption | with_reducible apply keeps_completePacket | with_reducible apply keeps_shapeCheck | with_reducible apply keeps_setGraph | with_reducible apply keeps_newId | (simp only [keeps_mk]; with_reducible apply Keeps.core) | (intro; try dsimp only) | split | dsimp only | contradiction)

theorem keeps_takeEntry {z0 : State} {s : State} {part : Nat} {priv : Bool} (hs : Keeps z0 s) :
    Keeps z0 (State.takeEntry s part priv) := by
  unfold State.takeEntry
  try dsimp only
  repeat' (first | with_reducible assumption | with_reducible apply keeps_physWrite | with_reducible apply keeps_setPart | (simp only [keeps_mk]; with_reducible apply Keeps.core) | (intro; try dsimp only) | split | dsimp only | contradiction)

theorem keeps_execSubmissionEntry {z0 : State} {part : Nat} {priv : Bool} {s : State} (hs : Keeps z0 s) :
    ∀ t9, (execSubmissionEntry part priv s) = .next t9 → Keeps z0 t9 := by
  unfold execSubmissionEntry
  intro t9
  try dsimp only
  repeat' (first | with_reducible assumption | with_reducible apply keeps_readPacket | with_reducible apply keeps_frontFault | with_reducible apply keeps_takeEntry | with_reducible apply keeps_physRead | with_reducible apply keeps_submit | (simp only [keeps_mk]; with_reducible apply Keeps.core) | (intro h9; obtain rfl := Host.Outcome.next.inj h9; try dsimp only) | split | (intro; try dsimp only) | dsimp only | contradiction)

theorem keeps_execLaunch {z0 : State} {g : Guard} {d a : Opd} {s : State} (hs : Keeps z0 s) :
    ∀ t9, (execLaunch g d a s) = .next t9 → Keeps z0 t9 := by
  unfold execLaunch
  intro t9
  try dsimp only
  repeat' (first | with_reducible assumption | with_reducible apply keeps_completePacket | with_reducible apply keeps_groupLevel | with_reducible apply keeps_readPacket | with_reducible apply keeps_memFault | with_reducible apply keeps_submit | with_reducible apply keeps_setMe | with_reducible apply keeps_trap | (simp only [keeps_mk]; with_reducible apply Keeps.core) | (intro h9; obtain rfl := Host.Outcome.next.inj h9; try dsimp only) | split | (intro; try dsimp only) | dsimp only | contradiction)

theorem keeps_cancelUnstarted {z0 : State} {s : State} {gid : Nat} (hs : Keeps z0 s) :
    Keeps z0 (State.cancelUnstarted s gid) := by
  unfold State.cancelUnstarted
  try dsimp only
  repeat' (first | with_reducible assumption | with_reducible apply keeps_sendDown | with_reducible apply keeps_setGrid | (simp only [keeps_mk]; with_reducible apply Keeps.core) | (intro; try dsimp only) | split | dsimp only | contradiction)

theorem keeps_freeMailboxes {z0 : State} {s : State} {gid : Nat} (hs : Keeps z0 s) :
    Keeps z0 (State.freeMailboxes s gid) := by
  unfold State.freeMailboxes
  try dsimp only
  repeat' (first | with_reducible assumption | (simp only [keeps_mk]; with_reducible apply Keeps.core) | (intro; try dsimp only) | split | dsimp only | contradiction)

theorem keeps_freeGraph {z0 : State} {s : State} {gid : Nat} (hs : Keeps z0 s) :
    Keeps z0 (State.freeGraph s gid) := by
  unfold State.freeGraph
  try dsimp only
  repeat' (first | with_reducible assumption | with_reducible apply keeps_dropCheck | with_reducible apply keeps_setGraph | (simp only [keeps_mk]; with_reducible apply Keeps.core) | (intro; try dsimp only) | split | dsimp only | contradiction)

theorem keeps_nodeGridEnds {z0 : State} {s : State} {x : Grid} {st : Nat} {v : Word} {idx : Nat} (hs : Keeps z0 s) :
    Keeps z0 (State.nodeGridEnds s x st v idx) := by
  unfold State.nodeGridEnds
  try dsimp only
  repeat' (first | with_reducible assumption | with_reducible apply keeps_setGraph | with_reducible apply keeps_setNode | (simp only [keeps_mk]; with_reducible apply Keeps.core) | (intro; try dsimp only) | split | dsimp only | contradiction)

theorem keeps_finishGrid {z0 : State} {s : State} {gid : Nat} (hs : Keeps z0 s) :
    Keeps z0 (State.finishGrid s gid) := by
  unfold State.finishGrid
  try dsimp only
  repeat' (first | with_reducible assumption | with_reducible apply keeps_writeNodeCompletion | with_reducible apply keeps_completePacket | with_reducible apply keeps_freeMailboxes | with_reducible apply keeps_nodeGridEnds | with_reducible apply keeps_validRead | with_reducible apply keeps_freeGraph | with_reducible apply keeps_setGrid | (simp only [keeps_mk]; with_reducible apply Keeps.core) | (intro; try dsimp only) | split | dsimp only | contradiction)

theorem keeps_checkGrid {z0 : State} {s : State} {gid : Nat} (hs : Keeps z0 s) :
    Keeps z0 (State.checkGrid s gid) := by
  unfold State.checkGrid
  try dsimp only
  repeat' (first | with_reducible assumption | with_reducible apply keeps_finishGrid | (simp only [keeps_mk]; with_reducible apply Keeps.core) | (intro; try dsimp only) | split | dsimp only | contradiction)

theorem keeps_endTeam {z0 : State} {s : State} {tk : Nat} (hs : Keeps z0 s) :
    Keeps z0 (State.endTeam s tk) := by
  unfold State.endTeam
  try dsimp only
  repeat' (first | with_reducible assumption | with_reducible apply keeps_growCheck | with_reducible apply keeps_endGroup | with_reducible apply Keeps.foldl | with_reducible apply Keeps.foldlFst | (simp only [keeps_mk]; with_reducible apply Keeps.core) | (intro; try dsimp only) | split | dsimp only | contradiction)

theorem keeps_endGridGroups {z0 : State} {s : State} {gid : Nat} (hs : Keeps z0 s) :
    Keeps z0 (State.endGridGroups s gid) := by
  unfold State.endGridGroups
  try dsimp only
  repeat' (first | with_reducible assumption | with_reducible apply keeps_refreshWake | with_reducible apply keeps_endTeam | with_reducible apply Keeps.foldl | with_reducible apply Keeps.foldlFst | (simp only [keeps_mk]; with_reducible apply Keeps.core) | (intro; try dsimp only) | split | dsimp only | contradiction)

theorem keeps_terminateGrid {z0 : State} {s : State} {gid : Nat} (hs : Keeps z0 s) :
    Keeps z0 (State.terminateGrid s gid) := by
  unfold State.terminateGrid
  try dsimp only
  repeat' (first | with_reducible assumption | with_reducible apply keeps_cancelUnstarted | with_reducible apply keeps_endGridGroups | with_reducible apply keeps_checkGrid | with_reducible apply keeps_setGrid | (simp only [keeps_mk]; with_reducible apply Keeps.core) | (intro; try dsimp only) | split | dsimp only | contradiction)

theorem keeps_execDone {z0 : State} {g : Guard} {grid : Bool} {s : State} (hs : Keeps z0 s) :
    ∀ t9, (execDone g grid s) = .next t9 → Keeps z0 t9 := by
  unfold execDone
  intro t9
  try dsimp only
  repeat' (first | with_reducible assumption | with_reducible apply keeps_cancelUnstarted | with_reducible apply keeps_groupLevel | with_reducible apply keeps_setGrid | with_reducible apply keeps_endTeam | (simp only [keeps_mk]; with_reducible apply Keeps.core) | (intro h9; obtain rfl := Host.Outcome.next.inj h9; try dsimp only) | split | (intro; try dsimp only) | dsimp only | contradiction)

theorem keeps_endNode {z0 : State} {s : State} {idx : Nat} {err cancelled : Bool} (hs : Keeps z0 s) :
    Keeps z0 (State.endNode s idx err cancelled).1 := by
  unfold State.endNode
  try dsimp only
  repeat' (first | with_reducible assumption | with_reducible apply keeps_setGraph | with_reducible apply keeps_setNode | (simp only [keeps_mk]; with_reducible apply Keeps.core) | (intro; try dsimp only) | split | dsimp only | contradiction)

theorem keeps_readyNode {z0 : State} {s : State} {idx : Nat} (hs : Keeps z0 s) :
    Keeps z0 (State.readyNode s idx).1 := by
  unfold State.readyNode
  try dsimp only
  repeat' (first | with_reducible assumption | with_reducible apply keeps_setNode | with_reducible apply keeps_endNode | (simp only [keeps_mk]; with_reducible apply Keeps.core) | (intro; try dsimp only) | split | dsimp only | contradiction)

theorem keeps_oneDec {z0 : State} {s : State} {idx : Nat} {err : Bool} (hs : Keeps z0 s) :
    Keeps z0 (State.oneDec s idx err).1 := by
  unfold State.oneDec
  try dsimp only
  repeat' (first | with_reducible assumption | with_reducible apply keeps_readyNode | with_reducible apply keeps_setGraph | with_reducible apply keeps_setNode | with_reducible apply keeps_endNode | (simp only [keeps_mk]; with_reducible apply Keeps.core) | (intro; try dsimp only) | split | dsimp only | contradiction)

theorem keeps_decAll {z0 : State} {n : Nat} {l : List (Nat × Bool)} {s : State} (hs : Keeps z0 s) :
    Keeps z0 (State.decAll n l s) := by
  induction n generalizing l s with
  | zero => cases l <;> exact hs
  | succ n ih =>
    cases l with
    | nil => exact hs
    | cons e r => exact ih (keeps_oneDec hs)

theorem keeps_releaseNodes {z0 : State} {s : State} {gid : Nat} (hs : Keeps z0 s) :
    Keeps z0 (State.releaseNodes s gid) := by
  unfold State.releaseNodes
  try dsimp only
  repeat' (first | with_reducible assumption | with_reducible apply keeps_setNode | with_reducible apply Keeps.foldl | with_reducible apply Keeps.foldlFst | (simp only [keeps_mk]; with_reducible apply Keeps.core) | (intro; try dsimp only) | split | dsimp only | contradiction)

theorem keeps_checkGraph {z0 : State} {s : State} {gid : Nat} (hs : Keeps z0 s) :
    Keeps z0 (State.checkGraph s gid) := by
  unfold State.checkGraph
  try dsimp only
  repeat' (first | with_reducible assumption | with_reducible apply keeps_completePacket | with_reducible apply keeps_releaseNodes | with_reducible apply keeps_freeGraph | with_reducible apply keeps_setNode | with_reducible apply Keeps.foldl | with_reducible apply Keeps.foldlFst | (simp only [keeps_mk]; with_reducible apply Keeps.core) | (intro; try dsimp only) | split | dsimp only | contradiction)

theorem keeps_nodeDec {z0 : State} {s : State} {idx : Nat} {err : Bool} (hs : Keeps z0 s) :
    Keeps z0 (State.nodeDec s idx err) := by
  unfold State.nodeDec
  try dsimp only
  repeat' (first | with_reducible assumption | with_reducible apply keeps_checkGraph | with_reducible apply keeps_decAll | (simp only [keeps_mk]; with_reducible apply Keeps.core) | (intro; try dsimp only) | split | dsimp only | contradiction)

theorem keeps_completeNode {z0 : State} {s : State} {idx : Nat} {err : Bool} (hs : Keeps z0 s) :
    Keeps z0 (State.completeNode s idx err) := by
  unfold State.completeNode
  try dsimp only
  repeat' (first | with_reducible assumption | with_reducible apply keeps_checkGraph | with_reducible apply keeps_endNode | with_reducible apply keeps_decAll | (simp only [keeps_mk]; with_reducible apply Keeps.core) | (intro; try dsimp only) | split | dsimp only | contradiction)

theorem keeps_cancelNode {z0 : State} {s : State} {idx : Nat} (hs : Keeps z0 s) :
    Keeps z0 (State.cancelNode s idx) := by
  unfold State.cancelNode
  try dsimp only
  repeat' (first | with_reducible assumption | with_reducible apply keeps_checkGraph | with_reducible apply keeps_endNode | with_reducible apply keeps_decAll | (simp only [keeps_mk]; with_reducible apply Keeps.core) | (intro; try dsimp only) | split | dsimp only | contradiction)

theorem keeps_captureBindings {z0 : State} {s : State} {x : Graph} (hs : Keeps z0 s) :
    Keeps z0 (State.captureBindings s x).1 := by
  unfold State.captureBindings
  try dsimp only
  repeat' (first | with_reducible assumption | with_reducible apply keeps_readBindings | (simp only [keeps_mk]; with_reducible apply Keeps.core) | (intro; try dsimp only) | split | dsimp only | contradiction)

theorem keeps_refuseStart {z0 : State} {s : State} {gid reason : Nat} (hs : Keeps z0 s) :
    Keeps z0 (State.refuseStart s gid reason) := by
  unfold State.refuseStart
  try dsimp only
  repeat' (first | with_reducible assumption | with_reducible apply keeps_completePacket | with_reducible apply keeps_freeGraph | (simp only [keeps_mk]; with_reducible apply Keeps.core) | (intro; try dsimp only) | split | dsimp only | contradiction)

theorem keeps_clearValid {z0 : State} {s : State} {part gid : Nat} {p : Packet} (hs : Keeps z0 s) :
    Keeps z0 (State.clearValid s part gid p) := by
  unfold State.clearValid
  try dsimp only
  repeat' (first | with_reducible assumption | with_reducible apply keeps_frontFault | with_reducible apply keeps_vwrite | (simp only [keeps_mk]; with_reducible apply Keeps.core) | (intro; try dsimp only) | split | dsimp only | contradiction)

theorem keeps_startGrid {z0 : State} {s : State} {gid graph : Nat} {node : Option Nat} {p : Packet} {bs : List (Nat × Word)} (hs : Keeps z0 s) :
    Keeps z0 (State.startGrid s gid graph node p bs) := by
  unfold State.startGrid
  try dsimp only
  repeat' (first | with_reducible assumption | with_reducible apply keeps_terminateGrid | with_reducible apply keeps_clearValid | with_reducible apply keeps_sendDown | with_reducible apply keeps_setGrid | (simp only [keeps_mk]; with_reducible apply Keeps.core) | (intro; try dsimp only) | split | dsimp only | contradiction)

theorem keeps_execGraphStart {z0 : State} {s : State} (hs : Keeps z0 s) :
    ∀ t9, (execGraphStart s) = .next t9 → Keeps z0 t9 := by
  unfold execGraphStart
  intro t9
  try dsimp only
  repeat' (first | with_reducible assumption | with_reducible apply keeps_captureBindings | with_reducible apply keeps_refuseStart | with_reducible apply keeps_checkGraph | with_reducible apply keeps_readyNode | with_reducible apply keeps_startGrid | with_reducible apply keeps_setGraph | with_reducible apply keeps_setNode | with_reducible apply keeps_decAll | with_reducible apply Keeps.foldl | with_reducible apply Keeps.foldlFst | (simp only [keeps_mk]; with_reducible apply Keeps.core) | (intro h9; obtain rfl := Host.Outcome.next.inj h9; try dsimp only) | split | (intro; try dsimp only) | dsimp only | contradiction)

theorem keeps_startNodeJob {z0 : State} {s : State} {idx : Nat} {ws : List Word} (hs : Keeps z0 s) :
    Keeps z0 (State.startNodeJob s idx ws) := by
  unfold State.startNodeJob
  try dsimp only
  repeat' (first | with_reducible assumption | with_reducible apply keeps_completeNode | with_reducible apply keeps_jobDescs | with_reducible apply keeps_statusAt | with_reducible apply keeps_setJob | (simp only [keeps_mk]; with_reducible apply Keeps.core) | (intro; try dsimp only) | split | dsimp only | contradiction)

theorem keeps_startNodeGrid {z0 : State} {s : State} {idx : Nat} {p : Packet} (hs : Keeps z0 s) :
    Keeps z0 (State.startNodeGrid s idx p) := by
  unfold State.startNodeGrid
  try dsimp only
  repeat' (first | with_reducible assumption | with_reducible apply keeps_writeNodeCompletion | with_reducible apply keeps_readBindings | with_reducible apply keeps_completeNode | with_reducible apply keeps_shapeCheck | with_reducible apply keeps_startGrid | with_reducible apply keeps_newId | (simp only [keeps_mk]; with_reducible apply Keeps.core) | (intro; try dsimp only) | split | dsimp only | contradiction)

theorem keeps_readNodeBlock {z0 : State} {s : State} {idx : Nat} (hs : Keeps z0 s) :
    Keeps z0 (State.readNodeBlock s idx).1 := by
  unfold State.readNodeBlock
  try dsimp only
  repeat' (first | with_reducible assumption | with_reducible apply keeps_frontFault | with_reducible apply keeps_vread | (simp only [keeps_mk]; with_reducible apply Keeps.core) | (intro; try dsimp only) | split | dsimp only | contradiction)

theorem keeps_execNodeDispatch {z0 : State} {s : State} (hs : Keeps z0 s) :
    ∀ t9, (execNodeDispatch s) = .next t9 → Keeps z0 t9 := by
  unfold execNodeDispatch
  intro t9
  try dsimp only
  repeat' (first | with_reducible assumption | with_reducible apply keeps_startNodeGrid | with_reducible apply keeps_readNodeBlock | with_reducible apply keeps_completeNode | with_reducible apply keeps_startNodeJob | with_reducible apply keeps_cancelNode | with_reducible apply keeps_setNode | (simp only [keeps_mk]; with_reducible apply Keeps.core) | (intro h9; obtain rfl := Host.Outcome.next.inj h9; try dsimp only) | split | (intro; try dsimp only) | dsimp only | contradiction)

theorem keeps_execNodeCompletion {z0 : State} {node : Nat} {s : State} (hs : Keeps z0 s) :
    ∀ t9, (execNodeCompletion node s) = .next t9 → Keeps z0 t9 := by
  unfold execNodeCompletion
  intro t9
  try dsimp only
  repeat' (first | with_reducible assumption | with_reducible apply keeps_completeNode | (simp only [keeps_mk]; with_reducible apply Keeps.core) | (intro h9; obtain rfl := Host.Outcome.next.inj h9; try dsimp only) | split | (intro; try dsimp only) | dsimp only | contradiction)

theorem keeps_discardMerges {z0 : State} {tk k n : Nat} {s : State} (hs : Keeps z0 s) :
    Keeps z0 (s.discardMerges tk k n) := by
  induction n generalizing s with
  | zero => exact hs
  | succ n ih =>
    unfold State.discardMerges
    refine ih ?_
    split
    · split
      · exact keeps_discardMerge hs
      · exact hs
    · exact hs

theorem keeps_raiseDeadline {z0 : State} {s : State} {k : Nat} (hs : Keeps z0 s) : Keeps z0 (s.raiseDeadline k) := by
  unfold State.raiseDeadline
  dsimp only
  split
  · exact hs
  · have h1 := keeps_discardMerges (tk := (s.grp k).team) (k := k) (n := (s.team (s.grp k).team).ops.length)
      (keeps_setGrp (k := k) (g := { s.grp k with raised := true }) hs)
    generalize State.discardMerges _ _ _ _ = s1 at h1
    split
    · exact h1
    · have h2 := keeps_dropGrow (cores := (s.team (s.grp k).team).cores) (k := k)
        (keeps_setGrp (k := k) (g := { s1.grp k with divert := true }) h1)
      generalize State.dropGrow _ _ _ = s2 at h2
      split <;> split <;> first | exact keeps_growCheck (keeps_divertGroup h2) | exact keeps_refreshWake h2

theorem keeps_execDeadlineEvent {z0 : State} {group : Nat} {s : State} (hs : Keeps z0 s) :
    ∀ t9, (execDeadlineEvent group s) = .next t9 → Keeps z0 t9 := by
  unfold execDeadlineEvent
  intro t9
  try dsimp only
  repeat' (first | with_reducible assumption | with_reducible apply keeps_raiseDeadline | (simp only [keeps_mk]; with_reducible apply Keeps.core) | (intro h9; obtain rfl := Host.Outcome.next.inj h9; try dsimp only) | split | (intro; try dsimp only) | dsimp only | contradiction)

theorem keeps_expireGrid {z0 : State} {s : State} {gid : Nat} (hs : Keeps z0 s) :
    Keeps z0 (State.expireGrid s gid) := by
  unfold State.expireGrid
  try dsimp only
  repeat' (first | with_reducible assumption | with_reducible apply keeps_cancelUnstarted | with_reducible apply keeps_raiseDeadline | with_reducible apply keeps_checkGrid | with_reducible apply keeps_sendDown | with_reducible apply keeps_setGrid | with_reducible apply Keeps.foldl | with_reducible apply Keeps.foldlFst | (simp only [keeps_mk]; with_reducible apply Keeps.core) | (intro; try dsimp only) | split | dsimp only | contradiction)

theorem keeps_execDeadlineExpiry {z0 : State} {graph : Nat} {s : State} (hs : Keeps z0 s) :
    ∀ t9, (execDeadlineExpiry graph s) = .next t9 → Keeps z0 t9 := by
  unfold execDeadlineExpiry
  intro t9
  try dsimp only
  repeat' (first | with_reducible assumption | with_reducible apply keeps_checkGraph | with_reducible apply keeps_cancelNode | with_reducible apply keeps_expireGrid | with_reducible apply keeps_setGraph | with_reducible apply Keeps.foldl | with_reducible apply Keeps.foldlFst | (simp only [keeps_mk]; with_reducible apply Keeps.core) | (intro h9; obtain rfl := Host.Outcome.next.inj h9; try dsimp only) | split | (intro; try dsimp only) | dsimp only | contradiction)

theorem keeps_execGridDeadline {z0 : State} {grid : Nat} {s : State} (hs : Keeps z0 s) :
    ∀ t9, (execGridDeadline grid s) = .next t9 → Keeps z0 t9 := by
  unfold execGridDeadline
  intro t9
  try dsimp only
  repeat' (first | with_reducible assumption | with_reducible apply keeps_endGridGroups | (simp only [keeps_mk]; with_reducible apply Keeps.core) | (intro h9; obtain rfl := Host.Outcome.next.inj h9; try dsimp only) | split | (intro; try dsimp only) | dsimp only | contradiction)

theorem keeps_execRingRecordWrite {z0 : State} {part : Nat} {host : Bool} {s : State} (hs : Keeps z0 s) :
    ∀ t9, (execRingRecordWrite part host s) = .next t9 → Keeps z0 t9 := by
  unfold execRingRecordWrite
  intro t9
  try dsimp only
  repeat' (first | with_reducible assumption | with_reducible apply keeps_writeRecord | with_reducible apply keeps_dropCheck | with_reducible apply keeps_setPart | (simp only [keeps_mk]; with_reducible apply Keeps.core) | (intro h9; obtain rfl := Host.Outcome.next.inj h9; try dsimp only) | split | (intro; try dsimp only) | dsimp only | contradiction)

theorem keeps_enqueue {z0 : State} {s : State} {j : Job} (hs : Keeps z0 s) :
    Keeps z0 (State.enqueue s j) := by
  unfold State.enqueue
  try dsimp only
  repeat' (first | with_reducible assumption | with_reducible apply keeps_setJob | (simp only [keeps_mk]; with_reducible apply Keeps.core) | (intro; try dsimp only) | split | dsimp only | contradiction)

theorem keeps_queueJob {z0 : State} {s : State} {gd : Guard} {k : JobKind} {mods : BitVec 8} {d a b c : Opd} (hs : Keeps z0 s) :
    Keeps z0 (State.queueJob s gd k mods d a b c) := by
  unfold State.queueJob
  try dsimp only
  repeat' (first | with_reducible assumption | with_reducible apply keeps_groupLevel | with_reducible apply keeps_codedFault | with_reducible apply keeps_memFault | with_reducible apply keeps_jobDescs | with_reducible apply keeps_statusAt | with_reducible apply keeps_enqueue | with_reducible apply keeps_commit | with_reducible apply keeps_trap | (simp only [keeps_mk]; with_reducible apply Keeps.core) | (intro; try dsimp only) | split | dsimp only | contradiction)

theorem keeps_execCpy {z0 : State} {g : Guard} {dst src : Space4} {d a b c : Opd} {s : State} (hs : Keeps z0 s) :
    ∀ t9, (execCpy g dst src d a b c s) = .next t9 → Keeps z0 t9 := by
  unfold execCpy
  intro t9
  try dsimp only
  repeat' (first | with_reducible assumption | with_reducible apply keeps_queueJob | (simp only [keeps_mk]; with_reducible apply Keeps.core) | (intro h9; obtain rfl := Host.Outcome.next.inj h9; try dsimp only) | split | (intro; try dsimp only) | dsimp only | contradiction)

theorem keeps_execCpy2d {z0 : State} {g : Guard} {dst src : Space4} {d a b c : Opd} {s : State} (hs : Keeps z0 s) :
    ∀ t9, (execCpy2d g dst src d a b c s) = .next t9 → Keeps z0 t9 := by
  unfold execCpy2d
  intro t9
  try dsimp only
  repeat' (first | with_reducible assumption | with_reducible apply keeps_queueJob | (simp only [keeps_mk]; with_reducible apply Keeps.core) | (intro h9; obtain rfl := Host.Outcome.next.inj h9; try dsimp only) | split | (intro; try dsimp only) | dsimp only | contradiction)

theorem keeps_execGather {z0 : State} {g : Guard} {dst src : Space4} {csr : Bool} {k : Fin 8} {d a b c : Opd} {s : State} (hs : Keeps z0 s) :
    ∀ t9, (execGather g dst src csr k d a b c s) = .next t9 → Keeps z0 t9 := by
  unfold execGather
  intro t9
  try dsimp only
  repeat' (first | with_reducible assumption | with_reducible apply keeps_queueJob | (simp only [keeps_mk]; with_reducible apply Keeps.core) | (intro h9; obtain rfl := Host.Outcome.next.inj h9; try dsimp only) | split | (intro; try dsimp only) | dsimp only | contradiction)

theorem keeps_execScatter {z0 : State} {g : Guard} {dst src : Space4} {k : Fin 8} {d a b c : Opd} {s : State} (hs : Keeps z0 s) :
    ∀ t9, (execScatter g dst src k d a b c s) = .next t9 → Keeps z0 t9 := by
  unfold execScatter
  intro t9
  try dsimp only
  repeat' (first | with_reducible assumption | with_reducible apply keeps_queueJob | (simp only [keeps_mk]; with_reducible apply Keeps.core) | (intro h9; obtain rfl := Host.Outcome.next.inj h9; try dsimp only) | split | (intro; try dsimp only) | dsimp only | contradiction)

theorem keeps_execXform {z0 : State} {g : Guard} {keep : Bool} {d a b c : Opd} {s : State} (hs : Keeps z0 s) :
    ∀ t9, (execXform g keep d a b c s) = .next t9 → Keeps z0 t9 := by
  unfold execXform
  intro t9
  try dsimp only
  repeat' (first | with_reducible assumption | with_reducible apply keeps_queueJob | (simp only [keeps_mk]; with_reducible apply Keeps.core) | (intro h9; obtain rfl := Host.Outcome.next.inj h9; try dsimp only) | split | (intro; try dsimp only) | dsimp only | contradiction)

theorem keeps_execKvsend {z0 : State} {g : Guard} {d a b c : Opd} {s : State} (hs : Keeps z0 s) :
    ∀ t9, (execKvsend g d a b c s) = .next t9 → Keeps z0 t9 := by
  unfold execKvsend
  intro t9
  try dsimp only
  repeat' (first | with_reducible assumption | with_reducible apply keeps_queueJob | (simp only [keeps_mk]; with_reducible apply Keeps.core) | (intro h9; obtain rfl := Host.Outcome.next.inj h9; try dsimp only) | split | (intro; try dsimp only) | dsimp only | contradiction)

theorem keeps_execWbcast {z0 : State} {g : Guard} {src : Space4} {d a b c : Opd} {s : State} (hs : Keeps z0 s) :
    ∀ t9, (execWbcast g src d a b c s) = .next t9 → Keeps z0 t9 := by
  unfold execWbcast
  intro t9
  try dsimp only
  repeat' (first | with_reducible assumption | with_reducible apply keeps_queueJob | (simp only [keeps_mk]; with_reducible apply Keeps.core) | (intro h9; obtain rfl := Host.Outcome.next.inj h9; try dsimp only) | split | (intro; try dsimp only) | dsimp only | contradiction)

theorem keeps_execRingpush {z0 : State} {g : Guard} {d a b c : Opd} {s : State} (hs : Keeps z0 s) :
    ∀ t9, (execRingpush g d a b c s) = .next t9 → Keeps z0 t9 := by
  unfold execRingpush
  intro t9
  try dsimp only
  repeat' (first | with_reducible assumption | with_reducible apply keeps_queueJob | (simp only [keeps_mk]; with_reducible apply Keeps.core) | (intro h9; obtain rfl := Host.Outcome.next.inj h9; try dsimp only) | split | (intro; try dsimp only) | dsimp only | contradiction)

theorem keeps_startJob {z0 : State} {s : State} {n : Nat} (hs : Keeps z0 s) :
    Keeps z0 (State.startJob s n) := by
  unfold State.startJob
  try dsimp only
  repeat' (first | with_reducible assumption | with_reducible apply keeps_setTeam | with_reducible apply keeps_setJob | (simp only [keeps_mk]; with_reducible apply Keeps.core) | (intro; try dsimp only) | split | dsimp only | contradiction)

theorem keeps_execJobStart {z0 : State} {core : Nat} {s : State} (hs : Keeps z0 s) :
    ∀ t9, (execJobStart core s) = .next t9 → Keeps z0 t9 := by
  unfold execJobStart
  intro t9
  try dsimp only
  repeat' (first | with_reducible assumption | with_reducible apply keeps_startJob | (simp only [keeps_mk]; with_reducible apply Keeps.core) | (intro h9; obtain rfl := Host.Outcome.next.inj h9; try dsimp only) | split | (intro; try dsimp only) | dsimp only | contradiction)

theorem keeps_execChunkCompletion {z0 : State} {job : Nat} {s : State} (hs : Keeps z0 s) :
    ∀ t9, (execChunkCompletion job s) = .next t9 → Keeps z0 t9 := by
  unfold execChunkCompletion
  intro t9
  try dsimp only
  repeat' (first | with_reducible assumption | with_reducible apply keeps_runChunk | with_reducible apply keeps_setJob | (simp only [keeps_mk]; with_reducible apply Keeps.core) | (intro h9; obtain rfl := Host.Outcome.next.inj h9; try dsimp only) | split | (intro; try dsimp only) | dsimp only | contradiction)

theorem keeps_execJobFault {z0 : State} {job : Nat} {s : State} (hs : Keeps z0 s) :
    ∀ t9, (execJobFault job s) = .next t9 → Keeps z0 t9 := by
  unfold execJobFault
  intro t9
  try dsimp only
  repeat' (first | with_reducible assumption | with_reducible apply keeps_runChunk | with_reducible apply keeps_setJob | with_reducible apply keeps_post | (simp only [keeps_mk]; with_reducible apply Keeps.core) | (intro h9; obtain rfl := Host.Outcome.next.inj h9; try dsimp only) | split | (intro; try dsimp only) | dsimp only | contradiction)

theorem keeps_writeStatus {z0 : State} {s : State} {j : Job} (hs : Keeps z0 s) :
    Keeps z0 (State.writeStatus s j).1 := by
  unfold State.writeStatus
  try dsimp only
  repeat' (first | with_reducible assumption | with_reducible apply keeps_vwrite | with_reducible apply keeps_post | (simp only [keeps_mk]; with_reducible apply Keeps.core) | (intro; try dsimp only) | split | dsimp only | contradiction)

theorem keeps_flipSlot {z0 : State} {s : State} {j : Job} (hs : Keeps z0 s) :
    Keeps z0 (State.flipSlot s j) := by
  unfold State.flipSlot
  try dsimp only
  repeat' (first | with_reducible assumption | with_reducible apply keeps_setTeam | with_reducible apply keeps_release | (simp only [keeps_mk]; with_reducible apply Keeps.core) | (intro; try dsimp only) | split | dsimp only | contradiction)

theorem keeps_retireEffects {z0 : State} {s : State} {n : Nat} {j : Job} {err : Bool} (hs : Keeps z0 s) :
    Keeps z0 (State.retireEffects s n j err) := by
  unfold State.retireEffects
  try dsimp only
  repeat' (first | with_reducible assumption | with_reducible apply keeps_teamBarrier | with_reducible apply keeps_raiseAll | with_reducible apply keeps_flipSlot | with_reducible apply keeps_setNode | with_reducible apply keeps_nodeDec | with_reducible apply keeps_setJob | (simp only [keeps_mk]; with_reducible apply Keeps.core) | (intro; try dsimp only) | split | dsimp only | contradiction)

theorem keeps_retireJob {z0 : State} {s : State} {n : Nat} (hs : Keeps z0 s) :
    Keeps z0 (State.retireJob s n) := by
  unfold State.retireJob
  try dsimp only
  repeat' (first | with_reducible assumption | with_reducible apply keeps_retireEffects | with_reducible apply keeps_writeStatus | with_reducible apply keeps_scramble | (simp only [keeps_mk]; with_reducible apply Keeps.core) | (intro; try dsimp only) | split | dsimp only | contradiction)

theorem keeps_execJobRetirement {z0 : State} {job : Nat} {s : State} (hs : Keeps z0 s) :
    ∀ t9, (execJobRetirement job s) = .next t9 → Keeps z0 t9 := by
  unfold execJobRetirement
  intro t9
  try dsimp only
  repeat' (first | with_reducible assumption | with_reducible apply keeps_retireJob | (simp only [keeps_mk]; with_reducible apply Keeps.core) | (intro h9; obtain rfl := Host.Outcome.next.inj h9; try dsimp only) | split | (intro; try dsimp only) | dsimp only | contradiction)

theorem keeps_execInboundRemoteWrite {z0 : State} {part : Nat} {fid : BitVec 16} {rpart : BitVec 6} {addr : Word}
    {bytes : List Byte} {s : State} (hs : Keeps z0 s) :
    ∀ t9, execInboundRemoteWrite part fid rpart addr bytes s = .next t9 → Keeps z0 t9 := by
  unfold execInboundRemoteWrite
  intro t9 h9
  obtain rfl := Host.Outcome.next.inj h9
  split
  · exact hs
  · extract_lets -underBinder a t w
    have ht : Keeps z0 t.1 := keeps_translateRange hs
    have hw : Keeps z0 w.1 := keeps_translateRange hs
    clear_value t w
    split
    · split
      · exact hs
      · split
        · exact hs
        · extract_lets -underBinder l
          have hl : Keeps z0 l.1 := keeps_translateRange ht
          clear_value l
          split
          · exact hs
          · exact keeps_writePieces (keeps_writePieces (keeps_rememberPieces (keeps_rememberPieces hl)))
    · split
      · exact hs
      · dsimp only
        split
        · exact keeps_writePieces (keeps_rememberPieces hw)
        · exact hs

end Sys2Proof.Machine
end

