-- ==== Sys2Proof/Laws/KeepsLeaf.lean ====
section
/-!
SUPPORT. `Keeps` for the operations of Leaf, Preempt.
-/
set_option linter.unusedSimpArgs false
namespace Sys2Proof.Machine

theorem keeps_takeCmd {z0 : State} {s : State} {n : Nat} {up : Bool} {is : LinkCmd → Bool} (hs : Keeps z0 s) :
    ∀ t9, (State.takeCmd s n up is) = some t9 → Keeps z0 t9 := by
  unfold State.takeCmd
  intro t9
  try dsimp only
  repeat' (first | with_reducible assumption | with_reducible apply keeps_setLink | (simp only [keeps_mk]; with_reducible apply Keeps.core) | (intro h9; obtain rfl := Option.some.inj h9; try dsimp only) | (intro h9; cases h9; done) | split | (intro; try dsimp only) | dsimp only | contradiction)

theorem keeps_scatterTeams {z0 : State} {s : State} {grid first count : Nat} (hs : Keeps z0 s) :
    Keeps z0 (State.scatterTeams s grid first count) := by
  unfold State.scatterTeams
  try dsimp only
  repeat' (first | with_reducible assumption | with_reducible apply keeps_sendDown | with_reducible apply keeps_choose | with_reducible apply Keeps.foldl | with_reducible apply Keeps.foldlFst | (simp only [keeps_mk]; with_reducible apply Keeps.core) | (intro; try dsimp only) | split | dsimp only | contradiction)

theorem keeps_queueTeams {z0 : State} {s : State} {cluster grid first count : Nat} (hs : Keeps z0 s) :
    Keeps z0 (State.queueTeams s cluster grid first count) := by
  unfold State.queueTeams
  try dsimp only
  repeat' (first | with_reducible assumption | with_reducible apply keeps_setCluster | (simp only [keeps_mk]; with_reducible apply Keeps.core) | (intro; try dsimp only) | split | dsimp only | contradiction)

theorem keeps_execPlace {z0 : State} {link : Nat} {grid first count : Word} {s : State} (hs : Keeps z0 s) :
    ∀ t9, (execPlace link grid first count s) = .next t9 → Keeps z0 t9 := by
  unfold execPlace
  intro t9
  try dsimp only
  repeat' (first | with_reducible assumption | with_reducible apply keeps_scatterTeams | with_reducible apply keeps_queueTeams | (simp only [keeps_mk]; with_reducible apply Keeps.core) | (intro h9; obtain rfl := Host.Outcome.next.inj h9; try dsimp only) | split | (intro; try dsimp only) | dsimp only | contradiction | (refine keeps_takeCmd ?_ _ ‹_ = some _› <;> assumption))

theorem keeps_forwardDown {z0 : State} {s : State} {kind : Nat} {grid arg0 arg1 : Word} (hs : Keeps z0 s) :
    Keeps z0 (State.forwardDown s kind grid arg0 arg1) := by
  unfold State.forwardDown
  try dsimp only
  repeat' (first | with_reducible assumption | with_reducible apply keeps_sendDown | with_reducible apply Keeps.foldl | with_reducible apply Keeps.foldlFst | (simp only [keeps_mk]; with_reducible apply Keeps.core) | (intro; try dsimp only) | split | dsimp only | contradiction)

theorem keeps_dropWaiting {z0 : State} {s : State} {cluster grid : Nat} (hs : Keeps z0 s) :
    Keeps z0 (State.dropWaiting s cluster grid) := by
  unfold State.dropWaiting
  try dsimp only
  repeat' (first | with_reducible assumption | with_reducible apply keeps_setCluster | with_reducible apply keeps_sendUp | (simp only [keeps_mk]; with_reducible apply Keeps.core) | (intro; try dsimp only) | split | dsimp only | contradiction)

theorem keeps_execCancelUnstartedTeams {z0 : State} {link : Nat} {grid : Word} {s : State} (hs : Keeps z0 s) :
    ∀ t9, (execCancelUnstartedTeams link grid s) = .next t9 → Keeps z0 t9 := by
  unfold execCancelUnstartedTeams
  intro t9
  try dsimp only
  repeat' (first | with_reducible assumption | with_reducible apply keeps_forwardDown | with_reducible apply keeps_dropWaiting | (simp only [keeps_mk]; with_reducible apply Keeps.core) | (intro h9; obtain rfl := Host.Outcome.next.inj h9; try dsimp only) | split | (intro; try dsimp only) | dsimp only | contradiction | (refine keeps_takeCmd ?_ _ ‹_ = some _› <;> assumption))

theorem keeps_execDeadlineEventCommand {z0 : State} {link : Nat} {grid time : Word} {s : State} (hs : Keeps z0 s) :
    ∀ t9, (execDeadlineEventCommand link grid time s) = .next t9 → Keeps z0 t9 := by
  unfold execDeadlineEventCommand
  intro t9
  try dsimp only
  repeat' (first | with_reducible assumption | with_reducible apply keeps_forwardDown | (simp only [keeps_mk]; with_reducible apply Keeps.core) | (intro h9; obtain rfl := Host.Outcome.next.inj h9; try dsimp only) | split | (intro; try dsimp only) | dsimp only | contradiction | (refine keeps_takeCmd ?_ _ ‹_ = some _› <;> assumption))

theorem keeps_passUp {z0 : State} {s : State} {link kind : Nat} {grid arg0 arg1 : Word} (hs : Keeps z0 s) :
    Keeps z0 (State.passUp s link kind grid arg0 arg1) := by
  unfold State.passUp
  try dsimp only
  repeat' (first | with_reducible assumption | with_reducible apply keeps_sendUp | (simp only [keeps_mk]; with_reducible apply Keeps.core) | (intro; try dsimp only) | split | dsimp only | contradiction | (refine keeps_takeCmd ?_ _ ‹_ = some _› <;> assumption))

theorem keeps_execTeamsRetired {z0 : State} {link : Nat} {grid count cancelled : Word} {s : State} (hs : Keeps z0 s) :
    ∀ t9, (execTeamsRetired link grid count cancelled s) = .next t9 → Keeps z0 t9 := by
  unfold execTeamsRetired
  intro t9
  try dsimp only
  repeat' (first | with_reducible assumption | with_reducible apply keeps_passUp | (simp only [keeps_mk]; with_reducible apply Keeps.core) | (intro h9; obtain rfl := Host.Outcome.next.inj h9; try dsimp only) | split | (intro; try dsimp only) | dsimp only | contradiction)

theorem keeps_execFaultReport {z0 : State} {link : Nat} {grid index core : Word} {s : State} (hs : Keeps z0 s) :
    ∀ t9, (execFaultReport link grid index core s) = .next t9 → Keeps z0 t9 := by
  unfold execFaultReport
  intro t9
  try dsimp only
  repeat' (first | with_reducible assumption | with_reducible apply keeps_passUp | (simp only [keeps_mk]; with_reducible apply Keeps.core) | (intro h9; obtain rfl := Host.Outcome.next.inj h9; try dsimp only) | split | (intro; try dsimp only) | dsimp only | contradiction)

theorem keeps_execFreezeReport {z0 : State} {link : Nat} {grid pcore status : Word} {s : State} (hs : Keeps z0 s) :
    ∀ t9, (execFreezeReport link grid pcore status s) = .next t9 → Keeps z0 t9 := by
  unfold execFreezeReport
  intro t9
  try dsimp only
  repeat' (first | with_reducible assumption | with_reducible apply keeps_passUp | (simp only [keeps_mk]; with_reducible apply Keeps.core) | (intro h9; obtain rfl := Host.Outcome.next.inj h9; try dsimp only) | split | (intro; try dsimp only) | dsimp only | contradiction)

theorem keeps_execReservedLinkCommand {z0 : State} {link : Nat} {kind : Byte} {s : State} (hs : Keeps z0 s) :
    ∀ t9, (execReservedLinkCommand link kind s) = .next t9 → Keeps z0 t9 := by
  unfold execReservedLinkCommand
  intro t9
  try dsimp only
  repeat' (first | with_reducible assumption | with_reducible apply keeps_setLink | (simp only [keeps_mk]; with_reducible apply Keeps.core) | (intro h9; obtain rfl := Host.Outcome.next.inj h9; try dsimp only) | split | (intro; try dsimp only) | dsimp only | contradiction)

theorem keeps_startGroup {z0 : State} {s : State} {team : Nat} {p : Packet} {i : Nat} (hs : Keeps z0 s) :
    Keeps z0 (State.startGroup s team p i) := by
  unfold State.startGroup
  try dsimp only
  repeat' (first | with_reducible assumption | with_reducible apply keeps_setGrp | with_reducible apply keeps_bind | (simp only [keeps_mk]; with_reducible apply Keeps.core) | (intro; try dsimp only) | split | dsimp only | contradiction)

theorem keeps_placeTeam {z0 : State} {s : State} {cluster : Nat} {w : WaitingTeam} {core : Nat} (hs : Keeps z0 s) :
    Keeps z0 (State.placeTeam s cluster w core) := by
  unfold State.placeTeam
  try dsimp only
  repeat' (first | with_reducible assumption | with_reducible apply keeps_setCluster | with_reducible apply keeps_startGroup | with_reducible apply keeps_setGraph | with_reducible apply keeps_setTeam | with_reducible apply keeps_setGrid | with_reducible apply Keeps.foldl | with_reducible apply Keeps.foldlFst | (simp only [keeps_mk]; with_reducible apply Keeps.core) | (intro; try dsimp only) | split | dsimp only | contradiction)

theorem keeps_execTeamPlacement {z0 : State} {cluster : Nat} {s : State} (hs : Keeps z0 s) :
    ∀ t9, (execTeamPlacement cluster s) = .next t9 → Keeps z0 t9 := by
  unfold execTeamPlacement
  intro t9
  try dsimp only
  repeat' (first | with_reducible assumption | with_reducible apply keeps_placeTeam | (simp only [keeps_mk]; with_reducible apply Keeps.core) | (intro h9; obtain rfl := Host.Outcome.next.inj h9; try dsimp only) | split | (intro; try dsimp only) | dsimp only | contradiction)

theorem keeps_execTeamRetirement {z0 : State} {team : Nat} {s : State} (hs : Keeps z0 s) :
    ∀ t9, (execTeamRetirement team s) = .next t9 → Keeps z0 t9 := by
  unfold execTeamRetirement
  intro t9
  try dsimp only
  repeat' (first | with_reducible assumption | with_reducible apply keeps_checkGrid | with_reducible apply keeps_setTeam | with_reducible apply keeps_setGrid | with_reducible apply keeps_setGrp | with_reducible apply keeps_sendUp | with_reducible apply Keeps.foldl | with_reducible apply Keeps.foldlFst | (simp only [keeps_mk]; with_reducible apply Keeps.core) | (intro h9; obtain rfl := Host.Outcome.next.inj h9; try dsimp only) | split | (intro; try dsimp only) | dsimp only | contradiction)

theorem keeps_without {z0 : State} {s : State} {tk : Nat} (hs : Keeps z0 s) :
    Keeps z0 (State.without s tk) := by
  unfold State.without
  try dsimp only
  repeat' (first | with_reducible assumption | with_reducible apply keeps_setTeam | with_reducible apply keeps_unbind | with_reducible apply Keeps.foldl | with_reducible apply Keeps.foldlFst | (simp only [keeps_mk]; with_reducible apply Keeps.core) | (intro; try dsimp only) | split | dsimp only | contradiction)

theorem keeps_execTeamEviction {z0 : State} {team : Nat} {s : State} (hs : Keeps z0 s) :
    ∀ t9, (execTeamEviction team s) = .next t9 → Keeps z0 t9 := by
  unfold execTeamEviction
  intro t9
  try dsimp only
  repeat' (first | with_reducible assumption | with_reducible apply keeps_evict | (simp only [keeps_mk]; with_reducible apply Keeps.core) | (intro h9; obtain rfl := Host.Outcome.next.inj h9; try dsimp only) | split | (intro; try dsimp only) | dsimp only | contradiction)

theorem keeps_execTeamRestore {z0 : State} {team : Nat} {s : State} (hs : Keeps z0 s) :
    ∀ t9, (execTeamRestore team s) = .next t9 → Keeps z0 t9 := by
  unfold execTeamRestore
  intro t9
  try dsimp only
  repeat' (first | with_reducible assumption | with_reducible apply keeps_restore | (simp only [keeps_mk]; with_reducible apply Keeps.core) | (intro h9; obtain rfl := Host.Outcome.next.inj h9; try dsimp only) | split | (intro; try dsimp only) | dsimp only | contradiction)

theorem keeps_execCoreFreeze {z0 : State} {core : Nat} {unit : Byte} {lost : List Nat} {s : State} (hs : Keeps z0 s) :
    ∀ t9, (execCoreFreeze core unit lost s) = .next t9 → Keeps z0 t9 := by
  unfold execCoreFreeze
  intro t9
  try dsimp only
  repeat' (first | with_reducible assumption | with_reducible apply keeps_setCore | (simp only [keeps_mk]; with_reducible apply Keeps.core) | (intro h9; obtain rfl := Host.Outcome.next.inj h9; try dsimp only) | split | (intro; try dsimp only) | dsimp only | contradiction)

theorem keeps_endHolds {z0 : State} {s : State} {is : Hold → Bool} (hs : Keeps z0 s) :
    Keeps z0 (State.endHolds s is) := by
  unfold State.endHolds
  try dsimp only
  repeat' (first | with_reducible assumption | with_reducible apply keeps_refreshWake | with_reducible apply keeps_setGrp | with_reducible apply Keeps.foldl | with_reducible apply Keeps.foldlFst | (simp only [keeps_mk]; with_reducible apply Keeps.core) | (intro; try dsimp only) | split | dsimp only | contradiction)

theorem keeps_useSpare {z0 : State} {s : State} {core : Nat} (hs : Keeps z0 s) :
    Keeps z0 (State.useSpare s core) := by
  unfold State.useSpare
  try dsimp only
  repeat' (first | with_reducible assumption | with_reducible apply keeps_setCluster | with_reducible apply keeps_setCore | (simp only [keeps_mk]; with_reducible apply Keeps.core) | (intro; try dsimp only) | split | dsimp only | contradiction)

theorem keeps_withdraw {z0 : State} {s : State} {core : Nat} (hs : Keeps z0 s) :
    Keeps z0 (State.withdraw s core) := by
  unfold State.withdraw
  try dsimp only
  repeat' (first | with_reducible assumption | with_reducible apply keeps_machineCheck | with_reducible apply keeps_endHolds | with_reducible apply keeps_setCore | with_reducible apply Keeps.foldl | with_reducible apply Keeps.foldlFst | (simp only [keeps_mk]; with_reducible apply Keeps.core) | (intro; try dsimp only) | split | dsimp only | contradiction)

theorem keeps_execMigration {z0 : State} {core : Nat} {s : State} (hs : Keeps z0 s) :
    ∀ t9, (execMigration core s) = .next t9 → Keeps z0 t9 := by
  unfold execMigration
  intro t9
  try dsimp only
  repeat' (first | with_reducible assumption | with_reducible apply keeps_machineCheck | with_reducible apply keeps_commitAll | with_reducible apply keeps_endHolds | with_reducible apply keeps_useSpare | with_reducible apply keeps_withdraw | with_reducible apply keeps_sendUp | with_reducible apply Keeps.foldl | with_reducible apply Keeps.foldlFst | (simp only [keeps_mk]; with_reducible apply Keeps.core) | (intro h9; obtain rfl := Host.Outcome.next.inj h9; try dsimp only) | split | (intro; try dsimp only) | dsimp only | contradiction)

theorem keeps_execLoadCompletion {z0 : State} {group : Nat} {dst : Opd} {lanes : BitVec 32} {s : State} (hs : Keeps z0 s) :
    ∀ t9, (execLoadCompletion group dst lanes s) = .next t9 → Keeps z0 t9 := by
  unfold execLoadCompletion
  intro t9
  try dsimp only
  repeat' (first | with_reducible assumption | with_reducible apply keeps_setGrp | (simp only [keeps_mk]; with_reducible apply Keeps.core) | (intro h9; obtain rfl := Host.Outcome.next.inj h9; try dsimp only) | split | (intro; try dsimp only) | dsimp only | contradiction)

theorem keeps_execSectorLookup {z0 : State} {addr : BitVec 52} {write : Bool} {s : State} (hs : Keeps z0 s) :
    ∀ t9, (execSectorLookup addr write s) = .next t9 → Keeps z0 t9 := by
  unfold execSectorLookup
  intro t9
  try dsimp only
  repeat' (first | with_reducible assumption | with_reducible apply keeps_endHolds | with_reducible apply keeps_request | (simp only [keeps_mk]; with_reducible apply Keeps.core) | (intro h9; obtain rfl := Host.Outcome.next.inj h9; try dsimp only) | split | (intro; try dsimp only) | dsimp only | contradiction)

theorem keeps_execTranslationWalk {z0 : State} {core part : Nat} {va : Word} {s : State} (hs : Keeps z0 s) :
    ∀ t9, (execTranslationWalk core part va s) = .next t9 → Keeps z0 t9 := by
  unfold execTranslationWalk
  intro t9
  try dsimp only
  repeat' (first | with_reducible assumption | with_reducible apply keeps_addCounter | with_reducible apply keeps_walk | (simp only [keeps_mk]; with_reducible apply Keeps.core) | (intro h9; obtain rfl := Host.Outcome.next.inj h9; try dsimp only) | split | (intro; try dsimp only) | dsimp only | contradiction)

end Sys2Proof.Machine
end

