-- ==== Sys2Proof/Laws/KeepsMgmt.lean ====
section
/-!
SUPPORT. `Keeps` for the operations of Mgmt, Card, Turns.
-/
set_option linter.unusedSimpArgs false
namespace Sys2Proof.Machine

theorem keeps_reply {z0 : State} {s : State} {r : Reply} (hs : Keeps z0 s) :
    Keeps z0 (State.reply s r).1 := by
  unfold State.reply
  try dsimp only
  repeat' (first | with_reducible assumption | with_reducible apply keeps_physWrite | with_reducible apply keeps_irq | (simp only [keeps_mk]; with_reducible apply Keeps.core) | (intro; try dsimp only) | split | dsimp only | contradiction)

theorem keeps_triedReply {z0 : State} {s : State} (hs : Keeps z0 s) : Keeps z0 s.triedReply :=
  keeps_tryRange (keeps_tryRange (keeps_tryRange hs))

theorem keeps_command {z0 : State} {s : State} {k : State → State × Reply} (hs : Keeps z0 s) (hk : ∀ u, Keeps z0 u → Keeps z0 (k u).1) :
    Keeps z0 (State.command s k) := by
  unfold State.command
  try dsimp only
  repeat' (first | with_reducible assumption | with_reducible apply keeps_triedReply | with_reducible apply hk | with_reducible apply keeps_reply | (simp only [keeps_mk]; with_reducible apply Keeps.core) | (intro; try dsimp only) | split | dsimp only | contradiction)

theorem keeps_afterGo {z0 : State} {s : State} {k : State → State × Reply} (hs : Keeps z0 s) (hk : ∀ u, Keeps z0 u → Keeps z0 (k u).1) :
    Keeps z0 (State.afterGo s k) := by
  unfold State.afterGo
  try dsimp only
  repeat' (first | with_reducible assumption | with_reducible apply hk | with_reducible apply keeps_command | (simp only [keeps_mk]; with_reducible apply Keeps.core) | (intro; try dsimp only) | split | dsimp only | contradiction)

theorem keeps_onPart {z0 : State} {s : State} {part : BitVec 6} {k : State → State × Reply} (hs : Keeps z0 s) (hk : ∀ u, Keeps z0 u → Keeps z0 (k u).1) :
    Keeps z0 (State.onPart s part k) := by
  unfold State.onPart
  try dsimp only
  repeat' (first | with_reducible assumption | with_reducible apply hk | with_reducible apply keeps_afterGo | (simp only [keeps_mk]; with_reducible apply Keeps.core) | (intro; try dsimp only) | split | dsimp only | contradiction)

theorem keeps_zeroWindow {z0 : State} {s : State} {x : Partition} (hs : Keeps z0 s) :
    Keeps z0 (State.zeroWindow s x) := by
  unfold State.zeroWindow
  try dsimp only
  repeat' (first | with_reducible assumption | (simp only [keeps_mk]; with_reducible apply Keeps.coreCut; rotate_left; exact Nat.le_trans (by decide) (far_chKey _)) | (simp only [keeps_mk]; with_reducible apply Keeps.core) | (intro; try dsimp only) | split | dsimp only | contradiction)

theorem keeps_applyBlock {z0 : State} {s : State} {part : Nat} {x : Partition} (hs : Keeps z0 s) :
    Keeps z0 (State.applyBlock s part x) := by
  unfold State.applyBlock
  try dsimp only
  repeat' (first | with_reducible assumption | with_reducible apply keeps_dropLines | with_reducible apply keeps_zeroWindow | with_reducible apply keeps_setPart | (simp only [keeps_mk]; with_reducible apply Keeps.core) | (intro; try dsimp only) | split | dsimp only | contradiction)

theorem keeps_execPcfg {z0 : State} {part : BitVec 6} {block : Word} {s : State} (hs : Keeps z0 s) :
    ∀ t9, (execPcfg part block s) = .next t9 → Keeps z0 t9 := by
  unfold execPcfg
  intro t9
  try dsimp only
  repeat' (first | with_reducible assumption | with_reducible apply keeps_applyBlock | with_reducible apply keeps_physRead | with_reducible apply keeps_afterGo | (simp only [keeps_mk]; with_reducible apply Keeps.core) | (intro h9; obtain rfl := Host.Outcome.next.inj h9; try dsimp only) | split | (intro; try dsimp only) | dsimp only | contradiction)

theorem keeps_execPdrop {z0 : State} {part : BitVec 6} {s : State} (hs : Keeps z0 s) :
    ∀ t9, (execPdrop part s) = .next t9 → Keeps z0 t9 := by
  unfold execPdrop
  intro t9
  try dsimp only
  repeat' (first | with_reducible assumption | with_reducible apply keeps_terminateGrid | with_reducible apply keeps_dropCheck | with_reducible apply keeps_setPart | with_reducible apply keeps_onPart | with_reducible apply Keeps.foldl | with_reducible apply Keeps.foldlFst | (simp only [keeps_mk]; with_reducible apply Keeps.core) | (intro h9; obtain rfl := Host.Outcome.next.inj h9; try dsimp only) | split | (intro; try dsimp only) | dsimp only | contradiction)

theorem keeps_unpark {z0 : State} {s : State} {k : Nat} {g : Group} (hs : Keeps z0 s) :
    Keeps z0 (State.unpark s k g) := by
  unfold State.unpark
  try dsimp only
  repeat' (first | with_reducible assumption | with_reducible apply keeps_refreshWake | with_reducible apply keeps_wakeGroup | (simp only [keeps_mk]; with_reducible apply Keeps.core) | (intro; try dsimp only) | split | dsimp only | contradiction)

theorem keeps_groupAction {z0 : State} {s : State} {part : BitVec 6} {grid who : Word} {k : State → Nat → Option State}
    (hs : Keeps z0 s) (hk : ∀ u a v, Keeps z0 u → k u a = some v → Keeps z0 v) : Keeps z0 (s.groupAction part grid who k) := by
  unfold State.groupAction
  refine keeps_onPart hs fun u hu => ?_
  try dsimp only
  split
  · exact hu
  · split
    · exact hu
    · exact hk _ _ _ hu ‹_›

theorem keeps_resumeGroup {z0 : State} {s : State} {k : Nat} {reply : Word} (hs : Keeps z0 s) :
    ∀ t9, (State.resumeGroup s k reply) = some t9 → Keeps z0 t9 := by
  unfold State.resumeGroup
  intro t9
  try dsimp only
  repeat' (first | with_reducible assumption | with_reducible apply keeps_unpark | with_reducible apply Keeps.foldl | with_reducible apply Keeps.foldlFst | (simp only [keeps_mk]; with_reducible apply Keeps.core) | (intro h9; obtain rfl := Option.some.inj h9; try dsimp only) | (intro h9; cases h9; done) | split | (intro; try dsimp only) | dsimp only | contradiction)

theorem keeps_execGactResume {z0 : State} {part : BitVec 6} {grid who reply : Word} {s : State} (hs : Keeps z0 s) :
    ∀ t9, execGactResume part grid who reply s = .next t9 → Keeps z0 t9 := by
  intro t9 h9
  obtain rfl := Host.Outcome.next.inj h9
  exact keeps_groupAction hs fun u a v hu hv => keeps_resumeGroup hu _ hv

theorem keeps_execGactSkip {z0 : State} {part : BitVec 6} {grid who : Word} {s : State} (hs : Keeps z0 s) :
    ∀ t9, execGactSkip part grid who s = .next t9 → Keeps z0 t9 := by
  intro t9 h9
  obtain rfl := Host.Outcome.next.inj h9
  refine keeps_groupAction hs fun u a v hu hv => ?_
  split at hv
  · obtain rfl := Option.some.inj hv
    exact keeps_unpark hu
  · cases hv

theorem keeps_execGactTerminateGroup {z0 : State} {part : BitVec 6} {grid who : Word} {s : State} (hs : Keeps z0 s) :
    ∀ t9, execGactTerminateGroup part grid who s = .next t9 → Keeps z0 t9 := by
  intro t9 h9
  obtain rfl := Host.Outcome.next.inj h9
  refine keeps_groupAction hs fun u a v hu hv => ?_
  split at hv
  · obtain rfl := Option.some.inj hv
    exact keeps_refreshWake (keeps_growCheck (keeps_endGroup (keeps_setGrid hu)))
  · cases hv

theorem keeps_execGactTerminateGrid {z0 : State} {part : BitVec 6} {grid : Word} {s : State} (hs : Keeps z0 s) :
    ∀ t9, (execGactTerminateGrid part grid s) = .next t9 → Keeps z0 t9 := by
  unfold execGactTerminateGrid
  intro t9
  try dsimp only
  repeat' (first | with_reducible assumption | with_reducible apply keeps_terminateGrid | with_reducible apply keeps_onPart | (simp only [keeps_mk]; with_reducible apply Keeps.core) | (intro h9; obtain rfl := Host.Outcome.next.inj h9; try dsimp only) | split | (intro; try dsimp only) | dsimp only | contradiction)

theorem keeps_jobAction {z0 : State} {s : State} {part : BitVec 6} {index : Word} {phase : JobPhase} (hs : Keeps z0 s) :
    Keeps z0 (State.jobAction s part index phase) := by
  unfold State.jobAction
  try dsimp only
  repeat' (first | with_reducible assumption | with_reducible apply keeps_setJob | with_reducible apply keeps_onPart | (simp only [keeps_mk]; with_reducible apply Keeps.core) | (intro; try dsimp only) | split | dsimp only | contradiction)

theorem keeps_execJactResume {z0 : State} {part : BitVec 6} {index : Word} {s : State} (hs : Keeps z0 s) :
    ∀ t9, (execJactResume part index s) = .next t9 → Keeps z0 t9 := by
  unfold execJactResume
  intro t9
  try dsimp only
  repeat' (first | with_reducible assumption | with_reducible apply keeps_jobAction | (simp only [keeps_mk]; with_reducible apply Keeps.core) | (intro h9; obtain rfl := Host.Outcome.next.inj h9; try dsimp only) | split | (intro; try dsimp only) | dsimp only | contradiction)

theorem keeps_execJactCancel {z0 : State} {part : BitVec 6} {index : Word} {s : State} (hs : Keeps z0 s) :
    ∀ t9, (execJactCancel part index s) = .next t9 → Keeps z0 t9 := by
  unfold execJactCancel
  intro t9
  try dsimp only
  repeat' (first | with_reducible assumption | with_reducible apply keeps_jobAction | (simp only [keeps_mk]; with_reducible apply Keeps.core) | (intro h9; obtain rfl := Host.Outcome.next.inj h9; try dsimp only) | split | (intro; try dsimp only) | dsimp only | contradiction)

theorem keeps_execEvict {z0 : State} {part : BitVec 6} {grid team : Word} {s : State} (hs : Keeps z0 s) :
    ∀ t9, (execEvict part grid team s) = .next t9 → Keeps z0 t9 := by
  unfold execEvict
  intro t9
  try dsimp only
  repeat' (first | with_reducible assumption | with_reducible apply keeps_onPart | with_reducible apply keeps_evict | (simp only [keeps_mk]; with_reducible apply Keeps.core) | (intro h9; obtain rfl := Host.Outcome.next.inj h9; try dsimp only) | split | (intro; try dsimp only) | dsimp only | contradiction)

theorem keeps_execTinv {z0 : State} {part : BitVec 6} {scope start length : Word} {s : State} (hs : Keeps z0 s) :
    ∀ t9, (execTinv part scope start length s) = .next t9 → Keeps z0 t9 := by
  unfold execTinv
  intro t9
  try dsimp only
  repeat' (first | with_reducible assumption | with_reducible apply keeps_onPart | (simp only [keeps_mk]; with_reducible apply Keeps.core) | (intro h9; obtain rfl := Host.Outcome.next.inj h9; try dsimp only) | split | (intro; try dsimp only) | dsimp only | contradiction)

theorem keeps_execSprobe {z0 : State} {index : Word} {s : State} (hs : Keeps z0 s) :
    ∀ t9, (execSprobe index s) = .next t9 → Keeps z0 t9 := by
  unfold execSprobe
  intro t9
  try dsimp only
  repeat' (first | with_reducible assumption | with_reducible apply keeps_afterGo | (simp only [keeps_mk]; with_reducible apply Keeps.core) | (intro h9; obtain rfl := Host.Outcome.next.inj h9; try dsimp only) | split | (intro; try dsimp only) | dsimp only | contradiction)

theorem keeps_execSreset {z0 : State} {index : Word} {s : State} (hs : Keeps z0 s) :
    ∀ t9, (execSreset index s) = .next t9 → Keeps z0 t9 := by
  unfold execSreset
  intro t9
  try dsimp only
  repeat' (first | with_reducible assumption | (with_reducible apply keeps_setSector (hx := fun _ h => Bool.noConfusion h) (hc := fun _ h => Bool.noConfusion h)) | with_reducible apply keeps_afterGo | (simp only [keeps_mk]; with_reducible apply Keeps.core) | (intro h9; obtain rfl := Host.Outcome.next.inj h9; try dsimp only) | split | (intro; try dsimp only) | dsimp only | contradiction)

theorem keeps_execCntrd {z0 : State} {code inst clear : Word} {s : State} (hs : Keeps z0 s) :
    ∀ t9, (execCntrd code inst clear s) = .next t9 → Keeps z0 t9 := by
  unfold execCntrd
  intro t9
  try dsimp only
  repeat' (first | with_reducible assumption | with_reducible apply keeps_afterGo | (simp only [keeps_mk]; with_reducible apply Keeps.core) | (intro h9; obtain rfl := Host.Outcome.next.inj h9; try dsimp only) | split | (intro; try dsimp only) | dsimp only | contradiction)

theorem keeps_execHset {z0 : State} {part : BitVec 6} {handle entry : Word} {s : State} (hs : Keeps z0 s) :
    ∀ t9, (execHset part handle entry s) = .next t9 → Keeps z0 t9 := by
  unfold execHset
  intro t9
  try dsimp only
  repeat' (first | with_reducible assumption | with_reducible apply keeps_setPart | with_reducible apply keeps_onPart | (simp only [keeps_mk]; with_reducible apply Keeps.core) | (intro h9; obtain rfl := Host.Outcome.next.inj h9; try dsimp only) | split | (intro; try dsimp only) | dsimp only | contradiction)

theorem keeps_execToff {z0 : State} {part : BitVec 6} {v : Word} {s : State} (hs : Keeps z0 s) :
    ∀ t9, (execToff part v s) = .next t9 → Keeps z0 t9 := by
  unfold execToff
  intro t9
  try dsimp only
  repeat' (first | with_reducible assumption | with_reducible apply keeps_setPart | with_reducible apply keeps_onPart | (simp only [keeps_mk]; with_reducible apply Keeps.core) | (intro h9; obtain rfl := Host.Outcome.next.inj h9; try dsimp only) | split | (intro; try dsimp only) | dsimp only | contradiction)

theorem keeps_execAttest {z0 : State} {part : BitVec 6} {nonce report : Word} {s : State} (hs : Keeps z0 s) :
    ∀ t9, (execAttest part nonce report s) = .next t9 → Keeps z0 t9 := by
  unfold execAttest
  intro t9
  try dsimp only
  repeat' (first | with_reducible assumption | with_reducible apply keeps_physWrite | with_reducible apply keeps_physRead | with_reducible apply keeps_command | (simp only [keeps_mk]; with_reducible apply Keeps.core) | (intro h9; obtain rfl := Host.Outcome.next.inj h9; try dsimp only) | split | (intro; try dsimp only) | dsimp only | contradiction)

theorem keeps_execReservedManagementCommand {z0 : State} {x0 : Byte} {s : State} (hs : Keeps z0 s) :
    ∀ t9, (execReservedManagementCommand x0 s) = .next t9 → Keeps z0 t9 := by
  unfold execReservedManagementCommand
  intro t9
  try dsimp only
  repeat' (first | with_reducible assumption | with_reducible apply keeps_command | (simp only [keeps_mk]; with_reducible apply Keeps.core) | (intro h9; obtain rfl := Host.Outcome.next.inj h9; try dsimp only) | split | (intro; try dsimp only) | dsimp only | contradiction)

theorem keeps_execMqbaseWrite {z0 : State} {v : Word} {s : State} (hs : Keeps z0 s) :
    ∀ t9, (execMqbaseWrite v s) = .next t9 → Keeps z0 t9 := by
  unfold execMqbaseWrite
  intro t9
  try dsimp only
  repeat' (first | with_reducible assumption | (simp only [keeps_mk]; with_reducible apply Keeps.core) | (intro h9; obtain rfl := Host.Outcome.next.inj h9; try dsimp only) | split | (intro; try dsimp only) | dsimp only | contradiction)

theorem keeps_producer {z0 : State} {s : State} {at_ : Nat} {k : State → BitVec 32 → State} (hs : Keeps z0 s)
    (hk : ∀ u x, Keeps z0 u → Keeps z0 (k u x)) : Keeps z0 (s.producer at_ k) := by
  unfold State.producer
  dsimp only
  split
  · exact hk _ _ (keeps_physRead hs)
  · exact keeps_physRead hs

theorem keeps_execManagementDoorbell {z0 : State} {v : Word} {s : State} (hs : Keeps z0 s) :
    ∀ t9, (execManagementDoorbell v s) = .next t9 → Keeps z0 t9 := by
  unfold execManagementDoorbell
  intro t9
  try dsimp only
  repeat' (first | with_reducible assumption | with_reducible apply keeps_producer | (simp only [keeps_mk]; with_reducible apply Keeps.core) | (intro h9; obtain rfl := Host.Outcome.next.inj h9; try dsimp only) | split | (intro; try dsimp only) | dsimp only | contradiction)

theorem keeps_submissionBell {z0 : State} {s : State} {v : Word} {priv : Bool} (hs : Keeps z0 s) :
    Keeps z0 (State.submissionBell s v priv) := by
  unfold State.submissionBell
  try dsimp only
  repeat' (first | with_reducible assumption | with_reducible apply keeps_producer | with_reducible apply keeps_setPart | (simp only [keeps_mk]; with_reducible apply Keeps.core) | (intro; try dsimp only) | split | dsimp only | contradiction)

theorem keeps_execNormalSubmissionDoorbell {z0 : State} {v : Word} {s : State} (hs : Keeps z0 s) :
    ∀ t9, (execNormalSubmissionDoorbell v s) = .next t9 → Keeps z0 t9 := by
  unfold execNormalSubmissionDoorbell
  intro t9
  try dsimp only
  repeat' (first | with_reducible assumption | with_reducible apply keeps_submissionBell | (simp only [keeps_mk]; with_reducible apply Keeps.core) | (intro h9; obtain rfl := Host.Outcome.next.inj h9; try dsimp only) | split | (intro; try dsimp only) | dsimp only | contradiction)

theorem keeps_execPrivilegedSubmissionDoorbell {z0 : State} {v : Word} {s : State} (hs : Keeps z0 s) :
    ∀ t9, (execPrivilegedSubmissionDoorbell v s) = .next t9 → Keeps z0 t9 := by
  unfold execPrivilegedSubmissionDoorbell
  intro t9
  try dsimp only
  repeat' (first | with_reducible assumption | with_reducible apply keeps_submissionBell | (simp only [keeps_mk]; with_reducible apply Keeps.core) | (intro h9; obtain rfl := Host.Outcome.next.inj h9; try dsimp only) | split | (intro; try dsimp only) | dsimp only | contradiction)

theorem keeps_execReservedQueueDoorbell {z0 : State} {x0 : Word} {s : State} (hs : Keeps z0 s) :
    ∀ t9, (execReservedQueueDoorbell x0 s) = .next t9 → Keeps z0 t9 := by
  unfold execReservedQueueDoorbell
  intro t9
  try dsimp only
  repeat' (first | with_reducible assumption | (simp only [keeps_mk]; with_reducible apply Keeps.core) | (intro h9; obtain rfl := Host.Outcome.next.inj h9; try dsimp only) | split | (intro; try dsimp only) | dsimp only | contradiction)

theorem keeps_execIrqstWrite {z0 : State} {v : Word} {s : State} (hs : Keeps z0 s) :
    ∀ t9, (execIrqstWrite v s) = .next t9 → Keeps z0 t9 := by
  unfold execIrqstWrite
  intro t9
  try dsimp only
  repeat' (first | with_reducible assumption | (simp only [keeps_mk]; with_reducible apply Keeps.core) | (intro h9; obtain rfl := Host.Outcome.next.inj h9; try dsimp only) | split | (intro; try dsimp only) | dsimp only | contradiction)

theorem keeps_execRegisterWrite {z0 : State} {off : BitVec 16} {v : Word} {s : State} (hs : Keeps z0 s) :
    ∀ t9, (execRegisterWrite off v s) = .next t9 → Keeps z0 t9 := by
  unfold execRegisterWrite
  intro t9
  try dsimp only
  repeat' (first | with_reducible assumption | (simp only [keeps_mk]; with_reducible apply Keeps.core) | (intro h9; obtain rfl := Host.Outcome.next.inj h9; try dsimp only) | split | (intro; try dsimp only) | dsimp only | contradiction)

theorem keeps_execFabricPathDown {z0 : State} {port : Fin 16} {s : State} (hs : Keeps z0 s) :
    ∀ t9, (execFabricPathDown port s) = .next t9 → Keeps z0 t9 := by
  unfold execFabricPathDown
  intro t9
  try dsimp only
  repeat' (first | with_reducible assumption | (simp only [keeps_mk]; with_reducible apply Keeps.core) | (intro h9; obtain rfl := Host.Outcome.next.inj h9; try dsimp only) | split | (intro; try dsimp only) | dsimp only | contradiction)

theorem keeps_execReservedInstructionWord {z0 : State} {w : Word} {s : State} (hs : Keeps z0 s) :
    ∀ t9, (execReservedInstructionWord w s) = .next t9 → Keeps z0 t9 := by
  unfold execReservedInstructionWord
  intro t9
  try dsimp only
  repeat' (first | with_reducible assumption | with_reducible apply keeps_issue | with_reducible apply keeps_trap | (simp only [keeps_mk]; with_reducible apply Keeps.core) | (intro h9; obtain rfl := Host.Outcome.next.inj h9; try dsimp only) | split | (intro; try dsimp only) | dsimp only | contradiction)

theorem keeps_fetch {z0 : State} {s : State} (hs : Keeps z0 s) :
    Keeps z0 (State.fetch s).1 := by
  unfold State.fetch
  try dsimp only
  repeat' (first | with_reducible assumption | with_reducible apply keeps_translate | with_reducible apply keeps_physRead | (simp only [keeps_mk]; with_reducible apply Keeps.core) | (intro; try dsimp only) | split | dsimp only | contradiction)

theorem keeps_fetched {z0 : State} {s : State} (hs : Keeps z0 s) :
    Keeps z0 (State.fetched s).1 := by
  unfold State.fetched
  try dsimp only
  repeat' (first | with_reducible assumption | with_reducible apply keeps_fetch | (simp only [keeps_mk]; with_reducible apply Keeps.core) | (intro; try dsimp only) | split | dsimp only | contradiction)

theorem keeps_mgmtCommand {z0 : State} {s : State} (hs : Keeps z0 s) :
    Keeps z0 (State.mgmtCommand s).1 := by
  unfold State.mgmtCommand
  try dsimp only
  repeat' (first | with_reducible assumption | with_reducible apply keeps_physRead | (simp only [keeps_mk]; with_reducible apply Keeps.core) | (intro; try dsimp only) | split | dsimp only | contradiction)

theorem keeps_hostStore {z0 : State} {s : State} {addr : Nat} {bs : List Byte} (hs : Keeps z0 s) :
    Keeps z0 (s.hostStore addr bs) := by
  unfold State.hostStore
  split
  · rename_i h
    exact keeps_setFar (keeps_remember hs) h.left
  · exact hs

theorem keeps_nodeStore {z0 : State} {s : State} {n : Nat} {w0 job succ0 succ1 : Word} (hs : Keeps z0 s) :
    Keeps z0 (State.nodeStore s n w0 job succ0 succ1) := by
  unfold State.nodeStore
  try dsimp only
  repeat' (first | with_reducible assumption | with_reducible apply keeps_setNode | (simp only [keeps_mk]; with_reducible apply Keeps.core) | (intro; try dsimp only) | split | dsimp only | contradiction)

theorem keeps_spoil {z0 : State} {s : State} {addrs : List Nat} (hs : Keeps z0 s) :
    Keeps z0 (State.spoil s addrs) := by
  unfold State.spoil
  try dsimp only
  repeat' (first | with_reducible assumption | (simp only [keeps_mk]; with_reducible apply Keeps.core) | (intro; try dsimp only) | split | dsimp only | contradiction)

theorem keeps_countTiming {z0 : State} {s : State} {code inst n : Nat} (hs : Keeps z0 s) :
    Keeps z0 (State.countTiming s code inst n) := by
  unfold State.countTiming
  try dsimp only
  repeat' (first | with_reducible assumption | with_reducible apply keeps_addCounter | (simp only [keeps_mk]; with_reducible apply Keeps.core) | (intro; try dsimp only) | split | dsimp only | contradiction)

theorem keeps_accessOut {z0 : State} {i : Instr} {s : State} (hs : Keeps z0 s) :
    ∀ t9, (accessOut i s) = .next t9 → Keeps z0 t9 := by
  unfold accessOut
  intro t9
  try dsimp only
  repeat' (first | with_reducible assumption | with_reducible apply keeps_execAtom | with_reducible apply keeps_execCas | with_reducible apply keeps_execLdt | with_reducible apply keeps_execLd | (simp only [keeps_mk]; with_reducible apply Keeps.core) | (intro h9; obtain rfl := Host.Outcome.next.inj h9; try dsimp only) | split | (intro; try dsimp only) | dsimp only | contradiction)

theorem keeps_missAt {z0 : State} {s : State} {core slot a : Nat} (hs : Keeps z0 s) : Keeps z0 (s.missAt core slot a) := by
  unfold State.missAt
  split
  · exact hs
  · dsimp only
    split
    all_goals split
    all_goals first
      | exact hs
      | exact keeps_setGrp hs

end Sys2Proof.Machine
end

