-- ==== Sys2Proof/Laws/PerInstr.lean ====
section
/-!
SUPPORT. One lemma per constructor of `Instr` for the statements of LAWS.json made instruction by instruction.
-/
set_option linter.unusedSimpArgs false
set_option linter.unusedVariables false
namespace Sys2Proof.Laws.RoundTrip

theorem ands2 {a b : Bool} (h : (a && b) = true) : a = true ∧ b = true := Bool.and_eq_true_iff.mp h

theorem ands3 {a b c : Bool} (h : (a && b && c) = true) : (a = true ∧ b = true) ∧ c = true :=
  ⟨ands2 (ands2 h).1, (ands2 h).2⟩

theorem ands4 {a b c d : Bool} (h : (a && b && c && d) = true) : ((a = true ∧ b = true) ∧ c = true) ∧ d = true :=
  ⟨ands3 (ands2 h).1, (ands2 h).2⟩

theorem ands5 {a b c d e : Bool} (h : (a && b && c && d && e) = true) :
    (((a = true ∧ b = true) ∧ c = true) ∧ d = true) ∧ e = true :=
  ⟨ands4 (ands2 h).1, (ands2 h).2⟩

theorem ands6 {a b c d e f : Bool} (h : (a && b && c && d && e && f) = true) :
    ((((a = true ∧ b = true) ∧ c = true) ∧ d = true) ∧ e = true) ∧ f = true :=
  ⟨ands5 (ands2 h).1, (ands2 h).2⟩

/-- Decoding the word of a well-formed instruction gives the instruction back. -/
def Statement (i : Instr) : Prop := i.wellFormed = true → ∀ w, encode i = some w → decodeWord w = .ok i

theorem iadd g m d a b : Statement (.iadd g m d a b) := by
  intro h w hw
  cases hw
  replace h := ands3 h
  exact (decode_rowA (op := 0x00) rfl h.1.1 _).trans (shapeDAB_enc (IntMod.parse_bits m) d h.1.2 h.2)

theorem iaddImm g m d a imm : Statement (.iaddImm g m d a imm) := by
  intro h w hw
  cases hw
  replace h := ands2 h
  exact (decode_rowB (op := 0x00) rfl h.1 _).trans (shapeImm_enc (IntMod.parse_bits m) (immAny_enc _ _) d h.2)

theorem isub g m d a b : Statement (.isub g m d a b) := by
  intro h w hw
  cases hw
  replace h := ands3 h
  exact (decode_rowA (op := 0x01) rfl h.1.1 _).trans (shapeDAB_enc (IntMod.parse_bits m) d h.1.2 h.2)

theorem isubImm g m d a imm : Statement (.isubImm g m d a imm) := by
  intro h w hw
  cases hw
  replace h := ands2 h
  exact (decode_rowB (op := 0x01) rfl h.1 _).trans (shapeImm_enc (IntMod.parse_bits m) (immAny_enc _ _) d h.2)

theorem iaddc g w co d a b c : Statement (.iaddc g w co d a b c) := by
  intro h w hw
  cases hw
  replace h := ands4 h
  exact (decode_rowA (op := 0x02) rfl h.1.1.1 _).trans (shapeDABC_enc (parseCo_bits w  co) d h.1.1.2 h.1.2 h.2)

theorem imul g m d a b : Statement (.imul g m d a b) := by
  intro h w hw
  cases hw
  replace h := ands3 h
  exact (decode_rowA (op := 0x03) rfl h.1.1 _).trans (shapeDAB_enc (IntMod.parse_bits m) d h.1.2 h.2)

theorem imulImm g m d a imm : Statement (.imulImm g m d a imm) := by
  intro h w hw
  cases hw
  replace h := ands2 h
  exact (decode_rowB (op := 0x03) rfl h.1 _).trans (shapeImm_enc (IntMod.parse_bits m) (immAny_enc _ _) d h.2)

theorem imulhi g w u d a b : Statement (.imulhi g w u d a b) := by
  intro h w hw
  cases hw
  replace h := ands3 h
  exact (decode_rowA (op := 0x04) rfl h.1.1 _).trans (shapeDAB_enc (parseWU_bits w  u) d h.1.2 h.2)

theorem imad g m d a b c : Statement (.imad g m d a b c) := by
  intro h w hw
  cases hw
  replace h := ands4 h
  exact (decode_rowA (op := 0x05) rfl h.1.1.1 _).trans (shapeDABC_enc (IntMod.parse_bits m) d h.1.1.2 h.1.2 h.2)

theorem imin g w u d a b : Statement (.imin g w u d a b) := by
  intro h w hw
  cases hw
  replace h := ands3 h
  exact (decode_rowA (op := 0x06) rfl h.1.1 _).trans (shapeDAB_enc (parseWU_bits w  u) d h.1.2 h.2)

theorem iminImm g w u d a imm : Statement (.iminImm g w u d a imm) := by
  intro h w hw
  cases hw
  replace h := ands2 h
  exact (decode_rowB (op := 0x06) rfl h.1 _).trans (shapeImm_enc (parseWU_bits w  u) (immAny_enc _ _) d h.2)

theorem imax g w u d a b : Statement (.imax g w u d a b) := by
  intro h w hw
  cases hw
  replace h := ands3 h
  exact (decode_rowA (op := 0x07) rfl h.1.1 _).trans (shapeDAB_enc (parseWU_bits w  u) d h.1.2 h.2)

theorem imaxImm g w u d a imm : Statement (.imaxImm g w u d a imm) := by
  intro h w hw
  cases hw
  replace h := ands2 h
  exact (decode_rowB (op := 0x07) rfl h.1 _).trans (shapeImm_enc (parseWU_bits w  u) (immAny_enc _ _) d h.2)

theorem iabs g w sat d a : Statement (.iabs g w sat d a) := by
  intro h w hw
  cases hw
  replace h := ands2 h
  exact (decode_rowA (op := 0x08) rfl h.1 _).trans (shapeDA_enc (parseWSat_bits w sat) d h.2)

theorem shl g w d a b : Statement (.shl g w d a b) := by
  intro h w hw
  cases hw
  replace h := ands3 h
  exact (decode_rowA (op := 0x09) rfl h.1.1 _).trans (shapeDAB_enc (parseW_bits w) d h.1.2 h.2)

theorem shlImm g w d a n : Statement (.shlImm g w d a n) := by
  intro h w hw
  cases hw
  replace h := ands2 h
  exact (decode_rowB (op := 0x09) rfl h.1 _).trans (shapeImm_enc (parseW_bits w) (immLow_enc (by decide) _ _) d h.2)

theorem shr g w d a b : Statement (.shr g w d a b) := by
  intro h w hw
  cases hw
  replace h := ands3 h
  exact (decode_rowA (op := 0x0A) rfl h.1.1 _).trans (shapeDAB_enc (parseW_bits w) d h.1.2 h.2)

theorem shrImm g w d a n : Statement (.shrImm g w d a n) := by
  intro h w hw
  cases hw
  replace h := ands2 h
  exact (decode_rowB (op := 0x0A) rfl h.1 _).trans (shapeImm_enc (parseW_bits w) (immLow_enc (by decide) _ _) d h.2)

theorem shra g w d a b : Statement (.shra g w d a b) := by
  intro h w hw
  cases hw
  replace h := ands3 h
  exact (decode_rowA (op := 0x0B) rfl h.1.1 _).trans (shapeDAB_enc (parseW_bits w) d h.1.2 h.2)

theorem shraImm g w d a n : Statement (.shraImm g w d a n) := by
  intro h w hw
  cases hw
  replace h := ands2 h
  exact (decode_rowB (op := 0x0B) rfl h.1 _).trans (shapeImm_enc (parseW_bits w) (immLow_enc (by decide) _ _) d h.2)

theorem rotl g w d a b : Statement (.rotl g w d a b) := by
  intro h w hw
  cases hw
  replace h := ands3 h
  exact (decode_rowA (op := 0x0C) rfl h.1.1 _).trans (shapeDAB_enc (parseW_bits w) d h.1.2 h.2)

theorem rotlImm g w d a n : Statement (.rotlImm g w d a n) := by
  intro h w hw
  cases hw
  replace h := ands2 h
  exact (decode_rowB (op := 0x0C) rfl h.1 _).trans (shapeImm_enc (parseW_bits w) (immLow_enc (by decide) _ _) d h.2)

theorem and g d a b : Statement (.and g d a b) := by
  intro h w hw
  cases hw
  replace h := ands3 h
  exact (decode_rowA (op := 0x0D) rfl h.1.1 _).trans (shapeDAB_enc (parseNone_bits) d h.1.2 h.2)

theorem andImm g d a imm : Statement (.andImm g d a imm) := by
  intro h w hw
  cases hw
  replace h := ands2 h
  exact (decode_rowB (op := 0x0D) rfl h.1 _).trans (shapeImm_enc (parseNone_bits) (immAny_enc _ _) d h.2)

theorem or g d a b : Statement (.or g d a b) := by
  intro h w hw
  cases hw
  replace h := ands3 h
  exact (decode_rowA (op := 0x0E) rfl h.1.1 _).trans (shapeDAB_enc (parseNone_bits) d h.1.2 h.2)

theorem orImm g d a imm : Statement (.orImm g d a imm) := by
  intro h w hw
  cases hw
  replace h := ands2 h
  exact (decode_rowB (op := 0x0E) rfl h.1 _).trans (shapeImm_enc (parseNone_bits) (immAny_enc _ _) d h.2)

theorem xor g d a b : Statement (.xor g d a b) := by
  intro h w hw
  cases hw
  replace h := ands3 h
  exact (decode_rowA (op := 0x0F) rfl h.1.1 _).trans (shapeDAB_enc (parseNone_bits) d h.1.2 h.2)

theorem xorImm g d a imm : Statement (.xorImm g d a imm) := by
  intro h w hw
  cases hw
  replace h := ands2 h
  exact (decode_rowB (op := 0x0F) rfl h.1 _).trans (shapeImm_enc (parseNone_bits) (immAny_enc _ _) d h.2)

theorem andn g d a b : Statement (.andn g d a b) := by
  intro h w hw
  cases hw
  replace h := ands3 h
  exact (decode_rowA (op := 0x10) rfl h.1.1 _).trans (shapeDAB_enc (parseNone_bits) d h.1.2 h.2)

theorem andnImm g d a imm : Statement (.andnImm g d a imm) := by
  intro h w hw
  cases hw
  replace h := ands2 h
  exact (decode_rowB (op := 0x10) rfl h.1 _).trans (shapeImm_enc (parseNone_bits) (immAny_enc _ _) d h.2)

theorem bfx g w u d a b : Statement (.bfx g w u d a b) := by
  intro h w hw
  cases hw
  replace h := ands3 h
  exact (decode_rowA (op := 0x11) rfl h.1.1 _).trans (shapeDAB_enc (parseWU_bits w  u) d h.1.2 h.2)

theorem bfxImm g w u d a pos len : Statement (.bfxImm g w u d a pos len) := by
  intro h w hw
  cases hw
  replace h := ands2 h
  exact (decode_rowB (op := 0x11) rfl h.1 _).trans (shapeImm_enc (parseWU_bits w  u) (immBfx_enc _ _ _) d h.2)

theorem bfi g w d a b c : Statement (.bfi g w d a b c) := by
  intro h w hw
  cases hw
  replace h := ands4 h
  exact (decode_rowA (op := 0x12) rfl h.1.1.1 _).trans (shapeDABC_enc (parseW_bits w) d h.1.1.2 h.1.2 h.2)

theorem popc g w d a : Statement (.popc g w d a) := by
  intro h w hw
  cases hw
  replace h := ands2 h
  exact (decode_rowA (op := 0x13) rfl h.1 _).trans (shapeDA_enc (parseW_bits w) d h.2)

theorem clz g w d a : Statement (.clz g w d a) := by
  intro h w hw
  cases hw
  replace h := ands2 h
  exact (decode_rowA (op := 0x14) rfl h.1 _).trans (shapeDA_enc (parseW_bits w) d h.2)

theorem brev g w d a : Statement (.brev g w d a) := by
  intro h w hw
  cases hw
  replace h := ands2 h
  exact (decode_rowA (op := 0x15) rfl h.1 _).trans (shapeDA_enc (parseW_bits w) d h.2)

theorem sel g neg q d a b : Statement (.sel g neg q d a b) := by
  intro h w hw
  cases hw
  replace h := ands3 h
  exact (decode_rowA (op := 0x16) rfl h.1.1 _).trans (shapeDAB_enc (parseSel_bits neg  q) d h.1.2 h.2)

theorem mov g d a : Statement (.mov g d a) := by
  intro h w hw
  cases hw
  replace h := ands2 h
  exact (decode_rowA (op := 0x17) rfl h.1 _).trans (shapeDA_enc (parseNone_bits) d h.2)

theorem lea g f sh d a b : Statement (.lea g f sh d a b) := by
  intro h w hw
  cases hw
  replace h := ands3 h
  exact (decode_rowA (op := 0x18) rfl h.1.1 _).trans (shapeDAB_enc (parseLea_bits f  sh) d h.1.2 h.2)

theorem leaImm g f sh d a imm : Statement (.leaImm g f sh d a imm) := by
  intro h w hw
  cases hw
  replace h := ands2 h
  exact (decode_rowB (op := 0x18) rfl h.1 _).trans (shapeImm_enc (parseLea_bits f  sh) (immAny_enc _ _) d h.2)

theorem icmp g w u cond pd a b : Statement (.icmp g w u cond pd a b) := by
  intro h w hw
  cases hw
  replace h := ands4 h
  exact (decode_rowA (op := 0x19) rfl h.1.1.1 _).trans (shapeCmp_enc (parseIcmp_bits w u cond) h.1.1.2 h.1.2 h.2)

theorem icmpImm g w u cond pd a imm : Statement (.icmpImm g w u cond pd a imm) := by
  intro h w hw
  cases hw
  replace h := ands3 h
  exact (decode_rowB (op := 0x19) rfl h.1.1 _).trans (shapeCmpImm_enc (parseIcmp_bits w u cond) (immAny_enc _ _) h.1.2 h.2)

theorem pset g pd pa pb lut : Statement (.pset g pd pa pb lut) := by
  intro h w hw
  cases hw
  refine (decode_rowA (op := 0x1A) rfl h _).trans ?_
  exact pset_enc g pd pa pb lut

theorem pmov g dir : Statement (.pmov g dir) := by
  intro h w hw
  have hg : g.wf = true := (ands2 h).1
  cases dir with
  | tov d =>
    cases hw
    refine (decode_rowA (op := 0x1B) rfl hg _).trans ?_
    simp only [shapePmov, parseBit0_bits, unusedOk_none, opd_toField, parse_ok_bind, Bool.false_eq_true, if_false]
  | top a =>
    cases hw
    have ha : a.wf = true := (ands2 h).2
    refine (decode_rowA (op := 0x1B) rfl hg _).trans ?_
    simp only [shapePmov, parseBit0_bits, unusedOk_none, opd_toField, parse_ok_bind, hintOk_hints ha, mkSrc_hints,
      beq_self_eq_true, need_true, if_true]

theorem fadd g m d a b : Statement (.fadd g m d a b) := by
  intro h w hw
  cases hw
  replace h := ands3 h
  exact (decode_rowA (op := 0x20) rfl h.1.1 _).trans (shapeDAB_enc (FloatMod.parse_bits m) d h.1.2 h.2)

theorem faddImm g m d a imm : Statement (.faddImm g m d a imm) := by
  intro h w hw
  cases hw
  replace h := ands3 h
  exact (decode_rowB (op := 0x20) rfl h.1.1 _).trans (shapeImm_enc (FloatMod.parse_bits m) (immFloat_enc h.2) d h.1.2)

theorem fsub g m d a b : Statement (.fsub g m d a b) := by
  intro h w hw
  cases hw
  replace h := ands3 h
  exact (decode_rowA (op := 0x21) rfl h.1.1 _).trans (shapeDAB_enc (FloatMod.parse_bits m) d h.1.2 h.2)

theorem fmul g m d a b : Statement (.fmul g m d a b) := by
  intro h w hw
  cases hw
  replace h := ands3 h
  exact (decode_rowA (op := 0x22) rfl h.1.1 _).trans (shapeDAB_enc (FloatMod.parse_bits m) d h.1.2 h.2)

theorem fmulImm g m d a imm : Statement (.fmulImm g m d a imm) := by
  intro h w hw
  cases hw
  replace h := ands3 h
  exact (decode_rowB (op := 0x22) rfl h.1.1 _).trans (shapeImm_enc (FloatMod.parse_bits m) (immFloat_enc h.2) d h.1.2)

theorem ffma g m d a b c : Statement (.ffma g m d a b c) := by
  intro h w hw
  cases hw
  replace h := ands4 h
  exact (decode_rowA (op := 0x23) rfl h.1.1.1 _).trans (shapeDABC_enc (FloatMod.parse_bits m) d h.1.1.2 h.1.2 h.2)

theorem fmin g t d a b : Statement (.fmin g t d a b) := by
  intro h w hw
  cases hw
  replace h := ands3 h
  exact (decode_rowA (op := 0x24) rfl h.1.1 _).trans (shapeDAB_enc (parseT_bits t) d h.1.2 h.2)

theorem fminImm g t d a imm : Statement (.fminImm g t d a imm) := by
  intro h w hw
  cases hw
  replace h := ands3 h
  exact (decode_rowB (op := 0x24) rfl h.1.1 _).trans (shapeImm_enc (parseT_bits t) (immFloat_enc h.2) d h.1.2)

theorem fmax g t d a b : Statement (.fmax g t d a b) := by
  intro h w hw
  cases hw
  replace h := ands3 h
  exact (decode_rowA (op := 0x25) rfl h.1.1 _).trans (shapeDAB_enc (parseT_bits t) d h.1.2 h.2)

theorem fmaxImm g t d a imm : Statement (.fmaxImm g t d a imm) := by
  intro h w hw
  cases hw
  replace h := ands3 h
  exact (decode_rowB (op := 0x25) rfl h.1.1 _).trans (shapeImm_enc (parseT_bits t) (immFloat_enc h.2) d h.1.2)

theorem fminm g t d a b : Statement (.fminm g t d a b) := by
  intro h w hw
  cases hw
  replace h := ands3 h
  exact (decode_rowA (op := 0x26) rfl h.1.1 _).trans (shapeDAB_enc (parseT_bits t) d h.1.2 h.2)

theorem fmaxm g t d a b : Statement (.fmaxm g t d a b) := by
  intro h w hw
  cases hw
  replace h := ands3 h
  exact (decode_rowA (op := 0x27) rfl h.1.1 _).trans (shapeDAB_enc (parseT_bits t) d h.1.2 h.2)

theorem fclamp g t d a b c : Statement (.fclamp g t d a b c) := by
  intro h w hw
  cases hw
  replace h := ands4 h
  exact (decode_rowA (op := 0x28) rfl h.1.1.1 _).trans (shapeDABC_enc (parseT_bits t) d h.1.1.2 h.1.2 h.2)

theorem frnd g t rm d a : Statement (.frnd g t rm d a) := by
  intro h w hw
  cases hw
  replace h := ands2 h
  exact (decode_rowA (op := 0x29) rfl h.1 _).trans (shapeDA_enc (parseFrnd_bits t  rm) d h.2)

theorem fscale g m d a b : Statement (.fscale g m d a b) := by
  intro h w hw
  cases hw
  replace h := ands3 h
  exact (decode_rowA (op := 0x2A) rfl h.1.1 _).trans (shapeDAB_enc (FloatMod.parse_bits m) d h.1.2 h.2)

theorem fcmp g t cond pd a b : Statement (.fcmp g t cond pd a b) := by
  intro h w hw
  cases hw
  replace h := ands4 h
  exact (decode_rowA (op := 0x2B) rfl h.1.1.1 _).trans (shapeCmp_enc (parseFcmp_bits t cond) h.1.1.2 h.1.2 h.2)

theorem fcmpImm g t cond pd a imm : Statement (.fcmpImm g t cond pd a imm) := by
  intro h w hw
  cases hw
  replace h := ands4 h
  exact (decode_rowB (op := 0x2B) rfl h.1.1.1 _).trans (shapeCmpImm_enc (parseFcmp_bits t cond) (immFloat_enc h.2) h.1.1.2 h.1.2)

theorem rcp g d a : Statement (.rcp g d a) := by
  intro h w hw
  cases hw
  replace h := ands2 h
  exact (decode_rowA (op := 0x30) rfl h.1 _).trans (shapeDA_enc (parseNone_bits) d h.2)

theorem rsq g d a : Statement (.rsq g d a) := by
  intro h w hw
  cases hw
  replace h := ands2 h
  exact (decode_rowA (op := 0x31) rfl h.1 _).trans (shapeDA_enc (parseNone_bits) d h.2)

theorem sqrt g d a : Statement (.sqrt g d a) := by
  intro h w hw
  cases hw
  replace h := ands2 h
  exact (decode_rowA (op := 0x32) rfl h.1 _).trans (shapeDA_enc (parseNone_bits) d h.2)

theorem ex2 g d a : Statement (.ex2 g d a) := by
  intro h w hw
  cases hw
  replace h := ands2 h
  exact (decode_rowA (op := 0x33) rfl h.1 _).trans (shapeDA_enc (parseNone_bits) d h.2)

theorem lg2 g d a : Statement (.lg2 g d a) := by
  intro h w hw
  cases hw
  replace h := ands2 h
  exact (decode_rowA (op := 0x34) rfl h.1 _).trans (shapeDA_enc (parseNone_bits) d h.2)

theorem sinpi g d a : Statement (.sinpi g d a) := by
  intro h w hw
  cases hw
  replace h := ands2 h
  exact (decode_rowA (op := 0x35) rfl h.1 _).trans (shapeDA_enc (parseNone_bits) d h.2)

theorem cospi g d a : Statement (.cospi g d a) := by
  intro h w hw
  cases hw
  replace h := ands2 h
  exact (decode_rowA (op := 0x36) rfl h.1 _).trans (shapeDA_enc (parseNone_bits) d h.2)

theorem tanh g d a : Statement (.tanh g d a) := by
  intro h w hw
  cases hw
  replace h := ands2 h
  exact (decode_rowA (op := 0x37) rfl h.1 _).trans (shapeDA_enc (parseNone_bits) d h.2)

theorem cvt g src dst part rm sat amax d a : Statement (.cvt g src dst part rm sat amax d a) := by
  intro h w hw
  cases hw
  replace h := ands4 h
  refine (decode_rowA (op := 0x38) rfl h.1.1.1 _).trans ?_
  exact cvt_enc g rm sat amax d h.1.1.2 h.1.2 h.2

theorem pack g k d a b : Statement (.pack g k d a b) := by
  intro h w hw
  cases hw
  replace h := ands4 h
  refine (decode_rowA (op := 0x39) rfl h.1.1.1 _).trans ?_
  have hk : (k != .x6 || (b.r.toField == 511 && b.hints == 0)) = true := by
    have h2 := h.2
    cases k
    · rw [show b = .unused by simpa using h2]; rfl
    · rfl
    · rfl
  simp only [shapePack, parsePack_bits, hintOk_hints h.1.1.2, hintOk_hints h.1.2, hk, unusedOk_none, opd_toField,
    mkSrc_hints, parse_ok_bind, need_true]

theorem unpack g k d a : Statement (.unpack g k d a) := by
  intro h w hw
  cases hw
  replace h := ands2 h
  exact (decode_rowA (op := 0x3A) rfl h.1 _).trans (shapeDA_enc (parseUnpack_bits k) d h.2)

theorem mxscale g op d a : Statement (.mxscale g op d a) := by
  intro h w hw
  replace h := ands3 h
  obtain f | b := op
  · cases hw
    refine (decode_rowA (op := 0x3B) rfl h.1.1 _).trans ?_
    have h1 : (0#2 ++ f.toBits).getLsbD 4 = false := by cases f <;> rfl
    have h2 : (0#2 ++ f.toBits).getLsbD 5 = false := by cases f <;> rfl
    have h3 : MxFmt.ofBits ((0#2 ++ f.toBits).extractLsb' 0 4) = some f := by cases f <;> rfl
    simp only [shapeMx, h1, h2, h3, hintOk_hints h.1.2, unusedOk_none, opd_toField, mkSrc_hints, parse_ok_bind,
      beq_self_eq_true, need_true, field_some, Bool.false_eq_true, if_false]
  · cases hw
    have hb : b.wf = true := h.2
    refine (decode_rowA (op := 0x3B) rfl h.1.1 _).trans ?_
    have h1 : (0x20 : BitVec 6).getLsbD 4 = false := rfl
    have h2 : (0x20 : BitVec 6).getLsbD 5 = true := rfl
    have h3 : ((0x20 : BitVec 6).extractLsb' 0 4 == 0) = true := rfl
    simp only [shapeMx, h1, h2, h3, hintOk_hints h.1.2, hintOk_hints hb, unusedOk_none, opd_toField, mkSrc_hints,
      parse_ok_bind, beq_self_eq_true, need_true, if_true]

theorem amaxr g nr d : Statement (.amaxr g nr d) := by
  intro h w hw
  cases hw
  refine (decode_rowA (op := 0x3C) rfl h _).trans ?_
  simp only [shapeAmaxr, parseBit0_bits, unusedOk_none, opd_toField, parse_ok_bind]

theorem shfl g w mode d a b c : Statement (.shfl g w mode d a b c) := by
  intro h w hw
  cases hw
  replace h := ands6 h
  obtain ⟨⟨⟨⟨⟨hg, ha⟩, hb⟩, hc⟩, hs⟩, hu⟩ := h
  refine (decode_rowA (op := 0x40) rfl hg _).trans ?_
  have hk : (mode == .edge || (c.r.toField == 511 && c.hints == 0)) = true := by
    cases mode
    · rw [show c = .unused by simpa using hu]; rfl
    · rw [show c = .unused by simpa using hu]; rfl
    · rfl
    · rw [show c = .unused by simpa using hu]; rfl
  simp only [shapeShfl, parseShfl_bits, hintOk_hints ha, hintOk_hints hb, hintOk_hints hc, hk, opd_toField,
    opdIn_toField (p := fun o => mode == .gather || o.isSZ) hs, mkSrc_hints, parse_ok_bind, need_true]

theorem shflImm g w mode d a n : Statement (.shflImm g w mode d a n) := by
  intro h w hw
  cases hw
  replace h := ands3 h
  refine (decode_rowB (op := 0x40) rfl h.1.1 _).trans ?_
  simp only [shapeShflImm, parseShfl_bits, h.2, hintOk_hints h.1.2, immLow_enc (n := 9) (by decide), opd_toField,
    mkSrc_hints, parse_ok_bind, need_true]

theorem bcast g w d a b : Statement (.bcast g w d a b) := by
  intro h w hw
  cases hw
  replace h := ands3 h
  exact (decode_rowA (op := 0x41) rfl h.1.1 _).trans (shapeDAB_enc (parseW_bits w) d h.1.2 h.2)

theorem bcastImm g w d a k : Statement (.bcastImm g w d a k) := by
  intro h w hw
  cases hw
  replace h := ands2 h
  exact (decode_rowB (op := 0x41) rfl h.1 _).trans (shapeImm_enc (parseW_bits w) (immLow_enc (by decide) _ _) d h.2)

theorem vote g mode v neg q d : Statement (.vote g mode v neg q d) := by
  intro h w hw
  cases hw
  refine (decode_rowA (op := 0x42) rfl h _).trans ?_
  have h1 : ∀ v q : Fin 8, ∀ n : Bool, ((0#2 ++ ofPred v ++ BitVec.ofBool n ++ ofPred q).extractLsb' 7 2 == 0) = true := by
    decide
  have h2 : ∀ v q : Fin 8, ∀ n : Bool, predOf ((0#2 ++ ofPred v ++ BitVec.ofBool n ++ ofPred q).extractLsb' 4 3) = v := by
    decide
  have h3 : ∀ v q : Fin 8, ∀ n : Bool, (0#2 ++ ofPred v ++ BitVec.ofBool n ++ ofPred q).getLsbD 3 = n := by decide
  have h4 : ∀ v q : Fin 8, ∀ n : Bool, predOf ((0#2 ++ ofPred v ++ BitVec.ofBool n ++ ofPred q).extractLsb' 0 3) = q := by
    decide
  simp only [shapeVote, parseVote_bits, h1, h2, h3, h4, beq_self_eq_true, Bool.and_self, unusedOk_none, opd_toField,
    parse_ok_bind, need_true]

theorem ballot g mode neg q d : Statement (.ballot g mode neg q d) := by
  intro h w hw
  cases hw
  replace h := ands2 h
  refine (decode_rowA (op := 0x43) rfl h.1 _).trans ?_
  have h1 : ∀ q : Fin 8, ∀ n : Bool, ((0#5 ++ BitVec.ofBool n ++ ofPred q).extractLsb' 4 5 == 0) = true := by decide
  have h3 : ∀ q : Fin 8, ∀ n : Bool, (0#5 ++ BitVec.ofBool n ++ ofPred q).getLsbD 3 = n := by decide
  have h4 : ∀ q : Fin 8, ∀ n : Bool, predOf ((0#5 ++ BitVec.ofBool n ++ ofPred q).extractLsb' 0 3) = q := by decide
  simp only [shapeBallot, parseBallot_bits, h1, h3, h4, beq_self_eq_true, Bool.and_self, unusedOk_none,
    opdIn_toField (p := fun o => mode != .rank || o.isVZ) h.2, parse_ok_bind, need_true]

theorem lreduce g op t d a : Statement (.lreduce g op t d a) := by
  intro h w hw
  cases hw
  replace h := ands3 h
  refine (decode_rowA (op := 0x44) rfl h.1.1 _).trans ?_
  exact shapeDA_enc (parseRed_bits op t h.2) d h.1.2

theorem lscan g op t d a : Statement (.lscan g op t d a) := by
  intro h w hw
  cases hw
  replace h := ands3 h
  refine (decode_rowA (op := 0x45) rfl h.1.1 _).trans ?_
  exact shapeDA_enc (parseRed_bits op t h.2) d h.1.2

theorem pairedWord h0 h1 : Statement (.pairedWord h0 h1) := by
  intro h w hw
  cases hw
  replace h := ands2 h
  exact pairedWord_enc h.1 h.2

theorem movi g mode d imm : Statement (.movi g mode d imm) := by
  intro h w hw
  cases hw
  refine (decode_rowI (op := 0x00) rfl h _).trans ?_
  have hm : MoviMode.ofBits mode.toBits = some mode := by cases mode <;> rfl
  simp only [shapeMovi, hm, field_some, opd_toField, parse_ok_bind, beq_self_eq_true, need_true]

theorem ld g spc sz acq sc la d base x off : Statement (.ld g spc sz acq sc la d base x off) := by
  intro h w hw
  cases hw
  replace h := ands3 h
  obtain ⟨⟨hg, hb⟩, hx⟩ := h
  refine (decode_rowM (op := ldstOp 0 spc sz acq) (row_ld spc sz acq) hg _).trans ?_
  simp only [shapeLd, hintOk_hints hb, hintOk_hints hx, scope_bits, la4_ofFin16, opd_toField, mkSrc_hints, parse_ok_bind, noLa_fin,
    beq_self_eq_true, need_true]

theorem st g spc sz rel sc base x off : Statement (.st g spc sz rel sc base x off) := by
  intro h w hw
  cases hw
  replace h := ands3 h
  obtain ⟨⟨hg, hb⟩, hx⟩ := h
  refine (decode_rowM (op := ldstOp 1 spc sz rel) (row_st spc sz rel) hg _).trans ?_
  simp only [shapeSt, hintOk_hints hb, hintOk_hints hx, scope_bits, la4_ofFin16, opd_toField, mkSrc_hints, parse_ok_bind, noLa_fin,
    beq_self_eq_true, need_true]

theorem atom g op k spc sz sc la d base x off : Statement (.atom g op k spc sz sc la d base x off) := by
  intro h w hw
  cases hw
  replace h := ands4 h
  obtain ⟨⟨⟨hg, hb⟩, hx⟩, hf⟩ := h
  refine (decode_rowM (op := atomOpc 4 k spc sz) (row_atom k spc sz) hg _).trans ?_
  have h1 : (op.toBits ++ off).extractLsb' 7 4 = op.toBits := by
    show (op.toBits.append off).extractLsb' 7 4 = _
    simp only [bits_above, bits_all, Nat.le_refl, Nat.sub_self]
  have h2 : (op.toBits ++ off).extractLsb' 0 7 = off := by
    show (op.toBits.append off).extractLsb' 0 7 = _
    simp only [bits_below, bits_all, Nat.reduceAdd, Nat.le_refl]
  have h3 : AtomOp.ofBits op.toBits = some op := by cases op <;> rfl
  simp only [shapeAtom, h1, h2, h3, hf, hintOk_hints hb, hintOk_hints hx, scope_bits, la4_ofFin16, opd_toField,
    mkSrc_hints, parse_ok_bind, field_some, need_true]

theorem cas g k spc sz sc la d base x off : Statement (.cas g k spc sz sc la d base x off) := by
  intro h w hw
  cases hw
  replace h := ands3 h
  obtain ⟨⟨hg, hb⟩, hx⟩ := h
  refine (decode_rowM (op := atomOpc 5 k spc sz) (row_cas k spc sz) hg _).trans ?_
  have h1 : (0#4 ++ off).extractLsb' 7 4 = 0#4 := by
    show ((0#4).append off).extractLsb' 7 4 = _
    simp only [bits_above, bits_all, Nat.le_refl, Nat.sub_self]
  have h2 : (0#4 ++ off).extractLsb' 0 7 = off := by
    show ((0#4).append off).extractLsb' 0 7 = _
    simp only [bits_below, bits_all, Nat.reduceAdd, Nat.le_refl]
  simp only [shapeCas, h1, h2, hintOk_hints hb, hintOk_hints hx, scope_bits, la4_ofFin16, opd_toField,
    mkSrc_hints, parse_ok_bind, beq_self_eq_true, need_true]
  rfl

theorem ldt g hi q0 cnt sc la d base x : Statement (.ldt g hi q0 cnt sc la d base x) := by
  intro h w hw
  cases hw
  replace h := ands2 h
  obtain ⟨hg, ht⟩ := h
  refine (decode_rowM (op := 0xC0) rfl hg _).trans ?_
  exact tensor_enc g sc ht rfl rfl

theorem stt g hi q0 cnt sc d base x : Statement (.stt g hi q0 cnt sc d base x) := by
  intro h w hw
  cases hw
  replace h := ands2 h
  obtain ⟨hg, ht⟩ := h
  refine (decode_rowM (op := 0xC1) rfl hg _).trans ?_
  exact tensor_enc g sc ht rfl rfl

theorem sttSeal g hi q0 cnt sc d base x : Statement (.sttSeal g hi q0 cnt sc d base x) := by
  intro h w hw
  cases hw
  replace h := ands3 h
  obtain ⟨⟨hg, ht⟩, hq⟩ := h
  refine (decode_rowM (op := 0xC2) rfl hg _).trans ?_
  exact tensor_enc g sc ht rfl hq

theorem prefG g sc base x off : Statement (.prefG g sc base x off) := by
  intro h w hw
  cases hw
  replace h := ands3 h
  obtain ⟨⟨hg, hb⟩, hx⟩ := h
  refine (decode_rowM (op := 0xC4) rfl hg _).trans ?_
  simp only [shapePrefG, hintOk_hints hb, hintOk_hints hx, scope_bits, opd_toField, mkSrc_hints, parse_ok_bind, noLa_fin,
    beq_self_eq_true, need_true]

theorem prefT g sc base x k : Statement (.prefT g sc base x k) := by
  intro h w hw
  cases hw
  replace h := ands5 h
  obtain ⟨⟨⟨⟨hg, hb⟩, hx⟩, ib⟩, ix⟩ := h
  refine (decode_rowM (op := 0xC5) rfl hg _).trans ?_
  simp only [shapePrefT, hintOk_hints hb, hintOk_hints hx, scope_bits, opdIn_toField ib, opdIn_toField ix, mkSrc_hints,
    parse_ok_bind, noLa_fin, beq_self_eq_true, need_true]

theorem fenceAcq g sc : Statement (.fenceAcq g sc) := by
  intro h w hw
  cases hw
  refine (decode_rowM (op := 0xC8) rfl h _).trans ?_
  simp only [shapeFence, fence_unused, scope_bits, noLa_fin, parse_ok_bind, beq_self_eq_true, Bool.true_or, need_true]

theorem fenceRel g sc : Statement (.fenceRel g sc) := by
  intro h w hw
  cases hw
  refine (decode_rowM (op := 0xC9) rfl h _).trans ?_
  simp only [shapeFence, fence_unused, scope_bits, noLa_fin, parse_ok_bind, beq_self_eq_true, Bool.true_or, need_true]

theorem fenceAr g sc : Statement (.fenceAr g sc) := by
  intro h w hw
  cases hw
  refine (decode_rowM (op := 0xCA) rfl h _).trans ?_
  simp only [shapeFence, fence_unused, scope_bits, noLa_fin, parse_ok_bind, beq_self_eq_true, Bool.true_or, need_true]

theorem afence g a b : Statement (.afence g a b) := by
  intro h w hw
  cases hw
  replace h := ands5 h
  obtain ⟨⟨⟨⟨hg, ha⟩, hb⟩, ia⟩, ib⟩ := h
  refine (decode_rowM (op := 0xCC) rfl hg _).trans ?_
  simp only [shapeAfence, hintOk_hints ha, hintOk_hints hb, opdIn_toField ia, opdIn_toField ib, mkSrc_hints, noLa_fin,
    parse_ok_bind, beq_self_eq_true, need_true, scope_core]

theorem ofence g : Statement (.ofence g) := by
  intro h w hw
  cases hw
  refine (decode_rowM (op := 0xCD) rfl h _).trans ?_
  rfl

theorem tfence g : Statement (.tfence g) := by
  intro h w hw
  cases hw
  refine (decode_rowM (op := 0xCE) rfl h _).trans ?_
  rfl

theorem gangset g pair a : Statement (.gangset g pair a) := by
  intro h w hw
  cases hw
  replace h := ands2 h
  refine (decode_rowX (op := 0x00) rfl h.1 _).trans ?_
  have h1 : ((0#7 ++ BitVec.ofBool pair).extractLsb' 1 7 == 0) = true := by cases pair <;> rfl
  have h2 : (0#7 ++ BitVec.ofBool pair).getLsbD 0 = pair := by cases pair <;> rfl
  simp only [shapeGangset, h1, h2, opdIn_toField h.2, noLa_fin, unused9_zero, parse_ok_bind, need_true]

theorem mma g mode bt reuse la d a b c : Statement (.mma g mode bt reuse la d a b c) := by
  intro h w hw
  cases hw
  replace h := ands5 h
  obtain ⟨⟨⟨⟨hg, hd⟩, ha⟩, hb⟩, hc⟩ := h
  refine (decode_rowX (op := 0x01) rfl hg _).trans ?_
  have h1 : ((0#4 ++ BitVec.ofBool reuse ++ BitVec.ofBool bt ++ mode.toBits).extractLsb' 4 4 == 0) = true := by
    cases reuse <;> cases bt <;> cases mode <;> rfl
  have h2 : MmaMode.ofBits ((0#4 ++ BitVec.ofBool reuse ++ BitVec.ofBool bt ++ mode.toBits).extractLsb' 0 2) = some mode := by
    cases reuse <;> cases bt <;> cases mode <;> rfl
  have h3 : (0#4 ++ BitVec.ofBool reuse ++ BitVec.ofBool bt ++ mode.toBits).getLsbD 2 = bt := by
    cases reuse <;> cases bt <;> cases mode <;> rfl
  have h4 : (0#4 ++ BitVec.ofBool reuse ++ BitVec.ofBool bt ++ mode.toBits).getLsbD 3 = reuse := by
    cases reuse <;> cases bt <;> cases mode <;> rfl
  have hz : (mode == .s || d.toField == 511) = true := by
    cases mode
    · rw [isZero_eq hd]; rfl
    · rw [isZero_eq hd]; rfl
    · rfl
  simp only [shapeMma, h1, h2, h3, h4, hz, opdIn_toField (p := fun o => if mode == .s then o.isSZ else o.isZero) hd,
    opdIn_toField ha, opdIn_toField (p := fun o => if bt then o.isSRun 2 else o.isS) hb, opdIn_toField hc, la4_ofFin16,
    parse_ok_bind, field_some, need_true]

theorem mmaw g : Statement (.mmaw g) := by
  intro h w hw
  cases hw
  refine (decode_rowX (op := 0x02) rfl h _).trans ?_
  rfl

theorem accz g a : Statement (.accz g a) := by
  intro h w hw
  cases hw
  replace h := ands2 h
  refine (decode_rowX (op := 0x03) rfl h.1 _).trans ?_
  simp only [shapeAccz, opdIn_toField h.2, beq_self_eq_true, noLa_fin, unused9_zero, parse_ok_bind, need_true]

theorem accld g out d a : Statement (.accld g out d a) := by
  intro h w hw
  cases hw
  replace h := ands3 h
  refine (decode_rowX (op := 0x04) rfl h.1.1 _).trans ?_
  have h1 : ((0#7 ++ BitVec.ofBool out).extractLsb' 1 7 == 0) = true := by cases out <;> rfl
  have h2 : (0#7 ++ BitVec.ofBool out).getLsbD 0 = out := by cases out <;> rfl
  simp only [shapeAccld, h1, h2, opdIn_toField h.1.2, opdIn_toField h.2, noLa_fin, unused9_zero, parse_ok_bind, need_true]

theorem accst g dst si sat rm d a : Statement (.accst g dst si sat rm d a) := by
  intro h w hw
  cases hw
  replace h := ands5 h
  obtain ⟨⟨⟨⟨hg, hd⟩, ha⟩, he⟩, hr⟩ := h
  refine (decode_rowX (op := 0x05) rfl hg _).trans ?_
  have h1 : Fmt.ofAccst ((dst.code4 ++ BitVec.ofBool si ++ BitVec.ofBool sat ++ rm.toBits).extractLsb' 4 4) = some dst := by
    cases dst <;> first | (exact absurd he (by decide)) | (cases si <;> cases sat <;> cases rm <;> rfl)
  have h2 : RMode.ofBits ((dst.code4 ++ BitVec.ofBool si ++ BitVec.ofBool sat ++ rm.toBits).extractLsb' 0 2) = rm := by
    cases dst <;> cases si <;> cases sat <;> cases rm <;> rfl
  have h3 : (dst.code4 ++ BitVec.ofBool si ++ BitVec.ofBool sat ++ rm.toBits).getLsbD 3 = si := by
    cases dst <;> cases si <;> cases sat <;> cases rm <;> rfl
  have h4 : (dst.code4 ++ BitVec.ofBool si ++ BitVec.ofBool sat ++ rm.toBits).getLsbD 2 = sat := by
    cases dst <;> cases si <;> cases sat <;> cases rm <;> rfl
  simp only [shapeAccst, h1, h2, h3, h4, hr, opdIn_toField hd, opdIn_toField ha, noLa_fin, unused9_zero, parse_ok_bind,
    field_some, need_true]

theorem accscl g a b : Statement (.accscl g a b) := by
  intro h w hw
  cases hw
  replace h := ands3 h
  refine (decode_rowX (op := 0x06) rfl h.1.1 _).trans ?_
  simp only [shapeAccscl, opdIn_toField h.1.2, opdIn_toField h.2, beq_self_eq_true, noLa_fin, unused9_zero, parse_ok_bind, need_true]

theorem accmerge g la a b c : Statement (.accmerge g la a b c) := by
  intro h w hw
  cases hw
  replace h := ands4 h
  refine (decode_rowX (op := 0x07) rfl h.1.1.1 _).trans ?_
  simp only [shapeAccmerge, opdIn_toField h.1.1.2, opdIn_toField h.1.2, opdIn_toField h.2, la4_ofFin16, unused9_zero,
    beq_self_eq_true, need_true, parse_ok_bind]

theorem ctld g sp slot a : Statement (.ctld g sp slot a) := by
  intro h w hw
  cases hw
  replace h := ands2 h
  refine (decode_rowX (op := 0x08) rfl h.1 _).trans ?_
  have h1 : ∀ sp : Bool, ∀ k : Fin 16, ((0#3 ++ BitVec.ofBool sp ++ ofFin16 k).extractLsb' 5 3 == 0) = true := by decide
  have h2 : ∀ sp : Bool, ∀ k : Fin 16, (0#3 ++ BitVec.ofBool sp ++ ofFin16 k).getLsbD 4 = sp := by decide
  have h3 : ∀ sp : Bool, ∀ k : Fin 16, la4 ((0#3 ++ BitVec.ofBool sp ++ ofFin16 k).extractLsb' 0 4) = k := by decide
  simp only [shapeCtld, h1, h2, h3, opdIn_toField h.2, noLa_fin, unused9_zero, need_true, parse_ok_bind]

theorem ctst g sp slot d a : Statement (.ctst g sp slot d a) := by
  intro h w hw
  cases hw
  replace h := ands2 h
  refine (decode_rowX (op := 0x09) rfl h.1 _).trans ?_
  have h1 : ∀ sp : Bool, ∀ k : Fin 16, ((0#3 ++ BitVec.ofBool sp ++ ofFin16 k).extractLsb' 5 3 == 0) = true := by decide
  have h2 : ∀ sp : Bool, ∀ k : Fin 16, (0#3 ++ BitVec.ofBool sp ++ ofFin16 k).getLsbD 4 = sp := by decide
  have h3 : ∀ sp : Bool, ∀ k : Fin 16, la4 ((0#3 ++ BitVec.ofBool sp ++ ofFin16 k).extractLsb' 0 4) = k := by decide
  simp only [shapeCtst, h1, h2, h3, opd_toField, opdIn_toField h.2, noLa_fin, unused9_zero, need_true, parse_ok_bind]

theorem dec g dst sat bt la d b c : Statement (.dec g dst sat bt la d b c) := by
  intro h w hw
  cases hw
  replace h := ands3 h
  obtain ⟨⟨hg, hd⟩, hbc⟩ := h
  refine (decode_rowX (op := 0x0A) rfl hg _).trans ?_
  have h1 : ((dst.toBits ++ 0#2 ++ BitVec.ofBool sat ++ BitVec.ofBool bt ++ 0#2).extractLsb' 4 2 == 0
      && (dst.toBits ++ 0#2 ++ BitVec.ofBool sat ++ BitVec.ofBool bt ++ 0#2).extractLsb' 0 2 == 0) = true := by
    cases dst <;> cases sat <;> cases bt <;> rfl
  have h2 : DecDst.ofBits ((dst.toBits ++ 0#2 ++ BitVec.ofBool sat ++ BitVec.ofBool bt ++ 0#2).extractLsb' 6 2) = some dst := by
    cases dst <;> cases sat <;> cases bt <;> rfl
  have h3 : (dst.toBits ++ 0#2 ++ BitVec.ofBool sat ++ BitVec.ofBool bt ++ 0#2).getLsbD 2 = bt := by
    cases dst <;> cases sat <;> cases bt <;> rfl
  have h4 : (dst.toBits ++ 0#2 ++ BitVec.ofBool sat ++ BitVec.ofBool bt ++ 0#2).getLsbD 3 = sat := by
    cases dst <;> cases sat <;> cases bt <;> rfl
  have hb : (if bt then b.isSRun 2 else b.isS) = true := by
    cases bt <;> simp_all
  have hc : (if bt then c.isZero else c.isS) = true := by
    cases bt <;> simp_all
  have hz : (!bt || c.toField == 511) = true := by
    cases bt
    · rfl
    · rw [isZero_eq hc]; rfl
  simp only [shapeDec, h1, h2, h3, h4, hz, opdIn_toField hd,
    opdIn_toField (p := fun o => if bt then o.isSRun 2 else o.isS) hb,
    opdIn_toField (p := fun o => if bt then o.isZero else o.isS) hc, la4_ofFin16, unused9_zero,
    parse_ok_bind, field_some, need_true]

theorem enc g fmt slot la d a b c : Statement (.enc g fmt slot la d a b c) := by
  intro h w hw
  cases hw
  replace h := ands5 h
  obtain ⟨⟨⟨⟨hg, hf⟩, ha⟩, hb⟩, hc⟩ := h
  refine (decode_rowX (op := 0x0B) rfl hg _).trans ?_
  have h1 : (fmt.code4 ++ ofFin16 slot).extractLsb' 4 4 = fmt.code4 := by
    show (fmt.code4.append (ofFin16 slot)).extractLsb' 4 4 = _
    simp only [bits_above, bits_all, Nat.le_refl, Nat.sub_self]
  have h2 : (fmt.code4 ++ ofFin16 slot).extractLsb' 0 4 = ofFin16 slot := by
    show (fmt.code4.append (ofFin16 slot)).extractLsb' 0 4 = _
    simp only [bits_below, bits_all, Nat.reduceAdd, Nat.le_refl]
  have h3 : Fmt.ofCode fmt.code4 = some fmt := by
    cases fmt <;> first | rfl | (exact absurd hf (by decide))
  simp only [shapeEnc, h1, h2, h3, opd_toField, opdIn_toField ha, opdIn_toField hb, opdIn_toField hc, la4_ofFin16,
    parse_ok_bind, field_some]

theorem cpy g dst src d a b c : Statement (.cpy g dst src d a b c) := by
  intro h w hw
  cases hw
  replace h := ands5 h
  obtain ⟨⟨⟨⟨hg, hd⟩, ha⟩, hb⟩, hc⟩ := h
  refine (decode_rowX (op := 0x10) rfl hg _).trans ?_
  have h0 : Space4.ofBits ((dst.toBits ++ src.toBits ++ 0#4).extractLsb' 6 2) = dst := by cases dst <;> cases src <;> rfl
  have h1 : Space4.ofBits ((dst.toBits ++ src.toBits ++ 0#4).extractLsb' 4 2) = src := by cases dst <;> cases src <;> rfl
  have hm : ((dst.toBits ++ src.toBits ++ 0#4).extractLsb' 0 4 == 0) = true := by cases dst <;> cases src <;> rfl
  refine (shapeJob_enc hm hd ha hb hc).trans ?_
  simp only [h0, h1]

theorem cpy2d g dst src d a b c : Statement (.cpy2d g dst src d a b c) := by
  intro h w hw
  cases hw
  replace h := ands5 h
  obtain ⟨⟨⟨⟨hg, hd⟩, ha⟩, hb⟩, hc⟩ := h
  refine (decode_rowX (op := 0x11) rfl hg _).trans ?_
  have h0 : Space4.ofBits ((dst.toBits ++ src.toBits ++ 0#4).extractLsb' 6 2) = dst := by cases dst <;> cases src <;> rfl
  have h1 : Space4.ofBits ((dst.toBits ++ src.toBits ++ 0#4).extractLsb' 4 2) = src := by cases dst <;> cases src <;> rfl
  have hm : ((dst.toBits ++ src.toBits ++ 0#4).extractLsb' 0 4 == 0) = true := by cases dst <;> cases src <;> rfl
  refine (shapeJob_enc hm hd ha hb hc).trans ?_
  simp only [h0, h1]

theorem gather g dst src csr k d a b c : Statement (.gather g dst src csr k d a b c) := by
  intro h w hw
  cases hw
  replace h := ands5 h
  obtain ⟨⟨⟨⟨hg, hd⟩, ha⟩, hb⟩, hc⟩ := h
  refine (decode_rowX (op := 0x12) rfl hg _).trans ?_
  have h0 : Space4.ofBits ((dst.toBits ++ src.toBits ++ BitVec.ofBool csr ++ ofPred k).extractLsb' 6 2) = dst := by clear hd ha hb hc hg; revert k; cases dst <;> cases src <;> cases csr <;> decide
  have h1 : Space4.ofBits ((dst.toBits ++ src.toBits ++ BitVec.ofBool csr ++ ofPred k).extractLsb' 4 2) = src := by clear hd ha hb hc hg h0; revert k; cases dst <;> cases src <;> cases csr <;> decide
  have h2 : (dst.toBits ++ src.toBits ++ BitVec.ofBool csr ++ ofPred k).getLsbD 3 = csr := by clear hd ha hb hc hg h0 h1; revert k; cases dst <;> cases src <;> cases csr <;> decide
  have h3 : predOf ((dst.toBits ++ src.toBits ++ BitVec.ofBool csr ++ ofPred k).extractLsb' 0 3) = k := by clear hd ha hb hc hg h0 h1 h2; revert k; cases dst <;> cases src <;> cases csr <;> decide
  have hm : (true) = true := by rfl
  refine (shapeJob_enc hm hd ha hb hc).trans ?_
  simp only [h0, h1, h2, h3]

theorem scatter g dst src k d a b c : Statement (.scatter g dst src k d a b c) := by
  intro h w hw
  cases hw
  replace h := ands5 h
  obtain ⟨⟨⟨⟨hg, hd⟩, ha⟩, hb⟩, hc⟩ := h
  refine (decode_rowX (op := 0x13) rfl hg _).trans ?_
  have h0 : Space4.ofBits ((dst.toBits ++ src.toBits ++ 0#1 ++ ofPred k).extractLsb' 6 2) = dst := by clear hd ha hb hc hg; revert k; cases dst <;> cases src <;> decide
  have h1 : Space4.ofBits ((dst.toBits ++ src.toBits ++ 0#1 ++ ofPred k).extractLsb' 4 2) = src := by clear hd ha hb hc hg h0; revert k; cases dst <;> cases src <;> decide
  have h2 : predOf ((dst.toBits ++ src.toBits ++ 0#1 ++ ofPred k).extractLsb' 0 3) = k := by clear hd ha hb hc hg h0 h1; revert k; cases dst <;> cases src <;> decide
  have hm : ((dst.toBits ++ src.toBits ++ 0#1 ++ ofPred k).getLsbD 3 == false) = true := by clear hd ha hb hc hg h0 h1 h2; revert k; cases dst <;> cases src <;> decide
  refine (shapeJob_enc hm hd ha hb hc).trans ?_
  simp only [h0, h1, h2]

theorem xform g keep d a b c : Statement (.xform g keep d a b c) := by
  intro h w hw
  cases hw
  replace h := ands5 h
  obtain ⟨⟨⟨⟨hg, hd⟩, ha⟩, hb⟩, hc⟩ := h
  refine (decode_rowX (op := 0x14) rfl hg _).trans ?_
  have h0 : (0#7 ++ BitVec.ofBool keep).getLsbD 0 = keep := by cases keep <;> rfl
  have hm : ((0#7 ++ BitVec.ofBool keep).extractLsb' 1 7 == 0) = true := by cases keep <;> rfl
  refine (shapeJob_enc hm hd ha hb hc).trans ?_
  simp only [h0]

theorem kvsend g d a b c : Statement (.kvsend g d a b c) := by
  intro h w hw
  cases hw
  replace h := ands5 h
  obtain ⟨⟨⟨⟨hg, hd⟩, ha⟩, hb⟩, hc⟩ := h
  refine (decode_rowX (op := 0x15) rfl hg _).trans ?_
  have hm : ((0 : BitVec 8) == 0) = true := by rfl
  refine (shapeJob_enc hm hd ha hb hc).trans ?_
  rfl

theorem wbcast g src d a b c : Statement (.wbcast g src d a b c) := by
  intro h w hw
  cases hw
  replace h := ands5 h
  obtain ⟨⟨⟨⟨hg, hd⟩, ha⟩, hb⟩, hc⟩ := h
  refine (decode_rowX (op := 0x16) rfl hg _).trans ?_
  have h0 : Space4.ofBits ((0#2 ++ src.toBits ++ 0#4).extractLsb' 4 2) = src := by cases src <;> rfl
  have hm : ((0#2 ++ src.toBits ++ 0#4).extractLsb' 0 4 == 0 && (0#2 ++ src.toBits ++ 0#4).extractLsb' 6 2 == 0) = true := by cases src <;> rfl
  refine (shapeJob_enc hm hd ha hb hc).trans ?_
  simp only [h0]

theorem ringpush g d a b c : Statement (.ringpush g d a b c) := by
  intro h w hw
  cases hw
  replace h := ands5 h
  obtain ⟨⟨⟨⟨hg, hd⟩, ha⟩, hb⟩, hc⟩ := h
  refine (decode_rowX (op := 0x17) rfl hg _).trans ?_
  have hm : ((0 : BitVec 8) == 0) = true := by rfl
  refine (shapeJob_enc hm hd ha hb hc).trans ?_
  rfl

theorem bra g off : Statement (.bra g off) := by
  intro h w hw
  cases hw
  refine (decode_rowC (op := 0x00) rfl h _).trans ?_
  rfl

theorem brx g r : Statement (.brx g r) := by
  intro h w hw
  cases hw
  refine (decode_rowC (op := 0x01) rfl h _).trans ?_
  simp only [shapeReg, opdIn_toField (p := fun _ => true) rfl, beq_self_eq_true, Bool.and_self, need_true, parse_ok_bind]

theorem call g r off : Statement (.call g r off) := by
  intro h w hw
  cases hw
  refine (decode_rowC (op := 0x02) rfl h _).trans ?_
  simp only [shapeCall, opd_toField, beq_self_eq_true, need_true, parse_ok_bind]

theorem ret g r : Statement (.ret g r) := by
  intro h w hw
  cases hw
  refine (decode_rowC (op := 0x03) rfl h _).trans ?_
  simp only [shapeReg, opdIn_toField (p := fun _ => true) rfl, beq_self_eq_true, Bool.and_self, need_true, parse_ok_bind]

theorem setmeet g off : Statement (.setmeet g off) := by
  intro h w hw
  cases hw
  refine (decode_rowC (op := 0x04) rfl h _).trans ?_
  rfl

theorem setmeetToken g r : Statement (.setmeetToken g r) := by
  intro h w hw
  cases hw
  refine (decode_rowC (op := 0x05) rfl h _).trans ?_
  simp only [shapeReg, opdIn_toField (p := fun _ => true) rfl, beq_self_eq_true, Bool.and_self, need_true, parse_ok_bind]

theorem savemeet g r : Statement (.savemeet g r) := by
  intro h w hw
  cases hw
  replace h := ands2 h
  refine (decode_rowC (op := 0x06) rfl h.1 _).trans ?_
  simp only [shapeReg, opdIn_toField h.2, beq_self_eq_true, Bool.and_self, need_true, parse_ok_bind]

theorem yield g : Statement (.yield g) := by
  intro h w hw
  cases hw
  refine (decode_rowC (op := 0x08) rfl h _).trans ?_
  rfl

theorem exit g : Statement (.exit g) := by
  intro h w hw
  cases hw
  refine (decode_rowC (op := 0x09) rfl h _).trans ?_
  rfl

theorem nop g : Statement (.nop g) := by
  intro h w hw
  cases hw
  refine (decode_rowC (op := 0x0A) rfl h _).trans ?_
  rfl

theorem bar g arr count id : Statement (.bar g arr count id) := by
  intro h w hw
  cases hw
  refine (decode_rowS (op := 0x00) rfl h _).trans ?_
  exact shapeS_enc (d := .zero) (a := .zero) (b := .zero) (immBar_enc arr count id) rfl rfl rfl

theorem cbar g arr count id : Statement (.cbar g arr count id) := by
  intro h w hw
  cases hw
  replace h := ands2 h
  refine (decode_rowS (op := 0x01) rfl h.1 _).trans ?_
  exact shapeS_enc (d := .zero) (a := .zero) (b := .zero) (immCbar_enc arr id h.2) rfl rfl rfl

theorem waitany g d a count : Statement (.waitany g d a count) := by
  intro h w hw
  cases hw
  replace h := ands3 h
  obtain ⟨⟨hg, hk⟩, ha⟩ := h
  refine (decode_rowS (op := 0x02) rfl hg _).trans ?_
  have h1 : ∀ n : Fin 9, ((0#13 ++ BitVec.ofNat 4 n.val).extractLsb' 4 13 == 0) = true := by decide
  have h2 : ∀ n : Fin 9, ((0#13 ++ BitVec.ofNat 4 n.val).extractLsb' 0 4).toNat = n.val := by decide
  have hn : (count.val != 0) = true := by
    have := of_decide_eq_true hk
    simp; omega
  simp only [shapeWaitany, h1, h2, hn, count.isLt, dif_pos, noLa_zero, opd_toField, opdIn_toField ha, parse_ok_bind,
    need_true, zero_field, beq_self_eq_true, Bool.and_self]

theorem evmask g op hi a : Statement (.evmask g op hi a) := by
  intro h w hw
  cases hw
  replace h := ands2 h
  refine (decode_rowS (op := 0x03) rfl h.1 _).trans ?_
  exact shapeS_enc (pa := some Opd.isSZ) (d := .zero) (b := .zero) (i := (op, hi)) (by cases op <;> cases hi <;> rfl) rfl h.2 rfl

theorem evread g mask clr hi d : Statement (.evread g mask clr hi d) := by
  intro h w hw
  cases hw
  replace h := ands2 h
  refine (decode_rowS (op := 0x04) rfl h.1 _).trans ?_
  have h2 := h.2
  exact shapeS_enc (pd := anyOpd) (a := .zero) (b := .zero) (i := (mask, clr, hi))
    (by cases mask <;> cases clr <;> cases hi <;> first | rfl | (exact absurd h2 (by decide))) rfl rfl rfl

theorem mbsend g q a b : Statement (.mbsend g q a b) := by
  intro h w hw
  cases hw
  refine (decode_rowS (op := 0x05) rfl h _).trans ?_
  exact shapeS_enc (pa := anyOpd) (pb := anyOpd) (d := .zero) (immPred_enc q) rfl rfl rfl

theorem mbrecv g q d a : Statement (.mbrecv g q d a) := by
  intro h w hw
  cases hw
  refine (decode_rowS (op := 0x06) rfl h _).trans ?_
  exact shapeS_enc (pd := anyOpd) (pa := anyOpd) (b := .zero) (immPred_enc q) rfl rfl rfl

theorem ringwait g r sel : Statement (.ringwait g r sel) := by
  intro h w hw
  cases sel with
  | imm slot ph =>
    cases hw
    refine (decode_rowS (op := 0x07) rfl h _).trans ?_
    have h1 : ∀ r : Fin 8, ∀ s : Fin 16, ∀ p : Bool, ((0#9 ++ BitVec.ofBool p ++ ofFin16 s ++ ofPred r).extractLsb' 9 8 == 0) = true := by
      decide
    have h2 : ∀ r : Fin 8, ∀ s : Fin 16, ∀ p : Bool, predOf ((0#9 ++ BitVec.ofBool p ++ ofFin16 s ++ ofPred r).extractLsb' 0 3) = r := by
      decide
    have h3 : ∀ r : Fin 8, ∀ s : Fin 16, ∀ p : Bool, (0#9 ++ BitVec.ofBool p ++ ofFin16 s ++ ofPred r).getLsbD 8 = false := by
      decide
    have h4 : ∀ r : Fin 8, ∀ s : Fin 16, ∀ p : Bool, la4 ((0#9 ++ BitVec.ofBool p ++ ofFin16 s ++ ofPred r).extractLsb' 3 4) = s := by
      decide
    have h5 : ∀ r : Fin 8, ∀ s : Fin 16, ∀ p : Bool, (0#9 ++ BitVec.ofBool p ++ ofFin16 s ++ ofPred r).getLsbD 7 = p := by
      decide
    simp only [shapeRingwait, h1, h2, h3, h4, h5, noLa_zero, zero_field, unused9_none, parse_ok_bind, need_true,
      beq_self_eq_true, Bool.and_self, Bool.false_eq_true, if_false]
  | it a =>
    cases hw
    refine (decode_rowS (op := 0x07) rfl h _).trans ?_
    exact ringwait_it g r a

theorem ringrel g r sel : Statement (.ringrel g r sel) := by
  intro h w hw
  cases sel with
  | imm slot =>
    cases hw
    refine (decode_rowS (op := 0x08) rfl h _).trans ?_
    have h1 : ∀ r : Fin 8, ∀ s : Fin 16, ((0#10 ++ ofFin16 s ++ ofPred r).extractLsb' 9 8 == 0) = true := by decide
    have h2 : ∀ r : Fin 8, ∀ s : Fin 16, predOf ((0#10 ++ ofFin16 s ++ ofPred r).extractLsb' 0 3) = r := by decide
    have h3 : ∀ r : Fin 8, ∀ s : Fin 16, (0#10 ++ ofFin16 s ++ ofPred r).getLsbD 8 = false := by decide
    have h4 : ∀ r : Fin 8, ∀ s : Fin 16, la4 ((0#10 ++ ofFin16 s ++ ofPred r).extractLsb' 3 4) = s := by decide
    have h5 : ∀ r : Fin 8, ∀ s : Fin 16, (0#10 ++ ofFin16 s ++ ofPred r).getLsbD 7 = false := by decide
    simp only [shapeRingrel, h1, h2, h3, h4, h5, noLa_zero, zero_field, unused9_none, parse_ok_bind, need_true,
      beq_self_eq_true, Bool.and_self, Bool.false_eq_true, if_false]
  | it a =>
    cases hw
    refine (decode_rowS (op := 0x08) rfl h _).trans ?_
    exact ringrel_it g r a

theorem reggrow g k : Statement (.reggrow g k) := by
  intro h w hw
  cases hw
  replace h := ands2 h
  refine (decode_rowS (op := 0x10) rfl h.1 _).trans ?_
  exact shapeS_enc (d := .zero) (a := .zero) (b := .zero) (immGran_enc k h.2) rfl rfl rfl

theorem accgrow g k : Statement (.accgrow g k) := by
  intro h w hw
  cases hw
  replace h := ands3 h
  refine (decode_rowS (op := 0x11) rfl h.1.1 _).trans ?_
  exact shapeS_enc (d := .zero) (a := .zero) (b := .zero) (immHalves_enc k h.1.2 h.2) rfl rfl rfl

theorem regshrink g k : Statement (.regshrink g k) := by
  intro h w hw
  cases hw
  replace h := ands2 h
  refine (decode_rowS (op := 0x12) rfl h.1 _).trans ?_
  exact shapeS_enc (d := .zero) (a := .zero) (b := .zero) (immGran_enc k h.2) rfl rfl rfl

theorem trap g d a b code : Statement (.trap g d a b code) := by
  intro h w hw
  cases hw
  refine (decode_rowS (op := 0x18) rfl h _).trans ?_
  exact shapeS_enc (pd := anyOpd) (pa := anyOpd) (pb := anyOpd) (i := code) rfl rfl rfl rfl

theorem clock g cyc d : Statement (.clock g cyc d) := by
  intro h w hw
  cases hw
  refine (decode_rowS (op := 0x19) rfl h _).trans ?_
  exact shapeS_enc (pd := anyOpd) (a := .zero) (b := .zero) (immFlag_enc cyc) rfl rfl rfl

theorem sysrd g d r : Statement (.sysrd g d r) := by
  intro h w hw
  cases hw
  refine (decode_rowS (op := 0x1A) rfl h _).trans ?_
  exact shapeS_enc (pd := anyOpd) (a := .zero) (b := .zero) (immSysReg_enc r) rfl rfl rfl

theorem syswr g r a : Statement (.syswr g r a) := by
  intro h w hw
  cases hw
  refine (decode_rowS (op := 0x1B) rfl h _).trans ?_
  exact shapeS_enc (pa := anyOpd) (d := .zero) (b := .zero) (immSysReg_enc r) rfl rfl rfl

theorem valid g f : Statement (.valid g f) := by
  intro h w hw
  cases f with
  | bit n =>
    cases hw
    refine (decode_rowS (op := 0x1C) rfl h _).trans ?_
    exact valid_bit g n
  | reg a =>
    cases hw
    refine (decode_rowS (op := 0x1C) rfl h _).trans ?_
    exact valid_reg g a

theorem launch g d a : Statement (.launch g d a) := by
  intro h w hw
  cases hw
  refine (decode_rowS (op := 0x1D) rfl h _).trans ?_
  exact shapeS_enc (pd := anyOpd) (pa := anyOpd) (b := .zero) (i := ()) rfl rfl rfl rfl

theorem done g grid : Statement (.done g grid) := by
  intro h w hw
  cases hw
  refine (decode_rowS (op := 0x1E) rfl h _).trans ?_
  exact shapeS_enc (d := .zero) (a := .zero) (b := .zero) (immFlag_enc grid) rfl rfl rfl

theorem reservedInstructionWord w : Statement (.reservedInstructionWord w) := by
  intro h
  cases h

theorem instructionFetchFault : Statement (.instructionFetchFault ) := by
  intro _ w hw; cases hw

theorem loadCompletion group dst lanes : Statement (.loadCompletion group dst lanes) := by
  intro _ w hw; cases hw

theorem jointMma group : Statement (.jointMma group) := by
  intro _ w hw; cases hw

theorem mmaCommit team n : Statement (.mmaCommit team n) := by
  intro _ w hw; cases hw

theorem accmergeFold team n : Statement (.accmergeFold team n) := by
  intro _ w hw; cases hw

theorem jobStart core : Statement (.jobStart core) := by
  intro _ w hw; cases hw

theorem chunkCompletion job : Statement (.chunkCompletion job) := by
  intro _ w hw; cases hw

theorem jobFault job : Statement (.jobFault job) := by
  intro _ w hw; cases hw

theorem jobRetirement job : Statement (.jobRetirement job) := by
  intro _ w hw; cases hw

theorem inboundRemoteWrite part fid rpart addr bytes : Statement (.inboundRemoteWrite part fid rpart addr bytes) := by
  intro _ w hw; cases hw

theorem growGrant core acc : Statement (.growGrant core acc) := by
  intro _ w hw; cases hw

theorem teamRetirement team : Statement (.teamRetirement team) := by
  intro _ w hw; cases hw

theorem completionNotice part : Statement (.completionNotice part) := by
  intro _ w hw; cases hw

theorem ringRecordWrite part host : Statement (.ringRecordWrite part host) := by
  intro _ w hw; cases hw

theorem submissionEntry part priv : Statement (.submissionEntry part priv) := by
  intro _ w hw; cases hw

theorem graphStart : Statement (.graphStart ) := by
  intro _ w hw; cases hw

theorem nodeDispatch : Statement (.nodeDispatch ) := by
  intro _ w hw; cases hw

theorem nodeCompletion node : Statement (.nodeCompletion node) := by
  intro _ w hw; cases hw

theorem place link grid first count : Statement (.place link grid first count) := by
  intro _ w hw; cases hw

theorem cancelUnstartedTeams link grid : Statement (.cancelUnstartedTeams link grid) := by
  intro _ w hw; cases hw

theorem deadlineEventCommand link grid time : Statement (.deadlineEventCommand link grid time) := by
  intro _ w hw; cases hw

theorem teamsRetired link grid count cancelled : Statement (.teamsRetired link grid count cancelled) := by
  intro _ w hw; cases hw

theorem faultReport link grid index core : Statement (.faultReport link grid index core) := by
  intro _ w hw; cases hw

theorem freezeReport link grid pcore status : Statement (.freezeReport link grid pcore status) := by
  intro _ w hw; cases hw

theorem reservedLinkCommand link kind : Statement (.reservedLinkCommand link kind) := by
  intro _ w hw; cases hw

theorem teamPlacement cluster : Statement (.teamPlacement cluster) := by
  intro _ w hw; cases hw

theorem deadlineExpiry graph : Statement (.deadlineExpiry graph) := by
  intro _ w hw; cases hw

theorem deadlineEvent group : Statement (.deadlineEvent group) := by
  intro _ w hw; cases hw

theorem gridDeadline grid : Statement (.gridDeadline grid) := by
  intro _ w hw; cases hw

theorem teamEviction team : Statement (.teamEviction team) := by
  intro _ w hw; cases hw

theorem teamRestore team : Statement (.teamRestore team) := by
  intro _ w hw; cases hw

theorem coreFreeze core unit lost : Statement (.coreFreeze core unit lost) := by
  intro _ w hw; cases hw

theorem migration core : Statement (.migration core) := by
  intro _ w hw; cases hw

theorem sectorLookup addr write : Statement (.sectorLookup addr write) := by
  intro _ w hw; cases hw

theorem translationWalk core part va : Statement (.translationWalk core part va) := by
  intro _ w hw; cases hw

theorem mqbaseWrite v : Statement (.mqbaseWrite v) := by
  intro _ w hw; cases hw

theorem managementDoorbell v : Statement (.managementDoorbell v) := by
  intro _ w hw; cases hw

theorem normalSubmissionDoorbell v : Statement (.normalSubmissionDoorbell v) := by
  intro _ w hw; cases hw

theorem privilegedSubmissionDoorbell v : Statement (.privilegedSubmissionDoorbell v) := by
  intro _ w hw; cases hw

theorem reservedQueueDoorbell v : Statement (.reservedQueueDoorbell v) := by
  intro _ w hw; cases hw

theorem irqstWrite v : Statement (.irqstWrite v) := by
  intro _ w hw; cases hw

theorem registerWrite off v : Statement (.registerWrite off v) := by
  intro _ w hw; cases hw

theorem pcfg part block : Statement (.pcfg part block) := by
  intro _ w hw; cases hw

theorem pdrop part : Statement (.pdrop part) := by
  intro _ w hw; cases hw

theorem gactResume part grid who reply : Statement (.gactResume part grid who reply) := by
  intro _ w hw; cases hw

theorem gactSkip part grid who : Statement (.gactSkip part grid who) := by
  intro _ w hw; cases hw

theorem gactTerminateGroup part grid who : Statement (.gactTerminateGroup part grid who) := by
  intro _ w hw; cases hw

theorem gactTerminateGrid part grid : Statement (.gactTerminateGrid part grid) := by
  intro _ w hw; cases hw

theorem jactResume part index : Statement (.jactResume part index) := by
  intro _ w hw; cases hw

theorem jactCancel part index : Statement (.jactCancel part index) := by
  intro _ w hw; cases hw

theorem evict part grid team : Statement (.evict part grid team) := by
  intro _ w hw; cases hw

theorem tinv part scope start length : Statement (.tinv part scope start length) := by
  intro _ w hw; cases hw

theorem sprobe index : Statement (.sprobe index) := by
  intro _ w hw; cases hw

theorem sreset index : Statement (.sreset index) := by
  intro _ w hw; cases hw

theorem cntrd code inst clear : Statement (.cntrd code inst clear) := by
  intro _ w hw; cases hw

theorem hset part handle entry : Statement (.hset part handle entry) := by
  intro _ w hw; cases hw

theorem attest part nonce report : Statement (.attest part nonce report) := by
  intro _ w hw; cases hw

theorem pwrcap watts : Statement (.pwrcap watts) := by
  intro _ w hw; cases hw

theorem toff part v : Statement (.toff part v) := by
  intro _ w hw; cases hw

theorem tsrc src v : Statement (.tsrc src v) := by
  intro _ w hw; cases hw

theorem fid v : Statement (.fid v) := by
  intro _ w hw; cases hw

theorem fwload image length target : Statement (.fwload image length target) := by
  intro _ w hw; cases hw

theorem bootcfg c k : Statement (.bootcfg c k) := by
  intro _ w hw; cases hw

theorem go : Statement (.go ) := by
  intro _ w hw; cases hw

theorem reservedManagementCommand opcode : Statement (.reservedManagementCommand opcode) := by
  intro _ w hw; cases hw

theorem timeMessage ns : Statement (.timeMessage ns) := by
  intro _ w hw; cases hw

theorem ppsPulse : Statement (.ppsPulse ) := by
  intro _ w hw; cases hw

theorem ppsUnlock : Statement (.ppsUnlock ) := by
  intro _ w hw; cases hw

theorem linkDown : Statement (.linkDown ) := by
  intro _ w hw; cases hw

theorem linkTraining comesUp : Statement (.linkTraining comesUp) := by
  intro _ w hw; cases hw

theorem fabricPathDown port : Statement (.fabricPathDown port) := by
  intro _ w hw; cases hw

theorem powerWindow throttled : Statement (.powerWindow throttled) := by
  intro _ w hw; cases hw

theorem junctionLimit : Statement (.junctionLimit ) := by
  intro _ w hw; cases hw

theorem junctionBelowLimit : Statement (.junctionBelowLimit ) := by
  intro _ w hw; cases hw

theorem thermalTrip : Statement (.thermalTrip ) := by
  intro _ w hw; cases hw

theorem powerGood : Statement (.powerGood ) := by
  intro _ w hw; cases hw

end Sys2Proof.Laws.RoundTrip
end

