-- ==== Sys2Proof/Laws/Reads.lean ====
section
/-!
SUPPORT. Accesses to memory: what serves a read changes no byte of memory, a read answers the bytes of its place, and a write
changes those bytes only.
-/
namespace Sys2Proof.Machine

/-! ## Reads (`Serves`) -/

theorem servesPhys {z0 s : State} (hs : Serves z0 s) {p n : Nat} : Serves z0 (s.physRead p n).1 := hs.trans (serves_physRead s p n)

theorem serves_foldlFst {z0 : State} {β γ : Type} {f : State × γ → β → State × γ} {l : List β} {p : State × γ} (h : Serves z0 p.1)
    (hf : ∀ q b, Serves z0 q.1 → Serves z0 (f q b).1) : Serves z0 (l.foldl f p).1 := by
  induction l generalizing p with
  | nil => exact h
  | cons b r ih => exact ih (hf p b h)

theorem serves_hostLevels {z0 : State} {ipa : Nat} {ls : List Level} {s : State} {t : Nat} (hs : Serves z0 s) :
    Serves z0 (hostLevels ipa ls s t).1 := by
  induction ls generalizing s t with
  | nil => exact hs
  | cons l r ih =>
    unfold hostLevels
    dsimp only
    repeat' (first | assumption | with_reducible apply ih | with_reducible apply servesPhys | split)

theorem serves_hostWalk {z0 : State} {s : State} {root : Word} {ipa : Nat} (hs : Serves z0 s) :
    Serves z0 (hostWalk s root ipa).1 := by
  unfold hostWalk
  try dsimp only
  repeat' (first | with_reducible assumption | with_reducible apply serves_hostLevels | (intro; try dsimp only) | split | dsimp only | contradiction)

theorem serves_partLevels {z0 : State} {hsroot : Word} {va : Nat} {ls : List Level} {s : State} {t : Nat} (hs : Serves z0 s) :
    Serves z0 (partLevels hsroot va ls s t).1 := by
  induction ls generalizing s t with
  | nil => exact hs
  | cons l r ih =>
    unfold partLevels
    dsimp only
    repeat' (first | assumption | with_reducible apply ih | with_reducible apply servesPhys |
      with_reducible apply serves_hostWalk | split)

theorem serves_partWalk {z0 : State} {s : State} {ptroot hsroot : Word} {va : Nat} (hs : Serves z0 s) :
    Serves z0 (partWalk s ptroot hsroot va).1 := by
  unfold partWalk
  try dsimp only
  repeat' (first | with_reducible assumption | with_reducible apply serves_partLevels | (intro; try dsimp only) | split | dsimp only | contradiction)

theorem serves_walk {z0 : State} {s : State} {core part : Nat} {n : Need} {va : Nat} (hs : Serves z0 s) :
    Serves z0 (State.walk s core part n va).1 := by
  unfold State.walk
  try dsimp only
  repeat' (first | with_reducible assumption | with_reducible apply serves_hostWalk | with_reducible apply serves_partWalk | (intro; try dsimp only) | split | dsimp only | contradiction)

theorem serves_countWalk {z0 s : State} {core : Nat} (hs : Serves z0 s) : Serves z0 (s.countWalk core) := by
  unfold State.countWalk
  split
  · exact (hs.trans (Serves.counter _ _ _)).trans (Serves.counter _ _ _)
  · exact hs

theorem serves_translate {z0 : State} {s : State} {core part : Nat} {n : Need} {va : Nat} (hs : Serves z0 s) :
    Serves z0 (State.translate s core part n va).1 := by
  unfold State.translate
  try dsimp only
  repeat' (first | with_reducible assumption | with_reducible apply serves_walk | with_reducible apply serves_countWalk | (intro; try dsimp only) | split | dsimp only | contradiction)

theorem serves_translateRange {z0 : State} {s : State} {core part : Nat} {n : Need} {va len : Nat} (hs : Serves z0 s) :
    Serves z0 (State.translateRange s core part n va len).1 := by
  unfold State.translateRange
  try dsimp only
  repeat' (first | with_reducible assumption | with_reducible apply serves_translate | with_reducible apply serves_foldlFst | (intro; try dsimp only) | split | dsimp only | contradiction)

theorem serves_readPieces {z0 : State} {v : Option View} {ws : List (Where × Nat)} {s : State} {va : Nat} (hs : Serves z0 s) :
    Serves z0 (s.readPieces v va ws).1 := by
  induction ws generalizing s va with
  | nil => exact hs
  | cons w r ih =>
    unfold State.readPieces
    dsimp only
    repeat' (first | assumption | with_reducible apply ih | with_reducible apply servesPhys | split)

theorem serves_vread {z0 : State} {s : State} {core part : Nat} {va len : Nat} {w : Option View} (hs : Serves z0 s) :
    Serves z0 (State.vread s core part va len w).1 := by
  unfold State.vread
  try dsimp only
  repeat' (first | with_reducible assumption | with_reducible apply serves_translateRange | with_reducible apply serves_readPieces | with_reducible apply serves_foldlFst | (intro; try dsimp only) | split | dsimp only | contradiction)

theorem serves_laneAt {z0 s : State} {g : Group} {spc : Space} {l a n : Nat} {need : Need} (hs : Serves z0 s) :
    Serves z0 (s.laneAt g spc l a n need).1 := by
  unfold State.laneAt
  try dsimp only
  repeat' (first | with_reducible assumption | with_reducible apply serves_translate | split | dsimp only)

theorem serves_placeRead {z0 s : State} {x : LaneAt} {n : Nat} (hs : Serves z0 s) : Serves z0 (s.placeRead x n).1 := by
  unfold State.placeRead
  split
  · exact hs
  · exact hs
  · split <;> exact hs
  · dsimp only
    split <;> exact servesPhys hs

theorem serves_placeLanes {z0 : State} {g : Group} {spc : Space} {n : Nat} {need : Need} {addr : Nat → Nat} {ls : List Nat} {s : State}
    (hs : Serves z0 s) : Serves z0 (s.placeLanes g spc n need addr ls).1 := by
  induction ls generalizing s with
  | nil => exact hs
  | cons l r ih => exact ih (serves_laneAt hs)

theorem serves_loadLanes {z0 : State} {n : Nat} {ps : List (Nat × LaneAt)} {s : State} (hs : Serves z0 s) :
    Serves z0 (s.loadLanes n ps).1 := by
  induction ps generalizing s with
  | nil => exact hs
  | cons e r ih =>
    unfold State.loadLanes
    dsimp only
    split <;> exact ih (serves_placeRead hs)

/-! ## A place -/

theorem isMem_far {s : State} {k : Nat} (h : 2 ^ 52 ≤ k) : s.isMem k := .inr h

theorem homeKey_far {s : State} {k : Nat} (h : 2 ^ 52 ≤ k) : s.homeKey k = k := by
  unfold State.homeKey
  dsimp only
  rw [if_neg]
  intro c
  have hb := c.1
  unfold State.backing at hb
  have ht : hbmTop = 0xC000000000 := rfl
  rw [if_neg (by omega), if_neg (by simp; omega), if_neg (by simp; omega)] at hb
  cases hb

theorem memByte_far {s : State} {k : Nat} (h : 2 ^ 52 ≤ k) : s.memByte k = s.byte k := by
  unfold State.memByte; rw [homeKey_far h]

/-- What a read changes decides no view: the history, the fences and the turn stay. -/
theorem Serves.viewed {s t : State} (h : Serves s t) (w : Option View) (va pa n : Nat) (bs : List Byte) :
    t.viewed w va pa n bs = s.viewed w va pa n bs := by
  have e := h.only
  have hp : t.past = s.past := by rw [e]
  have ht : t.tick = s.tick := by rw [e]
  have ha : t.afences = s.afences := by rw [e]
  have ho : t.standing = s.standing := by unfold State.standing State.ordered; rw [ha, hp, ht]
  unfold State.viewed State.mixRun
  rw [hp, ht, ho]

/-- A read answers the bytes of its place, as the group sees them. -/
theorem placeRead_bytes {s : State} (hc : s.CacheOk) {x : LaneAt} (hx : x.far) {n : Nat} {bs : List Byte}
    (h : (s.placeRead x n).2 = .ok bs) : bs = s.seenBytes x n ∧ ∀ k ∈ x.keys n, s.isMem k := by
  unfold State.placeRead at h
  unfold State.seenBytes LaneAt.keys State.memBytes
  split at h
  · cases h
  · cases h
  · rename_i ks r
    split at h
    · rename_i xs hxs
      cases h
      unfold State.cellsRead at hxs
      split at hxs
      · cases hxs
      · cases hxs
        exact ⟨List.map_congr_left fun k hk => (memByte_far (hx k hk)).symm, fun k hk => isMem_far (hx k hk)⟩
    · cases h
  · rename_i pa r
    dsimp only at h
    split at h
    · rename_i xs hxs
      cases h
      obtain ⟨h1, h2⟩ := physRead_reads hc hxs
      refine ⟨congrArg (s.viewed _ _ _ _) (List.ext_getElem? fun j => ?_), fun k hk => ?_⟩
      · by_cases hj : j < xs.length
        · rw [(h2 j hj).2]
          have : j < n := by omega
          simp [this]
        · rw [List.getElem?_eq_none (by omega)]
          have : ¬ j < n := by omega
          simp [this]
      · obtain ⟨j, hj, rfl⟩ := List.mem_map.mp hk
        exact (h2 j (by rw [h1]; simpa using hj)).1
    · cases h

theorem cellsWrite_only (s : State) (ks : List Nat) (bs : List Byte) : OnlyTier s (s.cellsWrite ks bs) := by
  unfold State.cellsWrite
  generalize ks.zip bs = l
  induction l generalizing s with
  | nil => exact OnlyTier.refl s
  | cons e r ih =>
    refine OnlyTier.trans (t := s.setByte e.1 e.2) ?_ (ih _)
    unfold OnlyTier State.setByte; rfl

/-- A write changes the bytes of its place only. -/
theorem placeWrite_wrote {s : State} {x : LaneAt} (hx : x.far) (bs : List Byte) :
    ∃ ps, Wrote { s with past := ps } (s.placeWrite x bs).1 (fun p => p ∈ x.keys bs.length) := by
  unfold State.placeWrite LaneAt.keys
  split
  · exact ⟨s.past, (Serves.refl s).wrote _⟩
  · exact ⟨s.past, (Serves.refl s).wrote _⟩
  · rename_i ks r
    have hz : ∀ e ∈ ks.zip bs, 2 ^ 52 ≤ e.1 ∧ e.1 ∈ ks := fun e he =>
      ⟨hx _ (List.of_mem_zip he).1, (List.of_mem_zip he).1⟩
    refine ⟨(s.remember (.group s.focus) none ks).past, ?_⟩
    show Wrote (s.remember (.group s.focus) none ks) _ _
    generalize s.remember (.group s.focus) none ks = s
    refine ⟨cellsWrite_only _ _ _, ?_, ?_⟩
    all_goals
      dsimp only
      unfold State.cellsWrite
      revert hz
      generalize ks.zip bs = l
      intro hz
      clear hx
    · intro h
      induction l generalizing s with
      | nil => exact h
      | cons e r ih =>
        exact ih (s := s.setByte e.1 e.2) (fun y hy => hz y (by simp [hy]))
          (h.setByte (.inr (.inl (Nat.le_trans (by decide) (hz e (by simp)).1))) _)
    · intro h p hp hw
      induction l generalizing s with
      | nil => rfl
      | cons e r ih =>
        have hz0 := hz e (by simp)
        rw [List.foldl_cons, ih (s := s.setByte e.1 e.2) (fun y hy => hz y (by simp [hy]))
          (h.setByte (.inr (.inl (Nat.le_trans (by decide) hz0.1))) _) hp]
        show (s.setByte e.1 e.2).byte (s.homeKey p) = _
        rw [State.setByte_byte, if_neg]
        · rfl
        · intro c
          have := State.homeKey_inj h hp (isMem_far hz0.1) (by rw [c, homeKey_far hz0.1])
          exact hw (this ▸ hz0.2)
  · rename_i pa r
    refine ⟨(s.remember (.group s.focus) (some r.lo) ((List.range bs.length).map (pa + ·))).past, ?_⟩
    show Wrote (s.remember (.group s.focus) (some r.lo) ((List.range bs.length).map (pa + ·))) _ _
    generalize s.remember (.group s.focus) (some r.lo) ((List.range bs.length).map (pa + ·)) = s
    have e := (physWrite_wrote s pa bs).1
    have : Wrote s (s.physWrite pa bs).1 (fun p => p ∈ (List.range bs.length).map (pa + ·)) :=
      e.mono fun q hq => List.mem_map.mpr ⟨q - pa, by simp; omega, by omega⟩
    dsimp only
    split <;> exact this

end Sys2Proof.Machine
end

