-- ==== Sys2Proof/Laws/Shapes.lean ====
section
/-!
SUPPORT. What the shared shapes of meanings do when the instruction executes: group-level and blocking instructions, branches,
accumulator transfers, and management commands.
-/
namespace Sys2Proof.Machine

/-! ## Instructions of a group -/

/-- A group's two writes are one. -/
theorem State.setMe_setMe {s : State} {g h : Group} (hg : g ≠ Group.absent) (hh : h ≠ Group.absent) :
    (s.setMe g).setMe h = s.setMe h := by
  unfold State.setMe State.setGrp
  simp only [kset_kset_put hg hh]

/-- With no active lane a group-level instruction only goes on. -/
theorem State.groupLevel_idle {s : State} {role : Role → Bool} {gd : Guard} {ops : List Opd} (h : s.ReadyAs role ops)
    (ha : s.act gd = []) (k : List Nat → State → State) : s.groupLevel role gd ops k = (s.setMe s.seen).commit := by
  unfold State.groupLevel
  rw [State.issue_ready h]
  simp only [State.setMe_me]
  rw [show s.seen.active gd = [] from ha]
  rfl

/-- With an active lane its effect takes place once. -/
theorem State.groupLevel_acts {s : State} {role : Role → Bool} {gd : Guard} {ops : List Opd} (h : s.ReadyAs role ops)
    (ha : s.act gd ≠ []) (k : List Nat → State → State) : s.groupLevel role gd ops k = k (s.act gd) (s.setMe s.seen) := by
  unfold State.groupLevel
  rw [State.issue_ready h]
  simp only [State.setMe_me]
  rw [show s.seen.active gd = s.act gd from rfl]
  simp [ha]

/-- With no active lane a blocking instruction closes the windows and rotates. -/
theorem State.blocking_idle {s : State} {role : Role → Bool} {gd : Guard} {ops : List Opd} (h : s.ReadyAs role ops)
    (ha : s.seen.closeWindows.active gd = []) (k : List Nat → State → State) :
    s.blocking role gd ops k = ((s.setMe s.seen).setMe s.seen.closeWindows).setMe s.seen.closeWindows.afterBlock := by
  unfold State.blocking
  rw [State.issue_ready h]
  simp only [State.setMe_me, ha]
  rfl

/-- With an active lane its effect takes place once, on the group with closed windows. -/
theorem State.blocking_acts {s : State} {role : Role → Bool} {gd : Guard} {ops : List Opd} (h : s.ReadyAs role ops)
    (ha : s.seen.closeWindows.active gd ≠ []) (k : List Nat → State → State) :
    s.blocking role gd ops k = k (s.seen.closeWindows.active gd) ((s.setMe s.seen).setMe s.seen.closeWindows) := by
  unfold State.blocking
  rw [State.issue_ready h]
  simp [State.setMe_me, ha]

/-- A branch moves the active threads after the subset has advanced. -/
theorem State.control_ready {s : State} {gd : Guard} {ops : List Opd} (h : s.Ready ops) (close : Bool)
    (body : List Nat → Group → Group → Group) :
    s.control gd ops close body =
      let g := if close then s.seen.closeWindows else s.seen
      (s.setMe s.seen).setMe ((body (g.active gd) g (g.advance g.subset)).finish g.subset false) := by
  unfold State.control
  rw [State.issue_ready h.any]
  simp only [State.setMe_me]

/-! ## Management commands -/

theorem State.command_idle {s : State} (h : s.card.mqcons = s.card.mqlimit) (k : State → State × Reply) : s.command k = s := by
  simp [State.command, h]

theorem State.command_runs {s : State} (h : s.card.mqcons ≠ s.card.mqlimit) (k : State → State × Reply) :
    s.command k = if ((k s).1.reply (k s).2).2 = true then ((k s).1.reply (k s).2).1 else s.triedReply := by
  simp only [State.command, h, if_false]

theorem State.afterGo_early {s : State} (h : s.card.mqcons ≠ s.card.mqlimit) (hb : s.boot.step < 6) (k : State → State × Reply) :
    s.afterGo k = if (s.reply Reply.refused).2 = true then (s.reply Reply.refused).1 else s.triedReply := by
  simp only [State.afterGo, State.command_runs h, hb, if_true]

theorem State.afterGo_runs {s : State} (h : s.card.mqcons ≠ s.card.mqlimit) (hb : 6 ≤ s.boot.step) (k : State → State × Reply) :
    s.afterGo k = s.command k := by
  simp only [State.afterGo, State.command_runs h, Nat.not_lt.mpr hb, if_false]

theorem State.onPart_runs {s : State} {part : BitVec 6} (h : s.card.mqcons ≠ s.card.mqlimit) (hb : 6 ≤ s.boot.step)
    (hp : (s.part part.toNat).live = true) (k : State → State × Reply) : s.onPart part k = s.command k := by
  simp only [State.onPart, State.afterGo_runs h hb, State.command_runs h, hp, if_true]

theorem State.onPart_none {s : State} {part : BitVec 6} (h : s.card.mqcons ≠ s.card.mqlimit) (hb : 6 ≤ s.boot.step)
    (hp : (s.part part.toNat).live = false) (k : State → State × Reply) :
    s.onPart part k = if (s.reply Reply.badArg).2 = true then (s.reply Reply.badArg).1 else s.triedReply := by
  simp only [State.onPart, State.afterGo_runs h hb, State.command_runs h, hp]
  simp

end Sys2Proof.Machine
end

