-- ==== Sys2Proof/Laws/Sound.lean ====
section
/-!
SUPPORT. A sound package stays sound: through every operation that keeps the bring-up and power state, and through the commands
and events that change them.
-/
namespace Sys2Proof.Machine

theorem Keeps.sound {z s : State} (h : Keeps z s) (hz : z.Sound) : s.Sound :=
  ⟨h.mem hz.mem, h.tier hz.tier, h.copies hz.cache, by rw [h.boot]; exact hz.boot, by rw [h.power]; exact hz.power⟩

/-- A sound state with another bring-up record of the same carve-out code, another power record and other fields beside memory. -/
theorem State.Sound.congr {s t : State} (h : s.Sound) (hm : t.mem = s.mem) (hs : t.sectors = s.sectors)
    (hc : t.boot.c = s.boot.c) (hb : t.boot.ok) (hp : t.power.ok) : t.Sound := by
  have hcv : t.carve = s.carve := by unfold State.carve; rw [hc]
  have hn : t.sectorCount = s.sectorCount := by unfold State.sectorCount; rw [hcv]
  refine ⟨by rw [hm]; exact h.mem, fun i x hx hv => ?_, fun hn' i hv hd o ho => ?_, hb, hp⟩
  · rw [hn]; exact h.tier i x (hs ▸ hx) hv
  · have e : ∀ i, t.sector i = s.sector i := fun i => by unfold State.sector; rw [hs]
    rw [e] at hv hd ⊢
    have := h.copies (hn ▸ hn') i hv hd o ho
    unfold State.byte State.sectorBase
    rw [hm, hcv]
    exact this

theorem sound_irq {s : State} (h : s.Sound) (n : Nat) : (s.irq n).Sound := (keeps_irq (Keeps.refl s)).sound h

theorem sound_reply {s : State} (h : s.Sound) (r : Reply) : (s.reply r).1.Sound := (keeps_reply (Keeps.refl s)).sound h

theorem sound_command {s : State} {k : State → State × Reply} (h : s.Sound) (hk : s.Sound → (k s).1.Sound) : (s.command k).Sound := by
  unfold State.command
  split
  · exact h
  · dsimp only
    split
    · exact sound_reply (hk h) _
    · exact (keeps_triedReply (Keeps.refl s)).sound h

theorem sound_afterGo {s : State} {k : State → State × Reply} (h : s.Sound) (hk : s.Sound → (k s).1.Sound) : (s.afterGo k).Sound := by
  unfold State.afterGo
  refine sound_command h fun h => ?_
  split
  · exact h
  · exact hk h

theorem sound_fid {s : State} (h : s.Sound) (v : Word) : ∃ t, execFid v s = .next t ∧ t.Sound := by
  refine ⟨_, rfl, sound_command h fun h => ?_⟩
  dsimp only
  split
  · exact h
  · exact h.congr rfl rfl rfl ⟨by simp, by simp, h.boot.2.2⟩ h.power

theorem sound_fwload {s : State} (h : s.Sound) (a b c : Word) : ∃ t, execFwload a b c s = .next t ∧ t.Sound := by
  refine ⟨_, rfl, sound_command h fun h => ?_⟩
  have hr := (keeps_physRead (p := a.toNat) (n := b.toNat) (Keeps.refl s)).sound h
  dsimp only
  generalize (if c.getLsbD 0 then s.boot.leafLoaded else s.boot.gscLoaded) = ld
  split
  · exact h
  · split
    · exact h
    · split
      · exact hr
      · split
        · refine hr.congr rfl rfl ?_ ?_ hr.power
          · unfold BootState.load; dsimp only; split <;> rfl
          · unfold BootState.load; dsimp only; split <;> exact ⟨by simp, by simp, hr.boot.2.2⟩
        · exact hr

theorem sound_bootcfg {s : State} (h : s.Sound) (c k : Word) : ∃ t, execBootcfg c k s = .next t ∧ t.Sound := by
  refine ⟨_, rfl, sound_command h fun h => ?_⟩
  dsimp only
  split
  · exact h
  · split
    · exact h
    · rename_i hc
      have hc3 : c.toNat ≤ 3 := Nat.le_of_not_lt fun x => hc (.inl x)
      refine ⟨kwf_filter _ h.mem, ?_, ?_, ⟨by simp, by simp, hc3⟩, h.power⟩
      · intro i x hx
        simp at hx
      · intro _ i hv
        simp [State.sector, kget, Sector.reset] at hv

theorem sound_go {s : State} (h : s.Sound) : ∃ t, execGo s = .next t ∧ t.Sound := by
  refine ⟨_, rfl, sound_command h fun h => ?_⟩
  dsimp only
  split
  · exact h
  · exact h.congr rfl rfl rfl ⟨by simp, by simp, h.boot.2.2⟩ h.power

theorem sound_pwrcap {s : State} (h : s.Sound) (w : Word) : ∃ t, execPwrcap w s = .next t ∧ t.Sound := by
  refine ⟨_, rfl, sound_afterGo h fun h => ?_⟩
  dsimp only
  split
  · exact h
  · rename_i hw
    exact h.congr rfl rfl rfl h.boot (by unfold PowerState.ok; dsimp only; omega)

theorem sound_tsrc {s : State} (h : s.Sound) (a b : Word) : ∃ t, execTsrc a b s = .next t ∧ t.Sound := by
  refine ⟨_, rfl, sound_afterGo h fun h => ?_⟩
  split <;> first | exact h | exact h.congr rfl rfl rfl h.boot h.power

/-- The package at reset, with the host's memory as it was. -/
theorem sound_restart {s : State} (h : s.Sound) : s.restart.Sound := by
  refine ⟨kwf_filter _ h.mem, ?_, ?_, (by decide : 1 ≤ 1 ∧ 1 ≤ 6 ∧ 0 ≤ 3), ?_⟩
  · intro i x hx
    simp [State.restart, State.reset] at hx
  · intro _ i hv
    simp [State.restart, State.reset, State.sector, kget, Sector.reset] at hv
  · show PowerState.ok State.reset.power
    exact ⟨by decide, by decide⟩

theorem sound_time {s : State} (h : s.Sound) (x : TimeState) (c : CardState) : ({ s with time := x, card := c } : State).Sound :=
  h.congr rfl rfl rfl h.boot h.power

theorem sound_linkTraining {s : State} (h : s.Sound) (u : Bool) : ∃ t, execLinkTraining u s = .next t ∧ t.Sound := by
  refine ⟨_, rfl, ?_⟩
  split
  · apply sound_irq
    have := h.boot
    unfold BootState.ok at this
    exact h.congr rfl rfl rfl ⟨by dsimp only; omega, by dsimp only; omega, this.2.2⟩ h.power
  · exact h

theorem sound_power {s : State} (h : s.Sound) (a b c : Bool) :
    ({ s with power := { s.power with throttling := a, hot := b, lowered := c } } : State).Sound :=
  h.congr rfl rfl rfl h.boot h.power

/-- A sector whose state is lost keeps what it holds. -/
theorem sound_badSector {s : State} (h : s.Sound) (i : Nat) : (s.setSector i { s.sector i with unknown := true }).Sound :=
  (keeps_setSector (i := i) (x := { s.sector i with unknown := true }) (Keeps.refl s) (fun ht hv => State.sector_ok ht hv) (fun _ hv hd => ⟨hv, hd, rfl⟩)).sound h

theorem sound_outside {s : State} (h : s.Sound) (t : Turn) : (s.outside t).Sound := by
  unfold State.outside
  split
  · exact (keeps_hostStore (Keeps.refl s)).sound h
  · unfold State.elapse
    dsimp only
    split
    · exact h.congr rfl rfl rfl h.boot h.power
    · exact h
  · exact (keeps_missAt (Keeps.refl s)).sound h
  · split
    · exact (keeps_setCore (Keeps.refl s)).sound h
    · exact h
  · exact (keeps_nodeStore (Keeps.refl s)).sound h
  · exact h.congr rfl rfl rfl h.boot h.power
  · exact (keeps_spoil (Keeps.refl s)).sound h
  · split
    · exact sound_badSector h _
    · exact h
  · unfold State.spoilLine
    dsimp only
    split
    · exact (keeps_setCluster (Keeps.refl s)).sound h
    · exact h
  · split
    · exact (keeps_addCounter (Keeps.refl s)).sound h
    · exact h
  · exact (keeps_countTiming (Keeps.refl s)).sound h
  · exact h

end Sys2Proof.Machine
end

