-- ==== Sys2Proof/Tests/Slice0.lean ====
section
/-!
SUPPORT. Tests of the model: ill-formed terms, refused words, words written out from the encodings, the worked examples of the
commentary chapters, and for each statement states and operands that meet its hypotheses.
-/
namespace Sys2Proof.Tests
open Sys2Proof.Machine

set_option maxRecDepth 20000

abbrev al : Guard := ⟨false, 7⟩
abbrev n3 : Guard := ⟨true, 3⟩
abbrev rv (n : Fin 320) : Src := ⟨.v n, false, false⟩
abbrev rs (n : Fin 64) : Src := ⟨.s n, false, false⟩
abbrev rz : Src := ⟨.zero, false, false⟩

/-! ## Terms that no word stands for (09 R111 to R120, R136) -/

/-- Guard 0b1111, and a source with L = K = 1. -/
theorem test_ill_guard_and_hints :
    ([.nop ⟨true, 7⟩, .mov ⟨true, 7⟩ (.v 1) (rv 2), .mov al (.v 1) ⟨.v 2, true, true⟩,
      .pairedWord (.op ⟨.and, 0, 1, 2, true, true, false, false⟩) .nop,
      .pairedWord .nop (.op ⟨.and, 0, 1, 2, false, false, true, true⟩)] : List Instr).all (!·.wellFormed) = true := by decide

/-- Vector instructions: pd1 = pd2, a part past the ratio, a directed rounding to a tapered format, an unused field in use, a
register class that a field does not take, a reserved mode. -/
theorem test_ill_vector :
    ([.icmp al .w64 false .lt ⟨.set, 1, 1⟩ (rv 1) (rv 2), .cvt al .f32 .e2m3 4 .rn false false (.v 1) (rv 2),
      .cvt al .f32 .f32 1 .rn false false (.v 1) (rv 2), .cvt al .f32 .tf8 0 .rz false false (.v 1) (rv 2),
      .pack al .x6 (.v 1) (rv 2) (rv 3), .mxscale al (.apply ⟨.v 1, true, true⟩) (.v 1) (rv 2),
      .shfl al .w64 .rot (.v 1) (rv 2) (rv 3) rz, .shfl al .w64 .bfly (.v 1) (rv 2) (rs 3) (rv 4),
      .shflImm al .w64 .gather (.v 1) (rv 2) 1, .ballot al .rank false 1 (.s 1), .lreduce al .xor .f32 (.v 1) (rv 2),
      .lscan al .and .bf16 (.v 1) (rv 2), .fminImm al .f16x4 (.v 1) (rv 2) 0x10000] : List Instr).all (!·.wellFormed) = true := by
  decide

/-- Memory instructions: `.fadd` of 64 bits, tensor operands of a wrong class, a run past `s63`, rows past 15, a partial seal. -/
theorem test_ill_memory :
    ([.atom al .fadd .plain .g .b64 .core 0 (.v 1) (rv 2) (rv 3) 0, .ldt al false 0 0 .core 0 (.s 1) (rs 4) (rs 5),
      .ldt al false 0 0 .core 0 (.v 1) (rv 4) (rs 5), .ldt al false 0 0 .core 0 (.v 1) (rs 4) (rs 62),
      .stt al false 8 8 .core (.v 1) (rs 4) (rs 5), .sttSeal al false 0 14 .core (.v 1) (rs 4) (rs 5),
      .prefT al .core (rv 1) (rs 2) 0, .prefT al .core (rs 1) (rs 63) 0, .afence al (rv 1) (rs 2)] : List Instr).all
      (!·.wellFormed) = true := by decide

/-- Matrix and coded-data instructions. -/
theorem test_ill_matrix :
    ([.gangset al false (.v 1), .mma al .a false false 0 (.s 1) (.v 1) (.s 2) (.v 3), .mma al .s false false 0 (.v 1) (.v 1) (.s 2) (.v 3),
      .mma al .z false false 0 .zero (.s 1) (.s 2) (.v 3), .mma al .z true false 0 .zero (.v 1) (.s 62) (.v 3),
      .mma al .z false false 0 .zero (.v 1) (.s 2) .zero, .accz al .zero, .accld al false (.s 1) (.s 2),
      .accst al .e8m0 false false .rn (.v 1) (.s 2), .accst al .tf6 false false .rd (.v 1) (.s 2), .accscl al (.s 1) .zero,
      .accmerge al 0 (.s 1) (.v 2) (.s 3), .ctld al false 0 (.v 1), .ctst al false 0 (.v 1) .zero,
      .dec al .f32 false true 0 (.v 1) (.s 2) (.s 3), .dec al .f32 false false 0 (.v 1) (.s 2) .zero,
      .enc al .f32 0 0 (.v 1) (.v 2) (.s 3) (.s 4), .enc al .e4m3 0 0 (.v 1) (.s 2) (.s 3) (.s 4)] : List Instr).all
      (!·.wellFormed) = true := by decide

/-- Engine, control and synchronisation instructions. -/
theorem test_ill_engine_and_sync :
    ([.cpy al .sp .g (.s 63) (.s 1) (.s 2) (.s 3), .cpy2d al .sp .g .zero (.s 1) (.s 2) (.s 63),
      .gather al .sp .g false 0 .zero (.s 1) (.s 2) (.s 62), .scatter al .sp .g 0 (.v 1) (.s 1) (.s 2) (.s 3),
      .xform al false .zero (.s 1) (.v 2) (.s 3), .kvsend al .zero (.s 63) (.s 2) (.s 3), .wbcast al .g .zero (.s 1) .zero (.s 3),
      .ringpush al .zero (.s 1) (.s 2) (.s 4), .savemeet al .zero, .cbar al true 0 1, .waitany al (.v 1) (.s 2) 0,
      .waitany al (.v 1) (.s 61) 8, .evmask al .wr false (.v 1), .evread al true true false (.v 1), .reggrow al 0, .regshrink al 0,
      .accgrow al 0, .accgrow al 3, .reservedInstructionWord 0] : List Instr).all (!·.wellFormed) = true := by decide

/-! ## Refused words (09 R136): the row that refuses each -/

/-- The row of R136 that refuses a word. -/
def refusedBy (w : Nat) : Nat :=
  match decodeWord (BitVec.ofNat 64 w) with
  | .ok _ => 0
  | .error r => r

/-- One word for each row, and the first of two failing rows. -/
theorem test_refused_rows :
    [refusedBy 0x8000C50091208300,  -- P = 1 and bit 31
     refusedBy 0x7077FFFFFFFFF000,  -- class 7
     refusedBy 0x02C7008080600000,  -- class A opcode 0x2C
     refusedBy 0x0507008080600000,  -- class A opcode 0x50
     refusedBy 0x8280C50011208300,  -- a half with opcode 0x05
     refusedBy 0x017F0080BFFFF000,  -- MOV under guard 0b1111
     refusedBy 0x01770080BFFFFC00,  -- MOV with L = K = 1
     refusedBy 0x01770080BFFFF001,  -- MOV with a modifier bit
     refusedBy 0x01770080807FF000,  -- MOV with its b field in use
     refusedBy 0x0197044080600002,  -- ICMP into p1 and p1
     refusedBy 0x0177C800BFFFF000,  -- MOV to operand 400
     refusedBy 0x0177C800BFFFF001]  -- the same with a modifier bit
      = [1, 2, 3, 3, 3, 4, 5, 5, 5, 5, 6, 5] := by decide

/-! ## Words written out from the encodings -/

/-- The decoder reads the word as the instruction. -/
def reads (w : Nat) (i : Instr) : Bool :=
  match decodeWord (BitVec.ofNat 64 w) with
  | .ok j => j == i
  | .error _ => false

def allRead (l : List (Nat × Instr)) : Bool := l.all fun e => reads e.1 e.2

/-- Words of the integer instructions, packed from 09 R110 to R135 and the entries' layouts. -/
theorem test_decode_integer : allRead
    [(0x000B0080A87FF01C, .iadd n3 ⟨.w32, true, true⟩ (.v 1) (rv 2) (rs 3)),
     (0x100702818FFFFF40, .iaddImm al ⟨.w64, false, false⟩ (.v 5) (rv 6) 0x3FFFFD),
     (0x0017A0CB3FFFF820, .isub al ⟨.w16, false, false⟩ (.s 1) ⟨.v 300, true, false⟩ rz),
     (0x10170281800001F0, .isubImm al ⟨.w8, false, false⟩ (.v 5) (rv 6) 7),
     (0x0027008080604012, .iaddc al .w32 true (.v 1) (rv 2) (rv 3) (rv 4)),
     (0x00370080807FF100, .imul al ⟨.w64, false, false⟩ (.v 1) (rv 2) ⟨.v 3, false, true⟩),
     (0x1037008080000240, .imulImm al ⟨.w64, false, false⟩ (.v 1) (rv 2) 9),
     (0x00470080807FF008, .imulhi al .w64 true (.v 1) (rv 2) (rv 3)),
     (0x0057008080604090, .imad al ⟨.w32, false, false⟩ (.v 1) (rv 2) (rv 3) ⟨.v 4, true, false⟩),
     (0x00670080807FF008, .imin al .w64 true (.v 1) (rv 2) (rv 3)),
     (0x10670080800000C0, .iminImm al .w64 false (.v 1) (rv 2) 3),
     (0x00770080807FF000, .imax al .w64 false (.v 1) (rv 2) (rv 3)),
     (0x10770080800000F8, .imaxImm al .w8 true (.v 1) (rv 2) 3),
     (0x00870080BFFFF004, .iabs al .w64 true (.v 1) (rv 2)),
     (0x00970080807FF010, .shl al .w32 (.v 1) (rv 2) (rv 3)),
     (0x1097008080000FC0, .shlImm al .w64 (.v 1) (rv 2) 63),
     (0x00A70080807FF010, .shr al .w32 (.v 1) (rv 2) (rv 3)),
     (0x10A7008080000FC0, .shrImm al .w64 (.v 1) (rv 2) 63),
     (0x00B70080807FF010, .shra al .w32 (.v 1) (rv 2) (rv 3)),
     (0x10B7008080000FC0, .shraImm al .w64 (.v 1) (rv 2) 63),
     (0x00C70080807FF010, .rotl al .w32 (.v 1) (rv 2) (rv 3)),
     (0x10C7008080000FC0, .rotlImm al .w64 (.v 1) (rv 2) 63)] = true := by decide

/-- Words of the logic instructions, packed from 09 R110 to R135 and the entries' layouts. -/
theorem test_decode_logic : allRead
    [(0x00D70080AFFFF000, .and al (.v 1) (rv 2) (rs 63)),
     (0x10D700808FFFFFC0, .andImm al (.v 1) (rv 2) 0x3FFFFF),
     (0x00E70080AFFFF000, .or al (.v 1) (rv 2) (rs 63)),
     (0x10E700808FFFFFC0, .orImm al (.v 1) (rv 2) 0x3FFFFF),
     (0x00F70080AFFFF000, .xor al (.v 1) (rv 2) (rs 63)),
     (0x10F700808FFFFFC0, .xorImm al (.v 1) (rv 2) 0x3FFFFF),
     (0x01070080AFFFF000, .andn al (.v 1) (rv 2) (rs 63)),
     (0x110700808FFFFFC0, .andnImm al (.v 1) (rv 2) 0x3FFFFF),
     (0x01170080807FF008, .bfx al .w64 true (.v 1) (rv 2) (rv 3)),
     (0x1117008080040140, .bfxImm al .w64 false (.v 1) (rv 2) 5 64),
     (0x0127008080604000, .bfi al .w64 (.v 1) (rv 2) (rv 3) (rv 4)),
     (0x01370080BFFFF030, .popc al .w8 (.v 1) (rv 2)),
     (0x01470080BFFFF030, .clz al .w8 (.v 1) (rv 2)),
     (0x01570080BFFFF030, .brev al .w8 (.v 1) (rv 2)),
     (0x01670080807FF00D, .sel al true 5 (.v 1) (rv 2) (rv 3)),
     (0x0177A04FFFFFF000, .mov al (.s 0) (rv 319)),
     (0x01870080807FF01B, .lea al .x32u 3 (.v 1) (rv 2) (rv 3)),
     (0x1187008080000047, .leaImm al .x64 7 (.v 1) (rv 2) 1),
     (0x01970500405FF002, .icmp al .w64 false .lt ⟨.set, 1, 2⟩ (rv 1) (rv 2)),
     (0x11977F804000015D, .icmpImm al .w32 true .ge ⟨.fill, 7, 7⟩ (rv 1) 5),
     (0x01A70080807FF008, .pset al 1 2 3 8),
     (0x01B704FFFFFFF000, .pmov al (.tov (.v 9))),
     (0x01B7FF827FFFF001, .pmov al (.top (rv 9))),
     (0x600706303F800000, .movi al .dup (.v 12) 0x3F800000)] = true := by decide

/-- Words of the float instructions, packed from 09 R110 to R135 and the entries' layouts. -/
theorem test_decode_float : allRead
    [(0x02070080807FF01E, .fadd al ⟨.f16x4, .ru, true⟩ (.v 1) (rv 2) (rv 3)),
     (0x02170080807FF01E, .fsub al ⟨.f16x4, .ru, true⟩ (.v 1) (rv 2) (rv 3)),
     (0x02270080807FF01E, .fmul al ⟨.f16x4, .ru, true⟩ (.v 1) (rv 2) (rv 3)),
     (0x1207008083F80000, .faddImm al ⟨.f32x2, .rn, false⟩ (.v 1) (rv 2) 0xFE000),
     (0x12270080800FE028, .fmulImm al ⟨.bf16x4, .rd, false⟩ (.v 1) (rv 2) 0x3F80),
     (0x0232020040403200, .ffma ⟨false, 2⟩ ⟨.f32x2, .rn, false⟩ (.v 4) (rv 1) ⟨.v 2, true, false⟩ (rv 3)),
     (0x02470080807FF010, .fmin al .f16x4 (.v 1) (rv 2) (rv 3)),
     (0x02570080807FF010, .fmax al .f16x4 (.v 1) (rv 2) (rv 3)),
     (0x02670080807FF010, .fminm al .f16x4 (.v 1) (rv 2) (rv 3)),
     (0x02770080807FF010, .fmaxm al .f16x4 (.v 1) (rv 2) (rv 3)),
     (0x1247008080000050, .fminImm al .f16x4 (.v 1) (rv 2) 1),
     (0x1257008080000040, .fmaxImm al .f32x2 (.v 1) (rv 2) 1),
     (0x0287008080604000, .fclamp al .f32x2 (.v 1) (rv 2) (rv 3) (rv 4)),
     (0x02970080BFFFF014, .frnd al .f16x4 .rz (.v 1) (rv 2)),
     (0x02A70080807FF002, .fscale al ⟨.f32x2, .rn, true⟩ (.v 1) (rv 2) (rv 3)),
     (0x02B78500405FF026, .fcmp al .bf16x4 .nan ⟨.flip, 1, 2⟩ (rv 1) (rv 2)),
     (0x12B7250040000007, .fcmpImm al .f32x2 .num ⟨.conj, 1, 2⟩ (rv 1) 0),
     (0x03070080BFFFF000, .rcp al (.v 1) (rv 2)),
     (0x03170080BFFFF000, .rsq al (.v 1) (rv 2)),
     (0x03270080BFFFF000, .sqrt al (.v 1) (rv 2)),
     (0x03370080BFFFF000, .ex2 al (.v 1) (rv 2)),
     (0x03470080BFFFF000, .lg2 al (.v 1) (rv 2)),
     (0x03570080BFFFF000, .sinpi al (.v 1) (rv 2)),
     (0x03670080BFFFF000, .cospi al (.v 1) (rv 2)),
     (0x03770080BFFFF000, .tanh al (.v 1) (rv 2))] = true := by decide

/-- Words of the convert instructions, packed from 09 R110 to R135 and the entries' layouts. -/
theorem test_decode_convert : allRead
    [(0x0387020096201002, .cvt al .f32 .e2m3 1 .rn true false (.v 4) (rv 2)),
     (0x03910B053FFFF000, .pack ⟨false, 1⟩ .x6 (.v 22) (rv 20) rz),
     (0x03970B0502BFF002, .pack al .w32 (.v 22) (rv 20) (rv 21)),
     (0x03A70080BFFFF001, .unpack al .x4lo (.v 1) (rv 2)),
     (0x03B70080BFFFF005, .mxscale al (.calc .e4m3) (.v 1) (rv 2)),
     (0x03B70080807FF020, .mxscale al (.apply (rv 3)) (.v 1) (rv 2)),
     (0x03C7A4FFFFFFF001, .amaxr al true (.s 9))] = true := by decide

/-- Words of the crossLane instructions, packed from 09 R110 to R135 and the entries' layouts. -/
theorem test_decode_crossLane : allRead
    [(0x04070080807FF030, .shfl al .w8 .gather (.v 1) (rv 2) (rv 3) rz),
     (0x04070080A8604008, .shfl al .w64 .edge (.v 1) (rv 2) (rs 3) (rv 4)),
     (0x1407008080007FEC, .shflImm al .w16 .bfly (.v 1) (rv 2) 511),
     (0x04170080807FF000, .bcast al .w64 (.v 1) (rv 2) (rv 3)),
     (0x14170080800002B0, .bcastImm al .w8 (.v 1) (rv 2) 10),
     (0x0427A092BFFFF001, .vote al .some 4 true 2 (.s 1)),
     (0x043703007FFFF001, .ballot al .rank false 1 (.v 6)),
     (0x0447A30A3FFFF014, .lreduce al .max .f32 (.s 6) (rv 40)),
     (0x0457030A3FFFF000, .lscan al .add .int64 (.v 6) (rv 40)),
     (0x8000C50011208300, .pairedWord (.op ⟨.iadd .w64 false, 0, 3, 5, false, false, false, false⟩) (.op ⟨.fmul .f32x2 .rn, 2, 2, 3, false, false, false, false⟩)),
     (0x8BD042207F800000, .pairedWord (.op ⟨.mov, 5, 1, 2, false, false, true, false⟩) .nop)] = true := by decide

/-- Words of the memory instructions, packed from 09 R110 to R135 and the entries' layouts. -/
theorem test_decode_memory : allRead
    [(0x22670400BFE06002, .ld al .g .b64 false .core 3 (.v 8) (rv 2) rz 2),
     (0x20B7A40080901FFF, .ld al .sp .b16 true .sys 0 (.s 8) ⟨.v 2, true, false⟩ (rv 4) 0x7FF),
     (0x2597FF8080801005, .st al .ch .b8 true .dev (rv 2) (rv 4) 5),
     (0x28E7008080602CFF, .atom al .fadd .acq .g .b32 .clu 1 (.v 1) (rv 2) (rv 3) 0x7F),
     (0x2A170802C1E00000, .cas al .plain .sp .b64 .core 0 (.v 16) (rv 11) (rv 15) 0),
     (0x2C070651E880418C, .ldt al true 3 1 .core 2 (.v 12) (rs 7) (rs 4)),
     (0x2C170651E8800878, .stt al false 0 15 .clu (.v 12) (rs 7) (rs 4)),
     (0x2C270651E8800780, .sttSeal al false 15 0 .core (.v 12) (rs 7) (rs 4)),
     (0x2C47FF80BFE00FFC, .prefG al .clu (rv 2) rz 0x7FC),
     (0x2C57FFD0A8800001, .prefT al .core (rs 2) (rs 4) 1),
     (0x2C87FFFFFFE01000, .fenceAcq al .dev),
     (0x2C97FFFFFFE01000, .fenceRel al .dev),
     (0x2CA7FFFFFFE01000, .fenceAr al .dev),
     (0x2CC7FFD068400000, .afence al (rs 1) (rs 2)),
     (0x2CD7FFFFFFE00000, .ofence al),
     (0x2CE7FFFFFFE00000, .tfence al)] = true := by decide

/-- Words of the matrix instructions, packed from 09 R110 to R135 and the entries' layouts. -/
theorem test_decode_matrix : allRead
    [(0x3007FFD33FFFF001, .gangset al true (.s 12)),
     (0x3017FF852940200D, .mma al .a true true 0 .zero (.v 20) (.s 10) (.v 2)),
     (0x3011A30528A0200A, .mma ⟨false, 1⟩ .s false true 0 (.s 6) (.v 20) (.s 5) (.v 2)),
     (0x3027FFFFFFFFF000, .mmaw al),
     (0x3037FFD13FFFF000, .accz al (.s 4)),
     (0x30470F513FFFF001, .accld al true (.v 30) (.s 4)),
     (0x30570F513FFFF0A5, .accst al .bf16 false true .rz (.v 30) (.s 4)),
     (0x3067FFD100BFF000, .accscl al (.s 4) (.v 5)),
     (0x3077FFD128B46F00, .accmerge al 15 (.s 4) (.s 5) (.s 6)),
     (0x3087FFD13FFFF01F, .ctld al true 15 (.s 4)),
     (0x309701D13FFFF002, .ctst al false 2 (.v 3) (.s 4)),
     (0x30A7047FE89FF28C, .dec al .bf16 true true 2 (.v 8) (.s 4) .zero),
     (0x30B7A48228945053, .enc al .e4m3 3 0 (.s 9) (.v 8) (.s 4) (.s 5))] = true := by decide

/-- Words of the engines instructions, packed from 09 R110 to R135 and the entries' layouts. -/
theorem test_decode_engines : allRead
    [(0x3107AA5128B46030, .cpy al .sp .g (.s 20) (.s 4) (.s 5) (.s 6)),
     (0x3117FFD128B460C0, .cpy2d al .g .sp .zero (.s 4) (.s 5) (.s 6)),
     (0x3127AA5128B48031, .gather al .sp .g false 1 (.s 20) (.s 4) (.s 5) (.s 8)),
     (0x3137AA5128B480B7, .scatter al .ch .g 7 (.s 20) (.s 4) (.s 5) (.s 8)),
     (0x3147AA5128B48001, .xform al true (.s 20) (.s 4) (.s 5) (.s 8)),
     (0x3157AA5128D48000, .kvsend al (.s 20) (.s 4) (.s 6) (.s 8)),
     (0x3167AA5128D48020, .wbcast al .ch (.s 20) (.s 4) (.s 6) (.s 8)),
     (0x3177AA5128D48000, .ringpush al (.s 20) (.s 4) (.s 6) (.s 8))] = true := by decide

/-- Words of the control instructions, packed from 09 R110 to R135 and the entries' layouts. -/
theorem test_decode_control : allRead
    [(0x4001FF8FFFFFFFFB, .bra ⟨false, 1⟩ 0xFFFFFFFFB),
     (0x4017BF8000000000, .brx al (.s 63)),
     (0x4027008000000010, .call al (.v 1) 16),
     (0x4037008000000000, .ret al (.v 1)),
     (0x4047FF800000000F, .setmeet al 15),
     (0x4057050000000000, .setmeetToken al (.v 10)),
     (0x4067048000000000, .savemeet al (.v 9)),
     (0x4087FF8000000000, .yield al),
     (0x4097FF8000000000, .exit al),
     (0x40A7FF8000000000, .nop al)] = true := by decide

/-- Words of the sync instructions, packed from 09 R110 to R135 and the entries' layouts. -/
theorem test_decode_sync : allRead
    [(0x5007FFFFFFE1004F, .bar al true 4 15),
     (0x5017FFFFFFE00027, .cbar al false 2 7),
     (0x5027AD523FE00002, .waitany al (.s 26) (.s 8) 2),
     (0x5037FFD07FE00005, .evmask al .clr true (.s 1)),
     (0x504700FFFFE00002, .evread al false true false (.v 1)),
     (0x5057FFD068400003, .mbsend al 3 (.s 1) (.s 2)),
     (0x5067A1D07FE00007, .mbrecv al 7 (.s 3) (.s 1)),
     (0x5077FFD13FE00101, .ringwait al 1 (.it (.s 4))),
     (0x5077FFFFFFE000AA, .ringwait al 2 (.imm 5 true)),
     (0x5087FFFFFFE0007F, .ringrel al 7 (.imm 15))] = true := by decide

/-- Words of the system instructions, packed from 09 R110 to R135 and the entries' layouts. -/
theorem test_decode_system : allRead
    [(0x5107FFFFFFE00013, .reggrow al 19),
     (0x5117FFFFFFE00002, .accgrow al 2),
     (0x5127FFFFFFE00001, .regshrink al 1),
     (0x5187FFD2BFE00001, .trap al .zero (.s 10) .zero 1),
     (0x519700FFFFE00001, .clock al true (.v 1)),
     (0x51A700FFFFE00030, .sysrd al (.v 1) .sidebase),
     (0x51B7FFD07FE0000B, .syswr al .evmaskHi (.s 1)),
     (0x51C7FFD77FE00000, .valid al (.reg (.s 29))),
     (0x51C7FFFFFFE0007F, .valid al (.bit 63)),
     (0x51D7A1507FE00000, .launch al (.s 2) (.s 1)),
     (0x51E7FFFFFFE00001, .done al true)] = true := by decide

/-- Management commands from 25 R341, R342 and R356: [7:0] opcode, [21:16] partition, then the arguments. -/
theorem test_decode_management :
    ([([0x00050001, 0x9000], .pcfg 5 0x9000), ([0x003F0002], .pdrop 63), ([0x00010003, 7, 0x123, 0, 9], .gactResume 1 7 0x123 9),
      ([0x00010003, 7, 0x123, 1], .gactSkip 1 7 0x123), ([0x00010003, 7, 0x123, 2], .gactTerminateGroup 1 7 0x123),
      ([0x00010003, 7, 0, 3], .gactTerminateGrid 1 7), ([0x00020004, 4, 0], .jactResume 2 4), ([0x00020004, 4, 1], .jactCancel 2 4),
      ([0x00020005, 8, 3], .evict 2 8 3), ([0x00020006, 2, 0x10000, 0x20000], .tinv 2 2 0x10000 0x20000),
      ([0x07, 11], .sprobe 11), ([0x08, 11], .sreset 11), ([0x09, 0x20, 3, 1], .cntrd 0x20 3 1),
      ([0x0002000A, 0xFFF, 5], .hset 2 0xFFF 5), ([0x0002000B, 0x40, 0x80], .attest 2 0x40 0x80), ([0x0C, 1500], .pwrcap 1500),
      ([0x0002000D, 77], .toff 2 77), ([0x0E, 2, 99], .tsrc 2 99), ([0x10, 0x1234], .fid 0x1234),
      ([0x11, 0x100, 0x200, 1], .fwload 0x100 0x200 1), ([0x12, 3, 64], .bootcfg 3 64), ([0x13], .go),
      ([0x14], .reservedManagementCommand 0x14), ([0x0F], .reservedManagementCommand 0x0F)] : List (List Word × Instr)).all
      (fun e => mgmtInstr e.1 == e.2) = true := by decide

/-- Link commands from 19 R288, as the table numbers their bits, and a management command of 64 bytes. -/
theorem test_decode_table_words :
    ([(256, 1 + 7 * 2 ^ 64 + 2 * 2 ^ 128 + 3 * 2 ^ 192, .place 0 7 2 3), (256, 2 + 7 * 2 ^ 64, .cancelUnstartedTeams 0 7),
      (256, 3 + 7 * 2 ^ 64 + 500 * 2 ^ 128, .deadlineEventCommand 0 7 500),
      (256, 4 + 5 * 2 ^ 16 + 7 * 2 ^ 64 + 2 ^ 128, .teamsRetired 0 7 1 0),
      (256, 5 + 7 * 2 ^ 64 + 2 ^ 128 + 9 * 2 ^ 192, .faultReport 0 7 1 9), (256, 6 + 3 * 2 ^ 128 + 2 ^ 192, .freezeReport 0 0 3 1),
      (256, 7, .reservedLinkCommand 0 7), (512, 0x0001000D + 42 * 2 ^ 64, .toff 1 42),
      (64, 0x4007FF8000000000 + 10 * 2 ^ 52, .nop al)] : List (Nat × Nat × Instr)).all
      (fun e => decodeTableWord e.1 e.2.1 == some e.2.2) = true := by decide

/-! ## One step of one instruction -/

/-- A running group of 32 lanes of a role at address 0x1000, alone in its team on core 0. -/
def bareGroup (role : Role) : Group :=
  { Group.absent with
    team := 1, role := role, gran := 20, cur := 0x1000, status := .running,
    threads := List.replicate 32 { pc := 0x1000, meet := BitVec.allOnes 64, held := false, exited := false, preds := 0 } }

def bareAs (role : Role) : State :=
  { State.reset with
    focus := 32, groups := [(32, bareGroup role)], grids := [(1, { Grid.absent with live := true })],
    teams := [(1, { Team.absent with phase := .resident, grid := 1, size := 1, halves := 2, spkib := 64, spsize := 65536 })] }

abbrev bare : State := bareAs .vector

/-- Change the issuing group. -/
def upd (s : State) (f : Group → Group) : State := s.setMe (f s.me)

/-- Register `r` in the lanes from 0 on. -/
def setV (s : State) (r : Nat) (xs : List Word) : State := upd s fun g => xs.zipIdx.foldl (fun g e => g.vwrite r e.2 e.1) g

def setS (s : State) (n : Nat) (x : Word) : State := upd s fun g => g.swrite n x

/-- p[q] is true in exactly the lanes `ls`. -/
def setP (s : State) (q : Fin 8) (ls : List Nat) : State := upd s fun g => g.mapThr fun l t => t.setPred q (ls.contains l)

/-- Guards `p1` and `p2`. -/
abbrev g1 : Guard := ⟨false, 1⟩
abbrev g2 : Guard := ⟨false, 2⟩

/-- What holds of the next state. -/
def runs (i : Instr) (s : State) (f : State → Bool) : Bool :=
  match exec i s with
  | .next t => f t
  | .fault _ => false
  | .refused _ => false

/-- The value of `v1` in lane 0 and `FLAGS` after an instruction guarded by `p1`, true in lane 0 alone, with `v2`, `v3`, `v4`. -/
def gives (i : Instr) (x y z : Word) (r : Word) (fl : BitVec 32) : Bool :=
  runs i (setP (setV (setV (setV bare 2 [x]) 3 [y]) 4 [z]) 1 [0]) fun t =>
    t.me.vread 1 0 == r && t.me.flags == fl && t.me.cur == 0x1008

/-- Integer arithmetic, by hand from 11 R146 to R148. -/
theorem test_integer_results :
    [gives (.iadd g1 ⟨.w32, false, false⟩ (.v 1) (rv 2) (rv 3)) 0x00000001FFFFFFFF 0x0000000200000001 0 0x0000000300000000 0,
     gives (.iadd g1 ⟨.w8, false, true⟩ (.v 1) (rv 2) (rv 3)) 0x7F 1 0 0x7F FLAG.saturated,
     gives (.iadd g1 ⟨.w8, true, true⟩ (.v 1) (rv 2) (rv 3)) 0xFF 1 0 0xFF FLAG.saturated,
     gives (.iaddImm g1 ⟨.w16, false, false⟩ (.v 1) (rv 2) 0x3FFFFF) 0x0005000400010000 0 0 0x000400030000FFFF 0,
     gives (.isub g1 ⟨.w64, false, false⟩ (.v 1) (rv 2) (rv 3)) 3 5 0 0xFFFFFFFFFFFFFFFE 0,
     gives (.isubImm g1 ⟨.w64, true, true⟩ (.v 1) (rv 2) 7) 3 0 0 0 FLAG.saturated,
     gives (.iaddc g1 .w64 false (.v 1) (rv 2) (rv 3) (rv 4)) 0xFFFFFFFFFFFFFFFF 5 1 5 0,
     gives (.iaddc g1 .w64 true (.v 1) (rv 2) (rv 3) (rv 4)) 0xFFFFFFFFFFFFFFFF 0 1 1 0,
     gives (.imul g1 ⟨.w32, false, false⟩ (.v 1) (rv 2) (rv 3)) 0xFFFFFFFF 7 0 0xFFFFFFF9 0,
     gives (.imulImm g1 ⟨.w8, false, true⟩ (.v 1) (rv 2) 2) 0x80 0 0 0x80 FLAG.saturated,
     gives (.imulhi g1 .w32 false (.v 1) (rv 2) (rv 3)) 0xFFFFFFFF 1 0 0xFFFFFFFF 0,
     gives (.imulhi g1 .w32 true (.v 1) (rv 2) (rv 3)) 0xFFFFFFFF 0x10 0 0xF 0,
     gives (.imad g1 ⟨.w16, false, false⟩ (.v 1) (rv 2) (rv 3) (rv 4)) 3 5 2 17 0,
     gives (.imin g1 .w8 false (.v 1) (rv 2) (rv 3)) 0x80 0x7F 0 0x80 0, gives (.imin g1 .w8 true (.v 1) (rv 2) (rv 3)) 0x80 0x7F 0 0x7F 0,
     gives (.imax g1 .w8 false (.v 1) (rv 2) (rv 3)) 0x80 0x7F 0 0x7F 0,
     gives (.iminImm g1 .w64 false (.v 1) (rv 2) 0x3FFFFF) 1 0 0 0xFFFFFFFFFFFFFFFF 0,
     gives (.imaxImm g1 .w64 true (.v 1) (rv 2) 0x3FFFFF) 1 0 0 0xFFFFFFFFFFFFFFFF 0,
     gives (.iabs g1 .w8 true (.v 1) (rv 2)) 0x80FB 0 0 0x7F05 FLAG.saturated, gives (.iabs g1 .w8 false (.v 1) (rv 2)) 0x80FB 0 0 0x8005 0,
     gives (.shl g1 .w32 (.v 1) (rv 2) (rv 3)) 0x0000000180000001 0x0000002000000001 0 0x0000000000000002 0,
     gives (.shrImm g1 .w64 (.v 1) (rv 2) 63) 0x8000000000000000 0 0 1 0, gives (.shlImm g1 .w8 (.v 1) (rv 2) 8) 0xFF 0 0 0 0,
     gives (.shra g1 .w16 (.v 1) (rv 2) (rv 3)) 0x80008000 0x00200001 0 0xFFFFC000 0, gives (.shraImm g1 .w16 (.v 1) (rv 2) 16) 0x8000 0 0 0xFFFF 0,
     gives (.shr g1 .w8 (.v 1) (rv 2) (rv 3)) 0x80 7 0 1 0,
     gives (.rotl g1 .w8 (.v 1) (rv 2) (rv 3)) 0x81 9 0 0x03 0, gives (.rotlImm g1 .w32 (.v 1) (rv 2) 4) 0xF0000001 0 0 0x1F 0].all id
      = true := by decide

/-- Logic, fields, counts, moves, by hand from 11 R149 to R153 and 09 R124. -/
theorem test_logic_results :
    [gives (.and g1 (.v 1) (rv 2) (rv 3)) 0xFF 0x3C 0 0x3C 0, gives (.or g1 (.v 1) (rv 2) (rv 3)) 0xF0 0x0C 0 0xFC 0,
     gives (.xor g1 (.v 1) (rv 2) (rv 3)) 0xFF 0x0C 0 0xF3 0, gives (.andn g1 (.v 1) (rv 2) (rv 3)) 0xFF 0x0C 0 0xF3 0,
     gives (.andImm g1 (.v 1) (rv 2) 0x3FFFFE) 0xFF 0 0 0xFE 0, gives (.orImm g1 (.v 1) (rv 2) 0x200000) 0 0 0 0xFFFFFFFFFFE00000 0,
     gives (.xorImm g1 (.v 1) (rv 2) 1) 3 0 0 2 0, gives (.andnImm g1 (.v 1) (rv 2) 1) 3 0 0 2 0,
     gives (.bfx g1 .w32 true (.v 1) (rv 2) (rv 3)) 0x12345678 0x208 0 0x56 0,
     gives (.bfxImm g1 .w32 false (.v 1) (rv 2) 4 4) 0x80 0 0 0xFFFFFFF8 0, gives (.bfxImm g1 .w32 false (.v 1) (rv 2) 40 4) 0x80 0 0 0 0,
     gives (.bfi g1 .w32 (.v 1) (rv 2) (rv 3) (rv 4)) 0xAB 0x208 0x12345678 0x1234AB78 0,
     gives (.popc g1 .w8 (.v 1) (rv 2)) 0xFF01 0 0 0x0801 0, gives (.clz g1 .w16 (.v 1) (rv 2)) 0x0001 0 0 0x001000100010000F 0,
     gives (.brev g1 .w8 (.v 1) (rv 2)) 0x0180 0 0 0x8001 0, gives (.sel g1 false 1 (.v 1) (rv 2) (rv 3)) 5 6 0 5 0,
     gives (.sel g1 true 1 (.v 1) (rv 2) (rv 3)) 5 6 0 6 0, gives (.mov g1 (.v 1) (rv 2)) 77 0 0 77 0, gives (.mov g1 (.v 1) rz) 77 0 0 0 0,
     gives (.lea g1 .x64 3 (.v 1) (rv 2) (rv 3)) 0x100 5 0 0x128 0, gives (.lea g1 .x32 2 (.v 1) (rv 2) (rv 3)) 0x100 0xFFFFFFFF 0 0xFC 0,
     gives (.lea g1 .x32u 0 (.v 1) (rv 2) (rv 3)) 1 0x5FFFFFFFF 0 0x100000000 0, gives (.leaImm g1 .x64 5 (.v 1) (rv 2) 0x3FFFFF) 0x100 0 0 0xE0 0,
     gives (.movi g1 .sx (.v 1) 0x80000000) 0 0 0 0xFFFFFFFF80000000 0, gives (.movi g1 .hi (.v 1) 0x40) 0 0 0 0x4000000000 0,
     gives (.movi g1 .lo (.v 1) 7) 0 0 0 7 0, gives (.movi g1 .dup (.v 1) 0x7F7F7F7F) 0 0 0 0x7F7F7F7F7F7F7F7F 0].all id = true := by decide

/-- Float results, by hand from 03 R42 to R45 and 11 R158 to R162: 1 + 2⁻²⁴ ties to 1, the larger of −0 and +0, a NaN ignored. -/
theorem test_float_results :
    [gives (.fadd g1 ⟨.f32x2, .rn, false⟩ (.v 1) (rv 2) (rv 3)) 0x3F800000 0x33800000 0 0x3F800000 FLAG.inexact,
     gives (.fadd g1 ⟨.f32x2, .ru, false⟩ (.v 1) (rv 2) (rv 3)) 0x3F800000 0x33800000 0 0x3F800001 FLAG.inexact,
     gives (.faddImm g1 ⟨.f32x2, .rn, false⟩ (.v 1) (rv 2) 0xFE000) 0x3F800000 0 0 0x3F80000040000000 0,
     gives (.fsub g1 ⟨.f32x2, .rn, false⟩ (.v 1) (rv 2) (rv 3)) 0x7F800000 0x7F800000 0 0x7FC00000 FLAG.invalid,
     gives (.fmul g1 ⟨.f16x4, .rn, false⟩ (.v 1) (rv 2) (rv 3)) 0x7BFF 0x4000 0 0x7C00 (FLAG.overflow ||| FLAG.inexact),
     gives (.fmulImm g1 ⟨.bf16x4, .rn, false⟩ (.v 1) (rv 2) 0x4000) 0x3F80 0 0 0x4000 0,
     gives (.ffma g1 ⟨.f32x2, .rn, false⟩ (.v 1) (rv 2) (rv 3) (rv 4)) 0x40400000 0x40000000 0x3F800000 0x40E00000 0,
     gives (.fmin g1 .f32x2 (.v 1) (rv 2) (rv 3)) 0x7FC00000 0x3F800000 0 0x3F800000 0, gives (.fmax g1 .f32x2 (.v 1) (rv 2) (rv 3)) 0x80000000 0 0 0 0,
     gives (.fminImm g1 .f32x2 (.v 1) (rv 2) 0) 0x80000000 0 0 0x80000000 0, gives (.fmaxImm g1 .f16x4 (.v 1) (rv 2) 0x3C00) 0x4000 0 0 0x3C003C003C004000 0,
     gives (.fminm g1 .f32x2 (.v 1) (rv 2) (rv 3)) 0xC0000000 0x3F800000 0 0x3F800000 0, gives (.fmaxm g1 .f32x2 (.v 1) (rv 2) (rv 3)) 0xC0000000 0x3F800000 0 0xC0000000 0,
     gives (.fclamp g1 .f32x2 (.v 1) (rv 2) (rv 3) (rv 4)) 0x41000000 0 0x40000000 0x40000000 0,
     gives (.frnd g1 .f32x2 .rn (.v 1) (rv 2)) 0x40200000 0 0 0x40000000 0, gives (.frnd g1 .f32x2 .ru (.v 1) (rv 2)) 0xBE800000 0 0 0x80000000 0,
     gives (.fscale g1 ⟨.f32x2, .rn, false⟩ (.v 1) (rv 2) (rv 3)) 0x3F800000 0xFFFFFFFF 0 0x3F000000 0].all id = true := by decide

set_option exponentiation.threshold 1000 in
/-- The special functions on exact cases and on √½, the value that 16 names. -/
theorem test_special_results :
    [gives (.rcp g1 (.v 1) (rv 2)) 0x400000003F800000 0 0 0x3F0000003F800000 0, gives (.rcp g1 (.v 1) (rv 2)) 0x3F80000000000000 0 0 0x3F8000007F800000 FLAG.divzero,
     gives (.sqrt g1 (.v 1) (rv 2)) 0x4080000041100000 0 0 0x4000000040400000 0, gives (.rsq g1 (.v 1) (rv 2)) 0x4080000040800000 0 0 0x3F0000003F000000 0,
     gives (.ex2 g1 (.v 1) (rv 2)) 0x40000000BF000000 0 0 0x408000003F3504F3 FLAG.inexact, gives (.lg2 g1 (.v 1) (rv 2)) 0x4100000040000000 0 0 0x404000003F800000 0,
     gives (.sinpi g1 (.v 1) (rv 2)) 0x3F0000003F800000 0 0 0x3F80000000000000 0, gives (.cospi g1 (.v 1) (rv 2)) 0x3F8000003F000000 0 0 0xBF80000000000000 0,
     gives (.tanh g1 (.v 1) (rv 2)) 0x7F80000000000000 0 0 0x3F80000000000000 0].all id = true := by decide

/-! ## Conversion and cross-lane instructions: the cases of 12 -/

/-- The E2M3 bytes of Program 1 in lanes 0 to 3, and their packed stream. -/
def codes : List Word := [0x1F003F1F001F2308, 0x08080808083B2011, 0x0808150808080808, 0x0708080808080808]
def stream : List Word := [0xB8117C0FDF01F8C8, 0x4820820820820823, 0x1C82082082082085, 0]

/-- `v1` in the first lanes after an instruction with `v2` in the first lanes, guarded by `p1` in lanes 0 to 3. -/
def quad (i : Instr) (xs : List Word) (rs : List Word) : Bool :=
  runs i (setP (setV bare 2 xs) 1 [0, 1, 2, 3]) fun t => (List.range rs.length).map (t.me.vread 1) == rs

/-- Every rounding case of 12: `CVT.e2m3.f32.p0` and `CVT.e3m2.f32.p0` of two elements in each of six lanes, with `FLAGS`. -/
theorem test_cvt_narrow :
    (let ins : List Word := [0xBEC000003F800000, 0x3D80000040F80000, 0xFF80000042C80000, 0x40F000007FC00000, 0x8000000040100000,
        0x40500000C0B00000]
      let s := setP (setV bare 2 ins) 1 [0, 1, 2, 3, 4, 5]
      runs (.cvt g1 .f32 .e2m3 0 .rn false false (.v 1) (rv 2)) s (fun t => (List.range 6).map (t.me.vread 1)
          == [0x2308, 0x001F, 0x3F1F, 0x1F00, 0x2011, 0x153B] && t.me.flags == 0x39)
        && runs (.cvt g1 .f32 .e3m2 0 .rn false false (.v 1) (rv 2)) s (fun t => (List.range 6).map (t.me.vread 1)
          == [0x260C, 0x0118, 0x3F1F, 0x1800, 0x2010, 0x1236] && t.me.flags == 0x31)) = true := by decide

/-- The widening conversions of 12, and a part that leaves the other sub-elements. -/
theorem test_cvt_wide_and_parts :
    (quad (.cvt g1 .e2m3 .f32 3 .rn false false (.v 1) (rv 2)) codes [0x40F0000000000000, 0x3F8000003F800000, 0x3F8000003F800000, 0x3F6000003F800000]
      && runs (.cvt g1 .f32 .e2m3 1 .rn false true (.v 1) (rv 2)) (setP (setV (setV bare 2 [0x40F0000040F80000]) 1 [0x1111111111111111]) 1 [0])
        (fun t => t.me.vread 1 0 == 0x111111111F1F1111 && t.me.amax == 0x40F80000 && t.me.flags == 0x30)) = true := by decide

/-- `PACK.x6` and `UNPACK.x6` of Program 1. -/
theorem test_pack_unpack : (quad (.pack g1 .x6 (.v 1) (rv 2) rz) codes stream && quad (.unpack g1 .x6 (.v 1) (rv 2)) stream codes) = true := by
  decide

/-- The other kinds of `PACK` and `UNPACK`, `MXSCALE` and `AMAXR`, by hand from 11 R167 to R170. -/
theorem test_pack_scale :
    [gives (.pack g1 .x4 (.v 1) (rv 2) (rv 3)) 0x0807060504030201 0xFFFEFDFCFBFAF9F8 0 0xFEDCBA9887654321 0,
     gives (.pack g1 .w32 (.v 1) (rv 2) (rv 3)) 0xAAAAAAAA11111111 0xBBBBBBBB22222222 0 0x2222222211111111 0,
     gives (.unpack g1 .x4lo (.v 1) (rv 2)) 0xFEDCBA9887654321 0 0 0x0807060504030201 0,
     gives (.unpack g1 .x4hi (.v 1) (rv 2)) 0xFEDCBA9887654321 0 0 0x0F0E0D0C0B0A0908 0,
     gives (.mxscale g1 (.calc .e2m3) (.v 1) (rv 2)) 0x7F80000040F80000 0 0 0x000000FF0000007F FLAG.invalid,
     gives (.mxscale g1 (.calc .e4m3) (.v 1) (rv 2)) 0x4380000000000000 0 0 0x0000007F00000000 0,
     gives (.mxscale g1 (.apply (rv 3)) (.v 1) (rv 2)) 0x400000003F800000 0x00000080000000FF 0 0x3F8000007FC00000 0,
     runs (.amaxr g1 false (.v 1)) (setP (upd bare fun g => { g with amax := 0x40F80000 }) 1 [0]) (fun t =>
        t.me.vread 1 0 == 0x40F80000 && t.me.amax == 0),
     runs (.amaxr g1 true (.v 1)) (setP (upd bare fun g => { g with amax := 0x40F80000 }) 1 [0]) (fun t => t.me.amax == 0x40F80000)].all id
      = true := by decide

/-- The shuffle and broadcast cases of 12, from the final state of Program 1. -/
theorem test_shuffles :
    [quad (.shflImm g1 .w8 .edge (.v 1) (rv 2) 0x1FF) codes [0x003F1F001F230800, 0x080808083B20111F],
     quad (.shflImm g1 .w8 .rot (.v 1) (rv 2) 255) codes [0x003F1F001F230800],
     quad (.shflImm g1 .w8 .edge (.v 1) (rv 2) 8) codes [0x08080808083B2011, 0x0808150808080808, 0x0708080808080808, 0],
     quad (.shflImm g1 .w32 .bfly (.v 1) (rv 2) 1) [0xBEC000003F800000] [0x3F800000BEC00000],
     quad (.bcastImm g1 .w8 (.v 1) (rv 2) 10) codes [0x3B3B3B3B3B3B3B3B, 0x3B3B3B3B3B3B3B3B],
     runs (.shfl g1 .w64 .gather (.v 1) (rv 2) (rv 3) rz) (setP (setV (setV bare 2 codes) 3 [3, 33, 0, 1]) 1 [0, 1, 2, 3]) (fun t =>
        (List.range 4).map (t.me.vread 1) == [0x0708080808080808, 0x08080808083B2011, 0x1F003F1F001F2308, 0x08080808083B2011]),
     runs (.bcast g1 .w16 (.v 1) (rv 2) (rv 3)) (setP (setV (setV bare 2 codes) 3 [4, 4, 5, 0]) 1 [0, 1, 2, 3]) (fun t =>
        (List.range 4).map (t.me.vread 1) == [0x2011201120112011, 0x2011201120112011, 0x083B083B083B083B, 0x2308230823082308])].all id
      = true := by decide

/-- The reductions of 12: sub-elements apart, a NaN at the head of a scan, an empty reduction. -/
theorem test_reductions :
    [runs (.lreduce g1 .max .f32 (.s 6) (rv 2)) (setP (setV bare 2 [0xBEC000003F800000, 0x8000000040100000, 0x3F8000003F800000, 0x3F8000003F800000]) 1 [0, 1, 2, 3])
        (fun t => t.me.sread 6 == 0x3F80000040100000),
     quad (.lscan g1 .max .f32 (.v 1) (rv 2)) [0x40F000007FC00000, 0x3F8000003F800000, 0x3F8000003F800000, 0x3F6000003F800000]
        [0x40F000007FC00000, 0x40F000003F800000, 0x40F000003F800000, 0x40F000003F800000],
     runs (.lreduce ⟨false, 4⟩ .min .int32 (.s 7) (rv 1)) bare (fun t => t.me.sread 7 == 0x7FFFFFFF7FFFFFFF && t.me.flags == FLAG.empty),
     quad (.lscan g1 .add .int64 (.v 1) (rv 2)) [1, 2, 3, 4] [1, 3, 6, 10]].all id = true := by decide

/-- Votes, by hand from 11 R174, R175: `p1` true in lanes 0 to 3, the vote on `p2` in lanes 1 and 3. -/
theorem test_votes :
    (let s := setP (setP bare 1 [0, 1, 2, 3]) 2 [1, 3];
      [runs (.vote g1 .some 3 false 2 (.s 1)) s (fun t => t.me.sread 1 == 0x8402 && (t.me.thr 0).pred 3 && !(t.me.thr 4).pred 3),
       runs (.vote g1 .every 3 false 2 (.s 1)) s (fun t => t.me.sread 1 == 0x0402 && !(t.me.thr 1).pred 3),
       runs (.vote g1 .split 3 true 2 (.v 1)) s (fun t => t.me.vread 1 3 == 0x8402 && t.me.vread 1 4 == 0),
       runs (.vote ⟨false, 4⟩ .none 3 false 2 (.s 1)) s (fun t => t.me.sread 1 == 0x8000 && t.me.flags == FLAG.empty),
       runs (.ballot g1 .mask false 2 (.s 1)) s (fun t => t.me.sread 1 == 0xA),
       runs (.ballot g1 .rank false 2 (.v 1)) s (fun t => (List.range 4).map (t.me.vread 1) == [0, 0, 1, 1]),
       runs (.ballot g1 .count true 2 (.s 1)) s (fun t => t.me.sread 1 == 2),
       runs (.ballot g1 .first false 2 (.s 1)) s (fun t => t.me.sread 1 == 1)].all id) = true := by decide

/-- Compares, `PSET`, `PMOV` and a paired word, by hand from 09 R117, R125 to R128 and 11 R154 to R157. -/
theorem test_predicates_and_pairs :
    (let s := setP (setV (setV bare 2 [1, 5]) 3 [2, 4]) 1 [0, 1];
      [runs (.icmp g1 .w64 false .lt ⟨.set, 3, 4⟩ (rv 2) (rv 3)) s (fun t => (t.me.thr 0).pred 3 && !(t.me.thr 0).pred 4 && !(t.me.thr 1).pred 3
          && (t.me.thr 1).pred 4 && !(t.me.thr 2).pred 4),
       runs (.icmpImm g1 .w64 false .eq ⟨.fill, 3, 4⟩ (rv 2) 1) s (fun t => (t.me.thr 0).pred 3 && !(t.me.thr 1).pred 3 && (t.me.thr 2).pred 4),
       runs (.icmpImm g1 .w64 false .eq ⟨.flip, 1, 7⟩ (rv 2) 1) s (fun t => !(t.me.thr 0).pred 1 && (t.me.thr 1).pred 1),
       runs (.fcmp g1 .f32x2 .ne ⟨.set, 3, 7⟩ (rv 4) (rv 4)) (setV s 4 [0x7FC000007FC00000]) (fun t => (t.me.thr 0).pred 3 && !(t.me.thr 1).pred 3
          && t.me.flags == 0),
       runs (.fcmpImm g1 .f32x2 .lt ⟨.conj, 3, 7⟩ (rv 4) 0) (setV s 4 [0x7FC000007FC00000]) (fun t => !(t.me.thr 0).pred 3
          && t.me.flags == FLAG.invalid),
       runs (.pset g1 3 1 2 0b0110) s (fun t => (t.me.thr 0).pred 3 && !(t.me.thr 2).pred 3),
       runs (.pmov g1 (.tov (.v 1))) s (fun t => t.me.vread 1 0 == 0x82),
       runs (.pmov g1 (.top (rv 2))) s (fun t => (t.me.thr 1).pred 0 && !(t.me.thr 1).pred 1 && (t.me.thr 1).pred 2),
       runs (.pairedWord (.op ⟨.iadd .w64 false, 0, 2, 3, false, false, false, false⟩) (.op ⟨.mov, 1, 0, 1, false, false, false, false⟩))
          (setV s 65 [9]) (fun t => t.me.vread 2 0 == 3 && t.me.vread 2 1 == 9 && t.me.vread 64 0 == 9),
       runs (.pairedWord (.op ⟨.and, 2, 2, 3, false, false, false, false⟩) (.op ⟨.mov, 2, 0, 1, false, false, false, false⟩)) s
          (fun t => t.me.status == .parked .trap)].all id) = true := by decide

/-! ## Control, synchronisation and system instructions -/

/-- PCs, as offsets from 0x1000, of some lanes. -/
def pcs (t : State) (ls : List Nat) : List Word := ls.map fun l => (t.me.thr l).pc - 0x1000

/-- Control, from 13 R182 to R186 and the words of 14's Program 2: a branch splits the group and lane 0's subset stays current, a
thread that reaches its `MEET` is held, all held threads release the lowest address, `YIELD` rotates. -/
theorem test_control :
    [runs (.bra g2 12) (setP bare 2 (List.range' 16 16)) (fun t => pcs t [0, 15, 16, 31] == [8, 8, 0x60, 0x60] && t.me.cur == 0x1008),
     runs (.bra al 0xFFFFFFFF7) bare (fun t => t.me.cur == 0xFB8),
     runs (.bra g1 2) (upd (setP bare 1 (List.range 8)) fun g => g.mapThr fun _ t => { t with meet := 0x1010 })
        (fun t => (t.me.thr 0).held && !(t.me.thr 8).held && t.me.cur == 0x1008),
     runs (.nop al) (upd bare fun g => g.mapThr fun l t => if l < 4 then { t with meet := 0x1008 } else { t with pc := 0x1100, held := true })
        (fun t => t.me.cur == 0x1008 && !(t.me.thr 0).held && (t.me.thr 9).held),
     runs (.setmeet al 15) bare (fun t => (t.me.thr 7).meet == 0x1078), runs (.setmeetToken al (.v 2)) (setV bare 2 [5, 6]) (fun t =>
        (t.me.thr 1).meet == 6),
     runs (.savemeet g1 (.v 9)) (setP bare 1 [3]) (fun t => t.me.vread 9 3 == 0xFFFFFFFFFFFFFFFF && t.me.vread 9 4 == 0),
     runs (.call al (.s 3) 4) bare (fun t => t.me.sread 3 == 0x1008 && t.me.cur == 0x1020),
     runs (.brx al (.s 3)) (setS bare 3 0x2000) (fun t => t.me.cur == 0x2000),
     runs (.ret al (.s 3)) (setS bare 3 0x2004) (fun t => t.me.status == .parked (.fault []) && t.me.cur == 0x1000),
     runs (.yield al) (upd bare fun g => g.mapThr fun l t => if l < 4 then t else { t with pc := 0x1100 }) (fun t => t.me.cur == 0x1100),
     runs (.exit g1) (setP bare 1 [0]) (fun t => (t.me.thr 0).exited && !(t.me.thr 1).exited && t.me.status == .running),
     runs (.exit al) bare (fun t => t.me.status == .ended)].all id = true := by decide

/-- Two entries of 14's `WAITANY` fragment: copy tag 5 at W + 96 and mailbox 3 at W + 128. -/
def waiting : State := setS bare 8 0xC30000108500000C

/-- `WAITANY`, `EVREAD` and `EVMASK`: the cases of 14 and 13 R207 to R209. -/
theorem test_events :
    [runs (.waitany al (.s 20) (.s 8) 2) (upd waiting fun g => { g with evpend := 2 ^ 69 }) (fun t => t.me.sread 20 == 0 && t.me.evpend == 0
        && t.me.cur == 0x1060),
     runs (.waitany al (.s 20) (.s 8) 2) (upd waiting fun g => { g with evpend := 2 ^ 27 + 4 }) (fun t => t.me.sread 20 == 1 && t.me.evpend == 4
        && t.me.cur == 0x1080),
     runs (.waitany al (.s 20) (.s 8) 2) (upd waiting fun g => { g with evpend := 2 ^ 27, evmask := 2 ^ 27 }) (fun t => t.me.evpend == 2 ^ 27
        && t.me.status == .blocked (.any (.s 20) (List.range 32) [⟨69, 0x1060⟩, ⟨27, 0x1080⟩])),
     runs (.evread al false true true (.s 1)) (upd bare fun g => { g with evpend := 2 ^ 69 + 3 }) (fun t => t.me.sread 1 == 32 && t.me.evpend == 3),
     runs (.evread al true false false (.s 1)) (upd bare fun g => { g with evmask := 9 }) (fun t => t.me.sread 1 == 9),
     runs (.evmask al .wr false (.s 2)) (setS bare 2 0xFFFFFFFFFFFFFFFF) (fun t => t.me.evmask == 2 ^ 56 - 1),
     runs (.evmask al .clr true (.s 2)) (upd (setS bare 2 1) fun g => { g with evmask := 2 ^ 64 + 2 ^ 65 }) (fun t => t.me.evmask == 2 ^ 65),
     runs (.evmask al .set false (.s 2)) (upd (setS bare 2 1) fun g => { g with evmask := 2 }) (fun t => t.me.evmask == 3)].all id = true := by
  decide

/-- A team of two groups, the other one waiting at barrier 2. -/
def pairTeam : State :=
  let s := bare.setTeam 1 { bare.myTeam with size := 2, bars := [(2, ⟨1, 2, true, false⟩)], rings := [⟨256, 0, [false, true], [true, true], [false, false]⟩] }
  s.setGrp 33 { bareGroup .vector with index := 1, status := .blocked (.bar 2 false) }

/-- Barriers, mailboxes and rings, from 13 R202 to R212. -/
theorem test_synchronisation :
    [runs (.bar al false 0 2) pairTeam (fun t => t.me.status == .running && (t.grp 33).status == .running && (t.grp 33).cur == 0x1008
        && (t.grp 33).evpend == 4 && (kget Barrier.start (t.team 1).bars 2).phase),
     runs (.bar al false 0 3) pairTeam (fun t => t.me.status == .blocked (.bar 3 false)),
     runs (.bar al true 3 2) pairTeam (fun t => t.me.status == .running && (t.grp 33).status == .blocked (.bar 2 false)),
     runs (.cbar al true 1 7) pairTeam (fun t => t.me.evpend == 2 ^ 23 && (t.grp 33).evpend == 2 ^ 23),
     runs (.cbar al false 2 7) pairTeam (fun t => t.me.status == .blocked (.cbar 7 false)),
     runs (.mbsend al 3 (.s 1) (.s 2)) (setS (setS bare 1 (5 * 8)) 2 77) (fun t => kget Mailbox.free (t.core 0).mbox 5 == ⟨1, [77]⟩ && (t.me.thr 4).pred 3
        && t.me.evpend == 2 ^ 29),
     runs (.mbsend al 3 (.s 1) (.s 2)) ((setS bare 1 (5 * 8)).setCore 0 { Core.fresh with mbox := [(5, ⟨9, [1]⟩)] }) (fun t => !(t.me.thr 4).pred 3),
     runs (.mbrecv al 3 (.s 2) (.s 1)) ((setS bare 1 5).setCore 0 { Core.fresh with mbox := [(5, ⟨1, [6, 7]⟩)] }) (fun t => t.me.sread 2 == 6
        && (t.me.thr 0).pred 3 && (t.core 0).mbox == [(5, ⟨1, [7]⟩)]),
     runs (.ringwait al 0 (.imm 1 true)) pairTeam (fun t => t.me.cur == 0x1008), runs (.ringwait al 0 (.it (.s 4))) (setS pairTeam 4 2) (fun t =>
        t.me.status == .running), runs (.ringwait al 0 (.it (.s 4))) pairTeam (fun t => t.me.status == .blocked (.ring 0 0 true)),
     runs (.ringwait al 1 (.imm 0 true)) pairTeam (fun t => t.me.status == .parked .trap),
     runs (.ringrel al 0 (.imm 1)) pairTeam (fun t => (t.team 1).rings.map Ring.full == [[true, false]] && t.me.cur == 0x1008)].all id = true := by decide

/-- Growth and system instructions, from 13 R213 to R220. -/
theorem test_system :
    [runs (.regshrink al 2) bare (fun t => t.me.gran == 18),
     runs (.regshrink al 20) bare (fun t => t.me.status == .parked .trap),
     runs (.reggrow al 1) bare (fun t => t.me.status == .parked .trap),
     runs (.reggrow al 3) (upd bare fun g => { g with gran := 4 }) (fun t => t.me.gran == 7 && t.me.vread 64 0 == poison && t.me.vread 111 31 == poison
        && t.me.cur == 0x1008),
     runs (.accgrow al 1) (bareAs .vector) (fun t => t.me.status == .parked .trap),
     runs (.accgrow al 1) ((bareAs .matrix).setTeam 1 { (bareAs .matrix).myTeam with halves := 1 }) (fun t => (t.team 1).halves == 2),
     runs (.clock al false (.s 1)) { bare with time := { bare.time with master := 99 } } (fun t => t.me.sread 1 == 99),
     runs (.clock al true (.s 1)) (bare.setCore 0 { Core.fresh with cycles := 12 }) (fun t => t.me.sread 1 == 12),
     runs (.sysrd al (.s 1) .ident) (upd bare fun g => { g with core := 13, slot := 3, index := 2 }) (fun t => t.me.sread 1 == 0x0D0D0302),
     runs (.sysrd al (.s 1) .regalloc) bare (fun t => t.me.sread 1 == 20),
     runs (.syswr al .amax (.s 1)) (setS bare 1 0xBF800000) (fun t => t.me.amax == 0x3F800000),
     runs (.syswr al .amax (.s 1)) (setS bare 1 0xFFC00000) (fun t => t.me.amax == 0),
     runs (.syswr al .flagen (.s 1)) (setS bare 1 0xFFFFFFFFFFFFFFFF) (fun t => t.me.flagen == 0x7F),
     runs (.syswr al .ident (.s 1)) (setS bare 1 5) (fun t => t.me.cur == 0x1008 && t.me.core == 0),
     runs (.syswr al .sidebase (.s 1)) (setS bare 1 0x10000) (fun t => t.me.status == .parked .trap),
     runs (.valid al (.bit 63)) bare (fun t => (t.grid 1).vheld == 0x8000000000000000),
     runs (.valid al (.reg (.s 1))) (setS bare 1 6) (fun t => (t.grid 1).vheld == 6),
     runs (.trap al (.s 2) (.s 1) .zero 7) (setS bare 1 6) (fun t => t.me.status == .parked (.call (.s 2) (List.range 32))),
     runs (.done al false) pairTeam (fun t => t.me.status == .ended && (t.grp 33).status == .ended),
     runs (.tfence al) (upd bare fun g => { g with flags := 4, flagen := 4 }) (fun t => t.me.status == .parked .trap),
     runs (.ofence al) (upd bare fun g => { g with pending := [⟨.v 1, 0, 5, BitVec.allOnes 64, 9⟩] }) (fun t => t.me.vread 1 0 == 5 && t.me.pending == []),
     runs (.reservedInstructionWord 0x7000000000000000) bare (fun t => t.me.status == .parked .trap),
     runs (.nop al) (upd bare fun g => { g with status := .ended }) (fun t => t.me.cur == 0x1000)].all id = true := by decide

/-- A trap with an entry point: 21 R299, R300. `s62` holds the cause word, `s63` the address, and issue goes to the entry. -/
theorem test_trap_entry :
    runs (.reggrow al 1) (bare.setGrid 1 { bare.myGrid with pkt := { Packet.empty with trap := 0x3000 } }) (fun t => t.me.sread 62 == 0x205
      && t.me.sread 63 == 0x1000 && t.me.cur == 0x3000 && t.me.status == .running) = true := by decide

/-! ## Memory, matrix and engine instructions -/

/-- The demonstration package, with its group of a role in focus. -/
def onDemo (role : Nat) : State := { State.reset.demo role with focus := 32 }

/-- Scratchpad bytes of core 0 from `a` on. -/
def setSp (s : State) (a : Nat) (bs : List Byte) : State := s.setBytes (spKey 0 a) bs
def sp (s : State) (a n : Nat) : List Byte := (List.range n).map fun i => s.byte (spKey 0 (a + i))

/-- Scratchpad accesses, from 13 R187 to R191: zero-extension, the order of the lanes of a store, an atomic's old value, a
misaligned lane alone left to execute again. -/
theorem test_scratchpad_accesses :
    (let s := setP (setSp bare 0x100 [0x11, 0x82, 0x33, 0x44, 0xFF, 0xFF, 0xFF, 0xFF]) 1 [0, 1];
      [runs (.ld g1 .sp .b16 false .core 0 (.v 1) (rs 2) (rv 3) 1) (setV (setS s 2 0xFE) 3 [0, 2]) (fun t => t.me.vread 1 0 == 0x8211
          && t.me.vread 1 1 == 0x4433 && t.me.vread 1 2 == 0 && t.me.cur == 0x1008),
       runs (.ld g1 .sp .b16 false .core 2 (.v 1) (rs 2) (rv 3) 1) (setV (setS s 2 0xFE) 3 [0, 2]) (fun t => t.me.vread 1 0 == 0
          && t.me.closeWindows.vread 1 0 == 0x8211),
       runs (.ld g1 .sp .b32 false .core 0 (.v 1) (rv 3) rz 0) (setV s 3 [0x100, 0x102]) (fun t => t.me.vread 1 0 == 0x44338211
          && t.me.replay == some [1] && t.me.status == .parked (.fault []) && t.me.cur == 0x1000),
       runs (.ld g1 .sp .b8 false .core 0 (.v 1) (rs 2) rz 0) (setS s 2 0x10000) (fun t => t.me.status == .parked (.fault [])),
       runs (.st g1 .sp .b32 false .core (rs 2) (rv 3) 0x7FF) (setV (setS s 2 0x104) 3 [0xAABBCCDD, 0x01020304]) (fun t => sp t 0x100 8
          == [4, 3, 2, 1, 0xFF, 0xFF, 0xFF, 0xFF]),
       runs (.atom g1 .add .ar .sp .b32 .core 0 (.v 1) (rs 2) (rv 3) 0) (setV (setS s 2 0x104) 3 [1, 5]) (fun t => t.me.vread 1 0 == 0xFFFFFFFF
          && t.me.vread 1 1 == 0 && sp t 0x104 4 == [5, 0, 0, 0]),
       runs (.atom g1 .max .plain .sp .b32 .core 0 (.v 1) (rs 2) (rv 3) 0) (setV (setS s 2 0x104) 3 [7, 3]) (fun t => sp t 0x104 4 == [7, 0, 0, 0]
          && t.me.vread 1 1 == 7),
       runs (.atom g1 .fadd .plain .sp .b32 .core 0 (.v 1) (rs 2) (rv 3) 1) (setV (setS s 2 0x104) 3 [0x3F800000, 0x40000000])
          (fun t => sp t 0x108 4 == [0, 0, 0x40, 0x40]),
       runs (.cas g1 .plain .sp .b64 .core 0 (.v 1) (rs 2) (rv 3) 0) (setV (setV (setS s 2 0x108) 1 [0, 9]) 3 [9, 4]) (fun t => t.me.vread 1 0 == 0
          && t.me.vread 1 1 == 9 && sp t 0x108 2 == [4, 0]),
       runs (.prefG g1 .core (rs 2) rz 0) s (fun t => t.me.cur == 0x1008), runs (.fenceAr g1 .sys) s (fun t => t.me.cur == 0x1008),
       runs (.prefT g1 .core (rs 2) (rs 4) 0) s (fun t => t.me.cur == 0x1008), runs (.afence g1 (rs 2) (rs 4)) s (fun t => t.me.cur == 0x1008),
       runs (.fenceAcq g1 .core) s (fun t => t.me.cur == 0x1008), runs (.fenceRel g1 .core) s (fun t => t.me.cur == 0x1008)].all id) = true := by decide

/-- Accesses through translation: an identity mapping reads back what a store left; an unmapped address faults with reason 1. -/
theorem test_global_accesses :
    [runs (.st g1 .g .b64 false .core (rs 2) (rs 3) 1) (setS (setS (setP (onDemo 0) 1 [4]) 2 0x900000) 3 0x1122334455667788)
        (fun t => (List.range 8).map (fun i => t.byte (0x900008 + i)) == [0x88, 0x77, 0x66, 0x55, 0x44, 0x33, 0x22, 0x11]),
     runs (.ld g1 .g .b64 false .core 0 (.v 1) (rs 2) rz 0) (setS (setP (onDemo 0) 1 [4]) 2 0x100000) (fun t => t.me.vread 1 4 == 0x101001),
     runs (.ld g1 .g .b64 false .core 0 (.v 1) (rs 2) rz 0) (setS (setP (onDemo 0) 1 [4]) 2 0x10000000000000)
        (fun t => t.byte 0x400041 == 1 && t.me.status == .parked (.fault []) && t.card.irqst == 2)].all id = true := by decide

/-- The five-symbol table image of 06. -/
def imageBytes : List Byte := [0, 0, 1, 0, 1, 0, 1, 0, 2, 0] ++ List.replicate 16 0 ++ [0, 0, 2, 0, 10, 0, 4, 0, 12, 0]

def fiveSymbols : CodeTable := ⟨0, [1, 1, 1, 2, 0, 0, 0, 0, 0, 0, 0, 0], [0, 2, 10, 4, 12]⟩

/-- `CTLD` and `CTST` of that image: 06, and its two refused variants. -/
theorem test_code_tables :
    (let s := setS (setSp (bareAs .matrix) 0x40 imageBytes) 11 0x40;
      [runs (.ctld al true 3 (.s 11)) s (fun t => (t.team 1).table 3 == some fiveSymbols),
       runs (.ctld al true 3 (.s 11)) (setSp s 0x48 [1]) (fun t => (t.team 1).table 3 == none && t.me.status == .parked (.fault [])),
       runs (.ctst al true 3 (.s 4) (.s 11)) s (fun t => t.me.sread 4 == 0),
       runs (.ctst al true 3 (.s 4) (.s 12)) ((setS s 12 0x80).setTeam 1 { s.myTeam with ct := [(3, some fiveSymbols)] }) (fun t => t.me.sread 4 == 36
          && sp t 0x80 36 == imageBytes)].all id) = true := by decide

/-- The record of 06 with its 256 elements. -/
theorem test_encode_record :
    (encodeRecord .e2m1 (some fiveSymbols) 3 (List.replicate 8 0x7F) ([2, 10, 4, 12] ++ List.replicate 252 0)
      == (48, leNat ([0xC1, 0x48, 8, 0, 0x7F, 0x7F, 0x7F, 0x7F, 0x7F, 0x7F, 0x7F, 0x7F, 0xED, 0x1E] : List Byte))) = true := by decide

set_option exponentiation.threshold 1000 in
/-- The same record read back, and its three broken variants of 06. -/
theorem test_parse_record :
    (let rec_ (head : Nat) (last : Byte) : Nat := head + 2 ^ 32 * leNat (List.replicate 8 (0x7F#8)) + 2 ^ 96 * 0x1EED + 2 ^ 376 * last.toNat
      let read (r : Nat) := parseRecord .e2m1 0 false (fun n => if n = 3 then some fiveSymbols else none) 48 r
      (match read (rec_ 0x000848C1 0) with
        | .ok r => r.els == [2, 10, 4, 12] ++ List.replicate 252 0
        | .error _ => false)
        && [read (rec_ (264 * 2048 + 0xC1) 0), read (rec_ (266 * 2048 + 0xC1) 0), read (rec_ 0x000848C1 1)].map
          (fun r => match r with
            | .ok _ => (0, 0, 0)
            | .error e => (e.reason, e.area, e.offset)) == [(8, 3, 264), (9, 3, 265), (10, 4, 280)]) = true := by decide

/-- What follows an instruction. -/
def after (i : Instr) (s : State) : State :=
  match exec i s with
  | .next t => t
  | .fault _ => s
  | .refused _ => s

/-- A matrix group whose `s4` addresses elements 0 and 1 of lane 0 and so on by 16, with some elements of half 0. -/
def accState (xs : List (BitVec 32)) : State :=
  let s := setP (setS (bareAs .matrix) 4 0x0000000100100000) 1 [0, 1]
  s.setTeam 1 { s.myTeam with acc := xs.zipIdx.foldl (fun m e => kset 0x7FF85A5A m e.2 e.1) [] }

/-- Element e of half 0 of a team of one core. -/
def accAt (t : State) (e : Nat) : BitVec 32 := kget 0x7FF85A5A (t.team 1).acc e

/-- Accumulator transfers, from 15 R223, R226, R238 and R239. -/
theorem test_accumulator :
    [runs (.accz g1 (.s 4)) (accState [1, 2, 3]) (fun t => accAt t 0 == 0 && accAt t 1 == 0 && accAt t 2 == 3 && accAt t 16 == 0 && accAt t 17 == 0
        && accAt t 32 == 0x7FF85A5A),
     runs (.accld g1 true (.v 1) (.s 4)) (accState [5, 6]) (fun t => t.me.vread 1 0 == 0x0000000600000005 && t.me.vread 1 1 == 0x7FF85A5A7FF85A5A),
     runs (.accld g1 false (.v 2) (.s 4)) (setV (accState []) 2 [0x0000000900000008]) (fun t => accAt t 0 == 8 && accAt t 1 == 9),
     runs (.accst g1 .bf16 false false .rn (.v 1) (.s 4)) (setV (accState [0x3F808000, 0x40000000]) 1 [0xAAAABBBBCCCCDDDD])
        (fun t => t.me.vread 1 0 == 0xAAAABBBB40003F80 && t.me.flags == 0x10),
     runs (.accst g1 .int8 true true .rn (.v 1) (.s 4)) (accState [300, 0xFFFFFFFF]) (fun t => t.me.vread 1 0 == 0xFF7F && t.me.satcnt == 3),
     runs (.accscl g1 (.s 4) (.s 5)) (setS (accState [0x40400000, 0x7FC00000]) 5 0x3F000000) (fun t => accAt t 0 == 0x3FC00000 && accAt t 1 == 0x7FC00000),
     runs (.accz g1 (.s 5)) (setS (accState []) 5 0x00000001_20000000) (fun t => t.me.status == .parked .trap),
     runs (.gangset al false (.s 5)) (setS (bareAs .matrix) 5 0x100000000) (fun t => t.me.status == .parked .trap),
     runs (.gangset al false .zero) (upd (bareAs .matrix) fun g => { g with gang := 1, latch := some ⟨.e2m1, false, []⟩ }) (fun t =>
        t.me.gang == 0 && t.me.latch == none && t.me.cur == 0x1008),
     runs (.mmaw al) (bareAs .matrix) (fun t => t.me.cur == 0x1008)].all id = true := by decide

/-- A constant INT4 record of twos at scratchpad offset 0, A rows of twos in lane 0, and a format word of INT4 by INT4 with INT32 sums,
placed by an `OFENCE`. -/
def mmaStart : State :=
  after (.ofence al) <| setS (setS (setV (setSp (accState []) 0 ([6, 0x20, 0, 0] ++ List.replicate 8 0x7F ++ [2, 0, 0, 0])) 20 [0x2222222222222222]) 3 0x2011) 7 1

/-- The `MMA` under the guard of lane 0 alone waits at the latch. -/
theorem test_mma_arrives : runs (.mma g2 .z false false 0 .zero (.v 20) (.s 6) (.s 3)) (setP mmaStart 2 [0]) (fun t =>
    t.me.arrival.isSome && t.me.cur == 0x1008 && (t.team 1).ops == []) = true := by decide

/-- The same `MMA` once accepted. -/
def mmaAccepted : State := after (.jointMma 32) (after (.mma g2 .z false true 0 .zero (.v 20) (.s 6) (.s 3)) (setP mmaStart 2 [0]))

set_option exponentiation.threshold 2000 in
/-- Accepted, committed and waited for, it leaves 16 products of 2 and 2 in elements 0 to 15 of the active lane's row (15 R233). -/
theorem test_mma_commit : runs (.mmaw al) (after (.mmaCommit 1 0) mmaAccepted) (fun t => (List.range 17).map (accAt t) == List.replicate 16 64 ++ [0x7FF85A5A]
    && t.me.cur == 0x1018 && t.me.latch.isSome && t.me.flags == 0) = true := by decide

/-- `DEC.bsp` with a reserved format, a reserved bit, or an unaligned offset: the illegal-operand trap (15 R246); places of elements of
a tile image (13 R193). -/
theorem test_dec :
    [runs (.dec al .f16 false false 0 (.v 1) (.s 6) (.s 7)) (setS mmaStart 7 11) (fun t => t.me.status == .parked .trap),
     runs (.dec al .f16 false false 0 (.v 1) (.s 6) (.s 7)) (setS mmaStart 7 0x80) (fun t => t.me.status == .parked .trap),
     runs (.dec al .f16 false false 0 (.v 1) (.s 6) (.s 7)) (setS mmaStart 6 8) (fun t => t.me.status == .parked .trap),
     runs (.dec al .f16 false false 0 (.v 1) (.s 6) (.s 7)) bare (fun t => t.me.status == .parked .trap),
     laneImage .f16 false [(5, 0x1234), (133, 0x5678)] 0 1 == (0x12340000, 0xFFFF0000),
     laneImage .f16 false [(5, 0x1234), (133, 0x5678)] 1 1 == (0x56780000, 0xFFFF0000),
     laneImage .e2m1 true [(15, 9)] 0 16 == (0x9000000000000000, 0xF000000000000000)].all id = true := by decide

set_option exponentiation.threshold 2000 in
/-- `ENC.e2m1` of zeros: a constant record of 16 bytes (05 R81, 15 R247). -/
theorem test_enc : runs (.enc al .e2m1 3 0 (.s 9) (.v 100) (.s 6) (.s 7)) (setS (bareAs .matrix) 7 0x7F7F7F7F7F7F7F7F) (fun t => t.me.sread 9 == 16
    && sp t 0 16 == [2, 0x20, 0, 0] ++ List.replicate 8 0x7F ++ [0, 0, 0, 0]) = true := by decide

/-- A feeder with `CPY.ch.sp` operands and a status address of 0. -/
def feeder : State :=
  let s := setS (setS (setS (bareAs .feeder) 4 0x100) 5 0x20) 6 16
  (setSp s 0x20 [1, 2, 3, 4]).setPart 0 { Partition.absent with live := true, cwbase := 0, cwsize := 1 }

/-- `CPY` queues a job and goes on; a vector group may not issue it; a bad control word traps (17 R249 to R251). -/
theorem test_cpy :
    [runs (.cpy al .ch .sp .zero (.s 4) (.s 5) (.s 6)) feeder (fun t => (t.job 1).live && (t.job 1).phase == .queued && t.me.cur == 0x1008),
     runs (.cpy al .ch .sp .zero (.s 4) (.s 5) (.s 6)) bare (fun t => t.me.status == .parked .trap),
     runs (.cpy al .ch .sp (.s 8) (.s 4) (.s 5) (.s 6)) (setS feeder 8 1) (fun t => t.me.status == .parked .trap),
     runs (.kvsend al .zero (.s 4) (.s 5) (.s 6)) bare (fun t => t.me.status == .parked .trap)].all id = true := by decide

/-- The job starts, its one chunk copies the bytes, and it retires (17 R253, R255). -/
theorem test_cpy_job :
    (let q := after (.cpy al .ch .sp .zero (.s 4) (.s 5) (.s 6)) feeder
      let r := after (.jobStart 0) q
      let d := after (.chunkCompletion 1) r
      (r.job 1).phase == .running && (List.range 4).map (fun i => d.byte (chKey (0x100 + i))) == [1, 2, 3, 4] && (d.job 1).phase == .finished
        && runs (.jobRetirement 1) d (fun t => !(t.job 1).live)) = true := by decide

/-! ## Events of the package -/

/-- The card's registers, time and power, from 25 R340, R350, R353 to R355 and 19 R266. -/
theorem test_card_and_time :
    [runs (.irqstWrite 0xFFFFFFFFFFFFFFF5) { bare with card := { bare.card with irqst := 7 } } (fun t => t.card.irqst == 2),
     runs (.registerWrite 0x20 0x1F) bare (fun t => t.card.irqen == 15), runs (.registerWrite 0x28 0x1F) bare (fun t => t == bare),
     runs (.mqbaseWrite 0x300004) bare (fun t => t.card.mqbase == 0x300004), runs (.mqbaseWrite 0x300003) bare (fun t => t.card.mqbase == 0),
     runs (.mqbaseWrite 0x300004) { bare with boot := { bare.boot with step := 3 } } (fun t => t.card.mqbase == 0),
     runs (.managementDoorbell 0) ({ bare with card := { bare.card with mqbase := 0x300004, link := true } }.setBytes 0x300000 [9]) (fun t => t.card.mqlimit == 9),
     runs (.managementDoorbell 4) ({ bare with card := { bare.card with mqbase := 0x300004, link := true } }.setBytes 0x300000 [9]) (fun t => t.card.mqlimit == 0),
     runs (.normalSubmissionDoorbell 1) ((onDemo 0).setBytes 0x600000 [5]) (fun t => (t.part 0).nlimit == 5 && (t.part 0).plimit == 0),
     runs (.privilegedSubmissionDoorbell 2) ((onDemo 0).setBytes 0x700000 [5]) (fun t => (t.part 0).plimit == 5),
     runs (.privilegedSubmissionDoorbell 0x10002) ((onDemo 0).setBytes 0x700000 [5]) (fun t => t == (onDemo 0).setBytes 0x700000 [5]),
     runs (.reservedQueueDoorbell 3) bare (fun t => t == bare),
     runs (.timeMessage 500) { bare with card := { bare.card with link := true }, time := { bare.time with source := .ieee1588, master := 9 } }
        (fun t => t.time.master == 500 && t.time.locked), runs (.timeMessage 500) bare (fun t => t.time.master == 0),
     runs .ppsPulse { bare with time := { bare.time with source := .pps, ppsFirst := true, ppsNext := 1000 } } (fun t => t.time.master == 1000
        && t.time.ppsNext == 1000001000), runs .ppsUnlock { bare with time := { bare.time with source := .pps, locked := true, ppsLast := 1, master := 3000000001 } }
        (fun t => !t.time.locked), runs .linkDown (onDemo 0) (fun t => !t.card.link && t.card.irqst == 8),
     runs (.linkTraining true) State.reset (fun t => t.card.link && t.boot.step == 2), runs (.linkTraining false) State.reset (fun t => !t.card.link),
     runs (.fabricPathDown 15) bare (fun t => t.portsDown == 0x8000), runs (.powerWindow true) bare (fun t => t.counter 0x23 0 == 1),
     runs .junctionLimit bare (fun t => t.power.hot && t.registerRead 0 8 == 0x102 && t.registerRead 0 4 == 0),
     runs .junctionBelowLimit { bare with power := { bare.power with hot := true } } (fun t => !t.power.hot),
     runs .thermalTrip (onDemo 0) (fun t => t.boot.step == 1 && !t.card.link && t.groups == []), runs .powerGood (onDemo 0) (fun t => t.boot.step == 1)].all
      id = true := by decide

/-- The status byte that the device leaves in the entry of a management command. -/
def mgmtStatus (w : Nat) (f : State → State) (g : State → Bool) : Nat × Bool :=
  let s := f (State.reset.demoMgmt w)
  match exec (decodeMgmt w) s with
  | .next t => ((t.byte 0x300041).toNat, g t)
  | .fault _ => (0, false)
  | .refused _ => (0, false)

/-- Management commands, from 25 R341, R342, R356 and R358. -/
theorem test_management :
    [mgmtStatus (0x0C + 1500 * 2 ^ 64) id (fun t => t.power.cap == 1500 && t.card.irqst == 1 && t.card.mqcons == 1),
     mgmtStatus (0x0C + 1499 * 2 ^ 64) id (fun t => t.power.cap == 2800), mgmtStatus 0x14 id (fun _ => true),
     mgmtStatus (0x0001000D + 5 * 2 ^ 64) id (fun _ => true), mgmtStatus (0x0D + 5 * 2 ^ 64) id (fun t => (t.part 0).toff == 0),
     mgmtStatus (0x0A + 4095 * 2 ^ 64 + 7 * 2 ^ 128) id (fun t => kget 0 (t.part 0).handles 4095 == 7),
     mgmtStatus (0x0A + 4096 * 2 ^ 64 + 7 * 2 ^ 128) id (fun t => kget 0 (t.part 0).handles 0 == 7),
     mgmtStatus (0x0E + 3 * 2 ^ 64) id (fun t => t.time.source == .oscillator), mgmtStatus (0x0E + 2 ^ 64) id (fun t => t.time.source == .ieee1588),
     mgmtStatus (0x10 + 0x1234 * 2 ^ 64) id (fun t => t.boot.fid == 0x1234 && t.boot.step == 3),
     mgmtStatus (0x10 + 0x1234 * 2 ^ 64) (fun s => { s with boot := { s.boot with step := 6 } }) (fun t => t.boot.fid == 0),
     mgmtStatus 0x13 id (fun t => t.boot.step == 6), mgmtStatus (0x09 + 0x23 * 2 ^ 64 + 2 ^ 192) (fun s => s.addCounter 0x23 0 3) (fun _ => true),
     mgmtStatus (0x09 + 0x24 * 2 ^ 64) id (fun _ => true), mgmtStatus (0x07 + 5 * 2 ^ 64) id (fun _ => true),
     mgmtStatus (0x03 + 2 ^ 64 + 3 * 2 ^ 192) id (fun t => t.me.status == .ended), mgmtStatus (0x03 + 2 ^ 64) id (fun _ => true)]
      = [(1, true), (3, true), (0xFF, true), (3, true), (2, true), (1, true), (1, true), (3, true), (1, true), (1, true), (2, true), (1, true),
          (1, true), (3, true), (3, true), (1, true), (2, true)] := by decide

/-- Teams, deadlines, growth, freezes and links, from 01 R12, R31, 13 R186, 19 R287, R288, R291, R293 and 21 R312. -/
theorem test_group_events :
    [runs (.loadCompletion 32 (.v 1) 1) (upd bare fun g => { g with pending := [⟨.v 1, 0, 5, BitVec.allOnes 64, 9⟩, ⟨.v 1, 1, 6, BitVec.allOnes 64, 9⟩] })
        (fun t => t.me.vread 1 0 == 5 && t.me.vread 1 1 == 0 && t.me.pending.length == 1),
     runs (.growGrant 0 false) ((upd bare fun g => { g with gran := 4, slot := 0, status := .blocked (.regGrow 2) }).setCore 0
        { Core.fresh with slots := [(0, { Bind.free with valid := true, key := 32, gran := 4 })], grow := [⟨32, false, 2⟩] }) (fun t =>
          t.me.gran == 6 && t.me.cur == 0x1008 && (t.core 0).grow == []),
     runs (.deadlineEvent 32) ((upd bare fun g => { g with status := .blocked (.bar 1 false), evpend := 6 }).setGrid 1
        { bare.myGrid with expired := true, pkt := { Packet.empty with wrap := 0x5000 } }) (fun t => t.me.cur == 0x5000 && t.me.status == .running
          && t.me.evpend == 6 && (t.me.thr 3).meet == 0xFFFFFFFFFFFFFFFF),
     runs (.deadlineEvent 32) (bare.setGrid 1 { bare.myGrid with expired := true }) (fun t => t.me.status == .ended),
     runs (.gridDeadline 1) ({ bare with time := { bare.time with master := 100 } }.setGrid 1 { bare.myGrid with deadline := 100 }) (fun t => t.me.status == .ended),
     runs (.gridDeadline 1) ({ bare with time := { bare.time with master := 99 } }.setGrid 1 { bare.myGrid with deadline := 100 }) (fun t => t.me.status == .running),
     runs (.teamRetirement 1) (after (.exit al) bare) (fun t => (t.team 1).phase == .absent && (t.link 0).up.map LinkCmd.kind == [4]),
     runs (.teamRetirement 1) bare (fun t => (t.team 1).phase == .resident),
     runs (.coreFreeze 0 1 []) bare (fun t => (t.core 0).frozen && runs (.nop al) t (fun u => u.me.cur == 0x1000)),
     runs (.migration 0) (bare.setCore 0 { Core.fresh with frozen := true, unit := 1 }) (fun t => !(t.core 0).frozen && (t.cluster 0).phys == [8, 1, 2, 3, 4, 5, 6, 7]
        && (t.link 0).up.map (fun c => (c.kind, c.arg0, c.arg1)) == [(6, 0, 0)]),
     runs (.reservedLinkCommand 3 9) (bare.setLink 3 { Link.fresh with down := [⟨9, 0, 0, 0, 0⟩] }) (fun t => (t.link 3).down == []),
     runs (.teamsRetired 3 1 1 0) (bare.setLink 3 { Link.fresh with up := [⟨4, 0, 1, 1, 0⟩] }) (fun t => (t.link 3).up == [] && (t.link 32).up.length == 1),
     runs (.place 3 1 0 2) (bare.setLink 3 { Link.fresh with down := [⟨1, 0, 1, 0, 2⟩] }) (fun t => (t.cluster 3).waiting == [⟨1, 0⟩, ⟨1, 1⟩]),
     runs (.cancelUnstartedTeams 3 1) ((bare.setLink 3 { Link.fresh with down := [⟨2, 0, 1, 0, 0⟩] }).setCluster 3 { Cluster.fresh with waiting := [⟨1, 0⟩, ⟨2, 0⟩] })
        (fun t => (t.cluster 3).waiting == [⟨2, 0⟩] && (t.link 3).up.map (fun c => (c.arg0, c.arg1)) == [(0, 1)])].all id = true := by decide

/-- The first step after a placed word runs it: a `NOP`, a reserved word, a management and a link command. -/
theorem test_first_step :
    [match step (State.reset.withFetchWord 64 0x40A7FF8000000000) with
      | .next t => (t.grp 32).cur == 0x200008
      | .fault _ => false
      | .refused _ => false,
     match step (State.reset.withFetchWord 64 0x7000000000000000) with
      | .next t => (t.grp 32).status == .parked .trap && t.byte 0x400040 == 5
      | .fault _ => false
      | .refused _ => false,
     match step (State.reset.withFetchWord 512 (0x0C + 1500 * 2 ^ 64)) with
      | .next t => t.power.cap == 1500
      | .fault _ => false
      | .refused _ => false,
     match step (State.reset.withFetchWord 256 9) with
      | .next t => (t.link 0).down == []
      | .fault _ => false
      | .refused _ => false] = [true, true, true, true] := by decide


/-- SHA3-512 (25 R352), from the published examples of FIPS 202 for the empty message and for `abc`. -/
theorem test_sha3 : (hash64 []).take 8 = [0xA6, 0x9F, 0x73, 0xCC, 0xA2, 0x3A, 0x9A, 0xC5]
    ∧ (hash64 [0x61, 0x62, 0x63]).take 8 = [0xB7, 0x51, 0x85, 0x0B, 0x1A, 0x57, 0x16, 0x8A] := by decide +kernel
/-! ## States and operands that meet the hypotheses of each statement -/

open Sys2Proof.Claims

theorem ready_of {s : State} {ops : List Opd} (h : (s.canIssue && ops.all s.me.has) = true) : s.Ready ops := by
  simp only [Bool.and_eq_true, List.all_eq_true] at h
  exact ⟨h.1, h.2⟩

theorem readyAs_of {s : State} {role : Role → Bool} {ops : List Opd} (h : (s.canIssue && ops.all s.me.has && role s.me.role) = true) :
    s.ReadyAs role ops := by
  simp only [Bool.and_eq_true] at h
  exact ⟨ready_of (by simpa using h.1), h.2⟩

/-- A package whose memory is canonical, with no LPDDR6 sector, at a step of bring-up and under a legal cap, is sound. -/
theorem sound_of {s : State} (h : (Memory.wf s.mem && s.sectors.isEmpty && s.sectorCount == 0
    && decide (1 ≤ s.boot.step ∧ s.boot.step ≤ 6 ∧ s.boot.c ≤ 3) && decide (1500 ≤ s.power.cap ∧ s.power.cap ≤ 2800)) = true) :
    s.Sound := by
  simp only [Bool.and_eq_true, decide_eq_true_eq, beq_iff_eq, List.isEmpty_iff] at h
  obtain ⟨⟨⟨⟨hm, hs⟩, hc⟩, hb⟩, hp⟩ := h
  exact ⟨hm, by intro i x hx; simp [hs] at hx, fun hne => absurd hc hne, hb, hp⟩

/-- The result of a partial operation is there. -/
def good {α β γ : Type} (r : α × Except β γ) : Bool :=
  match r.2 with
  | .ok _ => true
  | .error _ => false

abbrev lane0 : State := setP bare 1 [0]

theorem witness_IntegerArithmetic : bare.Ready [.v 319, .s 63, .zero] ∧ bare.Ready [.v 319, .v 0, .s 63, .zero] ∧ bare.Ready [.zero, .v 319]
    ∧ bare.act al ≠ [] ∧ bare.act g1 = [] := ⟨ready_of (by decide), ready_of (by decide), ready_of (by decide), by decide, by decide⟩
theorem witness_AddWithCarry : bare.Ready [.v 319, .v 0, .s 63, .zero] ∧ bare.act al ≠ [] := ⟨ready_of (by decide), by decide⟩
theorem witness_Shifts : bare.Ready [.v 319, .v 0, .s 63] ∧ bare.Ready [.s 63, .v 319] := ⟨ready_of (by decide), ready_of (by decide)⟩
theorem witness_BitFieldsLogicAndMoves : bare.Ready [.v 319, .v 0, .s 63] ∧ bare.Ready [.v 319, .v 0, .s 63, .zero] ∧ bare.Ready [.v 319, .zero]
    ∧ bare.Ready [.v 319] := ⟨ready_of (by decide), ready_of (by decide), ready_of (by decide), ready_of (by decide)⟩
theorem witness_ComparesAndPredicates : bare.Ready [.v 319, .s 63] ∧ bare.Ready [.v 319] ∧ bare.Ready [.zero] ∧ bare.Ready [] :=
  ⟨ready_of (by decide), ready_of (by decide), ready_of (by decide), ready_of (by decide)⟩
theorem witness_FloatArithmetic : bare.Ready [.v 319, .v 0, .s 63] ∧ bare.Ready [.v 319, .v 0, .s 63, .zero] ∧ bare.Ready [.v 0, .v 319] :=
  ⟨ready_of (by decide), ready_of (by decide), ready_of (by decide)⟩
theorem witness_FloatSelection : bare.Ready [.v 319, .v 0, .s 63] ∧ bare.Ready [.v 319, .v 0, .s 63, .zero] ∧ bare.Ready [.v 0, .v 319] :=
  ⟨ready_of (by decide), ready_of (by decide), ready_of (by decide)⟩
theorem witness_SpecialFunctionSteps : bare.Ready [.v 319, .s 63] ∧ value .f32 0x7F800001 = .nan ∧ value .f32 0xFFFFFFFF = .nan
    ∧ (∃ m e, value .f32 0x80000001 = .fin true m e ∧ m ≠ 0) ∧ ∃ m e, value .f32 0xFF7FFFFF = .fin true m e ∧ m ≠ 0 :=
  ⟨ready_of (by decide), by decide, by decide, ⟨1, -149, by decide, by decide⟩, ⟨16777215, 104, by decide, by decide⟩⟩
theorem witness_ConversionAndMaximum : (3 : Fin 8).val < max (perReg .f32) (perReg .e2m3) / min (perReg .f32) (perReg .e2m3)
    ∧ (0 : Fin 8).val < max (perReg .f32) (perReg .int32) / min (perReg .f32) (perReg .int32) ∧ bare.Ready [.v 319, .s 63] ∧ bare.Ready [.s 63]
    ∧ bare.act al ≠ [] ∧ bare.act g1 = [] :=
  ⟨by decide, by decide, ready_of (by decide), ready_of (by decide), by decide, by decide⟩
theorem witness_PackingAndScales : bare.Ready [.v 319, .v 0, .s 63] ∧ bare.Ready [.v 319, .v 0] := ⟨ready_of (by decide), ready_of (by decide)⟩
theorem witness_ShufflesAndBroadcasts : bare.Ready [.v 319, .v 0, .s 63, .zero] ∧ bare.Ready [.v 319, .v 0] ∧ bare.Ready [.v 0, .v 319, .s 0] :=
  ⟨ready_of (by decide), ready_of (by decide), ready_of (by decide)⟩
theorem witness_VotesReductionsAndScans : bare.Ready [.s 63] ∧ bare.Ready [.v 319] ∧ bare.Ready [.s 0, .v 319] ∧ bare.act al ≠ [] ∧ bare.act g1 = [] :=
  ⟨ready_of (by decide), ready_of (by decide), ready_of (by decide), by decide, by decide⟩

/-- Halves in different banks and in one bank. -/
theorem witness_PairedWords :
    (let h (b : Fin 6) : Half := .op ⟨.and, b, 63, 0, false, false, false, false⟩;
      (bare.canIssue && (halfOpds (h 0) ++ halfOpds (h 1)).all bare.me.has) = true ∧ sameBank (h 0) (h 1) = false
        ∧ (bare.canIssue && (halfOpds (h 3) ++ halfOpds (h 3)).all bare.me.has) = true ∧ sameBank (h 3) (h 3) = true
        ∧ sameBank .nop .nop = false) := by decide

/-- Threads that run on, a subset wholly held while another runs, and a group whose threads are all held. -/
theorem witness_Reconvergence :
    (let b := bareGroup .vector
      let split := b.mapThr fun l t => if l < 16 then { t with pc := 0x1008, meet := 0x1008 } else { t with pc := 0x1100 }
      let lo := List.range 16;
      (List.range 32).Pairwise (· < ·) ∧ lo.Pairwise (· < ·) ∧ (lanes.any (runsOn b (List.range 32))) = true
        ∧ runsOn b (List.range 32) 0 = true ∧ (∀ l ∈ lo, runsOn split lo l = false) ∧ runsOn split lo 31 = true
        ∧ (let h := b.mapThr fun l t => { t with pc := if l < 16 then 0x1008 else 0x1100, meet := if l < 16 then 0x1008 else 0x1100 };
          (∀ l ∈ List.range 32, runsOn h (List.range 32) l = false) ∧ arrives h (List.range 32) 0 = true)) := by decide

theorem witness_BranchesAndMeetTokens : bare.Ready [] ∧ bare.Ready [.s 63] ∧ bare.Ready [.v 319]
    ∧ (∀ l ∈ bare.act al, (bare.seen.rd (.s 63) l).toNat % 8 = 0) ∧ (∀ l ∈ bare.act al, ((closed bare).rd (.s 63) l).toNat % 8 = 0)
    ∧ (∃ l ∈ (setV bare 9 [8, 4]).act al, ((setV bare 9 [8, 4]).seen.rd (.v 9) l).toNat % 8 ≠ 0)
    ∧ ∃ l ∈ (setV bare 9 [8, 4]).act al, ((closed (setV bare 9 [8, 4])).rd (.v 9) l).toNat % 8 ≠ 0 :=
  ⟨ready_of (by decide), ready_of (by decide), ready_of (by decide), by decide, by decide, by decide, by decide⟩

/-- `EXIT` of lane 0 alone leaves threads that have not exited; `EXIT` of all leaves none. -/
theorem witness_YieldsAndExits : bare.Ready [] ∧ lane0.Ready [] ∧ (∃ l ∈ List.range 32, l ∉ lane0.act g1) ∧ bare.act al = List.range 32
    ∧ (∃ th ∈ (after (.exit g1) lane0).me.threads, th.exited = false) ∧ ∀ th ∈ (after (.exit al) bare).me.threads, th.exited = true :=
  ⟨ready_of (by decide), ready_of (by decide), by decide, by decide, by decide, by decide⟩

theorem bare_sound : bare.Sound := sound_of (by decide)

/-- What the lane accesses of an instruction meet: the core they are held for, whether they wait, and the faults of a load, of a store
and of an atomic. -/
def meets (s : State) (ls : List Nat) (spc : Space) (n : Nat) (need : Need) (base : Src) (x : Option Src) (off : Int) :
    Option Nat × Bool × List (Nat × Nat) × List (Nat × Nat) × List (Nat × Nat) :=
  let p := places s ls spc n need (address s base x off n)
  (p.2.findSome? fun e => e.2.heldFor, ((aged s).accessWaits s.seen true p.2).isSome, (p.1.loadLanes n p.2).2.2, p.1.writeFaults n p.2,
    p.1.rmwFaults n p.2)

/-- Core 1 is frozen, and another team of the grid stands on it. -/
def frozenNext : State := ((setS lane0 2 0x80000).setTeam 2 { lane0.team 1 with core := 1 }).setCore 1 { Core.fresh with frozen := true }

/-- Lane 1 is misaligned. -/
def misaligned : State := setV bare 3 [0x100, 0x102]

/-- Lane 1 alone is left of an `LD`. -/
def replayed : State := upd misaligned fun g => { g with replay := some [1] }

/-- A queued `CPY` that will write the chip scratchpad at 0x100. -/
def queued : State := setS (after (.cpy al .ch .sp .zero (.s 4) (.s 5) (.s 6)) feeder) 2 0x100

/-- A load of the last byte of the allocation; one of which lane 1 is misaligned, and its replay; one that is held for a frozen core; and
one that stalls on a job's range. -/
theorem witness_LoadsAndTheirFaults : lane0.Ready [.v 319, .s 2, .zero] ∧ bare.Sound ∧ (setS lane0 2 0xFFFF).Ready [.v 319, .s 2, .zero]
    ∧ meets (setS lane0 2 0xFFFF) (lanesLeft (setS lane0 2 0xFFFF) g1) .sp 1 Need.read (rs 2) (some rz) 0 = (none, false, [], [], [])
    ∧ misaligned.Ready [.v 319, .v 3, .zero] ∧ (meets misaligned (lanesLeft misaligned al) .sp 4 Need.read (rv 3) (some rz) 0).2.2.1 = [(1, 5)]
    ∧ (meets misaligned (lanesLeft misaligned al) .sp 4 Need.read (rv 3) (some rz) 0).2.1 = false ∧ lanesLeft replayed al = [1]
    ∧ (meets replayed (lanesLeft replayed al) .sp 4 Need.read (rv 3) (some rz) 0).2.2.1 = [(1, 5)]
    ∧ (meets frozenNext (lanesLeft frozenNext g1) .cl 1 Need.read (rs 2) (some rz) 0).1 = some 1
    ∧ meets queued (lanesLeft queued al) .ch 1 Need.read (rs 2) (some rz) 0 = (none, true, [], [], []) :=
  ⟨ready_of (by decide), bare_sound, ready_of (by decide), by decide, ready_of (by decide), by decide, by decide, by decide, by decide,
    by decide, by decide⟩

/-- A store to the last bytes of the allocation; one of which lane 1 is misaligned; one that is held; one that stalls. -/
theorem witness_Stores : (setS lane0 2 0xFFF8).Ready [.s 2, .v 319]
    ∧ meets (setS lane0 2 0xFFF8) ((setS lane0 2 0xFFF8).act g1) .sp 8 Need.write (rs 2) none 0 = (none, false, [], [], [])
    ∧ (meets misaligned (misaligned.act al) .sp 4 Need.write (rv 3) none 0).2.2.2.1 = [(1, 5)]
    ∧ (meets misaligned (misaligned.act al) .sp 4 Need.write (rv 3) none 0).2.1 = false
    ∧ (meets frozenNext (frozenNext.act g1) .cl 1 Need.write (rs 2) none 0).2.1 = true
    ∧ (meets queued (queued.act al) .ch 1 Need.write (rs 2) none 0).2.1 = true :=
  ⟨ready_of (by decide), by decide, by decide, by decide, by decide, by decide⟩

/-- The same of atomics; the largest offset. -/
theorem witness_Atomics : bare.Ready [.v 319, .s 2, .v 3]
    ∧ meets (setS bare 2 0xFE00) ((setS bare 2 0xFE00).act al) Space4.sp.wide 8 Need.rmw (rs 2) none 63 = (none, false, [], [], [])
    ∧ (meets misaligned (misaligned.act al) Space4.sp.wide 4 Need.rmw (rv 3) none 0).2.2.2.2 = [(1, 5)]
    ∧ (meets misaligned (misaligned.act al) Space4.sp.wide 4 Need.rmw (rv 3) none 0).2.1 = false
    ∧ (meets frozenNext (frozenNext.act g1) Space4.cl.wide 1 Need.rmw (rs 2) none 0).1 = some 1
    ∧ (meets queued (queued.act al) Space4.ch.wide 4 Need.rmw (rs 2) none 0).1 = none
    ∧ (meets queued (queued.act al) Space4.ch.wide 4 Need.rmw (rs 2) none 0).2.1 = true :=
  ⟨ready_of (by decide), by decide, by decide, by decide, by decide, by decide, by decide⟩

/-- A team with an accepted `MMA` of the group. -/
def flying : State :=
  let s := bareAs .matrix
  s.setTeam 1 { s.myTeam with ops := [.mma ⟨[32], false, 0, 0, 0, .z, 0, [], [], [], []⟩] }

theorem witness_HintsAndFences : bare.Ready [.v 319, .s 63] ∧ bare.Ready [] ∧ flying.Ready [] ∧ bare.act g1 = [] ∧ bare.act al ≠ []
    ∧ (aged flying).inFlight flying.focus = true ∧ (aged bare).inFlight bare.focus = false ∧ enabledFlags (closed bare) = 0
    ∧ enabledFlags (closed (upd bare fun g => { g with flags := 64, flagen := 64 })) ≠ 0 :=
  ⟨ready_of (by decide), ready_of (by decide), ready_of (by decide), by decide, by decide, by decide, by decide, by decide, by decide⟩


/-- A partial operation answers, and what follows holds of its answer. -/
def okAnd {α ε β : Type} (r : α × Except ε β) (f : α → β → Bool) : Bool :=
  match r.2 with
  | .ok x => f r.1 x
  | .error _ => false

/-- A plain tensor of one E2M1 tile: its descriptor at 0x900000, its constant record at 0x910000. -/
def tens (role : Nat) : State :=
  setS (((onDemo role).setBytes 0x900000 ([0, 0x10, 0, 0, 0, 0, 0, 0, 16, 0, 0, 0, 16, 0, 0, 0, 1, 0, 0, 0, 1, 0, 0, 0] ++ List.replicate 24 0
    ++ [0, 0, 0x91, 0, 0, 0, 0, 0])).setBytes 0x910000 ([2, 0x20, 0, 0] ++ List.replicate 8 0x7F ++ [0, 0, 0, 0])) 60 0x900000

/-- What an `LDT` of group-level operands meets: a descriptor, an image that fits, a tile that decodes. -/
def loadMeets (s : State) (d : Opd) : Bool × Bool × Bool :=
  let r := tensorDesc s al (rs 60) (rs 61) 2
  (good r, okAnd r fun _ desc => s.seen.hasRun d (imageRegs desc.fmt),
    okAnd r fun s1 desc => good (s1.decodeTile ((aged s).groupAgent s.seen) s.myTeam.table desc (tensorCoord s al (rs 61)) 2))

set_option exponentiation.threshold 3000 in
/-- The tile at (0, 0); an image past `v319`; a misaligned descriptor; a record with a reserved tag. -/
theorem witness_TensorLoads : (Instr.ldt al false 15 0 .core 0 (.v 300) (rs 60) (rs 61)).wellFormed = true ∧ (tens 0).Sound
    ∧ (tens 0).Ready [.v 300, .s 60, .s 61] ∧ (tens 0).act al ≠ [] ∧ (tens 0).act g1 = []
    ∧ loadMeets (tens 0) (.v 300) = (true, true, true) ∧ (loadMeets ((tens 0).setBytes 0x900000 [9]) (.v 319)).2.1 = false
    ∧ (loadMeets (setS (tens 0) 60 0x900020) (.v 300)).1 = false
    ∧ loadMeets ((tens 0).setBytes 0x910000 [0xFF]) (.v 300) = (true, true, false)
    ∧ loadMeets ((tens 0).setBytes 0x900030 [0, 0, 0, 0x40]) (.v 300) = (true, true, false) :=
  ⟨by decide, sound_of (by decide), ready_of (by decide), by decide, by decide, by decide, by decide, by decide, by decide, by decide⟩

/-- The tensor's bytes lie in host memory, and the link is down. -/
def hostTensor : State :=
  let s := (((tens 0).setBytes 0x900030 [0, 0, 0, 0x40]).setBytes 0x105008 [0x1F, 0, 0, 0x40]).setBytes 0x102008 [0x1F, 0, 0, 0, 0, 0, 8];
  { s with card := { s.card with link := false } }

/-- What an `STT` of `n` rows from `q0` on meets: a descriptor, an image that fits, a plan, and writes that all succeed. -/
def storeMeets (s : State) (d : Opd) (q0 n : Nat) : Bool × Bool × Bool × Bool :=
  let r := tensorDesc s al (rs 60) (rs 61) 3
  let p := fun (s1 : State) (desc : Desc) => s1.planTile ((aged s).groupAgent s.seen) s.myTeam.table desc (tensorCoord s al (rs 61))
    { q0 := q0
      rows := (List.range n).map fun r => (List.range 16).map fun c => s.seen.imageElem d desc.fmt false (16 * (q0 + r) + c)
      scales := (List.range 8).map fun b => elem (groupVal s al ((rs 61).r.plus 2)) b 8, seal_ := false };
  (good r, okAnd r fun _ desc => s.seen.hasRun d (imageRegs desc.fmt), okAnd r fun s1 desc => good (p s1 desc),
    okAnd r fun s1 desc => okAnd (p s1 desc) fun s2 xs => good (s2.writeTile xs))

set_option exponentiation.threshold 3000 in
/-- A store of all 16 rows; an image past `v319`; a misaligned descriptor; one row over a record with a reserved tag; bytes that cannot be
written. -/
theorem witness_TensorStores : (tens 0).Sound ∧ (tens 0).Ready [.v 300, .s 60, .s 61] ∧ (rs 61).r.isSRun 2 = true ∧ (tens 0).act al ≠ []
    ∧ (tens 0).act g1 = [] ∧ storeMeets (tens 0) (.v 300) 0 16 = (true, true, true, true)
    ∧ (storeMeets ((tens 0).setBytes 0x900000 [9]) (.v 319) 0 16).2.1 = false ∧ (storeMeets (setS (tens 0) 60 0x900020) (.v 300) 0 16).1 = false
    ∧ storeMeets ((tens 0).setBytes 0x910000 [0xFF]) (.v 300) 15 1 = (true, true, false, false)
    ∧ storeMeets hostTensor (.v 300) 0 16 = (true, true, true, false) :=
  ⟨sound_of (by decide), ready_of (by decide), by decide, by decide, by decide, by decide, by decide, by decide, by decide, by decide⟩

theorem witness_RecordsDecode : Fmt.hasCode .e2m1 = true ∧ (15 : Nat) < 16 ∧ (List.replicate 8 255).length = 8 ∧ (∀ x ∈ List.replicate 8 255, x < 256)
    ∧ (List.replicate 256 15).length = 256 ∧ ∀ x ∈ List.replicate 256 15, x < 2 ^ Fmt.width .e2m1 := by decide

/-- The image of 06 in the scratchpad at 0x40 and a free place of its size at 0x80. -/
def tableDemo : State := setS (setS (setSp (bareAs .matrix) 0x40 imageBytes) 11 0x40) 63 0x80

/-- What a `CTLD` reads: its image's head and symbols. -/
def imageReads (s : State) (sp : Bool) (at_ : Nat) : Option (Nat × Option Nat) :=
  match (aged s).runRead s.seen sp 0 at_ 26 with
  | (_, .error _) => none
  | (s1, .ok x) => some (x, match s1.runRead s.seen sp 0 (at_ + 26) (2 * symCount (imageCounts x)) with
    | (_, .ok y) => some y
    | (_, .error _) => none)

/-- The head's fault and the symbols of an image that can be read. -/
def imageSays (s : State) (sp : Bool) (at_ : Nat) : Option (Option (Nat × Nat) × List Nat) :=
  match imageReads s sp at_ with
  | some (x, some y) => some (headWrong x, (imageTable x y (symCount (imageCounts x))).syms)
  | _ => none

/-- An image in the scratchpad and in memory; one at a misaligned address; one past the allocation, with its head alone or with none of
it; one of a reserved tag; a symbol of 5 bits among those of 4, and one that occurs twice. -/
theorem witness_CodeTableTransfers : tableDemo.Sound ∧ tableDemo.ReadyAs generalOrMatrix [.s 11] ∧ tableDemo.act al ≠ [] ∧ tableDemo.act g1 = []
    ∧ (groupVal tableDemo al (.s 11)).toNat % 16 = 0 ∧ (groupVal (setS tableDemo 11 0x48) al (.s 11)).toNat % 16 ≠ 0
    ∧ imageSays tableDemo true 0x40 = some (none, [0, 2, 10, 4, 12])
    ∧ imageSays ((onDemo 2).setBytes 0x900000 imageBytes) false 0x900000 = some (none, [0, 2, 10, 4, 12])
    ∧ imageReads (setSp tableDemo 0xFFE0 imageBytes) true 0xFFE0 = (imageReads tableDemo true 0x40).map (fun x => (x.1, none))
    ∧ imageReads tableDemo true 0x10000 = none ∧ imageReads (onDemo 2) false 0x40000000 = none
    ∧ imageSays (setSp tableDemo 0x40 [11]) true 0x40 = some (some (2, 0), [0, 2, 10, 4, 12])
    ∧ imageSays (setSp tableDemo 0x40 [0, 1]) true 0x40 = some (some (1, 0), [0, 2, 10, 4, 12])
    ∧ imageSays (setSp tableDemo 0x42 [2]) true 0x40 = some (some (3, 6144), [0, 2, 10, 4, 12, 0])
    ∧ SymsRight 4 [0, 2, 10, 4, 12] ∧ SymsWrong 4 [0, 16, 10, 4, 12] 4 1 ∧ SymsWrong 4 [0, 2, 10, 4, 2] 5 4 :=
  ⟨sound_of (by decide), readyAs_of (by decide), by decide, by decide, by decide, by decide, by decide, by decide, by decide, by decide, by decide,
    by decide, by decide, by decide, by unfold SymsRight; decide, by unfold SymsWrong; decide, by unfold SymsWrong; decide⟩

/-- A slot that holds a table. -/
def slotDemo : State := tableDemo.setTeam 1 { tableDemo.myTeam with ct := [(15, some fiveSymbols)] }

/-- An empty slot; a full one whose image fits, in the scratchpad and in memory; a misaligned address; an image past the allocation. -/
theorem witness_CodeTableTransfers_store : slotDemo.ReadyAs generalOrMatrix [.v 319, .s 63] ∧ slotDemo.myTeam.table 14 = none
    ∧ slotDemo.myTeam.table 15 = some fiveSymbols ∧ (groupVal slotDemo al (.s 63)).toNat % 16 = 0
    ∧ (groupVal (setS slotDemo 63 0x81) al (.s 63)).toNat % 16 ≠ 0 ∧ good ((aged slotDemo).runWrite slotDemo.seen true 0x80 36 fiveSymbols.image) = true
    ∧ good ((aged (onDemo 2)).runWrite (onDemo 2).seen false 0x900000 36 fiveSymbols.image) = true
    ∧ good ((aged slotDemo).runWrite slotDemo.seen true 0xFFE0 36 fiveSymbols.image) = false :=
  ⟨readyAs_of (by decide), by decide, by decide, by decide, by decide, by decide, by decide, by decide⟩

/-- A record in the first slot of the scratchpad, and a tensor's; a source image that ends at `v319`. -/
def codedDemo : State := setS (setSp (bareAs .matrix) 0 ([2, 0x20, 0, 0] ++ List.replicate 8 0x7F ++ [0, 0, 0, 0])) 63 0

/-- What `DEC` reads: `some true` a tile, `some false` a fault, none a bad operand value. -/
def decReads (s : State) : Option Bool :=
  match (aged s).decSource s.seen false (.s 6) (.s 63) (s.act al) with
  | some r => some (good r)
  | none => none

set_option exponentiation.threshold 3000 in
/-- `DEC` of a slot, of a slot past the allocation, with a reserved format and over a run past `v319`; `ENC` from such a run, to a slot,
to one past the allocation and to a misaligned one. -/
theorem witness_DecodeAndEncodeTiles : codedDemo.Sound ∧ codedDemo.act al ≠ [] ∧ codedDemo.act g1 = []
    ∧ codedDemo.ReadyAs generalOrMatrix [.v 316, .s 6, .s 63] ∧ codedDemo.Ready [.v 317, .s 6, .s 63]
    ∧ codedDemo.seen.hasRun (.v 316) 4 = true ∧ codedDemo.seen.hasRun (.v 317) 4 = false ∧ codedDemo.seen.hasRun (.v 318) 2 = true
    ∧ decReads codedDemo = some true ∧ decReads (setS codedDemo 6 0x10000) = some false ∧ decReads (setS codedDemo 63 11) = none
    ∧ codedDemo.ReadyAs generalOrMatrix [.zero, .v 316, .s 6, .s 63] ∧ codedDemo.Ready [.zero, .v 317, .s 6, .s 63]
    ∧ ((groupVal codedDemo al (.s 6)).toNat < 2 ^ 19 ∧ (groupVal codedDemo al (.s 6)).toNat % 16 = 0)
    ∧ (groupVal (setS codedDemo 6 0x7FFF8) al (.s 6)).toNat % 16 ≠ 0
    ∧ good (codedDemo, (aged codedDemo).scratchRun codedDemo.seen 1 0 (slotSize .bf16 0)) = true
    ∧ good (codedDemo, (aged codedDemo).scratchRun codedDemo.seen 1 0xFFF0 (slotSize .bf16 0)) = false :=
  ⟨sound_of (by decide), by decide, by decide, readyAs_of (by decide), ready_of (by decide), by decide, by decide, by decide, by decide,
    by decide, by decide, readyAs_of (by decide), ready_of (by decide), by decide, by decide, by decide, by decide⟩

/-- A gang of the group alone, and a word with a reserved bit set. -/
theorem witness_GangsAndArrivals : (bareAs .matrix).ReadyAs matrixOnly [.zero] ∧ (bareAs .matrix).ReadyAs matrixOnly [.zero, .v 319, .s 61, .s 63]
    ∧ (bareAs .matrix).ReadyAs matrixOnly [] ∧ (bareAs .matrix).act al ≠ [] ∧ (bareAs .matrix).act g1 = []
    ∧ (aged (bareAs .matrix)).gangBad (bareAs .matrix).seen (groupVal (bareAs .matrix) al .zero) false = false
    ∧ (aged (setS (bareAs .matrix) 5 (2 ^ 35))).gangBad (setS (bareAs .matrix) 5 (2 ^ 35)).seen (groupVal (setS (bareAs .matrix) 5 (2 ^ 35)) al (.s 5)) true = true
    ∧ (aged flying).inFlight flying.focus = true ∧ flying.ReadyAs matrixOnly [] ∧ (aged (bareAs .matrix)).inFlight (bareAs .matrix).focus = false :=
  ⟨readyAs_of (by decide), readyAs_of (by decide), readyAs_of (by decide), by decide, by decide, by decide, by decide, by decide,
    readyAs_of (by decide), by decide⟩

/-- The gang of groups 0 and 1: group 0 waits at the latch with an INT4 `MMA` under the guard of lane 0, group 1 is `f` of the like. -/
def gangOf (f : Group → Group) : State :=
  let s := after (.mma g2 .z false false 0 .zero (.v 20) (.s 6) (.s 3)) (setP (upd mmaStart fun g => { g with gang := 0x200000020 }) 2 [0]);
  (s.setTeam 1 { s.team 1 with size := 2 }).setGrp 33 (f { s.me with index := 1 })

/-- The list and its first arrival. -/
def joins (s : State) (f : List Arrived → Arrived → List (BitVec 32) → Bool) : Bool :=
  let ks := (s.grp 32).gangKeys
  let xs := s.arrivedOf ks;
  match xs with
  | [] => false
  | x0 :: _ => (s.grp 32).arrival.isSome && s.gangLive ks && (ks.all fun j => decide ((s.grp j).status ≠ .ended)) && xs.length == ks.length
      && f xs x0 (xs.flatMap Arrived.formats)

def sameAll (xs : List Arrived) (x0 : Arrived) (fws : List (BitVec 32)) : Bool := xs.all x0.agrees && fws.all (· == fws.headD 0)

/-- No arrival; an ended group; one that has not arrived; two that disagree; no active lane at all; a bad format word; and one that goes
through. -/
theorem witness_JointOperations : (bare.grp 32).arrival = none
    ∧ (let s := gangOf fun g => { g with status := .ended }
      (s.grp 32).arrival.isSome = true ∧ s.gangLive (s.grp 32).gangKeys = true ∧ ∃ j ∈ (s.grp 32).gangKeys, (s.grp j).status = .ended)
    ∧ (let s := gangOf fun g => { g with arrival := none }
      (s.grp 32).arrival.isSome = true ∧ s.gangLive (s.grp 32).gangKeys = true ∧ (∀ j ∈ (s.grp 32).gangKeys, (s.grp j).status ≠ .ended)
        ∧ (s.arrivedOf (s.grp 32).gangKeys).length ≠ (s.grp 32).gangKeys.length)
    ∧ joins (gangOf fun g => { g with arrival := g.arrival.map fun a => { a with mode := .a } }) (fun xs x0 fws => !sameAll xs x0 fws) = true
    ∧ joins ((gangOf fun g => { g with arrival := g.arrival.map fun a => { a with act := [] } }).setGrp 32
        { (gangOf id).grp 32 with arrival := ((gangOf id).grp 32).arrival.map fun a => { a with act := [] } })
        (fun xs x0 fws => sameAll xs x0 fws && fws == []) = true
    ∧ joins ((gangOf fun g => g.swrite 3 0xFFFFFFFF).setGrp 32 (((gangOf id).grp 32).swrite 3 0xFFFFFFFF))
        (fun xs x0 fws => sameAll xs x0 fws && formatBad ((gangOf id).team 1) xs (fws.headD 0) x0.arr.mode) = true := by decide

/-- What a gang meets that agrees: a good format word, good operands, groups that differ, and a B that can be read. -/
def gangMeets (s : State) : Bool × Bool :=
  (joins s fun xs x0 fws => sameAll xs x0 fws && fws != [] && !formatBad (s.team x0.grp.team) xs (fws.headD 0) x0.arr.mode
      && offsetOk (x0.grp.rd x0.arr.b 0) && (xs.all fun x => (x.operandA (fws.headD 0)).isSome) && decide (xs.map Arrived.key).Nodup
      && gangCores xs == [0] && decide (s.past.length ≤ x0.grp.placed.past),
    joins s fun xs x0 fws => good (s.readBs xs (fws.headD 0) x0.arr.bt (x0.grp.rd x0.arr.b 0) (x0.grp.rd (x0.arr.b.plus 1) 0)
      (x0.grp.rd (x0.arr.b.plus 2) 0) (gangCores xs)))

set_option exponentiation.threshold 2000 in
/-- A gang whose operation is accepted, one whose B does not decode, and one with a misaligned slot. -/
theorem witness_JointOperations_accepted : gangMeets (gangOf id) = (true, true) ∧ gangMeets (setSp (gangOf id) 0 [0xFF]) = (true, false)
    ∧ joins (gangOf id |> fun s => (s.setGrp 32 ((s.grp 32).swrite 6 8)).setGrp 33 ((s.grp 33).swrite 6 8))
      (fun xs x0 fws => sameAll xs x0 fws && fws != [] && !x0.arr.bt && !offsetOk (x0.grp.rd x0.arr.b 0)) = true := by decide

/-- A small operation: one row of a lane, one column; and one behind it of the same group. -/
def smallMma : MmaOp := ⟨[32], false, 0, 0, 0x2011, .z, 0, [⟨32, 0, 0, 5, none, [0x22]⟩], [(0, [[⟨0, 2, 0x7F⟩]])], [], []⟩

theorem witness_MatrixCommits :
    (let s := bare.setTeam 1 { bare.myTeam with ops := [.mma smallMma, .mma smallMma] };
      (s.team 1).ops[1]? = some (.mma smallMma) ∧ oldestOf (s.team 1).ops 1 smallMma = false ∧ (s.team 1).ops[0]? = some (.mma smallMma)
        ∧ oldestOf (s.team 1).ops 0 smallMma = true ∧ smallMma.touched = [] ∧ (targets smallMma).length = 1
        ∧ (∀ r ∈ smallMma.rows, r.src = none) ∧ s.past.length ≤ smallMma.seen ∧ (s.grp 32).status ≠ .ended
        ∧ (∀ c ∈ (s.team 1).cores, (s.core c).frozen = false)
        ∧ ∃ c ∈ (s.team 1).cores, ((s.setCore 0 { Core.fresh with frozen := true }).core c).frozen = true) := by decide

/-- Elements 0 and 1 of every sixteenth from 0; an index past the half; a run that ends at `v319`. -/
theorem witness_AccumulatorTransfers :
    (let s := accState [1, 2];
      s.act g1 ≠ [] ∧ s.ReadyAs matrixOnly [.s 4] ∧ s.ReadyAs matrixOnly [.v 319, .s 4] ∧ s.ReadyAs matrixOnly [.s 4, .s 63]
        ∧ (s.team s.me.team).accAddr (groupVal s g1 (.s 4)) = some ⟨1, 16, 0, 0⟩ ∧ untouched s (s.act g1) ⟨1, 16, 0, 0⟩
        ∧ s.seen.hasRun (.v 319) (1 / 2 + 1) = true ∧ s.seen.hasRun (.v 319) (1 / (64 / Fmt.cell .bf16) + 1) = true
        ∧ ((setS s 4 0x3FFF).team 1).accAddr 0x100003FFF = none ∧ groupVal (setS s 4 0x100003FFF) g1 (.s 4) = 0x100003FFF) :=
  ⟨by decide, readyAs_of (by decide), readyAs_of (by decide), readyAs_of (by decide), by decide,
    by intro p _ o ho; exact absurd ho (by have h : ((accState [1, 2]).team (accState [1, 2]).me.team).ops = [] := by decide
                                           rw [h]; simp),
    by decide, by decide, by decide, by decide⟩

/-- A merge area at 0x900000 of three chunks with cnt 0 and next 0. -/
def mergeDemo : State := setS (setS (setS ((onDemo 2).setBytes 0x900000 [3, 0]) 4 0x100000) 5 0x900000) 6 0

theorem witness_SplitKMerges_area : okAnd ((aged mergeDemo).translateRange mergeDemo.seen.core mergeDemo.myPart { r := true, w := true }
      (groupVal mergeDemo al (.s 5)).toNat 64) (fun s1 hw =>
    match s1.piecesRead (hw.map fun x => (x.1.pa, x.2)) with
    | (s2, some bs) => good (s2.translateRange mergeDemo.seen.core mergeDemo.myPart { r := true, w := true } (groupVal mergeDemo al (.s 5)).toNat
        (64 + 128 * (leNat (bs.take 8) / 2 ^ 24 % 16 + 1))) && leNat (bs.take 8) == 3
    | (_, none) => false) = true
    ∧ headerGood 3 0 0 ∧ headerGood 3 2 0 ∧ ¬ headerGood 3 3 0 ∧ (groupVal mergeDemo al (.s 5)).toNat % 64 = 0
    ∧ (mergeDemo.team mergeDemo.me.team).accAddr (groupVal mergeDemo al (.s 4)) = some ⟨0, 16, 0, 0⟩
    ∧ (mergeDemo.team mergeDemo.me.team).ops = [] ∧ (groupVal mergeDemo al (.s 6)).toNat < 256 :=
  ⟨by decide, by unfold headerGood; decide, by unfold headerGood; decide, by unfold headerGood; decide, by decide, by decide, by decide, by decide⟩

/-- A misaligned area; one that is not mapped, one whose header cannot be read, and one whose data are not mapped; a chunk index past 255. -/
theorem witness_SplitKMerges_faults : mergeDemo.act g1 = [] ∧ (groupVal (setS mergeDemo 5 0x900020) al (.s 5)).toNat % 64 ≠ 0
    ∧ good ((aged mergeDemo).translateRange 0 0 mergeNeed 0x40000000 64) = false
    ∧ okAnd ((aged { mergeDemo with bad := [0x900000] }).translateRange 0 0 mergeNeed 0x900000 64) (fun s1 hw =>
      (s1.piecesRead (hw.map fun x => (x.1.pa, x.2))).2 == none) = true
    ∧ good ((aged mergeDemo).translateRange 0 0 mergeNeed 0x3FFFFFC0 192) = false
    ∧ 256 ≤ (groupVal (setS mergeDemo 6 256) al (.s 6)).toNat
    ∧ ((setS mergeDemo 4 0x300000).team 1).accAddr (groupVal (setS mergeDemo 4 0x100003FFF) al (.s 4)) = none := by decide

/-- A fold whose chunk is next, before it, and behind it; one whose area cannot be read. -/
theorem witness_SplitKMerges : mergeDemo.ReadyAs matrixOnly [.s 4, .s 5, .s 6] ∧ mergeDemo.act al ≠ []
    ∧ (let o : MergeOp := ⟨32, 0x900000, [(0x900000, 192)], 0, 1, (List.range 32).map fun l => (16 * l, 5), [], 0⟩
      let s (n : Byte) := (mergeDemo.setBytes 0x900001 [n]).setTeam 1 { mergeDemo.myTeam with ops := [.merge o] };
      [0, 1, 2].map (fun n : Byte => match (s n).piecesRead o.pieces with
        | (_, some bs) => leNat (bs.take 8) / 256 % 256
        | (_, none) => 99) = [0, 1, 2] ∧ ((s 1).team 1).ops[0]? = some (.merge o) ∧ o.elems ≠ [] ∧ ((s 1).grp 32).status ≠ .ended
        ∧ (({ s 1 with bad := [0x900000] } : State).piecesRead o.pieces).2 = none
        ∧ (match (s 1).piecesRead o.pieces with
          | (_, some bs) => bs.length
          | (_, none) => 0) = 64 + 4 * 32) :=
  ⟨readyAs_of (by decide), by decide, by decide⟩

theorem feeder_sound : feeder.Sound := sound_of (by decide)

/-- What `QueueStep` looks at for a `CPY`. -/
def cpyLooks (s : State) (d : Opd) : Bool × Bool × Bool × Nat :=
  let u := aged s
  let j := u.newJob s.seen (s.act al) .cpy 0x80 d (.s 4) (.s 5) (.s 6);
  (u.ctlBad j || u.jobBad j || u.outsideSlot j, good (u.jobDescs j) && !u.pushBad j && good (u.statusAt j), j.misaligned.isSome, u.sbUsed s.seen.core)

/-- A job that goes through; a reserved bit of the control word; a misaligned status address; a full scoreboard. -/
theorem witness_JobsQueued : feeder.Sound ∧ feeder.ReadyAs feederOnly [.zero, .s 4, .s 5, .s 6] ∧ feeder.ReadyAs feederOnly [.s 62, .s 4, .s 5, .s 6]
    ∧ feeder.act al ≠ [] ∧ feeder.act g1 = []
    ∧ cpyLooks feeder .zero = (false, true, false, 0) ∧ (cpyLooks (setS feeder 62 1) (.s 62)).1 = true
    ∧ (let c := cpyLooks (setS (upd (onDemo 3) fun g => ((g.swrite 4 0x100).swrite 5 0x20).swrite 6 16) 63 0x900004) (.s 62)
      (c.1, c.2.2.1) = (false, true))
    ∧ cpyLooks { feeder with jobs := (List.range 32).map fun n => (n + 1, { Job.absent with live := true, phase := .queued }) } .zero
        = (false, true, false, 32) :=
  ⟨feeder_sound, readyAs_of (by decide), readyAs_of (by decide), by decide, by decide, by decide, by decide, by decide, by decide⟩

/-- A `RINGPUSH` of two slots' worth into one; a status address that is not mapped; a misaligned descriptor. -/
theorem witness_JobsQueued_push :
    (let s := feeder.setTeam 1 { feeder.myTeam with rings := [⟨16, 0, [false], [false], [false]⟩] }
      let j : Job := { Job.absent with live := true, kind := .ringpush, team := 1, ctl := 2 ^ 48, c := [15], src := some Desc.empty };
      s.pushBad j = true) ∧ (let s := setS feeder 63 0x900008
      let j := (aged s).newJob s.seen (s.act al) .cpy 0x80 (.s 62) (.s 4) (.s 5) (.s 6);
      ((aged s).ctlBad j || (aged s).jobBad j || (aged s).outsideSlot j) = false ∧ j.misaligned = none ∧ good ((aged s).statusAt j) = false)
    ∧ (let s := setS (setS (setS (onDemo 3) 60 0x900020) 12 0) 13 1
      let j := (aged s).newJob s.seen (s.act al) .xform 0 .zero (.s 60) (.s 60) (.s 12);
      ((aged s).ctlBad j || (aged s).jobBad j || (aged s).outsideSlot j) = false ∧ j.misaligned = none ∧ good ((aged s).statusAt j) = true
        ∧ good ((aged s).jobDescs j) = false) := by decide

/-- One queued job. -/
def oneJob : State := after (.cpy al .ch .sp .zero (.s 4) (.s 5) (.s 6)) feeder

/-- The first job may start; behind a running one that it overlaps it may not; one with a claim on a ring slot. -/
theorem witness_JobStartsAndRetirements_start :
    (let go := fun (s : State) (n : Nat) => ((s.engineJobs 0).filter fun m => (s.job m).phase != .queued).length < 4 ∧ s.overlapsEarlier n (s.job n) = false
        ∧ s.slotOpen (s.job n) = true
      let two := after (.cpy al .ch .sp .zero (.s 4) (.s 5) (.s 6)) (after (.jobStart 0) oneJob)
      let ring := (oneJob.setJob 1 { oneJob.job 1 with ctl := 2 ^ 48 + 2 ^ 41 }).setTeam 1 { (oneJob.team 1) with rings := [⟨16, 0, [false, false],
        [false, false], [false, false]⟩] };
      feeder.engineJobs 0 = [] ∧ oneJob.engineJobs 0 = [] ++ 1 :: [] ∧ (oneJob.job 1).phase = .queued ∧ go oneJob 1 ∧ (oneJob.job 1).ringSlot = none
        ∧ two.engineJobs 0 = [1] ++ 2 :: [] ∧ (two.job 1).phase ≠ .queued ∧ (two.job 2).phase = .queued ∧ ¬ go two 2
        ∧ (ring.job 1).ringSlot = some (0, 1) ∧ go ring 1) := by decide

/-- A running `CPY`, its last chunk. -/
def running : State := after (.jobStart 0) oneJob

def chunkOut (s : State) (n : Nat) : Option ChunkOut :=
  match s.runChunk (s.job n) with
  | (_, .ok o) => some o
  | (_, .error _) => none

/-- A last chunk, one that is not the last (257 positions of a `SCATTER`, each out of its limit), one that ends the job, one that meets
a fault and one that is held. -/
theorem witness_JobChunks :
    (let j := running.job 1
      let scat := running.setJob 1 { j with kind := .scatter, mods := 0, c := [0, 257] }
      let csr := (setSp running 0x40 [2, 0, 0, 0, 1]).setJob 1 { j with kind := .gather, mods := 8, c := [0, 1, 0x40] }
      let far := running.setJob 1 { j with b := [0x10000] }
      let held := (running.setJob 1 { j with mods := 0x90 }).setCore 0 { running.core 0 with frozen := true };
      j.live = true ∧ j.phase = .running ∧ (chunkOut running 1).map (fun o => (o.status, o.last)) = some (none, true)
        ∧ j.kind = .cpy ∧ j.dstSpace = .ch ∧ j.srcSpace = .sp ∧ (running.team j.team).phase ≠ .saved
        ∧ (chunkOut csr 1).map (fun o => o.status) = some (some 5)
        ∧ (match far.runChunk (far.job 1) with
          | (_, .error e) => ((far.job 1).stopRecord 1 e).isSome
          | (_, .ok _) => false) = true
        ∧ (match held.runChunk (held.job 1) with
          | (_, .error .held) => true
          | (_, _) => false) = true
        ∧ (chunkOut scat 1).map (fun o => (o.status, o.last, o.bad)) = some (none, false, true)) := by decide

/-- The running job changed, and the rings of its team. -/
def jobAsks (f : Job → Job) (rings : List Ring) : State :=
  (running.setJob 1 (f (running.job 1))).setTeam 1 { running.team 1 with rings := rings }

/-- A plain tensor of one tile. -/
def sixteen : Desc := { Desc.empty with ndim := 1, dims := [16, 16, 1, 1], strides := [1, 0, 0], base := 0x10000 }

theorem settled_of {s : State} {j : Job} {loose : Bool} {q : Nat} (h : s.past = []) : Settled s j loose q := by
  intro i p hp
  simp [h] at hp

/-- A byte of the destination's first `n` is not one of these. -/
abbrev offDst (s : State) (j : Job) (n : Nat) (qs : List Nat) : Prop := ∀ q ∈ qs, ∀ k, k < n → q ≠ jobCell s j j.dstSpace (j.aAt 0 + k)

theorem readable_of {s : State} {j : Job} {n p at_ : Nat} {x y : Bool} (h : s.past = [])
    (ki : offDst s j n (jobCells s j j.listSpace (j.cAt 0 + 4 * p) 4))
    (ke : offDst s j n (jobCells s j j.srcSpace (j.bAt 0 + (if j.kind = .scatter then at_ else wordAt s j (j.cAt 0 + 4 * p) s.memByte)
      * j.elemBytes) j.elemBytes)) : PositionReadable s j n x y p at_ :=
  ⟨fun q hq => ⟨settled_of h, ki q hq⟩, fun _ q hq => ⟨settled_of h, ke q hq⟩⟩

theorem witness_JobChunks_onChip : OnChip running (running.job 1) [.sp, .ch]
    ∧ (∀ k, copied (running.job 1) k → Settled running (running.job 1) false (jobCell running (running.job 1) .sp k)) ∧ copied (running.job 1) 0 := by
  refine ⟨⟨by decide, by decide⟩, fun k _ => settled_of (by decide), by unfold copied; decide⟩

/-- A `GATHER` of two positions, a `GATHER.csr` of one element, and a `SCATTER` of two positions whose elements are in its limit. -/
def gat : State := jobAsks (fun j => { j with kind := .gather, mods := 0x90, c := [0x40, 2] }) []
def csrRun : State := setSp (jobAsks (fun j => { j with kind := .gather, mods := 0x98, c := [0x50, 2 ^ 40 + 1, 0x40] }) []) 0x40 [0, 0, 0, 0, 1]
def scat : State := jobAsks (fun j => { j with kind := .scatter, mods := 0x90, c := [0x40, 2 ^ 40 + 2] }) []

theorem witness_JobChunks_positions :
    (∀ p ∈ positions (gat.job 1).chunk (gat.job 1).listLen,
      PositionReadable gat (gat.job 1) ((gat.job 1).listLen * (gat.job 1).elemBytes) false true p p)
    ∧ positions (gat.job 1).chunk (gat.job 1).listLen = [0, 1]
    ∧ ((csrRun.job 1).ptrs = none → ∀ q ∈ jobCells csrRun (csrRun.job 1) (csrRun.job 1).listSpace ((csrRun.job 1).cAt 2) 8,
      Settled csrRun (csrRun.job 1) false q)
    ∧ pointers csrRun (csrRun.job 1) = [0, 1] ∧ (csrRun.job 1).lim = 1
    ∧ PositionReadable csrRun (csrRun.job 1) ((csrRun.job 1).lim * (csrRun.job 1).elemBytes) true true 0 0
    ∧ (∀ p ∈ positions (scat.job 1).chunk (scat.job 1).listLen,
      PositionReadable scat (scat.job 1) ((scat.job 1).lim * (scat.job 1).elemBytes) false false p p)
    ∧ positions (scat.job 1).chunk (scat.job 1).listLen = [0, 1]
    ∧ (chunkOut gat 1).isSome = true ∧ (chunkOut csrRun 1).isSome = true ∧ (chunkOut scat 1).isSome = true := by
  have hg : gat.past = [] := by decide
  have hc : csrRun.past = [] := by decide
  have hs : scat.past = [] := by decide
  refine ⟨?_, by decide, fun _ q _ => settled_of hc, by decide, by decide, readable_of hc (by decide) (by decide), ?_, by decide, by decide,
    by decide, by decide⟩
  · have k : ∀ p ∈ positions (gat.job 1).chunk (gat.job 1).listLen,
        offDst gat (gat.job 1) ((gat.job 1).listLen * (gat.job 1).elemBytes) (jobCells gat (gat.job 1) (gat.job 1).listSpace
          ((gat.job 1).cAt 0 + 4 * p) 4)
        ∧ offDst gat (gat.job 1) ((gat.job 1).listLen * (gat.job 1).elemBytes) (jobCells gat (gat.job 1) (gat.job 1).srcSpace
          ((gat.job 1).bAt 0 + (if (gat.job 1).kind = .scatter then p else wordAt gat (gat.job 1) ((gat.job 1).cAt 0 + 4 * p) gat.memByte)
            * (gat.job 1).elemBytes) (gat.job 1).elemBytes) := by decide
    exact fun p hp => readable_of hg (k p hp).1 (k p hp).2
  · have k : ∀ p ∈ positions (scat.job 1).chunk (scat.job 1).listLen,
        offDst scat (scat.job 1) ((scat.job 1).lim * (scat.job 1).elemBytes) (jobCells scat (scat.job 1) (scat.job 1).listSpace
          ((scat.job 1).cAt 0 + 4 * p) 4)
        ∧ offDst scat (scat.job 1) ((scat.job 1).lim * (scat.job 1).elemBytes) (jobCells scat (scat.job 1) (scat.job 1).srcSpace
          ((scat.job 1).bAt 0 + (if (scat.job 1).kind = .scatter then p else wordAt scat (scat.job 1) ((scat.job 1).cAt 0 + 4 * p) scat.memByte)
            * (scat.job 1).elemBytes) (scat.job 1).elemBytes) := by decide
    exact fun p hp => readable_of hs (k p hp).1 (k p hp).2

/-- A `CPY` within its ranges; a `GATHER` of three positions; row pointers that rise and that fall; an `XFORM` at the end of its range; a
`WBCAST`; a `RINGPUSH` of a tile in and of one out of bounds. -/
theorem witness_JobChunks_kinds :
    (let j := running.job 1
      let csr (p : List Byte) := (jobAsks (fun j => { j with kind := .gather, mods := 0x98, c := [0x50, 2 ^ 40 + 1, 0x40] }) []) |> fun s => setSp s 0x40 p
      let kindRuns := fun (s : State) => (chunkOut s 1).isSome;
      running.jobOverlaps j = false ∧ running.jobBad j = false ∧ 65536 * j.chunk < j.cAt 0
        ∧ j.aAt 0 + j.shape.span j.shape.ds ≤ 2 ^ 64 ∧ j.bAt 0 + j.shape.span j.shape.ss ≤ 2 ^ 64
        ∧ kindRuns (jobAsks (fun j => { j with kind := .gather, mods := 0x90, c := [0x40, 3] }) []) = true
        ∧ kindRuns (csr [0, 0, 0, 0, 1]) = true ∧ pointers (csr [0, 0, 0, 0, 1]) ((csr [0, 0, 0, 0, 1]).job 1) = [0, 1]
        ∧ kindRuns (csr [1]) = true ∧ pointers (csr [1]) ((csr [1]).job 1) = [1, 0]
        ∧ kindRuns (jobAsks (fun j => { j with kind := .xform, c := [0, 0], src := some sixteen, dst := some sixteen }) []) = true
        ∧ kindRuns (jobAsks (fun j => { j with kind := .wbcast, mods := 0x10 }) []) = true
        ∧ kindRuns (jobAsks (fun j => { j with kind := .ringpush, ctl := 2 ^ 48, c := [0], b := [1, 0], src := some sixteen })
          [⟨256, 0, [false], [false], [true]⟩]) = true
        ∧ sixteen.touches ⟨1, 0, 0, 0⟩ = false ∧ sixteen.touches ⟨0, 0, 0, 0⟩ = true) := by decide

/-- A job that ends with an arrival at a barrier that is not armed, or that completes, and with a decrement of a node of a running graph. -/
theorem witness_JobStartsAndRetirements_ends :
    (let d := after (.chunkCompletion 1) running
      let j := { d.job 1 with ctl := 2 ^ 40 + 15 * 2 ^ 36 }
      let k := { d.job 1 with ctl := 2 ^ 63 + 16383 * 2 ^ 49 }
      let bar (b : Barrier) := ((d.setJob 1 j).setTeam 1 { d.team 1 with bars := [(15, b)] })
      let node := ((d.setJob 1 { k with phase := .failed 7 }).setGraph 9 { Graph.absent with live := true, started := true, deadline := 99, expiry := 99, nodes := [2, 16383] }).setNode 2
        { Node.blank with graph := 9, phase := .running }
      let n := node.setNode 16383 { Node.blank with graph := 9, count := 1, phase := .waiting };
      ctlBar j.ctl = some 15 ∧ ctlNode j.ctl = none ∧ ctlTag j.ctl = none ∧ j.ringSlot = none ∧ j.status = 0
        ∧ (kget Barrier.start ((bar ⟨1, 3, true, false⟩).team 1).bars 15).armed = true
        ∧ (kget Barrier.start ((bar ⟨2, 3, true, false⟩).team 1).bars 15).count ≤ (kget Barrier.start ((bar ⟨2, 3, true, false⟩).team 1).bars 15).arrivals + 1
        ∧ ctlNode k.ctl = some 16383 ∧ ctlBar k.ctl = none ∧ ctlTag k.ctl = none ∧ k.ringSlot = none
        ∧ (n.node 16383).graph ≠ 0 ∧ (n.node 16383).count = 1 ∧ n.graphOver 9 = false ∧ (n.node 16383).skip = false
        ∧ (∃ x ∈ (n.graph 9).nodes, x ≠ 16383 ∧ (n.node x).phase = .running) ∧ (n.job 1).phase = .failed 7) := by decide

/-- A finished job without a status address, one with it, one with a ring slot and an event tag, and one that failed. -/
theorem witness_JobStartsAndRetirements :
    (let d := after (.chunkCompletion 1) running
      let j := d.job 1
      let st := ((onDemo 3).setJob 1 { j with status := 0x900000, part := 0 })
      let ring := (d.setJob 1 { j with ctl := 2 ^ 48 + 2 ^ 41 + 2 ^ 35 + 63 * 2 ^ 29 }).setTeam 1 { (d.team 1) with rings := [⟨16, 0, [false, true],
        [false, false], [false, true]⟩] };
      j.live = true ∧ j.phase = .finished ∧ j.status = 0 ∧ j.ringSlot = none ∧ ctlTag j.ctl = none ∧ ctlBar j.ctl = none ∧ ctlNode j.ctl = none
        ∧ j.node = none ∧ good (st.vwrite j.core 0 0x900000 (leBytes 8 (statusBits (st.job 1) 0))) = true
        ∧ (ring.job 1).ringSlot = some (0, 1) ∧ slotBit (ring.team 1) Ring.pips 0 1 = some true ∧ (slotBit (ring.team 1) Ring.full 0 1).isSome = true
        ∧ (slotBit (ring.team 1) Ring.claim 0 1).isSome = true ∧ ctlTag (ring.job 1).ctl = some 63 ∧ (ring.grp 32).status = .running
        ∧ ({ j with phase := .failed 255 } : Job).phase = .failed 255) := by decide

/-- An arrival below the count, one that completes, with and without an active lane. -/
theorem witness_Barriers : bare.Ready [] ∧ bare.act al ≠ [] ∧ bare.act g1 = []
    ∧ (let b := kget Barrier.start (pairTeam.team 1).bars 2
      2 ≤ b.arrivals + 1 ∧ b.arrivals + 1 < 3) ∧ (kget Barrier.start (bare.team 1).bars 15).arrivals + 1 < 511
    ∧ (pairTeam.teamGroups 1).Nodup ∧ (∀ k ∈ pairTeam.teamGroups 1, (pairTeam.grp k).divert = false)
    ∧ 1 ≤ (kget Barrier.start (bare.grid 1).cbars 7).arrivals + 1 := ⟨ready_of (by decide), by decide⟩

/-- Entries of every kind at the top of its range, one out of range, one pending and unmasked behind one that is not. -/
theorem witness_Events :
    (let s := setS (setS bare 4 0xCFFFFFFF4F000001) 5 0x87FFFFFFBF000002
      let p := upd s fun g => { g with evpend := 2 ^ 39 }
      let es : List WaitEntry := [⟨15, 0x1008⟩];
      s.Ready [.v 319] ∧ s.act al ≠ [] ∧ s.act g1 = [] ∧ listedEntry (closed (setS bare 4 0x50000000)) (.s 4) 0 = none
        ∧ listedEntry (closed (setS bare 4 0x0F000000)) (.s 4) 0 = some ⟨15, 0x1000⟩ ∧ listedEntry (closed (setS bare 4 0x47FFFFFF)) (.s 4) 0 = some ⟨23, 0xFF8⟩
        ∧ listedEntry (closed (setS bare 4 0xBF000001)) (.s 4) 0 = some ⟨127, 0x1008⟩ ∧ listedEntry (closed (setS bare 4 0xDF000000)) (.s 4) 0 = some ⟨55, 0x1000⟩
        ∧ listedEntry (closed (setS bare 4 0x10000000)) (.s 4) 0 = none ∧ listedEntry (closed (setS bare 4 0xE0000000)) (.s 4) 0 = none
        ∧ (listedEntry (closed (setS bare 4 0x0F000001)) (.s 4) 0 = es[0]?) ∧ (bare.seen.evpend.getLsbD 15 && !bare.seen.evmask.getLsbD 15) = false
        ∧ (p.seen.evpend.getLsbD 39 && !p.seen.evmask.getLsbD 39) = true) :=
  ⟨ready_of (by decide), by decide⟩

/-- A free mailbox, a full one, one of another grid, a withdrawn and a frozen core, one message that is the last. -/
theorem witness_Mailboxes : bare.Ready [.s 63, .v 319] ∧ bare.act al ≠ []
    ∧ (let s := (setS bare 63 (31 * 8)).setCore 0 { Core.fresh with mbox := [(31, ⟨1, [1, 2, 3, 4]⟩), (5, ⟨9, [1]⟩), (6, ⟨1, [7]⟩)] }
      (mailbox s 0 31).msgs ≠ [] ∧ 4 ≤ (mailbox s 0 31).msgs.length ∧ (mailbox s 0 5).grid ≠ 1 ∧ (mailbox s 0 5).msgs ≠ [] ∧ (mailbox s 0 0).msgs = []
        ∧ (mailbox s 0 6).msgs = 7 :: [] ∧ (mailbox s 0 6).grid = (s.team s.seen.team).grid ∧ (s.core 0).withdrawn = false ∧ (s.core 0).frozen = false
        ∧ (bare.setCore 7 { Core.fresh with withdrawn := true }).seen.core / 8 * 8 + (groupVal (setS bare 63 7) al (.s 63)).toNat % 8 = 7) :=
  ⟨ready_of (by decide), by decide, by decide⟩

/-- A slot whose pip equals the phase, one whose does not, a ring and a slot that are not there. -/
theorem witness_StageRings : pairTeam.Ready [.s 63] ∧ pairTeam.Ready [.zero] ∧ pairTeam.act al ≠ [] ∧ ringSize pairTeam 0 = 2 ∧ ringSize pairTeam 7 = 0
    ∧ ringPlace 2 (some (1, true)) 0 = some (1, true) ∧ ringPlace 2 (some (2, true)) 0 = none ∧ ringPlace 0 none 5 = none ∧ ringPlace 2 none 3 = some (1, false)
    ∧ slotBit (pairTeam.team pairTeam.seen.team) Ring.pips 0 1 = some true ∧ slotBit (pairTeam.team pairTeam.seen.team) Ring.pips 0 0 = some false :=
  ⟨ready_of (by decide), ready_of (by decide), by decide⟩

/-- Grow requests at the limits: of a group with 4 granules, of one with 20, behind a request that waits, and on a core whose other groups
have taken the rest. -/
theorem witness_Growth :
    (let s := upd bare fun g => { g with gran := 4 }
      let m := bareAs .matrix
      let queued := s.setCore 0 { Core.fresh with grow := [⟨40, false, 1⟩] }
      let behind := (m.setTeam 1 { m.myTeam with paired := true }).setCore 1 { Core.fresh with grow := [⟨40, true, 1⟩] }
      let full := { s with groups := s.groups ++ (List.range 9).map fun i => (64 + i, { bareGroup .vector with team := 2 }),
                           teams := s.teams ++ [(2, { Team.absent with phase := .resident, grid := 1, size := 9, core := 0, halves := 1 })] }
      s.Ready [] ∧ s.act al ≠ [] ∧ s.act g1 = [] ∧ 20 < s.me.gran + (17 : Fin 32).val ∧ s.me.gran + (16 : Fin 32).val ≤ 20
        ∧ noneWaits s false ∧ granFree s 16 ∧ ¬ noneWaits queued false ∧ noneWaits queued true
        ∧ s.me.gran < 1 + (4 : Fin 32).val ∧ 1 + (3 : Fin 32).val ≤ s.me.gran
        ∧ m.ReadyAs matrixOnly [] ∧ 2 < m.myTeam.halves + (1 : Fin 4).val ∧ m.myTeam.halves + (0 : Fin 4).val ≤ 2
        ∧ noneWaits m true ∧ halvesFree m 0 ∧ ¬ noneWaits behind true ∧ ¬ halvesFree m 3
        ∧ (full.setMe (closed full)).freeGran 0 < 17) :=
  ⟨ready_of (by decide), by decide, by decide, by decide, by decide, by unfold noneWaits; decide, by unfold granFree; decide,
    by unfold noneWaits; decide, by unfold noneWaits; decide, by decide, by decide, readyAs_of (by decide), by decide, by decide,
    by unfold noneWaits; decide, by unfold halvesFree; decide, by unfold noneWaits; decide, by unfold halvesFree; decide, by decide⟩

/-- A request that fits and one that does not, with another group of the core that goes on; one of a paired team that is the first on its
core and behind another on the partner core. -/
theorem witness_Growth_grants :
    (let g := { bareGroup .vector with gran := 4, status := .blocked (.regGrow 2), slot := 1, index := 1 }
      let s := (bare.setGrp 33 g).setCore 0 { Core.fresh with slots := [(0, { Bind.free with valid := true, key := 32, gran := 20 }),
        (1, { Bind.free with valid := true, key := 33, gran := 4 })], grow := [⟨33, false, 2⟩] };
      (s.core 0).grow = [] ++ ⟨33, false, 2⟩ :: [] ∧ (∃ j ∈ s.groupsOn 0, j ≠ 33 ∧ (s.grp j).status = .running) ∧ s.growFits ⟨33, false, 2⟩ = true
        ∧ (s.grp 33).divert = false ∧ s.growFits ⟨33, false, 255⟩ = false ∧ bare.core 0 = Core.fresh
        ∧ (s.core 0).grow.find? (fun x => x.acc == false) = some ⟨33, false, 2⟩) ∧
    (let g := { bareGroup .matrix with status := .blocked (.accGrow 1), slot := 1, index := 1 }
      let s := (((bare.setGrp 33 g).setTeam 1 { bare.myTeam with paired := true, halves := 0 }).setCore 0 { Core.fresh with grow := [⟨33, true, 1⟩] }).setCore 1
        { Core.fresh with grow := [⟨70, true, 1⟩, ⟨33, true, 1⟩] };
      (s.team 1).cores = [0, 1] ∧ (s.core 0).grow.find? (fun x => x.acc == true) = some ⟨33, true, 1⟩
        ∧ (s.core 1).grow.find? (fun x => x.acc == true) = some ⟨70, true, 1⟩) := by decide

/-- A group of a grid with `sys`, and a validity word. -/
def sysState : State := (onDemo 0).setGrid 1 { (onDemo 0).myGrid with sys := true, pkt := { (onDemo 0).myGrid.pkt with vword := 0x900000 } }

theorem witness_SystemInstructions : bare.Ready [.v 319, .s 63, .zero] ∧ bare.Ready [.v 319] ∧ bare.Ready [.zero] ∧ bare.act al ≠ []
    ∧ orderedReg .evmaskHi = true ∧ (aged flying).inFlight flying.focus = true ∧ flying.Ready [.v 319] ∧ (aged bare).inFlight bare.focus = false
    ∧ bare.myGrid.pkt.vword = 0 ∧ bare.myGrid.sys = false ∧ SysReg.evmaskHi ≠ .sidebase ∧ sysState.Ready [.v 319] ∧ sysState.act al ≠ []
    ∧ sysState.myGrid.sys = true ∧ sysState.myGrid.pkt.vword ≠ 0 ∧ sysState.Sound
    ∧ good ((aged sysState).vread sysState.seen.core sysState.myPart sysState.myGrid.pkt.vword.toNat 8) = true
    ∧ okAnd ((aged sysState).translate sysState.seen.core sysState.myPart Need.write sysState.myGrid.pkt.vword.toNat) (fun s1 w =>
        match s1.physRead w.pa 8 with
        | (s2, some bs) => (s2.physWrite w.pa (leBytes 8 (leNat bs ||| (validBits sysState al (.bit 63)).toNat))).2
        | (_, none) => false) = true
    ∧ (let s := bare.setGrid 1 { bare.myGrid with pkt := { bare.myGrid.pkt with vword := 8 } }
      s.Ready [.zero] ∧ s.act al ≠ [] ∧ s.myGrid.pkt.vword ≠ 0 ∧ good ((aged s).vread s.seen.core s.myPart 8 8) = false
        ∧ good ((aged s).translate s.seen.core s.myPart Need.write 8) = false) :=
  ⟨ready_of (by decide), ready_of (by decide), ready_of (by decide), by decide, by decide, by decide, ready_of (by decide), by decide, by decide,
    by decide, by decide, ready_of (by decide), by decide, by decide, by decide, sound_of (by decide), by decide, by decide,
    ready_of (by decide), by decide, by decide, by decide, by decide⟩

/-- A trap entry and none; words of rows 1 and 6; a fetch that fails, one that cannot be read and one that succeeds. -/
theorem witness_TrapsAndFaults : (packet bare).trap = 0
    ∧ (packet (bare.setGrid 1 { bare.myGrid with pkt := { bare.myGrid.pkt with trap := 0x4000 } })).trap ≠ 0 ∧ bare.Ready [] ∧ (onDemo 0).Ready []
    ∧ refusedBy 0x7000000000000000 = 2 ∧ refusedBy 0x8000C50091208300 = 1
    ∧ good (bare.translate bare.me.core bare.myPart Need.fetch bare.me.cur.toNat) = false
    ∧ okAnd ((onDemo 0).translate (onDemo 0).me.core (onDemo 0).myPart Need.fetch (onDemo 0).me.cur.toNat) (fun s1 x => (s1.physRead x.pa 8).2.isSome)
        = true
    ∧ (let s := { onDemo 0 with bad := [0x200000] }
      okAnd (s.translate s.me.core s.myPart Need.fetch s.me.cur.toNat) (fun s1 x => (s1.physRead x.pa 8).2.isNone) = true) :=
  ⟨by decide, by decide, ready_of (by decide), ready_of (by decide), by decide, by decide, by decide, by decide, by decide⟩

/-- The indices of a ring leave room, or its header cannot be read. -/
def roomOf (s : State) (part : Nat) (host : Bool) : Bool :=
  match s.ringCons (s.part part) host with
  | some c => ((s.part part).prod host - c).toNat != 2 ^ (s.part part).logs.getD (if host then 1 else 0) 0
  | none => false

theorem room_of {s : State} {part : Nat} {host : Bool} (h : roomOf s part host = true) : hasRoom s part host := by
  unfold roomOf at h
  split at h
  · exact ⟨_, ‹_›, by simpa using h⟩
  · simp at h

theorem noRoom_of {s : State} {part : Nat} {host : Bool} (h : roomOf s part host = false) : ¬ hasRoom s part host := by
  rintro ⟨c, hc, hn⟩
  unfold roomOf at h
  rw [hc] at h
  simp only [bne_eq_false_iff_eq] at h
  exact hn h

/-- The host ring lies in host memory, and the link is down. -/
def onHost (s : State) : State :=
  { s.setPart 0 { s.part 0 with hring := 0x8000000000000 } with card := { s.card with link := false } }

/-- A record for a ring with room, behind a waiting one, for a full ring; a notice; a ring whose header cannot be read, and one that
cannot be written. -/
theorem witness_RecordRings :
    (let r : Record := { words := List.replicate 8 0, timeAt := some 5, job := none }
      let s := onDemo 0
      let waiting := s.setPart 0 { s.part 0 with fwait := [r], notices := [r] }
      let full := s.setPart 0 { s.part 0 with fprod := 16, hprod := 16, hwait := [r], notices := [r] }
      s.Sound ∧ r.words.length = 8 ∧ (s.part 0).waitList false = [] ∧ hasRoom s 0 false ∧ hasRoom s 0 true ∧ canWrite s 0 false r ∧ canWrite s 0 true r ∧ (waiting.part 0).waitList false = r :: []
        ∧ hasRoom waiting 0 false ∧ canWrite waiting 0 false r ∧ canWrite waiting 0 true r ∧ staysUp waiting 0 ∧ ¬ hasRoom full 0 false ∧ ¬ hasRoom full 0 true ∧ (full.part 0).waitList true = r :: []
        ∧ (waiting.part 0).notices = r :: [] ∧ (waiting.part 0).hwait = [] ∧ (full.part 0).hwait ≠ [] ∧ RingWritable s 0 true
        ∧ ¬ hasRoom { s with bad := [0x400004] } 0 false ∧ ¬ canWrite (onHost s) 0 true r) :=
  ⟨sound_of (by decide), by decide, by decide, room_of (by decide), room_of (by decide), by unfold canWrite; decide, by unfold canWrite; decide, by decide,
    room_of (by decide), by unfold canWrite; decide, by unfold canWrite; decide, by unfold staysUp; decide, noRoom_of (by decide), noRoom_of (by decide),
    by decide, by decide, by decide, by decide, ⟨by decide, by decide⟩, noRoom_of (by decide), by unfold canWrite; decide⟩

/-- The heap entry for a packet of the host. -/
def entryFor (s : State) (p : Packet) : Graph :=
  { Graph.absent with live := true, pkt := p, order := (counted s 0).nextOrder, depth := 1, deadline := 2 ^ 62, expiry := 2 ^ 62 }

theorem witness_Admissions :
    (let s := onDemo 0
      let p := demoPacket 0
      let q := { p with deadline := 2 ^ 63 }
      p.recAddr ≠ 0 ∧ ({ p with recAddr := 0 } : Packet).recAddr = 0 ∧ ((counted s 0).shapeCheck 0 p false false).2 = none ∧ ((counted s 0).shapeCheck 0 { p with ver := 0 } false false).2.isSome = true
        ∧ (∀ r, r ∈ [0, 1, 2, 3] → ¬ refusedWith (counted s 0) 0 q.deadline q r)
        ∧ refusedWith (counted s 0) 0 5 { p with budget := 6, deadline := 5 } 1
        ∧ refusedWith ((counted s 0).setPart 0 { (counted s 0).part 0 with quota := 1 }) 0 q.deadline q 2
        ∧ refusedWith ((counted s 0).setPart 0 { (counted s 0).part 0 with share := 1 }) 0 (2 ^ 40) { p with work := 2 ^ 40, deadline := 2 ^ 40 } 3
        ∧ Admitted (counted s 0) 0 p false none (entryFor s p)) :=
  ⟨by decide, by decide, by decide, by decide, by unfold refusedWith demandOk; decide, by unfold refusedWith demandOk; decide,
    by unfold refusedWith demandOk; decide, by unfold refusedWith demandOk; decide,
    ⟨by decide, by decide, by decide, by decide, by decide, by decide⟩⟩

/-- A launch by the leader at depths 1 and 10, by another thread, from an unreadable address; queues with an entry and without. -/
theorem witness_LaunchesAndQueues :
    (let s := setS (setP (onDemo 0) 1 [0]) 4 0x900000
      let deep := s.setGrid 1 { s.myGrid with depth := 10 }
      let queue := (s.setPart 0 { s.part 0 with nlimit := 1 }).setBytes 0x600040 [0, 0, 0x90]
      s.Ready [.v 319, .s 4] ∧ s.Ready [] ∧ s.act g1 ≠ [] ∧ (∀ l ∈ s.act g1, s.seen.index = 0 ∧ l = 0) ∧ (∃ l ∈ s.act al, s.seen.index ≠ 0 ∨ l ≠ 0)
        ∧ good ((aged s).readPacket s.seen.core s.myPart (groupVal s g1 (.s 4)) ((aged s).groupView s.focus)) = true ∧ s.myGrid.depth < 10 ∧ 10 ≤ deep.myGrid.depth
        ∧ good ((aged s).readPacket s.seen.core s.myPart 0x900001 ((aged s).groupView s.focus)) = false ∧ s.act g2 = []
        ∧ (queue.part 0).live = true ∧ (queue.part 0).dropping = false ∧ (queue.part 0).nlimit ≠ (queue.part 0).ncons ∧ (s.part 0).nlimit = (s.part 0).ncons
        ∧ (queue.physRead 0x600040 8).2 = some [0, 0, 0x90, 0, 0, 0, 0, 0] ∧ good (queue.readPacket noCore 0 0x900000) = true
        ∧ s.myGrid.stopping = false) :=
  ⟨ready_of (by decide), ready_of (by decide), by decide⟩

/-- A package whose heap holds an admitted packet 5: of one kernel, or of a graph with the nodes 2 and 3 and root 2. -/
def admitted (p : Packet) : State :=
  ((onDemo 0).setGraph 5 { Graph.absent with live := true, pkt := p, deadline := 2 ^ 62, expiry := 2 ^ 62, depth := 1 })

def graphPacket : Packet := { demoPacket 0 with graph := true, root := 2 }

theorem witness_GraphsAndNodes_start :
    (let s := admitted (demoPacket 0)
      let b := admitted { demoPacket 0 with nbind := 1, bind := 2 ^ 56 }
      let t := admitted graphPacket
      let v := ((t.setPart 0 { t.part 0 with nn := 16, nb := 0 }).setNode 2 { Node.blank with w0 := 1, job := 0x80, succ0 := 0xFFFFFFFFFFFFFFFF, succ1 := 0xFFFFFFFFFFFFFFFF })
      s.nextGraph = some 5 ∧ (s.captureBindings (s.graph 5)).2 = some [] ∧ (s.graph 5).pkt.graph = false ∧ (s.graph 5).pkt.vword = 0
        ∧ (s.part 0).dropping = false ∧ b.nextGraph = some 5 ∧ (b.captureBindings (b.graph 5)).2 = none
        ∧ t.nextGraph = some 5 ∧ (t.captureBindings (t.graph 5)).1.graphNodes (t.graph 5) = none
        ∧ v.nextGraph = some 5 ∧ (v.captureBindings (v.graph 5)).1.graphNodes (v.graph 5) = some [2] ∧ (v.graph 5).pkt.root = 2
        ∧ (v.graph 5).expired = false ∧ deviceTime v 0 < (v.graph 5).expiry) := by decide

theorem witness_GraphsAndNodes :
    (let n : Node := { Node.blank with graph := 5, count := 2, kind := 3, phase := .ready }
      let t := admitted graphPacket
      let sync := t.setNode 2 n
      let skips := t.setNode 2 { n with kind := 0, err := true, skip := true }
      let lapsed := (t.setGraph 5 { t.graph 5 with expired := true }).setNode 2 n
      let kern := (t.setNode 2 { n with kind := 0, cjob := 0x900000 })
      let lost := (t.setNode 2 { n with kind := 1, cjob := 2 ^ 56 })
      let ran := t.setNode 2 { n with phase := .running };
      sync.nextNode = some 2 ∧ sync.graphOver 5 = false ∧ skips.nextNode = some 2 ∧ ((skips.node 2).err && (skips.node 2).skip) = true
        ∧ lapsed.nextNode = some 2 ∧ lapsed.graphOver 5 = true ∧ kern.nextNode = some 2 ∧ good (kern.vread noCore 0 0x900000 128) = true
        ∧ good (lost.vread noCore 0 (2 ^ 56) 128) = false ∧ ran.nodeRan 2 = true ∧ sync.nodeRan 2 = false ∧ t.nodes = []) := by decide

/-- Nothing to start, and one of two entries with equal deadlines. -/
theorem witness_GraphsAndNodes_none : (∀ k, ¬ startable State.reset k) ∧ startable (admitted graphPacket) 5 :=
  ⟨fun k ⟨x, hx, _⟩ => absurd hx (by have h : State.reset.graphs = [] := rfl
                                     rw [h]; simp),
    ⟨(admitted graphPacket).graph 5, by decide⟩⟩

/-- Each kind of command as the oldest of its link; a waiting team of the grid; a team that may retire, the last of its grid and not. -/
theorem witness_LinkCommands :
    (let down (n : Nat) (k : Byte) := bare.setLink n { Link.fresh with down := [⟨k, 0, 1, 2, 3⟩] }
      let up (n : Nat) (k : Byte) := bare.setLink n { Link.fresh with up := [⟨k, 0, 1, 2, 3⟩] }
      let dead := after (.exit al) bare
      let last := dead.setGrid 1 { dead.grid 1 with started := 1 }
      let x := { last.grid 1 with retired := (last.grid 1).retired + 1 };
      oldest (up 3 4) 3 true = some ⟨4, 0, 1, 2, 3⟩ ∧ oldest (up 32 6) 32 true = some ⟨6, 0, 1, 2, 3⟩ ∧ oldest bare 3 true = none
        ∧ oldest (down 31 1) 31 false = some ⟨1, 0, 1, 2, 3⟩ ∧ ((down 31 1).grid 1).live = true ∧ ((down 31 1).grid 1).stopping = false
        ∧ oldest (down 32 2) 32 false = some ⟨2, 0, 1, 2, 3⟩ ∧ (bare.grid 9).live = false
        ∧ (∃ w ∈ ((bare.setCluster 3 { Cluster.fresh with waiting := [⟨1, 0⟩] }).cluster 3).waiting, w.grid = 1) ∧ (bare.cluster 3).waiting = []
        ∧ oldest (down 0 3) 0 false = some ⟨3, 0, 1, 2, 3⟩ ∧ 6 < (7 : Byte).toNat ∧ oldest (down 0 255) 0 false = some ⟨255, 0, 1, 2, 3⟩
        ∧ oldest (up 0 0) 0 true = some ⟨0, 0, 1, 2, 3⟩ ∧ oldest (up 0 0) 0 false = none
        ∧ bare.retirable 1 = false ∧ dead.retirable 1 = true ∧ (dead.grid 1).live = true ∧ (dead.grid 1).started ≠ (dead.grid 1).retired + 1
        ∧ last.retirable 1 = true ∧ (last.team 1).grid = 1 ∧ x.live = true ∧ x.started = x.retired ∧ x.retired + x.cancelled = x.pkt.teams + 1
        ∧ (last.part (last.graph x.graph).part).dropping = false ∧ (bare.cores.map Prod.fst).Nodup) := by decide

/-- Grid 2 of the same packet waits in cluster 0. -/
def waitingDemo : State :=
  ((onDemo 0).setGrid 2 { (onDemo 0).myGrid with pkt := demoPacket 0 }).setCluster 0 { (onDemo 0).cluster 0 with waiting := [⟨2, 0⟩] }

/-- The same with every core of the cluster but core 0 withdrawn, a waiting grid of an earlier deadline than its team's, and an unanswered command. -/
def fullDemo : State :=
  let s := (waitingDemo.setGrid 2 { waitingDemo.grid 2 with deadline := 5 }).setGrp 32 { (onDemo 0).me with status := .blocked (.bar 1 false) };
  (List.range 7).foldl (fun s i => s.setCore (i + 1) { Core.fresh with withdrawn := true }) { s with card := { s.card with mqlimit := 1 } }

/-- A saved team with a group that runs once it is restored. -/
def savedDemo : State :=
  let s := onDemo 0;
  (s.setTeam 1 { s.team 1 with phase := .saved, image := 0x800000, imageSize := 64 }).setCore 0 Core.fresh

theorem witness_TeamPlacements :
    (let s := waitingDemo
      let fits := (s.waitingIn 0).filter fun w => (s.placeOn 0 (s.grid w.grid).pkt).isSome
      let late := savedDemo.setGrid 1 { savedDemo.grid 1 with expired := true };
      s.expiringOut 0 = false ∧ s.firstWaiting fits = some ⟨2, 0⟩ ∧ s.placeOn 0 (s.grid 2).pkt = some 1
        ∧ ((bare.waitingIn 0).filter fun w => (bare.placeOn 0 (bare.grid w.grid).pkt).isSome) = [] ∧ late.expiringOut 0 = true) := by decide

/-- Graph 1 is due, with a started grid, a ready node and an evicted team. -/
def dueDemo : State :=
  let d := savedDemo
  ((d.setGraph 1 { d.graph 1 with expiry := 0, nodes := [2] }).setGrid 1 { d.grid 1 with started := 1 }).setNode 2
    { Node.blank with graph := 1, phase := .ready }

/-- The grid of a running, a blocked, a parked, an evicted and an ended group has expired, with and without a wrap-up entry. -/
def lateGrid (wrap : Word) (s : State) : State := s.setGrid 1 { s.grid 1 with expired := true, pkt := { Packet.empty with wrap := wrap } }

/-- A graph that is due and one that is not; the groups of an expired grid; an ended group with an `ACCMERGE` of its own. -/
theorem witness_Deadlines :
    (let d := onDemo 0
      let due := dueDemo
      let late := lateGrid 0x5000 bare
      let plain := lateGrid 0 bare
      let out := lateGrid 0x5000 savedDemo
      let ended := after (.exit al) late
      let o : MergeOp := ⟨32, 0, [], 0, 0, [], [], 0⟩
      let owes := ended.setTeam 1 { ended.team 1 with ops := [.merge o] };
      (due.graph 1).live = true ∧ (due.graph 1).started = true ∧ (due.graph 1).expired = false ∧ (due.graph 1).expiry ≤ deviceTime due 0
        ∧ due.gridsOf 1 = [1] ∧ (due.grid 1).stopping = false ∧ (due.grid 1).started ≠ (due.grid 1).retired
        ∧ (∀ n ∈ (due.graph 1).nodes, (due.node n).graph = 1 ∧ (due.node n).phase = .ready ∧ (due.node n).skip = false)
        ∧ ((due.gridTeams 1).filter fun j => (due.team j).phase == .saved) = [1] ∧ due.teamGroups 1 = [32]
        ∧ (∀ m ∈ due.teamGroups 1, (due.grp m).team = 1 ∧ (due.grp m).raised = false ∧ (due.grp m).status ≠ .ended)
        ∧ (due.graph 1).pkt.graph = false ∧ deviceTime d 0 < (d.graph 1).expiry
        ∧ (late.grp 32).status = .running ∧ (late.grid (late.team (late.grp 32).team).grid).live = true ∧ (late.grid 1).expired = true
        ∧ (late.team 1).phase = .resident ∧ (late.core 0).frozen = false ∧ (late.grp 32).raised = false ∧ (late.team 1).ops = []
        ∧ (late.grid 1).pkt.wrap ≠ 0 ∧ (plain.grid 1).pkt.wrap = 0
        ∧ ((upd late fun g => { g with status := .parked .trap }).grp 32).status = .parked .trap
        ∧ (out.grp 32).status = .running ∧ (out.grp 32).raised = false ∧ (out.team (out.grp 32).team).phase = .saved ∧ (out.team 1).ops = []
        ∧ (ended.grp 32).status = .ended ∧ (ended.grp 32).team = 1 ∧ (ended.team 1).ops = [] ∧ (ended.team 1).phase = .resident ∧ (ended.grid 1).expired = true
        ∧ (owes.team (owes.grp 32).team).ops = [.merge o] ∧ o.group = 32 ∧ (owes.grp 32).status = .ended ∧ (bare.grid 2).live = false) := by
  decide

/-- A grid at its deadline, no group of which waits to grow. -/
theorem witness_Deadlines_grid :
    (let s := bare.setGrid 1 { bare.myGrid with deadline := 0 };
      (s.grid 1).live = true ∧ (s.grid 1).deadline ≤ deviceTime s (s.grid 1).part ∧ s.gridTeams 1 = [1] ∧ (s.team 1).phase = .resident
        ∧ (∀ j ∈ s.gridTeams 1, ∀ m ∈ s.teamGroups j, (s.grp m).team = j ∧ (s.grp m).core ∈ (s.team j).cores) ∧ s.teamGroups 1 = [32]
        ∧ ∀ c, (s.core c).grow = []) := by
  refine ⟨by decide, by decide, by decide, by decide, by decide, by decide, fun c => ?_⟩
  show (kget Core.fresh bare.cores c).grow = []
  have h : bare.cores = [] := by decide
  rw [h]
  rfl

/-- A save area with no image takes what is no larger than it. -/
theorem imageFit_empty (s : State) (part n : Nat) (hi : s.images part = []) (h : n ≤ (s.part part).savesz) :
    (s.imageFit part n).isSome = true := by
  unfold State.imageFit
  simp [hi, h]

/-- The same package with a save area of `n` bytes. -/
def roomy (n : Nat) : State := { fullDemo with parts := fullDemo.parts.map fun e => (e.1, { e.2 with savesz := n }) }

theorem team_parts (s : State) (ps : KMap Partition) (k : Nat) : ({ s with parts := ps }).team k = s.team k := rfl

theorem roomy_grid (n : Nat) : ((roomy n).team 1).grid / 2 ^ 58 = 0 := by
  have h : (fullDemo.team 1).grid / 2 ^ 58 = 0 := by decide
  unfold roomy
  rw [team_parts]
  exact h

theorem roomy_save (n : Nat) : ((roomy n).part (((roomy n).team 1).grid / 2 ^ 58)).savesz = n := by
  have h : fullDemo.parts = [(0, fullDemo.part 0)] := by decide
  rw [roomy_grid]
  unfold roomy State.part
  rw [h]
  simp only [List.map_cons, List.map_nil, kget, if_true]

theorem images_parts (s : State) (ps : KMap Partition) (k : Nat) : ({ s with parts := ps }).images k = s.images k := rfl

theorem size_parts (s : State) (ps : KMap Partition) (k : Nat) :
    ({ s with parts := ps }).rawBytes k = s.rawBytes k ∧ ({ s with parts := ps }).teamShape k = s.teamShape k := ⟨rfl, rfl⟩

theorem roomy_images (n : Nat) : (roomy n).images (((roomy n).team 1).grid / 2 ^ 58) = [] := by
  rw [roomy_grid]
  exact (images_parts fullDemo _ 0).trans (by decide)

theorem roomy_size (n : Nat) : (roomy n).rawBytes 1 = 278528 ∧ (roomy n).teamShape 1 = fullDemo.teamShape 1 :=
  ⟨(size_parts fullDemo _ 1).1.trans (by decide), (size_parts fullDemo _ 1).2⟩

theorem witness_EvictionAndRestore_fits :
    ∃ s : State, s.starved 0 = some ⟨2, 0⟩ ∧ s.victim 0 ⟨2, 0⟩ = some 1
      ∧ ∀ n, n ≤ s.rawBytes 1 + Config.imageExtra (s.teamShape 1) + 64 → (s.imageFit ((s.team 1).grid / 2 ^ 58) n).isSome = true := by
  refine ⟨roomy (278528 + Config.imageExtra (fullDemo.teamShape 1) + 64), rfl, rfl, fun n hn => ?_⟩
  refine imageFit_empty _ _ _ (roomy_images _) ?_
  rw [roomy_save]
  rwa [(roomy_size _).1, (roomy_size _).2] at hn

/-- A team that may be restored, one whose image is bad, and none. -/
theorem witness_EvictionAndRestore : bare.starved 0 = none ∧ savedDemo.restorable 1 = true
    ∧ (∀ j ∈ savedDemo.savedIn 0, savedDemo.restorable j = true → savedDemo.restoresBefore j 1 = false) ∧ bare.restorable 1 = false
    ∧ (let s := { savedDemo with bad := [0x800000] }
      s.restorable 1 = true ∧ s.imageGood 1 = false) ∧ (savedDemo.grp 32).divert = false ∧ (savedDemo.grp 32).status = .running := by decide

/-- A running core, one that cannot freeze; a frozen one with a spare and without; teams that the error hit or missed; an evicted team. -/
theorem witness_FreezeAndMigration :
    (let fr (u : Byte) (l : List Nat) := bare.setCore 0 { Core.fresh with frozen := true, unit := u, lost := l }
      let used (s : State) := (s.setCore 0 { Core.fresh with frozen := true, unit := 1 }).setCluster 0 { Cluster.fresh with spareUsed := true };
      (bare.core 255).frozen = false ∧ (bare.core 255).withdrawn = false ∧ (5 : Byte) ≠ 0 ∧ (5 : Byte).toNat ≤ 5 ∧ 5 < (6 : Byte).toNat
        ∧ ((fr 1 []).core 0).frozen = true ∧ ((fr 1 []).core 0).withdrawn = false ∧ ((fr 1 []).cluster 0).spareUsed = false
        ∧ ((fr 1 []).residentOn 0).filter (fun tk => sharedUnit ((fr 1 []).core 0).unit || ((fr 1 []).core 0).lost.contains tk) = []
        ∧ (∀ o ∈ ((fr 1 []).team 1).ops, o.isMma = false) ∧ ((fr 1 []).groups.map Prod.fst).Nodup
        ∧ (fr 5 []).residentOn 0 = [1] ∧ ((fr 5 []).core 0).unit = 5 ∧ ((fr 1 [1]).residentOn 0).filter (fun tk => sharedUnit ((fr 1 [1]).core 0).unit
          || ((fr 1 [1]).core 0).lost.contains tk) = [1] ∧ 1 ∈ ((fr 1 [1]).core 0).lost
        ∧ ((used bare).cluster 0).spareUsed = true ∧ ((used bare).core 0).frozen = true ∧ ((used bare).core 0).withdrawn = false ∧ (used bare).residentOn 0 = [1]
        ∧ (used savedDemo).savedOf 0 = [1] ∧ (used savedDemo).residentOn 0 = [] ∧ (used savedDemo).teamGroups 1 = [32]
        ∧ ((used savedDemo).groups.map Prod.fst).Nodup) := by decide

/-- A package with a sector cache of the smallest size and one dirty sector. -/
def tierDemo : State := { bare with boot := { bare.boot with c := 1 }, sectors := [(0, ⟨0, true, true, false⟩)] }

theorem tierDemo_sound : tierDemo.Sound := by
  refine ⟨by decide, ?_, fun _ i hv hd => ?_, ⟨by decide, by decide, by decide⟩, ⟨by decide, by decide⟩⟩
  · intro i x hx _
    have h : tierDemo.sectors = [(0, ⟨0, true, true, false⟩)] := rfl
    rw [h, List.mem_singleton, Prod.mk.injEq] at hx
    obtain ⟨rfl, rfl⟩ := hx
    exact ⟨by decide, by decide⟩
  · by_cases h : i = 0
    · subst h; exact absurd hd (by decide)
    · have : tierDemo.sector i = Sector.reset := by
        simp [State.sector, tierDemo, kget, h]
      rw [this] at hv; exact absurd hv (by decide)

/-- An address of each backing; a hit, a dirty victim, an empty place, an unknown sector, a wait for a fill; walks that find a page and
that do not; an accept handle. -/
theorem witness_MemoryEvents : tierDemo.Sound ∧ bare.Sound ∧ bare.backing 0 ≠ .lpddr ∧ tierDemo.backing 0x10000000000 = .lpddr ∧ 0 < tierDemo.sectorCount
    ∧ (tierDemo.sector 0).unknown = false ∧ (tierDemo.sector 0).valid = true ∧ (tierDemo.sector 0).dirty = true ∧ (tierDemo.sector 0).saddr = 0
    ∧ (tierDemo.sector 1).valid = false ∧ 2 ^ 36 / 2048 % tierDemo.sectorCount = 0 ∧ (tierDemo.groups.map Prod.fst).Nodup
    ∧ (∀ e ∈ tierDemo.groups, e.2.waits = none)
    ∧ (({ tierDemo with sectors := [(0, ⟨0, true, false, true⟩)] } : State).sector 0).unknown = true
    ∧ (bare.part 0).live = false ∧ ((onDemo 0).part 0).live = true ∧ (onDemo 0).heldFor 255 0 0x900000 = none
    ∧ (∃ u h, (((onDemo 0).addCounter 0x0F 255 1).addCounter 0x10 31 1).walk 255 0 {} 0x900000 = (u, .ok h))
    ∧ (∃ u e, (((onDemo 0).addCounter 0x0F 0 1).addCounter 0x10 0 1).walk 0 0 {} 0x1000000000000 = (u, .error e))
    ∧ (let s := (onDemo 0).setPart 0 { (onDemo 0).part 0 with handles := [(7, 0xC000120003000000)] }
      acceptedFrom s 0 0x0012 3 ∧ (bare.part 0).handles = []
        ∧ okAnd (s.translateRange noCore 0 Need.write 0x900000 4) (fun s1 ws => (s1.writePieces ws [1, 2, 3, 4]).2 && ws.length == 1) = true
        ∧ good (s.translateRange noCore 0 Need.write (2 ^ 56) 4) = false) :=
  ⟨tierDemo_sound, bare_sound, by decide, by decide, by decide, by decide, by decide, by decide, by decide, by decide, by decide, by decide, by decide,
    by decide, by decide, by decide, by decide, ⟨_, _, rfl⟩, ⟨_, _, rfl⟩, by unfold acceptedFrom; decide⟩

theorem witness_MemoryEvents_waits : ∃ s : State, waitsFill 0x1000 (s.grp 32) ∧ waitsFill 0x17FF (s.grp 32) ∧ ¬ waitsFill 0x1800 (s.grp 32) :=
  ⟨upd bare fun g => { g with waits := some (.fill 0x1004) }, ⟨_, rfl, by decide⟩, ⟨_, rfl, by decide⟩, fun ⟨b, hb, hc⟩ => by
    have : (some (Hold.fill 0x1004)) = some (Hold.fill b) := hb
    injection this with h; injection h with h; subst h; revert hc; decide⟩

/-- A partition with a page of coded kind at 0x40000000 whose sidecar line lies at `side` + 0x400000, a page of linear kind after it, and an
accept handle. -/
def pageDemo (side : Word) : State :=
  let s := (onDemo 0).pokeWords [(0x105008, 0x106001), (0x106000, 0x107001), (0x107000, 0x10000000A0001F), (0x107008, 0xA1001F)]
  s.setPart 0 { s.part 0 with sidebase := side, handles := [(7, 0xC000120003000000)] }

/-- A translated range that lies in one piece at `pa`. -/
def onePiece (s1 : State) (ws : List (Where × Nat)) (pa kind n : Nat) : Bool :=
  s1.carve == 0 && ws.map (fun w => (w.1.pa, w.1.kind, w.2)) == [(pa, kind, n)]

theorem onePiece_of {s1 : State} {ws : List (Where × Nat)} {pa kind n : Nat} {bs : List Byte} (h : onePiece s1 ws pa kind n = true)
    (hn : pa + n < hbmTop) (hb : n ≤ bs.length) : (s1.writePieces ws bs).2 = true ∧ (s1.writePieces ws bs).1.carve = 0 ∧ ∀ w ∈ ws, w.1.kind = kind := by
  unfold onePiece at h
  simp only [Bool.and_eq_true, beq_iff_eq] at h
  obtain ⟨hc, hw⟩ := h
  match ws, hw with
  | [w], hw =>
    simp only [List.map_cons, List.map_nil, List.cons.injEq, Prod.mk.injEq, and_true] at hw
    obtain ⟨rfl, rfl, rfl⟩ := hw
    refine ⟨?_, ?_, by simp⟩
    · simp only [State.writePieces, List.foldl_cons, List.foldl_nil, Bool.true_and]
      exact physWrite_hbm s1 _ _ (by rw [hc]; simp; omega)
    · simp only [State.writePieces, List.foldl_cons, List.foldl_nil]
      exact (State.carve_only (physWrite_wrote s1 _ _).1.only).trans hc

/-- A page of 65536 bytes with its line of 256 is stored. -/
theorem pageStored_of (bs : List Byte) (hb : bs.length = 65536 + 256) :
    ∃ s1 ws s2 ls, (pageDemo 0xB00000).translateRange noCore 0 Need.write 0x40000000 65536 = (s1, .ok ws) ∧ (∀ w ∈ ws, w.1.kind = 1)
      ∧ s1.translateRange noCore 0 Need.write ((pageDemo 0xB00000).lineAt 0 0x40000000) 256 = (s2, .ok ls)
      ∧ (s2.writePieces ws (bs.take 65536)).2 = true ∧ ((s2.writePieces ws (bs.take 65536)).1.writePieces ls (bs.drop 65536)).2 = true := by
  have h : okAnd ((pageDemo 0xB00000).translateRange noCore 0 Need.write 0x40000000 65536) (fun s1 ws => onePiece s1 ws 0xA00000 1 65536
      && okAnd (s1.translateRange noCore 0 Need.write ((pageDemo 0xB00000).lineAt 0 0x40000000) 256)
        fun s2 ls => onePiece s2 ls 0xF00000 0 256 && onePiece s2 ws 0xA00000 1 65536) = true := by decide
  revert h
  generalize pageDemo 0xB00000 = s
  intro h
  generalize s.translateRange noCore 0 Need.write 0x40000000 65536 = x at h ⊢
  obtain ⟨s1, _ | ws⟩ := x
  · cases h
  replace h := (Bool.and_eq_true _ _).mp h
  obtain ⟨hw, h⟩ := h
  refine ⟨s1, ws, ?_⟩
  generalize s1.translateRange noCore 0 Need.write (s.lineAt 0 0x40000000) 256 = y at h ⊢
  obtain ⟨s2, _ | ls⟩ := y
  · cases h
  obtain ⟨hl, hw2⟩ := (Bool.and_eq_true _ _).mp h
  have b := onePiece_of (bs := bs.take 65536) hw2 (by decide) (by have := List.length_take (i := 65536) (l := bs); omega)
  have c : onePiece (s2.writePieces ws (bs.take 65536)).1 ls 0xF00000 0 256 = true := by
    simp only [onePiece, Bool.and_eq_true, beq_iff_eq] at hl ⊢
    exact ⟨b.2.1, hl.2⟩
  exact ⟨s2, ls, rfl, b.2.2, rfl, b.1, (onePiece_of c (by decide) (by have := List.length_drop (i := 65536) (l := bs); omega)).1⟩

/-- A coded page with its line that is stored, bytes on a linear page, an address that does not translate, and one whose line does not. -/
theorem witness_MemoryEvents_pages :
    acceptedFrom (pageDemo 0xB00000) 0 0x0012 3
      ∧ (∃ bs : List Byte, bs.length = 65536 + 256 ∧
        ∃ s1 ws s2 ls, (pageDemo 0xB00000).translateRange noCore 0 Need.write 0x40000000 65536 = (s1, .ok ws) ∧ (∀ w ∈ ws, w.1.kind = 1)
          ∧ s1.translateRange noCore 0 Need.write ((pageDemo 0xB00000).lineAt 0 0x40000000) 256 = (s2, .ok ls)
          ∧ (s2.writePieces ws (bs.take 65536)).2 = true ∧ ((s2.writePieces ws (bs.take 65536)).1.writePieces ls (bs.drop 65536)).2 = true)
      ∧ okAnd ((pageDemo 0xB00000).translateRange noCore 0 Need.write 0x40010000 65536) (fun s1 ws => onePiece s1 ws 0xA10000 0 65536) = true
      ∧ good ((pageDemo 0xB00000).translateRange noCore 0 Need.write 0x40020000 65536) = false
      ∧ okAnd ((pageDemo 0x100000000000000).translateRange noCore 0 Need.write 0x40000000 65536) (fun s1 ws => onePiece s1 ws 0xA00000 1 65536
        && !good (s1.translateRange noCore 0 Need.write ((pageDemo 0x100000000000000).lineAt 0 0x40000000) 256)) = true :=
  ⟨by unfold acceptedFrom; decide, ⟨List.replicate (65536 + 256) 0, List.length_replicate, pageStored_of _ List.length_replicate⟩, by decide, by decide,
    by decide⟩

/-- A package after bring-up with an unanswered management command. -/
def asked25 : State := State.reset.demoMgmt 0

theorem asked25_accepted : accepted asked25 ∧ acceptedOn asked25 0 := by unfold acceptedOn accepted hasCommand; decide

/-- A legal block of a partition without a save area, its bytes at 0x900000, and the partition that it makes. -/
def blockWords : List Word :=
  [0, 0, 0, 9, 1, 0, 0, 0x400000, 0x500000, 0x600000, 0x700000, 135300, 0, 0, 0, 0]

def fromBlock : Partition :=
  { Partition.absent with
    live := true, toff := 9, share := 1, block := blockWords, fring := 0x400000, hring := 0x500000, sqn := 0x600000, sqp := 0x700000, logs := [4, 4, 4, 4] }

def blockDemo : State := ((asked25.setPart 0 { asked25.part 0 with share := 65535 }).setBytes 0x900000 (blockWords.flatMap wordBytes))

theorem blockWords_legal : blockLegal blockWords :=
  ⟨by decide, by decide, by decide, fun i h1 h2 => (by decide : ∀ i, i < 11 → 7 ≤ i → (blockWords.getD i 0).toNat % 4096 = 0) i (by omega) h1,
    by decide⟩

/-- A block that fits, for partition 1; one whose share does not; one of partition 0, whose rings move under an admitted packet. -/
theorem witness_PartitionCommands_block : accepted blockDemo ∧ blockDemo.argBacked 0x900000 128 = true ∧ ((blockDemo.physRead 0x900000 128).2.map (wordsOf 16))
      = some blockWords ∧ FromBlock (blockDemo.part 1) fromBlock blockWords ∧ (blockDemo.physRead 0x900000 128).1.blockFits 1 fromBlock = true
    ∧ (blockDemo.part 1).live = false
    ∧ (let s := blockDemo.setPart 0 { blockDemo.part 0 with share := 65536 }
      s.blockFits 1 fromBlock = false)
    ∧ FromBlock (blockDemo.part 0) { fromBlock with toff := 0, seq := 1 } blockWords
    ∧ ((blockDemo.part 0).live && ({ fromBlock with toff := 0, seq := 1 } : Partition).fixedPart != (blockDemo.part 0).fixedPart && !(blockDemo.heapOf 0).isEmpty) = true
    ∧ (blockDemo.physRead 0x900000 128).1.blockFits 0 { fromBlock with toff := 0, seq := 1 } = true ∧ ¬ blockLegal (blockWords.set 4 0)
    ∧ asked25.argBacked 0xFFFFFFFFFFFFFF80 128 = false :=
  ⟨by unfold accepted hasCommand; decide, by decide, by decide, ⟨by decide, by decide, by decide, by decide, by decide, by decide, by decide, by decide, by decide, by decide, by decide⟩,
    by decide, by decide, by decide, ⟨by decide, by decide, by decide, by decide, by decide, by decide, by decide, by decide, by decide, by decide, by decide⟩, by decide, by decide,
    fun h => absurd h.2.2.1 (by decide), by decide⟩

/-- Parked groups of every kind, a running one, and no such group; a parked job; a team that may be evicted. -/
theorem witness_PartitionCommands :
    (let s := asked25
      let k := 32
      let parked (p : GStatus) := s.setGrp k { s.grp k with status := p }
      let job := s.setJob 9 { Job.absent with live := true, phase := .parked, record := some 4 }
      let empty := { s with graphs := [], grids := [] };
      s.namedGroup 0 1 0 = some k ∧ s.namedGroup 0 2 0 = none ∧ (parked (.parked (.fault []))).namedGroup 0 1 0 = some k
        ∧ ((parked (.parked (.call (.v 3) [0]))).grp k).status = .parked (.call (.v 3) [0]) ∧ ((parked (.parked .trap)).grp k).status = .parked .trap
        ∧ (s.grp k).status = .running ∧ (1 : Word).toNat / 2 ^ 58 = 0 ∧ (s.grid 1).live = true ∧ (s.grid 2).live = false
        ∧ s.parkedJob 0 4 = none ∧ job.parkedJob 0 4 = some 9 ∧ ((s.gridTeams 1).filter fun tk => (s.team tk).number == 0) = [1]
        ∧ ((s.gridTeams 2).filter fun tk => (s.team tk).number == 0) = [] ∧ s.evictable 1 = false ∧ (parked (.blocked (.bar 1 false))).evictable 1 = true ∧ (1 : Word).toNat / 2 ^ 58 = 0
        ∧ (s.heapOf 0).isEmpty = false ∧ (empty.heapOf 0).isEmpty = true ∧ (empty.part 0).fwait.isEmpty = true ∧ (empty.part 0).live = true ∧ (({ s with grids := [] } : State).heapOf 0).isEmpty = false
        ∧ empty.grids = [] ∧ handleBad 0xFFFFFFFFFFFFFFFF = true ∧ handleBad 0 = false ∧ handleBad 0x4000000000000001 = false) := by decide

/-- A block that cannot be read; an unfolded `ACCMERGE` whose translation a `TINV` names, by range and by partition, and not. -/
theorem witness_PartitionCommands_reads :
    (let m : MergeOp := ⟨32, 0x920000, [(0x920000, 4096)], 0, 0, [], [], 0⟩
      let s := asked25.setTeam 1 { asked25.team 1 with ops := [.merge m] };
      ({ asked25 with bad := [0x900000] }.physRead 0x900000 128).2 = none ∧ StillUsed s 0 0 0x920FFF 0x10000 ∧ StillUsed s 0 2 0 0 ∧ ¬ StillUsed asked25 0 2 0 0
        ∧ ¬ Invalidates 0 0 0x921000 0x10000 0 0x920000 4096) :=
  ⟨by decide, ⟨_, List.mem_singleton.mpr rfl, ⟨32, 0x920000, [(0x920000, 4096)], 0, 0, [], [], 0⟩, List.mem_singleton.mpr rfl, by unfold Invalidates; decide⟩,
    ⟨_, List.mem_singleton.mpr rfl, ⟨32, 0x920000, [(0x920000, 4096)], 0, 0, [], [], 0⟩, List.mem_singleton.mpr rfl, by unfold Invalidates; decide⟩,
    fun ⟨e, he, m, hm, _⟩ => by
      have h : ∀ e ∈ asked25.teams, e.2.ops = [] := by decide
      rw [h e he] at hm
      exact absurd hm List.not_mem_nil,
    by unfold Invalidates; decide⟩

theorem physWrite_teams_of (s : State) (p : Nat) (bs : List Byte) : (s.physWrite p bs).1.teams = s.teams := by
  have e := (physWrite_wrote s p bs).1.only
  unfold OnlyTier at e
  rw [e]

/-- An eviction whose image fits. -/
theorem evicts_of {s : State} {tk : Nat} (he : s.evictable tk = true)
    (hf : ∀ n, n ≤ s.rawBytes tk + Config.imageExtra (s.teamShape tk) + 64 → (s.imageFit ((s.team tk).grid / 2 ^ 58) n).isSome = true) :
    ((s.evict tk).team tk).phase = .saved := by
  unfold State.evict
  rw [he]
  dsimp only [Bool.not_true]
  rw [if_neg (by decide)]
  split
  · rename_i h
    have := hf _ (by
      have := Nat.mod_lt (Config.imageBody s.tick tk) (show 0 < s.rawBytes tk + Config.imageExtra (s.teamShape tk) + 1 by omega)
      omega : 64 + Config.imageBody s.tick tk % (s.rawBytes tk + Config.imageExtra (s.teamShape tk) + 1) ≤ _)
    exact absurd h (by rw [show partOf (s.team tk).grid = (s.team tk).grid / 2 ^ 58 from rfl]; intro hn; rw [hn] at this; cases this)
  · rename_i lo h
    unfold State.team
    rw [physWrite_teams_of]
    exact congrArg Team.phase (State.setTeam_team_same _ _ _)

theorem witness_PartitionCommands_evict : ∃ s : State, acceptedOn s 0 ∧ ((s.gridTeams 1).filter fun tk => (s.team tk).number == 0) = [1]
    ∧ (s.team 1).phase = .resident ∧ ((s.evict 1).team 1).phase = .saved := by
  refine ⟨roomy (278528 + Config.imageExtra (fullDemo.teamShape 1) + 64), ⟨⟨?_, ?_⟩, ?_⟩, rfl, rfl, evicts_of rfl fun n hn => ?_⟩
  · unfold hasCommand; show fullDemo.card.mqcons ≠ 1; decide
  · show 6 ≤ fullDemo.boot.step; decide
  · rfl
  · refine imageFit_empty _ _ _ (roomy_images _) ?_
    rw [roomy_save]
    rwa [(roomy_size _).1, (roomy_size _).2] at hn

/-- An instruction that stands for each list of 25 R358: an unanswered command before `GO`, none at all, a missing partition. -/
theorem witness_CardAndCommandAnswers : asked25.Sound ∧ ¬ hasCommand bare ∧ hasCommand asked25
    ∧ hasCommand { asked25 with boot := { asked25.boot with step := 5 } } ∧ accepted asked25 ∧ (asked25.part 63).live = false
    ∧ (let v : Word := 0x300004
      bare.boot.step < 3 ∧ takesRing bare v ∧ ¬ takesRing bare 0x300003 ∧ takesRing bare 0x30000C ∧ ¬ takesRing bare 0x30000D)
    ∧ rings 0 0 ∧ ¬ rings 4 0 ∧ asked25.card.link = true ∧ vbits asked25.card.mqbase 0 4 ≠ 0 ∧ (asked25.physRead (mqRing asked25) 4).2.isSome = true
    ∧ rings 0x3F0001 1 ∧ rungPart 0x3F0001 = 63 ∧ rings 2 2 ∧ rungPart 2 = 0 ∧ (asked25.part 0).live = true ∧ (asked25.physRead (asked25.part 0).sqp 4).2.isSome = true
    ∧ (let b := { asked25 with bad := [0x300000, 0x700000] }
      (b.physRead (mqRing b) 4).2 = none ∧ (b.physRead (b.part 0).sqp 4).2 = none) :=
  ⟨sound_of (by decide), by unfold hasCommand; decide, by unfold hasCommand; decide, by unfold hasCommand; decide, asked25_accepted.1, by decide,
    by unfold takesRing; decide, by unfold rings; decide, by unfold rings; decide, by decide, by decide, by decide, by unfold rings; decide, by decide,
    by unfold rings; decide, by decide, by decide, by decide, by decide⟩

/-- The steps of bring-up at which each command executes; sectors, counters, caps and sources at the ends of their ranges. -/
theorem witness_PackageCommands :
    (let at_ (n : Nat) : State := { asked25 with boot := { asked25.boot with step := n, gscLoaded := false, leafLoaded := false } }
      let t : State := { asked25 with boot := { asked25.boot with c := 1 } };
      accepted asked25 ∧ accepted t ∧ 0 < t.sectorCount ∧ asked25.sectorCount ≤ 0 ∧ instances 0x24 ≤ 0 ∧ 255 < instances 0x22 ∧ instances 0x22 ≤ 256
        ∧ hasCommand (at_ 1) ∧ (at_ 1).boot.step < 2 ∧ hasCommand (at_ 2) ∧ 2 ≤ (at_ 2).boot.step ∧ ((at_ 2).part 0).live = true
        ∧ (at_ 2).argBacked 0x900000 64 = true ∧ (at_ 2).argBacked 0xA00000 5011 = true ∧ (at_ 2).argBacked 0xFFFFFFFFFFFFFF 64 = false
        ∧ ((at_ 2).physRead 0x900000 64).2.isSome = true ∧ ((at_ 3).physRead 0x900000 256).2.isSome = true ∧ (({ at_ 3 with bad := [0x900000] }).physRead 0x900000 256).2 = none
        ∧ 0x900000 + 5011 ≤ hbmTop - (at_ 2).carve ∧ ({ (at_ 3) with boot := { (at_ 3).boot with leafLoaded := true } }).boot.leafLoaded = true ∧ (at_ 2).boot.slot0.length = 64 ∧ (at_ 2).boot.slot1.length = 64 ∧ (at_ 2).boot.slot2.length = 64
        ∧ (at_ 3).boot.step = 3 ∧ (at_ 3).boot.gscLoaded = false ∧ (at_ 3).argBacked 0x900000 256 = true ∧ asked25.boot.gscLoaded = false
        ∧ (at_ 4).boot.step = 4 ∧ 32 % 4 = 0 ∧ (at_ 5).boot.step = 5 ∧ (at_ 5).boot.gscLoaded = false
        ∧ (let g : State := { at_ 5 with boot := { (at_ 5).boot with gscLoaded := true, leafLoaded := true } }
          hasCommand g ∧ g.boot.step = 5 ∧ g.boot.gscLoaded = true ∧ g.boot.leafLoaded = true)) := by unfold accepted hasCommand; decide

/-- What an image passes is open, so a claim is made of both outcomes; one of them holds of any image. -/
theorem witness_PackageCommands_image (bs : List Byte) (v : Nat) : ∃ ok : Bool, ok = true ↔ ImagePasses bs v := by
  by_cases h : ImagePasses bs v
  · exact ⟨true, by simp [h]⟩
  · exact ⟨false, by simp [h]⟩

/-- A card with its link, each source, an edge that is due and one that is not, a lock that has lapsed. -/
theorem witness_TimeAndPower :
    (let on : State := { bare with card := { bare.card with link := true }, time := { bare.time with source := .ieee1588 } }
      let pps : State := { bare with time := { bare.time with source := .pps, ppsNext := 7, ppsLast := 5, master := 2000500005, ppsFirst := false } }
      let lapsed : State := { bare with time := { bare.time with source := .pps, locked := true, ppsLast := 7, master := 3000000007 } };
      on.time.source = .ieee1588 ∧ on.card.link = true ∧ bare.time.source ≠ .ieee1588 ∧ bare.time.source ≠ .pps ∧ bare.card.link = false
        ∧ pps.time.source = .pps ∧ pps.time.ppsFirst = false ∧ (1 + 1) * 1000000000 ≤ pps.time.master - pps.time.ppsLast + 500000
        ∧ pps.time.master - pps.time.ppsLast ≤ (1 + 1) * 1000000000 + 500000 ∧ lapsed.time.locked = true ∧ lapsed.time.ppsLast + 3000000000 ≤ lapsed.time.master
        ∧ pps.time.locked = false ∧ bare.power.hot = false ∧ ({ bare with power := { bare.power with hot := true } } : State).power.hot = true)
    ∧ (let pps : State := { bare with time := { bare.time with source := .pps, ppsLast := 5, master := 999499994, ppsFirst := false } }
      ∀ m, pps.time.master - pps.time.ppsLast + 500000 < (m + 1) * 1000000000 ∨ (m + 1) * 1000000000 + 500000 < pps.time.master - pps.time.ppsLast) := by
  refine ⟨by decide, fun m => ?_⟩
  show 999499994 - 5 + 500000 < (m + 1) * 1000000000 ∨ (m + 1) * 1000000000 + 500000 < 999499994 - 5
  omega

/-- The turns of a schedule: a slot with a group that can issue, one whose fetch fails, an empty slot, a link, a register, an event. -/
theorem witness_StepRunsDecoded :
    (let w (t : Turn) : State := { State.reset.withFetchWord 64 0x40A7FF8000000000 with schedule := [t] }
      let s := w (.issue 0 0)
      let r : State := { State.reset.withFetchWord 64 0x7000000000000000 with schedule := [.issue 0 0] }
      let far := s.setGrp 32 { s.grp 32 with cur := 0x1000000000000000 }
      let ended := s.setGrp 32 { s.grp 32 with status := .ended }
      let q := { asked25 with schedule := [Turn.mgmt] };
      s.turn = .issue 0 0 ∧ (kget Bind.free (s.core 0).slots 0).valid = true ∧ (kget Bind.free (s.core 0).slots 0).key = 32
        ∧ (issues s 32).canIssue = true ∧ (issues ended 32).canIssue = false
        ∧ okAnd ((issues s 32).translate 0 0 Need.fetch 0x200000) (fun s1 pl => (s1.physRead pl.pa 8).2.map (fun bs => (wordOf bs).toNat)
            == some 0x40A7FF8000000000) = true
        ∧ okAnd ((issues r 32).translate 0 0 Need.fetch 0x200000) (fun s1 pl => (s1.physRead pl.pa 8).2.map (fun bs => refusedBy (wordOf bs).toNat) == some 2) = true
        ∧ good ((issues far 32).translate 0 0 Need.fetch 0x1000000000000000) = false
        ∧ (w (.issue 1 0)).turn = .issue 1 0 ∧ (kget Bind.free ((w (.issue 1 0)).core 1).slots 0).valid = false
        ∧ (w (.link 3 true)).turn = .link 3 true ∧ ((w (.link 3 true)).link 3).head true = none
        ∧ ((State.reset.withFetchWord 256 9).link 0).head false = some ⟨9, 0, 0, 0, 0⟩
        ∧ q.turn = .mgmt ∧ (q.begin.physRead (mqEntry q) 64).2.isSome = true ∧ (w (.card 0x20 8 1)).turn = .card 0x20 8 1 ∧ (w (.card 0x24 4 1)).turn = .card 0x24 4 1
        ∧ (w (.miss 0 0 0x10000000000)).turn = .miss 0 0 0x10000000000
        ∧ (w (.event .powerGood)).turn = .event .powerGood ∧ isEvent .powerGood = true) := by decide

/-- A sound package whose step answers a next state. -/
theorem witness_SoundPreserved : bare.Sound ∧ (match step { bare with schedule := [.elapse 5] } with
    | .next t => t.time.master != 0 || t.tick == 1
    | .fault _ => false
    | .refused _ => false) = true := ⟨bare_sound, by decide⟩

theorem witness_DecodeEncode : (Instr.nop al).wellFormed = true ∧ (encode (.nop al)).isSome = true ∧ fits (.tinv 63 3 1 2) ∧ (encodeMgmt (.tinv 63 3 1 2)).isSome = true
    ∧ fits (.reservedManagementCommand 0xFF) ∧ (encodeMgmt (.reservedManagementCommand 0xFF)).isSome = true :=
  ⟨by decide, by decide, by show (3 : Word).toNat < 4; decide, by decide, by show (0xFF : Byte).toNat ∉ listedOps; decide, by decide⟩

theorem setBytes_rest (s : State) (k : Nat) (bs : List Byte) (h : s.bad = []) :
    s.setBytes k bs = { s with mem := (s.setBytes k bs).mem } := by
  induction bs generalizing s k with
  | nil => rfl
  | cons b r ih =>
    have h1 := ih (s.setByte k b) (k + 1) (by simp [State.setByte, h])
    rw [State.setBytes, h1]
    simp only [State.setByte, h, List.filter]

set_option maxRecDepth 1000000 in
/-- What a saved team's state is apart from memory. -/
theorem saved_reads (m : List Host.Cell) (s : State) (h : s = { savedDemo with mem := m }) :
    s.restorable 1 = true ∧ (s.grp 32).divert = false ∧ (s.grp 32).status = .running ∧ (s.team 1).image = 0x800000
      ∧ (s.team 1).imageSize = 64 ∧ s.bad = [] ∧ s.carve = 0 := by
  subst h
  exact ⟨by rfl, by rfl, by rfl, by rfl, by rfl, by rfl, by rfl⟩

/-- The CRC field of an image in HBM4E that reads correctly. -/
theorem crcField_of {s : State} (hb : s.bad = []) (hc : s.carve = 0) : (s.physRead (0x800000 + 0x28) 4).2 = some (s.bytes 0x800028 4) := by
  have hp : pieces 256 (0x800000 + 0x28) 4 = [(0x800028, 4)] := by decide
  have hq : s.request 0x800028 4 false = (s.countHbm 0x800028 4 false, some 0x800028) := by
    have : s.backing 0x800028 = .hbm := by unfold State.backing; rw [hc]; rfl
    unfold State.request
    rw [this]
  have hi : (s.countHbm 0x800028 4 false).isBad 0x800028 4 = false := by
    show s.bad.any _ = false
    rw [hb]; rfl
  unfold State.physRead
  rw [hp]
  simp only [List.foldl_cons, List.foldl_nil, hq, hi, List.nil_append]
  rfl

/-- A team whose image holds the CRC that the package computes. -/
theorem witness_EvictionAndRestore_good :
    ∃ s : State, s.restorable 1 = true ∧ s.imageGood 1 = true ∧ (s.grp 32).divert = false ∧ (s.grp 32).status = .running := by
  refine ⟨savedDemo.setBytes 0x800028 (leBytes 4 (Config.imageCrc 1 % 2 ^ 32)), ?_⟩
  generalize hx : Config.imageCrc 1 % 2 ^ 32 = x
  have hlt : x < 2 ^ 32 := by omega
  have h4 := setBytes_rest savedDemo 0x800028 (leBytes 4 x) (by decide)
  have hby := State.setBytes_byte savedDemo 0x800028 (leBytes 4 x)
  generalize savedDemo.setBytes 0x800028 (leBytes 4 x) = s at *
  obtain ⟨h1, h2, h3, him, hsz, hbad, hc⟩ := saved_reads _ s h4
  have hr := crcField_of hbad hc
  refine ⟨h1, ?_, h2, h3⟩
  have hb : s.bytes 0x800028 4 = leBytes 4 x := by
    simp [State.bytes, hby, leBytes, List.range, List.range.loop]
  unfold State.imageGood
  simp only [him, hsz, hr, hx, hb, State.isBad, hbad]
  simp [leBytes, leNat]
  omega

/-! ## Rounding -/

/-- Numbers at the edges of the formats: 6.5 and −7 in E2M1, of which only the second overflows, in each mode; a subnormal one; a tapered
number and one that rounds to the largest pattern's successor; an integer that saturates. -/
theorem witness_Rounding :
    (let x := real false 13 (-1)
      let y := real true 7 0
      let w := real false 3 (-3)
      (2 : Rat) ^ (2 : Int) ≤ x.abs ∧ x.abs < 2 ^ (3 : Int) ∧ Selects .rn (x / 2 ^ (1 : Int)) 3 ∧ (((3 : Int) : Rat) * 2 ^ (1 : Int)).abs ≤ largest .e2m1
        ∧ max (2 - 1 : Int) (1 - 1 - 1) = 1 ∧ (2 : Rat) ^ (2 : Int) ≤ y.abs ∧ y.abs < 2 ^ (3 : Int) ∧ Selects .rn (y / 2 ^ (1 : Int)) (-4)
        ∧ largest .e2m1 < (((-4 : Int) : Rat) * 2 ^ (1 : Int)).abs ∧ Selects .rz (y / 2 ^ (1 : Int)) (-3) ∧ Selects .rd (y / 2 ^ (1 : Int)) (-4)
        ∧ Selects .ru (y / 2 ^ (1 : Int)) (-3) ∧ (2 : Rat) ^ (-2 : Int) ≤ w.abs ∧ w.abs < 2 ^ (-1 : Int) ∧ Selects .rn (w / 2 ^ (-3 : Int)) 3
        ∧ max (-2 - 1 : Int) (1 - 1 - 1) = -1 ∧ Selects .rn (w / 2 ^ (-1 : Int)) 1)
      ∧ (∃ s p, Spelled 6 (real false 3 0) s ∧ Selects .rn s p ∧ p = 22) ∧ (∃ s p, Spelled 6 (real true 1 11) s ∧ Selects .rn s p ∧ 32 ≤ p)
      ∧ ∃ z : Int, Selects .ru (real false 257 (-1)) z ∧ 127 < z :=
  ⟨by unfold Selects; decide +kernel,
    ⟨22, 22, ⟨0, 1, 1 / 2, by decide, by decide +kernel, by decide +kernel, by decide +kernel, by decide +kernel⟩, by unfold Selects; decide +kernel, rfl⟩,
    ⟨_, 32, ⟨5, 1, 0, by decide, by decide +kernel, by decide +kernel, by decide +kernel, rfl⟩, by unfold Selects; decide +kernel, by decide⟩,
    ⟨129, by unfold Selects; decide +kernel, by decide⟩⟩

/-! ## Words of the integer opcodes -/

/-- A word with guard `p7`, `v0` in d, a and b, field c at 511 and modifiers 0, of class 0 or 1. -/
def plainWord (cls op : Nat) (unary : Bool) : Word :=
  BitVec.ofNat 64 (cls * 2 ^ 60 + op * 2 ^ 52 + 7 * 2 ^ 48
    + (if cls = 0 then (if unary then 511 * 2 ^ 21 else 0) + 511 * 2 ^ 12 else 0))

theorem witness_integer_words :
    (∀ op ∈ [0x00, 0x01, 0x02, 0x03, 0x04, 0x05, 0x06, 0x07, 0x09, 0x0A, 0x0B, 0x0C], ∃ i, Claims.Read 0 (BitVec.ofNat 8 op) (plainWord 0 op false) i)
      ∧ (∃ i, Claims.Read 0 0x08 (plainWord 0 8 true) i)
      ∧ ∀ op ∈ [0x00, 0x01, 0x03, 0x06, 0x07, 0x09, 0x0A, 0x0B, 0x0C], ∃ i, Claims.Read 1 (BitVec.ofNat 8 op) (plainWord 1 op false) i := by
  refine ⟨?_, ⟨_, by decide, by decide, rfl⟩, ?_⟩ <;>
  · simp only [List.forall_mem_cons]
    repeat' first
      | exact fun _ h => absurd h List.not_mem_nil
      | refine ⟨⟨_, by decide, by decide, rfl⟩, ?_⟩

/-- A set modifier bit that must be 0 refuses the word. -/
theorem test_iadd_reserved_modifier : decodeWord (plainWord 0 0 false + 1) = .error 5 := rfl

/-- A `MOVI` word, and the reserved opcodes next to it and at the end of class I. -/
theorem witness_DecodeWords : (∃ i, Claims.Read 6 0 0x600706303F800000 i) ∧ decodeWord 0x601706303F800000 = .error 3 ∧ decodeWord 0x6FFFFFFFFFFFFFFF = .error 3 :=
  ⟨⟨_, by decide, by decide, rfl⟩, rfl, rfl⟩

/-! ## Operands that meet the narrower clauses -/

/-- Operands of the exact cases of 03 R53: 3, −2, 1.5 and 0. -/
theorem witness_SpecialFunctionSteps_exact :
    (value .f32 0x40400000 = .fin false 12582912 (-22) ∧ isOver 12582912 (-22) 3 0 ∧ 3 ≤ 127)
      ∧ (value .f32 0xC0000000 = .fin true 8388608 (-22) ∧ isOver 8388608 (-22) 2 0)
      ∧ (value .f32 0x3FC00000 = .fin false 12582912 (-23) ∧ isOver 12582912 (-23) 3 1 ∧ 3 % 2 = 1)
      ∧ value .f32 0 = .fin false 0 (-149) ∧ isOver 0 (-149) 0 0 := by unfold isOver; decide

/-- A coded tensor at 0x40000000 whose line a `PREF.t` finds, and whose place is not in the cluster's cache. -/
def prefDemo : State :=
  setS ((pageDemo 0xB00000).setBytes 0x900000 ([0x10, 0x10, 0, 0, 0, 0, 0, 0, 16, 0, 0, 0, 16, 0, 0, 0, 1, 0, 0, 0, 1, 0, 0, 0] ++ List.replicate 24 0
    ++ [0, 0, 0, 0x40, 0, 0, 0, 0])) 60 0x900000

set_option exponentiation.threshold 3000 in
theorem witness_HintsAndFences_prefetch : prefDemo.Ready [.s 60, .s 62] ∧ prefDemo.act al ≠ []
    ∧ prefetched prefDemo al (rs 60) (rs 62) 0 = some 0xF00000 ∧ prefDemo.seen.core < 256
    ∧ ¬ (∃ l ∈ (prefDemo.cluster (clusterOf prefDemo.seen.core)).lines, l.part = partOf (prefDemo.team prefDemo.seen.team).grid ∧ l.pa = 0xF00000 ∧ l.bad = false)
    ∧ prefetched bare al (rs 60) (rs 62) 0 = none :=
  ⟨ready_of (by decide), by decide, by decide, by decide, by decide, by decide⟩

/-- A word with a reserved bit, a gang of groups 0 and 1, and one in the wrong order. -/
theorem witness_GangsAndArrivals_gangs : gangWrong (bareAs .matrix) (2 ^ 35) false ∧ ¬ gangWrong (bareAs .matrix) 0 false
    ∧ ¬ gangWrong (gangOf id) 0x200000020 false ∧ gangWrong (gangOf id) 0x200000001 false := by
  have hr : ∀ k, k < 2 → ((gangOf id).grp (groupKey (gangOf id).me.team (0x200000020 / 2 ^ (5 * k) % 32))).role = .matrix := by decide
  have hn : ∀ k, k < 2 → 0x200000020 / 2 ^ (5 * k) % 32 < ((gangOf id).team (gangOf id).me.team).size := by decide
  have hi : 0x200000020 / 2 ^ (5 * 0) % 32 = (gangOf id).seen.index := by decide
  have hp : ((gangOf id).team (gangOf id).me.team).paired = false := by decide
  refine ⟨Or.inl (by decide), ?_, ?_, ?_⟩
  · simp [gangWrong]
  · intro h
    rcases h with h | h | h | h | h | ⟨-, -, h⟩
    · exact absurd h (by decide)
    · exact absurd h (by decide)
    · exact absurd h (by decide)
    · exact absurd h (by decide)
    · exact absurd h.1 (by decide)
    rcases h with ⟨k, h1, h2, h⟩ | ⟨k, h1, h⟩ | ⟨k, h1, h⟩ | h | ⟨k, h1, h⟩ | ⟨h, -⟩ | ⟨-, h, -⟩
    · exact h ((by decide : ∀ k, k < 6 → 2 ≤ k → (0x200000020 : Word).toNat / 2 ^ (5 * k) % 32 = 0) k h2 h1)
    · exact absurd h ((by decide : ∀ k, k < 2 → k + 1 < 2 → ¬ (0x200000020 : Word).toNat / 2 ^ (5 * (k + 1)) % 32 ≤ (0x200000020 : Word).toNat / 2 ^ (5 * k) % 32) k
        (Nat.lt_of_succ_lt h1) h1)
    · exact absurd (hn k h1) (Nat.not_lt.mpr h)
    · exact h 0 (by decide) hi
    · exact h (hr k h1)
    · cases h
    · rw [hp] at h; cases h
  · exact Or.inr (Or.inr (Or.inr (Or.inr (Or.inr ⟨by decide, by decide, Or.inr (Or.inl ⟨0, by decide, by decide⟩)⟩))))

/-- Two chunks on one area, of which the later one's fold passes the other. -/
theorem witness_SplitKMerges_passed :
    (let o (c : Nat) : MergeOp := ⟨32, 0x900000, [(0x900000, 192)], 0, c, [], [], 0⟩;
      isPassed (o 1) (o 1) ∧ isPassed (o 1) (o 0) ∧ ¬ isPassed (o 0) (o 1)) := by unfold isPassed; decide

/-- A register request that waits while a group gives granules back. -/
theorem witness_Growth_shrink :
    (let g := { bareGroup .vector with gran := 4, status := .blocked (.regGrow 2), slot := 1, index := 1 }
      let s := ((bare.setGrp 33 g).setCore 0 { Core.fresh with grow := [⟨33, false, 2⟩] });
      s.Ready [] ∧ s.act al ≠ [] ∧ 1 + (3 : Fin 32).val ≤ s.me.gran ∧ (s.grp 33).divert = false
        ∧ (s.core (s.grp 33).core).grow.find? (fun x => x.acc == false) = some ⟨33, false, 2⟩) :=
  ⟨ready_of (by decide), by decide⟩

/-- The test of index n fails for a packet, and none before it does. -/
def firstFails (p : Packet) (n r : Nat) : Prop :=
  ∃ pre fails post, shapeTests p false = pre ++ (r, fails) :: post ∧ pre.length = n ∧ fails ∧ ∀ x ∈ pre, ¬ x.2

theorem witness_Admissions_shape : (∀ x ∈ shapeTests (demoPacket 0) false, ¬ x.2)
    ∧ firstFails { demoPacket 0 with ver := 2 } 0 0x10 ∧ firstFails { demoPacket 0 with paired := true } 1 0x11
    ∧ firstFails { demoPacket 0 with groups := 1, roles := [3, 3] } 2 0x12 ∧ firstFails { demoPacket 0 with gran := 21 } 3 0x13
    ∧ firstFails { demoPacket 0 with rings := [(true, 3, 255), (false, 0, 0), (true, 0, 1)] } 4 0x14
    ∧ firstFails { demoPacket 0 with groups := 31, gran := 7, roles := List.replicate 32 0 } 5 0x15
    ∧ firstFails { demoPacket 0 with recAddr := 0x300001 } 6 0x16 := by
  refine ⟨?_, ⟨[], _, _, rfl, rfl, ?_, ?_⟩, ⟨[_], _, _, rfl, rfl, ?_, ?_⟩, ⟨[_, _], _, _, rfl, rfl, ?_, ?_⟩, ⟨[_, _, _], _, _, rfl, rfl, ?_, ?_⟩,
    ⟨[_, _, _, _], _, _, rfl, rfl, ?_, ?_⟩, ⟨[_, _, _, _, _], _, _, rfl, rfl, ?_, ?_⟩, ⟨[_, _, _, _, _, _], _, _, rfl, rfl, ?_, ?_⟩⟩ <;>
    simp only [shapeTests, List.forall_mem_cons, List.not_mem_nil, false_implies, implies_true, and_true] <;> decide

/-- Tables of two entries: two names, one name twice, an unaligned address. -/
theorem witness_Admissions_table :
    (let e (n a : Byte) : List Byte := [n, 0, 0, 0, 0, 0, 0, 0, a, 0, 0, 0, 0, 0, 0, 0];
      ¬ tableWrong 2 (e 1 16 ++ e 2 32) ∧ tableWrong 2 (e 1 16 ++ e 1 32) ∧ tableWrong 1 (e 1 8)) := by
  refine ⟨?_, ⟨1, by decide, ?_⟩, ⟨0, by decide, ?_⟩⟩
  · rintro ⟨k, hk, h⟩
    have h1 : ∀ k, k < 2 → let bs : List Byte := [1, 0, 0, 0, 0, 0, 0, 0, 16, 0, 0, 0, 0, 0, 0, 0, 2, 0, 0, 0, 0, 0, 0, 0, 32, 0, 0, 0, 0, 0, 0, 0]
        leNat ((bs.drop (16 * k + 0)).take 4) ≠ 0 ∧ leNat ((bs.drop (16 * k + 4)).take 4) = 0 ∧ leNat ((bs.drop (16 * k + 8)).take 8) % 16 = 0
        ∧ ∀ m, m < k → leNat ((bs.drop (16 * m + 0)).take 4) ≠ leNat ((bs.drop (16 * k + 0)).take 4) := by decide
    obtain ⟨a, b, c, d⟩ := h1 k hk
    rcases h with h | h | h | ⟨m, hm, h⟩
    · exact a h
    · exact h b
    · exact h c
    · exact d m hm h
  · exact Or.inr (Or.inr (Or.inr ⟨0, by decide, by decide⟩))
  · exact Or.inr (Or.inr (Or.inl (by decide)))

theorem reachable_lone {s : State} {r i : Nat} (h : successors (s.node r) = []) (hr : Reachable s r i) : i = r := by
  induction hr with
  | start => rfl
  | next i j _ hj ih =>
    subst ih
    rw [h] at hj
    cases hj

/-- A graph of node 2 alone. -/
def lone : State :=
  let t := admitted graphPacket;
  (t.setPart 0 { t.part 0 with nn := 16, nb := 0 }).setNode 2 { Node.blank with w0 := 1, job := 0x80, succ0 := 0xFFFFFFFFFFFFFFFF, succ1 := 0xFFFFFFFFFFFFFFFF }

/-- That graph, and one whose root lies outside the partition's range. -/
theorem witness_GraphsAndNodes_nodes :
    (let t := admitted graphPacket;
      Reachable t (t.graph 5).pkt.root 2 ∧ nodeWrong t (t.graph 5).part 2) ∧ (lone.graph 5).pkt.root = 2
        ∧ ¬ ((∃ i, Reachable lone 2 i ∧ nodeWrong lone (lone.graph 5).part i) ∨ (lone.node 2).w0.toNat / 2 ^ 16 % 2 ^ 16 ≠ 0) := by
  refine ⟨⟨.start, Or.inr (Or.inl (by decide))⟩, by decide, ?_⟩
  rintro (⟨i, hr, hw⟩ | h)
  · rw [reachable_lone (by decide) hr] at hw
    revert hw
    unfold nodeWrong
    decide
  · exact absurd h (by decide)

/-- Two ready nodes of graphs with equal deadlines and admissions. -/
theorem witness_GraphsAndNodes_ready :
    (let t := ((admitted graphPacket).setNode 2 { Node.blank with graph := 5, phase := .ready }).setNode 3 { Node.blank with graph := 5, phase := .ready };
      dispatchable t 2 ∧ dispatchable t 3 ∧ ¬ dispatchable t 4) := by unfold dispatchable; decide

/-- Blocks of a copy node: a `CPY` within the chip scratchpad, one with an unused word in use, one of another kind; a packet for a kernel
node and one that is refused. -/
theorem witness_GraphsAndNodes_blocks :
    (let t := (admitted graphPacket).setNode 2 { Node.blank with graph := 5, kind := 2, phase := .ready }
      let ws : List Word := [0xA010, 0, 0, 0, 0x1000, 0, 16, 0, 0, 0, 0, 0, 0, 0, 0, 0];
      jobKindAt (t.node 2).kind ((ws.getD 0 0).toNat % 256) = some .cpy ∧ ws.length = 16 ∧ jobKindAt 1 0x10 = none ∧ jobKindAt 1 0x14 = some .xform
        ∧ (t.startNodeJob 2 ws).nextJob = t.nextJob + 1 ∧ (t.startNodeJob 2 (ws.set 15 1)).nextJob = t.nextJob
        ∧ (t.shapeCheck 0 { demoPacket 0 with recAddr := 0 } true false).2 = none ∧ (t.shapeCheck 0 { demoPacket 0 with ver := 2 } true false).2 = some 0x10
        ∧ (demoPacket 0).vword = 0 ∧ (t.part 0).dropping = false) := by decide

/-- A link whose oldest downward command is of another kind. -/
theorem witness_LinkCommands_other :
    (let s := bare.setLink 3 { Link.fresh with down := [⟨5, 0, 1, 2, 3⟩] }
      ∀ c, oldest s 3 false = some c → ¬ c.kind = 1 ∧ ¬ c.kind = 2 ∧ ¬ c.kind = 3) := by
  intro s c h
  have : oldest s 3 false = some ⟨5, 0, 1, 2, 3⟩ := by decide
  rw [this] at h
  cases h
  decide

/-- The grid that waits has an even number of groups where it is paired. -/
theorem witness_TeamPlacements_paired :
    (let s := waitingDemo;
      (s.grid 2).pkt.paired = true → ((s.grid 2).pkt.groups + 1) % 2 = 0)
    ∧ (let s := waitingDemo.setGrid 2 { waitingDemo.grid 2 with pkt := { demoPacket 0 with paired := true, groups := 1, roles := [0, 0], gran := 8 } }
      (s.grid 2).pkt.paired = true ∧ ((s.grid 2).pkt.groups + 1) % 2 = 0
        ∧ s.firstWaiting ((s.waitingIn 0).filter fun w => (s.placeOn 0 (s.grid w.grid).pkt).isSome) = some ⟨2, 0⟩
        ∧ s.placeOn 0 (s.grid 2).pkt = some 2) := by decide

/-- A package whose walks meet no error, an address that no core holds, and one that a core holds. -/
theorem witness_MemoryEvents_walks : asked25.Sound ∧ NoErrors asked25 ∧ (0x900000 : Word).toNat < 2 ^ 57 ∧ asked25.heldFor 0 0 0x900000 = none
    ∧ (after (.translationWalk 0 0 0x900000) asked25).heldFor 0 0 0x900000 ≠ none := by
  refine ⟨sound_of (by decide), ⟨by decide, fun i => ?_, by decide⟩, by decide, by decide, by decide⟩
  have h : asked25.sectors = [] := by decide
  simp [State.sector, h, kget, Sector.reset]

/-- The block of a partition that fits beside the others, and beside one that holds every share; a change of a ring, and none. -/
theorem witness_PartitionCommands_fits : BlockFits (blockDemo.physRead 0x900000 128).1 1 fromBlock
    ∧ ¬ BlockFits (blockDemo.setPart 0 { blockDemo.part 0 with share := 65536 }) 1 fromBlock
    ∧ ¬ Unchanged (blockDemo.part 0) { fromBlock with toff := 0, seq := 1 } ∧ Unchanged fromBlock { fromBlock with share := 7 }
    ∧ blockDemo.heapOf 0 ≠ [] ∧ blockWords.getD 2 0 = (blockDemo.part 1).sidebase := by
  have hc : (blockDemo.physRead 0x900000 128).1.carve = 0 := by decide
  refine ⟨⟨?_, ?_, by decide, ?_, by decide, by decide⟩, fun h => absurd h.shares (by decide), ?_, ?_, by decide, by decide⟩
  · have h : ∀ a n, a + n ≤ 0xC000000000 → backs (blockDemo.physRead 0x900000 128).1 a n := by
      intro a n ha i hi
      left
      rw [hc]
      show a + i < 0xC000000000 - 0
      omega
    intro r hr
    apply h
    revert r
    decide
  · intro i hi
    exact absurd hi (Nat.not_lt_zero i)
  · unfold apart
    decide
  · unfold Unchanged
    decide
  · unfold Unchanged
    decide

/-- Handle entries that break and keep the table; two groups that parked together. -/
theorem witness_PartitionCommands_more : ¬ EntryLegal 0xFFFFFFFFFFFFFFFF ∧ EntryLegal 0 ∧ EntryLegal 0x4000000000000001 ∧ ¬ EntryLegal 0x8000000000000001
    ∧ (let g := { asked25.grp 32 with status := .parked (.fault [32, 33]) }
      let s := ((asked25.setTeam 1 { asked25.team 1 with size := 2 }).setGrp 32 g).setGrp 33 { g with index := 1 };
      acceptedOn s 0 ∧ s.namedGroup 0 1 0 = some 32 ∧ (s.grp 32).status = .parked (.fault [32, 33]) ∧ (∀ j, (j = 32 ∨ j ∈ [32, 33]) → (s.grp j).divert = false)
        ∧ ∃ j ∈ [32, 33], j ≠ 32 ∧ (s.grp j).status = .parked (.fault [32, 33])) := by
  refine ⟨by unfold EntryLegal; decide, by unfold EntryLegal; decide, by unfold EntryLegal; decide, by unfold EntryLegal; decide,
    by unfold acceptedOn accepted hasCommand; decide, by decide, by decide, ?_, by decide⟩
  rintro j (rfl | h)
  · decide
  · simp only [List.mem_cons, List.not_mem_nil, or_false] at h
    rcases h with rfl | rfl <;> decide

end Sys2Proof.Tests
end

namespace Sys2Proof.Machine

/-! ## Reconvergence (01 R20 to R22) -/

theorem lowest_eq_none {ws : List Word} : lowest ws = none ↔ ws = [] := by
  cases ws with
  | nil => simp [lowest]
  | cons a r => simp only [lowest]; split <;> simp

theorem lowest_le {ws : List Word} {a : Word} (h : lowest ws = some a) : a ∈ ws ∧ ∀ b ∈ ws, a.toNat ≤ b.toNat := by
  induction ws generalizing a with
  | nil => simp [lowest] at h
  | cons x r ih =>
    simp only [lowest] at h
    split at h
    case _ hr =>
      obtain rfl := Option.some.inj h
      simp [lowest_eq_none.mp hr]
    case _ b hr =>
      obtain ⟨hb, hle⟩ := ih hr
      obtain rfl := Option.some.inj h
      split
      · exact ⟨List.mem_cons_self, by simp only [List.forall_mem_cons]; exact ⟨Nat.le_refl _, fun c hc => by have := hle c hc; omega⟩⟩
      · exact ⟨List.mem_cons_of_mem _ hb, by simp only [List.forall_mem_cons]; exact ⟨by omega, hle⟩⟩

/-- The threads of a group are its lanes' threads. -/
theorem Group.mem_threads {g : Group} {t : Thread} : t ∈ g.threads ↔ ∃ l, l < g.threads.length ∧ g.thr l = t := by
  simp only [List.mem_iff_getElem, Group.thr, List.getD_eq_getElem?_getD]
  constructor
  · rintro ⟨l, hl, rfl⟩; exact ⟨l, hl, by simp [hl]⟩
  · rintro ⟨l, hl, rfl⟩; exact ⟨l, hl, by simp [hl]⟩

theorem Group.mem_runPcs {g : Group} {a : Word} :
    a ∈ g.runPcs ↔ ∃ l, l < g.threads.length ∧ (g.thr l).runs = true ∧ (g.thr l).pc = a := by
  simp only [Group.runPcs, List.mem_map, List.mem_filter, Group.mem_threads]
  constructor
  · rintro ⟨t, ⟨⟨l, hl, rfl⟩, hr⟩, ha⟩; exact ⟨l, hl, hr, ha⟩
  · rintro ⟨l, hl, hr, ha⟩; exact ⟨_, ⟨⟨l, hl, rfl⟩, hr⟩, ha⟩

theorem Group.mem_heldPcs {g : Group} {a : Word} :
    a ∈ g.heldPcs ↔ ∃ l, l < g.threads.length ∧ ((g.thr l).held && !(g.thr l).exited) = true ∧ (g.thr l).pc = a := by
  simp only [Group.heldPcs, List.mem_map, List.mem_filter, Group.mem_threads]
  constructor
  · rintro ⟨t, ⟨⟨l, hl, rfl⟩, hr⟩, ha⟩; exact ⟨l, hl, hr, ha⟩
  · rintro ⟨l, hl, hr, ha⟩; exact ⟨_, ⟨⟨l, hl, rfl⟩, hr⟩, ha⟩

theorem Group.rotateFrom_nextAbove {g : Group} (prev : Word) (hr : g.runPcs ≠ []) :
    Claims.NextAbove (· ∈ g.runPcs) prev (g.rotateFrom prev) := by
  unfold Group.rotateFrom
  cases hl : lowest (g.runPcs.filter fun a => prev.toNat < a.toNat) with
  | some a =>
    obtain ⟨ha, hle⟩ := lowest_le hl
    simp only [List.mem_filter, decide_eq_true_eq] at ha hle
    exact ⟨ha.1, fun _ => ha.2, fun b hb => ⟨fun _ hp => hle b ⟨hb, hp⟩, fun hn => absurd ha.2 hn⟩⟩
  | none =>
    have hnone : ∀ b ∈ g.runPcs, ¬ prev.toNat < b.toNat := by
      simpa [List.filter_eq_nil_iff] using lowest_eq_none.mp hl
    obtain ⟨a, ha⟩ := Option.ne_none_iff_exists'.mp (mt lowest_eq_none.mp hr)
    obtain ⟨hm, hle⟩ := lowest_le ha
    simp only [ha, Option.getD_some]
    exact ⟨hm, fun ⟨b, hb, hp⟩ => absurd hp (hnone b hb), fun b hb => ⟨fun _ hp => absurd hp (hnone b hb), fun _ => hle b hb⟩⟩

@[simp] theorem Group.threads_length_mapThr (g : Group) (f : Nat → Thread → Thread) :
    (g.mapThr f).threads.length = g.threads.length := by
  simp [Group.mapThr]

/-- Arrival holds the threads that R20 names. -/
theorem Group.arrive_held (g : Group) (ls : List Nat) {l : Nat} (he : (g.thr l).exited = false) :
    ((g.arrive ls).thr l).held = Claims.arrives g ls l := by
  unfold Group.arrive Claims.arrives
  rw [Group.thr_mapThr]
  by_cases hl : l < g.threads.length
  · by_cases hm : l ∈ ls <;> simp [hl, hm, he]
  · rw [Group.thr_past g hl] at he; exact absurd he (by decide)

/-- A thread runs after the arrival of some threads when it is neither exited nor held. -/
theorem Group.arrive_runs (g : Group) (ls : List Nat) (l : Nat) : ((g.arrive ls).thr l).runs = Claims.runsOn g ls l := by
  obtain ⟨-, -, he, -⟩ := Group.thr_arrive g ls l
  unfold Thread.runs Claims.runsOn
  rw [he]
  cases hx : (g.thr l).exited with
  | true => simp
  | false =>
    have hl : l < g.threads.length := Decidable.byContradiction fun hl => by
      rw [Group.thr_past g hl] at hx
      exact absurd hx (by decide)
    simp [Group.arrive_held g ls hx, hl]

theorem Group.mem_runPcs_arrive (g : Group) (ls : List Nat) (a : Word) :
    a ∈ (g.arrive ls).closeHeld.runPcs ↔ ∃ l, Claims.runsOn g ls l = true ∧ (g.thr l).pc = a := by
  have hpc l : ((g.arrive ls).thr l).pc = (g.thr l).pc := (Group.thr_arrive g ls l).1
  have hlen : (g.arrive ls).closeHeld.threads.length = g.threads.length := Group.threads_length_mapThr g _
  simp only [Group.mem_runPcs, Group.thr_closeHeld, Group.arrive_runs, hpc, hlen]
  refine exists_congr fun l => ⟨fun h => h.2, fun h => ⟨?_, h⟩⟩
  simp only [Claims.runsOn, Bool.and_eq_true, decide_eq_true_eq] at h
  exact h.1.1.1

/-- While some thread runs, who is held is decided by the arrival alone, and the current subset by R22. -/
theorem Group.finish_running {g : Group} {ls : List Nat} {rot : Bool} (hr : (g.arrive ls).closeHeld.runPcs ≠ []) :
    (∀ l, (g.finish ls rot).thr l = (g.arrive ls).thr l)
      ∧ (g.finish ls rot).cur = match ls.find? (Claims.runsOn g ls) with
        | some l => if rot then (g.arrive ls).closeHeld.rotateFrom (g.thr l).pc else (g.thr l).pc
        | none => (g.arrive ls).closeHeld.rotateFrom g.cur := by
  have hpc l : ((g.arrive ls).closeHeld.thr l).pc = (g.thr l).pc := (Group.thr_arrive g ls l).1
  have hrun l : ((g.arrive ls).closeHeld.thr l).runs = Claims.runsOn g ls l := Group.arrive_runs g ls l
  unfold Group.finish
  simp only [if_neg hr, hpc, hrun]
  cases ls.find? (Claims.runsOn g ls) <;> exact ⟨fun _ => rfl, rfl⟩

/-- Release frees the threads held at the lowest held address (R21). -/
theorem Group.release_lowest {g : Group} {a : Word} (h : lowest g.heldPcs = some a) :
    g.release.cur = a ∧ ∀ l, (g.thr l).exited = false → (g.release.thr l).held = ((g.thr l).held && (g.thr l).pc != a) := by
  unfold Group.release
  rw [h]
  refine ⟨rfl, fun l he => ?_⟩
  show ((g.mapThr _).thr l).held = _
  rw [Group.thr_mapThr]
  by_cases hl : l < g.threads.length
  · rw [if_pos hl, he]
    cases hh : (g.thr l).held <;> by_cases hp : (g.thr l).pc = a <;> simp [hh, hp]
  · rw [Group.thr_past g hl] at he; exact absurd he (by decide)

/-- In an ascending list the first element with a property is the lowest. -/
theorem find?_ascending {p : Nat → Bool} {ls : List Nat} {l : Nat} (hs : ls.Pairwise (· < ·)) :
    ls.find? p = some l ↔ l ∈ ls ∧ p l = true ∧ ∀ k ∈ ls, k < l → p k = false := by
  induction ls with
  | nil => simp
  | cons x r ih =>
    obtain ⟨hx, hr⟩ := List.pairwise_cons.mp hs
    rw [List.find?_cons]
    cases hpx : p x with
    | true =>
      constructor
      · rintro ⟨⟩
        refine ⟨List.mem_cons_self, hpx, fun k hk hlt => ?_⟩
        rcases List.mem_cons.mp hk with rfl | hk
        · omega
        · have := hx k hk; omega
      · rintro ⟨hl, -, hmin⟩
        rcases List.mem_cons.mp hl with rfl | hl
        · rfl
        · rw [hmin x List.mem_cons_self (hx l hl)] at hpx; exact absurd hpx Bool.false_ne_true
    | false =>
      rw [ih hr]
      constructor
      · rintro ⟨hl, hp, hmin⟩
        exact ⟨List.mem_cons_of_mem _ hl, hp, List.forall_mem_cons.mpr ⟨fun _ => hpx, hmin⟩⟩
      · rintro ⟨hl, hp, hmin⟩
        rcases List.mem_cons.mp hl with rfl | hl
        · rw [hpx] at hp; exact absurd hp Bool.false_ne_true
        · exact ⟨hl, hp, fun k hk => hmin k (List.mem_cons_of_mem _ hk)⟩

/-- When no thread runs, the threads held at the lowest address are released. -/
theorem Group.finish_released {g : Group} {ls : List Nat} {rot : Bool} {a : Word} (hr : (g.arrive ls).closeHeld.runPcs = [])
    (ha : ∃ l, l < g.threads.length ∧ Claims.arrives g ls l = true ∧ (g.thr l).pc = a)
    (hmin : ∀ l, l < g.threads.length → Claims.arrives g ls l = true → a.toNat ≤ (g.thr l).pc.toNat) :
    (g.finish ls rot).cur = a ∧ ∀ l, (g.thr l).exited = false →
      ((g.finish ls rot).thr l).held = (Claims.arrives g ls l && (g.thr l).pc != a) := by
  have hlen : (g.arrive ls).closeHeld.threads.length = g.threads.length := Group.threads_length_mapThr g _
  have hpc l : ((g.arrive ls).closeHeld.thr l).pc = (g.thr l).pc := (Group.thr_arrive g ls l).1
  have hex l : ((g.arrive ls).closeHeld.thr l).exited = (g.thr l).exited := (Group.thr_arrive g ls l).2.2.1
  have hheld l (he : (g.thr l).exited = false) : ((g.arrive ls).closeHeld.thr l).held = Claims.arrives g ls l :=
    Group.arrive_held g ls he
  have hmem b : b ∈ (g.arrive ls).closeHeld.heldPcs ↔
      ∃ l, l < g.threads.length ∧ Claims.arrives g ls l = true ∧ (g.thr l).pc = b := by
    simp only [Group.mem_heldPcs, hlen, hpc, hex]
    refine exists_congr fun l => and_congr_right fun _ => and_congr_left fun _ => ?_
    cases he : (g.thr l).exited with
    | true => simp [Claims.arrives, he]
    | false => simp [hheld l he]
  have hlow : lowest (g.arrive ls).closeHeld.heldPcs = some a := by
    obtain ⟨b, hb⟩ := Option.ne_none_iff_exists'.mp (mt lowest_eq_none.mp (List.ne_nil_of_mem ((hmem a).mpr ha)))
    obtain ⟨hbm, hble⟩ := lowest_le hb
    obtain ⟨l, hl, har, rfl⟩ := (hmem b).mp hbm
    have h1 := hmin l hl har
    have h2 := hble a ((hmem a).mpr ha)
    rw [hb, BitVec.eq_of_toNat_eq (by omega : (g.thr l).pc.toNat = a.toNat)]
  have hfin : g.finish ls rot = (g.arrive ls).closeHeld.release := by
    unfold Group.finish
    simp only [if_pos hr]
  rw [hfin]
  obtain ⟨hcur, hrel⟩ := Group.release_lowest hlow
  exact ⟨hcur, fun l he => by rw [hrel l ((hex l).trans he), hheld l he, hpc]⟩

/-- Settles O14: what R20 to R22 make of the arriving threads, by the cases that some thread runs on and that none does. -/
theorem reconvergence : Obligations.Reconvergence := by
  unfold Obligations.Reconvergence
  intro g ls rot hs h running
  have hrun : running = (· ∈ (g.arrive ls).closeHeld.runPcs) := funext fun a => propext (Group.mem_runPcs_arrive g ls a).symm
  refine ⟨fun l => Group.thr_finish g ls rot l, fun ⟨a, ha⟩ => ?_, fun hno a ha hmin => ?_⟩
  · have hne : (g.arrive ls).closeHeld.runPcs ≠ [] := List.ne_nil_of_mem (show a ∈ _ by rwa [hrun] at ha)
    obtain ⟨hthr, hcur⟩ := Group.finish_running (rot := rot) hne
    have hnext prev : Claims.NextAbove running prev ((g.arrive ls).closeHeld.rotateFrom prev) := by
      rw [hrun]; exact Group.rotateFrom_nextAbove prev hne
    refine ⟨fun l he => ?_, fun l hl hp hfirst => ?_, fun hall => ?_⟩
    · rw [show h.thr l = _ from hthr l]; exact Group.arrive_held g ls he
    · rw [(find?_ascending hs).mpr ⟨hl, hp, hfirst⟩] at hcur
      replace hcur : h.cur = if rot then (g.arrive ls).closeHeld.rotateFrom (g.thr l).pc else (g.thr l).pc := hcur
      exact ⟨fun hf => by rw [hcur, hf, if_neg Bool.false_ne_true], fun ht => by rw [hcur, if_pos ht]; exact hnext _⟩
    · rw [List.find?_eq_none.mpr fun l hl => by simp [hall l hl]] at hcur
      rw [show h.cur = _ from hcur]; exact hnext _
  · have hnil : (g.arrive ls).closeHeld.runPcs = [] :=
      List.eq_nil_iff_forall_not_mem.mpr fun b hb => hno ⟨b, by rwa [hrun]⟩
    obtain ⟨hcur, hheld⟩ := Group.finish_released (rot := rot) hnil ha hmin
    exact ⟨hcur, fun l _ he => hheld l he⟩

end Sys2Proof.Machine

namespace Sys2Proof.Machine

/-! ## An access that waits for a sector's fill (13 R180, 21 R308) -/

/-- A held translation with every right of a 64 KiB page. -/
def heldPage (va pa : Nat) : Held :=
  { core := 0, part := 0, va := va, size := 65536, ipa := pa, pa := pa, pr := true, pw := true, px := true, pkind := 0,
    hr := true, hw := true, hx := true, hkind := 0 }

/-- A group of one thread at address 0x10000, with a lookahead window still open. -/
def openGroup : Group :=
  { Group.absent with
    team := 1, gran := 20, cur := 0x10000, status := .running
    threads := [{ pc := 0x10000, meet := BitVec.allOnes 64, held := false, exited := false, preds := 0 }]
    pending := [{ dst := .zero, lane := 0, val := 0, mask := 0, left := 5 }] }

/-- `openGroup` stands in slot 0 of core 0 before an `LD` of the LPDDR6 byte 0x10000000010, whose sector no place of the sector
cache holds, and its turn to wait for the fill has come. -/
def missDemo : State :=
  { (State.reset.setBytes 0x10000 (leBytes 8 0x22670400BFE06002)) with
    boot := { State.reset.boot with c := 1 }
    groups := [(32, openGroup)]
    teams := [(1, { Team.absent with phase := .resident, grid := 1, size := 1 })]
    cores := [(0, { Core.fresh with slots := [(0, { Bind.free with valid := true, key := 32 })] })]
    held := [heldPage 0x10000 0x10000, heldPage 0 0x10000000000]
    schedule := [.miss 0 0 0x10000000010] }

/-- The turn makes the group wait, at a pre-emption point, where none of its windows is open (21 R308). -/
theorem missDemo_waits :
    ((missDemo.begin.missAt 0 0 0x10000000010).grp 32).waits = some (.fill 0x10000000010)
      ∧ ((missDemo.begin.missAt 0 0 0x10000000010).grp 32).pending = [] := by decide

theorem missDemo_step : step missDemo = .next (missDemo.begin.missAt 0 0 0x10000000010) := rfl

/-- Refutes O55: the clause for a turn that waits for a sector's fill leaves everything of the group but `waits` as it was, and in the
model its open lookahead windows close as well, as at every pre-emption point (09 R120, 21 R308). `openGroup` has one open. -/
theorem not_stepRunsDecoded : ¬ Obligations.StepRunsDecoded := by
  unfold Obligations.StepRunsDecoded
  intro h
  obtain ⟨-, -, -, -, -, hmiss, -⟩ := h missDemo 0 0 0 0 false 0 0 .powerGood
  obtain ⟨u, hu, -, hgrp⟩ := hmiss 0x10000000010 rfl
  obtain rfl : missDemo.begin.missAt 0 0 0x10000000010 = u := Host.Outcome.next.inj (missDemo_step.symm.trans hu)
  have hopen : (missDemo.grp 32).pending ≠ [] := by decide
  rcases hgrp 32 with hsame | ⟨hwaits, -, -⟩
  · exact hopen (by rw [← hsame]; exact missDemo_waits.2)
  · have hpend := missDemo_waits.2
    rw [hwaits] at hpend
    exact hopen hpend

end Sys2Proof.Machine

namespace Sys2Proof.Machine

/-! ## The first of some candidates (01 R28, 19 R286) -/

/-- One turn of a search for the first candidate in an order. -/
def better {α : Type} (r : α → α → Bool) (b : Option α) (w : α) : Option α :=
  match b with
  | none => some w
  | some x => if r w x then some w else some x

/-- A search from `x` on ends at a candidate that is `x` or comes before it, and no candidate comes before the one it ends at. -/
theorem foldl_better_some {α : Type} {r : α → α → Bool} (irrefl : ∀ a, r a a = false)
    (trans : ∀ a b c, r a b = true → r b c = true → r a c = true) {l : List α} {x w : α}
    (h : l.foldl (better r) (some x) = some w) :
    (w = x ∨ r w x = true) ∧ w ∈ x :: l ∧ ∀ v ∈ x :: l, r v w = false := by
  induction l generalizing x with
  | nil =>
    obtain rfl := Option.some.inj h
    simp [irrefl]
  | cons y l ih =>
    cases hyx : r y x with
    | true =>
      obtain ⟨hw, hm, hmin⟩ := ih (by simpa [better, hyx] using h)
      have hwx : r w x = true := by
        rcases hw with rfl | hw
        · exact hyx
        · exact trans _ _ _ hw hyx
      refine ⟨.inr hwx, List.mem_cons_of_mem _ hm, List.forall_mem_cons.mpr ⟨?_, hmin⟩⟩
      cases hxw : r x w with
      | false => rfl
      | true => rw [← irrefl w, trans _ _ _ hwx hxw]
    | false =>
      obtain ⟨hw, hm, hmin⟩ := ih (by simpa [better, hyx] using h)
      obtain ⟨hxw, hl⟩ := List.forall_mem_cons.mp hmin
      refine ⟨hw, ?_, List.forall_mem_cons.mpr ⟨hxw, List.forall_mem_cons.mpr ⟨?_, hl⟩⟩⟩
      · rcases List.mem_cons.mp hm with hm | hm <;> simp [hm]
      · rcases hw with rfl | hw
        · exact hyx
        · cases hyw : r y w with
          | false => rfl
          | true => rw [← hyx, trans _ _ _ hyw hw]

theorem foldl_better {α : Type} {r : α → α → Bool} (irrefl : ∀ a, r a a = false)
    (trans : ∀ a b c, r a b = true → r b c = true → r a c = true) {l : List α} {w : α}
    (h : l.foldl (better r) none = some w) : w ∈ l ∧ ∀ v ∈ l, r v w = false := by
  cases l with
  | nil => simp at h
  | cons x l => exact (foldl_better_some irrefl trans h).2

theorem State.waitsBefore_iff (s : State) (a b : WaitingTeam) :
    s.waitsBefore a b = true ↔ (s.grid a.grid).deadline < (s.grid b.grid).deadline
      ∨ (s.grid a.grid).deadline = (s.grid b.grid).deadline ∧ a.grid = b.grid ∧ a.number < b.number := by
  simp [State.waitsBefore, and_assoc]

theorem State.firstWaiting_eq (s : State) (ws : List WaitingTeam) : s.firstWaiting ws = ws.foldl (better s.waitsBefore) none := by
  unfold State.firstWaiting
  congr 1
  funext b w
  cases b <;> rfl

theorem State.firstWaiting_first {s : State} {ws : List WaitingTeam} {w : WaitingTeam} (h : s.firstWaiting ws = some w) :
    w ∈ ws ∧ ∀ v ∈ ws, s.waitsBefore v w = false := by
  rw [State.firstWaiting_eq] at h
  refine foldl_better (fun a => ?_) (fun a b c hab hbc => ?_) h
  · rw [Bool.eq_false_iff, ne_eq, State.waitsBefore_iff]; omega
  · rw [State.waitsBefore_iff] at *; omega

theorem State.prefers_iff (s : State) (a b : Nat) :
    s.prefers a b = true ↔ s.freeGran b < s.freeGran a ∨ s.freeGran a = s.freeGran b
      ∧ (spLargest (s.spTaken b) < spLargest (s.spTaken a) ∨ spLargest (s.spTaken a) = spLargest (s.spTaken b)
        ∧ ((s.freeSlots b).length < (s.freeSlots a).length ∨ (s.freeSlots a).length = (s.freeSlots b).length ∧ a < b)) := by
  unfold State.prefers
  simp only [bne_iff_ne, ne_eq]
  split
  · simp only [decide_eq_true_eq]; omega
  · split
    · simp only [decide_eq_true_eq]; omega
    · split <;> simp only [decide_eq_true_eq] <;> omega

/-! ## The core of a placement (01 R28) -/

/-- A core of a cluster, by its number in it. -/
theorem mem_clusterCores {cluster c : Nat} : c ∈ (List.range 8).map (fun l => 8 * cluster + l) ↔ c / 8 = cluster := by
  simp only [List.mem_map, List.mem_range]
  exact ⟨fun ⟨l, hl, h⟩ => by omega, fun h => ⟨c % 8, by omega, by omega⟩⟩

theorem mem_clusterPairs {cluster c : Nat} :
    c ∈ ([0, 2, 4, 6].map fun l => 8 * cluster + l) ↔ c / 8 = cluster ∧ c % 2 = 0 := by
  simp only [List.map_cons, List.map_nil, List.mem_cons, List.not_mem_nil, or_false]
  omega

theorem State.placeOn_eq (s : State) (cluster : Nat) (p : Packet) :
    s.placeOn cluster p = if p.paired then ([0, 2, 4, 6].map fun l => 8 * cluster + l).find? fun c => s.coreFits c p && s.coreFits (c + 1) p
      else (((List.range 8).map fun l => 8 * cluster + l).filter fun c => s.coreFits c p).foldl (better s.prefers) none := by
  unfold State.placeOn
  rw [List.head?_filter]
  congr 2
  funext b c
  cases b <;> rfl

theorem State.placeOn_placed {s : State} {cluster core : Nat} {p : Packet} (h : s.placeOn cluster p = some core) :
    Claims.Placed s cluster p core := by
  rw [State.placeOn_eq] at h
  cases hp : p.paired with
  | true =>
    rw [if_pos hp, find?_ascending (by simp)] at h
    obtain ⟨hm, hfit, hmin⟩ := h
    obtain ⟨hc, he⟩ := mem_clusterPairs.mp hm
    rw [Bool.and_eq_true] at hfit
    exact ⟨hc, hfit.1, fun hn => by simp [hp] at hn,
      fun _ => ⟨he, hfit.2, fun c hcc hce hlt => hmin c (mem_clusterPairs.mpr ⟨hcc, hce⟩) hlt⟩⟩
  | false =>
    rw [if_neg (by simp [hp])] at h
    obtain ⟨hm, hmin⟩ := foldl_better (fun a => by rw [Bool.eq_false_iff, ne_eq, State.prefers_iff]; omega)
      (fun a b c hab hbc => by rw [State.prefers_iff] at *; omega) h
    rw [List.mem_filter, mem_clusterCores] at hm
    exact ⟨hm.1, hm.2, fun _ c hc hf => hmin c (List.mem_filter.mpr ⟨mem_clusterCores.mpr hc, hf⟩), fun ht => by simp [hp] at ht⟩

theorem State.coreFits_slots {s : State} {core : Nat} {p : Packet} (h : s.coreFits core p = true) :
    p.perCore ≤ (s.freeSlots core).length := by
  simp only [State.coreFits, Bool.and_eq_true, decide_eq_true_eq] at h
  exact h.2

/-! ## What a core has free -/

theorem mem_kput_self {α : Type} (m : KMap α) (k : Nat) (x : α) : (k, x) ∈ kput m k x := by
  induction m with
  | nil => simp [kput]
  | cons e r ih =>
    obtain ⟨k', y⟩ := e
    simp only [kput]
    split
    · simp
    · split
      · simp
      · exact List.mem_cons_of_mem _ ih

/-- A written entry that is not the default is listed. -/
theorem mem_kset_self {α : Type} [DecidableEq α] {d x : α} (m : KMap α) (k : Nat) (h : x ≠ d) : (k, x) ∈ kset d m k x := by
  rw [kset, if_neg h]
  exact mem_kput_self m k x

theorem mem_kfind {α : Type} {m : KMap α} {p : Nat → α → Bool} {j : Nat} : j ∈ kfind m p ↔ ∃ x, (j, x) ∈ m ∧ p j x = true := by
  simp [kfind]

theorem State.mem_residentOn {s : State} {core tk : Nat} :
    tk ∈ s.residentOn core ↔ ∃ t, (tk, t) ∈ s.teams ∧ t.phase = .resident ∧ core ∈ t.cores := by
  simp only [State.residentOn, State.teamsThat, mem_kfind, Bool.and_eq_true, bne_iff_ne, beq_iff_eq, List.contains_iff_mem]
  exact exists_congr fun t => and_congr_right fun _ => ⟨fun h => h.2, fun h => ⟨by rw [h.1]; decide, h⟩⟩

theorem State.mem_groupsOn {s : State} {core tk i : Nat} (ht : tk ∈ s.residentOn core) (hi : i < (s.team tk).size)
    (hc : (s.grp (groupKey tk i)).core = core) (he : (s.grp (groupKey tk i)).status ≠ .ended) :
    groupKey tk i ∈ s.groupsOn core := by
  simp only [State.groupsOn, State.teamGroups, List.mem_filter, List.mem_flatMap, List.mem_map, List.mem_range, Bool.and_eq_true,
    beq_iff_eq, bne_iff_ne]
  exact ⟨⟨tk, ht, i, hi, rfl⟩, hc, he⟩

theorem State.mem_freeGranules {s : State} {core n : Nat} :
    n ∈ s.freeGranules core ↔ n < 192 ∧ ∀ k ∈ s.groupsOn core, n ∉ (s.grp k).granules := by
  simp [State.freeGranules, coreGranules]

theorem State.mem_freeSlots {s : State} {core n : Nat} :
    n ∈ s.freeSlots core ↔ n < 32 ∧ (kget Bind.free (s.core core).slots n).valid = false := by
  simp [State.freeSlots, coreSlots]

/-- A bind record takes at most one free slot. -/
theorem State.freeSlots_bound {s t : State} {core sl : Nat} {b : Bind} (hb : b.valid = true)
    (h : (t.core core).slots = kset Bind.free (s.core core).slots sl b) :
    (s.freeSlots core).length ≤ (t.freeSlots core).length + 1 := by
  have hf : t.freeSlots core = (s.freeSlots core).filter (· != sl) := by
    unfold State.freeSlots
    rw [h, List.filter_filter]
    refine List.filter_congr fun n _ => ?_
    rw [kget_kset]
    by_cases hn : n = sl <;> simp [hn, hb]
  have hnd : (s.freeSlots core).Nodup := List.nodup_range.filter _
  rw [hf, ← hnd.erase_eq_filter]
  have := List.le_length_erase (a := sl) (l := s.freeSlots core)
  omega

theorem headD_mem {α : Type} {l : List α} {d : α} (h : l ≠ []) : l.headD d ∈ l := by
  cases l with
  | nil => exact absurd rfl h
  | cons a r => simp

/-! ## The start of a group (01 R15, 19 R269, R289) -/

/-- The group that `startGroup` starts. -/
def State.seated (s : State) (tk : Nat) (p : Packet) (i : Nat) : Group :=
  let g := newGroup tk (s.team tk) p i
  { g with slot := (s.freeSlots g.core).headD 0, granules := (s.freeGranules g.core).take g.gran }

theorem State.startGroup_only (s : State) (tk : Nat) (p : Packet) (i : Nat) :
    s.startGroup tk p i = { s with groups := (s.startGroup tk p i).groups, cores := (s.startGroup tk p i).cores } := rfl

theorem State.startGroup_grp (s : State) (tk : Nat) (p : Packet) (i k : Nat) :
    (s.startGroup tk p i).grp k = if k = groupKey tk i then s.seated tk p i else s.grp k := State.setGrp_grp s _ _ _

/-- The bind record stands in the group's slot, and no other core changes. -/
theorem State.startGroup_core (s : State) (tk : Nat) (p : Packet) (i c : Nat) :
    ∃ b : Bind, b.valid = true ∧ b.gbase = (s.seated tk p i).granules.headD 0 ∧ (s.startGroup tk p i).core c
      = if c = (s.team tk).coreOf i then { s.core c with slots := kset Bind.free (s.core c).slots (s.seated tk p i).slot b } else s.core c := by
  let u := s.setGrp (groupKey tk i) (s.seated tk p i)
  have hg : u.grp (groupKey tk i) = s.seated tk p i := State.setGrp_grp_same _ _ _
  refine ⟨u.bindOf (groupKey tk i), rfl, by rw [← hg]; rfl, ?_⟩
  show (u.bind (groupKey tk i)).core c = _
  unfold State.bind
  rw [hg]
  show (u.setCore ((s.team tk).coreOf i) _).core c = _
  rw [State.setCore_core]
  split
  · next h => subst h; rfl
  · rfl

/-- `u` is `v` after the first `n` groups of team `tk` have started. -/
structure Started (v u : State) (tk : Nat) (p : Packet) (n : Nat) : Prop where
  only : u = { v with groups := u.groups, cores := u.cores }
  others : ∀ k, (∀ i, i < n → k ≠ groupKey tk i) → u.grp k = v.grp k
  groups : ∀ i, i < n → ∃ sl gs, u.grp (groupKey tk i) = { newGroup tk (v.team tk) p i with slot := sl, granules := gs }
    ∧ (∀ m ∈ gs, m < 192) ∧ (kget Bind.free (u.core ((v.team tk).coreOf i)).slots sl).valid = true
    ∧ (kget Bind.free (u.core ((v.team tk).coreOf i)).slots sl).gbase = gs.headD 0
  apart : ∀ i j, i < j → j < n → (v.team tk).coreOf i = (v.team tk).coreOf j →
    ∀ m ∈ (u.grp (groupKey tk i)).granules, m ∉ (u.grp (groupKey tk j)).granules
  slots : ∀ c, (v.freeSlots c).length ≤ (u.freeSlots c).length + (List.range n).countP fun i => (v.team tk).coreOf i == c

theorem Started.zero (v : State) (tk : Nat) (p : Packet) : Started v v tk p 0 :=
  ⟨rfl, fun _ _ => rfl, fun i hi => absurd hi (Nat.not_lt_zero i), fun _ j _ hj => absurd hj (Nat.not_lt_zero j), fun _ => by simp⟩

theorem countP_range_succ (p : Nat → Bool) (n : Nat) :
    (List.range (n + 1)).countP p = (List.range n).countP p + if p n then 1 else 0 := by
  rw [List.range_succ, List.countP_append, List.countP_singleton]

theorem groupKey_inj {tk i j : Nat} : groupKey tk i = groupKey tk j ↔ i = j := by
  unfold groupKey; omega

/-- One more group starts: it takes a free slot, and granules that none of the groups before it holds. -/
theorem Started.succ {v u : State} {tk : Nat} {p : Packet} {n : Nat} (h : Started v u tk p n) (hn : n < (v.team tk).size)
    (ht : tk ∈ v.residentOn ((v.team tk).coreOf n))
    (hs : ((List.range n).countP fun i => (v.team tk).coreOf i == (v.team tk).coreOf n) < (v.freeSlots ((v.team tk).coreOf n)).length) :
    Started v (u.startGroup tk p n) tk p (n + 1) := by
  obtain ⟨honly, hothers, hgroups, hapart, hslots⟩ := h
  have hteam : u.team tk = v.team tk := by rw [honly]; rfl
  have hres : u.residentOn ((v.team tk).coreOf n) = v.residentOn ((v.team tk).coreOf n) := by rw [honly]; rfl
  have hgrp k := State.startGroup_grp u tk p n k
  have hseat : u.seated tk p n = { newGroup tk (v.team tk) p n with
      slot := (u.freeSlots ((v.team tk).coreOf n)).headD 0
      granules := (u.freeGranules ((v.team tk).coreOf n)).take p.gran } := by
    unfold State.seated; rw [hteam]; rfl
  have hfree : (u.freeSlots ((v.team tk).coreOf n)).headD 0 ∈ u.freeSlots ((v.team tk).coreOf n) := by
    refine headD_mem fun hnil => ?_
    have := hslots ((v.team tk).coreOf n)
    rw [hnil, List.length_nil] at this
    omega
  obtain ⟨hlt, hinvalid⟩ := State.mem_freeSlots.mp hfree
  have hold i (hi : i < n) : (u.startGroup tk p n).grp (groupKey tk i) = u.grp (groupKey tk i) := by
    rw [hgrp, if_neg (by rw [groupKey_inj]; omega)]
  have hnew : (u.startGroup tk p n).grp (groupKey tk n) = u.seated tk p n := by rw [hgrp, if_pos rfl]
  refine ⟨?_, fun k hk => ?_, fun i hi => ?_, fun i j hij hj hcore => ?_, fun c => ?_⟩
  · rw [State.startGroup_only, honly]
  · rw [hgrp, if_neg (hk n (Nat.lt_succ_self n)), hothers k fun i hi => hk i (Nat.lt_succ_of_lt hi)]
  · obtain ⟨b, hvalid, hbase, hcores⟩ := State.startGroup_core u tk p n ((v.team tk).coreOf i)
    rw [hteam] at hcores
    rcases Nat.lt_succ_iff_lt_or_eq.mp hi with hi | rfl
    · obtain ⟨sl, gs, hg, hlt', hv, hb⟩ := hgroups i hi
      refine ⟨sl, gs, (hold i hi).trans hg, hlt', ?_⟩
      rw [hcores]
      split
      · next hc =>
        have hne : sl ≠ (u.seated tk p n).slot := by
          rintro rfl
          rw [hseat, hc, hinvalid] at hv
          exact absurd hv Bool.false_ne_true
        simp only [kget_kset_ne _ _ _ hne]
        exact ⟨hv, hb⟩
      · exact ⟨hv, hb⟩
    · refine ⟨_, _, hnew.trans hseat, fun m hm => (State.mem_freeGranules.mp (List.mem_of_mem_take hm)).1, ?_⟩
      rw [hcores, if_pos rfl, hseat]
      simp only [kget_kset_same]
      exact ⟨hvalid, by rw [hbase, hseat]⟩
  · rcases Nat.lt_succ_iff_lt_or_eq.mp hj with hj | rfl
    · rw [hold i (by omega), hold j hj]
      exact hapart i j hij hj hcore
    · rw [hold i hij, hnew, hseat]
      intro m hm hmem
      obtain ⟨sl, gs, hg, -⟩ := hgroups i hij
      refine (State.mem_freeGranules.mp (List.mem_of_mem_take hmem)).2 _ (State.mem_groupsOn (hres ▸ ht) ?_ ?_ ?_) hm
      · rw [hteam]; omega
      · rw [hg]; exact hcore
      · rw [hg]; simp [newGroup]
  · have hc := hslots c
    obtain ⟨b, hvalid, -, hcores⟩ := State.startGroup_core u tk p n c
    rw [hteam] at hcores
    rw [countP_range_succ]
    by_cases hcn : (v.team tk).coreOf n = c
    · rw [if_pos hcn.symm] at hcores
      have := State.freeSlots_bound (t := u.startGroup tk p n) hvalid (congrArg Core.slots hcores)
      rw [if_pos (beq_iff_eq.mpr hcn)]
      omega
    · rw [if_neg (Ne.symm hcn)] at hcores
      have : (u.startGroup tk p n).freeSlots c = u.freeSlots c := by unfold State.freeSlots; rw [hcores]
      rw [this, if_neg (mt beq_iff_eq.mp hcn)]
      omega

theorem Started.all {v : State} {tk : Nat} {p : Packet} (ht : ∀ i, tk ∈ v.residentOn ((v.team tk).coreOf i))
    (hs : ∀ n, n < (v.team tk).size →
      ((List.range n).countP fun i => (v.team tk).coreOf i == (v.team tk).coreOf n) < (v.freeSlots ((v.team tk).coreOf n)).length)
    {n : Nat} (hn : n ≤ (v.team tk).size) : Started v ((List.range n).foldl (fun s i => s.startGroup tk p i) v) tk p n := by
  induction n with
  | zero => exact Started.zero v tk p
  | succ n ih =>
    rw [List.range_succ, List.foldl_append]
    exact (ih (by omega)).succ hn (ht n) (hs n hn)

theorem Team.coreOf_mem_cores (t : Team) (i : Nat) : t.coreOf i ∈ t.cores := by
  unfold Team.coreOf Team.cores
  cases t.paired with
  | false => simp
  | true => rcases Nat.mod_two_eq_zero_or_one i with h | h <;> simp [h]

/-- The group numbers of one parity below `n`. -/
theorem count_parity (r n : Nat) (hr : r < 2) : ((List.range n).countP fun i => i % 2 == r) = (n + 1 - r) / 2 := by
  induction n with
  | zero => rw [List.range_zero, List.countP_nil]; omega
  | succ n ih =>
    rw [countP_range_succ, ih]
    by_cases h : n % 2 = r
    · rw [if_pos (beq_iff_eq.mpr h)]; omega
    · rw [if_neg (mt beq_iff_eq.mp h)]; omega

/-- Before a group of a team starts, fewer groups stand on its core than the packet places there (01 R16). -/
theorem count_lt_perCore {t : Team} {p : Packet} (hp : t.paired = p.paired) (he : p.paired = true → p.size % 2 = 0) {n : Nat}
    (hn : n < p.size) : ((List.range n).countP fun i => t.coreOf i == t.coreOf n) < p.perCore := by
  unfold Team.coreOf Packet.perCore
  rw [hp]
  cases h : p.paired with
  | false =>
    have hle := List.countP_le_length (p := fun _ : Nat => t.core == t.core) (l := List.range n)
    rw [List.length_range] at hle
    exact Nat.lt_of_le_of_lt hle hn
  | true =>
    have hsize := he h
    have hcount := count_parity (n % 2) n (by omega)
    have hsame : (fun i => t.core + i % 2 == t.core + n % 2) = fun i => i % 2 == n % 2 := by
      funext i
      rw [Bool.eq_iff_iff, beq_iff_eq, beq_iff_eq, Nat.add_left_cancel_iff]
    simp only [if_true, hsame, hcount]
    omega

/-- A new group of a placed team starts as R15 and R269 say. -/
theorem newGroup_started {u : State} {t : Team} {p : Packet} {tk core i sl : Nat} {gs : List Nat} (hc : t.core = core)
    (hp : t.paired = p.paired) (hgs : ∀ m ∈ gs, m < 192) (hv : (kget Bind.free (u.core (t.coreOf i)).slots sl).valid = true)
    (hb : (kget Bind.free (u.core (t.coreOf i)).slots sl).gbase = gs.headD 0) :
    Claims.GroupStarted u p tk (t.spbaseOn (if p.paired then core + i % 2 else core)) core i
      { newGroup tk t p i with slot := sl, granules := gs } := by
  have hcore : t.coreOf i = if p.paired then core + i % 2 else core := by unfold Team.coreOf; rw [hp, hc]
  refine ⟨⟨rfl, rfl, hcore, rfl, rfl⟩, ?_, ⟨rfl, by simp [newGroup], fun l hl => ?_⟩, ⟨fun _ _ => rfl, ?_, fun n hn => ?_⟩,
    ⟨rfl, rfl, rfl, rfl, rfl, rfl, rfl, rfl, rfl⟩, ?_, hv, hb, hgs⟩
  · show roleOf (p.roles.getD i 0) = _
    rcases p.roles.getD i 0 with _ | _ | _ | _ | n <;> rfl
  · show (List.replicate 32 _).getD l Thread.none = _
    rw [List.getD_eq_getElem?_getD, List.getElem?_replicate, if_pos hl, Option.getD_some]
  · exact kget_kset_same _ _ _ _
  · exact kget_kset_ne _ _ _ hn
  · show t.spbaseOn (t.coreOf i) + _ + _ = _
    rw [hcore]

/-! ## `TEAM_PLACEMENT` (01 R28, 19 R286, R290) -/

/-- The team that a placement creates. -/
def State.teamAt (s : State) (cluster : Nat) (w : WaitingTeam) (core : Nat) : Team :=
  let p := (s.grid w.grid).pkt
  let at_ := fun k => (spFit (s.spTaken k) p.scratch).getD 0
  { Team.absent with
    phase := .resident, grid := w.grid, number := w.number, launchNo := (s.cluster cluster).launches + 1, size := p.size
    paired := p.paired, core := core, spbase := if p.paired then [at_ core, at_ (core + 1)] else [at_ core], spsize := p.scratch
    spkib := p.spkib, rings := ringsFrom 0 p.ringList, halves := p.acc }

/-- The state in which a placement starts the team's groups. -/
def State.teamPlaced (s : State) (cluster : Nat) (w : WaitingTeam) (core : Nat) : State :=
  let c := s.cluster cluster
  let x := s.grid w.grid
  let g := s.graph x.graph
  let now := s.timeOf x.part
  let u := ((s.setCluster cluster { c with waiting := c.waiting.filter (· != w), launches := c.launches + 1 }).setGrid w.grid
    { x with started := x.started + 1, start := if x.started = 0 then now else x.start }).setGraph x.graph
    { g with start := if g.start = 0 then now else g.start }
  { u.setTeam s.nextTeam (s.teamAt cluster w core) with nextTeam := s.nextTeam + 1 }

theorem State.placeTeam_eq (s : State) (cluster : Nat) (w : WaitingTeam) (core : Nat) :
    s.placeTeam cluster w core = (List.range (s.grid w.grid).pkt.size).foldl
      (fun u i => u.startGroup s.nextTeam (s.grid w.grid).pkt i) (s.teamPlaced cluster w core) := rfl

theorem State.teamPlaced_only (s : State) (cluster : Nat) (w : WaitingTeam) (core : Nat) :
    ∃ teams grids graphs clusters, s.teamPlaced cluster w core
      = { s with teams := teams, grids := grids, graphs := graphs, clusters := clusters, nextTeam := s.nextTeam + 1 } := by
  unfold State.teamPlaced State.setTeam State.setGraph State.setGrid State.setCluster
  exact ⟨_, _, _, _, rfl⟩

theorem State.teamPlaced_team (s : State) (cluster : Nat) (w : WaitingTeam) (core k : Nat) :
    (s.teamPlaced cluster w core).team k = if k = s.nextTeam then s.teamAt cluster w core else s.team k := by
  show kget Team.absent (kset Team.absent s.teams s.nextTeam (s.teamAt cluster w core)) k = _
  rw [kget_kset]
  rfl

theorem State.teamPlaced_cluster (s : State) (cluster : Nat) (w : WaitingTeam) (core : Nat) :
    (s.teamPlaced cluster w core).cluster cluster = { s.cluster cluster with
      waiting := (s.cluster cluster).waiting.filter (· != w), launches := (s.cluster cluster).launches + 1 } := by
  unfold State.teamPlaced
  exact kget_kset_same Cluster.fresh s.clusters cluster _

theorem State.teamPlaced_grid (s : State) (cluster : Nat) (w : WaitingTeam) (core : Nat) :
    (s.teamPlaced cluster w core).grid w.grid = { s.grid w.grid with
      started := (s.grid w.grid).started + 1
      start := if (s.grid w.grid).started = 0 then s.timeOf (s.grid w.grid).part else (s.grid w.grid).start } := by
  unfold State.teamPlaced
  exact kget_kset_same Grid.absent s.grids w.grid _

/-- All groups of a placed team start. -/
theorem State.placeTeam_started {s : State} {cluster core : Nat} {w : WaitingTeam}
    (hplaced : Claims.Placed s cluster (s.grid w.grid).pkt core)
    (heven : (s.grid w.grid).pkt.paired = true → (s.grid w.grid).pkt.size % 2 = 0) :
    Started (s.teamPlaced cluster w core) (s.placeTeam cluster w core) s.nextTeam (s.grid w.grid).pkt (s.grid w.grid).pkt.size := by
  obtain ⟨-, hfit, -, hpair⟩ := hplaced
  have hteam : (s.teamPlaced cluster w core).team s.nextTeam = s.teamAt cluster w core := by rw [State.teamPlaced_team, if_pos rfl]
  have hlisted : (s.nextTeam, s.teamAt cluster w core) ∈ (s.teamPlaced cluster w core).teams := by
    show _ ∈ kset Team.absent s.teams s.nextTeam (s.teamAt cluster w core)
    exact mem_kset_self _ _ fun h => TeamPhase.noConfusion (congrArg Team.phase h)
  rw [State.placeTeam_eq]
  refine Started.all (fun i => ?_) (fun n hn => ?_) (by rw [hteam]; exact Nat.le_refl _)
  · rw [hteam]
    exact State.mem_residentOn.mpr ⟨_, hlisted, rfl, Team.coreOf_mem_cores _ i⟩
  · rw [hteam] at hn ⊢
    refine Nat.lt_of_lt_of_le (count_lt_perCore (t := s.teamAt cluster w core) (p := (s.grid w.grid).pkt) rfl heven hn) ?_
    show _ ≤ (s.freeSlots _).length
    refine State.coreFits_slots ?_
    show s.coreFits (if (s.grid w.grid).pkt.paired then core + n % 2 else core) _ = true
    split
    · next hp => rcases Nat.mod_two_eq_zero_or_one n with h | h
                 · rw [h]; exact hfit
                 · rw [h]; exact (hpair hp).2.1
    · exact hfit

/-- Settles O46: what is placed and where is the first of an order (`foldl_better`), and the groups start one after another, each in a
slot and in granules that the groups before it have left free (`Started`). -/
theorem teamPlacements : Obligations.TeamPlacements := by
  unfold Obligations.TeamPlacements
  intro s cluster w core p fits
  have hexec : exec (.teamPlacement cluster) s = execTeamPlacement cluster s := rfl
  refine ⟨fun hout => ?_, fun hnone => ?_, fun hout heven hfirst hplace => ?_⟩
  · rw [hexec, execTeamPlacement, if_pos hout]
  · have hfirst : s.firstWaiting fits = none := by rw [hnone]; rfl
    rw [hexec, execTeamPlacement, hfirst]
    exact congrArg _ (ite_self s)
  · obtain ⟨hw, hbefore⟩ := State.firstWaiting_first hfirst
    have hplaced := State.placeOn_placed hplace
    obtain ⟨hwaits, hstarts⟩ := List.mem_filter.mp (List.mem_filter.mp hw).1
    simp only [State.startsTeams, Bool.and_eq_true, decide_eq_true_eq] at hstarts
    have hrun : exec (.teamPlacement cluster) s = .next (s.placeTeam cluster w core) := by
      rw [hexec, execTeamPlacement, if_neg (by rw [hout]; exact Bool.false_ne_true), hfirst]
      dsimp only
      rw [show s.placeOn cluster (s.grid w.grid).pkt = some core from hplace]
    obtain ⟨honly, hothers, hgroups, hapart, -⟩ := State.placeTeam_started hplaced heven
    generalize s.placeTeam cluster w core = t at *
    obtain ⟨gs, cs, rfl⟩ : ∃ gs cs, t = { s.teamPlaced cluster w core with groups := gs, cores := cs } := ⟨_, _, honly⟩
    have hteam : (s.teamPlaced cluster w core).team s.nextTeam = s.teamAt cluster w core := by rw [State.teamPlaced_team, if_pos rfl]
    have hteam' : State.team { s.teamPlaced cluster w core with groups := gs, cores := cs } s.nextTeam = s.teamAt cluster w core := hteam
    rw [hteam] at hgroups hapart
    have hcluster := s.teamPlaced_cluster cluster w core
    have hgrid := s.teamPlaced_grid cluster w core
    refine ⟨hwaits, hbefore, hplaced, hstarts.2, _, hrun, ?_, congrArg Cluster.waiting hcluster, congrArg Cluster.launches hcluster,
      fun k hk => ?_, by rw [hteam']; rfl, by rw [hteam']; rfl, by rw [hteam']; rfl, by rw [hteam']; rfl,
      by rw [hteam']; rfl, by rw [hteam']; rfl, by rw [hteam']; rfl, congrArg Grid.started hgrid, fun h0 => ?_,
      fun i hi => ?_, fun i j hij hj hpar => ?_, hothers⟩
    · obtain ⟨_, _, _, _, honly⟩ := s.teamPlaced_only cluster w core
      rw [honly]
    · show (s.teamPlaced cluster w core).team k = _
      rw [State.teamPlaced_team, if_neg hk]
    · exact (congrArg Grid.start hgrid).trans (if_pos h0)
    · obtain ⟨sl, ns, hg, hlt, hvalid, hbase⟩ := hgroups i hi
      rw [hteam']
      exact hg ▸ newGroup_started rfl rfl hlt hvalid hbase
    · refine hapart i j hij hj ?_
      show (if p.paired then core + i % 2 else core) = if p.paired then core + j % 2 else core
      split
      · next hp => rw [hpar hp]
      · rfl

end Sys2Proof.Machine

namespace Sys2Proof.Machine

/-! ## A migration that ends two teams (21 R313, R315) -/

/-- Core 0 is frozen by an error in its control, which all its teams share, and teams 1 and 2 are resident on it. -/
def twoLostDemo : State :=
  { State.reset with
    teams := [(1, { Team.absent with phase := .resident }), (2, { Team.absent with phase := .resident })]
    cores := [(0, { Core.fresh with frozen := true, unit := 5 })] }

theorem twoLostDemo_lostTeams : twoLostDemo.lostTeams 0 = [1, 2] := by decide

/-- The model's migration ends both of them. -/
theorem twoLostDemo_migrates :
    ∃ t, exec (.migration 0) twoLostDemo = .next t ∧ (t.team 1).mcheck = true ∧ (t.team 2).mcheck = true := ⟨_, rfl, by decide⟩

/-- Refutes O49: in the clause for a migration to the spare, the alternative that two or more teams are lost stands within the scope of
the quantifier over the only team that is lost, so the clause demands that at most one team is lost. An error in the control of a core
with two resident teams ends both (21 R313, R315; `twoLostDemo_migrates`). -/
theorem not_freezeAndMigration : ¬ Obligations.FreezeAndMigration := by
  unfold Obligations.FreezeAndMigration
  intro h
  obtain ⟨-, -, -, hspare, -⟩ := h twoLostDemo 0 0 []
  obtain ⟨t, -, -, -, -, -, -, -, -, -, -, hlost, -⟩ := hspare rfl rfl rfl
  have hboth := twoLostDemo_lostTeams
  unfold State.lostTeams at hboth
  rcases hlost with hnone | ⟨tk, hone, -⟩
  · exact absurd (hboth.symm.trans hnone) (by simp)
  · exact absurd (hboth.symm.trans hone) (by simp)

end Sys2Proof.Machine

namespace Sys2Proof.Machine

/-! ## Records of dense tiles (05 R60, R62, R81) -/

theorem rawStream_lt (w : Nat) (els : List Nat) : rawStream w els < 2 ^ (w * els.length) := by
  induction els with
  | nil => exact Nat.one_pos
  | cons p ps ih =>
    show p % 2 ^ w + rawStream w ps * 2 ^ w < 2 ^ (w * (ps.length + 1))
    calc p % 2 ^ w + rawStream w ps * 2 ^ w
        < (rawStream w ps + 1) * 2 ^ w := by
          rw [Nat.add_mul, Nat.one_mul, Nat.add_comm]
          exact Nat.add_lt_add_left (Nat.mod_lt _ (Nat.two_pow_pos w)) _
      _ ≤ 2 ^ (w * ps.length) * 2 ^ w := Nat.mul_le_mul_right _ ih
      _ = 2 ^ (w * (ps.length + 1)) := by rw [← Nat.pow_add, Nat.mul_succ]

theorem getD_of_lt {l : List Nat} {i : Nat} (h : i < l.length) : l.getD i 0 = l[i] := by
  rw [List.getD_eq_getElem?_getD, List.getElem?_eq_getElem h, Option.getD_some]

/-- Element `i` of a raw stream is field `i` of width `w` (05 R62). -/
theorem nbits_rawStream (w : Nat) (els : List Nat) (i : Nat) : nbits (rawStream w els) (i * w) w = els.getD i 0 % 2 ^ w := by
  induction els generalizing i with
  | nil => simp [rawStream, nbits]
  | cons p ps ih =>
    have hcons : rawStream w (p :: ps) = p % 2 ^ w + rawStream w ps * 2 ^ w := rfl
    unfold nbits at *
    rw [hcons]
    cases i with
    | zero => simp
    | succ i =>
      have hdrop : (p % 2 ^ w + rawStream w ps * 2 ^ w) / 2 ^ w = rawStream w ps := by
        rw [Nat.add_mul_div_right _ _ (Nat.two_pow_pos w), Nat.div_eq_of_lt (Nat.mod_lt _ (Nat.two_pow_pos w)), Nat.zero_add]
      rw [Nat.succ_mul, Nat.add_comm (i * w), Nat.pow_add, ← Nat.div_div_eq_div_mul, hdrop, ih]
      rfl

/-- The scale field of a record is the raw stream of the scale bytes. -/
theorem scaleField_eq (scales : List Nat) (k x : Nat) :
    (scales.zipIdx k).foldl (fun x e => x + e.1 % 256 * 2 ^ (8 * e.2)) x = x + rawStream 8 scales * 2 ^ (8 * k) := by
  induction scales generalizing k x with
  | nil => simp [rawStream]
  | cons a t ih =>
    have hcons : rawStream 8 (a :: t) = a % 2 ^ 8 + rawStream 8 t * 2 ^ 8 := rfl
    rw [List.zipIdx_cons, List.foldl_cons, ih, hcons, Nat.mul_succ, Nat.pow_add]
    show x + a % 2 ^ 8 * 2 ^ (8 * k) + rawStream 8 t * (2 ^ (8 * k) * 2 ^ 8) = _
    rw [Nat.add_mul, Nat.mul_assoc, Nat.mul_comm (2 ^ 8), Nat.add_assoc]

/-- The header of a dense record (05 R60). -/
def headerOf (mode : Nat) (f : Fmt) (slot len : Nat) : Nat := len * 2 ^ 11 + slot * 2 ^ 6 + fmtCode f * 4 + mode

theorem recordBits_eq (mode : Nat) (f : Fmt) (slot len : Nat) (scales : List Nat) (stream : Nat) :
    recordBits mode f slot len scales stream = headerOf mode f slot len + rawStream 8 scales * 2 ^ 32 + stream * 2 ^ 96 := by
  unfold recordBits recordBitsOf headerOf
  rw [scaleField_eq, List.zipIdx_nil, List.foldl_nil, List.isEmpty_nil, if_pos rfl, List.length_nil]
  omega

theorem fmtCode_le {f : Fmt} (hf : f.hasCode = true) : fmtCode f ≤ 10 := by
  cases f <;> simp_all [fmtCode, Fmt.hasCode]

section
variable {mode slot len stream : Nat} {f : Fmt} {scales : List Nat}

theorem header_mode (hm : mode < 4) : nbits (headerOf mode f slot len) 0 2 = mode := by unfold nbits headerOf; omega

theorem header_fmt (hm : mode < 4) (hf : fmtCode f ≤ 10) : nbits (headerOf mode f slot len) 2 4 = fmtCode f := by
  unfold nbits headerOf; omega

variable (hm : mode < 4) (hf : fmtCode f ≤ 10) (hs : slot < 16)
include hm hf hs

theorem header_sparse : nbits (headerOf mode f slot len) 10 1 = 0 := by unfold nbits headerOf; omega

variable (hl : len < 2 ^ 21)
include hl

theorem header_len : nbits (headerOf mode f slot len) 11 21 = len := by unfold nbits headerOf; omega

theorem headerOf_lt : headerOf mode f slot len < 2 ^ 32 := by unfold headerOf; omega

theorem recordBits_header : nbits (recordBits mode f slot len scales stream) 0 32 = headerOf mode f slot len := by
  have hlt := headerOf_lt hm hf hs hl
  rw [recordBits_eq]
  unfold nbits
  omega

theorem recordBits_stream (h8 : scales.length = 8) : recordBits mode f slot len scales stream / 2 ^ 96 = stream := by
  have hlt := headerOf_lt hm hf hs hl
  have hsc := rawStream_lt 8 scales
  rw [h8] at hsc
  rw [recordBits_eq]
  omega

theorem recordBits_scale {b : Nat} (hb : b < 8) :
    nbits (recordBits mode f slot len scales stream) (32 + 8 * b) 8 = scales.getD b 0 % 2 ^ 8 := by
  have hlt := headerOf_lt hm hf hs hl
  rw [← nbits_rawStream 8 scales b, recordBits_eq]
  unfold nbits
  obtain rfl | rfl | rfl | rfl | rfl | rfl | rfl | rfl : b = 0 ∨ b = 1 ∨ b = 2 ∨ b = 3 ∨ b = 4 ∨ b = 5 ∨ b = 6 ∨ b = 7 := by omega
  all_goals omega

/-- The scales of a record are the bytes that were encoded. -/
theorem recordBits_scales (h8 : scales.length = 8) (hb : ∀ x ∈ scales, x < 256) :
    ((List.range 8).map fun b => nbits (recordBits mode f slot len scales stream) (32 + 8 * b) 8) = scales := by
  refine List.ext_getElem (by simp [h8]) fun b _ hlt => ?_
  rw [List.getElem_map, List.getElem_range, recordBits_scale hm hf hs hl (h8 ▸ hlt), getD_of_lt hlt]
  exact Nat.mod_eq_of_lt (hb _ (List.getElem_mem hlt))

/-- A dense record whose payload fits the slot, with zero padding, decodes to its elements by its mode (05 R67). -/
theorem parseRecord_recordBits {ct : Nat → Option CodeTable} {n : Nat} {els : List Nat} (h3 : mode ≠ 3)
    (h8 : scales.length = 8) (hb : ∀ x ∈ scales, x < 256) (hfit : 12 + (len + 7) / 8 ≤ n) (hpad : stream < 2 ^ len)
    (hels : payloadElems f 0 false ct (headerOf mode f slot len) stream = .ok els) :
    parseRecord f 0 false ct n (recordBits mode f slot len scales stream)
      = .ok { els := els, rows := 16, idx := [], scales := scales } := by
  have hzero : stream % 2 ^ (8 * (n - 12)) / 2 ^ len = 0 :=
    Nat.div_eq_of_lt (Nat.lt_of_le_of_lt (Nat.mod_le _ _) hpad)
  have hstream : recordBits mode f slot len scales stream / 2 ^ (8 * (12 + metaBytes 0)) = stream :=
    recordBits_stream hm hf hs hl h8
  unfold parseRecord
  simp only [recordBits_header hm hf hs hl, header_mode hm, header_fmt hm hf, header_sparse hm hf hs, header_len hm hf hs hl,
    hstream, recordBits_scales hm hf hs hl h8 hb, hels]
  simp [h3, hzero, metaBytes, keepOf, show ¬ n = 0 by omega, show ¬ 10 < fmtCode f by omega, show ¬ n < 12 + (len + 7) / 8 by omega]

end

/-! ## The two modes of an encoder without a table -/

theorem payloadElems_raw {f : Fmt} {slot : Nat} (hf : fmtCode f ≤ 10) (hs : slot < 16) (hw : f.width ≤ 16)
    (ct : Nat → Option CodeTable) {els : List Nat} (hn : els.length = 256) (he : ∀ x ∈ els, x < 2 ^ f.width) :
    payloadElems f 0 false ct (headerOf 0 f slot (256 * f.width)) (rawStream f.width els) = .ok els := by
  have hels : ((List.range 256).map fun i => nbits (rawStream f.width els) (i * f.width) f.width) = els := by
    refine List.ext_getElem (by simp [hn]) fun i _ hlt => ?_
    rw [List.getElem_map, List.getElem_range, nbits_rawStream, getD_of_lt hlt]
    exact Nat.mod_eq_of_lt (he _ (List.getElem_mem hlt))
  unfold payloadElems
  simp [header_mode, header_len, hf, hs, elemCount, hels, show 256 * f.width < 2097152 by omega]

theorem payloadElems_constant {f : Fmt} {slot p : Nat} (hf : fmtCode f ≤ 10) (hs : slot < 16) (hw : f.width ≤ 16)
    (ct : Nat → Option CodeTable) (hp : p < 2 ^ f.width) :
    payloadElems f 0 false ct (headerOf 2 f slot f.width) p = .ok (List.replicate 256 p) := by
  have hfield : nbits p 0 f.width = p := by simp [nbits, Nat.mod_eq_of_lt hp]
  unfold payloadElems
  simp only [header_mode (show 2 < 4 by decide), header_len (show 2 < 4 by decide) hf hs (show f.width < 2 ^ 21 by omega), hfield,
    ne_eq, not_true_eq_false, if_false]
  rfl

theorem Fmt.width_le {f : Fmt} (hf : f.hasCode = true) : f.width ≤ 16 := by
  cases f <;> simp_all [Fmt.width, Fmt.hasCode]

/-- An encoder without a table writes the constant record of equal elements, and the raw record of others (05 R81). -/
theorem encodeRecord_none (f : Fmt) (slot : Nat) (scales els : List Nat) (hn : els.length = 256) :
    encodeRecord f none slot scales els =
      if els.all (· == els.headD 0) then (up16 (12 + (f.width + 7) / 8), recordBits 2 f 0 f.width scales (els.headD 0 % 2 ^ f.width))
      else (slotSize f 0, recordBits 0 f 0 (256 * f.width) scales (rawStream f.width els)) := by
  rw [← hn]; rfl

theorem le_up16 (n : Nat) : n ≤ up16 n := by unfold up16; omega

theorem up16_mod (n : Nat) : up16 n % 16 = 0 := by unfold up16; omega

theorem up16_mono {m n : Nat} (h : m ≤ n) : up16 m ≤ up16 n := by unfold up16; omega

theorem slotSize_dense (f : Fmt) : slotSize f 0 = up16 (12 + (256 * f.width + 7) / 8) := rfl

/-- Settles O23: a record without a table is constant or raw, and each decodes by its mode (`parseRecord_recordBits`). -/
theorem recordsDecode : Obligations.RecordsDecode := by
  unfold Obligations.RecordsDecode
  intro f slot scales els ct hcode _ h8 hb hn he
  have hf := fmtCode_le hcode
  have hw := Fmt.width_le hcode
  rw [encodeRecord_none f slot scales els hn]
  by_cases hall : els.all (· == els.headD 0) = true
  · have hsame : els = List.replicate 256 (els.headD 0) := by
      rw [List.eq_replicate_iff]
      exact ⟨hn, fun x hx => beq_iff_eq.mp (List.all_eq_true.mp hall x hx)⟩
    have hp : els.headD 0 < 2 ^ f.width := by
      cases els with
      | nil => exact Nat.two_pow_pos _
      | cons p ps => exact he p List.mem_cons_self
    rw [if_pos hall, Nat.mod_eq_of_lt hp]
    refine ⟨?_, slotSize_dense f ▸ up16_mono (by omega), up16_mod _⟩
    have hels := payloadElems_constant hf (by decide : 0 < 16) hw ct hp
    rw [← hsame] at hels
    exact parseRecord_recordBits (by decide) hf (by decide) (by omega) (by decide) h8 hb (le_up16 _) hp hels
  · rw [if_neg hall]
    refine ⟨?_, Nat.le_refl _, up16_mod _⟩
    have hpad : rawStream f.width els < 2 ^ (256 * f.width) := by
      have := rawStream_lt f.width els
      rwa [hn, Nat.mul_comm] at this
    exact parseRecord_recordBits (by decide) hf (by decide) (by omega) (by decide) h8 hb (slotSize_dense f ▸ le_up16 _) hpad
      (payloadElems_raw hf (by decide) hw ct hn he)

end Sys2Proof.Machine

namespace Sys2Proof.Machine

/-! ## Reads of a group's plain ranges change no byte of memory (15 R243) -/

theorem serves_tensorRange {z0 s : State} {ag : Agent} {need : Need} {va n : Nat} {coded : Option Bool} {ctx : TileCtx}
    (hs : Serves z0 s) : Serves z0 (s.tensorRange ag need va n coded ctx).1 := by
  unfold State.tensorRange
  dsimp only
  split
  · exact hs
  · split
    · exact serves_translateRange hs
    · split
      · split <;> exact serves_translateRange hs
      · exact serves_translateRange hs

theorem serves_tensorRead {z0 s : State} {ag : Agent} {need : Need} {va n : Nat} {coded : Option Bool} {ctx : TileCtx}
    (hs : Serves z0 s) : Serves z0 (s.tensorRead ag need va n coded ctx).1 := by
  unfold State.tensorRead
  dsimp only
  split
  · exact serves_tensorRange hs
  · split <;> exact serves_readPieces (serves_tensorRange hs)

theorem serves_runRead {z0 s : State} {g : Group} {sp : Bool} {access a n : Nat} (hs : Serves z0 s) :
    Serves z0 (s.runRead g sp access a n).1 := by
  unfold State.runRead
  split
  · split
    · exact hs
    · split <;> exact hs
  · split
    · exact hs
    · have h := serves_tensorRead hs (ag := s.groupAgent g) (need := Need.read) (va := a) (n := n) (coded := none) (ctx := descCtx 0 0)
      generalize s.tensorRead (s.groupAgent g) Need.read a n none (descCtx 0 0) = r at h
      split <;> exact h

theorem Serves.of_runRead {z0 s t : State} {g : Group} {sp : Bool} {access a n : Nat} {r : Except TFault Nat} (hs : Serves z0 s)
    (h : s.runRead g sp access a n = (t, r)) : Serves z0 t := by
  have := serves_runRead (g := g) (sp := sp) (access := access) (a := a) (n := n) hs
  rwa [h] at this

theorem serves_planWrite {z0 s : State} {ag : Agent} {va n x : Nat} {coded : Option Bool} {ctx : TileCtx} (hs : Serves z0 s) :
    Serves z0 (s.planWrite ag va n x coded ctx).1 := by
  unfold State.planWrite
  dsimp only
  split <;> exact serves_tensorRange hs

/-! ## Memory after consecutive writes -/

theorem poke_cons (m : Nat → Byte) (k : Nat) (ks : List Nat) (b : Byte) (bs : List Byte) :
    Claims.poke m (k :: ks) (b :: bs) = Claims.poke (fun q => if q = k then b else m q) ks bs := rfl

/-- What a byte reads after some writes depends on no other byte before them. -/
theorem poke_congr {m m' : Nat → Byte} {q : Nat} (h : m q = m' q) (ks : List Nat) (bs : List Byte) :
    Claims.poke m ks bs q = Claims.poke m' ks bs q := by
  induction ks generalizing m m' bs with
  | nil => exact h
  | cons k ks ih =>
    cases bs with
    | nil => exact h
    | cons b bs => exact ih (by dsimp only; rw [h]) bs

theorem poke_append (m : Nat → Byte) {ks : List Nat} {bs : List Byte} (h : ks.length = bs.length) (ks' : List Nat) (bs' : List Byte) :
    Claims.poke m (ks ++ ks') (bs ++ bs') = Claims.poke (Claims.poke m ks bs) ks' bs' := by
  unfold Claims.poke
  rw [List.zip_append h, List.foldl_append]

theorem poke_of_notMem {q : Nat} {ks : List Nat} (h : q ∉ ks) (m : Nat → Byte) (bs : List Byte) : Claims.poke m ks bs q = m q := by
  induction ks generalizing m bs with
  | nil => rfl
  | cons k ks ih =>
    rw [List.mem_cons, not_or] at h
    cases bs with
    | nil => rfl
    | cons b bs => rw [poke_cons, ih h.2, if_neg h.1]

theorem poke_range' (m : Nat → Byte) (p : Nat) (bs : List Byte) (q : Nat) :
    Claims.poke m (List.range' p bs.length) bs q = if p ≤ q then (bs[q - p]?).getD (m q) else m q := by
  induction bs generalizing m p with
  | nil => simp [Claims.poke]
  | cons b bs ih =>
    rw [List.length_cons, List.range'_succ, poke_cons, ih]
    rcases Nat.lt_trichotomy q p with h | rfl | h
    · rw [if_neg (by omega), if_neg (by omega), if_neg (by omega)]
    · rw [if_neg (Nat.not_succ_le_self q), if_pos rfl, if_pos (Nat.le_refl q), Nat.sub_self, List.getElem?_cons_zero, Option.getD_some]
    · rw [if_pos (show p + 1 ≤ q from h), if_neg (show ¬ q = p by omega), if_pos (show p ≤ q by omega),
        show q - p = (q - (p + 1)) + 1 by omega, List.getElem?_cons_succ]

/-- A write of some bytes at some keys, in order, and of nothing else that software sees. -/
structure Poked (s t : State) (ks : List Nat) (bs : List Byte) : Prop where
  only : OnlyTier s t
  cache : s.CacheOk → t.CacheOk
  mem : s.CacheOk → ∀ q, s.isMem q → t.memByte q = Claims.poke s.memByte ks bs q

theorem Serves.poked {s t : State} (h : Serves s t) : Poked s t [] [] := ⟨h.only, h.cache, h.same⟩

theorem Poked.trans {s t u : State} {ks ks' : List Nat} {bs bs' : List Byte} (h : Poked s t ks bs) (k : Poked t u ks' bs')
    (hl : ks.length = bs.length) : Poked s u (ks ++ ks') (bs ++ bs') := by
  refine ⟨h.only.trans k.only, fun c => k.cache (h.cache c), fun c q hq => ?_⟩
  rw [poke_append _ hl, k.mem (h.cache c) q ((h.only.isMem q).mpr hq)]
  exact poke_congr (h.mem c q hq) ks' bs'

/-- A byte of a scratchpad is written. -/
theorem poked_setByte (s : State) {k : Nat} (hk : 2 ^ 52 ≤ k) (b : Byte) : Poked s (s.setByte k b) [k] [b] := by
  refine ⟨by unfold OnlyTier State.setByte; rfl, fun c => c.setByte (.inr (.inl (Nat.le_trans (by decide) hk))) b, fun c q hq => ?_⟩
  show (s.setByte k b).byte (s.homeKey q) = if q = k then b else s.byte (s.homeKey q)
  rw [State.setByte_byte]
  have hiff : s.homeKey q = k ↔ q = k := by
    constructor
    · intro e
      exact State.homeKey_inj c hq (isMem_far hk) (e.trans (homeKey_far hk).symm)
    · rintro rfl
      exact homeKey_far hk
  simp only [hiff]

theorem poked_cellsWrite (s : State) {ks : List Nat} (hk : ∀ k ∈ ks, 2 ^ 52 ≤ k) (bs : List Byte) :
    Poked s (s.cellsWrite ks bs) ks bs := by
  induction ks generalizing s bs with
  | nil => exact ⟨OnlyTier.refl s, id, fun _ _ _ => rfl⟩
  | cons k ks ih =>
    cases bs with
    | nil => exact ⟨OnlyTier.refl s, id, fun _ _ _ => rfl⟩
    | cons b bs =>
      exact (poked_setByte s (hk k List.mem_cons_self) b).trans (ih (s.setByte k b) (fun x hx => hk x (List.mem_cons_of_mem _ hx)) bs) rfl

theorem poked_physWrite {s : State} {p : Nat} {bs : List Byte} (h : (s.physWrite p bs).2 = true) :
    Poked s (s.physWrite p bs).1 ((List.range bs.length).map (p + ·)) bs := by
  obtain ⟨⟨honly, hcache, hsame⟩, hreads⟩ := physWrite_wrote s p bs
  refine ⟨honly, hcache, fun c q hq => ?_⟩
  rw [← List.range'_eq_map_range, poke_range']
  by_cases hin : p ≤ q ∧ q < p + bs.length
  · have hbyte := (hreads c h (q - p) (by omega)).2
    rw [show p + (q - p) = q by omega] at hbyte
    rw [if_pos hin.1, hbyte, Option.getD_some]
  · rw [hsame c q hq hin]
    split
    · rw [List.getElem?_eq_none (by omega), Option.getD_none]
    · rfl

theorem writePieces_flag (ws : List (Where × Nat)) (s : State) (bs : List Byte) (f : Bool) :
    (ws.foldl (fun (acc : State × List Byte × Bool) w =>
      let x := acc.1.physWrite w.1.pa (acc.2.1.take w.2)
      (x.1, acc.2.1.drop w.2, acc.2.2 && x.2)) (s, bs, f))
      = ((s.writePieces ws bs).1, bs.drop (ws.map Prod.snd).sum, f && (s.writePieces ws bs).2) := by
  unfold State.writePieces
  induction ws generalizing s bs f with
  | nil => simp
  | cons w ws ih =>
    simp only [List.foldl_cons, List.map_cons, List.sum_cons]
    rw [ih, ih (f := true && _)]
    simp [List.drop_drop, Bool.and_assoc]

theorem State.writePieces_cons (s : State) (w : Where × Nat) (ws : List (Where × Nat)) (bs : List Byte) :
    s.writePieces (w :: ws) bs =
      (((s.physWrite w.1.pa (bs.take w.2)).1.writePieces ws (bs.drop w.2)).1,
        (s.physWrite w.1.pa (bs.take w.2)).2 && ((s.physWrite w.1.pa (bs.take w.2)).1.writePieces ws (bs.drop w.2)).2) := by
  conv => lhs; unfold State.writePieces
  rw [List.foldl_cons]
  dsimp only
  rw [writePieces_flag]
  simp

theorem pieceKeys_cons (w : Where × Nat) (ws : List (Where × Nat)) :
    pieceKeys (w :: ws) = (List.range w.2).map (w.1.pa + ·) ++ pieceKeys ws := rfl

/-- Pieces that take all the bytes, and could all be written. -/
theorem poked_writePieces {ws : List (Where × Nat)} {s : State} {bs : List Byte} (hl : (ws.map Prod.snd).sum = bs.length)
    (h : (s.writePieces ws bs).2 = true) : Poked s (s.writePieces ws bs).1 (pieceKeys ws) bs := by
  induction ws generalizing s bs with
  | nil =>
    obtain rfl := List.length_eq_zero_iff.mp hl.symm
    exact (Serves.refl s).poked
  | cons w ws ih =>
    rw [List.map_cons, List.sum_cons] at hl
    rw [State.writePieces_cons] at h ⊢
    obtain ⟨hfirst, hrest⟩ := Bool.and_eq_true_iff.mp h
    have htake : (bs.take w.2).length = w.2 := by rw [List.length_take]; omega
    have hp := poked_physWrite hfirst
    rw [htake] at hp
    have hq := hp.trans (ih (by rw [List.length_drop]; omega) hrest) (by simp [htake])
    rwa [List.take_append_drop] at hq

/-! ## The pieces of a translated range -/

theorem chain_sum {g a e : Nat} {l : List (Nat × Nat)} (h : Chain g a l e) : a + (l.map Prod.snd).sum = e := by
  induction l generalizing a with
  | nil => exact h
  | cons x r ih =>
    obtain ⟨-, -, hr⟩ := h
    rw [List.map_cons, List.sum_cons, ← Nat.add_assoc]
    exact ih hr

theorem pieces_sum (g p n : Nat) (hg : 0 < g) : ((pieces g p n).map Prod.snd).sum = n := by
  have := chain_sum (chain_pieces g p n hg)
  omega

/-- A translated range has the pieces of its addresses. -/
theorem translateRange_lengths {s : State} {core part : Nat} {n : Need} {va len : Nat} {ws : List (Where × Nat)}
    (h : (s.translateRange core part n va len).2 = .ok ws) : ws.map Prod.snd = (pieces 65536 va len).map Prod.snd := by
  unfold State.translateRange at h
  obtain ⟨l, hl⟩ : ∃ l : List (Nat × Nat), pieces 65536 va len = l.reverse := ⟨_, (List.reverse_reverse _).symm⟩
  rw [hl] at h ⊢
  clear hl
  induction l generalizing ws with
  | nil =>
    obtain rfl := Except.ok.inj h
    rfl
  | cons pc l ih =>
    rw [List.reverse_cons] at h ⊢
    rw [List.foldl_append, List.foldl_cons, List.foldl_nil] at h
    split at h
    · cases h
    · next vs hvs =>
      dsimp only at h
      split at h
      · cases h
      · obtain rfl := Except.ok.inj h
        rw [List.map_append, List.map_append, ih hvs]
        rfl

theorem tensorRange_sum {s : State} {ag : Agent} {need : Need} {va n : Nat} {ctx : TileCtx} {ws : List (Where × Nat)}
    (h : (s.tensorRange ag need va n none ctx).2 = .ok ws) : (ws.map Prod.snd).sum = n := by
  unfold State.tensorRange at h
  dsimp only at h
  split at h
  · cases h
  · split at h
    · cases h
    · next hvs =>
      obtain rfl := Except.ok.inj h
      rw [translateRange_lengths hvs, pieces_sum _ _ _ (by decide)]

/-! ## A group's plain write of a range (15 R243) -/

@[simp] theorem length_leBytes (n x : Nat) : (leBytes n x).length = n := by
  induction n generalizing x with
  | zero => rfl
  | succ n ih => exact congrArg Nat.succ (ih (x / 256))

theorem rememberPieces_past (s : State) (w : Writer) (va : Nat) (ws : List (Where × Nat)) (whole : Option Nat) :
    ∃ ps, s.rememberPieces w va ws whole = { s with past := ps } := by
  unfold State.rememberPieces
  generalize pieceVas va ws = l
  induction l generalizing s with
  | nil => exact ⟨s.past, rfl⟩
  | cons x l ih =>
    obtain ⟨ps, h⟩ := ih (s.remember w (some x.1) (pieceKeys [x.2]) whole)
    exact ⟨ps, h⟩

/-- A store of one translated write, when it can be made. -/
theorem poked_writeTile {s u : State} {x : TileWrite} (hl : (x.ws.map Prod.snd).sum = x.bytes.length)
    (h : s.writeTile [x] = (u, .ok ())) : ∃ ps, Poked { s with past := ps } u (pieceKeys x.ws) x.bytes := by
  obtain ⟨ps, hps⟩ := rememberPieces_past s (.group s.focus) x.va x.ws none
  refine ⟨ps, ?_⟩
  unfold State.writeTile at h
  simp only [List.foldl_cons, List.foldl_nil, List.length_singleton, show ¬ (1 : Nat) = 2 by decide, if_false, hps] at h
  cases hw : (State.writePieces { s with past := ps } x.ws x.bytes).2 with
  | false => simp [hw] at h
  | true =>
    simp only [hw, if_true, Prod.mk.injEq, and_true] at h
    exact h ▸ poked_writePieces hl hw

/-- A store that cannot be made leaves everything. -/
theorem writeTile_error {s u : State} {xs : List TileWrite} {e : TFault} (h : s.writeTile xs = (u, .error e)) : u = s := by
  unfold State.writeTile at h
  dsimp only at h
  split at h
  · cases h
  · exact (congrArg Prod.fst h).symm

theorem planWrite_ok {s : State} {ag : Agent} {va n x : Nat} {coded : Option Bool} {ctx : TileCtx} {w : TileWrite}
    (h : (s.planWrite ag va n x coded ctx).2 = .ok w) :
    (s.tensorRange ag Need.write va n coded ctx).2 = .ok w.ws ∧ w.bytes = leBytes n x := by
  unfold State.planWrite at h
  dsimp only at h
  split at h
  · cases h
  · next hws =>
    obtain rfl := Except.ok.inj h
    exact ⟨hws, rfl⟩

theorem Serves.withPast {s t : State} (h : Serves s t) (ps : List Past) : Serves { s with past := ps } { t with past := ps } := by
  refine ⟨?_, fun c => ?_, fun c => h.same ⟨c.tier, c.code, c.copies⟩⟩
  · rw [h.only]
  · have hc := h.cache ⟨c.tier, c.code, c.copies⟩
    exact ⟨hc.tier, hc.code, hc.copies⟩

/-- A group's plain write that succeeds changes the bytes of its range, and the history notes it. -/
theorem poked_runWrite {s u : State} {sp : Bool} {a n x : Nat} (h : (Claims.aged s).runWrite s.seen sp a n x = (u, .ok ())) :
    ∃ ps, Poked { Claims.aged s with past := ps } u (Claims.imageKeys s sp a n) (leBytes n x) := by
  unfold State.runWrite at h
  unfold Claims.imageKeys
  cases sp with
  | true =>
    rw [if_pos rfl] at h ⊢
    split at h
    · cases h
    · next ks hks =>
      obtain rfl := congrArg Prod.fst h
      rw [hks]
      exact ⟨_, poked_cellsWrite _ (State.scratchRun_far hks) _⟩
  | false =>
    rw [if_neg Bool.false_ne_true] at h ⊢
    split at h
    · cases h
    · dsimp only at h
      split at h
      · cases h
      · next w hw =>
        obtain ⟨hws, hbytes⟩ := planWrite_ok hw
        obtain ⟨ps, hp⟩ := poked_writeTile (by rw [hbytes, length_leBytes, tensorRange_sum hws]) h
        rw [hws, ← hbytes]
        exact ⟨ps, ((serves_planWrite (Serves.refl _)).withPast ps).poked.trans hp rfl⟩

/-- A group's plain write that fails leaves every byte of memory. -/
theorem serves_runWrite_error {s u : State} {g : Group} {sp : Bool} {a n x : Nat} {e : TFault}
    (h : s.runWrite g sp a n x = (u, .error e)) : Serves s u := by
  unfold State.runWrite at h
  split at h
  · split at h
    · obtain rfl := congrArg Prod.fst h
      exact Serves.refl s
    · cases h
  · split at h
    · obtain rfl := congrArg Prod.fst h
      exact Serves.refl s
    · dsimp only at h
      split at h
      · obtain rfl := congrArg Prod.fst h
        exact serves_planWrite (Serves.refl s)
      · exact writeTile_error h ▸ serves_planWrite (Serves.refl s)

/-! ## Steps of the issuing group around its accesses -/

section
variable {s u : State} {i : Instr} {g : Guard}

theorem OnlyTier.me (h : OnlyTier s u) : u.me = s.me := by rw [h]; rfl

theorem aged_me (s : State) : (Claims.aged s).me = s.seen := State.setMe_me _ _

theorem aged_grp_ne (s : State) {k : Nat} (h : k ≠ s.focus) : (Claims.aged s).grp k = s.grp k := State.setMe_grp_ne _ _ h

theorem State.Sound.aged_cache (hs : s.Sound) : (Claims.aged s).CacheOk := ⟨hs.tier, hs.boot.2.2, hs.copies⟩

/-- What serves reads of the issuing group changes nothing that software sees but the windows that have closed. -/
theorem Serves.onlyLooks (hs : s.Sound) (hu : Serves (Claims.aged s) u) : Claims.OnlyLooks s u := by
  obtain ⟨m, b, x, c, rfl⟩ : ∃ m b x c, u = { Claims.aged s with mem := m, bad := b, sectors := x, counters := c } :=
    ⟨_, _, _, _, hu.only⟩
  exact ⟨⟨⟨rfl, fun k hk => aged_grp_ne s hk, fun k => rfl⟩, fun p hp _ => hu.same hs.aged_cache p hp⟩, rfl⟩

theorem Serves.me (hu : Serves (Claims.aged s) u) : u.me = s.seen := (OnlyTier.me hu.only).trans (aged_me s)

/-- A coded access that does not go on parks the group with its record, or waits (05 R68, 07 R103). -/
theorem tileFaults_of_codedFault {space : Nat} {e : TFault} (hs : s.Sound) (hu : Serves (Claims.aged s) u)
    (hi : exec i s = .next (s.codedFault u e space (s.act g))) : Claims.TileFaults i s g space e := by
  have hrec : u.codedRecord u.me e space (s.act g) u.me.cur
      = Claims.tileRecord s.seen.cur (s.team s.seen.team).grid (s.identOf s.seen) (s.act g) space e := by
    rw [hu.me, hu.only]
    cases e <;> rfl
  unfold State.codedFault at hi
  rw [hrec] at hi
  unfold Claims.TileFaults
  cases hr : Claims.tileRecord s.seen.cur (s.team s.seen.team).grid (s.identOf s.seen) (s.act g) space e with
  | none => rwa [hr] at hi
  | some r =>
    rw [hr] at hi
    refine ⟨u, hu.onlyLooks hs, hu.me, hi.trans ?_⟩
    rw [hu.only]
    rfl

/-- A group that goes on after a change of registers. -/
theorem Group.next_regs {b h : Group} {new : Opd → Nat → Option Word} {act : List Nat}
    (hh : h = { b with v := h.v, dead := h.dead, s := h.s }) (hr : RegsBy b h new [] act) :
    GroupRest b h.next ∧ WentOn b h.next ∧ PredsKept b h.next ∧ RegsBy b h.next new [] act ∧ h.next.flags = b.flags := by
  have hn : h.next = { h with threads := b.next.threads, cur := b.next.cur, pending := b.next.pending } :=
    Group.next_congr (by rw [hh]) (by rw [hh]) (by rw [hh])
  have hwent := Group.next_went b
  rw [hn]
  refine ⟨?_, ⟨hwent.pc, hwent.meet, hwent.exited, Group.next_reaches b⟩, Group.next_preds b, ⟨hr.v, hr.s⟩, ?_⟩
  · unfold GroupRest
    rw [hh]
  · rw [hh]

theorem regsBy_refl (b : Group) (act : List Nat) : RegsBy b b noReg [] act :=
  ⟨fun r l _ => by simp [noReg, dies], fun n => rfl⟩

/-- With no active lane a group-level instruction only goes on (13 R179). -/
theorem passesBy_of_idle (hi : exec i s = .next (Claims.aged s).commit) : Claims.PassesBy i s := by
  have hcommit : (Claims.aged s).commit = (s.setMe s.seen).setMe s.seen.next := by
    unfold State.commit
    rw [aged_me]
    rfl
  obtain ⟨hrest, hwent, hpreds, hregs, hflags⟩ := Group.next_regs (b := s.seen) rfl (regsBy_refl s.seen [])
  refine ⟨_, hi.trans (congrArg _ hcommit), onlyGroup_setMe _ _ _, ?_, ?_, ?_, ?_, ?_⟩
  all_goals rw [State.setMe_me]
  · exact hrest
  · exact hwent
  · exact hpreds
  · exact hregs
  · exact hflags.trans (BitVec.or_zero).symm

/-- After a write that the issuing group's instruction has made, it delivers to one destination and goes on. -/
theorem byteStep_of_poked {ps : List Past} {W : Nat → Prop} {ks : List Nat} {bs : List Byte} {d : Opd} {f : Nat → Word}
    (hs : s.Sound) (hu : Poked { Claims.aged s with past := ps } u ks bs) (hw : ∀ q ∈ ks, W q)
    (hi : exec i s = .next (u.setMe (u.me.wr d (s.act g) f).next)) :
    Claims.ByteStep i s W (Claims.poke s.memByte ks bs) (one d (s.act g) f) (s.act g) := by
  have hmem : ∀ q, s.isMem q → u.memByte q = Claims.poke s.memByte ks bs q :=
    hu.mem ⟨hs.tier, hs.boot.2.2, hs.copies⟩
  have hme : u.me = s.seen := (OnlyTier.me hu.only).trans (aged_me s)
  have hfocus : u.focus = s.focus := by rw [hu.only]; rfl
  have hothers : ∀ k, k ≠ s.focus → u.grp k = s.grp k := fun k hk => by
    rw [hu.only]
    exact aged_grp_ne s hk
  have hregs := Group.marks_wr_regs s.seen d [] (s.act g) f fun l => State.act_lt
  obtain ⟨hrest, hwent, hpreds, hregs, hflags⟩ := Group.next_regs (Group.wr_frame s.seen d (s.act g) f) hregs
  rw [hme] at hi
  refine ⟨_, hi, ⟨⟨?_, fun k hk => ?_, fun k => ?_⟩, fun q hq hn => ?_⟩, hmem, ?_, ?_, ?_, ?_, ?_⟩
  · rw [hu.only]
    rfl
  · exact (State.setMe_grp_ne u _ (hfocus ▸ hk)).trans (hothers k hk)
  · rw [hu.only]
    rfl
  · exact (hmem q hq).trans (poke_of_notMem (fun h => hn (hw q h)) _ _)
  all_goals rw [State.setMe_me]
  · exact hrest
  · exact hwent
  · exact hpreds
  · exact hregs
  · exact hflags

end

/-! ## The checks of an image (05 R63, R64) -/

theorem foldl_zipIdx_eq_sum (f : Nat → Nat → Nat) (l : List Nat) (k x : Nat) :
    (l.zipIdx k).foldl (fun n e => n + f e.1 e.2) x = x + ((l.zipIdx k).map fun e => f e.1 e.2).sum := by
  generalize l.zipIdx k = m
  induction m generalizing x with
  | nil => rfl
  | cons e m ih => rw [List.foldl_cons, ih, List.map_cons, List.sum_cons, Nat.add_assoc]

theorem kraftSum_imageCounts (x : Nat) : kraftSum (imageCounts x) = Claims.kraftOf x := by
  unfold kraftSum Claims.kraftOf
  rw [foldl_zipIdx_eq_sum (fun a k => a * 2 ^ (11 - k)), Nat.zero_add]
  rfl

theorem headBad_eq (x : Nat) : headBad x = Claims.headWrong x := by
  unfold headBad Claims.headWrong
  rw [kraftSum_imageCounts]
  simp [nbits]

/-- The first symbol that occurs before it, or among those already seen. -/
theorem repeatedAt_eq_some {ys seen : List Nat} {k n : Nat} (hn : n < ys.length) (hat : ys.getD n 0 ∈ seen ∨ ys.getD n 0 ∈ ys.take n)
    (hbefore : ∀ m, m < n → ys.getD m 0 ∉ seen ∧ ys.getD m 0 ∉ ys.take m) : repeatedAt k seen ys = some (k + n) := by
  induction ys generalizing seen k n with
  | nil => exact absurd hn (Nat.not_lt_zero n)
  | cons y ys ih =>
    unfold repeatedAt
    cases n with
    | zero =>
      have hy : y ∈ seen := by simpa using hat
      simp [hy]
    | succ n =>
      have hy : y ∉ seen := (hbefore 0 (Nat.succ_pos n)).1
      rw [if_neg (by simpa using hy), ih (n := n) (by simpa using hn), Nat.add_assoc, Nat.add_comm 1]
      · simpa [or_assoc, or_comm, or_left_comm] using hat
      · intro m hm
        have := hbefore (m + 1) (Nat.succ_lt_succ hm)
        simp only [List.getD_cons_succ, List.take_succ_cons, List.mem_cons, not_or] at this ⊢
        exact ⟨⟨this.2.1, this.1⟩, this.2.2⟩

theorem repeatedAt_eq_none {ys seen : List Nat} {k : Nat} (hd : ys.Nodup) (hs : ∀ y ∈ ys, y ∉ seen) :
    repeatedAt k seen ys = none := by
  induction ys generalizing seen k with
  | nil => rfl
  | cons y ys ih =>
    obtain ⟨hy, hd⟩ := List.nodup_cons.mp hd
    unfold repeatedAt
    rw [if_neg (by simpa using hs y List.mem_cons_self)]
    refine ih hd fun z hz hmem => ?_
    rcases List.mem_cons.mp hmem with rfl | hmem
    · exact hy hz
    · exact hs z (List.mem_cons_of_mem _ hz) hmem

theorem findIdx?_wide_eq_none {w : Nat} {ys : List Nat} (h : ∀ y ∈ ys, y < 2 ^ w) :
    (ys.findIdx? fun y => decide (2 ^ w ≤ y)) = none := by
  rw [List.findIdx?_eq_none_iff]
  exact fun y hy => decide_eq_false (Nat.not_le.mpr (h y hy))

theorem symsBad_of_wrong {w r n : Nat} {ys : List Nat} (h : Claims.SymsWrong w ys r n) : symsBad w ys = some (r, n) := by
  obtain ⟨hn, ⟨rfl, hwide, hfit⟩ | ⟨rfl, hfit, hrep, hfirst⟩⟩ := h
  · have hidx : (ys.findIdx? fun y => decide (2 ^ w ≤ y)) = some n := by
      rw [List.findIdx?_eq_some_iff_getElem]
      refine ⟨hn, ?_, fun m hm => ?_⟩
      · rw [getD_of_lt hn] at hwide
        exact decide_eq_true hwide
      · have := hfit m hm
        rw [getD_of_lt (Nat.lt_trans hm hn)] at this
        simpa using this
    unfold symsBad
    rw [hidx]
  · unfold symsBad
    rw [findIdx?_wide_eq_none hfit]
    dsimp only
    rw [repeatedAt_eq_some hn (.inr hrep) fun m hm => ⟨List.not_mem_nil, hfirst m hm⟩, Nat.zero_add]
    rfl

theorem symsBad_of_right {w : Nat} {ys : List Nat} (h : Claims.SymsRight w ys) : symsBad w ys = none := by
  obtain ⟨hfit, hd⟩ := h
  unfold symsBad
  rw [findIdx?_wide_eq_none hfit]
  dsimp only
  rw [repeatedAt_eq_none hd fun _ _ => List.not_mem_nil]
  rfl

/-- The table that `CTLD` makes of an image is the one that the image reads as. -/
theorem imageTable_eq (x y n : Nat) :
    ({ tag := BitVec.ofNat 16 (nbits x 0 4), counts := imageCounts x, syms := (List.range n).map fun k => nbits y (16 * k) 16 } : CodeTable)
      = Claims.imageTable x y n := by
  simp [Claims.imageTable, imageCounts, nbits]

theorem symsBad_image (x y n : Nat) :
    symsBad (((fmtOf (nbits x 0 4)).map Fmt.width).getD 0) ((List.range n).map fun k => nbits y (16 * k) 16)
      = symsBad (((fmtOf (x % 16)).map Fmt.width).getD 0) (Claims.imageTable x y n).syms := by
  rw [show nbits x 0 4 = x % 16 by simp [nbits]]
  rfl

/-! ## The bytes of an image (05 R63) -/

theorem leBytes_halves (hs : List Nat) (n : Nat) :
    leBytes (2 * n) (hs.foldr (fun h x => h % 65536 + x * 65536) 0)
      = (List.range n).flatMap fun k => [BitVec.ofNat 8 (hs.getD k 0), BitVec.ofNat 8 (hs.getD k 0 / 256)] := by
  induction n generalizing hs with
  | zero => rfl
  | succ n ih =>
    have hlow (h x : Nat) : BitVec.ofNat 8 (h % 65536 + x * 65536) = BitVec.ofNat 8 h := by
      apply BitVec.eq_of_toNat_eq
      simp only [BitVec.toNat_ofNat]
      omega
    have hhigh (h x : Nat) : BitVec.ofNat 8 ((h % 65536 + x * 65536) / 256) = BitVec.ofNat 8 (h / 256) := by
      apply BitVec.eq_of_toNat_eq
      simp only [BitVec.toNat_ofNat]
      omega
    have hrest (h x : Nat) : (h % 65536 + x * 65536) / 256 / 256 = x := by omega
    rw [List.range_succ_eq_map, List.flatMap_cons, List.flatMap_map, Nat.mul_succ]
    cases hs with
    | nil =>
      have := ih []
      simp only [List.foldr_nil, List.getD_nil] at this ⊢
      simp [leBytes, this]
    | cons h hs =>
      simp only [List.foldr_cons, leBytes, hlow, hhigh, hrest, ih, List.getD_cons_zero, List.getD_cons_succ, Nat.succ_eq_add_one]
      rfl

theorem leBytes_image (c : CodeTable) : leBytes (26 + 2 * c.syms.length) c.image = Claims.tableBytes c := by
  rw [show 26 + 2 * c.syms.length = 2 * (13 + c.syms.length) by omega]
  exact leBytes_halves _ _

/-! ## `CTLD` and `CTST` (15 R243 to R245) -/

section
variable {s : State} {g : Guard} {sp : Bool} {slot : Fin 16}

/-- A `CTLD` fault's record has the fields of 15 R244. -/
theorem tableRecord_eq (reason index kraft : Nat) (image : Word) :
    tableRecord slot.val sp reason index kraft image s.seen.cur = Claims.tableFault s slot.val sp reason index kraft image := by
  have hword (c d e : Nat) : BitVec.ofNat 64 (index % 2 ^ 32 * 2 ^ 32 + c + d + e + 4)
      = BitVec.ofNat 64 (index * 2 ^ 32 + c + d + e + 4) := by
    apply BitVec.eq_of_toNat_eq
    simp only [BitVec.toNat_ofNat]
    omega
  exact congrArg (fun w => ({ words := [w, image, BitVec.ofNat 64 kraft, s.seen.cur, 0, 0, 0, 0], timeAt := none, job := none } : Record))
    (hword (slot.val * 2 ^ 20) (if sp then 2 ^ 19 else 0) (reason * 2 ^ 8))

theorem rdGroup_seen (o : Opd) : s.seen.rdGroup o (s.act g) = Claims.groupVal s g o := rfl

theorem setMe_seen : s.setMe s.seen = Claims.aged s := rfl

theorem aged_myTeam : (Claims.aged s).myTeam = s.team s.seen.team := by
  unfold State.myTeam
  rw [aged_me]
  rfl

theorem me_myTeam : s.myTeam = s.team s.seen.team := by
  unfold State.myTeam State.seen
  rw [Group.age_frame]

/-- A checked image is read into its slot of the team, and the group goes on (05 R64). -/
theorem slotLoaded {i : Instr} {u : State} {n : Nat} {c : CodeTable} (hs : s.Sound) (hu : Serves (Claims.aged s) u)
    (hi : exec i s = .next (u.setTeam s.seen.team
      { s.team s.seen.team with ct := kset none (s.team s.seen.team).ct n (some c) }).commit) :
    ∃ t, exec i s = .next t
      ∧ t = { s with groups := t.groups, teams := t.teams, mem := t.mem, bad := t.bad, sectors := t.sectors, counters := t.counters }
      ∧ MemKept s t nowhere
      ∧ (∀ k, k ≠ s.seen.team → t.team k = s.team k) ∧ (∀ k, k ≠ s.focus → t.grp k = s.grp k)
      ∧ { t.team s.seen.team with ct := [] } = { s.team s.seen.team with ct := [] }
      ∧ (∀ k, (t.team s.seen.team).table k = if k = n then some c else (s.team s.seen.team).table k)
      ∧ GroupRest s.seen t.me ∧ WentOn s.seen t.me ∧ PredsKept s.seen t.me ∧ RegsBy s.seen t.me noReg [] []
      ∧ t.me.flags = s.seen.flags := by
  generalize hT : ({ s.team s.seen.team with ct := kset none (s.team s.seen.team).ct n (some c) } : Team) = T at hi
  have hfocus : u.focus = s.focus := by rw [hu.only]; rfl
  have hgo : (u.setTeam s.seen.team T).commit = (u.setTeam s.seen.team T).setMe s.seen.next :=
    congrArg (fun b : Group => (u.setTeam s.seen.team T).setMe b.next) hu.me
  have hteam : ∀ k, (u.setTeam s.seen.team T).commit.team k = if k = s.seen.team then T else s.team k := fun k => by
    show kget Team.absent (kset Team.absent u.teams s.seen.team T) k = _
    rw [kget_kset, hu.only]
    rfl
  have hme : (u.setTeam s.seen.team T).commit.me = s.seen.next := by rw [hgo, State.setMe_me]
  obtain ⟨hrest, hwent, hpreds, hregs, hflags⟩ := Group.next_regs (b := s.seen) rfl (regsBy_refl s.seen [])
  refine ⟨_, hi, ?_, fun q hq _ => ?_, fun k hk => ?_, fun k hk => ?_, ?_, fun k => ?_, hme ▸ hrest, hme ▸ hwent, hme ▸ hpreds,
    hme ▸ hregs, hme ▸ hflags⟩
  · rw [hu.only]
    rfl
  · exact hu.same hs.aged_cache q hq
  · rw [hteam, if_neg hk]
  · rw [hgo, State.setMe_grp_ne _ _ (show k ≠ State.focus _ from hfocus ▸ hk)]
    show u.grp k = _
    rw [hu.only]
    exact aged_grp_ne s hk
  · rw [hteam, if_pos rfl, ← hT]
  · rw [hteam, if_pos rfl, ← hT]
    exact kget_kset none (s.team s.seen.team).ct n (some c) k

/-- `CTLD` with an active lane, by the order of its checks. -/
theorem ctld_tableLoad {a : Opd} (hs : s.Sound) (h : s.ReadyAs Claims.generalOrMatrix [a]) (ha : s.act g ≠ []) :
    Claims.TableLoad (.ctld g sp slot a) s g sp slot (Claims.groupVal s g a) := by
  have hx : exec (.ctld g sp slot a) s = _ := congrArg Host.Outcome.next (State.groupLevel_acts h ha _)
  simp only [setMe_seen, aged_me, rdGroup_seen, aged_myTeam, headBad_eq, imageTable_eq, symsBad_image, tableRecord_eq] at hx
  have hz := Serves.refl (Claims.aged s)
  unfold Claims.TableLoad
  dsimp only
  refine ⟨fun h16 => ?_, fun h16 => ?_⟩
  · rw [if_pos h16] at hx
    exact tileFaults_of_codedFault hs hz hx
  rw [if_neg fun c => c h16] at hx
  refine ⟨fun s1 e hr => ?_, fun s1 x hr => ?_⟩
  all_goals
    have h1 := hz.of_runRead hr
    simp only [hr] at hx
  · exact tileFaults_of_codedFault hs h1 hx
  refine ⟨fun r k hw => ?_, fun hw => ⟨fun s2 e hr2 => ?_, fun s2 y hr2 => ?_⟩⟩
  all_goals simp only [hw] at hx
  · exact ⟨s1, h1.onlyLooks hs, h1.me, hx⟩
  · simp only [hr2] at hx
    exact tileFaults_of_codedFault hs (h1.of_runRead hr2) hx
  · have h2 := h1.of_runRead hr2
    simp only [hr2] at hx
    refine ⟨fun r k hbad => ?_, fun hright => ?_⟩
    · simp only [symsBad_of_wrong hbad] at hx
      exact ⟨s2, h2.onlyLooks hs, h2.me, hx⟩
    · simp only [symsBad_of_right hright] at hx
      exact slotLoaded hs h2 hx

/-- `CTST` with an active lane. -/
theorem ctst_tableStore {d a : Opd} (hs : s.Sound) (h : s.ReadyAs Claims.generalOrMatrix [d, a]) (ha : s.act g ≠ []) :
    Claims.TableStore (.ctst g sp slot d a) s g sp slot d (Claims.groupVal s g a).toNat := by
  have hx : exec (.ctst g sp slot d a) s = _ := congrArg Host.Outcome.next (State.groupLevel_acts h ha _)
  simp only [setMe_seen, aged_me, rdGroup_seen, aged_myTeam] at hx
  have hz := Serves.refl (Claims.aged s)
  unfold Claims.TableStore
  dsimp only
  refine ⟨fun h16 => ?_, fun h16 => ?_⟩
  · rw [if_pos h16] at hx
    exact tileFaults_of_codedFault hs hz hx
  rw [if_neg fun c => c h16] at hx
  rw [me_myTeam]
  refine ⟨fun hnone => ?_, fun c hc => ⟨fun u hu => ?_, fun u e hu => ?_⟩⟩
  · simp only [hnone] at hx
    rw [← aged_me s] at hx
    exact byteStep_of_poked (ps := s.past) hs hz.poked (fun q hq => absurd hq List.not_mem_nil) hx
  all_goals simp only [hc, hu] at hx
  · obtain ⟨ps, hp⟩ := poked_runWrite hu
    rw [leBytes_image] at hp
    exact byteStep_of_poked hs hp (fun q hq => hq) hx
  · exact tileFaults_of_codedFault hs (serves_runWrite_error hu) hx

end

/-- Settles O24: `CTLD` by the order of its checks (`ctld_tableLoad`), `CTST` by what its slot holds (`ctst_tableStore`); what they read
changes no byte of memory (`Serves`), and what `CTST` writes is its range alone (`Poked`). -/
theorem codeTableTransfers : Obligations.CodeTableTransfers := by
  unfold Obligations.CodeTableTransfers
  intro s g sp slot d a hs
  refine ⟨fun h => ⟨fun ha => ?_, ctld_tableLoad hs h⟩, fun h => ⟨fun ha => ?_, ctst_tableStore hs h⟩⟩
  · exact passesBy_of_idle (congrArg Host.Outcome.next (State.groupLevel_idle h ha _))
  · exact passesBy_of_idle (congrArg Host.Outcome.next (State.groupLevel_idle h ha _))

end Sys2Proof.Machine

namespace Sys2Proof.Laws.RoundTrip

/-- Every instruction has the round trip: one lemma for each constructor, in the order of `Instr`. -/
theorem statement (i : Instr) : Statement i :=
  i.casesOn (motive := Statement)
    iadd iaddImm isub isubImm iaddc imul imulImm imulhi imad imin iminImm imax imaxImm iabs shl shlImm shr shrImm shra shraImm
    rotl rotlImm and andImm or orImm xor xorImm andn andnImm bfx bfxImm bfi popc clz brev sel mov lea leaImm icmp icmpImm pset
    pmov fadd faddImm fsub fmul fmulImm ffma fmin fminImm fmax fmaxImm fminm fmaxm fclamp frnd fscale fcmp fcmpImm rcp rsq sqrt
    ex2 lg2 sinpi cospi tanh cvt pack unpack mxscale amaxr shfl shflImm bcast bcastImm vote ballot lreduce lscan pairedWord movi
    ld st atom cas ldt stt sttSeal prefG prefT fenceAcq fenceRel fenceAr afence ofence tfence gangset mma mmaw accz accld accst
    accscl accmerge ctld ctst dec enc cpy cpy2d gather scatter xform kvsend wbcast ringpush bra brx call ret setmeet setmeetToken
    savemeet yield exit nop bar cbar waitany evmask evread mbsend mbrecv ringwait ringrel reggrow accgrow regshrink trap clock
    sysrd syswr valid launch done reservedInstructionWord instructionFetchFault loadCompletion jointMma mmaCommit accmergeFold
    jobStart chunkCompletion jobFault jobRetirement inboundRemoteWrite growGrant teamRetirement completionNotice ringRecordWrite
    submissionEntry graphStart nodeDispatch nodeCompletion place cancelUnstartedTeams deadlineEventCommand teamsRetired
    faultReport freezeReport reservedLinkCommand teamPlacement deadlineExpiry deadlineEvent gridDeadline teamEviction teamRestore
    coreFreeze migration sectorLookup translationWalk mqbaseWrite managementDoorbell normalSubmissionDoorbell
    privilegedSubmissionDoorbell reservedQueueDoorbell irqstWrite registerWrite pcfg pdrop gactResume gactSkip gactTerminateGroup
    gactTerminateGrid jactResume jactCancel evict tinv sprobe sreset cntrd hset attest pwrcap toff tsrc fid fwload bootcfg go
    reservedManagementCommand timeMessage ppsPulse ppsUnlock linkDown linkTraining fabricPathDown powerWindow junctionLimit
    junctionBelowLimit thermalTrip powerGood

end Sys2Proof.Laws.RoundTrip
namespace Sys2Proof.Machine

/-- The opcode byte of the first word of a command. -/
theorem commandWord_opcode (op : Nat) (h : op < 256) (p : BitVec 6) :
    ((BitVec.ofNat 64 (op + p.toNat * 2 ^ 16)).setWidth 8).toNat = op := by
  have hp := p.isLt
  simp only [BitVec.toNat_setWidth, BitVec.toNat_ofNat]
  omega

/-- The partition field of the first word of a command (25 R341). -/
theorem commandWord_part (op : Nat) (h : op < 256) (p : BitVec 6) :
    (BitVec.ofNat 64 (op + p.toNat * 2 ^ 16)).extractLsb' 16 6 = p := by
  have hp := p.isLt
  apply BitVec.eq_of_toNat_eq
  simp only [BitVec.extractLsb'_toNat, BitVec.toNat_ofNat, Nat.shiftRight_eq_div_pow]
  omega

theorem low_two_bits {w : Word} (h : w.toNat < 4) : w &&& 3 = w := by
  apply BitVec.eq_of_toNat_eq
  rw [BitVec.toNat_and]
  exact (Nat.and_two_pow_sub_one_eq_mod w.toNat 2).trans (Nat.mod_eq_of_lt h)

/-- A byte that 25 R342 does not list is no opcode. -/
theorem mgmtInstr_unlisted (op : Byte) (h : op.toNat ∉ Claims.listedOps) (args : List Word) :
    mgmtInstr (BitVec.ofNat 64 (op.toNat + (0 : BitVec 6).toNat * 2 ^ 16) :: args) = .reservedManagementCommand op := by
  have hop := commandWord_opcode op.toNat op.isLt 0
  simp only [Claims.listedOps, List.mem_cons, List.not_mem_nil, or_false, not_or] at h
  unfold mgmtInstr
  simp only [List.getD_cons_zero]
  rw [hop]
  -- each row above the last has an opcode that `h` excludes
  split <;> simp_all

/-- Reading the words of a command gives the command back (25 R341, R342). -/
theorem mgmtInstr_encodeMgmt (i : Instr) (ws : List Word) (hi : Claims.fits i) (h : encodeMgmt i = some ws) : mgmtInstr ws = i := by
  cases i with
  | pcfg | pdrop | gactResume | gactSkip | gactTerminateGroup | gactTerminateGrid | evict | sprobe | sreset | cntrd | hset | attest
  | pwrcap | toff | fid | fwload | bootcfg | go =>
    cases h
    simp only [mgmtInstr, List.cons_append, List.getD_cons_zero, commandWord_opcode, commandWord_part, Nat.reduceLT] <;> rfl
  | jactResume p n =>
    cases h
    simp only [mgmtInstr, List.cons_append, List.getD_cons_zero, commandWord_opcode, commandWord_part, Nat.reduceLT]
    exact if_neg (show ¬ (0 : Word).getLsbD 0 = true by decide)
  | jactCancel p n =>
    cases h
    simp only [mgmtInstr, List.cons_append, List.getD_cons_zero, commandWord_opcode, commandWord_part, Nat.reduceLT]
    exact if_pos (show (1 : Word).getLsbD 0 = true by decide)
  | tinv p sc a n =>
    cases h
    simp only [mgmtInstr, List.cons_append, List.getD_cons_zero, List.getD_cons_succ, commandWord_opcode, commandWord_part,
      Nat.reduceLT, low_two_bits hi]
  | tsrc c v =>
    cases h
    simp only [mgmtInstr, List.cons_append, List.getD_cons_zero, List.getD_cons_succ, commandWord_opcode, Nat.reduceLT,
      low_two_bits hi]
  | reservedManagementCommand op => cases h; exact mgmtInstr_unlisted op hi _
  | _ => cases h

/-- A field above the low `k` bits of a number. -/
theorem bitsAt_above {x k : Nat} (h : x < 2 ^ k) (y lo n : Nat) : bitsAt (x + 2 ^ k * y) (k + lo) n = bitsAt y lo n := by
  unfold bitsAt
  rw [Nat.pow_add, ← Nat.div_div_eq_div_mul, Nat.add_mul_div_left _ _ (Nat.two_pow_pos k), Nat.div_eq_of_lt h, Nat.zero_add]

/-- The lowest word of a number. -/
theorem bitsAt_low (w : Word) (y : Nat) : BitVec.ofNat 64 (bitsAt (w.toNat + 2 ^ 64 * y) 0 64) = w := by
  have hw := w.isLt
  apply BitVec.eq_of_toNat_eq
  rw [BitVec.toNat_ofNat, bitsAt]
  omega

/-- Reading the bits of a link command gives its kind and words (19 R288); the sequence number and the reserved bits are not
operands. -/
theorem decodeLink_bits (link : Nat) (kind : Byte) (sq : BitVec 16) (rsv : BitVec 40) (grid a0 a1 : Word) :
    decodeLink link (kind.toNat + rsv.toNat % 2 ^ 8 * 2 ^ 8 + sq.toNat * 2 ^ 16 + rsv.toNat / 2 ^ 8 * 2 ^ 32 + grid.toNat * 2 ^ 64
      + a0.toNat * 2 ^ 128 + a1.toNat * 2 ^ 192) = linkInstr link kind grid a0 a1 := by
  have hkind := kind.isLt
  have hsq := sq.isLt
  have hrsv := rsv.isLt
  let head := kind.toNat + rsv.toNat % 2 ^ 8 * 2 ^ 8 + sq.toNat * 2 ^ 16 + rsv.toNat / 2 ^ 8 * 2 ^ 32
  have hhead : head < 2 ^ 64 := by omega
  have hbits : head + grid.toNat * 2 ^ 64 + a0.toNat * 2 ^ 128 + a1.toNat * 2 ^ 192
      = head + 2 ^ 64 * (grid.toNat + 2 ^ 64 * (a0.toNat + 2 ^ 64 * (a1.toNat + 2 ^ 64 * 0))) := by omega
  have hk : BitVec.ofNat 8 (head + 2 ^ 64 * (grid.toNat + 2 ^ 64 * (a0.toNat + 2 ^ 64 * (a1.toNat + 2 ^ 64 * 0)))) = kind := by
    apply BitVec.eq_of_toNat_eq
    rw [BitVec.toNat_ofNat]
    omega
  show decodeLink link (head + grid.toNat * 2 ^ 64 + a0.toNat * 2 ^ 128 + a1.toNat * 2 ^ 192) = _
  rw [hbits, decodeLink, hk, show 192 = 64 + (64 + (64 + 0)) from rfl, show 128 = 64 + (64 + 0) from rfl]
  simp only [bitsAt_above hhead, bitsAt_above grid.isLt, bitsAt_above a0.isLt, bitsAt_low]
  rw [show bitsAt _ 64 64 = bitsAt _ 0 64 from bitsAt_above hhead _ 0 64, bitsAt_low]

/-- Settles O58: the words of instructions constructor by constructor, the words of management commands by their opcode byte and
partition field, and a link command's bits field by field. -/
theorem decodeEncode : Obligations.DecodeEncode := by
  unfold Obligations.DecodeEncode
  exact ⟨fun i w hi hw => Laws.RoundTrip.statement i hi w hw, mgmtInstr_encodeMgmt, decodeLink_bits⟩

end Sys2Proof.Machine

namespace Sys2Proof.Machine

/-! ## Class I (09 R124, R135) -/

/-- Bits 63 to 60 split into bit 63 and the class (09 R110). -/
theorem header_bits (x : Word) (c : BitVec 3) (h : x.extractLsb' 60 4 = 0#1 ++ c) : x.getLsbD 63 = false ∧ x.extractLsb' 60 3 = c := by
  have hx : x.extractLsb' 60 3 = (x.extractLsb' 60 4).extractLsb' 0 3 := by
    ext i hi
    simp only [BitVec.getElem_extractLsb', BitVec.getLsbD_extractLsb', Nat.zero_add]
    simp [show i < 4 by omega]
  have hb : x.getLsbD 63 = (x.extractLsb' 60 4).getLsbD 3 := by simp
  rw [hx, hb, h]
  exact ⟨bit_above 0#1 c 3 (Nat.le_refl 3), bits_below 0#1 c 0 3 (Nat.le_refl 3) |>.trans (bits_all c)⟩

/-- A class I word is read by its opcode's row. -/
theorem decodeWord_classI {x : Word} (h : x.extractLsb' 60 4 = 6) :
    decodeWord x = decodeRow (rowI (x.extractLsb' 52 8)) (x.extractLsb' 48 4) (FieldsI.split (x.extractLsb' 0 48)) := by
  obtain ⟨hbit, hcls⟩ := header_bits x 6 h
  rw [decodeWord, hbit, hcls]
  rfl

theorem rowI_reserved {op : BitVec 8} (h : op ≠ 0) : rowI op = none := by
  unfold rowI
  split
  · exact absurd rfl h
  · rfl

/-- A reading that succeeds has a first part that succeeds. -/
theorem parse_bind_ok {α β : Type} {p : Parse α} {f : α → Parse β} {y : β} (h : (p >>= f) = .ok y) : ∃ x, p = .ok x ∧ f x = .ok y := by
  cases p with
  | error n => cases h
  | ok x => exact ⟨x, rfl, h⟩

/-- What `MOVI`'s row gives is a `MOVI`. -/
theorem shapeMovi_ok {g : Guard} {f : FieldsI} {i : Instr} (h : shapeMovi g f = .ok i) : ∃ mode d imm, i = .movi g mode d imm := by
  unfold shapeMovi at h
  obtain ⟨mode, -, h⟩ := parse_bind_ok h
  obtain ⟨_, -, h⟩ := parse_bind_ok h
  obtain ⟨d, -, h⟩ := parse_bind_ok h
  cases h
  exact ⟨mode, d, f.imm, rfl⟩

/-- A class I word of opcode 0x00 that is an instruction is a `MOVI` (R135). -/
theorem read_classI {x : Word} {i : Instr} (h : Claims.Read 6 0 x i) : ∃ g mode d imm, i = .movi g mode d imm := by
  obtain ⟨hcls, hop, hi⟩ := h
  rw [decodeWord_classI hcls, hop, show rowI 0 = some shapeMovi from rfl, decodeRow] at hi
  split at hi
  · cases hi
  · exact ⟨_, shapeMovi_ok hi⟩

/-- Every other opcode of class I is reserved (R135). -/
theorem decodeWord_classI_reserved {x : Word} (hcls : x.extractLsb' 60 4 = 6) (hop : x.extractLsb' 52 8 ≠ 0) :
    decodeWord x = .error 3 := by
  rw [decodeWord_classI hcls, rowI_reserved hop, decodeRow]

/-- Settles O59: the decoder runs on each written word, and class I has one row (`decodeWord_classI`). -/
theorem decodeWords : Obligations.DecodeWords := by
  unfold Obligations.DecodeWords
  refine ⟨rfl, rfl, rfl, rfl, rfl, rfl, rfl, rfl, rfl, rfl, rfl, fun x i => ⟨read_classI, decodeWord_classI_reserved⟩⟩

end Sys2Proof.Machine

namespace Sys2Proof.Machine
open Claims

/-! ## Instructions that write predicates (09 R117, 11 R154 to R157) -/

/-- Two threads stand at the same place: only their predicates may differ. -/
def Thread.SamePlace (a b : Thread) : Prop := a.pc = b.pc ∧ a.meet = b.meet ∧ a.held = b.held ∧ a.exited = b.exited

theorem Thread.SamePlace.refl (t : Thread) : t.SamePlace t := ⟨rfl, rfl, rfl, rfl⟩

theorem Thread.setPred_samePlace (t : Thread) (q : Fin 8) (b : Bool) : (t.setPred q b).SamePlace t := by
  unfold Thread.setPred
  split <;> exact .refl t

/-- Reading a predicate after writing one; `p7` is never written. -/
theorem Thread.setPred_pred (t : Thread) (q : Fin 8) (b : Bool) {r : Fin 8} (hr : r ≠ 7) :
    (t.setPred q b).pred r = if r = q then b else t.pred r := by
  have hbit : ∀ q r : Fin 8, q ≠ 7 → r ≠ 7 → (1#7 <<< q.val).getLsbD r.val = decide (r = q) := by decide
  have hlt : r.val < 7 := by omega
  unfold Thread.setPred
  by_cases hq : q = 7
  · rw [if_pos hq, if_neg fun h => hr (h.trans hq)]
  · rw [if_neg hq]
    have hb := hbit q r hq hr
    simp only [Thread.pred, beq_eq_false_iff_ne.mpr hr, Bool.false_or]
    cases b
    · simp only [Bool.false_eq_true, if_false, BitVec.getLsbD_and, BitVec.getLsbD_not, hb, hlt, decide_true, Bool.true_and]
      by_cases h : r = q <;> simp [h]
    · simp only [if_true, BitVec.getLsbD_or, hb]
      by_cases h : r = q <;> simp [h]

/-- The threads of `h` stand where those of `g` do, in the same subset and with the same results outstanding. -/
structure Group.SamePlaces (g h : Group) : Prop where
  thr : ∀ l, (h.thr l).SamePlace (g.thr l)
  cur : h.cur = g.cur
  pending : h.pending = g.pending

theorem Group.SamePlaces.inSubset {g h : Group} (e : g.SamePlaces h) (l : Nat) : h.inSubset l = g.inSubset l := by
  obtain ⟨hpc, -, hheld, hexited⟩ := e.thr l
  simp only [Group.inSubset, Thread.runs, hpc, hheld, hexited, e.cur]

theorem Group.SamePlaces.subset {g h : Group} (e : g.SamePlaces h) : h.subset = g.subset :=
  congrArg lanes.filter (funext e.inSubset)

/-- Where a group goes on does not depend on its predicates. -/
theorem Group.SamePlaces.next_went {g h : Group} (e : g.SamePlaces h) : WentOn g h.next := by
  have w := Group.next_went h
  have hpc : ∀ l, nextPc h l = nextPc g l := fun l => by simp only [nextPc, e.inSubset, (e.thr l).1]
  obtain ⟨m, hcur, hpend, ht, hc, hp, hm⟩ := w.after
  rw [e.subset] at ht hc hp
  refine ⟨fun l hl => (w.pc l hl).trans (hpc l), fun l hl => (w.meet l hl).trans (e.thr l).2.1,
    fun l hl => (w.exited l hl).trans (e.thr l).2.2.2, m, hcur.trans e.cur, hpend.trans e.pending, ht, hc, hp, fun l hl => ?_⟩
  obtain ⟨h1, h2, h3, h4⟩ := hm l hl
  obtain ⟨-, e2, e3, e4⟩ := e.thr l
  exact ⟨h1.trans (hpc l), h2.trans e2, h3.trans e4, h4.trans e3⟩

theorem Group.next_rest {g h : Group} (e : GroupRest g h) : GroupRest g h.next := by
  unfold GroupRest at *
  rw [Group.next_frame, e]

/-- Registers and `FLAGS` after an instruction are those before its threads go on. -/
theorem Group.next_state (h : Group) : h.next.v = h.v ∧ h.next.dead = h.dead ∧ h.next.s = h.s ∧ h.next.flags = h.flags := by
  rw [Group.next_frame]
  exact ⟨rfl, rfl, rfl, rfl⟩

theorem RegsBy.next {g h : Group} {new : Opd → Nat → Option Word} {srcs : List Src} {act : List Nat} (r : RegsBy g h new srcs act) :
    RegsBy g h.next new srcs act := by
  obtain ⟨hv, hd, hs, -⟩ := h.next_state
  refine ⟨fun n l hl => ?_, fun n => ?_⟩
  · rw [← r.v n l hl, Group.vread, Group.vread, hv, hd]
  · rw [← r.s n, Group.sread, Group.sread, hs]

theorem PredsBy.next {g h : Group} {new : Nat → Fin 8 → Option Bool} (p : PredsBy g h new) : PredsBy g h.next new := by
  intro l hl q hq
  rw [← p l hl q hq, Thread.pred, Thread.pred, Group.next_preds h l hl]

/-- An instruction whose effect is on the predicates, marks and `FLAGS` of its own group. -/
theorem predStep_simple {i : Instr} {s : State} {gd : Guard} {ops : List Opd} {body : List Nat → Group → Group} {srcs : List Src}
    {new : Nat → Fin 8 → Option Bool} {fl : BitVec 32} (h : s.Ready ops) (hi : exec i s = .next (s.simple gd ops body))
    (hrest : GroupRest s.seen (body (s.act gd) s.seen)) (hplace : s.seen.SamePlaces (body (s.act gd) s.seen))
    (hregs : RegsBy s.seen (body (s.act gd) s.seen) noReg srcs (s.act gd)) (hpreds : PredsBy s.seen (body (s.act gd) s.seen) new)
    (hflags : (body (s.act gd) s.seen).flags = s.seen.flags ||| fl) : PredStep i s gd srcs new fl := by
  have ht : s.simple gd ops body = (s.setMe s.seen).setMe (body (s.act gd) s.seen).next := by
    unfold State.simple
    rw [State.issue_ready h.any]
    simp only [State.setMe_me]
    rfl
  refine ⟨_, hi.trans (congrArg _ ht), onlyGroup_setMe _ _ _, ?_⟩
  rw [State.setMe_me]
  exact ⟨Group.next_rest hrest, hplace.next_went, hregs.next, hpreds.next, (Group.next_state _).2.2.2.trans hflags⟩

/-! ### Compares -/

/-- Marks write no register: a source with the last-use bit dies, and that is all. -/
theorem Group.marks_regs (g : Group) (act : List Nat) (srcs : List Src) (ha : ∀ l ∈ act, l < 32) :
    RegsBy g (g.marks act srcs) noReg srcs act :=
  ⟨fun r _ hl => Group.marks_vread g act srcs ha r hl, fun n => Group.marks_sread g act srcs n⟩

theorem Group.marks_thr (g : Group) (act : List Nat) (srcs : List Src) (l : Nat) : (g.marks act srcs).thr l = g.thr l := by
  rw [Group.marks_frame]; rfl

theorem PredDst.write_samePlace (pd : PredDst) (t : Thread) (c : Bool) : (PredDst.write pd t c).SamePlace t := by
  obtain ⟨h1, h2, h3, h4⟩ := Thread.setPred_samePlace t pd.pd1 (Combine.value pd.ty (t.pred pd.pd1) c)
  obtain ⟨k1, k2, k3, k4⟩ := Thread.setPred_samePlace (t.setPred pd.pd1 (Combine.value pd.ty (t.pred pd.pd1) c)) pd.pd2
    (!Combine.value pd.ty (t.pred pd.pd1) c)
  exact ⟨k1.trans h1, k2.trans h2, k3.trans h3, k4.trans h4⟩

theorem Combine.value_eq (ty : Combine) (old c : Bool) : Combine.value ty old c = combined ty old c := by
  cases ty <;> rfl

/-- The two targets of a compare (R117). -/
theorem PredDst.write_pred (pd : PredDst) (t : Thread) (c : Bool) {q : Fin 8} (hq : q ≠ 7) :
    (PredDst.write pd t c).pred q = (if q = pd.pd2 then some (!combined pd.ty (t.pred pd.pd1) c)
      else if q = pd.pd1 then some (combined pd.ty (t.pred pd.pd1) c) else none).getD (t.pred q) := by
  unfold PredDst.write
  rw [Thread.setPred_pred _ _ _ hq, Thread.setPred_pred _ _ _ hq, Combine.value_eq]
  split
  · rfl
  · split <;> rfl

/-- What a compare makes of one thread. -/
def compareThr (g : Group) (act : List Nat) (pd : PredDst) (c : Nat → Bool) (l : Nat) (t : Thread) : Thread :=
  if act.contains l then PredDst.write pd t (c l) else if g.subset.contains l && pd.ty == .fill then PredDst.write pd t false else t

theorem compareThr_samePlace (g : Group) (act : List Nat) (pd : PredDst) (c : Nat → Bool) (l : Nat) (t : Thread) :
    (compareThr g act pd c l t).SamePlace t := by
  unfold compareThr
  split
  · exact PredDst.write_samePlace pd t _
  · split
    · exact PredDst.write_samePlace pd t _
    · exact .refl t

theorem Group.thr_mapThr_samePlace {g : Group} {f : Nat → Thread → Thread} (hf : ∀ l t, (f l t).SamePlace t) (l : Nat) :
    ((g.mapThr f).thr l).SamePlace (g.thr l) := by
  rw [Group.thr_mapThr]
  split
  · exact hf l _
  · rename_i h
    rw [Group.thr_past g h]
    exact .refl _

/-- Predicates written thread by thread in the current subset. -/
theorem Group.predsBy_mapThr {g k : Group} {f : Nat → Thread → Thread} {new : Nat → Fin 8 → Option Bool} (hk : k.threads = g.threads)
    (hf : ∀ l, l < 32 → ∀ q : Fin 8, q ≠ 7 → (f l (g.thr l)).pred q = (new l q).getD ((g.thr l).pred q))
    (hout : ∀ l q, g.inSubset l = false → new l q = none) : PredsBy g (k.mapThr f) new := by
  have hthr : ∀ l, k.thr l = g.thr l := fun l => congrArg (fun ts : List Thread => ts.getD l Thread.none) hk
  intro l hl q hq
  rw [Group.thr_mapThr, hthr, hk]
  split
  · exact hf l hl q hq
  · rename_i hlen
    have hin : g.inSubset l = false := by
      cases hc : g.inSubset l with
      | false => rfl
      | true => exact absurd (Group.inSubset_lt hc) hlen
    rw [hout l q hin, Group.thr_past g hlen]
    rfl

theorem mem_act {s : State} {gd : Guard} {l : Nat} (h : l ∈ s.act gd) : s.seen.inSubset l = true := (Group.mem_active.mp h).2.1

theorem contains_subset {g : Group} {l : Nat} (hl : l < 32) : g.subset.contains l = g.inSubset l := by
  rw [Bool.eq_iff_iff, List.contains_iff_mem, Group.mem_subset]
  exact and_iff_right hl

/-- One thread after a compare, and what R117 says of its predicates. -/
theorem compareThr_pred (s : State) (gd : Guard) (pd : PredDst) (c : Nat → Bool) {l : Nat} (hl : l < 32) {q : Fin 8} (hq : q ≠ 7) :
    (compareThr s.seen (s.act gd) pd c l (s.seen.thr l)).pred q
      = (comparePreds s (s.act gd) pd c l q).getD ((s.seen.thr l).pred q) := by
  unfold compareThr comparePreds
  by_cases ha : l ∈ s.act gd
  · rw [if_pos (List.contains_iff_mem.mpr ha), if_pos (.inl ha), PredDst.write_pred pd _ _ hq]
    simp only [ha, decide_true, Bool.true_and]
  · rw [if_neg fun h => ha (List.contains_iff_mem.mp h), contains_subset hl]
    by_cases hf : pd.ty = .fill ∧ s.seen.inSubset l = true
    · rw [if_pos (by rw [hf.1, hf.2]; rfl), if_pos (.inr hf), PredDst.write_pred pd _ _ hq]
      simp only [ha, decide_false, Bool.false_and]
    · have hn : ¬ (s.seen.inSubset l && pd.ty == .fill) = true := fun h =>
        hf ⟨beq_iff_eq.mp (Bool.and_eq_true_iff.mp h).2, (Bool.and_eq_true_iff.mp h).1⟩
      rw [if_neg hn, if_neg fun h => h.elim ha hf]
      rfl

theorem comparePreds_out (s : State) (gd : Guard) (pd : PredDst) (c : Nat → Bool) (l : Nat) (q : Fin 8) (h : s.seen.inSubset l = false) :
    comparePreds s (s.act gd) pd c l q = none :=
  if_neg fun hc => hc.elim (fun ha => Bool.false_ne_true (h.symm.trans (mem_act ha))) fun hf => Bool.false_ne_true (h.symm.trans hf.2)

/-- An instruction that changes threads in place, after the marks of its sources. -/
theorem predStep_threads {i : Instr} {s : State} {gd : Guard} {srcs : List Src} {f : Nat → Thread → Thread}
    {body : List Nat → Group → Group} {new : Nat → Fin 8 → Option Bool} {fl : BitVec 32}
    (hi : exec i s = .next (s.simple gd (srcs.map Src.r) body)) (h : s.Ready (srcs.map Src.r))
    (hbody : body (s.act gd) s.seen = ((s.seen.marks (s.act gd) srcs).mapThr f).orFlags fl) (hf : ∀ l t, (f l t).SamePlace t)
    (hnew : ∀ l, l < 32 → ∀ q : Fin 8, q ≠ 7 → (f l (s.seen.thr l)).pred q = (new l q).getD ((s.seen.thr l).pred q))
    (hout : ∀ l q, s.seen.inSubset l = false → new l q = none) : PredStep i s gd srcs new fl := by
  have hregs := Group.marks_regs s.seen (s.act gd) srcs fun l hl => State.act_lt hl
  have hthr : (s.seen.marks (s.act gd) srcs).threads = s.seen.threads := by rw [Group.marks_frame]
  refine predStep_simple h hi ?_ ?_ ?_ ?_ ?_ <;> rw [hbody]
  · unfold GroupRest
    rw [Group.marks_frame]
    rfl
  · refine ⟨fun l => ?_, by rw [Group.marks_frame]; rfl, by rw [Group.marks_frame]; rfl⟩
    rw [← Group.marks_thr s.seen (s.act gd) srcs l]
    exact Group.thr_mapThr_samePlace hf l
  · exact ⟨hregs.v, hregs.s⟩
  · exact Group.predsBy_mapThr hthr hnew hout
  · rw [Group.marks_frame]
    rfl

/-- A compare: its whole effect, from its test of the sources. -/
theorem predStep_compare {i : Instr} {s : State} {gd : Guard} {pd : PredDst} {srcs : List Src} {test : List Word → Bool × BitVec 32}
    {c : Nat → Bool} {fl : Nat → BitVec 32} (hi : exec i s = .next (s.compare gd pd srcs test)) (h : s.Ready (srcs.map Src.r))
    (ht : ∀ l, test (srcs.map fun a => s.seen.rd a.r l) = (c l, fl l)) :
    PredStep i s gd srcs (comparePreds s (s.act gd) pd c) (gather (s.act gd) fl) := by
  refine predStep_threads (f := compareThr s.seen (s.act gd) pd c) hi h ?_ (compareThr_samePlace _ _ _ _)
    (fun l hl q hq => compareThr_pred s gd pd c hl hq) (comparePreds_out s gd pd c)
  simp only [ht]
  rfl

theorem gather_zero (act : List Nat) : (gather act fun _ => 0) = 0 := by
  unfold gather
  induction act with
  | nil => rfl
  | cons l ls ih => exact (congrArg (ls.foldl (fun m _ => m ||| 0)) BitVec.or_zero).trans ih

/-! ### The tests (11 R154, R155) -/

theorem allElems_congr {w : Nat} {f g : Nat → Bool} (h : ∀ k, k < 64 / w → f k = g k) : allElems w f = everyElem w g := by
  unfold allElems everyElem
  rw [Bool.eq_iff_iff, List.all_eq_true, List.all_eq_true]
  exact forall₂_congr fun k hk => by rw [h k (List.mem_range.mp hk)]

theorem orAll_congr {n : Nat} {f g : Nat → BitVec 32} (h : ∀ k, k < n → f k = g k) : orAll n f = orAll n g := by
  unfold orAll
  rw [← List.foldl_map (f := f) (g := (· ||| ·)), ← List.foldl_map (f := g) (g := (· ||| ·)),
    List.map_congr_left fun k hk => h k (List.mem_range.mp hk)]

theorem ICond.test_eq (c : ICond) (x y : Int) : ICond.test c x y = related c x y := by
  cases c with
  | ne =>
    show (x != y) = decide (x ≠ y)
    rw [Bool.eq_iff_iff, bne_iff_ne, decide_eq_true_iff]
  | _ => rfl

/-- A pattern that fits the width is taken as the entry takes it. -/
theorem intOf_taken (w : IWidth) (u sat : Bool) {x : Nat} (hx : x < 2 ^ w.bits) : intOf u w.bits x = taken ⟨w, u, sat⟩ x := by
  unfold intOf taken
  rw [Nat.mod_eq_of_lt hx]

theorem icmpTest_eq (w : IWidth) (u : Bool) (c : ICond) (x y : Word) {e f : Nat → Nat}
    (he : ∀ k, k < 64 / w.bits → elem x k w.bits = e k) (hf : ∀ k, k < 64 / w.bits → elem y k w.bits = f k) :
    icmpTest w u c x y = (everyElem w.bits fun k => related c (taken ⟨w, u, false⟩ (e k)) (taken ⟨w, u, false⟩ (f k)), 0) := by
  unfold icmpTest
  refine Prod.ext (allElems_congr fun k hk => ?_) rfl
  rw [ICond.test_eq, intOf_taken w u false (elem_lt x k _), intOf_taken w u false (elem_lt y k _), he k hk, hf k hk]

theorem FCond.test_eq (c : FCond) (x y : Val) : FCond.test c x y = (relatedF c x y, relatedFlag c x y) := by
  cases c <;> cases hx : x.isNan <;> cases hy : y.isNan <;> simp [FCond.test, relatedF, relatedFlag, hx, hy]

theorem fcmpTest_eq (t : FType) (c : FCond) (x y : Word) {e f : Nat → Val}
    (he : ∀ k, k < 64 / t.fmt.width → value t.fmt (elem x k t.fmt.width) = e k)
    (hf : ∀ k, k < 64 / t.fmt.width → value t.fmt (elem y k t.fmt.width) = f k) :
    fcmpTest t c x y = (everyElem t.fmt.width fun k => relatedF c (e k) (f k),
      orAll (64 / t.fmt.width) fun k => relatedFlag c (e k) (f k)) := by
  have hk : ∀ k, k < 64 / t.fmt.width → FCond.test c (value t.fmt (elem x k t.fmt.width)) (value t.fmt (elem y k t.fmt.width))
      = (relatedF c (e k) (f k), relatedFlag c (e k) (f k)) := fun k hk => by rw [he k hk, hf k hk, FCond.test_eq]
  unfold fcmpTest
  exact Prod.ext (allElems_congr fun k hlt => congrArg Prod.fst (hk k hlt)) (orAll_congr fun k hlt => congrArg Prod.snd (hk k hlt))

/-- The float immediate is a pattern of its type (09 R118). -/
theorem floatImm_eq (t : FType) (imm : BitVec 22) : t.imm imm % 2 ^ t.fmt.width = floatImm t imm := by
  have h := imm.isLt
  cases t
  · exact Nat.mod_eq_of_lt (by show imm.toNat * 1024 < 2 ^ 32; omega)
  all_goals exact Nat.mod_mod _ _

theorem compares_hold : Compares := by
  intro s g w u c t fc pd a b imm
  refine ⟨fun h => ⟨?_, ?_⟩, fun h => ⟨?_, ?_⟩⟩
  · rw [← gather_zero (s.act g)]
    exact predStep_compare (test := fun2 (icmpTest w u c)) rfl h fun l =>
      icmpTest_eq w u c _ _ (fun _ _ => rfl) fun _ _ => rfl
  · exact predStep_compare (test := fun2 (fcmpTest t fc)) rfl h fun l => fcmpTest_eq t fc _ _ (fun _ _ => rfl) fun _ _ => rfl
  · rw [← gather_zero (s.act g)]
    exact predStep_compare (test := fun1 fun x => icmpTest w u c x (immElems w imm)) rfl h fun l =>
      icmpTest_eq w u c _ _ (fun _ _ => rfl) fun k hk => elem_immElems w imm hk
  · exact predStep_compare (test := fun1 fun x => fcmpTest t fc x (immFloat t imm)) rfl h fun l =>
      fcmpTest_eq t fc _ _ (fun _ _ => rfl) fun k hk => by rw [elem_immFloat t imm hk, floatImm_eq]

/-! ### `PSET` and `PMOV` (11 R156, R157) -/

theorem Group.orFlags_zero (g : Group) : g.orFlags 0 = g := by
  unfold Group.orFlags
  rw [show g.flags ||| 0 = g.flags from BitVec.or_zero]

/-- What an instruction that writes predicates in its active lanes makes of one thread. -/
def activeThr (act : List Nat) (f : Nat → Thread → Thread) (l : Nat) (t : Thread) : Thread := if act.contains l then f l t else t

theorem activeThr_samePlace {act : List Nat} {f : Nat → Thread → Thread} (hf : ∀ l t, (f l t).SamePlace t) (l : Nat) (t : Thread) :
    (activeThr act f l t).SamePlace t := by
  unfold activeThr
  split
  · exact hf l t
  · exact .refl t

/-- An instruction that writes predicates in its active lanes and sets no flag. -/
theorem predStep_active {i : Instr} {s : State} {gd : Guard} {srcs : List Src} {f : Nat → Thread → Thread}
    {body : List Nat → Group → Group} {new : Nat → Fin 8 → Option Bool} (hi : exec i s = .next (s.simple gd (srcs.map Src.r) body))
    (h : s.Ready (srcs.map Src.r)) (hbody : body (s.act gd) s.seen = (s.seen.marks (s.act gd) srcs).mapThr (activeThr (s.act gd) f))
    (hf : ∀ l t, (f l t).SamePlace t)
    (hnew : ∀ l ∈ s.act gd, ∀ q : Fin 8, q ≠ 7 → (f l (s.seen.thr l)).pred q = (new l q).getD ((s.seen.thr l).pred q))
    (hout : ∀ l q, l ∉ s.act gd → new l q = none) : PredStep i s gd srcs new 0 := by
  refine predStep_threads hi h (hbody.trans (Group.orFlags_zero _).symm) (activeThr_samePlace hf) (fun l _ q hq => ?_)
    fun l q hin => hout l q fun ha => Bool.false_ne_true (hin.symm.trans (mem_act ha))
  unfold activeThr
  by_cases ha : l ∈ s.act gd
  · rw [if_pos (List.contains_iff_mem.mpr ha)]
    exact hnew l ha q hq
  · rw [if_neg fun hc => ha (List.contains_iff_mem.mp hc), hout l q ha]
    rfl

theorem lut_index (x y : Bool) : 2 * x.toNat + y.toNat = (if x then 2 else 0) + (if y then 1 else 0) := by
  cases x <;> cases y <;> rfl

theorem predByte_eq (t : Thread) : t.predByte = BitVec.ofNat 64 (128 + t.preds.toNat) := by
  have h : ∀ p : BitVec 7, BitVec.setWidth 64 (1#1 ++ p) = BitVec.ofNat 64 (128 + p.toNat) := by decide
  exact h t.preds

theorem pset_predStep {s : State} (g : Guard) (pd pa pb : Fin 8) (lut : BitVec 4) (h : s.Ready []) :
    PredStep (.pset g pd pa pb lut) s g []
      (fun l q => if l ∈ s.act g ∧ q = pd then
        some (lut.getLsbD ((if (s.seen.thr l).pred pa then 2 else 0) + (if (s.seen.thr l).pred pb then 1 else 0))) else none) 0 := by
  refine predStep_active (f := fun _ t => t.setPred pd (lut.getLsbD (2 * (t.pred pa).toNat + (t.pred pb).toNat))) rfl h rfl
    (fun l t => Thread.setPred_samePlace _ _ _) (fun l hl q hq => ?_) fun l q hl => if_neg fun hc => hl hc.1
  rw [Thread.setPred_pred _ _ _ hq, lut_index]
  by_cases hp : q = pd <;> simp only [hl, hp, and_self, and_false, if_true, if_false] <;> rfl

theorem pmovTop_predStep {s : State} (g : Guard) (a : Src) (h : s.Ready [a.r]) :
    PredStep (.pmov g (.top a)) s g [a]
      (fun l q => if l ∈ s.act g then some ((s.seen.rd a.r l).getLsbD q.val) else none) 0 := by
  refine predStep_active (f := fun l t => { t with preds := (s.seen.rd a.r l).setWidth 7 }) rfl h rfl
    (fun l t => ⟨rfl, rfl, rfl, rfl⟩) (fun l hl q hq => ?_) fun l q hl => if_neg hl
  have hlt : q.val < 7 := by omega
  rw [if_pos hl, Thread.pred, beq_eq_false_iff_ne.mpr hq, BitVec.getLsbD_setWidth, decide_eq_true hlt]
  rfl

theorem pmovTov_regStep {s : State} (g : Guard) (d : Opd) (h : s.Ready [d]) :
    RegStep (.pmov g (.tov d)) s g d [] (fun l => BitVec.ofNat 64 (128 + (s.seen.thr l).preds.toNat)) 0 := by
  have hact : ∀ l ∈ s.act g, l < 32 := fun l hl => State.act_lt hl
  have hw := Group.wr_frame s.seen d (s.act g) fun l => (s.seen.thr l).predByte
  refine ⟨_, rfl, ?_⟩
  simp only [← predByte_eq]
  refine regStep_simple h ?_ (by rw [hw]) (by rw [hw]) (by rw [hw]) rfl ?_ ?_
  · unfold GroupRest
    rw [hw]
  · exact Group.marks_wr_regs s.seen d [] (s.act g) (fun l => (s.seen.thr l).predByte) hact
  · rw [hw]
    exact BitVec.or_zero.symm

/-- Settles O5: a compare by its test (`predStep_compare`), which the element-wise tests meet; `PSET` and `PMOV.top` by what they
write in the active lanes (`predStep_active`), `PMOV.tov` as a register write. -/
theorem comparesAndPredicates : Obligations.ComparesAndPredicates := by
  unfold Obligations.ComparesAndPredicates
  exact ⟨compares_hold, fun s g pd pa pb lut d a =>
    ⟨pset_predStep g pd pa pb lut, pmovTov_regStep g d, pmovTop_predStep g a⟩⟩

end Sys2Proof.Machine

namespace Sys2Proof.Machine
open Claims

/-! ## Paired words (09 R125 to R128) -/

section
variable {s : State} {act : List Nat}

/-- What one half writes: its own destination, from the group as both halves read it. -/
def halfNew (s : State) (act : List Nat) (hf : Half) : Opd → Nat → Option Word :=
  match hf with
  | .nop => noReg
  | .op b => one (bankReg b.bank b.d) act fun l =>
    (halfResult b.op (s.seen.rd (bankReg b.bank b.d) l) (s.seen.rd (bankReg b.bank b.a) l)).1

theorem pairNew_eq (h0 h1 : Half) (o : Opd) (l : Nat) :
    pairNew s act h0 h1 o l = (halfNew s act h1 o l).or (halfNew s act h0 o l) := by
  cases h0 <;> cases h1 <;> rfl

/-- `k` is `g` with other registers, and with the flags `fl` besides. -/
def WritesRegs (g : Group) (fl : BitVec 32) (k : Group) : Prop :=
  k = { g with v := k.v, dead := k.dead, s := k.s, flags := g.flags ||| fl }

theorem WritesRegs.trans {g k m : Group} {fl fl' : BitVec 32} (h : WritesRegs g fl k) (h' : WritesRegs k fl' m) :
    WritesRegs g (fl ||| fl') m := by
  unfold WritesRegs at *
  rw [h, BitVec.or_assoc] at h'
  exact h'

theorem halfWrite_writesRegs (hf : Half) (k : Group) : WritesRegs k (halfFlags s act hf) (halfWrite hf s.seen act k) := by
  unfold WritesRegs
  cases hf with
  | nop => rw [show halfFlags s act .nop = 0 from gather_zero act, show k.flags ||| 0 = k.flags from BitVec.or_zero]; rfl
  | op b =>
    unfold halfWrite
    dsimp only
    rw [Group.wr_frame]
    rfl

/-- Both halves of a paired word, after the marks, change registers and `FLAGS` alone. -/
theorem halfWrites_writesRegs (h0 h1 : Half) (srcs : List Src) :
    WritesRegs s.seen (halfFlags s act h0 ||| halfFlags s act h1)
      (halfWrite h1 s.seen act (halfWrite h0 s.seen act (s.seen.marks act srcs))) := by
  have hm : WritesRegs s.seen 0 (s.seen.marks act srcs) := by
    unfold WritesRegs
    rw [show s.seen.flags ||| 0 = s.seen.flags from BitVec.or_zero, Group.marks_frame]
  have h := (hm.trans (halfWrite_writesRegs (s := s) (act := act) h0 _)).trans (halfWrite_writesRegs (s := s) (act := act) h1 _)
  rwa [show 0 ||| halfFlags s act h0 = halfFlags s act h0 from BitVec.zero_or] at h

theorem halfWrite_vread (ha : ∀ l ∈ act, l < 32) (hf : Half) (k : Group) (r : Fin 320) {l : Nat} (hl : l < 32) :
    (halfWrite hf s.seen act k).vread r l = (halfNew s act hf (.v r) l).getD (k.vread r l) := by
  cases hf with
  | nop => rfl
  | op b => exact Group.wr_vread k _ act _ ha r hl

theorem halfWrite_sread (hf : Half) (k : Group) (n : Fin 64) :
    (halfWrite hf s.seen act k).sread n = (halfNew s act hf (.s n) (act.headD 0)).getD (k.sread n) := by
  cases hf with
  | nop => rfl
  | op b => exact Group.wr_sread k _ act _ n

/-- Both halves read the group before either writes: what every register holds after them (09 R127, R128). -/
theorem halfWrites_regs (ha : ∀ l ∈ act, l < 32) (h0 h1 : Half) (srcs : List Src) :
    RegsBy s.seen (halfWrite h1 s.seen act (halfWrite h0 s.seen act (s.seen.marks act srcs))) (pairNew s act h0 h1) srcs act where
  v r l hl := by rw [halfWrite_vread ha _ _ r hl, halfWrite_vread ha _ _ r hl, Group.marks_vread _ _ _ ha r hl, pairNew_eq, Option.getD_or]
  s n := by rw [halfWrite_sread, halfWrite_sread, Group.marks_sread, pairNew_eq, Option.getD_or]

/-- The registers of a ready instruction stay in the allocation while windows close. -/
theorem State.Ready.has_seen {ops : List Opd} (h : s.Ready ops) : ∀ o ∈ ops, s.seen.has o = true := fun o ho =>
  (Group.age_has s.me o).trans (h.regs o ho)

/-- The allocation holds both halves of a ready paired word: what is left to decide is whether they are in one bank. -/
theorem exec_pairedWord_ready {h0 h1 : Half} (h : s.Ready (halfOpds h0 ++ halfOpds h1)) :
    exec (.pairedWord h0 h1) s = .next (if sameBank h0 h1 then (s.setMe s.seen).trap .illegalPair 7 1
      else (s.setMe s.seen).setMe (halfWrite h1 s.seen s.seen.subset
        (halfWrite h0 s.seen s.seen.subset (s.seen.marks s.seen.subset (halfSrcs h0 ++ halfSrcs h1)))).next) := by
  have h0s : (halfOpds h0).all s.seen.has = true := List.all_eq_true.mpr fun o ho => h.has_seen o (List.mem_append_left _ ho)
  have h1s : (halfOpds h1).all s.seen.has = true := List.all_eq_true.mpr fun o ho => h.has_seen o (List.mem_append_right _ ho)
  show execPairedWord h0 h1 s = _
  unfold execPairedWord
  dsimp only
  rw [h.issue, State.setMe_me, show s.me.age = s.seen from rfl, h0s, h1s]
  rfl

end

/-- Settles O13: both halves write from the group as it stood before the word (`halfWrites_regs`), and change nothing else of it
(`halfWrites_writesRegs`); the illegal pair is the other branch of `exec_pairedWord_ready`. -/
theorem pairedWords : Obligations.PairedWords := by
  unfold Obligations.PairedWords
  intro s h0 h1 h
  rw [exec_pairedWord_ready h]
  refine ⟨fun hb => ?_, fun hb => by rw [if_pos hb]⟩
  rw [if_neg (Bool.eq_false_iff.mp hb)]
  refine ⟨_, rfl, ?_⟩
  have hframe := halfWrites_writesRegs (s := s) (act := s.seen.subset) h0 h1 (halfSrcs h0 ++ halfSrcs h1)
  have hregs := halfWrites_regs (s := s) (act := s.seen.subset) (fun l hl => (Group.mem_subset.mp hl).1) h0 h1 (halfSrcs h0 ++ halfSrcs h1)
  generalize halfWrite h1 s.seen s.seen.subset
    (halfWrite h0 s.seen s.seen.subset (s.seen.marks s.seen.subset (halfSrcs h0 ++ halfSrcs h1))) = k at hframe hregs ⊢
  unfold WritesRegs at hframe
  have hthreads : k.threads = s.seen.threads := by rw [hframe]
  have hplaces : s.seen.SamePlaces k := by
    refine ⟨fun l => ?_, by rw [hframe], by rw [hframe]⟩
    rw [Group.thr, hthreads]
    exact .refl _
  have hpreds : PredsKept s.seen k.next := by
    intro l hl
    rw [Group.next_preds k l hl, Group.thr, hthreads]
    rfl
  have hrest : GroupRest s.seen k := by
    unfold GroupRest
    conv => lhs; rw [hframe]
    rw [hframe]
  refine ⟨onlyGroup_setMe _ _ _, ?_, ?_, ?_, ?_, ?_⟩ <;> rw [State.setMe_me]
  · exact Group.next_rest hrest
  · exact hplaces.next_went
  · exact hpreds
  · exact hregs.next
  · rw [(Group.next_state k).2.2.2, hframe]

end Sys2Proof.Machine

namespace Sys2Proof.Machine
open Claims

/-! ## Traps and faults of the issuing group (21 R299 to R303) -/

theorem causeWord_eq (c : Cause) (order half flags : Nat) : causeWord c order half flags = causeBits c order half flags := by
  have hcode : c.code = causeCode c := by cases c <;> rfl
  unfold causeWord causeBits
  rw [hcode]
  exact congrArg _ (by omega)

theorem MemFault.head_eq (f : MemFault) : f.head = BitVec.ofNat 64 (faultHead f) := by
  unfold MemFault.head faultHead
  exact congrArg _ (by omega)

theorem State.identOf_eq (s : State) (b : Group) : s.identOf b = identBits s b := by
  unfold State.identOf identWord identBits partOf
  exact congrArg (BitVec.ofNat 64) (by omega)

/-- Closed windows leave a group's place in its team, and where its threads stand. -/
theorem Group.closeWindows_place (g : Group) :
    g.closeWindows.team = g.team ∧ g.closeWindows.index = g.index ∧ g.closeWindows.core = g.core
      ∧ g.closeWindows.threads = g.threads ∧ g.closeWindows.cur = g.cur := by
  rw [Group.closeWindows_frame]
  exact ⟨rfl, rfl, rfl, rfl, rfl⟩

theorem identBits_closeWindows (s : State) (g : Group) : identBits s g.closeWindows = identBits s g := by
  obtain ⟨hteam, hindex, hcore, -, -⟩ := g.closeWindows_place
  unfold identBits
  rw [hteam, hindex, hcore]

/-- The issuing group as it enters its trap entry (R299). -/
def trapped (s : State) (cause : Word) : Group :=
  { ((s.me.closeWindows.jump s.me.subset fun _ => (packet s).trap).swrite 62 cause).swrite 63 s.me.cur with cur := (packet s).trap }

/-- What a trap of the issuing group does: its entry, or a parked group and a record. -/
theorem State.trap_eq (s : State) (c : Cause) (order half flags : Nat) :
    s.trap c order half flags = if (packet s).trap ≠ 0 then s.setMe (trapped s (causeBits c order half flags))
      else (s.setMe { s.me.closeWindows with status := .parked .trap }).post s.myPart false
        { words := [causeBits c order half flags, s.me.cur, s.word, BitVec.ofNat 64 s.myTeam.grid, identBits s s.me, 0, 0, 0],
          timeAt := some 5, job := none, report := some (s.myTeam.grid, s.me.core) } := by
  obtain ⟨hteam, -, hcore, hthreads, hcur⟩ := s.me.closeWindows_place
  have hsub : s.me.closeWindows.subset = s.me.subset := by
    unfold Group.subset Group.inSubset Group.thr
    rw [hthreads, hcur]
  unfold State.trap State.trapGroup
  rw [causeWord_eq, ← show s.me = s.grp s.focus from rfl]
  dsimp only
  rw [State.identOf_eq, identBits_closeWindows, hteam, hcore, hsub]
  rfl

theorem Group.thr_jump (g : Group) (ls : List Nat) (f : Nat → Word) (l : Nat) :
    (g.jump ls f).thr l = if l < g.threads.length then if ls.contains l then { g.thr l with pc := f l } else g.thr l
      else Thread.none := by
  unfold Group.jump
  rw [Group.thr_mapThr]

/-- A thread of a trapped group: those of the current subset are at the trap entry. -/
theorem trapped_thr (s : State) (cause : Word) {l : Nat} (hl : l < 32) :
    (trapped s cause).thr l = if s.me.inSubset l then { s.me.thr l with pc := (packet s).trap } else s.me.thr l := by
  obtain ⟨-, -, -, hthreads, -⟩ := s.me.closeWindows_place
  show (s.me.closeWindows.jump s.me.subset fun _ => (packet s).trap).thr l = _
  have hthr : s.me.closeWindows.thr l = s.me.thr l := by rw [Group.thr, hthreads]; rfl
  rw [Group.thr_jump, hthr, hthreads, contains_subset hl]
  split
  · rfl
  · rename_i hlen
    rw [if_neg fun h => hlen (Group.inSubset_lt h), Group.thr_past _ hlen]

theorem trapped_frame (s : State) (cause : Word) :
    trapped s cause = { s.me with threads := (trapped s cause).threads, cur := (trapped s cause).cur, pending := []
                                  v := (trapped s cause).v, dead := (trapped s cause).dead, s := (trapped s cause).s } := by
  unfold trapped
  rw [Group.closeWindows_frame]
  rfl

theorem trapped_sread (s : State) (cause : Word) (n : Nat) :
    (trapped s cause).sread n = if n = 63 then s.me.cur else if n = 62 then cause else s.me.closeWindows.sread n :=
  (Group.swrite_sread _ 63 n _).trans (congrArg (fun x => if n = 63 then s.me.cur else x) (Group.swrite_sread _ 62 n _))

theorem State.memFault_eq (s : State) (f : MemFault) :
    s.memFault f = (s.setMe { s.me.closeWindows with status := .parked (.fault []) }).post s.myPart false
      { words := [BitVec.ofNat 64 (faultHead f), BitVec.ofNat 64 f.addr, s.me.cur, BitVec.ofNat 64 s.myTeam.grid, identBits s s.me,
          0, 0, 0], timeAt := some 5, job := none, report := some (s.myTeam.grid, s.me.core) } := by
  obtain ⟨hteam, -, hcore, -, -⟩ := s.me.closeWindows_place
  unfold State.memFault State.memFaultAt State.parkFault memRecord
  rw [MemFault.head_eq, ← show s.me = s.grp s.focus from rfl]
  dsimp only
  rw [State.identOf_eq, hteam, hcore]
  rfl

/-- A trap with a trap entry: the subset goes there, `s62` and `s63` say why and where, and nothing else happens (R299). -/
theorem trap_to_entry (s : State) (c : Cause) (order half flags : Nat) (h : (packet s).trap ≠ 0) :
    s.trap c order half flags = s.setMe (trapped s (causeBits c order half flags)) :=
  (s.trap_eq c order half flags).trans (if_pos h)

/-! ### Words that are no instruction, and fetches that fail (09 R136, 13 R183) -/

theorem exec_reservedInstructionWord {s : State} {w : Word} {row : Nat} (h : s.Ready []) (hw : decodeWord w = .error row) :
    exec (.reservedInstructionWord w) s
      = .next ((aged s).trap (if row = 6 then .illegalOperand else .illegalInstruction) row (rejectHalf w)) := by
  show execReservedInstructionWord w s = _
  unfold execReservedInstructionWord
  rw [hw]
  exact congrArg _ (State.issue_ready h.any _)

/-- A fetch that fails, for a group that can issue. -/
theorem exec_instructionFetchFault {s : State} (h : s.Ready []) :
    exec .instructionFetchFault s = .next (match s.fetchReason with
      | some e => s.memFault (fetchFault e s.me.cur.toNat)
      | none => s) := by
  show execInstructionFetchFault s = _
  unfold execInstructionFetchFault
  rw [h.issue]
  rfl

theorem fetchReason_error {s s1 : State} {e : Nat} (h : s.translate s.me.core s.myPart Need.fetch s.me.cur.toNat = (s1, .error e)) :
    s.fetchReason = some e := by
  unfold State.fetchReason
  dsimp only
  rw [h]

theorem fetchReason_ok {s s1 : State} {x : Where} (h : s.translate s.me.core s.myPart Need.fetch s.me.cur.toNat = (s1, .ok x)) :
    s.fetchReason = if (s1.physRead x.pa 8).2.isSome then none else some 6 := by
  unfold State.fetchReason
  dsimp only
  rw [h]

/-- Settles O39: `State.trap_eq` and `State.memFault_eq` give the delivery, `trapped` the group at its trap entry; a word that is no
instruction and a failed fetch reach them by their reasons. -/
theorem trapsAndFaults : Obligations.TrapsAndFaults := by
  unfold Obligations.TrapsAndFaults
  intro s c order half_ flags f w row
  refine ⟨fun h => ⟨_, trap_to_entry s c order half_ flags h, ⟨rfl, fun k hk => State.setMe_grp_ne s _ hk⟩, ?_⟩,
    fun h => (s.trap_eq c order half_ flags).trans (if_neg (not_not_intro h)), s.memFault_eq f, exec_reservedInstructionWord,
    fun hr s1 e he => ?_, fun hr s1 x hx => ⟨fun hn => ?_, fun hn => ?_⟩⟩
  · rw [State.setMe_me]
    refine ⟨fun l hl => ?_, fun l hl => ?_, rfl, ?_, trapped_sread s _ 62, trapped_sread s _ 63, fun n hn => ?_, fun r l _ => rfl,
      trapped_frame s _⟩
    · rw [trapped_thr s _ hl]
      split <;> rfl
    · rw [trapped_thr s _ hl]
      split <;> exact ⟨rfl, rfl, rfl, rfl⟩
    · rw [trapped_frame]
    · rw [trapped_sread, if_neg (by omega), if_neg (by omega)]
  · rw [exec_instructionFetchFault hr, fetchReason_error he]
    rfl
  · rw [exec_instructionFetchFault hr, fetchReason_ok hx, hn]
    rfl
  · rw [exec_instructionFetchFault hr, fetchReason_ok hx, hn]
    rfl

end Sys2Proof.Machine

namespace Sys2Proof.Machine
open Claims

/-! ## Memory events (09 R120, 07 R102) -/

/-- A group with no result outstanding, whose `v0` holds 1 in lane 0, and for which an `MMA` has read `v0` as A, in elements of no
bits: an instruction that reads `v0` gets 0 (`Group.vseen`), while the register itself still holds 1. -/
def zeroWidthRead : Group := { Group.absent with v := [(0, 1)], areads := [⟨0, 0, [0]⟩] }

/-- The package at reset with that group and nothing else. -/
def zeroWidthPackage : State := { State.reset with groups := [(0, zeroWidthRead)] }

theorem zeroWidthPackage_sound : zeroWidthPackage.Sound where
  mem := rfl
  tier := fun _ _ hx => absurd hx List.not_mem_nil
  copies := fun hne => absurd rfl hne
  boot := ⟨Nat.le_refl 1, show (1 : Nat) ≤ 6 by decide, Nat.zero_le _⟩
  power := ⟨show (1500 : Nat) ≤ 2800 by decide, Nat.le_refl 2800⟩

/-- What the register holds is not what an instruction reads of it. -/
theorem zeroWidthRead_vread : zeroWidthRead.vread 0 0 = 1 ∧ zeroWidthRead.rd (.v 0) 0 = 0 := by decide

/-- With nothing outstanding, a `LOAD_COMPLETION` leaves the group as it is. -/
theorem exec_loadCompletion_zeroWidth :
    exec (.loadCompletion 0 .zero 0) zeroWidthPackage = .next (zeroWidthPackage.setGrp 0 zeroWidthRead) := rfl

/-- Refutes O50: its clause for `LOAD_COMPLETION` takes as the value before the writes what an instruction reads of the register (`rd`),
which for a register that an `MMA` in flight read as A is a mixture with poison (07 R102), and claims it of the register itself. The
mixture of elements of no bits is 0 whatever the choices are, so a register that holds 1 refutes it; with widths that occur, the value
depends on the free choices. -/
theorem not_memoryEvents : ¬ Obligations.MemoryEvents := by
  unfold Obligations.MemoryEvents
  intro h
  obtain ⟨⟨t, ht, -, -, -, hv, -⟩, -⟩ := h zeroWidthPackage 0 .zero 0 0 false 0 0 0 0 0 [] Need.read zeroWidthPackage_sound
  obtain rfl := Host.Outcome.next.inj (exec_loadCompletion_zeroWidth.symm.trans ht)
  have hreg : zeroWidthRead.vread 0 0 = zeroWidthRead.rd (.v 0) 0 := hv 0 0
  obtain ⟨hone, hzero⟩ := zeroWidthRead_vread
  rw [hone, hzero] at hreg
  exact absurd hreg (by decide)

end Sys2Proof.Machine
